-- ==== Sys2Proof/Word.lean ====
section
/-!
DEFINITION. The plain words of the model: a byte of memory, and the little-endian number that a list of bytes spells
(spec 00: multi-byte fields are little-endian).
-/
namespace Sys2Proof

/-- One byte of memory. -/
abbrev Byte := BitVec 8

/-- The number that bytes spell, the first byte least significant (00, Notation and units). -/
def leNat : List Byte → Nat
  | [] => 0
  | b :: bs => b.toNat + 256 * leNat bs

/-- The first `n` bytes of the number `v`, least significant first. -/
def leBytes : Nat → Nat → List Byte
  | 0, _ => []
  | n + 1, v => BitVec.ofNat 8 v :: leBytes n (v / 256)

end Sys2Proof
end

