-- ==== Sys2Proof/Machine/Bits.lean ====
section
/-!
DEFINITION. Bit fields of numbers, CRCs and small arithmetic shared by every unit.
-/
namespace Sys2Proof

/-- Bits [lo + n − 1 : lo] of `w`. -/
def bits (w lo n : Nat) : Nat := (w >>> lo) % 2 ^ n

/-- Bit `i` of `w`. -/
def bit (w i : Nat) : Bool := bits w i 1 == 1

/-- `w` with bits [lo + n − 1 : lo] replaced by `v`. -/
def setBits (w lo n v : Nat) : Nat :=
  w - bits w lo n * 2 ^ lo + (v % 2 ^ n) * 2 ^ lo

/-- Two's complement reading of an `n`-bit number. -/
def signed (n v : Nat) : Int := if bit v (n - 1) then (v % 2 ^ n : Int) - 2 ^ n else (v % 2 ^ n : Nat)

/-- The `n`-bit pattern of an integer. -/
def unsigned (n : Nat) (i : Int) : Nat := (i % (2 ^ n : Int)).toNat

/-- 0 or 1. -/
def b01 (b : Bool) : Nat := if b then 1 else 0

/-- Ceiling division. -/
def ceilDiv (a b : Nat) : Nat := (a + b - 1) / b

/-- `a` rounded up to a multiple of `b`. -/
def roundUp (a b : Nat) : Nat := ceilDiv a b * b

/-- Saturating addition at the all-ones value of `n` bits (R456). -/
def satAdd (n a b : Nat) : Nat := min (a + b) (2 ^ n - 1)

/-- `n` bytes of a list from offset `o`, padded with zeros. -/
def slice (bs : List Byte) (o n : Nat) : List Byte :=
  let t := (bs.drop o).take n
  t ++ List.replicate (n - t.length) 0

/-- The little-endian field of `n` bytes at offset `o`. -/
def fld (bs : List Byte) (o n : Nat) : Nat := leNat ((bs.drop o).take n)

/-- One bit step of a reflected CRC-32 with polynomial `poly`. -/
def crcBit (poly c : Nat) : Nat := if c % 2 = 1 then (c / 2) ^^^ poly else c / 2

/-- One byte of a reflected CRC-32. -/
def crcByte (poly c : Nat) (b : Byte) : Nat :=
  let x := c ^^^ b.toNat
  crcBit poly (crcBit poly (crcBit poly (crcBit poly (crcBit poly (crcBit poly (crcBit poly (crcBit poly x)))))))

/-- `f n`, with `n` computed before `f` sees it, so that a fold over a long frame stays shallow. -/
def forced {α : Type} (f : Nat → α) : Nat → α
  | 0 => f 0
  | n + 1 => f (n + 1)

/-- The bytes of a reflected CRC-32 in order, from the remainder `c`. -/
def crcBytes (poly : Nat) : Nat → List Byte → Nat
  | c, [] => c
  | c, b :: t => forced (fun x => crcBytes poly x t) (crcByte poly c b)

/-- CRC-32C (Castagnoli): image digests (R143), order digests (R257), shape digests (R363), the flash record (R405). -/
def crc32c (bs : List Byte) : Nat := crcBytes 0x82F63B78 0xFFFFFFFF bs ^^^ 0xFFFFFFFF

/-- CRC-32 of IEEE 802.3: frames (R336) and control slots (R338). -/
def crc32 (bs : List Byte) : Nat := crcBytes 0xEDB88320 0xFFFFFFFF bs ^^^ 0xFFFFFFFF

/-- The first element that `p` admits, and the list without it. -/
def takeFirst {α : Type} (p : α → Bool) : List α → Option (α × List α)
  | [] => none
  | x :: t => if p x then some (x, t) else (takeFirst p t).map (fun (y, r) => (y, x :: r))

/-- Replace every element that `p` admits. -/
def updWhere {α : Type} (p : α → Bool) (f : α → α) (l : List α) : List α := l.map (fun x => if p x then f x else x)

end Sys2Proof
end

