-- ==== Sys2Proof/Machine/Formats.lean ====
section
/-!
DEFINITION. Number formats and rounding (spec 02, R30 to R56): values as exact dyadic numbers, decoding of every
element format, the three rounding modes, conversion with its health counts, the keyed random-bit generator.
-/
namespace Sys2Proof

/-- The format codes of R30. -/
inductive Fmt where
  | fp32 | fp16 | bf16 | e4m3 | e5m2 | mxE4m3 | mxE5m2 | mxE3m2 | mxE2m3 | mxE2m1 | mxInt8 | sb16
  | int32 | int16 | int8 | split
  deriving DecidableEq, Repr

/-- The format of a 5-bit code; codes 0x10 to 0x1F name none (R30). -/
def Fmt.ofCode : Nat → Option Fmt
  | 0x00 => some .fp32 | 0x01 => some .fp16 | 0x02 => some .bf16 | 0x03 => some .e4m3 | 0x04 => some .e5m2
  | 0x05 => some .mxE4m3 | 0x06 => some .mxE5m2 | 0x07 => some .mxE3m2 | 0x08 => some .mxE2m3 | 0x09 => some .mxE2m1
  | 0x0A => some .mxInt8 | 0x0B => some .sb16 | 0x0C => some .int32 | 0x0D => some .int16 | 0x0E => some .int8
  | 0x0F => some .split
  | _ => none

/-- The code of a format (R30). -/
def Fmt.code : Fmt → Nat
  | .fp32 => 0x00 | .fp16 => 0x01 | .bf16 => 0x02 | .e4m3 => 0x03 | .e5m2 => 0x04
  | .mxE4m3 => 0x05 | .mxE5m2 => 0x06 | .mxE3m2 => 0x07 | .mxE2m3 => 0x08 | .mxE2m1 => 0x09
  | .mxInt8 => 0x0A | .sb16 => 0x0B | .int32 => 0x0C | .int16 => 0x0D | .int8 => 0x0E | .split => 0x0F

/-- Bits of one element (R30). -/
def Fmt.elemBits : Fmt → Nat
  | .fp32 | .int32 | .split => 32
  | .fp16 | .bf16 | .sb16 | .int16 => 16
  | .e4m3 | .e5m2 | .mxE4m3 | .mxE5m2 | .mxInt8 | .int8 => 8
  | .mxE3m2 | .mxE2m3 => 6
  | .mxE2m1 => 4

/-- Formats with one E8M0 scale per 32 elements (R30, R35). -/
def Fmt.isBlock : Fmt → Bool
  | .mxE4m3 | .mxE5m2 | .mxE3m2 | .mxE2m3 | .mxE2m1 | .mxInt8 | .sb16 => true
  | _ => false

/-- Integer formats (R34). -/
def Fmt.isInt : Fmt → Bool
  | .int32 | .int16 | .int8 => true
  | _ => false

/-- Bytes of one 32-element block (R35). -/
def Fmt.blockBytes (f : Fmt) : Nat := 4 * f.elemBits

/-- Rounding modes (R43). -/
inductive Rnd where | rne | rz | stoch
  deriving DecidableEq, Repr

/-- The mode of a 2-bit field; 3 is refused with PARAM_RANGE (R43). -/
def Rnd.ofCode : Nat → Option Rnd
  | 0 => some .rne | 1 => some .rz | 2 => some .stoch | _ => none

/-- A value: NaN, an infinity, or (−1)^neg × m × 2^e, exactly. -/
inductive Val where
  | nan
  | inf (neg : Bool)
  | fin (neg : Bool) (m : Nat) (e : Int)
  deriving DecidableEq, Repr

/-- +0. -/
def Val.zero : Val := .fin false 0 0

def Val.isNan : Val → Bool | .nan => true | _ => false
def Val.isInf : Val → Bool | .inf _ => true | _ => false
def Val.isZero : Val → Bool | .fin _ 0 _ => true | _ => false
/-- The sign bit of a value; a NaN has sign 0 (R32). -/
def Val.neg? : Val → Bool | .nan => false | .inf n => n | .fin n _ _ => n
def Val.negate : Val → Val | .nan => .nan | .inf n => .inf !n | .fin n m e => .fin (!n) m e
def Val.abs : Val → Val | .nan => .nan | .inf _ => .inf false | .fin _ m e => .fin false m e

/-- m × 2^e as an integer in units of 2^q, for q not above e. -/
def scaleUp (m : Nat) (e q : Int) : Nat := m * 2 ^ (e - q).toNat

/-- The value of an integer in units of 2^q; a zero takes the sign given. -/
def ofUnits (zneg : Bool) (i : Int) (q : Int) : Val :=
  if i = 0 then .fin zneg 0 0 else .fin (decide (i < 0)) i.natAbs q

/-- A finite value as a signed integer in units of 2^q. -/
def units (neg : Bool) (m : Nat) (e q : Int) : Int := if neg then -(scaleUp m e q : Int) else scaleUp m e q

/-- Exact addition; infinities and NaN as IEEE 754, an exact zero sum +0 unless both addends are −0 (R53, R88). -/
def Val.add : Val → Val → Val
  | .nan, _ => .nan
  | _, .nan => .nan
  | .inf a, .inf b => if a = b then .inf a else .nan
  | .inf a, _ => .inf a
  | _, .inf b => .inf b
  | .fin a m e, .fin b n f =>
    let q := min e f
    ofUnits (a && b && m == 0 && n == 0) (units a m e q + units b n f q) q

def Val.sub (x y : Val) : Val := Val.add x y.negate

/-- Exact multiplication; Inf × 0 is NaN (R53). -/
def Val.mul : Val → Val → Val
  | .nan, _ => .nan
  | _, .nan => .nan
  | .inf a, .fin b n _ => if n = 0 then .nan else .inf (a != b)
  | .fin a m _, .inf b => if m = 0 then .nan else .inf (a != b)
  | .inf a, .inf b => .inf (a != b)
  | .fin a m e, .fin b n f => .fin (a != b) (m * n) (e + f)

/-- Exact sum of a list. -/
def Val.sum : List Val → Val
  | [] => .zero
  | [x] => x
  | x :: xs => Val.add x (Val.sum xs)

/-- floor(log2) of a non-zero magnitude. -/
def mag2 (m : Nat) (e : Int) : Int := (Nat.log2 m : Int) + e

/-- Order of two values, NaN excluded; −0 below +0 (R53). -/
def Val.lt : Val → Val → Bool
  | .inf true, .inf true => false
  | .inf true, _ => true
  | _, .inf true => false
  | .inf false, _ => false
  | _, .inf false => true
  | .fin a m e, .fin b n f =>
    let q := min e f
    let x := units a m e q
    let y := units b n f q
    decide (x < y) || (decide (x = y) && a && !b)
  | _, _ => false

/-- Numerical order for comparisons: the zeros are equal. -/
def Val.ltNum (x y : Val) : Bool := if x.isZero && y.isZero then false else Val.lt x y

/-- Numerical equality, unordered false. -/
def Val.eqNum (x y : Val) : Bool := !x.isNan && !y.isNan && !(Val.ltNum x y) && !(Val.ltNum y x)

/-- min and max of R53: NaN if either operand is NaN; −0 orders below +0. -/
def Val.min (x y : Val) : Val := if x.isNan || y.isNan then .nan else if Val.lt y x then y else x
def Val.max (x y : Val) : Val := if x.isNan || y.isNan then .nan else if Val.lt x y then y else x

/-- A floating-point layout: mantissa bits, exponent bits, bias, the largest finite magnitude (units of 2^maxQ),
whether the all-ones exponent encodes infinities, and the canonical NaN (R31, R32). -/
structure FLay where
  man : Nat
  exp : Nat
  bias : Int
  maxM : Nat
  maxQ : Int
  hasInf : Bool
  nan : Option Nat
  deriving DecidableEq, Repr

def FLay.emin (l : FLay) : Int := 1 - l.bias

def lay32 : FLay := ⟨23, 8, 127, 2 ^ 24 - 1, 104, true, some 0x7FC00000⟩
def lay16 : FLay := ⟨10, 5, 15, 2 ^ 11 - 1, 5, true, some 0x7E00⟩
def layBf : FLay := ⟨7, 8, 127, 2 ^ 8 - 1, 120, true, some 0x7FC0⟩
def layE4m3 : FLay := ⟨3, 4, 7, 14, 5, false, some 0x7F⟩
def layE5m2 : FLay := ⟨2, 5, 15, 7, 13, true, some 0x7E⟩
def layE3m2 : FLay := ⟨2, 3, 3, 7, 2, false, none⟩
def layE2m3 : FLay := ⟨3, 2, 1, 15, -1, false, none⟩
def layE2m1 : FLay := ⟨1, 2, 1, 3, 1, false, none⟩

/-- The floating-point layout of a format's elements; none for the integer formats and MXINT8 (R31). -/
def Fmt.lay : Fmt → Option FLay
  | .fp32 | .split => some lay32
  | .fp16 | .sb16 => some lay16
  | .bf16 => some layBf
  | .e4m3 | .mxE4m3 => some layE4m3
  | .e5m2 | .mxE5m2 => some layE5m2
  | .mxE3m2 => some layE3m2
  | .mxE2m3 => some layE2m3
  | .mxE2m1 => some layE2m1
  | .mxInt8 | .int32 | .int16 | .int8 => none

/-- The value of `w` in layout `l` (R31). -/
def FLay.decode (l : FLay) (w : Nat) : Val :=
  let m := w % 2 ^ l.man
  let x := (w >>> l.man) % 2 ^ l.exp
  let s := bit w (l.man + l.exp)
  if l.hasInf && x == 2 ^ l.exp - 1 then (if m = 0 then .inf s else .nan)
  else if !l.hasInf && l.nan.isSome && x == 2 ^ l.exp - 1 && m == 2 ^ l.man - 1 then .nan
  else if x = 0 then .fin s m (l.emin - l.man)
  else .fin s (2 ^ l.man + m) ((x : Int) - l.bias - l.man)

/-- The value of one element of format `f` before any block scale (R31, R34, R36). -/
def Fmt.decode (f : Fmt) (w : Nat) : Val :=
  match f.lay with
  | some l => l.decode w
  | none =>
    let i := signed f.elemBits w
    ofUnits false i (if f = .mxInt8 then -6 else 0)

/-- The scale 2^(v − 127) applied to an element's value; code 0xFF makes it NaN (R37). -/
def applyScale (v : Nat) : Val → Val
  | x => if v = 0xFF then .nan else match x with
    | .fin n m e => .fin n m (e + (v : Int) - 127)
    | y => y

/-- Round m × 2^e to an integer number of units of 2^q: the kept integer (R44, R45). `r` is the draw of STOCH. -/
def roundTo (md : Rnd) (r : Nat) (m : Nat) (e q : Int) : Nat :=
  if q ≤ e then scaleUp m e q
  else
    let s := (q - e).toNat
    let k := m >>> s
    let rem := m % 2 ^ s
    match md with
    | .rz => k
    | .rne => if 2 * rem > 2 ^ s then k + 1 else if 2 * rem = 2 ^ s then k + k % 2 else k
    | .stoch =>
      let d16 := if 16 ≤ s then rem >>> (s - 16) else rem * 2 ^ (16 - s)
      if r < d16 then k + 1 else k

/-- Health counts (R55). -/
structure Health where
  nanIn : Nat := 0
  nanOut : Nat := 0
  infOut : Nat := 0
  sat : Nat := 0
  flush : Nat := 0
  deriving DecidableEq, Repr

def Health.zero : Health := ⟨0, 0, 0, 0, 0⟩

/-- A set is 32 bits per counter and saturates (R56). -/
def Health.add (a b : Health) : Health :=
  ⟨satAdd 32 a.nanIn b.nanIn, satAdd 32 a.nanOut b.nanOut, satAdd 32 a.infOut b.infOut,
   satAdd 32 a.sat b.sat, satAdd 32 a.flush b.flush⟩

/-- The encoding of k units of 2^q in layout `l` (k below 2^(man+2), q at least the subnormal unit). -/
def FLay.pack (l : FLay) (neg : Bool) (k : Nat) (q : Int) : Nat :=
  let (k, q) := if k ≥ 2 ^ (l.man + 1) then (k / 2, q + 1) else (k, q)
  let body := if k < 2 ^ l.man then k
    else (((q + l.man + l.bias).toNat) <<< l.man) + (k - 2 ^ l.man)
  body + b01 neg * 2 ^ (l.man + l.exp)

/-- The largest finite magnitude, with a sign. -/
def FLay.packMax (l : FLay) (neg : Bool) : Nat := l.pack neg l.maxM l.maxQ

/-- The infinity of a layout that has one; the canonical NaN of one that has none but has a NaN (R46, E4M3). -/
def FLay.packInf (l : FLay) (neg : Bool) : Nat :=
  if l.hasInf then ((2 ^ l.exp - 1) <<< l.man) + b01 neg * 2 ^ (l.man + l.exp) else l.nan.getD (l.packMax neg)

/-- The unit in the last place at magnitude m × 2^e. -/
def FLay.quantum (l : FLay) (m : Nat) (e : Int) : Int := max (mag2 m e) l.emin - l.man

/-- Conversion of a value to a scalar floating-point layout, with its counts (R44 to R47). -/
def FLay.convert (l : FLay) (md : Rnd) (nonsat : Bool) (r : Nat) : Val → Nat × Health
  | .nan => (l.nan.getD 0, .zero)
  | .inf n =>
    if l.hasInf then (l.packInf n, .zero)
    else if nonsat then (l.packInf n, .zero)
    else (l.packMax n, { Health.zero with sat := 1 })
  | .fin n 0 _ => (l.pack n 0 (l.emin - l.man), .zero)
  | .fin n m e =>
    let q := l.quantum m e
    let k := roundTo md r m e q
    if k = 0 then (l.pack n 0 q, { Health.zero with flush := 1 })
    else if Val.lt (.fin false l.maxM l.maxQ) (.fin false k q) then
      if nonsat && md ≠ .rz then (l.packInf n, .zero) else (l.packMax n, { Health.zero with sat := 1 })
    else (l.pack n k q, .zero)

/-- Conversion of a value to a two's complement integer of `n` bits: rounds, then saturates; NaN gives 0 (R47); a
non-zero value that rounds to zero counts FLUSH_ZERO (R55). -/
def toInteger (n : Nat) (md : Rnd) (r : Nat) : Val → Nat × Health
  | .nan => (0, { Health.zero with nanIn := 1 })
  | .inf true => (2 ^ (n - 1), { Health.zero with sat := 1 })
  | .inf false => (2 ^ (n - 1) - 1, { Health.zero with sat := 1 })
  | .fin s m e =>
    let k := roundTo md r m e 0
    if k = 0 ∧ m ≠ 0 then (0, { Health.zero with flush := 1 })
    else if s then (if k > 2 ^ (n - 1) then (2 ^ (n - 1), { Health.zero with sat := 1 }) else (unsigned n (-(k : Int)), .zero))
    else (if k ≥ 2 ^ (n - 1) then (2 ^ (n - 1) - 1, { Health.zero with sat := 1 }) else (k, .zero))

/-- Counts taken at a write of one scalar element (R55). -/
def outHealth (f : Fmt) (w : Nat) : Health :=
  match f.lay with
  | some l => match l.decode w with
    | .nan => { Health.zero with nanOut := 1 }
    | .inf _ => { Health.zero with infOut := 1 }
    | _ => .zero
  | none => .zero

/-- Counts taken at a read of one element (R55). -/
def inHealth (v : Val) : Health := if v.isNan then { Health.zero with nanIn := 1 } else .zero

/-- Conversion to a format without block scale (R46, R47). Integer sources convert exactly as values. -/
def Fmt.convert (f : Fmt) (md : Rnd) (nonsat : Bool) (r : Nat) (v : Val) : Nat × Health :=
  match f.lay with
  | some l => l.convert md nonsat r v
  | none => toInteger f.elemBits md r v

/-- emax of R38. -/
def Fmt.emax : Fmt → Int
  | .mxE4m3 => 8 | .mxE5m2 => 15 | .mxE3m2 => 4 | .mxE2m3 => 2 | .mxE2m1 => 2 | .mxInt8 => 0 | _ => 0

/-- The largest magnitude of the finite elements of a block, if one is not zero: floor(log2 amax). -/
def blockMag : List Val → Option Int
  | [] => none
  | .fin _ (m + 1) e :: t =>
    match blockMag t with
    | none => some (mag2 (m + 1) e)
    | some x => some (max (mag2 (m + 1) e) x)
  | _ :: t => blockMag t

/-- Clamp an integer to 0 … 254. -/
def clampScale (i : Int) : Nat := (max 0 (min i 254)).toNat

/-- One element of an MX block, already divided by the scale: rounded, and clamped to the largest finite value of its
sign without a count (R38); a non-zero element rounded to zero counts FLUSH_ZERO (R46). -/
def Fmt.mxElem (f : Fmt) (md : Rnd) (r : Nat) (v : Val) : Nat × Health :=
  match f.lay with
  | some l =>
    match v with
    | .fin n 0 _ => (l.pack n 0 (l.emin - l.man), .zero)
    | .fin n m e =>
      let q := l.quantum m e
      let k := roundTo md r m e q
      if k = 0 then (l.pack n 0 q, { Health.zero with flush := 1 })
      else if Val.lt (.fin false l.maxM l.maxQ) (.fin false k q) then (l.packMax n, .zero)
      else (l.pack n k q, .zero)
    | _ => (0, .zero)
  | none =>
    match v with
    | .fin n (m + 1) e =>
      let k := min (roundTo md r (m + 1) e (-6)) 127
      (unsigned 8 (if n then -(k : Int) else k), if k = 0 then { Health.zero with flush := 1 } else .zero)
    | _ => (0, .zero)

/-- The value of an element divided by 2^(code − 127). -/
def unscale (code : Nat) : Val → Val
  | .fin n m e => .fin n m (e - (code : Int) + 127)
  | v => v

/-- Encode the elements of one block (at most 32; padding is not in the list): scale code, element codes, counts
(R36, R38 to R41). `draws` gives the STOCH draw of each element. -/
def Fmt.encodeBlock (f : Fmt) (md : Rnd) (nonsat : Bool) (draws : List Nat) (vs : List Val) : Nat × List Nat × Health :=
  let zeros := List.replicate vs.length 0
  let anyNan := vs.any Val.isNan
  let infs := (vs.filter Val.isInf).length
  if f = .sb16 then
    if anyNan || infs > 0 then (0xFF, zeros, { Health.zero with infOut := vs.length })
    else
      let code := match blockMag vs with | none => 0 | some g => clampScale (g - 14 + 127)
      let es := (vs.zip draws).map (fun (v, r) => lay16.convert md nonsat r (unscale code v))
      (code, es.map Prod.fst, (es.map Prod.snd).foldl Health.add .zero)
  else
    if anyNan || (infs > 0 && nonsat && f ≠ .mxE5m2) then (0xFF, zeros, { Health.zero with nanOut := vs.length })
    else
      let code := match blockMag vs with | none => 0 | some g => clampScale (g - f.emax + 127)
      let es := (vs.zip draws).map (fun (v, r) =>
        match v with
        | .inf n =>
          (match f.lay with
           | some l => if nonsat then (l.packInf n, { Health.zero with infOut := 1 })
                       else (l.packMax n, { Health.zero with sat := 1 })
           | none => (if n then 0x81 else 0x7F, { Health.zero with sat := 1 }))
        | v => f.mxElem md r (unscale code v))
      (code, es.map Prod.fst, (es.map Prod.snd).foldl Health.add .zero)

/-- The split of R42: hi is x rounded to BF16 with RZ, lo is x − hi rounded with RNE; a non-finite x keeps hi = x, lo = +0. -/
def splitHi (x : Val) : Val :=
  match x with
  | .fin _ _ _ => layBf.decode (layBf.convert .rz false 0 x).1
  | v => v

def splitLo (x : Val) : Val :=
  match x with
  | .fin _ _ _ => layBf.decode (layBf.convert .rne false 0 (Val.sub x (splitHi x))).1
  | _ => .zero

/-- FP32 rounding of an exact value to its bits, overflow to infinity (the accumulate stage and chains, R53): the
saturation field is not used. -/
def to32 (md : Rnd) (r : Nat) (v : Val) : Nat :=
  match v with
  | .fin n (m + 1) e =>
    let rne := (lay32.convert .rne true 0 v).1
    match md with
    | .stoch =>
      if (lay32.decode rne).isInf then rne
      else
        let q := lay32.quantum (m + 1) e
        let k := roundTo .stoch r (m + 1) e q
        if Val.lt (.fin false lay32.maxM lay32.maxQ) (.fin false k q) then lay32.packMax n else lay32.pack n k q
    | .rz => (lay32.convert .rz true 0 v).1
    | .rne => rne
  | v => (lay32.convert .rne true 0 v).1

/-- FP32 with RNE, as a value. -/
def r32 (v : Val) : Val := lay32.decode (to32 .rne 0 v)

/-- a × b + c with one RNE rounding. -/
def fma32 (a b c : Val) : Val := r32 (Val.add (Val.mul a b) c)

/-- The keyed mixer of R49: one round. -/
def mixRound (k0 k1 i : Nat) (x : Nat × Nat × Nat × Nat) : Nat × Nat × Nat × Nat :=
  let (x0, x1, x2, x3) := x
  let w := 2 ^ 32
  let rotl := fun (v n : Nat) => ((v <<< n) % w) ||| (v >>> (32 - n))
  let c := ((i + 1) * 0x6A5D39E9) % w
  let x0 := ((x0 + (k0 ^^^ c)) * 0xB5E31D27) % w
  let x1 := ((x1 ^^^ ((k1 + c) % w)) * 0xD1A64F93) % w
  let x2 := x2 ^^^ rotl x0 13
  let x3 := (x3 + rotl x1 19) % w
  let x0 := x0 ^^^ (x3 >>> 16)
  let x1 := x1 ^^^ (x2 >>> 15)
  (x2, x3, x1, x0)

/-- Ten rounds of the mixer (R49): the four output words. -/
def mixer (key ctr : Nat) : Nat × Nat × Nat × Nat :=
  let w := 2 ^ 32
  (List.range 10).foldl (fun x i => mixRound (key % w) ((key >>> 32) % w) i x)
    (ctr % w, (ctr >>> 32) % w, (ctr >>> 64) % w, (ctr >>> 96) % w)

/-- What keys a STOCH draw (R48). -/
structure Key where
  seed : Nat
  step : Nat
  tensor : Nat
  site : Nat
  seq : Nat
  deriving DecidableEq, Repr

/-- The 16-bit draw r of element `idx` under a key (R45, R48): output bits [15:0]. -/
def Key.draw (k : Key) (idx : Nat) : Nat :=
  (mixer k.seed (idx % 2 ^ 48 + (k.step % 2 ^ 32) * 2 ^ 48 + (k.tensor % 2 ^ 32) * 2 ^ 80
    + (k.site % 256) * 2 ^ 112 + (k.seq % 256) * 2 ^ 120)).1 % 2 ^ 16

/-- A STOCH site that a descriptor may select (R48): 0x03 to 0x7F are reserved. -/
def siteOk (site : Nat) : Bool := decide (site < 3) || (decide (0x80 ≤ site) && decide (site < 0x100))

end Sys2Proof
end

