-- ==== Sys2Proof/Syntax.lean ====
section
/-!
DEFINITION. The commands of the block: one constructor of `Instr` for each row of the command table, in its order,
with the data the sender supplies. A queue is Q_q (0 to 63); `id` names executing work by the identifier the module
gave it (State.uid); tiles, stacks, ports, lanes and synchronisation objects carry physical numbers (R21); a value
`v` is the value the host writes.
-/
namespace Sys2Proof

/-- Where a row, a slot-row or a beat comes from: tile store or operand cache at a byte offset, or the input queue of
a stream (R62, R66). -/
inductive Feed where
  | store (off : Nat)
  | cache (off : Nat)
  | stream (id : Nat)
  deriving DecidableEq, Repr

/-- One issue attempt of a streaming row: the fields of the pass record and array setup that rule it (R144), which
the context holds under names and without bit positions (log 63). -/
structure RowIssue where
  /-- the run or operator the row belongs to -/
  work : Nat
  tile : Nat
  array : Nat
  pn : Nat
  /-- shape: 0 P1, 1 P2, 2 P4, 3 P16 -/
  shape : Nat
  /-- operand format codes, streaming and stationary -/
  fmtA : Nat
  fmtB : Nat
  /-- row of the pass, 0 to M − 1 -/
  m : Nat
  /-- rows of the pass, and its accumulator base row -/
  rows : Nat
  base : Nat
  /-- R87 -/
  mode : Nat
  chainOut : Bool
  /-- downstream array of CHAIN_OUT: tile × 2 + array -/
  chainTo : Nat
  /-- the row carries a swap marker (R67) -/
  marker : Bool
  /-- rounding mode code (R43) -/
  rnd : Nat
  seq : Nat
  src : Feed
  /-- offset of the row's scale bytes, block formats; or the stream that carries them -/
  scale : Nat
  scaleStream : Bool
  /-- FP32-split sub-pass: 0 hi·lo, 1 lo·hi, 2 hi·hi (R71) -/
  sub : Nat
  kUsed : Nat
  nUsed : Nat
  /-- feed window, base and limit, inclusive (R79) -/
  winBase : Nat
  winLimit : Nat
  tag : Nat
  tensor : Nat
  /-- logical index of the row's element 0, micro-batch part included (R155) -/
  logical : Nat
  deriving DecidableEq, Repr

/-- One slot-row of a stationary load (R66, R70). -/
structure SlotRow where
  work : Nat
  tile : Nat
  array : Nat
  pn : Nat
  shape : Nat
  fmt : Nat
  /-- 0 a plain operand; for format 0x0F, 0 the lo set and 1 the hi set (R71) -/
  part : Nat
  src : Feed
  /-- bytes between source rows -/
  pitch : Nat
  scale : Nat
  /-- `scale` names the stream that carries the scale bytes -/
  scaleStream : Bool
  transpose : Bool
  kUsed : Nat
  nUsed : Nat
  deriving DecidableEq, Repr

/-- The source class of a late input under its cause (R166): 3 an HBM activity of no class, 4 and 5 PEER, 6 HOST or LOCAL. -/
def lateOk (cls cause : Nat) : Bool :=
  match cause with | 3 => cls == 3 | 4 | 5 => cls == 0 | 6 => cls == 1 || cls == 2 | _ => false

/-- A streaming row: the next one of a pinnule in the list of a run's feeder (R146), or one given outright, as the
operator firmware issues it. -/
inductive RowRef where
  | frond (id tile array pn : Nat)
  | direct (r : RowIssue)
  deriving DecidableEq, Repr

/-- A slot-row: the next one of a load path's list (R66), or one given outright. -/
inductive SlotRef where
  | frond (id tile array : Nat)
  | direct (r : SlotRow)
  deriving DecidableEq, Repr

/-- What ECC finds in the words that a tile unit reads for a row: byte offset in the tile's slot, and whether the error is
uncorrectable (R84, R137, R266); `ctx`: the word of the context that the unit reads holds an uncorrectable one (R154). -/
structure EccFound where
  words : List (Nat × Bool) := []
  ctx : Bool := false
  deriving DecidableEq, Repr

/-- A row of a tile unit, with what ECC finds in the words it reads. -/
structure Reading (α : Type) where
  row : α
  ecc : EccFound := {}
  deriving DecidableEq, Repr

/-- A frame as a port receives it: its bytes, and the most symbol errors in a codeword that carries it (R334). -/
structure FrameRead where
  bytes : List Byte
  errs : Nat := 0
  deriving DecidableEq, Repr

/-- The lane on which an alignment codeword arrives, and the lane index that it carries (R333, R335). -/
structure LaneRead where
  lane : Nat
  index : Nat
  deriving DecidableEq, Repr

/-- The lanes of a port that trained, and those whose received polarity is inverted (R333). -/
structure Trained where
  mask : Nat
  inverted : Nat
  deriving DecidableEq, Repr

/-- The 64-byte block of a stack, in the stack's own order, in which a read found an error; `corrected`: a correctable
one (R279). -/
structure BlockError where
  block : Nat
  corrected : Bool
  deriving DecidableEq, Repr

/-- Where a drain, FILL or invocation takes its descriptor from: entry `e` of the active context of a run's tile
(R146), or bytes given outright, as the operator firmware, FUSED_CHAIN or an update engine builds them; `hbm` sets up what
an update engine's SPACE 2 entries reach: entry, byte offset in its stack (R140). -/
inductive WorkRef where
  | frond (id tile e : Nat)
  | direct (id tile : Nat) (desc record : List Byte) (step : Nat) (hbm : List (Nat × Nat))
  deriving DecidableEq, Repr

/-- A stream beat: sixteen 32-bit lanes, a lane mask and a poison mark (R170). -/
structure Beat where
  lanes : List Nat
  mask : Nat
  poison : Bool
  deriving DecidableEq, Repr, Inhabited

/-- A control slot's cumulative state (R338): the acknowledgement, the NAK, the eight freed-buffer counts, and whether it
acknowledges the FREEZE or RELEASE that the port repeats. -/
structure SlotBody where
  ack : Nat
  nak : Bool
  freed : List Nat
  crcOk : Bool
  heard : Bool := false
  deriving DecidableEq, Repr

/-- The parts of firmware stage F1 that happen outside the model: flash readable, each slot's signature verdict and
security version number (R404, R415). -/
structure BootImages where
  readable : Bool
  ok0 : Bool
  ok1 : Bool
  digests : List (List Byte)
  deriving DecidableEq, Repr

/-- What stage F2 finds: fuse read, units and boundaries failing, BIST results (R268, R404, R407). -/
structure BistReport where
  fusesOk : Bool
  /-- a die whose control core, synchronisation unit, DMA engine or context loader fails -/
  badDie : Option Nat
  badBoundary : Option Nat
  /-- (tile × 32 + bank, spares the BIST needs beyond the fused ones) -/
  banks : List (Nat × Nat)
  digest : List Byte
  deriving DecidableEq, Repr

/-- A power scope (R421). -/
inductive Scope where
  | tile (t : Nat)
  | die (d : Nat)
  | module
  deriving DecidableEq, Repr

/-- The commands. -/
inductive Instr where
  | nop (q : Nat)
  | fence (q : Nat)
  | signal (q : Nat)
  | wait (q : Nat)
  | loadFrond (q : Nat)
  | runFrond (q : Nat)
  | unloadFrond (q : Nat)
  | op (q : Nat)
  | copy (q : Nat)
  | copyNd (q : Nat)
  | fusedChain (q : Nat)
  | halfSwap (q : Nat)
  | updateStep (q : Nat)
  | rootRefresh (q : Nat)
  | groupWrite (q : Nat)
  | collective (q : Nat)
  | reshard (q : Nat)
  | kvRing (q : Nat)
  | pairConfig (q : Nat)
  | pairCommit (q : Nat)
  | perfSnapshot (q : Nat)
  | traceCtl (q : Nat)
  | quiesce (q : Nat)
  | quiesced (p : Nat)
  | partialCommandTimeout (q : Nat)
  /-- `id` 0: the command waiting to dispatch; otherwise the executing command `id` -/
  | waitTimeout (q id : Nat)
  | completionRecord (q : Nat)
  | queueEnable (v : Nat)
  | queueDisable (v : Nat)
  | resume (v : Nat)
  | sqTail (q v : Nat)
  | cqHead (q v : Nat)
  | eventSet (obj : Nat)
  | eventClear (obj : Nat)
  | semPost (obj n : Nat)
  | semTry (obj : Nat)
  | counterAdd (obj v : Nat)
  | counterSet (obj v : Nat)
  | barrierArrive (obj : Nat)
  | initCounter (obj v : Nat)
  | initSemaphore (obj v : Nat)
  | initBarrier (obj v : Nat)
  | initEvent (obj v : Nat)
  | waiterPoll (w : Nat)
  | swapNotice (tile : Nat)
  | handoverSwap (id stage : Nat)
  | dmaDescriptor (id : Nat)
  | contextLoad (die : Nat)
  | contextLoadComplete (id : Nat)
  | runStart (id : Nat)
  | bodyStart (id : Nat)
  | planeSwitch (id : Nat)
  | issueEnd (id : Nat)
  | runComplete (id : Nat)
  /-- `cause` 3 to 6 of R166, `cls` 0 PEER, 1 HOST, 2 LOCAL -/
  | timedInputLate (id input cls cause : Nat)
  | holdEnd (id : Nat)
  | joinStarve (id : Nat)
  | streamingRowIssue (r : Reading RowRef)
  | slotRowLoad (r : Reading SlotRef)
  | drain (w : Reading WorkRef)
  | fill (w : Reading WorkRef)
  | invocation (w : Reading WorkRef)
  | streamBeat (tile stream : Nat)
  | creditReturn (tile stream dest : Nat)
  | switchItem (tile unit : Nat)
  | mergeItem (tile unit : Nat)
  | operatorStart (id : Nat)
  | workCounterTake (obj requester seq : Nat)
  | outputTileComplete (id tile index : Nat)
  | momentumPhase (id block : Nat)
  | weightPhase (id block : Nat)
  | write (p : Nat)
  | writeRsp (p : Nat)
  | syncReq (p : Nat)
  | syncRsp (p : Nat)
  | collSeg (p : Nat)
  | clear (p : Nat)
  | abort (p : Nat)
  | stale (p : Nat)
  | busy (p : Nat)
  | clearResend (id member : Nat)
  | arrive (p : Nat)
  | flags (p : Nat)
  | collTimeout (id member : Nat)
  | mirrorData (p : Nat)
  | groupEnd (p : Nat)
  | scaleRecordEnd (p : Nat)
  | mirrorAck (p : Nat)
  | form (p : Nat)
  | commit (p : Nat)
  | resyncBytes (p : Nat)
  /-- `ended`: the message shows that the sender has ended pairing, which R394 has it show and no rule lays out (log 24) -/
  | pairHeartbeat (port node epoch : Nat) (frozen faulted ended : Bool)
  | heartbeatSend (p : Nat)
  | heartbeatTimeout (p : Nat)
  | pairFailN (low : Bool)
  | dataFrame (port : Nat) (bytes : FrameRead)
  | controlSlot (port : Nat) (b : SlotBody)
  | frameTransmit (port : Nat)
  | ackTimeout (port : Nat)
  | freeze (port node seq : Nat)
  | release (port node seq : Nat)
  | widthChange (port lane codeword : Nat)
  /-- coefficient 0 to 4 of the transmit FFE, 5 the CTLE, 6 to 21 of the receiver's FFE, 22 the DFE (log 94) -/
  | equaliserRequest (lane tap : Nat) (up : Bool)
  | alignmentCodeword (lane : LaneRead) (node peerPort dir mask : Nat)
  | portTraining (port : Nat) (mask : Trained)
  | retrainInterval (port : Nat)
  /-- symbol errors and symbols of the window, uncorrectable codewords, highest margin seen in it -/
  | laneErrorWindow (lane errors symbols uncorr margin : Nat)
  | lockLoss (lane : Nat)
  | laneRetire (v : Nat)
  | portEnable (v : Nat)
  | haltN (low : Bool)
  | freezeReq (v : Nat)
  | freezeResume
  | continueBreak (v : Nat)
  | counterReset (v : Nat)
  | sample (v : Nat)
  | traceBlockWrite (source : Nat)
  | partLayout (v : Nat)
  | partitionChange
  | partResume (v : Nat)
  | jobEpoch (v : Nat)
  | bar2Window (v : Nat)
  | halfPairWrite (n v : Nat)
  | tileRetire (v : Nat)
  | retireWithdraw (v : Nat)
  | autoRetireMark (tile : Nat)
  | softReset (v : Nat)
  | rollbackCommit (v : Nat)
  /-- `svn` of the image's signed header, and whether the signature verifies (read with the last block) -/
  | fwMbCtrlGo (v : Nat) (verifies : Bool) (svn version : Nat)
  | cfgCtrlCommit (v : Nat)
  | dbgChallenge (size : Nat)
  /-- the last 8 bytes of the signature, and whether it verifies -/
  | dbgResponse (v : Nat) (verifies : Bool)
  | registerWrite (off size v : Nat)
  | readClear (off size : Nat)
  | bar2Read (off n : Nat)
  | bar2Write (off : Nat) (bytes : List Byte) (ep : Bool)
  | heldAccumulatorAccess
  | hostReadCompletion (tag : Nat) (ok : Bool) (bytes : List Byte)
  | cplTimeout (tag : Nat)
  | configRequest (write : Bool) (reg v : Nat)
  | getVersion (transport : Nat)
  | getCapabilities (transport version : Nat)
  | negotiateAlgorithms (transport base hash : Nat)
  | getDigests (transport : Nat)
  | getCertificate (transport slot off len : Nat)
  | setCertificate (transport slot : Nat) (chain : List Byte) (leafOk : Bool)
  | challenge (transport slot : Nat) (nonce : List Byte)
  | getMeasurements (transport index : Nat) (sign : Bool) (nonce : List Byte)
  | keyExchange (transport : Nat) (point : List Byte)
  | coldReset
  | fundamentalReset
  | perstNHigh
  | functionReset
  | moduleReset
  | thermalReset
  | thermalRecovery
  | vinTrip
  | regulatorFault (reg : Nat)
  | vauxFault
  | stageF0 (rate width : Nat)
  | stageF1 (b : BootImages)
  | stageF2 (b : BistReport)
  /-- measured latency in hclk of each stack, longest pseudo-channel; none where training fails -/
  | stageF3 (measured : List (Option Nat))
  | stageF4
  | stageF5
  | stageLimit
  | controlCoreWatchdog (core : Nat)
  | controlCoreMemoryError (core : Nat)
  | rootCoreMemoryError
  | rhizomeBoundaryLost (boundary : Nat)
  | mclkDividerChange
  | powerSample (watts amps : Nat)
  | powerPause
  | powerPauseEnd
  | powerStateEvaluate (s : Scope)
  | powerWake (s : Scope)
  | earlyWake (s : Scope)
  | wakeComplete (s : Scope)
  /-- 128 readings in quarter degrees, 16 × die + sensor -/
  | thermalSample (readings : List Nat)
  /-- the monitors of a die: 0 low margin, 1 in band, 2 high margin -/
  | voltageTrim (die margin : Nat)
  /-- 128 estimates in quarter degrees, and the raw readings they are compared with -/
  | sensorComparison (estimates readings : List Nat)
  /-- `late`: hclk past the end of the slot that the activity ran -/
  | calibrationSlot (k late : Nat)
  | refresh (k late : Nat)
  /-- error kind of the word read: 0 none, 1 correctable, 2 uncorrectable; `touched`: a master wrote it since -/
  | patrolScrub (tile bank row err : Nat) (touched : Bool)
  | poisonWriteback (k : Nat) (block : BlockError)
  | notBeforeReached (q id : Nat)
  | remoteSignalTimeout (id : Nat)
  | peerInputTimeout (id : Nat)
  deriving DecidableEq, Repr

end Sys2Proof
end

