-- ==== Sys2Proof/Decode.lean ====
section
/-!
DEFINITION. The command table gives its rows no bits: no word spells a command, and the decoder answers none for every
word.
-/
namespace Sys2Proof

/-- The command that `nbits` bits of value `w` spell by the table's bits: none, the table gives no row any bits. -/
def decodeTableWord (_nbits _w : Nat) : Option Instr := none

end Sys2Proof
end

