-- ==== Sys2Proof/Config.lean ====
section
/-!
DEFINITION. What one module fixes at manufacture, and the free values: constants with no body, of which nothing can be
proved. `free n` is the n-th value the spec leaves open in a run, drawn through the counter `freeN` of the state (log 2).
-/
namespace Sys2Proof

/-- MODULE.ID.STEPPING, fused (R457). -/
opaque Config.stepping : BitVec 8

/-- MODULE.SERIAL, fused (R457). -/
opaque Config.serial : BitVec 64

/-- The certificate chain of slot 0, written at manufacture (R412). -/
opaque Config.chain0 : Nat → Byte

/-- Length of that chain in bytes. -/
opaque Config.chain0Len : BitVec 16

/-- Configuration-space address of the Power Management control register, whose PowerState field puts the function in
D3hot (R397, R477): the capability's place is not in the spec. -/
opaque Config.pmcsr : BitVec 12

/-- SHA-384 of bytes: the digest's 48 bytes by index (R412, R414). The hash is public and fixed; the model gives it no body. -/
opaque Config.sha384 : List Byte → Nat → Byte

/-- Partition address of the bytes that a frame-slot binding of a timed input reads (R144, R212): the spec gives the
binding no layout. -/
opaque Config.boundAddr : Nat → BitVec 41

/-- Cells of the memory frame that such a binding holds, and whether they carry writes (R276). -/
opaque Config.boundCells : Nat → List (BitVec 9)
opaque Config.boundWrite : Nat → Bool

/-- The n-th free value: 64 bits that the spec does not state. -/
opaque Config.free : Nat → BitVec 64

/-- Result bits of an operator whose arithmetic order the spec does not state (ATTENTION, NORM, SOFTMAX, R243):
argument block, operand bytes and job seed to the byte at a result position (R258). -/
opaque Config.operator : List Byte → List Byte → BitVec 64 → Nat → Byte

/-- FP32 element of a product of two matrices of a parameter group whose tiling into passes, and so whose rounding, the spec
leaves to the update-assist plane (R217, R229, R231): bytes of the operands, element. -/
opaque Config.product : List Byte → List Byte → Nat → BitVec 32

/-- s of a block where its bits depend on the rounding of the plane's steps: FP32 magnitude from the sum of D² and the count
of elements (R228, R229). -/
opaque Config.rootMean : Nat → Nat → BitVec 31

/-- sin (false) or cos (true) of an FP32 argument beyond 2^16 where the computed value leaves [−1, 1]: plus 1, in units
of 2^−16 of [0, 2] (R133). -/
opaque Config.sine : Bool → Nat → Fin 131073

/-- What the load checks find in the timed inputs and bindings of a context beyond the checks the model makes, for the spec
gives these sections no bit positions (R144, R150): 0 nothing, else PARAM_RANGE. -/
opaque Config.setupVerdict : List Byte → Nat

end Sys2Proof
end

