-- ==== Sys2Proof/Machine/Table.lean ====
section
/-!
DEFINITION. Sparse tables: a list of key and value pairs, keys strictly rising, no pair that holds the default an
unlisted key reads as. The byte memory is such a table, and so is every set of like instances (64 queues, 1,152
tiles, 262,144 objects): an instance nothing has touched is not listed and reads as its reset value.
-/
namespace Sys2Proof

/-- A sparse table from numbers. -/
abbrev Tbl (α : Type) := List (Nat × α)

/-- What key `k` reads as; `d` where it is not listed. -/
def Tbl.get {α : Type} (d : α) : Tbl α → Nat → α
  | [], _ => d
  | (k', v) :: t, k => if k' = k then v else Tbl.get d t k

/-- The entry of key `k`, if one is listed. -/
def Tbl.find {α : Type} : Tbl α → Nat → Option α
  | [], _ => none
  | (k', v) :: t, k => if k' = k then some v else Tbl.find t k

/-- List `v` at key `k`, keeping the keys rising. -/
def Tbl.put {α : Type} : Tbl α → Nat → α → Tbl α
  | [], k, v => [(k, v)]
  | (k', v') :: t, k, v =>
    if k < k' then (k, v) :: (k', v') :: t
    else if k' = k then (k, v) :: t
    else (k', v') :: Tbl.put t k v

/-- Unlist key `k`. -/
def Tbl.del {α : Type} : Tbl α → Nat → Tbl α
  | [], _ => []
  | (k', v') :: t, k => if k' = k then Tbl.del t k else (k', v') :: Tbl.del t k

/-- Write `v` at key `k` of a table whose unlisted keys read as `d`: writing `d` unlists the key. -/
def Tbl.set {α : Type} [DecidableEq α] (d : α) (t : Tbl α) (k : Nat) (v : α) : Tbl α :=
  if v = d then Tbl.del t k else Tbl.put t k v

/-- Change every listed value; a value that becomes the default is unlisted. -/
def Tbl.mapV {α : Type} [DecidableEq α] (d : α) (f : α → α) : Tbl α → Tbl α
  | [] => []
  | (k, v) :: t => if f v = d then Tbl.mapV d f t else (k, f v) :: Tbl.mapV d f t

/-- Keep only the keys that `p` admits. -/
def Tbl.keep {α : Type} (p : Nat → Bool) : Tbl α → Tbl α
  | [] => []
  | (k, v) :: t => if p k then (k, v) :: Tbl.keep p t else Tbl.keep p t

/-- Keys strictly above `lo`, strictly rising, and no entry that holds the default. -/
def Tbl.above {α : Type} [DecidableEq α] (d : α) : Option Nat → Tbl α → Bool
  | _, [] => true
  | none, (k, v) :: t => decide (v ≠ d) && Tbl.above d (some k) t
  | some lo, (k, v) :: t => decide (lo < k) && decide (v ≠ d) && Tbl.above d (some k) t

/-- The canonical form. -/
def Tbl.wf {α : Type} [DecidableEq α] (d : α) (t : Tbl α) : Bool :=
  Tbl.above d none t

/-- The canonical form of a table whose unlisted key k reads as `d k`: keys above `lo` strictly rising, no entry equal to
what its key would read as. -/
def Tbl.wfBy {α : Type} [DecidableEq α] (d : Nat → α) : Option Nat → Tbl α → Bool
  | _, [] => true
  | none, (k, v) :: t => decide (v ≠ d k) && Tbl.wfBy d (some k) t
  | some lo, (k, v) :: t => decide (lo < k) && decide (v ≠ d k) && Tbl.wfBy d (some k) t

/-- A sorted set of numbers without repeats: insertion. -/
def setIns : List Nat → Nat → List Nat
  | [], k => [k]
  | x :: t, k => if k < x then k :: x :: t else if x = k then x :: t else x :: setIns t k

/-- A sorted set of numbers without repeats: removal. -/
def setDel : List Nat → Nat → List Nat
  | [], _ => []
  | x :: t, k => if x = k then setDel t k else x :: setDel t k

/-- Strictly rising. -/
def setWf : List Nat → Bool
  | [] => true
  | [_] => true
  | x :: y :: t => decide (x < y) && setWf (y :: t)

end Sys2Proof
end

