-- ==== Sys2Proof/Machine/State.lean ====
section
/-!
DEFINITION. The state of the module: every register, queue, object, memory and work list the spec names, as plain data,
and `State.reset`. Registers of BAR0 are bit vectors of their width; instances (64 queues, 1,152 tiles, 262,144
objects) stand in sparse tables whose default record is the reset value.
-/
namespace Sys2Proof.Machine

/-- The clocks and time bases (R418 to R420). -/
structure Clock where
  /-- root-PLL cycles since the cold reset -/
  root : Nat := 0
  /-- root cycles outside FROZEN: the base of every wait time-out (R198, R296) -/
  live : Nat := 0
  div : Nat := 4
  pendingDiv : Option Nat := none
  /-- root cycle of the first memory frame of F3 (R420) -/
  frameOrigin : Option Nat := none
  /-- root cycle of the origin of MCLK_TIME and of the nclk time base (R419) -/
  origin : Option Nat := none
  markRoot : Nat := 0
  markMclk : Nat := 0
  /-- mclk outside FROZEN since the origin, by the idle cause in force: key (partition, or 64 + port) × 16 + count index
  (R384, R435) -/
  idle : Tbl Nat := []
  deriving DecidableEq, Repr

/-- A junction sensor: trimmed offset in quarter degrees and its invalid mark (R434). -/
structure Sensor where
  offset : Int := 0
  invalid : Bool := false
  deriving DecidableEq, Repr

/-- The power state of a scope: code of R421, the mclk it was entered in, wake_at in sclk, root cycle at which an exit in
progress completes. -/
structure ScopeState where
  code : Nat := 0
  since : Nat := 0
  wakeAt : Option Nat := none
  exitAt : Option Nat := none
  deriving DecidableEq, Repr

/-- CLOCK_POWER (R428, R459) and the power and thermal controllers (R421 to R434). -/
structure Power where
  maxState : BitVec 3 := 4
  pmMargin : BitVec 16 := 0x0032
  hostQuiet : BitVec 64 := 0
  earlyWake : BitVec 32 := 0
  quietBroken : BitVec 32 := 0
  limitW : BitVec 16 := 0x2904
  hystW : BitVec 16 := 0x012C
  iFast : BitVec 16 := 0x0118
  pauseCount : BitVec 16 := 0
  warnC : BitVec 8 := 0x5F
  tHot : BitVec 8 := 0
  sensorFail : BitVec 8 := 0
  firstFail : BitVec 7 := 0
  /-- the last 10,000 samples in W, newest first (R429) -/
  samples : List Nat := []
  /-- µs that P_1ms exceeded the limit, and that P_10ms stayed below limit − hysteresis -/
  overFor : Nat := 0
  underFor : Nat := 0
  /-- a pause is ordered and not yet begun -/
  pauseDue : Bool := false
  /-- root cycle and mclk at which the pause in progress began (R430) -/
  paused : Option Nat := none
  pausedMclk : Nat := 0
  /-- low voltage margin at the top of the trim asks for a slower divider (R433) -/
  voltReq : Bool := false
  /-- the current or the temperature still asks for a pause -/
  fast : Bool := false
  thermHold : Bool := false
  derateW : Nat := 0
  sensors : Tbl Sensor := []
  /-- setpoint trim of each die in steps of 2.5 mV (R433) -/
  dieTrim : Tbl Int := []
  /-- root cycle + 1 of each die's latest trim step -/
  trimAt : Tbl Nat := []
  /-- key: tile t, 2048 + die, 4096 the module -/
  scopes : Tbl ScopeState := []
  deriving DecidableEq, Repr

/-- Supplies and filtered pins (R476 to R481); true is high for the pins. -/
structure Pins where
  vin : Bool := false
  vaux : Bool := false
  pwrGood : Bool := false
  perstN : Bool := false
  haltN : Bool := true
  thermTripN : Bool := true
  pairFailN : Bool := true
  /-- held in reset: a stage may not run (R403) -/
  inReset : Bool := true
  d3hot : Bool := false
  /-- PCIe link trained in F0, configuration space answers (R408) -/
  linkUp : Bool := false
  /-- base addresses of BAR0 and BAR2 in configuration space (R399) -/
  bar0 : BitVec 64 := 0
  bar2 : BitVec 64 := 0
  deriving DecidableEq, Repr

/-- One MSI-X table entry (R401). -/
structure MsixEntry where
  addr : BitVec 64 := 0
  data : BitVec 32 := 0
  mask : Bool := true
  deriving DecidableEq, Repr

/-- A published Size Table (R27, R458). -/
structure SizeTable where
  generation : Nat := 0
  count : Nat := 0
  index : Nat := 0
  ordering : Nat := 0
  dies : List Nat := []
  tiles : List Nat := []
  latency : List Nat := []
  ports : List (Nat × Nat) := []
  queueMap : Nat := 0
  fwVersion : Nat := 0
  fwLevel : Nat := 0
  deriving DecidableEq, Repr

/-- MODULE (R406, R457) without what is derived. -/
structure Module where
  stage : BitVec 3 := 0
  done : Bool := false
  failCode : BitVec 8 := 0
  failIndex : BitVec 16 := 0
  belowCode : Bool := false
  fwFallback : Bool := false
  keptHbm : Bool := false
  resetCause : BitVec 8 := 0
  /-- a module fault of R407 holds -/
  fault : Bool := false
  /-- F1 failed: the ROM stays in recovery (R408) -/
  recovery : Bool := false
  /-- the root core no longer serves (R407, fault 0x41) -/
  rootDead : Bool := false
  /-- the last reset kept HBM; KEPT_HBM shows it after F3 (R403) -/
  hbmKept : Bool := false
  /-- root cycle at which the stage in progress began -/
  stageAt : Nat := 0
  event : BitVec 12 := 0
  keepHbm : Bool := false
  changeBusy : Bool := false
  changeRefused : Bool := false
  partCount : BitVec 4 := 1
  dieLocal : BitVec 7 := 0
  /-- accepted change waiting to take effect: count and DIE_LOCAL_GIB (R24, R25) -/
  changeTo : Option (Nat × Nat) := none
  /-- writes of Q_CTRL (0), SQ_TAIL (1) and CQ_HEAD (2) held by a change in progress: queue and value (R26) -/
  changeHeld : List (Nat × Nat × Nat) := []
  bar2 : BitVec 16 := 0
  cplTimeout : BitVec 12 := 0x032
  linkRate : BitVec 4 := 0
  linkWidth : BitVec 5 := 0
  collTimeout : BitVec 32 := 0x0007A120
  collDup : BitVec 32 := 0
  staleCount : BitVec 32 := 0
  staleEpoch : BitVec 32 := 0
  /-- cores whose watchdog or memory failed: their records are not written (R407) -/
  badCores : List Nat := []
  deriving DecidableEq, Repr

/-- MODULE.HOST_ERR, JOB_SEL and the non-finite log (R457, R370). -/
structure ModuleLog where
  errKind : BitVec 4 := 0
  errQueue : BitVec 6 := 0
  errSlot : BitVec 16 := 0
  errCount : BitVec 32 := 0
  errAddr : BitVec 64 := 0
  jobSel : BitVec 32 := 0
  jobPart : BitVec 3 := 0
  nfTensor : BitVec 32 := 0
  nfPart : BitVec 3 := 0
  nfValid : Bool := false
  nfNan : BitVec 32 := 0
  nfInf : BitVec 32 := 0
  /-- boundary and stage logs that raise no state (R407) -/
  log : List (Nat × Nat) := []
  deriving DecidableEq, Repr

/-- One bank's column repair (R268, R469). -/
structure BankRepair where
  fused : BitVec 8 := 0
  bist : BitVec 2 := 0
  fail : Bool := false
  deriving DecidableEq, Repr

/-- Fuses (R403, R410, R416, R469). -/
structure Fuses where
  ordering : BitVec 8 := 0x41
  fusedOff : List Nat := []
  retired : List Nat := []
  rollback : BitVec 7 := 0
  locked : Bool := false
  leftOut : List Nat := []
  /-- key: tile × 32 + bank -/
  banks : Tbl BankRepair := []
  deriving DecidableEq, Repr

/-- Flash (R405, R409, R412, R415). -/
structure Flash where
  marks : List Nat := []
  preferred : Bool := false
  /-- per slot: verified, marked empty, security version number, firmware version, blocks written by the mailbox -/
  valid : BitVec 2 := 0
  empty : BitVec 2 := 0
  image0 : List Byte := []
  image1 : List Byte := []
  svn0 : Nat := 0
  svn1 : Nat := 0
  version0 : Nat := 0
  version1 : Nat := 0
  cfg : List Byte := []
  /-- the owner chain of certificate slot 1 (R412) -/
  owner : List Byte := []
  deriving DecidableEq, Repr

/-- SECURITY (R414 to R417, R467). -/
structure Security where
  active : Bool := false
  runningSvn : BitVec 8 := 0
  runningVersion : BitVec 32 := 0
  mbBlock : BitVec 24 := 0
  mbLast : Bool := false
  mbStatus : BitVec 2 := 0
  /-- next block index the update expects -/
  mbNext : Nat := 0
  mailbox : List Byte := []
  dbgReq : BitVec 2 := 0
  unlocked : BitVec 2 := 0
  failures : BitVec 4 := 0
  /-- the challenge as it stands, 57 bytes; none if cleared -/
  challenge : Option (List Byte) := none
  response : List Byte := []
  /-- measurement log: index, stage, digest (R414) -/
  meas : List (Nat × Nat × List Byte) := []
  cfgStatus : BitVec 2 := 0
  /-- CFG_RECORD as written, and as it reads: the record last committed or loaded -/
  cfgRecord : List Byte := []
  cfgShown : List Byte := []
  deriving DecidableEq, Repr

/-- One SPDM transport's connection (R413): version, capabilities seen, algorithms, and the sessions open. -/
structure Spdm where
  version : Nat := 0
  caps : Bool := false
  algs : Bool := false
  sessions : List Nat := []
  deriving DecidableEq, Repr

/-- A counter bank (R435 to R444). -/
structure Bank where
  epoch : BitVec 32 := 0
  slip : List Nat := [0, 0, 0, 0, 0, 0]
  /-- NAN_IN, NAN_OUT, INF_OUT, SAT_CLAMP, FLUSH_ZERO -/
  health : List Nat := [0, 0, 0, 0, 0]
  spill : Nat := 0
  dup : Nat := 0
  faultCount : Nat := 0
  /-- DETAIL words of the 256 lowest pinnule faults, by tile, array, pinnule (R443) -/
  faults : List Nat := []
  /-- key: engine identifier × 16 + count index -/
  counts : Tbl Nat := []
  /-- engines with SATURATED -/
  sat : List Nat := []
  snapBase : BitVec 52 := 0
  slotSize : BitVec 4 := 0
  snapCount : BitVec 16 := 0
  nextIndex : BitVec 16 := 0
  /-- the mclk after that of its last reset, 0 for none (R439) -/
  resetAt : Nat := 0
  deriving DecidableEq, Repr

/-- A partition's ambient counts (R437): counted mclk at which they begin, the engines' counts in the bank there, and each
engine's mclk since then that another bank took or in which it was held. -/
structure Ambient where
  since : Nat := 0
  base : Tbl Nat := []
  by' : List Nat := []
  cover : Tbl Nat := []
  deriving DecidableEq, Repr

/-- A status earned by a command: code, DETAIL, DETAIL_COUNT (R305). -/
structure Earned where
  code : Nat
  detail : Nat := 0
  count : Nat := 0
  deriving DecidableEq, Repr

/-- A command fetched and not yet dispatched (R289). -/
structure Waiting where
  id : Nat
  bytes : List Byte
  /-- live time at which it became next to dispatch (R296) -/
  since : Nat
  /-- its header wait is satisfied -/
  waitOk : Bool
  /-- slot of its header, for HOST_ERR -/
  slot : Nat := 0
  deriving DecidableEq, Repr

/-- A command executing. -/
structure Exec where
  id : Nat
  bytes : List Byte
  /-- live time at which it became next to dispatch -/
  since : Nat
  /-- START stamp, once its work has started -/
  start : Option Nat := none
  earned : List Earned := []
  /-- tiles, or parameter groups, that stored or updated poisoned data, in order of first occurrence (R305) -/
  poisoned : List Nat := []
  slip : Nat := 0
  digest : Nat := 0
  deriving DecidableEq, Repr

/-- A command completed, its record not yet written (R287). -/
structure Fin where
  id : Nat
  bytes : List Byte
  status : Earned
  start : Nat
  stop : Nat
  slip : Nat := 0
  digest : Nat := 0
  /-- the bound bank as sampled in mclk END + 1 (R444) -/
  bank : Option Bank := none
  /-- the signal may be performed: its own fields passed their checks (R295) -/
  sigOk : Bool := true
  /-- the queue halts after the record, whatever STOP_ON_REJECT holds (R227, R286, R402) -/
  halt : Bool := false
  deriving DecidableEq, Repr

/-- A queue (R281, R460, R470). -/
structure Queue where
  enable : Bool := false
  stepMode : Bool := false
  stopOnReject : Bool := true
  sqHbm : Bool := false
  cqHbm : Bool := false
  /-- 0 IDLE, 1 RUN, 2 STEP, 3 HALTED -/
  st : BitVec 3 := 0
  sqBase : BitVec 52 := 0
  sqLog : BitVec 5 := 4
  cqBase : BitVec 52 := 0
  cqLog : BitVec 5 := 4
  part : BitVec 3 := 0
  winBase : BitVec 29 := 0
  winLimit : BitVec 29 := 0
  seed : BitVec 64 := 0
  timeouts : List (BitVec 32) := [0x000F4240, 0x000F4240, 0x000F4240, 0x000F4240]
  bank : BitVec 4 := 0
  resetOnStart : Bool := false
  head : BitVec 16 := 0
  cqTail : BitVec 16 := 0
  phase : Bool := true
  refWrites : BitVec 16 := 0
  refEnables : BitVec 16 := 0
  ignDoor : BitVec 16 := 0
  sqTail : BitVec 16 := 0
  cqHead : BitVec 16 := 0
  deriving DecidableEq, Repr

/-- What a queue holds beside its registers (R289). -/
structure QueueWork where
  core : Option Nat := none
  waiting : Option Waiting := none
  executing : List Exec := []
  finished : List Fin := []
  /-- outstanding slot read: host read tag, slots wanted -/
  readTag : Option Nat := none
  /-- live time since which SQ_TAIL splits the command at the head (R286) -/
  partialAt : Option Nat := none
  /-- slots of the command at the head already read from host memory -/
  fetched : List Byte := []
  /-- a FENCE, or a stop token, blocks further fetching (R191, R292) -/
  fence : Bool := false
  stopToken : Bool := false
  /-- the command of STEP has completed: a STEP_HALT record is due (R309), with its TAG -/
  stepHalt : Option Nat := none
  deriving DecidableEq, Repr

/-- An entry of the job table (R357, R358). -/
structure Job where
  id : Nat
  epoch : Nat := 0
  /-- the last 64 completed COLL_IDs, newest first -/
  done : List Nat := []
  deriving DecidableEq, Repr

/-- A route table entry (R351). -/
structure Route where
  ports : BitVec 32 := 0
  deriving DecidableEq, Repr

/-- A transaction (R343): header fields and data. -/
structure Txn where
  type : Nat
  src : Nat := 0
  dest : Nat := 0
  status : Nat := 0
  tseq : Nat := 0
  /-- one mark per 32-byte data unit -/
  poison : Nat := 0
  /-- bits [127:64] of the header -/
  addr : Nat := 0
  data : List Byte := []
  deriving DecidableEq, Repr

/-- A transaction delivered at a port, in a receive buffer of its class (R341). -/
structure Arrived where
  port : Nat
  cls : Nat
  txn : Txn
  deriving DecidableEq, Repr

/-- The lichen pair of a partition (R385 to R396, R468). -/
structure Pair where
  landingMib : BitVec 16 := 0x0400
  hbTimeout : BitVec 16 := 0x07D0
  /-- 0 UNPAIRED, 1 FORMING, 2 PAIRED, 3 RESYNC, 4 FAILOVER -/
  st : BitVec 3 := 0
  failCause : BitVec 3 := 0
  epoch : BitVec 32 := 0
  commitStep : BitVec 64 := 0
  tx : BitVec 64 := 0
  rx : BitVec 64 := 0
  mode : Nat := 0
  ports : Nat := 0
  base : Nat := 0
  bytes : Nat := 0
  partner : Nat := 0
  /-- live time of the last heartbeat received, root time of the last sent -/
  lastHb : Nat := 0
  sentHb : Nat := 0
  /-- the partner's FORM (MODE, MIRROR_BYTES, STEP, epoch) and COMMIT step, if received -/
  partnerForm : Option (Nat × Nat × Nat × Nat) := none
  partnerCommit : Option Nat := none
  /-- landed frames: group, primary-range address, bytes, poison -/
  landed : List (Nat × Nat × List Byte × Nat) := []
  /-- groups sent and not acknowledged -/
  unacked : List Nat := []
  /-- bytes of the resync sent, received, and expected -/
  resyncSent : Nat := 0
  resyncGot : Nat := 0
  resyncDue : Nat := 0
  /-- state to return to if the resync's link fails -/
  before : BitVec 3 := 0
  deriving DecidableEq, Repr

/-- The trace ring of a partition (R449). -/
structure TraceRing where
  running : Bool := false
  base : Nat := 0
  bytes : Nat := 0
  wrap : Bool := false
  offset : Nat := 0
  lost : Nat := 0
  wraps : Nat := 0
  stopped : Bool := false
  deriving DecidableEq, Repr

/-- A partition (R20, R26, R298, R463). -/
structure Part where
  /-- 0 FIDDLEHEAD, 1 READY, 3 QUIESCED, 5 FAULTED, 6 PAIR_FAILOVER; RUNNING and FROZEN are derived -/
  st : BitVec 3 := 0
  quiescing : Bool := false
  jobs : List Job := []
  /-- MB_MAX and the tiles of the frond of each digest loaded (R143, R153) -/
  fronds : Tbl (Nat × List Nat) := []
  /-- pending CLEARs (R363) -/
  clears : List Txn := []
  node : BitVec 12 := 0
  rxBase : BitVec 29 := 0x1FFFFFFF
  rxLimit : BitVec 29 := 0
  tableMode : Bool := false
  dimX : BitVec 5 := 1
  dimY : BitVec 5 := 1
  dimZ : BitVec 5 := 1
  routeIndex : BitVec 12 := 0
  routes : Tbl Nat := []
  /-- NODE_ID not written since a partition change: nothing is sent or delivered (R26) -/
  nodeHeld : Bool := false
  /-- per requesting node, the last TSEQ and its result (R319) -/
  rxSeq : Tbl (Nat × Nat) := []
  txSeq : BitVec 16 := 0
  /-- transactions delivered and not yet performed, per VC: REQ, RSP, COLL, MIRROR -/
  inReq : List Arrived := []
  inRsp : List Arrived := []
  inColl : List Arrived := []
  inMirror : List Arrived := []
  pair : Pair := {}
  trace : TraceRing := {}
  deriving DecidableEq, Repr

/-- One context slot of a tile (R144, R148). -/
structure Ctx where
  /-- 0 EMPTY, 1 LOADING, 2 LOADED, 3 ACTIVE, 4 DRAINING -/
  st : BitVec 3 := 0
  plane : BitVec 2 := 0
  digest : BitVec 32 := 0
  bytes : List Byte := []
  deriving DecidableEq, Repr

/-- A half pair (R269). -/
structure HalfPair where
  enable : Bool := false
  role : Bool := false
  size : BitVec 4 := 0
  base4k : BitVec 11 := 0
  syncEn : Bool := false
  swapSync : BitVec 18 := 0
  generation : BitVec 16 := 0
  deriving DecidableEq, Repr

/-- A stationary set: decoded cells, K-major, with what the load has written (R65 to R70). -/
structure StatSet where
  /-- shape, rate class and half (FP32 split: 0 lo, 1 hi) it was loaded in (R71, R76) -/
  shape : Nat := 0
  cls : Nat := 1
  part : Nat := 0
  cells : List Val := []
  rows : Nat := 0
  need : Nat := 0
  poison : Bool := false
  /-- roles of the tile's half pairs latched when the load started (R270) -/
  latch : Nat := 0
  deriving DecidableEq, Repr

/-- How far a feeder has come in one pinnule's passes of a plane: passes issued, next row, sub-pass (R71, R146). -/
structure FeedPos where
  run : Nat := 0
  plane : Nat := 0
  passes : Nat := 0
  row : Nat := 0
  sub : Nat := 0
  deriving DecidableEq, Repr

/-- A row in the array pipeline: mclk of issue, accumulator row, columns (R62, R64). -/
structure Flight where
  mclk : Nat
  row : Nat
  col : Nat
  cols : Nat
  deriving DecidableEq, Repr

/-- A pinnule: its two sets, faulted in the command named, and the set in load (R65, R80). -/
structure Pinnule where
  active : StatSet := {}
  shadow : StatSet := {}
  /-- the work whose passes it faulted in (R80) -/
  faulted : Option Nat := none
  /-- the work whose passes it runs, and the accumulator rows they have targeted -/
  work : Nat := 0
  touched : List Nat := []
  /-- roles of the tile's half pairs latched when the pass in progress started (R270) -/
  latch : Nat := 0
  pos : FeedPos := {}
  /-- mclk of its last row, and the first mclk after that row's issue slot (R58) -/
  lastAt : Nat := 0
  nextAt : Nat := 0
  deriving DecidableEq, Repr

/-- A row on its way through a chain link: FP32 words of 64 columns, four poison bits, and the mclk in which its issue
notice reaches the downstream feeder (R91, R92). -/
structure ChainRow where
  words : List Nat
  poison : Nat
  notice : Nat := 0
  deriving DecidableEq, Repr

/-- An operation of a tile's list as issued: descriptor and record bytes, the schedule's additions (R146, R155). -/
structure OpRef where
  id : Nat
  tile : Nat
  desc : List Byte
  record : List Byte
  logical : Nat
  addr : Int
  seq : Nat
  step : Nat
  /-- the frond entry, if it is one -/
  entry : Option Nat
  /-- stack bytes that an update engine's SPACE 2 entries reach, as the issuing command set them up (R140) -/
  hbm : List (Nat × Nat) := []
  deriving DecidableEq, Repr

/-- A drain or FILL under way: mclk it started in, the next row, roles latched at its start (R97, R105, R270). -/
structure DrainRun where
  op : OpRef
  start : Nat
  row : Nat := 0
  roles : Nat := 0
  deriving DecidableEq, Repr

/-- A matrix array (R57 to R81, R92). Its shape and rate class after reset, from which R76 asks a marker, are the model's
(DESIGN CHOICE, log 7). -/
structure MatArray where
  shape : Nat := 0
  /-- rate class: 0 4/6-bit, 1 8-bit, 2 16-bit, 3 FP32 split -/
  cls : Nat := 1
  pins : Tbl Pinnule := []
  chainQ : List ChainRow := []
  /-- mclk of the last row issued: the pipeline drains 10 mclk later (R62, R76) -/
  lastIssue : Nat := 0
  /-- rows in the pipeline -/
  flight : List Flight := []
  /-- mclk up to which busy and stall are counted; the hold counted last: mclk, pinnule, count (R78) -/
  countedTo : Nat := 0
  stallAt : Nat := 0
  stallPin : Nat := 16
  stallCode : Nat := 0
  /-- the drain unit started in mclk `drainFrom` and works until `drainUntil` on rows base to base + n − 1; a later row
  of the list that targets its i-th row issues from mclk drainFrom + i + drainLag (R103, R104) -/
  drainFrom : Nat := 0
  drainUntil : Nat := 0
  drainLag : Nat := 2
  drainBase : Nat := 0
  drainRows : Nat := 0
  drainCol : Nat := 0
  drainCols : Nat := 0
  /-- progress of the load path in a plane of a run: loads done are the unit's issues; next slot-row's run and plane -/
  loadRun : Nat := 0
  loadPlane : Nat := 0
  /-- the drain or FILL that a stream holds between two rows (R97) -/
  drain : Option DrainRun := none
  deriving DecidableEq, Repr

/-- An unmasked lane of a chain: bits, poison, logical index, place in the loop nest, the element it carries, its
ordinal at the MASK. `own` is false for a constant, `live` for a predicate 0 that stands for a masked lane (R119, R126). -/
structure VLane where
  w : Nat
  poison : Bool := false
  idx : Nat := 0
  p0 : Nat := 0
  p1 : Nat := 0
  p2 : Nat := 0
  p3 : Nat := 0
  elem : Nat := 0
  own : Bool := true
  ord : Nat := 0
  live : Bool := true
  deriving DecidableEq, Repr, Inhabited

/-- The lanes of a chain beat; none is a masked lane. -/
abbrev ChainBeat := List (Option VLane)

/-- What a packed LOAD read in its slot: the first element, and bits, scale code and poison of those that may follow. -/
structure PackedRead where
  first : Nat := 0
  seen : List (Option (Nat × Nat × Bool)) := []
  deriving DecidableEq, Repr

/-- The running result of a RED: carry with its poison, first lane of its run (R125). -/
structure RedCarry where
  value : Option (Nat × Bool) := none
  first : Option VLane := none
  deriving DecidableEq, Repr

/-- What an invocation carries from mclk to mclk (R111, R112). -/
structure VProg where
  /-- the next mclk, counted from the entry of slot 0, holds left out -/
  mclk : Nat := 0
  /-- output beats, key slot × 16 + entry; index beats by slot -/
  outs : Tbl ChainBeat := []
  index : Tbl ChainBeat := []
  snaps : Tbl PackedRead := []
  /-- stores on their way: mclk whose end they take, address and byte -/
  writes : List (Nat × List (Nat × Byte × Bool)) := []
  /-- unmasked elements met by the MASK -/
  ordMask : Nat := 0
  /-- elements the COMPRESS holds back -/
  buf : List VLane := []
  kept : Nat := 0
  packed : Nat := 0
  sticky : Bool := false
  /-- packed elements an EXPAND has taken, in how many slots -/
  taken : Nat := 0
  expanded : Nat := 0
  carry : Tbl RedCarry := []
  /-- counts that a COMPRESS may withdraw: entry, element -/
  defer : List (Nat × Nat × Health) := []
  health : Health := {}
  gone : List Nat := []
  /-- beats of the slot that a stream LOAD works on, and beats on their way to a stream -/
  fed : Tbl (List Beat) := []
  out : Tbl (List Beat) := []
  poisoned : Bool := false
  /-- banked accesses: mclk, entry, words -/
  access : List (Nat × Nat × List Nat) := []
  /-- the first poisoned data taken: kind, and offset or stream (R447) -/
  taint : Option (Nat × Nat) := none
  /-- mclks lost to bank conflicts, and to streams -/
  conflicts : Nat := 0
  held : Nat := 0
  deriving DecidableEq, Repr

/-- An invocation that a stream holds: mclk its setup began in, its progress, the count of the hold (R113). -/
structure VRun where
  op : OpRef
  start : Nat
  prog : VProg
  cause : Nat := 1
  deriving DecidableEq, Repr

/-- A vector or update engine: population count, LUT copies, mask ordinals are in the operand cache (R129, R133). -/
structure Vec where
  popcnt : BitVec 32 := 0
  /-- table copies of the LUT stages, as numbers of 784 bytes -/
  lut0 : Nat := 0
  lut1 : Nat := 0
  /-- the invocation that a stream holds between two mclks -/
  run : Option VRun := none
  /-- mclk until which an invocation runs -/
  busyUntil : Nat := 0
  deriving DecidableEq, Repr

/-- A stream's input queue on a tile (R171): beats in order; its depth and pool place are the active context's. -/
structure StreamQ where
  beats : List Beat := []
  /-- most beats it has held in the run (R164) -/
  peak : Nat := 0
  deriving DecidableEq, Repr

/-- A stream source: buffer of 8 beats and the credits it has spent per destination queue (R172, R173): it holds the
queue's depth less these. -/
structure StreamSrc where
  buf : List Beat := []
  spent : Tbl Nat := []
  /-- credits on their way back, by destination queue: tile × 8 + DEST -/
  returning : List Nat := []
  /-- unit that delivers the beats, the nclk after the last beat's slot, beats sent in the plane, the mclk after its last
  counted hold -/
  unit : Nat := 6
  slotAt : Nat := 0
  sent : Nat := 0
  heldAt : Nat := 0
  deriving DecidableEq, Repr

/-- A steering unit: token queue (value, poisoned) and a data queue per way (R175). -/
structure Steer where
  tokens : List (Nat × Bool) := []
  data0 : List Beat := []
  data1 : List Beat := []
  data2 : List Beat := []
  data3 : List Beat := []
  deriving DecidableEq, Repr

/-- A request for tile-store banks that was refused (R265): who asks, the banks, the consecutive refusals, and the mclk
of the last one. -/
structure BankReq where
  key : Nat
  banks : List Nat
  age : Nat
  seen : Nat
  deriving DecidableEq, Repr

/-- The arbitration of a tile's store in one mclk: requests granted, with the words they take, and those refused; and the
class and master that last won each bank (R265). -/
structure Arb where
  mclk : Nat := 0
  taken : List (Nat × Nat) := []
  waiting : List BankReq := []
  lastClass : Tbl Nat := []
  /-- by bank × 4 + class -/
  lastMaster : Tbl Nat := []
  deriving DecidableEq, Repr

/-- A tile (R461 and the units of R146). -/
structure Tile where
  c0 : Ctx := {}
  c1 : Ctx := {}
  c2 : Ctx := {}
  c3 : Ctx := {}
  winSlot : BitVec 2 := 0
  winWord : BitVec 11 := 0
  tsCe : BitVec 32 := 0
  tsUe : BitVec 32 := 0
  accCe : BitVec 32 := 0
  accUe : BitVec 32 := 0
  pairRefused : Bool := false
  refusedPair : BitVec 4 := 0
  retireLimit : BitVec 8 := 0x10
  /-- sclk of the tile-store and of the accumulator uncorrectable errors of the last hour (R409) -/
  ueTimes : List Nat := []
  accUeTimes : List Nat := []
  pairs : Tbl HalfPair := []
  /-- the operator using the tile (R18, R244) -/
  op : Option Nat := none
  ma0 : MatArray := {}
  ma1 : MatArray := {}
  ve : Vec := {}
  /-- key of a queue: stream × 8 + DEST (R178); of a source: stream -/
  queues : Tbl StreamQ := []
  srcs : Tbl StreamSrc := []
  steer : Tbl Steer := []
  arb : Arb := {}
  deriving DecidableEq, Repr

/-- A stack, its controller and its update engine (R432, R462). -/
structure Stack where
  latency : BitVec 8 := 0
  selfRefresh : Bool := false
  calFrame : BitVec 7 := 0
  overrun : BitVec 32 := 0
  ce : BitVec 32 := 0
  ue : BitVec 32 := 0
  ueBusy : Bool := false
  ueGroup : BitVec 16 := 0
  vec : Vec := {}
  /-- refreshes done since F3 -/
  refreshes : Nat := 0
  deriving DecidableEq, Repr

/-- A frame on a link (R336, R337). -/
structure Frame where
  seq : Nat
  vc : Nat
  cls : Nat
  hops : Nat
  txn : Txn
  /-- of a frame to be forwarded: the arrival port and buffer (VC × 2 + class) it still occupies -/
  inBuf : Option (Nat × Nat) := none
  deriving DecidableEq, Repr

/-- A port (R338 to R342, R355, R463). -/
structure Port where
  enable : Bool := false
  autoRetrain : Bool := true
  reach : Bool := false
  dir : BitVec 3 := 0
  ackTimeout : BitVec 16 := 0x0014
  retrainInterval : BitVec 16 := 0x03E8
  /-- 0 DISABLED, 1 TRAINING, 2 UP, 3 DEGRADED, 4 DOWN, 5 MISWIRED -/
  st : BitVec 3 := 0
  goodLanes : BitVec 8 := 0
  peerNode : BitVec 12 := 0
  peerPort : BitVec 5 := 0
  peerValid : Bool := false
  peerDir : BitVec 3 := 0
  retry : BitVec 16 := 0
  badType : BitVec 16 := 0
  noRoute : BitVec 16 := 0
  hopLimit : BitVec 16 := 0
  weights : List (BitVec 8) := [1, 1, 1, 1]
  /-- reach and direction latched at the last training -/
  useReach : Bool := false
  useDir : BitVec 3 := 0
  /-- root cycle at which the present state began -/
  since : Nat := 0
  deriving DecidableEq, Repr

/-- The link layer of a port (R339 to R342). -/
structure Link where
  txSeq : BitVec 12 := 0
  rxNext : BitVec 12 := 0
  unacked : List Frame := []
  replay : List Frame := []
  noProgress : Nat := 0
  /-- root time at which the oldest unacknowledged frame's timer started -/
  timer : Nat := 0
  /-- frames sent, and freed-buffer counts of the peer, per VC × 2 + class -/
  sent : Tbl Nat := []
  peerFreed : Tbl Nat := []
  freed : Tbl Nat := []
  /-- frames waiting to be sent; frames accepted and not yet routed (frozen, or NODE_ID unwritten) -/
  txq : List Frame := []
  rxq : List Frame := []
  /-- weighted round-robin: VC in turn and frames left in its turn -/
  turn : Nat := 0
  left : Nat := 0
  /-- the frame after ACK is requested again; the NAK that a frame header has yet to carry (R339) -/
  nakSent : Bool := false
  nakDue : Bool := false
  /-- frames hold until the bundle's frames are acknowledged (R350) -/
  held : Bool := false
  /-- control messages repeated in every control slot: 0 FREEZE, 1 RELEASE, 2 heartbeat, 3 WIDTH_CHANGE, 4 equaliser;
  then their two arguments (R338) -/
  ctl : List (Nat × Nat × Nat) := []
  /-- a FREEZE or RELEASE has come, which the port's control slots acknowledge (R338) -/
  heard : Bool := false
  /-- the pairs are wired to lanes 7 − j of the peer (R333) -/
  reversed : Bool := false
  /-- lane of the latest frame slot, frame slots sent, and the root cycle until which a width change lasts (R334, R354) -/
  lane : Nat := 7
  slots : Nat := 0
  widthUntil : Nat := 0
  deriving DecidableEq, Repr

/-- A lane (R352, R353, R464). -/
structure Lane where
  /-- 0 in service, 1 retired, 2 training -/
  st : BitVec 2 := 0
  margin : BitVec 8 := 0
  serLimit : BitVec 8 := 0x0C
  uncorrLimit : BitVec 16 := 0x0010
  marginLimit : BitVec 8 := 0x10
  corr : BitVec 48 := 0
  uncorr : BitVec 16 := 0
  /-- steps of the five transmit equaliser taps, of the CTLE, of the sixteen taps of the receiver's FFE and of its DFE; root
  cycle + 1 of each coefficient's latest step (R352) -/
  ffe : List Int := [0, 0, 0, 0, 0]
  ctle : Int := 0
  rxFfe : List Int := List.replicate 16 0
  dfe : Int := 0
  eqAt : Tbl Nat := []
  /-- the received pair's polarity is inverted (R333) -/
  inverted : Bool := false
  /-- index of the lane's next frame slot since training (R334) -/
  slot : Nat := 0
  deriving DecidableEq, Repr

/-- A synchronisation object (R312). -/
structure Obj where
  /-- 0 COUNTER, 1 SEMAPHORE, 2 BARRIER, 3 EVENT -/
  type : BitVec 2 := 0
  value : BitVec 64 := 0
  deriving DecidableEq, Repr

/-- What waits on an object: a queue's header wait, or an executing WAIT (R317). -/
inductive WaitFor where
  | header (q : Nat)
  | command (q id : Nat)
  deriving DecidableEq, Repr

/-- A condition on an object: the header codes of R293, or a WAIT command's COND and VALUE (R307). -/
inductive WaitCond where
  | code (c : Nat)
  | cond (c v : Nat)
  deriving DecidableEq, Repr

/-- A wait on an object, in order of registration (R316). -/
structure Waiter where
  id : Nat
  obj : Nat
  who : WaitFor
  cond : WaitCond
  /-- the BARRIER generation read at arrival -/
  gen : Nat := 0
  registered : Bool
  /-- nclk of its last poll -/
  polled : Nat := 0
  deriving DecidableEq, Repr

/-- A plane of a run, as its context header gives it (R145). -/
structure PlaneInfo where
  plane : Nat
  slot : Nat
  last : Bool
  next : Nat
  desc : Bool
  usesHbm : Bool
  fill : Nat
  ii : Nat
  drain : Nat
  endc : Nat
  deriving DecidableEq, Repr

/-- A hold of a run (R165, R166): cause 1 to 6, first held mclk, class of the late input. -/
structure Hold where
  cause : Nat
  since : Nat
  cls : Nat := 3
  input : Nat := 0
  /-- live time at which it began, for the time-outs of R297 and R383 -/
  live : Nat := 0
  deriving DecidableEq, Repr

/-- A waiting point of a run (R188): tile, unit, stream, mclk its wait began. -/
structure WaitPoint where
  tile : Nat
  unit : Nat
  stream : Nat
  since : Nat
  deriving DecidableEq, Repr

/-- A frond run (R153 to R167). `owner` is the command that runs it: RUN_FROND, UPDATE_STEP or ROOT_REFRESH. -/
structure Run where
  id : Nat
  owner : Nat
  q : Nat
  part : Nat
  digest : Nat
  tiles : List Nat
  /-- the planes in the order they are entered -/
  planes : List PlaneInfo
  n : Nat
  mbBase : Nat
  step : Nat
  /-- S, an mclk stamp -/
  start : Option Nat := none
  /-- planes entered, bodies started in the present one, A_p in unheld mclk from S -/
  cur : Nat := 0
  bodies : Nat := 0
  ap : Nat := 0
  issueEnded : Bool := false
  hold : Option Hold := none
  slip : List Nat := [0, 0, 0, 0, 0, 0]
  noProg : Nat := 0
  /-- mclk up to which a unit's operation moves beats (R187) -/
  movesTo : Nat := 0
  waits : List WaitPoint := []
  /-- the slot of the plane left last, while it is DRAINING, and the mclk in which its work is complete (R148) -/
  leaving : Option (Nat × Nat) := none
  /-- issues of each unit's list (tile × 8 + unit) in the present plane -/
  unitOps : Tbl Nat := []
  earned : List Earned := []
  /-- stop token passed: no later body, no further plane (R192) -/
  stopping : Bool := false
  /-- its engines' counts in its bank at unheld mclk `baseAt` of the run: S, or the bank's last reset; the partition's mclk
  of each waiting cause there, and its counted mclk at S (R436) -/
  base : Tbl Nat := []
  baseAt : Nat := 0
  baseBy : List Nat := []
  coverAt : Nat := 0
  deriving DecidableEq, Repr

/-- A context load (R149 to R151). -/
structure Load where
  id : Nat
  q : Nat
  part : Nat
  image : Nat
  /-- planes loaded and their slots -/
  planes : List (Nat × Nat)
  tiles : List Nat
  digest : Nat
  /-- physical dies not yet begun, and dies whose loader has written their part -/
  waiting : List Nat
  written : List Nat := []
  /-- root cycle at which its slowest die so far has written its part -/
  endsAt : Nat := 0
  deriving DecidableEq, Repr

/-- An operator run (R244 to R258). -/
structure OpRun where
  id : Nat
  /-- the command, and its stage in a FUSED_CHAIN -/
  owner : Nat
  stage : Option Nat := none
  q : Nat
  part : Nat
  arg : List Byte
  obj : Nat
  items : Nat
  want : Nat
  /-- S, once its tiles are selected -/
  start : Option Nat := none
  tiles : List Nat := []
  /-- grant memory: requester to last sequence and value -/
  kept : Tbl (Nat × Nat) := []
  /-- grants below items, in grant order: index, requester -/
  grants : List (Nat × Nat) := []
  ended : List Nat := []
  done : List Nat := []
  stopping : Bool := false
  /-- per tile, the first mclk after the output tiles it has run (R259) -/
  finish : Tbl Nat := []
  /-- mclk frozen since S; sums of the tiles' counts in the bank from which idle mclk count, and the mclk from S there -/
  paused : Nat := 0
  base : Tbl Nat := []
  baseAt : Nat := 0
  baseBy : List Nat := []
  coverAt : Nat := 0
  deriving DecidableEq, Repr

/-- A strided descriptor in progress (R323). -/
structure Dma where
  id : Nat
  /-- the command, queue and partition it serves; its stage in a FUSED_CHAIN -/
  owner : Nat
  q : Nat
  part : Nat
  stage : Option Nat := none
  bytes : List Byte
  /-- bytes of a COPY, in place of LEN_0; 0 for a descriptor -/
  len : Nat := 0
  /-- per tile, the half-pair roles latched when it started (R270) -/
  latch : Tbl Nat := []
  started : Bool := false
  done : Bool := false
  /-- outstanding host read -/
  tag : Option Nat := none
  /-- its engine on the die, the mclk it started in, and the last mclk in which it moves bytes (R322) -/
  eng : Nat := 0
  startedAt : Nat := 0
  endAt : Nat := 0
  deriving DecidableEq, Repr

/-- The outcome class of a listed group (R225) and its progress. -/
structure GroupWork where
  index : Nat
  /-- 0 FROZEN, 1 DONE_BEFORE, 2 SKEW, 3 skipped, 4 poisoned, 5 applied, 6 due root refresh, 7 not due, 8 GROUP_WRITE -/
  cls : Nat
  hdrStep : Nat := 0
  /-- blocks whose phase A, phase B is done, of the group's blocks -/
  aDone : Nat := 0
  bDone : Nat := 0
  blocks : Nat := 0
  poison : Bool := false
  /-- the record is closed: written, or sent to the partner -/
  written : Bool := false
  /-- the partner has acknowledged the group, or need not -/
  acked : Bool := true
  /-- 8-byte fields of the record that the command writes (R237) -/
  mask : Nat := 2 ^ 32 - 1
  /-- plane frames sent, and the record that waits for the acknowledgement (R390) -/
  frames : Nat := 0
  due : List Byte := []
  /-- M' in BF16, bit 16 its mark, of elements between phase A and phase B -/
  pend : Tbl Nat := []
  deriving DecidableEq, Repr

/-- An UPDATE_STEP (kind 0), ROOT_REFRESH (1) or GROUP_WRITE (2) (R214). -/
structure Update where
  id : Nat
  q : Nat
  part : Nat
  kind : Nat
  step : Nat := 0
  table : Nat
  record : Nat := 0
  /-- INV_SCALE as read at the start (R228) -/
  inv : Nat := 0
  /-- a listed group's header carries the non-finite flag: the step is skipped (R226) -/
  skip : Bool := false
  groups : List GroupWork
  stopping : Bool := false
  /-- the plane's run ended early -/
  aborted : Bool := false
  /-- the plane's run; 0 once it has ended -/
  run : Nat := 0
  /-- the step-end record update: 0 not done, 1 awaiting the partner, 2 done; the record it writes -/
  scale : Nat := 0
  scaleRec : List Byte := []
  /-- counted mclk of the partition at its start (R437) -/
  coverAt : Nat := 0
  deriving DecidableEq, Repr

/-- A planned transfer of a collective at this member (R367): units `lo` to `hi` − 1 from rank `src` (the member itself:
its own contribution) with `contrib` contributions, added to the member's own (`add`) or stored, complete after it
(`final`), sent on to the ranks `fwd` with `after` contributions. -/
structure Xfer where
  src : Nat
  lo : Nat
  hi : Nat
  contrib : Nat
  after : Nat
  add : Bool
  final : Bool
  fwd : List Nat
  deriving DecidableEq, Repr

/-- A 64-byte unit of a collective: block scale, bytes, flags (bit 0 NONFINITE, 1 POISON, 2 the unit's mark). -/
structure CUnit where
  scale : Nat
  bytes : List Byte
  flags : Nat
  deriving DecidableEq, Repr

/-- A CLEAR held: rank, CTL, STEP, ARG (R362). -/
structure Cleared where
  rank : Nat
  ctl : Nat
  step : Nat
  arg : Nat
  deriving DecidableEq, Repr

/-- A collective, RESHARD or KV_RING in progress (R363 to R383). -/
structure Coll where
  id : Nat
  q : Nat
  part : Nat
  /-- opcode 0x50, 0x51 or 0x52 -/
  op : Nat
  /-- the descriptor with its lists -/
  desc : List Byte
  members : List Nat
  rank : Nat
  job : Nat
  collId : Nat
  newEpoch : Nat := 0
  /-- it has not waited, or waits no more, before its start (R380); the epoch it runs in and its shape digest -/
  started : Bool := false
  epoch : Nat := 0
  digest : Nat := 0
  clears : List Cleared := []
  /-- the data phase has begun -/
  phase : Bool := false
  plan : List Xfer := []
  /-- partial sums by unit, additions applied by unit, segments received and not yet applicable: transfer, index, units -/
  partials : Tbl CUnit := []
  applied : Tbl Nat := []
  raw : List (Nat × Nat × List CUnit) := []
  /-- segments of the plan still to apply -/
  left : Nat := 0
  /-- segments and messages received (R364): rank, SEQ, OP -/
  seen : List (Nat × Nat × Nat) := []
  bytesIn : Nat := 0
  /-- flags of the result, and this member's own flag; the flag of HEALTH_BANK taken at dispatch, with its counts -/
  flags : Nat := 0
  own : Bool := false
  nanOut : Nat := 0
  infOut : Nat := 0
  /-- the kept cache entry: address and bytes (R374) -/
  cache : Option (Nat × Nat) := none
  /-- FLAGS received, sent, taken in order (R371); ARRIVEs received -/
  flagsIn : Tbl Nat := []
  flagsSent : Nat := 0
  round : Nat := 0
  arrived : List Nat := []
  /-- live time at which each member's timer last started (R382) -/
  timers : Tbl Nat := []
  /-- idle cause while it waits, and the ports through which the awaited members route (R384) -/
  cause : Nat := 11
  ports : List Nat := []
  /-- CLEARs answered BUSY: rank, root time of the next -/
  busy : List (Nat × Nat) := []
  /-- a send found no port: DETAIL of LINK_DOWN -/
  down : Option Nat := none
  /-- KV_RING: pair generations at the start, the last CLEAR sent and received, blocks sent, swaps posted -/
  gens : List Nat := []
  clearSent : Nat := 0
  clearGot : Nat := 0
  sentBlocks : Nat := 0
  swaps : Nat := 0
  deriving DecidableEq, Repr

/-- A FUSED_CHAIN (R329 to R331): per stage, iterations started and completed, handed over by its pair. -/
structure Fused where
  id : Nat
  q : Nat
  part : Nat
  stages : List (List Byte)
  started : List Nat
  completed : List Nat
  handed : List Nat
  /-- mclk of the latest swap of each stage's pair, and in which the stage's latest iteration completed -/
  swapped : List Nat
  doneAt : List Nat
  stopping : Bool := false
  deriving DecidableEq, Repr

/-- A remote SIGNAL awaiting its response (R319). -/
structure Remote where
  id : Nat
  q : Nat
  part : Nat
  node : Nat
  tseq : Nat
  since : Nat
  deriving DecidableEq, Repr

/-- A read of host memory outstanding (R402): what it serves. -/
inductive ReadFor where
  | slot (q slot : Nat)
  | dma (id : Nat)
  deriving DecidableEq, Repr

structure HostRead where
  tag : Nat
  addr : Nat
  bytes : Nat
  since : Nat
  use : ReadFor
  deriving DecidableEq, Repr

/-- A write to host memory sent: address, bytes, EP. -/
structure HostWrite where
  addr : Nat
  bytes : List Byte
  ep : Bool
  deriving DecidableEq, Repr

/-- A response to the sender: a read's value, an SPDM or configuration response. -/
structure Response where
  kind : Nat
  value : Nat := 0
  bytes : List Byte := []
  ep : Bool := false
  deriving DecidableEq, Repr

/-- An accumulator access held by R86: a DMA descriptor, or a BAR2 access. -/
inductive HeldAccess where
  | dma (id : Nat)
  | read (addr n : Nat)
  | write (addr : Nat) (bytes : List Byte) (ep : Bool)
  deriving DecidableEq, Repr

/-- A trace source (R446): its CLASS_MASK, records of the two halves, records dropped, whether it records. -/
structure TraceBuf where
  mask : BitVec 16 := 0x006B
  half : List Nat := []
  full : List Nat := []
  lost : Nat := 0
  recording : Bool := false
  /-- stalls begun and not ended, by unit: count index, mclk stalled (R447) -/
  stalls : Tbl (Nat × Nat) := []
  deriving DecidableEq, Repr

/-- DEBUG and the freeze (R195 to R200, R451, R452). -/
structure Debug where
  freezeReq : Bool := false
  fanout : BitVec 18 := 0
  brkEnable : Bool := false
  brkHit : Bool := false
  brkPlane : BitVec 2 := 0
  brkMb : BitVec 16 := 0
  noProgress : BitVec 32 := 0x00010000
  /-- the limit before the last write, and the mclk from which the written one is in force (R189) -/
  noProgWas : Nat := 0x00010000
  noProgFrom : Nat := 0
  frzSel : BitVec 32 := 0
  /-- peers that hold the freeze -/
  peers : List Nat := []
  /-- FREEZE frames seen: node × 65536 + sequence -/
  seen : List Nat := []
  /-- own sequence of FREEZE frames originated -/
  seq : Nat := 0
  /-- root cycle of the first unit's stop, and of the last release -/
  frozenAt : Option Nat := none
  releasedAt : Option Nat := none
  /-- stamps latched at the last freeze: nclk and mclk -/
  stampN : BitVec 48 := 0
  stampM : BitVec 48 := 0
  /-- writes and doorbells accepted while frozen (R197) -/
  held : List Instr := []
  deriving DecidableEq, Repr

/-- The select registers and the sampling window (R441, R454, R466). -/
structure Select where
  queue : BitVec 6 := 0
  tile : BitVec 11 := 0
  stack : BitVec 5 := 0
  port : BitVec 5 := 0
  lane : BitVec 8 := 0
  sync : BitVec 18 := 0
  cnt : BitVec 4 := 0
  src : BitVec 16 := 0
  eng : BitVec 32 := 0
  sampleDone : Bool := false
  sampleEpoch : BitVec 32 := 0
  sampleData : List (BitVec 64) := []
  ambient : BitVec 32 := 0
  deriving DecidableEq, Repr

/-- Faults of a step. -/
inductive Fault where
  /-- Raised by nothing: no command of the block stops the machine, so no step answers a fault (safe). -/
  | none
  deriving DecidableEq, Repr

/-- Refusals of a step. -/
inductive Refusal where
  /-- Raised by an arm of `exec` whose command has no meaning yet (safe). -/
  | notModelled (mnemonic : String)
  deriving DecidableEq, Repr

/-- Places, first bit and width, of the fields of context sections for which the spec gives contents and no bit
positions (R144): array setup, its pinnule part (first bit, bits per pinnule, fields), pass records, stationary load list,
timed inputs, synchronisation bindings. The model's own (log 63): no command changes it and no statement rests on it. -/
structure Layout where
  setup : List (Nat × Nat) := [(0, 2), (2, 2), (4, 5), (9, 5), (14, 3)]
  pinBase : Nat := 64
  pinBits : Nat := 252
  pin : List (Nat × Nat) := [(0, 23), (23, 23), (46, 16), (62, 32), (94, 48), (142, 32), (174, 7), (181, 7), (188, 23), (211, 23)]
  pass : List (Nat × Nat) := [(0, 4), (4, 11), (15, 10), (25, 2), (27, 1), (28, 1), (29, 2), (31, 8), (39, 2), (41, 23),
    (64, 23), (87, 24), (111, 11), (122, 23), (145, 16), (161, 24), (185, 1), (186, 24)]
  load : List (Nat × Nat) := [(0, 4), (4, 2), (6, 23), (29, 1), (30, 1), (31, 1)]
  timed : List (Nat × Nat) := [(0, 2), (2, 10), (12, 24), (36, 2), (38, 16)]
  bind : List (Nat × Nat) := [(0, 18), (18, 2)]
  deriving DecidableEq, Repr

/-- The work in progress. -/
structure Work where
  runs : List Run := []
  loads : List Load := []
  /-- root cycle until which a die's context loader is occupied (R151) -/
  loaders : Tbl Nat := []
  ops : List OpRun := []
  dmas : List Dma := []
  /-- mclk from which a DMA engine (die × 16 + engine) is free -/
  dmaFree : Tbl Nat := []
  updates : List Update := []
  colls : List Coll := []
  fused : List Fused := []
  remotes : List Remote := []
  held : List HeldAccess := []
  waiters : List Waiter := []
  /-- swap notices in flight: tile, object (R328) -/
  notices : List (Nat × Nat) := []
  /-- ambient counts of each partition (R437) -/
  amb : Tbl Ambient := []
  /-- each bank as it stood before its last reset (R440) -/
  preReset : Tbl Bank := []
  hostReads : List HostRead := []
  nextTag : Nat := 0
  deriving DecidableEq, Repr

/-- The state of the module. -/
structure State where
  /-- commands waiting, first in first out -/
  pending : List Instr := []
  /-- free values drawn so far (log 2), and the next work identifier (log 4): the model's own -/
  freeN : Nat := 0
  uid : Nat := 1
  layout : Layout := {}
  clk : Clock := {}
  pwr : Power := {}
  pins : Pins := {}
  mod : Module := {}
  log : ModuleLog := {}
  fuse : Fuses := {}
  flash : Flash := {}
  sec : Security := {}
  doe : Spdm := {}
  mctp : Spdm := {}
  msix : Tbl MsixEntry := []
  msixPend : List Nat := []
  msixSent : List Nat := []
  sizes : Tbl SizeTable := []
  queues : Tbl Queue := []
  qwork : Tbl QueueWork := []
  parts : Tbl Part := []
  tiles : Tbl Tile := []
  hbmStacks : Tbl Stack := []
  ports : Tbl Port := []
  links : Tbl Link := []
  lanes : Tbl Lane := []
  objs : Tbl Obj := []
  mismatch : Tbl (BitVec 32) := []
  banks : Tbl Bank := []
  trace : Tbl TraceBuf := []
  sel : Select := {}
  dbg : Debug := {}
  work : Work := {}
  mem : Tbl Byte := []
  /-- tiles whose scratch an operator has left undefined (R240): one more than the index of the free values that its
  unlisted bytes read as -/
  scratch : Tbl Nat := []
  /-- memory keys of the marked 64-byte units, divided by 64 (R280) -/
  poison : List Nat := []
  hostOut : List HostWrite := []
  out : List Response := []
  deriving DecidableEq, Repr

/-- The flash configuration record as manufactured (R405): every port enabled, CR, AUTO_RETRAIN 1, DIR 0, NODE_ID 0. -/
def factoryRecord : List Byte :=
  let b := leBytes 2 1 ++ leBytes 2 0 ++ leBytes 4 0x3FFFF ++ leBytes 4 0 ++ leBytes 4 0x3FFFF ++
    List.replicate 236 0
  b ++ leBytes 4 (crc32c b)

/-- The module before its first cold reset: nothing powered, every register at its reset value. -/
def State.reset : State := { flash := { cfg := factoryRecord } }

end Sys2Proof.Machine
end

