-- ==== Sys2Proof/Machine/Ops.lean ====
section
/-!
DEFINITION. Named operations over the state: instances, time bases, events and MSI-X, geometry and addresses, memory
and poison marks, half pairs, counter banks.
-/
namespace Sys2Proof.Machine

/-! ### Instances -/

def State.queue (s : State) (q : Nat) : Queue := Tbl.get {} s.queues q
def State.modQueue (s : State) (q : Nat) (f : Queue → Queue) : State :=
  { s with queues := Tbl.set {} s.queues q (f (s.queue q)) }
def State.qw (s : State) (q : Nat) : QueueWork := Tbl.get {} s.qwork q
def State.modQw (s : State) (q : Nat) (f : QueueWork → QueueWork) : State :=
  { s with qwork := Tbl.set {} s.qwork q (f (s.qw q)) }
def State.part (s : State) (p : Nat) : Part := Tbl.get {} s.parts p
def State.modPart (s : State) (p : Nat) (f : Part → Part) : State :=
  { s with parts := Tbl.set {} s.parts p (f (s.part p)) }
def State.tile (s : State) (t : Nat) : Tile := Tbl.get {} s.tiles t
def State.modTile (s : State) (t : Nat) (f : Tile → Tile) : State :=
  { s with tiles := Tbl.set {} s.tiles t (f (s.tile t)) }
def State.stack (s : State) (k : Nat) : Stack := Tbl.get {} s.hbmStacks k
def State.modStack (s : State) (k : Nat) (f : Stack → Stack) : State :=
  { s with hbmStacks := Tbl.set {} s.hbmStacks k (f (s.stack k)) }
def State.port (s : State) (i : Nat) : Port := Tbl.get {} s.ports i
def State.modPort (s : State) (i : Nat) (f : Port → Port) : State :=
  { s with ports := Tbl.set {} s.ports i (f (s.port i)) }
def State.link (s : State) (i : Nat) : Link := Tbl.get {} s.links i
def State.modLink (s : State) (i : Nat) (f : Link → Link) : State :=
  { s with links := Tbl.set {} s.links i (f (s.link i)) }
def State.lane (s : State) (i : Nat) : Lane := Tbl.get {} s.lanes i
def State.modLane (s : State) (i : Nat) (f : Lane → Lane) : State :=
  { s with lanes := Tbl.set {} s.lanes i (f (s.lane i)) }
def State.obj (s : State) (o : Nat) : Obj := Tbl.get {} s.objs o
def State.setObj (s : State) (o : Nat) (v : Obj) : State := { s with objs := Tbl.set {} s.objs o v }
def State.bank (s : State) (b : Nat) : Bank := Tbl.get {} s.banks b
def State.modBank (s : State) (b : Nat) (f : Bank → Bank) : State :=
  { s with banks := Tbl.set {} s.banks b (f (s.bank b)) }
def State.size (s : State) (p : Nat) : SizeTable := Tbl.get {} s.sizes p
def State.traceBuf (s : State) (k : Nat) : TraceBuf := Tbl.get {} s.trace k
def State.modTrace (s : State) (k : Nat) (f : TraceBuf → TraceBuf) : State :=
  { s with trace := Tbl.set {} s.trace k (f (s.traceBuf k)) }
def State.modWork (s : State) (f : Work → Work) : State := { s with work := f s.work }
def State.modClk (s : State) (f : Clock → Clock) : State := { s with clk := f s.clk }
def State.modPwr (s : State) (f : Power → Power) : State := { s with pwr := f s.pwr }
def State.modMod (s : State) (f : Module → Module) : State := { s with mod := f s.mod }
def State.modLog (s : State) (f : ModuleLog → ModuleLog) : State := { s with log := f s.log }
def State.modSec (s : State) (f : Security → Security) : State := { s with sec := f s.sec }
def State.modDbg (s : State) (f : Debug → Debug) : State := { s with dbg := f s.dbg }
def State.modPins (s : State) (f : Pins → Pins) : State := { s with pins := f s.pins }

/-- A context slot of a tile (R144). -/
def Tile.ctx (t : Tile) : Nat → Ctx
  | 0 => t.c0 | 1 => t.c1 | 2 => t.c2 | _ => t.c3
def Tile.setCtx (t : Tile) (c : Nat) (v : Ctx) : Tile :=
  match c with
  | 0 => { t with c0 := v } | 1 => { t with c1 := v } | 2 => { t with c2 := v } | _ => { t with c3 := v }
def State.modCtx (s : State) (t c : Nat) (f : Ctx → Ctx) : State :=
  s.modTile t (fun x => x.setCtx c (f (x.ctx c)))

/-- An array of a tile. -/
def Tile.arr (t : Tile) (a : Nat) : MatArray := if a = 0 then t.ma0 else t.ma1
def Tile.setArr (t : Tile) (a : Nat) (v : MatArray) : Tile :=
  if a = 0 then { t with ma0 := v } else { t with ma1 := v }
def State.modArr (s : State) (t a : Nat) (f : MatArray → MatArray) : State :=
  s.modTile t (fun x => x.setArr a (f (x.arr a)))

/-- A tile is claimed while a context on it is not EMPTY (R18). -/
def Tile.claimed (t : Tile) : Bool := [0, 1, 2, 3].any (fun c => t.ctx c |>.st |> (· != 0))

/-- A fresh identifier for executing work. -/
def State.fresh (s : State) : Nat × State := (s.uid, { s with uid := s.uid + 1 })

/-- The next free value (log 2). -/
def State.free (s : State) : BitVec 64 × State := (Config.free s.freeN, { s with freeN := s.freeN + 1 })

/-- `n` free bytes. -/
def State.freeBytes (s : State) (n : Nat) : List Byte × State :=
  ((List.range n).map (fun i => (Config.free (s.freeN + i)).truncate 8), { s with freeN := s.freeN + n })

/-! ### Time -/

/-- SCLK_TIME (R419): 60 root cycles each. -/
def State.sclk (s : State) : Nat := s.clk.root / 60

/-- The 48-bit nclk time base (R419). -/
def State.nclk (s : State) : Nat :=
  match s.clk.origin with
  | none => 0
  | some o => (s.clk.root - o) / 3 % 2 ^ 48

/-- MCLK_TIME (R304, R419). -/
def State.mclk (s : State) : Nat :=
  match s.clk.origin with
  | none => 0
  | some _ => (s.clk.markMclk + (s.clk.root - s.clk.markRoot) / s.clk.div) % 2 ^ 48

/-- Root cycles of a number of microseconds. -/
def usRoot (us : Nat) : Nat := us * 6000

/-- Root cycles of a memory frame and of a stream slot frame (R153, R274). -/
def frameRoot : Nat := 24576
def slotRoot : Nat := 48

/-- The smallest length in mclk, a whole number of `unit` root cycles and of mclk, that is at least `len` mclk and at
least one (R165, R430). -/
def wholeHold (unit div len : Nat) : Nat :=
  let step := unit / Nat.gcd unit div
  max step (roundUp len step)

/-- The module is frozen (R195). -/
def State.frozen (s : State) : Bool := s.dbg.frozenAt.isSome

/-- No-progress mclks of a run (R187) among the `k` from mclk `m` on: counted between S and its end while it is not held
and no operation of its units moves beats. -/
def Run.idle (r : Run) (m k : Nat) : Run :=
  if r.start.isSome && r.hold.isNone then
    (if m < r.movesTo then { r with noProg := k - (r.movesTo - m) } else { r with noProg := r.noProg + k })
  else r

/-! ### Partitions -/

def State.nParts (s : State) : Nat := s.mod.partCount.toNat
/-- Dies and stacks of a partition (R20). -/
def State.nDies (s : State) : Nat := 8 / s.nParts
def State.nStacks (s : State) : Nat := 32 / s.nParts
def State.firstDie (s : State) (p : Nat) : Nat := p * s.nDies
def State.partOfDie (s : State) (d : Nat) : Nat := d / s.nDies
def State.partOfTile (s : State) (t : Nat) : Nat := s.partOfDie (t / 144)
def State.partOfStack (s : State) (k : Nat) : Nat := s.partOfDie (k / 4)

/-- The die of a port (R11). -/
def dieOfPort (i : Nat) : Nat :=
  if i < 3 then 0 else if 15 ≤ i then 7 else (i - 3) / 2 + 1
def State.partOfPort (s : State) (i : Nat) : Nat := s.partOfDie (dieOfPort i)
/-- The ports of a partition, ascending. -/
def State.portsOf (s : State) (p : Nat) : List Nat := (List.range 18).filter (fun i => s.partOfPort i == p)

/-! ### Idle causes (R384) -/

def cOp (b : List Byte) : Nat := fld b 0 1
def cTag (b : List Byte) : Nat := fld b 4 2
def cWaitSync (b : List Byte) : Nat := bits (fld b 8 4) 0 18
def cWaitCond (b : List Byte) : Nat := bits (fld b 8 4) 18 4
def cSigSync (b : List Byte) : Nat := bits (fld b 12 4) 0 18
def cSigOp (b : List Byte) : Nat := bits (fld b 12 4) 18 4

/-- An executing collective of a partition signals the object when it completes. -/
def State.collSignals (s : State) (p obj : Nat) : Bool :=
  s.qwork.any (fun (q, x) => (s.queue q).part.toNat == p &&
    x.executing.any (fun e => 0x50 == cOp e.bytes / 4 * 4 && cSigOp e.bytes != 0 && cSigSync e.bytes == obj))

/-- The commands of a partition that wait, with the idle cause of each and the ports of an awaited member: collectives,
held runs, header waits and WAIT commands. -/
def State.waitingCmds (s : State) (p : Nat) : List (Nat × Nat × List Nat) :=
  let onObj (b : List Byte) (o : Nat) : Nat := if cOp b == 0x40 || s.collSignals p o then 13 else 10
  (s.work.colls.filter (fun c => c.part == p && !c.timers.isEmpty)).map (fun c => (c.id, c.cause, c.ports)) ++
  (s.work.runs.filter (fun r => r.part == p)).filterMap (fun r =>
    r.hold.map (fun h => (r.owner, if h.cls = 1 then 14 else 10, []))) ++
  (s.qwork.filter (fun (q, _) => (s.queue q).part.toNat == p)).flatMap (fun (_, x) =>
    (match x.waiting with
     | some w => if w.waitOk then [] else [(w.id, onObj w.bytes (cWaitSync w.bytes), [])]
     | none => []) ++
    (x.executing.filter (fun e => cOp e.bytes == 0x04)).map (fun e => (e.id, onObj e.bytes (bits (fld e.bytes 16 4) 0 18), [])))

/-- The oldest of them. -/
def State.oldestWait (s : State) (p : Nat) : Option (Nat × Nat × List Nat) :=
  (s.waitingCmds p).foldl (fun a c => match a with | some x => if c.1 < x.1 then some c else a | none => some c) none

/-- The count of an idle engine of a partition, and of an idle port, which awaits a peer only where the member routes through
it (R384). -/
def State.idleCause (s : State) (p : Nat) : Nat := (s.oldestWait p).elim 10 (fun c => c.2.1)
def State.portCause (s : State) (i : Nat) : Nat :=
  match s.oldestWait (s.partOfPort i) with
  | some (_, c, l) => if c = 11 ∧ !l.contains i then 10 else c
  | none => 10

/-- `k` mclk under the causes in force. -/
def State.idleOn (s : State) (k : Nat) : Tbl Nat :=
  let add (t : Tbl Nat) (key : Nat) : Tbl Nat := Tbl.put t key (Tbl.get 0 t key + k)
  let t := (List.range s.nParts).foldl (fun t p => add t (p * 16 + s.idleCause p)) s.clk.idle
  (List.range 18).foldl (fun t i => add t ((64 + i) * 16 + s.portCause i)) t

/-- mclk so far of the waiting causes of a partition, or of a port as unit 64 + i; all counted mclk of a partition. -/
def State.causeBy (s : State) (u : Nat) : List Nat := [11, 12, 13, 14].map (fun c => Tbl.get 0 s.clk.idle (u * 16 + c))
def State.counted (s : State) (p : Nat) : Nat :=
  Tbl.get 0 s.clk.idle (p * 16 + 10) + (s.causeBy p).foldl (· + ·) 0

/-- mclk edges in the `n` root cycles that follow the present one. -/
def State.edges (s : State) (n : Nat) : Nat :=
  if s.clk.origin.isNone then 0
  else (s.clk.root + n - s.clk.markRoot) / s.clk.div - (s.clk.root - s.clk.markRoot) / s.clk.div

/-- `n` root cycles pass: the time bases advance; time-outs and no-progress counters stand while frozen (R198), the
latter in a pause too (R165). -/
def State.advance (s : State) (n : Nat) : State :=
  let k := s.edges n
  let s1 := s.modClk (fun c => { c with
    root := c.root + n, live := c.live + (if s.frozen then 0 else n),
    idle := if s.frozen || k == 0 then c.idle else s.idleOn k })
  if s.frozen || s.pwr.paused.isSome || k == 0 then s1
  else s1.modWork (fun w => { w with runs := w.runs.map (fun r => r.idle s.mclk k) })

/-- Let time pass up to a root cycle that the rule of a row gives (log 3). -/
def State.untilRoot (s : State) (r : Nat) : State := s.advance (r - s.clk.root)
/-- Let time pass up to a reading of the time base that freezes. -/
def State.untilLive (s : State) (l : Nat) : State := if s.frozen then s else s.advance (l - s.clk.live)
/-- Let time pass up to the start of mclk `m`. -/
def State.untilMclk (s : State) (m : Nat) : State :=
  s.untilRoot (s.clk.markRoot + (m - s.clk.markMclk) * s.clk.div)

/-- A stamp of work still under way at a stop in mclk `stop` moves on by the `h` mclk of the stop. -/
def shiftBy (stop h x slack : Nat) : Nat := if stop ≤ x + slack then x + h else x

def Pinnule.shift (p : Pinnule) (stop h : Nat) : Pinnule :=
  { p with lastAt := shiftBy stop h p.lastAt 1, nextAt := shiftBy stop h p.nextAt 0 }

def MatArray.shift (a : MatArray) (stop h : Nat) : MatArray :=
  let late := decide (stop ≤ a.drainUntil)
  { a with lastIssue := shiftBy stop h a.lastIssue 10,
           flight := a.flight.map (fun f => { f with mclk := shiftBy stop h f.mclk 10 }),
           pins := Tbl.mapV {} (fun p => p.shift stop h) a.pins,
           chainQ := a.chainQ.map (fun x => { x with notice := shiftBy stop h x.notice 0 }),
           countedTo := shiftBy stop h a.countedTo 0,
           drain := a.drain.map (fun d => { d with start := d.start + h }),
           drainFrom := if late then a.drainFrom + h else a.drainFrom,
           drainUntil := if late then a.drainUntil + h else a.drainUntil }

def Vec.shift (v : Vec) (stop h : Nat) : Vec :=
  { v with busyUntil := shiftBy stop h v.busyUntil 0, run := v.run.map (fun r => { r with start := r.start + h }) }

def Tile.shift (t : Tile) (stop h : Nat) : Tile :=
  { t with ma0 := t.ma0.shift stop h, ma1 := t.ma1.shift stop h, ve := t.ve.shift stop h }

/-- A freeze source holds (R195, R452): pin, debug, peer. -/
def State.frzSources (s : State) : Nat :=
  b01 (!s.pins.haltN) + 2 * b01 s.dbg.freezeReq + 4 * b01 (!s.dbg.peers.isEmpty)

/-! ### Events and MSI-X -/

def State.msix1 (s : State) (v : Nat) : MsixEntry := Tbl.get {} s.msix v

/-- Raise a vector: masked, its pending bit is set (R401). -/
def State.raise (s : State) (v : Nat) : State :=
  if (s.msix1 v).mask then { s with msixPend := setIns s.msixPend v }
  else { s with msixSent := v :: s.msixSent }

/-- Set bit `b` of MODULE.EVENT.CAUSE; a bit that becomes set raises vector 0 (R401, R457). -/
def State.event (s : State) (b : Nat) : State :=
  if bit s.mod.event.toNat b then s
  else (s.modMod (fun m => { m with event := m.event ||| BitVec.ofNat 12 (2 ^ b) })).raise 0

/-- Log an error in MODULE.HOST_ERR: the first since the last read keeps its fields (R457). -/
def State.hostErr (s : State) (kind addr : Nat) (q slot : Nat := 0) : State :=
  let first := s.log.errKind == 0
  s.modLog (fun l =>
    let l := { l with errCount := BitVec.ofNat 32 (satAdd 32 l.errCount.toNat 1) }
    if first then
      { l with errKind := BitVec.ofNat 4 kind, errAddr := BitVec.ofNat 64 addr,
               errQueue := BitVec.ofNat 6 q, errSlot := BitVec.ofNat 16 slot }
    else l)

/-- An error of a register access (KIND 3, 4 or 6): the spec does not say which address ADDR then holds (log 23). -/
def State.hostErrOpen (s : State) (kind : Nat) : State :=
  let (v, s) := s.free
  s.hostErr kind v.toNat

/-- Answer the sender. -/
def State.reply (s : State) (r : Response) : State := { s with out := r :: s.out }

/-! ### What the host reaches (R407, R408) -/

/-- The root core, or the ROM in recovery, serves BAR0: the MODULE block answers. -/
def State.modServed (s : State) : Bool := s.pins.linkUp && !s.mod.rootDead
/-- SECURITY and SPDM: from the end of F1. -/
def State.secServed (s : State) : Bool := s.modServed && !s.mod.recovery && decide (2 ≤ s.mod.stage.toNat)
/-- The firmware mailbox: also in recovery. -/
def State.mailServed (s : State) : Bool := s.modServed && (s.mod.recovery || decide (2 ≤ s.mod.stage.toNat))
/-- FUSE_REPAIR, TILE, PORT and LANE: from the end of F2. -/
def State.laneServed (s : State) : Bool := s.modServed && !s.mod.recovery && decide (3 ≤ s.mod.stage.toNat)
/-- Every block: from the end of F5. -/
def State.allServed (s : State) : Bool := s.modServed && s.mod.done

/-! ### Addresses of a partition -/

/-- HBM bytes of a partition (R22). -/
def State.capacity (s : State) : Nat := 2 ^ 41 / s.nParts

/-- Physical tile of a local global tile index, and back (R21). -/
def State.physTile (s : State) (p l : Nat) : Nat := s.firstDie p * 144 + l
def State.localTile (s : State) (t : Nat) : Nat := t - s.firstDie (s.partOfTile t) * 144

/-- Physical synchronisation identifier of a local one (R21, R311). -/
def State.physObj (s : State) (p l : Nat) : Nat := l + s.firstDie p * 32768

/-- A tile that the Size Tables list as enabled (R455). -/
def State.listed (s : State) (t : Nat) : Bool := (s.size (s.partOfTile t)).tiles.contains t

/-- Tiles absent by fuses or left out at F2 (R268, R404). -/
def State.absent (s : State) (t : Nat) : Bool :=
  s.fuse.fusedOff.contains t || s.fuse.retired.contains t || s.fuse.leftOut.contains t

/-! ### Addresses and memory -/

/-- Bits of the tile and staging regions (R260). -/
def tileRegion : Nat := 0x4000000000000
def stagingRegion : Nat := 0x6000000000000

/-- Physical base of the slot of a tile. -/
def tileBase (t : Nat) : Nat := tileRegion + (t / 144) * 2 ^ 36 + (t % 144) * 2 ^ 23

/-- Roles of a tile's enabled half pairs, bit n pair n (R269). -/
def Tile.roles (t : Tile) : Nat :=
  (List.range 16).foldl (fun a n => a + b01 (Tbl.get {} t.pairs n).role * 2 ^ n) 0

/-- Z of a pair in bytes (R269). -/
def HalfPair.z (h : HalfPair) : Nat := 4096 * 2 ^ h.size.toNat
def HalfPair.base (h : HalfPair) : Nat := h.base4k.toNat * 4096

/-- The physical tile-store offset that an offset reaches under latched roles (R270). -/
def Tile.xlat (t : Tile) (roles off : Nat) : Nat :=
  match t.pairs.find? (fun (_, h) => h.enable && decide (h.base ≤ off) && decide (off < h.base + 2 * h.z)) with
  | none => off
  | some (n, h) => if bit roles n then off ^^^ h.z else off

/-- Memory key of a byte of a tile slot under latched roles; none in the reserved part of the slot. -/
def State.slotKey (s : State) (t roles off : Nat) : Option Nat :=
  if off < 0x600000 then some (tileBase t + (s.tile t).xlat roles off)
  else if off < 0x6A0000 then some (tileBase t + off)
  else none

/-- Memory key of an HBM byte at partition address `a` of partition `p` (R272, R273): the stack, and the byte in
stack-local order. -/
def State.hbmKey (s : State) (p a : Nat) : Nat :=
  let z := s.mod.dieLocal.toNat
  let n := s.nStacks
  let inter := n * (64 - z) * 2 ^ 30
  let k0 := p * n
  if a < inter then
    let st := a / 4096 % n
    let g := a / 4096 / n
    (k0 + st) * 2 ^ 36 + g * 4096 + a % 4096
  else
    let o := a - inter
    let region := 4 * z * 2 ^ 30
    let d := o / region
    let o := o % region
    (k0 + 4 * d + o / 4096 % 4) * 2 ^ 36 + (64 - z) * 2 ^ 30 + o / 16384 * 4096 + o % 4096

/-- A partition address's memory key under the half-pair roles given per tile; none where it is reserved, or names an
absent tile (R260 to R262, R270). -/
def State.addrKeyW (s : State) (roles : Nat → Nat) (p a : Nat) : Option Nat :=
  if a < s.capacity then some (s.hbmKey p a)
  else if tileRegion ≤ a ∧ a < tileRegion + s.nDies * 2 ^ 36 then
    let d := (a - tileRegion) / 2 ^ 36
    let t := a / 2 ^ 23 % 2 ^ 13
    let ph := (s.firstDie p + d) * 144 + t
    if t < 144 ∧ s.listed ph then s.slotKey ph (roles ph) (a % 2 ^ 23) else none
  else if stagingRegion ≤ a ∧ a < stagingRegion + s.nStacks * 2 ^ 23 then
    some (a + p * s.nStacks * 2 ^ 23)
  else none

/-- The same under the present roles. -/
def State.addrKey (s : State) (p a : Nat) : Option Nat := s.addrKeyW (fun t => (s.tile t).roles) p a

/-- A physical address's memory key (R261, R262). -/
def State.physKey (s : State) (a : Nat) : Option Nat :=
  if a < 2 ^ 41 then some (s.hbmKey (a / s.capacity) (a % s.capacity))
  else if tileRegion ≤ a ∧ a < tileRegion + 8 * 2 ^ 36 then
    let d := (a - tileRegion) / 2 ^ 36
    let t := a / 2 ^ 23 % 2 ^ 13
    let ph := d * 144 + t
    if t < 144 ∧ s.listed ph then s.slotKey ph (s.tile ph).roles (a % 2 ^ 23) else none
  else if stagingRegion ≤ a ∧ a < stagingRegion + 32 * 2 ^ 23 then some a
  else none

/-- Physical tile of a memory key of the tile region. -/
def keyTile (k : Nat) : Nat := (k - tileRegion) / 2 ^ 36 * 144 + k / 2 ^ 23 % 2 ^ 13

/-- What an unlisted byte reads as: 0 (log 1), or a free value in the scratch that an operator left (R240). -/
def blank (scratch : Tbl Nat) (k : Nat) : Byte :=
  if k < tileRegion ∨ stagingRegion ≤ k then 0
  else match Tbl.get 0 scratch (keyTile k) with
    | 0 => 0
    | n + 1 => (Config.free (n + k % 2 ^ 23)).truncate 8

/-- One byte of memory. -/
def State.rd (s : State) (k : Nat) : Byte := Tbl.get (blank s.scratch k) s.mem k

/-- The mark of a unit that `poison` does not list: none, or a free one in the scratch that an operator left (R240). -/
def blankMark (scratch : Tbl Nat) (u : Nat) : Bool :=
  if 64 * u < tileRegion ∨ stagingRegion ≤ 64 * u then false
  else match Tbl.get 0 scratch (keyTile (64 * u)) with
    | 0 => false
    | n + 1 => (Config.free (n + 2 ^ 23 + 64 * u % 2 ^ 23 / 64)).getLsbD 0

/-- The poison mark of the 64-byte unit of a key (R280): `poison` lists the units whose mark is not the blank one. -/
def State.marked (s : State) (k : Nat) : Bool := blankMark s.scratch (k / 64) != s.poison.contains (k / 64)

/-- The list of marks with unit u marked so. -/
def putMark (scratch : Tbl Nat) (ps : List Nat) (u : Nat) (m : Bool) : List Nat :=
  if m = blankMark scratch u then setDel ps u else setIns ps u
def State.setMark (s : State) (u : Nat) (m : Bool) : State := { s with poison := putMark s.scratch s.poison u m }

/-- Read bytes at keys. -/
def State.rdKeys (s : State) (ks : List Nat) : List Byte := ks.map s.rd
def State.anyMark (s : State) (ks : List Nat) : Bool := ks.any s.marked

/-- A byte to store: key, value, whether its source was marked. -/
abbrev Cell := Nat × Byte × Bool

/-- Distinct units of a list of keys, in order of first use. -/
def unitsOf (ks : List Nat) : List Nat :=
  ks.foldl (fun u k => if u.contains (k / 64) then u else (k / 64) :: u) []

/-- The mark of a unit after a store into it: set by a marked byte, cleared when all 64 bytes are written unmarked,
kept otherwise (R85, R280). -/
def markAfter (cells : List Cell) (u : Nat) (old : Bool) : Bool :=
  let mine := cells.filter (fun c => c.1 / 64 == u)
  mine.any (fun c => c.2.2) || (old && !(decide ((mine.map Prod.fst).eraseDups.length = 64)))

/-- Store bytes with their marks. -/
def State.store (s : State) (cells : List Cell) : State :=
  let mem := cells.foldl (fun m c => Tbl.set (blank s.scratch c.1) m c.1 c.2.1) s.mem
  let poison := (unitsOf (cells.map Prod.fst)).foldl
    (fun ps u => putMark s.scratch ps u (markAfter cells u (s.marked (64 * u)))) s.poison
  { s with mem := mem, poison := poison }

/-- Keys of `n` bytes from partition address `a`; none if any byte has none. -/
def State.keys (s : State) (p a n : Nat) : Option (List Nat) :=
  (List.range n).mapM (fun i => s.addrKey p (a + i))

/-- Bytes at a partition address; a reserved byte reads 0. -/
def State.rdAt (s : State) (p a n : Nat) : List Byte :=
  (List.range n).map (fun i => match s.addrKey p (a + i) with | some k => s.rd k | none => 0)
/-- Whether any byte lies in a marked unit. -/
def State.markAt (s : State) (p a n : Nat) : Bool :=
  (List.range n).any (fun i => match s.addrKey p (a + i) with | some k => s.marked k | none => false)
/-- Write bytes at a partition address, all with one mark; reserved bytes are not written. -/
def State.wrAt (s : State) (p a : Nat) (bs : List Byte) (mark : Bool := false) : State :=
  s.store ((List.range bs.length).zip bs |>.filterMap
    (fun (i, b) => (s.addrKey p (a + i)).map (fun k => (k, b, mark))))

/-! ### ECC of a tile (R84, R137, R266) -/

/-- A word of a tile's slot, by its physical offset, holds an error: counted for tile store and accumulators; an
uncorrectable one marks the word, or the row segment. -/
def State.eccError (s : State) (t off : Nat) (bad : Bool) : State :=
  let up (b : BitVec 32) : BitVec 32 := BitVec.ofNat 32 (satAdd 32 b.toNat 1)
  let s := if bad then s.setMark ((tileBase t + off) / 64) true else s
  s.modTile t (fun x =>
    let x := if bad ∧ off < 0x600000 then { x with ueTimes := (s.sclk :: x.ueTimes).take 256 }
      else if bad ∧ off < 0x680000 then { x with accUeTimes := (s.sclk :: x.accUeTimes).take 256 } else x
    if off < 0x600000 then (if bad then { x with tsUe := up x.tsUe } else { x with tsCe := up x.tsCe })
    else if off < 0x680000 then (if bad then { x with accUe := up x.accUe } else { x with accCe := up x.accCe })
    else x)

/-- The errors that ECC finds in the words a row reads. -/
def State.eccFound (s : State) (t : Nat) (e : EccFound) : State :=
  if t < 1152 then e.words.foldl (fun s (o, bad) => s.eccError t o bad) s else s

/-! ### The domain of a queue (R308) -/

/-- The `n` bytes from `a` lie in queue `q`'s domain: its window, enabled tile slots, staging buffers. -/
def State.inDomain (s : State) (q a n : Nat) : Bool :=
  let w := s.queue q
  let p := w.part.toNat
  if n = 0 then true
  else if a < s.capacity then
    decide (w.winBase.toNat * 4096 ≤ a) && decide (a + n ≤ (w.winLimit.toNat + 1) * 4096) && decide (a + n ≤ s.capacity)
  else if a < stagingRegion then
    -- one tile slot: every byte of the range stands in the same listed slot's used part
    (s.addrKey p a).isSome && decide (a % 2 ^ 23 + n ≤ 0x6A0000)
  else (s.addrKey p a).isSome && (s.addrKey p (a + n - 1)).isSome

/-- The same, inside the window only (HBM). -/
def State.inWindow (s : State) (q a n : Nat) : Bool :=
  decide (a < s.capacity) && s.inDomain q a n

/-! ### Half pairs -/

/-- A swap (R271). -/
def HalfPair.swap (h : HalfPair) : HalfPair :=
  { h with role := !h.role, generation := h.generation + 1 }

def State.pair (s : State) (t n : Nat) : HalfPair := Tbl.get {} (s.tile t).pairs n
def State.modPair (s : State) (t n : Nat) (f : HalfPair → HalfPair) : State :=
  s.modTile t (fun x => { x with pairs := Tbl.set {} x.pairs n (f (Tbl.get {} x.pairs n)) })

/-! ### Counters -/

/-- Add to a list element, saturating at 48 bits. -/
def bump (l : List Nat) (i n : Nat) : List Nat := l.set i (satAdd 48 (l.getD i 0) n)

/-- Add `n` to count `c` of engine `e` in a bank; what the all-ones value cannot hold sets SATURATED (R435). -/
def Bank.count (b : Bank) (e c n : Nat) : Bank :=
  let v := Tbl.get 0 b.counts (e * 16 + c) + n
  { b with counts := Tbl.set 0 b.counts (e * 16 + c) (min v (2 ^ 48 - 1)),
           sat := if 2 ^ 48 ≤ v then setIns b.sat e else b.sat }

/-- Sum of an engine's sixteen counts. -/
def Bank.total (b : Bank) (e : Nat) : Nat := (List.range 16).foldl (fun n c => n + Tbl.get 0 b.counts (e * 16 + c)) 0

/-- An engine of work that has lasted `n` counted mclk counts those in which it neither worked nor stalled as idle
(R435, R436), first the `by'` mclk of each waiting cause (DESIGN CHOICE, log 97); `base`: its counts at the work's
beginning. -/
def Bank.idle (b : Bank) (base : Tbl Nat) (n : Nat) (by' : List Nat) (e : Nat) : Bank :=
  let m := n - (b.total e - Tbl.get 0 base (e * 16))
  let (b, m) := [0, 1, 2, 3].foldl (fun (a : Bank × Nat) i =>
    let k := e * 16 + 11 + i
    let x := min a.2 (by'.getD i 0 - (Tbl.get 0 a.1.counts k - Tbl.get 0 base k))
    (a.1.count e (11 + i) x, a.2 - x)) (b, m)
  b.count e 10 m

/-- Take back `n` of count `c` of engine `e`, counted in the present mclk. -/
def Bank.uncount (b : Bank) (e c n : Nat) : Bank :=
  { b with counts := Tbl.set 0 b.counts (e * 16 + c) (Tbl.get 0 b.counts (e * 16 + c) - n) }

/-- Add a health set to a bank (R55, R438). -/
def Bank.addHealth (b : Bank) (h : Health) : Bank :=
  let l := bump (bump (bump b.health 0 h.nanIn) 1 h.nanOut) 2 h.infOut
  { b with health := bump (bump l 3 h.sat) 4 h.flush }

/-- Place of a pinnule fault's DETAIL word in the order of tile, array and pinnule (R305, R443). -/
def faultKey (d : Nat) : Nat := d % 2048 * 32 + d / 2048 % 2 * 16 + d / 4096 % 16

/-- Insert a DETAIL word in that order. -/
def insFault (d : Nat) : List Nat → List Nat
  | [] => [d]
  | x :: t => if faultKey d < faultKey x then d :: x :: t else x :: insFault d t

def Bank.addFault (b : Bank) (d : Nat) : Bank :=
  { b with faultCount := satAdd 48 b.faultCount 1, faults := (insFault d b.faults).take 256 }

/-- A reset of a bank (R439); its ring and index stay. -/
def Bank.reset (b : Bank) : Bank :=
  { epoch := b.epoch + 1, snapBase := b.snapBase, slotSize := b.slotSize, snapCount := b.snapCount,
    nextIndex := b.nextIndex, resetAt := b.resetAt }

/-- The identifier of an engine (R442). -/
def engTile (t unit : Nat) : Nat := unit * 16 + t * 256
def engUe (k : Nat) : Nat := 1 + k * 256
def engDma (i : Nat) : Nat := 2 + i * 256
def engPort (i : Nat) : Nat := 3 + i * 256

/-- The bank a queue binds, and the ambient bank of a partition (R437). -/
def State.bankOf (s : State) (q : Nat) : Nat := (s.queue q).bank.toNat
def State.ambient (s : State) (p : Nat) : Nat := bits s.sel.ambient.toNat (4 * p) 4

def State.health (s : State) (b : Nat) (h : Health) : State := s.modBank b (fun x => x.addHealth h)

/-- The mclk, or the one in which the module froze. -/
def State.liveMclk (s : State) : Nat := if s.frozen then s.dbg.stampM.toNat else s.mclk

/-- mclk of a run from S on that are neither held nor frozen (R165, R436). -/
def State.elapsed (s : State) (r : Run) : Nat :=
  match r.start with
  | none => 0
  | some m =>
    let now := match r.hold with | some h => h.since | none => s.liveMclk
    now - m - r.slip.foldl (· + ·) 0

/-- The eight units of each tile (R437). -/
def tileEngines (ts : List Nat) : List Nat := (ts.map (fun t => (List.range 8).map (engTile t))).flatten
/-- The engines of a run. -/
def Run.engines (r : Run) : List Nat := tileEngines r.tiles

/-- Counts of engines in a bank as it stands: the sum at e × 16, those of the waiting causes at theirs. -/
def Bank.totals (b : Bank) (es : List Nat) : Tbl Nat :=
  es.foldl (fun t e => [11, 12, 13, 14].foldl (fun t c => Tbl.set 0 t (e * 16 + c) (Tbl.get 0 b.counts (e * 16 + c)))
    (Tbl.set 0 t (e * 16) (b.total e))) []

/-- mclk of an operator from S on that are not frozen. -/
def State.opElapsed (s : State) (o : OpRun) : Nat :=
  match o.start with | some m => s.liveMclk - m - o.paused | none => 0

/-- mclk of the waiting causes since a base. -/
def State.causesSince (s : State) (u : Nat) (base : List Nat) : List Nat :=
  ((s.causeBy u).zip (base ++ [0, 0, 0, 0])).map (fun (a, b) => a - b)

/-- The engines of the runs and operators that a bank is bound to count their idle mclk so far (R154, R436). -/
def State.tally (s : State) (b : Nat) : State :=
  let s := (s.work.runs.filter (fun r => r.start.isSome && s.bankOf r.q == b)).foldl (fun s r =>
    s.modBank b (fun x => r.engines.foldl (fun x e =>
      x.idle r.base (s.elapsed r - r.baseAt) (s.causesSince r.part r.baseBy) e) x)) s
  (s.work.ops.filter (fun o => o.start.isSome && s.bankOf o.q == b)).foldl (fun s o =>
    s.modBank b (fun x => (tileEngines o.tiles).foldl (fun x e =>
      x.idle o.base (s.opElapsed o - o.baseAt) (s.causesSince o.part o.baseBy) e) x)) s

/-- A run's counts begin in its bank as it stands (R437). -/
def Run.rebase (r : Run) (b : Bank) (at' : Nat) (by' : List Nat) : Run :=
  { r with baseAt := at', base := b.totals r.engines, baseBy := by' }

/-! ### Ambient banks (R437) -/

def State.amb (s : State) (p : Nat) : Ambient := Tbl.get {} s.work.amb p

/-- mclk since the ambient counts began that work begun at counted mclk `from'` has covered, less the `own` that it counted in
the ambient bank itself. -/
def State.covered (s : State) (p from' own : Nat) : Nat := s.counted p - max from' (s.amb p).since - own

/-- What the work in progress covers of an engine. -/
def State.coverNow (s : State) (p e : Nat) : Nat :=
  let a := s.ambient p
  let t := e / 256
  if e % 16 = 0 then
    (s.work.runs.filter (fun r => r.start.isSome && r.tiles.contains t)).foldl (fun n r =>
      n + s.covered p r.coverAt (if s.bankOf r.q = a then s.elapsed r - r.baseAt else 0)) 0 +
    (s.work.ops.filter (fun o => o.start.isSome && o.tiles.contains t)).foldl (fun n o =>
      n + s.covered p o.coverAt (if s.bankOf o.q = a then s.opElapsed o - o.baseAt else 0)) 0
  else if e % 16 = 1 then
    (s.work.updates.filter (fun u => u.part == p && decide (u.kind < 2))).foldl (fun n u => max n (s.covered p u.coverAt 0)) 0
  else 0

/-- Work on engines ends: what it covered stays noted. -/
def State.cover (s : State) (p : Nat) (es : List Nat) (n : Nat) : State :=
  if n = 0 then s
  else
    let a := s.amb p
    let c := es.foldl (fun t e => Tbl.put t e (Tbl.get 0 t e + n)) a.cover
    s.modWork (fun w => { w with amb := Tbl.put w.amb p { a with cover := c } })

def State.partUes (s : State) (p : Nat) : List Nat := ((List.range 32).filter (fun k => s.partOfStack k == p)).map engUe

/-- The engines of a partition (R435). -/
def State.partEngines (s : State) (p : Nat) : List Nat :=
  tileEngines (s.size p).tiles ++ s.partUes p ++ (List.range (16 * s.nDies)).map (fun i => engDma (16 * s.firstDie p + i)) ++ (s.portsOf p).map engPort

/-- A bank with the idle mclk of those engines that count into it as their partition's ambient bank. -/
def State.ambientOf (s : State) (p : Nat) (es : List Nat) (b : Bank) : Bank :=
  let a := s.amb p
  es.foldl (fun b e =>
    let u := if e % 16 = 3 then 64 + e / 256 else p
    b.idle a.base (s.counted p - a.since - Tbl.get 0 a.cover e - s.coverNow p e)
      (if e % 16 = 3 then (s.causeBy u) else s.causesSince u a.by') e) b

/-- Partitions whose ambient bank this is. -/
def State.ambientParts (s : State) (b : Nat) : List Nat := (List.range s.nParts).filter (fun p => s.ambient p == b)

/-- The sample of a bank in mclk `m`, ambient counts included; in the mclk of a reset, the bank before it (R440). -/
def State.sampleOf (s : State) (b m : Nat) : Bank :=
  if (s.bank b).resetAt = m + 1 then Tbl.get {} s.work.preReset b
  else (s.ambientParts b).foldl (fun x p => s.ambientOf p (s.partEngines p) x) (s.bank b)

/-- Ambient counts of the partitions begin anew in their banks as they stand. -/
def State.ambientFrom (s : State) (ps : List Nat) : State :=
  s.modWork (fun w => { w with amb := ps.foldl (fun t p =>
    let b := s.bank (s.ambient p)
    Tbl.put t p { since := s.counted p, base := b.totals (b.counts.foldl (fun l (k, _) => setIns l (k / 16)) []),
                  by' := s.causeBy p }) w.amb })

/-- AMBIENT is written: the old banks keep what they counted. -/
def State.setAmbient (s : State) (v : BitVec 32) : State :=
  let ps := (List.range s.nParts).filter (fun p => bits v.toNat (4 * p) 4 != s.ambient p)
  let s := ps.foldl (fun s p => s.modBank (s.ambient p) (s.ambientOf p (s.partEngines p))) s
  ({ s with sel := { s.sel with ambient := v } }).ambientFrom ps

/-- A bank is reset, once in a mclk (R439): the engines at work count on from 0. -/
def State.resetBank (s : State) (b : Nat) : State :=
  if (s.bank b).resetAt = s.mclk + 1 then s
  else
  let old := (s.tally b).sampleOf b s.mclk
  let m := s.mclk
  let s := (s.modWork (fun w => { w with preReset := Tbl.put w.preReset b old })).modBank b (fun x =>
    { x.reset with resetAt := m + 1 })
  (s.modWork (fun w => { w with
    runs := w.runs.map (fun r =>
      if r.start.isSome && s.bankOf r.q == b then
        { r with base := [], baseAt := s.elapsed r, baseBy := s.causeBy r.part } else r),
    ops := w.ops.map (fun o =>
      if o.start.isSome && s.bankOf o.q == b then
        { o with base := [], baseAt := s.opElapsed o, baseBy := s.causeBy o.part } else o) })).ambientFrom (s.ambientParts b)

/-! ### Trace (R446 to R448) -/

/-- Source codes: 0 tile, 1 update engine, 2 port, in bits [15:13]. -/
def srcTile (t : Nat) : Nat := t
def srcUe (k : Nat) : Nat := 0x2000 + k
def srcPort (i : Nat) : Nat := 0x4000 + i

/-- Append a record to a source's buffer: a full half waits for its block write; while both are full, records drop. -/
def TraceBuf.push (b : TraceBuf) (r : Nat) : TraceBuf :=
  if b.half.length < 512 then { b with half := b.half ++ [r] }
  else if b.full.isEmpty then { b with full := b.half, half := [r] }
  else { b with lost := b.lost + 1 }

/-- Record event `ev` of class `cls` (15: always) at a source (R446, R447). -/
def State.traceEv (s : State) (src unit ev cls payload : Nat) : State :=
  let b := s.traceBuf src
  if b.recording && (bit b.mask.toNat cls || cls == 5 || cls == 6 || cls == 15) then
    s.modTrace src (fun b => b.push (s.mclk + ev * 2 ^ 48 + src * 2 ^ 56 + unit * 2 ^ 72 + payload * 2 ^ 76))
  else s

/-- The trace source of an engine of R442: a tile, an update engine or a port. -/
def engSrc (e : Nat) : Option Nat :=
  match e % 16 with
  | 0 => some (srcTile (e / 256))
  | 1 => some (srcUe (e / 256))
  | 3 => some (srcPort (e / 256))
  | _ => none

/-- A unit counts `n` mclk at index `c`: STALL_END where it stops stalling for a cause, STALL_BEGIN where it starts
(R447). The stamps are those of the row that counts (log 36). -/
def State.traceStall (s : State) (src unit c n : Nat) : State :=
  let b := s.traceBuf src
  if !(b.recording && bit b.mask.toNat 4) || n = 0 then s
  else
    let stall := decide (1 ≤ c) && decide (c < 10)
    match Tbl.find b.stalls unit with
    | some (k, m) =>
      if k = c then s.modTrace src (fun b => { b with stalls := Tbl.put b.stalls unit (k, m + n) })
      else
        let s := (s.traceEv src unit 0x09 4 (k + m % 2 ^ 32 * 16)).modTrace src (fun b =>
          { b with stalls := Tbl.del b.stalls unit })
        if stall then
          (s.traceEv src unit 0x08 4 c).modTrace src (fun b => { b with stalls := Tbl.put b.stalls unit (c, n) })
        else s
    | none =>
      if stall then
        (s.traceEv src unit 0x08 4 c).modTrace src (fun b => { b with stalls := Tbl.put b.stalls unit (c, n) })
      else s

/-- An engine counts `n` mclk; none advances while the module is frozen (R198). -/
def State.count (s : State) (b e c n : Nat) : State :=
  if s.frozen then s
  else
    let s := s.modBank b (fun x => x.count e c n)
    match engSrc e with
    | some src => s.traceStall src (e / 16 % 16) c n
    | none => s

/-- A unit takes poisoned data: kind 0 tile store, 1 operand cache, 2 stream, 3 accumulator; offset or stream (R447). -/
def State.tracePoison (s : State) (src unit kind x : Nat) : State :=
  s.traceEv src unit 0x0B 5 (kind + x % 2 ^ 30 * 4)

/-- CMD_START and CMD_END of a command at its sources (R447). -/
def State.traceCmd (s : State) (q owner : Nat) (srcs : List Nat) (ev st : Nat) : State :=
  let tag := match (s.qw q).executing.find? (fun e => e.id == owner) with
    | some e => cTag e.bytes
    | none => 0
  srcs.foldl (fun s c => s.traceEv c 0 ev 0 (q + tag * 64 + st * 2 ^ 22)) s

/-- The update engines of a partition as trace sources. -/
def State.ueSources (s : State) (p : Nat) : List Nat := ((List.range 32).filter (fun k => s.partOfStack k == p)).map srcUe

/-- The trace sources of a partition. -/
def State.traceSources (s : State) (p : Nat) : List Nat :=
  (s.size p).tiles.map srcTile ++ s.ueSources p ++
    (s.portsOf p).map srcPort

end Sys2Proof.Machine
end

