-- ==== Sys2Proof/Machine/Scopes.lean ====
section
/-!
DEFINITION. Scopes of the power states: entering work, exits, and the accesses that reach a scope before it is awake
(18 R421, R426, R427).
-/
namespace Sys2Proof.Machine

/-- The table key of a scope. -/
def Scope.key : Scope → Nat
  | .tile t => t
  | .die d => 2048 + d
  | .module => 4096

def State.scope (s : State) (k : Nat) : ScopeState := Tbl.get {} s.pwr.scopes k
def State.setScope (s : State) (k : Nat) (v : ScopeState) : State :=
  s.modPwr (fun p => { p with scopes := Tbl.set {} p.scopes k v })

/-- Dies and listed tiles of a scope. -/
def scopeDies : Scope → List Nat
  | .tile _ => []
  | .die d => [d]
  | .module => List.range 8
def State.dieTiles (s : State) (d : Nat) : List Nat := ((List.range 144).map (fun t => d * 144 + t)).filter s.listed
def State.scopeTiles (s : State) : Scope → List Nat
  | .tile t => [t]
  | .die d => s.dieTiles d
  | .module => (List.range 8).flatMap s.dieTiles

/-- Exit times in sclk (R421); 4 mclk are less than one sclk. -/
def exitSclk : Nat → Nat
  | 1 => 1 | 2 => 150 | 3 => 4000 | 4 => 300000 | _ => 0
/-- The engines that stand still in a scope: the units of its tiles, and of its dies the update and DMA engines. -/
def State.scopeEngines (s : State) (sc : Scope) : List (Nat × Nat) :=
  (s.scopeTiles sc).flatMap (fun t => (List.range 8).map (fun u => (s.partOfTile t, engTile t u))) ++
  (scopeDies sc).flatMap (fun d =>
    (List.range 4).map (fun k => (s.partOfDie d, engUe (4 * d + k))) ++
    (List.range 16).map (fun k => (s.partOfDie d, engDma (16 * d + k))))

/-- IDLE_POWER_STATE of the stay that ends now (R427), in the ambient banks. -/
def State.countStay (s : State) (sc : Scope) (v : ScopeState) : State :=
  if v.code < 2 then s
  else (s.scopeEngines sc).foldl (fun s (p, e) => s.count (s.ambient p) e 15 (s.mclk - v.since)) s

/-- A POWER record at every source of the scope (R447). -/
def State.tracePower (s : State) (sc : Scope) (old new : Nat) : State :=
  ((s.scopeTiles sc).map srcTile ++ (scopeDies sc).flatMap (fun d => (List.range 4).map (fun k => srcUe (4 * d + k)))).foldl
    (fun s src => s.traceEv src 0 0x0E 7 (old + new * 8)) s

/-- HBM stacks of the scope in or out of self-refresh; on exit their calibration restarts at frame 0 (R421, R432). -/
def State.napStacks (s : State) (sc : Scope) (on : Bool) : State :=
  ((scopeDies sc).flatMap (fun d => (List.range 4).map (fun k => 4 * d + k))).foldl (fun s k =>
    s.modStack k (fun x => { x with selfRefresh := on, calFrame := if on then x.calFrame else 0 })) s

/-- The exit from a state begins. -/
def State.beginExit (s : State) (sc : Scope) : State :=
  let v := s.scope (Scope.key sc)
  let t := if v.code = 1 then 4 * s.clk.div else 60 * exitSclk v.code
  s.setScope (Scope.key sc) { v with wakeAt := none, exitAt := some (s.clk.root + t) }

/-- The exit completes: P_RUN. -/
def State.wakeComplete (s : State) (sc : Scope) : State :=
  let v := s.scope (Scope.key sc)
  match v.exitAt with
  | some r =>
    let s := (s.untilRoot r).countStay sc v
    let s := if 3 ≤ v.code then s.napStacks sc false else s
    (s.setScope (Scope.key sc) {}).tracePower sc v.code 0
  | none => s

/-! ### Accesses before a scope is awake (R426) -/

/-- The die is not in P_NAP, nor the module in P_STANDBY. -/
def State.dieAwake (s : State) (d : Nat) : Bool :=
  decide ((s.scope 4096).code < 2) && decide ((s.scope (2048 + d)).code < 2)
def State.tileAwake (s : State) (t : Nat) : Bool := s.dieAwake (t / 144) && (s.scope t).code == 0

/-- The dies of a partition are awake: a frame for it waits in the receive buffer until then. -/
def State.partAwake (s : State) (p : Nat) : Bool := (List.range s.nDies).all (fun d => s.dieAwake (s.firstDie p + d))
/-- The die of the queue's control core is awake. -/
def State.coreAwake (s : State) (q : Nat) : Bool := match (s.qw q).core with | some c => s.dieAwake (c / 4) | none => true

/-- An access held until the exit completes: an early wake where none is under way, then the exit. -/
def State.wakeFor (s : State) (scopes : List Scope) : State :=
  scopes.foldl (fun s sc =>
    let v := s.scope (Scope.key sc)
    if v.code < (match sc with | .tile _ => 1 | _ => 2) then s
    else if v.exitAt.isSome then s.wakeComplete sc
    else ((s.modPwr (fun p => { p with earlyWake := BitVec.ofNat 32 (satAdd 32 p.earlyWake.toNat 1) })).beginExit sc).wakeComplete sc) s

/-- A doorbell of queue `q` wakes the module and the die of its control core. -/
def State.wakeCore (s : State) (q : Nat) : State :=
  match (s.qw q).core with | some c => s.wakeFor [.module, .die (c / 4)] | none => s

/-- A host access to a physical address wakes the module, and the die and tile it reaches. -/
def State.wakeAddr (s : State) (a : Nat) : State :=
  match s.physKey a with
  | none => s
  | some k =>
    if k < tileRegion then s.wakeFor [.module, .die (k / 2 ^ 38)]
    else if k < stagingRegion then s.wakeFor [.module, .die (keyTile k / 144), .tile (keyTile k)]
    else s.wakeFor [.module, .die ((k - stagingRegion) / 2 ^ 25)]

end Sys2Proof.Machine
end

