-- ==== Sys2Proof/Machine/Flags.lean ====
section
/-!
DEFINITION. Status codes and their precedence (R305, R306), the header of a command (R288), legality (R299).
-/
namespace Sys2Proof.Machine

/-! ### Status codes (R305) -/
def stDone : Nat := 0x0000
def stBadOpcode : Nat := 0x0101
def stBadLength : Nat := 0x0102
def stParamRange : Nat := 0x0103
def stConflict : Nat := 0x0104
def stDomain : Nat := 0x0105
def stAccRange : Nat := 0x0201
def stPinnule : Nat := 0x0301
def stStarve : Nat := 0x0302
def stOrphan : Nat := 0x0303
def stPoison : Nat := 0x0304
def stSkew : Nat := 0x0401
def stNonfinite : Nat := 0x0402
def stStale : Nat := 0x0403
def stLinkDown : Nat := 0x0501
def stPeerTimeout : Nat := 0x0502
def stStopped : Nat := 0x0601
def stStepHalt : Nat := 0x0602
def stWaitTimeout : Nat := 0x0701

/-- A status of class Reject (R305). -/
def isReject (c : Nat) : Bool := (decide (0x0101 ≤ c) && decide (c ≤ 0x0105)) || c == stAccRange

/-- The order of R306, first to last. -/
def precedence : List Nat :=
  [stLinkDown, stPeerTimeout, stWaitTimeout, stStopped, stStarve, stOrphan, stStale, stSkew, stPinnule, stPoison,
   stNonfinite, stDone]

/-- The status a command reports of those its work earned (R306); a Reject stands alone. -/
def report (es : List Earned) : Earned :=
  match es.find? (fun e => isReject e.code) with
  | some e => e
  | none =>
    (precedence.findSome? (fun c => es.find? (fun e => e.code == c))).getD ⟨stDone, 0, 0⟩

/-- Earn a status: one code keeps its first DETAIL and adds its count, saturating at 255 (R305). -/
def earn (es : List Earned) (e : Earned) : List Earned :=
  if es.any (fun x => x.code == e.code) then
    es.map (fun x => if x.code == e.code then { x with count := min 255 (x.count + e.count) } else x)
  else es ++ [e]

/-- The signal of a command is performed for these statuses (R295). -/
def signals (c : Nat) : Bool := c == stDone || c == stNonfinite || c == stPinnule || c == stPoison

/-- DETAIL of a Reject: object in [31:28], byte offset in [27:0] (R305). -/
def fieldAt (obj off : Nat) : Nat := obj * 2 ^ 28 + off
/-- DETAIL of STATE_CONFLICT: kind, and the index of the first conflicting tile, group or counter. -/
def conflictAt (kind index : Nat) : Nat := kind + (index % 65536) * 65536

/-! ### The header (R288) -/
def cOrdered (b : List Byte) : Bool := bit (fld b 1 1) 0
def cSigAlways (b : List Byte) : Bool := bit (fld b 1 1) 1
def cIrq (b : List Byte) : Bool := bit (fld b 1 1) 2
def cLen (b : List Byte) : Nat := fld b 2 2
def cPart (b : List Byte) : Nat := bits (fld b 6 2) 0 3
def cWaitSel (b : List Byte) : Nat := bits (fld b 8 4) 22 2
/-- A 52-bit address field. -/
def cAddr (b : List Byte) (o : Nat) : Nat := fld b o 8 % 2 ^ 52

/-- Slots a command occupies (R285). -/
def cSlots (b : List Byte) : Nat := max 1 (ceilDiv (cLen b) 4)

/-- The time-out a command selects, in root cycles (R296). -/
def State.waitLimit (s : State) (q : Nat) (b : List Byte) : Nat :=
  usRoot ((s.queue q).timeouts.getD (cWaitSel b) 0).toNat

/-! ### States of a partition -/

/-- A command of the partition executes. -/
def State.busyPart (s : State) (p : Nat) : Bool :=
  s.qwork.any (fun (q, w) => !w.executing.isEmpty && (s.queue q).part.toNat == p)

/-- The state code MODULE.PART_STATE shows (R298, R457). -/
def State.partState (s : State) (p : Nat) : Nat :=
  if s.nParts ≤ p then 0
  else if s.frozen then 4
  else
    let st := (s.part p).st.toNat
    if st = 1 ∧ s.busyPart p then 2 else st

/-- A partition's own state code under a freeze: what R299 reads at dispatch. -/
def State.partSt (s : State) (p : Nat) : Nat := (s.part p).st.toNat

/-- The legality table of R299: 1 READY or RUNNING, 3 QUIESCED, 5 FAULTED, 6 PAIR_FAILOVER. -/
def legal (op st : Nat) : Bool :=
  let any := [0x01, 0x02, 0x70, 0x71].contains op
  match st with
  | 1 => true
  | 3 => any || [0x03, 0x04, 0x7E, 0x12, 0x30, 0x31, 0x33, 0x42].contains op
  | 6 => !([0x51, 0x61].contains op)
  | 5 => any
  | _ => false

/-! ### Field checks (R290, R307, R308) -/

/-- LEN values allowed for an opcode; none: the opcode is not listed (R307). -/
def lenOk (b : List Byte) : Option Bool :=
  let l := cLen b
  match cOp b with
  | 0x01 | 0x02 | 0x7E => some (l == 1)
  | 0x03 | 0x10 | 0x12 | 0x20 | 0x31 | 0x33 | 0x50 | 0x51 | 0x52 | 0x61 | 0x70 => some (l == 2)
  | 0x04 | 0x11 | 0x30 | 0x41 | 0x60 | 0x71 => some (l == 3)
  | 0x40 => some (l == 4)
  | 0x42 => some (l == 18)
  | 0x32 => some (l == 2 + 2 * fld b 16 1)
  | _ => none

def addr52 : Nat := 2 ^ 52 - 1
def all64 : Nat := 2 ^ 64 - 1

/-! #### The stage records of FUSED_CHAIN (R329) -/
def fKind (b : List Byte) : Nat := bits (fld b 0 1) 0 2
def fPair (b : List Byte) : Option (Nat × Nat) :=
  if bit (fld b 1 1) 7 then some (bits (fld b 1 1) 0 4, bits (fld b 2 2) 0 11) else none
def fIter (b : List Byte) : Nat := fld b 4 4

/-- The stage records a FUSED_CHAIN command carries. -/
def fStages (b : List Byte) : List (List Byte) :=
  (List.range (fld b 16 1)).map (fun j => slice b (32 + 32 * j) 32)

/-- The fields of a stage record; COUNT is a tile in a VECTOR stage. -/
def stageFields (b : List Byte) : List (Nat × Nat × Nat) :=
  [(0, 1, 3), (1, 1, 0x8F), (2, 2, 0x7FF), (4, 4, 0xFFFFFFFF), (8, 8, addr52),
   (16, 2, if fKind b = 2 then 0x7FF else 0xFFFF), (20, 4, 0xFFFFFFFF), (24, 4, 0xFFFFFFFF), (28, 4, 0xFFFFFFFF)]

/-- The field of stage record `j` that is out of its range (R329). -/
def stageBad (stages : List (List Byte)) (j : Nat) : Option Nat :=
  let b := stages.getD j []
  let named := stages.filterMap fPair
  if fKind b = 0 then some 0
  else if fIter b = 0 ∨ 65535 < fIter b ∨ fIter b ≠ fIter (stages.getD 0 []) then some 4
  else if fKind b = 1 ∧ (fld b 16 2 = 0 ∨ 256 < fld b 16 2) then some 16
  else if fKind b = 3 ∧ fld b 16 2 ≠ 0 then some 16
  else if fKind b ≠ 2 ∧ fld b 28 4 ≠ 0 then some 28
  else match fPair b with
    | some x =>
      if 1 < (named.filter (fun y => y == x)).length ∨ fKind b = 3 ∨
          (j + 1 < stages.length ∧ fKind (stages.getD (j + 1) []) = 3) then some 1 else none
    | none => none

/-- The first stage that fails a check, as an offset in the command. -/
def firstStage (stages : List (List Byte)) (f : Nat → Option Nat) : Option Nat :=
  (List.range stages.length).findSome? (fun j => (f j).map (fun o => 32 + 32 * j + o))

/-- The parameter fields of an opcode: byte offset, bytes, bits that are not reserved (R307). -/
def paramFields (b : List Byte) : List (Nat × Nat × Nat) :=
  match cOp b with
  | 0x03 => [(16, 4, 0x3FFFF), (20, 1, 0xFF), (22, 2, 0x8FFF), (24, 8, all64)]
  | 0x04 => [(16, 4, 0x3FFFF), (20, 1, 0xFF), (24, 8, all64), (32, 8, all64)]
  | 0x10 => [(16, 8, addr52), (24, 1, 0x0F), (26, 2, 0xFF)]
  | 0x11 => [(16, 1, 0x03), (18, 2, 0xFFFF), (20, 2, 0xFFFF), (24, 8, all64), (32, 4, 0xFFFFFFFF)]
  | 0x12 => [(16, 1, 0x0F), (20, 4, 0xFFFFFFFF)]
  | 0x20 | 0x50 | 0x52 => [(16, 8, addr52)]
  | 0x30 => [(16, 8, if bit (fld b 40 1) 0 then all64 else addr52),
             (24, 8, if bit (fld b 40 1) 1 then all64 else addr52), (32, 8, all64), (40, 1, 0x03)]
  | 0x31 => [(16, 8, addr52), (24, 2, 0xFFFF)]
  | 0x32 => (16, 1, 0xFF) :: ((List.range (fld b 16 1)).zip (fStages b)).flatMap (fun (j, st) =>
      (stageFields st).map (fun (o, k, m) => (32 + 32 * j + o, k, m)))
  | 0x33 => [(16, 2, 0x7FF), (20, 2, 0xFFFF)]
  | 0x40 => [(16, 8, all64), (24, 8, addr52), (32, 8, addr52), (40, 4, 0xFFFFFFFF), (44, 1, 0x03), (48, 8, addr52)]
  | 0x41 => [(16, 8, addr52), (24, 8, addr52), (32, 4, 0xFFFFFFFF), (36, 1, 0x03), (37, 1, 0x01)]
  | 0x42 => (16, 8, addr52) :: (24, 2, 0xFFFF) :: (28, 4, 0xFFFFFFFF) ::
      (List.range 16).map (fun i => (32 + 16 * i, 16, 2 ^ 128 - 1))
  | 0x51 => [(16, 8, addr52), (24, 4, 0xFFFFFFFF)]
  | 0x60 => [(16, 1, 0xFF), (20, 4, 0x3FFFF), (24, 8, addr52), (32, 8, all64)]
  | 0x61 => [(16, 8, all64)]
  | 0x70 => [(16, 1, 0xFF), (17, 1, 0x01), (24, 8, addr52)]
  | 0x71 =>
    if fld b 16 1 = 1 then [(16, 1, 0xFF), (17, 1, 0xFF), (24, 8, addr52), (32, 8, all64)]
    else [(16, 1, 0xFF), (17, 1, 0xFF), (24, 8, all64), (32, 8, all64)]
  | _ => []

/-- The header's fields beside the opcode. -/
def headerFields : List (Nat × Nat × Nat) :=
  [(0, 1, 0xFF), (1, 1, 0x07), (2, 2, 0xFFFF), (4, 2, 0xFFFF), (6, 2, 0x07), (8, 4, 0x00FFFFFF), (12, 4, 0x003FFFFF)]

/-- The offset of the first reserved field of an object that is not zero: bits outside a field's mask, or a byte that
no field holds (R9). -/
def reservedAt (fs : List (Nat × Nat × Nat)) (b : List Byte) (n : Nat) : Option Nat :=
  let bad := fs.filterMap (fun (o, k, m) => if fld b o k &&& (2 ^ (8 * k) - 1 - m) ≠ 0 then some o else none)
  let gaps := (List.range n).filter (fun i =>
    !(fs.any (fun (o, k, _) => decide (o ≤ i) && decide (i < o + k))) && b.getD i 0 != 0)
  (bad ++ gaps).foldl (fun a o => match a with | none => some o | some x => some (min x o)) none

/-- The fields of a group record. -/
def recordFields : List (Nat × Nat × Nat) :=
  [(0, 8, all64), (8, 8, all64), (16, 2, 0xFFFF), (18, 1, 0x7F), (19, 1, 0xFF), (20, 12, 2 ^ 96 - 1), (32, 28, 2 ^ 224 - 1),
   (60, 4, 0xFFFFFFFF), (64, 8, all64)] ++ (List.range 19).map (fun i => (72 + 8 * i, 8, addr52))

/-- What GROUP_WRITE would write into a record: its masked VALUES, the other bytes 0 (R237). -/
def maskedValues (b : List Byte) : List Byte :=
  ((List.range 32).map (fun i => if bit (fld b 28 4) i then slice b (32 + 8 * i) 8 else List.replicate 8 0)).flatten

/-- The object type a header wait or signal code needs (R293, R294). -/
def condType : Nat → Option Nat
  | 1 | 2 => some 3 | 3 => some 1 | 4 => some 2 | 5 | 6 => some 0 | _ => none
def sigType : Nat → Option Nat
  | 1 | 2 => some 3 | 3 => some 1 | 4 | 5 => some 0 | 6 => some 2 | _ => none

/-- The object type a SYNC_OP needs; none for an INIT (R314). -/
def opType : Nat → Option Nat
  | 1 | 2 => some 3 | 3 | 4 => some 1 | 5 | 6 => some 0 | 7 => some 2 | _ => none
def opListed (o : Nat) : Bool := (decide (1 ≤ o) && decide (o ≤ 7)) || (decide (0x10 ≤ o) && decide (o ≤ 0x13))

/-- An OPERAND outside the range of R314. -/
def operandBad (op v : Nat) : Bool :=
  (op == 3 && v % 2 ^ 32 == 0) || (op == 0x12 && v % 2 ^ 16 == 0)

/-- A local identifier's die exists in the partition. -/
def State.objOk (s : State) (id : Nat) : Bool := decide (id / 32768 < s.nDies)

/-- An object named by local identifier does not have type `ty` (an identifier without a die is a domain matter). -/
def State.typeBad (s : State) (p id : Nat) (ty : Option Nat) : Bool :=
  match ty with
  | none => false
  | some ty => s.objOk id && (s.obj (s.physObj p id)).type.toNat != ty

/-- Whether the command's own signal passes its checks (R295). -/
def State.sigFieldsOk (s : State) (p : Nat) (b : List Byte) : Bool :=
  decide (bits (fld b 12 4) 22 10 = 0) && decide (cSigOp b < 7) &&
  (cSigOp b == 0 || (s.objOk (cSigSync b) && !s.typeBad p (cSigSync b) (sigType (cSigOp b))))

/-- Range checks of the parameters: the offset of the first failing field (R290 step 3). -/
def State.paramBad (s : State) (q : Nat) (b : List Byte) : Option Nat :=
  let w := s.queue q
  let p := w.part.toNat
  let first (l : List (Bool × Nat)) : Option Nat := (l.find? (fun x => x.1)).map (fun x => x.2)
  match cOp b with
  | 0x03 =>
    let o := fld b 20 1
    let v := fld b 24 8
    let remote := bit (fld b 22 2) 15
    first [(!opListed o || (!remote && s.typeBad p (bits (fld b 16 4) 0 18) (opType o)), 20), (operandBad o v, 24)]
  | 0x04 =>
    let c := fld b 20 1
    let id := bits (fld b 16 4) 0 18
    let ty := if c = 5 then some 3 else if c = 6 then some 2 else none
    first [(decide (6 < c) || s.typeBad p id ty, 20)]
  | 0x10 =>
    let m := fld b 24 1
    let sl := fld b 26 2
    let ps := [0, 1, 2, 3].filter (fun i => bit m i)
    let slots := ps.map (fun i => bits sl (2 * i) 2)
    first [(decide (cAddr b 16 % 4096 ≠ 0), 16), (m == 0, 24), (decide (slots.eraseDups.length ≠ slots.length), 26)]
  | 0x11 => first [(fld b 18 2 == 0, 18), (decide (65535 < fld b 20 2 + fld b 18 2 - 1), 20)]
  | 0x20 => first [(decide (cAddr b 16 % 64 ≠ 0), 16)]
  | 0x30 =>
    let n := fld b 32 8
    let f := fld b 40 1
    let a := fld b 16 8
    let d := fld b 24 8
    first [(n == 0 || decide (2 ^ 40 < n), 32),
           (bit f 0 == bit f 1 && decide (a < d + n) && decide (d < a + n), 16)]
  | 0x31 => first [(decide (cAddr b 16 % 64 ≠ 0), 16), (fld b 24 2 == 0 || decide (256 < fld b 24 2), 24)]
  | 0x32 =>
    if fld b 16 1 = 0 ∨ 8 < fld b 16 1 then some 16 else firstStage (fStages b) (stageBad (fStages b))
  | 0x40 => first [(decide (cAddr b 24 % 256 ≠ 0), 24), (fld b 40 4 == 0 || decide (65536 < fld b 40 4), 40),
                   (decide (cAddr b 48 % 64 ≠ 0), 48)]
  | 0x41 => first [(decide (cAddr b 16 % 256 ≠ 0), 16), (fld b 32 4 == 0 || decide (65536 < fld b 32 4), 32)]
  | 0x42 => (first [(decide (cAddr b 16 % 256 ≠ 0), 16)]).orElse (fun _ =>
      (reservedAt recordFields (maskedValues b) 256).map (fun o => 32 + o))
  | 0x50 | 0x52 => first [(decide (cAddr b 16 % 64 ≠ 0), 16)]
  | 0x51 => first [(decide (cAddr b 16 % 64 ≠ 0), 16), (fld b 24 4 == 0xFFFFFFFF, 24)]
  | 0x60 =>
    let ports := ((List.range 18).filter (fun i => bit (fld b 20 4) i)).length
    let forms := fld b 16 1 != 0
    first [(decide (2 < fld b 16 1), 16), (forms && (ports == 0 || decide (3 < ports)), 20),
           (forms && (fld b 32 8 == 0 || decide (fld b 32 8 % 4096 ≠ 0)), 32)]
  | 0x70 => first [(decide (15 < fld b 16 1), 16)]
  | 0x71 =>
    let n := fld b 32 8
    let start := fld b 16 1 == 1
    first [(decide (2 < fld b 16 1), 16), (start && decide (1 < fld b 17 1), 17),
           (start && (decide (cAddr b 24 % 4096 ≠ 0) || !s.inWindow q (cAddr b 24) n), 24),
           (start && (decide (n < 4096 + 8 * 8192) || decide ((n - 4096) % 8192 ≠ 0)), 32)]
  | _ => none

/-- Bytes a snapshot of PERF_SNAPSHOT covers (R443). -/
def snapshotMax : Nat := 1203712

/-- Domain checks of the parameters (R290 step 4, R308). -/
def State.paramOutside (s : State) (q : Nat) (b : List Byte) : Option Nat :=
  let first (l : List (Bool × Nat)) : Option Nat := (l.find? (fun x => x.1)).map (fun x => x.2)
  match cOp b with
  | 0x03 => first [(!(bit (fld b 22 2) 15) && !s.objOk (bits (fld b 16 4) 0 18), 16)]
  | 0x04 => first [(fld b 20 1 != 0 && !s.objOk (bits (fld b 16 4) 0 18), 16)]
  | 0x10 => first [(!s.inWindow q (cAddr b 16) 256, 16)]
  | 0x20 => first [(!s.inWindow q (cAddr b 16) 256, 16)]
  | 0x30 =>
    let n := fld b 32 8
    let f := fld b 40 1
    first [(!(bit f 0) && !s.inDomain q (cAddr b 16) n, 16), (!(bit f 1) && !s.inDomain q (cAddr b 24) n, 24)]
  | 0x31 => first [(!s.inWindow q (cAddr b 16) (64 * fld b 24 2), 16)]
  | 0x32 =>
    firstStage (fStages b) (fun j =>
      let st := (fStages b).getD j []
      let n := if fKind st = 1 then 64 * fld st 16 2 else if fKind st = 2 then 272 else 256
      first [(!s.inWindow q (cAddr st 8) n, 8),
             (fKind st == 2 && !s.listed (s.physTile (s.queue q).part.toNat (fld st 16 2)), 16),
             ((fPair st).any (fun (_, t) => !s.listed (s.physTile (s.queue q).part.toNat t)), 2)])
  | 0x33 =>
    let p := (s.queue q).part.toNat
    first [(!s.listed (s.physTile p (fld b 16 2)), 16)]
  | 0x40 => first [(!s.inWindow q (cAddr b 32) (4 * fld b 40 4), 32), (!s.inWindow q (cAddr b 48) 64, 48)]
  | 0x41 => first [(!s.inWindow q (cAddr b 24) (4 * fld b 32 4), 24)]
  | 0x42 => first [(!s.inWindow q (cAddr b 16 + 256 * fld b 24 2) 256, 16)]
  | 0x50 | 0x51 => first [(!s.inWindow q (cAddr b 16) 96, 16)]
  | 0x52 => first [(!s.inWindow q (cAddr b 16) 64, 16)]
  | 0x70 => first [(!s.inDomain q (cAddr b 24) snapshotMax, 24)]
  | _ => none

/-- The field checks in the order of R290; none: the command passes. -/
def State.fieldCheck (s : State) (q : Nat) (b : List Byte) : Option Earned :=
  let w := s.queue q
  let p := w.part.toNat
  match lenOk b with
  | none => some ⟨stBadOpcode, 0, 0⟩
  | some false => some ⟨stBadLength, fieldAt 0 2, 0⟩
  | some true =>
    let n := 16 * cLen b
    let param : Option Nat :=
      match reservedAt (headerFields ++ paramFields b) b n with
      | some o => some (fieldAt 0 o)
      | none =>
        if decide (6 < cWaitCond b) || s.typeBad p (cWaitSync b) (condType (cWaitCond b)) then some (fieldAt 0 8)
        else if (w.timeouts.getD (cWaitSel b) 0).toNat = 0 then some (fieldAt 6 (0x50 + 8 * cWaitSel b))
        else if decide (6 < cSigOp b) || s.typeBad p (cSigSync b) (sigType (cSigOp b)) then some (fieldAt 0 12)
        else (s.paramBad q b).map (fieldAt 0)
    match param with
    | some d => some ⟨stParamRange, d, 0⟩
    | none =>
      let dom : Option Nat :=
        if cPart b ≠ p then some 6
        else if cWaitCond b ≠ 0 ∧ !s.objOk (cWaitSync b) then some 8
        else if cSigOp b ≠ 0 ∧ !s.objOk (cSigSync b) then some 12
        else s.paramOutside q b
      dom.map (fun o => ⟨stDomain, fieldAt 0 o, 0⟩)

end Sys2Proof.Machine
end

