-- ==== Sys2Proof/Machine/Queues.lean ====
section
/-!
DEFINITION. Shared operations of the queues and the synchronisation units: snapshots (R443, R444), operations on
objects and their waiters (R311 to R318), completing a command, fetching the next (R284 to R290), dispatch (R289, R291).
-/
namespace Sys2Proof.Machine

/-! ### Snapshots -/

/-- The engine record of an engine in a bank (R443). -/
def Bank.record (b : Bank) (e : Nat) : List Byte :=
  leBytes 4 e ++ leBytes 4 (b01 (b.sat.contains e)) ++
    ((List.range 16).map (fun c => leBytes 6 (Tbl.get 0 b.counts (e * 16 + c)))).flatten ++ leBytes 24 0

/-- The engines with a count or SATURATED, in the order of R443: tiles by index and unit, then update engines, DMA
engines, ports. -/
def Bank.engines (b : Bank) : List Nat :=
  let es := b.counts.foldl (fun l (k, _) => setIns l (k / 16)) b.sat
  let key (e : Nat) := bits e 0 4 * 2 ^ 32 + bits e 8 16 * 16 + bits e 4 4
  es.mergeSort (fun x y => decide (key x ≤ key y))

/-- The sums of a bank: snapshot header bytes 64 to 175. -/
def Bank.sums (b : Bank) : List Byte :=
  ((b.slip ++ b.health ++ [b.spill, b.dup, b.faultCount]).map (leBytes 8)).flatten

/-- A snapshot cut to `room` bytes after the last whole record that fits (R443, R444). -/
def Bank.snapshot (b : Bank) (bank index mclk tag queue flags room : Nat) : List Byte :=
  let es := b.engines
  let fit := if room < 1280 then 0 else min es.length ((room - 1280) / 128)
  let cut := decide (fit < es.length)
  let head := leBytes 2 bank ++ leBytes 2 index ++ leBytes 4 b.epoch.toNat ++ leBytes 6 mclk ++ leBytes 2 tag ++
    leBytes 2 queue ++ leBytes 2 (flags + b01 cut) ++ leBytes 4 fit ++ leBytes 4 (es.length - fit) ++ leBytes 36 0
  let list := (b.faults.map (leBytes 4)).flatten
  head ++ b.sums ++ leBytes 80 0 ++ list ++ List.replicate (1024 - list.length) 0 ++
    ((es.take fit).map b.record).flatten

/-- Write bytes at a physical HBM address. -/
def State.wrPhys (s : State) (a : Nat) (bs : List Byte) (mark : Bool := false) : State :=
  s.store ((List.range bs.length).zip bs |>.filterMap
    (fun (i, x) => (s.physKey (a + i)).map (fun k => (k, x, mark))))

/-- The ring snapshot of a completion: written, and its index; 0xFFFF with COUNT 0 (R444). -/
def State.ringSnapshot (s : State) (bank : Nat) (sample : Bank) (mclk tag q : Nat) : State × Nat :=
  let b := s.bank bank
  if b.snapCount = 0 then (s, 0xFFFF)
  else
    let i := b.nextIndex.toNat
    let slot := 4096 * 2 ^ b.slotSize.toNat
    let a := b.snapBase.toNat + (i % b.snapCount.toNat) * slot
    let s := s.wrPhys a (sample.snapshot bank i mclk tag q 0 slot)
    (s.modBank bank (fun b => { b with nextIndex := if i = 0xFFFE then 0 else BitVec.ofNat 16 (i + 1) }), i)

/-! ### Completing a command -/

/-- Change the executing command `id`. -/
def QueueWork.onExec (x : QueueWork) (id : Nat) (f : Exec → Exec) : QueueWork :=
  let l := updWhere (fun e => e.id == id) f x.executing
  { x with executing := l }

/-- A command's START: the stamp, and the reset of its bank where RESET_ON_START is set (R304, R439). -/
def State.startAt (s : State) (q id stamp : Nat) : State :=
  let w := s.queue q
  let fresh := (s.qw q).executing.any (fun e => e.id == id && e.start.isNone)
  if fresh then
    let s := s.modQw q (fun x => x.onExec id (fun e => { e with start := some stamp }))
    if w.resetOnStart then s.resetBank w.bank.toNat else s
  else s

/-- An executing command ends with the statuses earned, END at `stop`; its bank is sampled (R304, R306, R444). -/
def State.finishAt (s : State) (q id stop : Nat) (es : List Earned) (halt : Bool := false) : State :=
  match (s.qw q).executing.find? (fun e => e.id == id) with
  | none => s
  | some e =>
    let s := s.tally (s.bankOf q)
    let poison := match e.poisoned with
      | [] => []
      | t :: r => [⟨stPoison, t, min 255 (r.length + 1)⟩]
    let st := report ((es ++ poison).foldl earn e.earned)
    let f : Fin := { id := id, bytes := e.bytes, status := st, start := e.start.getD stop, stop := stop,
                     slip := e.slip, digest := e.digest, bank := some (s.sampleOf (s.bankOf q) (stop + 1)), halt := halt }
    s.modQw q (fun x => { x with executing := x.executing.filter (fun e => e.id != id),
                                 finished := x.finished ++ [f] })

/-- The same, ending now. -/
def State.finish (s : State) (q id : Nat) (es : List Earned) (halt : Bool := false) : State :=
  s.finishAt q id s.mclk es halt

/-- A status earned by a command still executing. -/
def State.earnOn (s : State) (q id : Nat) (e : Earned) : State :=
  s.modQw q (fun x => x.onExec id (fun c => { c with earned := earn c.earned e }))

/-- A tile, or a parameter group, of an executing command takes poisoned data: once each (R305). -/
def State.poisonOn (s : State) (q id t : Nat) : State :=
  s.modQw q (fun x => x.onExec id (fun c =>
    if c.poisoned.contains t then c else { c with poisoned := c.poisoned ++ [t] }))

/-- The waiting command completes without dispatch (R304): START and END are the mclk of the completion. -/
def State.endWaiting (s : State) (q : Nat) (e : Earned) : State :=
  match (s.qw q).waiting with
  | none => s
  | some w =>
    let s := s.tally (s.bankOf q)
    let f : Fin := { id := w.id, bytes := w.bytes, status := e, start := s.mclk, stop := s.mclk,
                     bank := some (s.sampleOf (s.bankOf q) (s.mclk + 1)), sigOk := true }
    let s := s.modWork (fun x => { x with waiters := x.waiters.filter (fun u => u.id != w.id) })
    s.modQw q (fun x => { x with waiting := none, finished := x.finished ++ [f] })

/-- Whether a record not yet written will halt the queue (R301). -/
def Queue.haltsAfter (w : Queue) (f : Fin) : Bool :=
  f.halt || (w.stopOnReject && (isReject f.status.code || f.status.code == stWaitTimeout))

/-! ### Objects and waiters -/

/-- The quantity a WAIT compares (R307). -/
def Obj.quantity (o : Obj) : Nat :=
  match o.type.toNat with
  | 0 => o.value.toNat
  | 3 => bits o.value.toNat 0 1
  | _ => bits o.value.toNat 0 32

/-- A condition holds of an object (R293, R307); a condition that names another type never holds (R318). -/
def condHolds (o : Obj) (c : WaitCond) (gen : Nat) : Bool :=
  let ty := o.type.toNat
  let v := o.value.toNat
  match c with
  | .code 1 | .code 2 => ty == 3 && bit v 0
  | .code 3 => ty == 1 && decide (0 < bits v 0 32)
  | .code 4 => ty == 2 && bits v 0 32 != gen
  | .code 5 => ty == 0 && v != 0
  | .code 6 => ty == 0 && v == 0
  | .code _ => true
  | .cond 1 x => o.quantity == x
  | .cond 2 x => o.quantity != x
  | .cond 3 x => decide (x ≤ o.quantity)
  | .cond 4 x => decide (o.quantity < x)
  | .cond 5 _ => ty == 3 && bit v 0
  | .cond 6 x => ty == 2 && bits v 0 32 != x
  | .cond _ _ => true

/-- What a satisfied condition does to its object (R293): code 2 clears the EVENT, code 3 takes from the SEMAPHORE. -/
def condAct (o : Obj) : WaitCond → Obj
  | .code 2 => { o with value := 0 }
  | .code 3 => { o with value := o.value - 1 }
  | _ => o

/-- The NOT_BEFORE of an executing WAIT has passed (R317). -/
def State.timePast (s : State) (w : Waiter) : Bool :=
  match w.who with
  | .header _ => true
  | .command q id =>
    match (s.qw q).executing.find? (fun e => e.id == id) with
    | some e => decide (fld e.bytes 32 8 ≤ s.sclk)
    | none => false

/-- A waiter is satisfied: the header wait of its queue holds, or its WAIT completes (R304, R317). -/
def State.satisfy (s : State) (w : Waiter) : State :=
  let s := s.modWork (fun x => { x with waiters := x.waiters.filter (fun u => u.id != w.id) })
  match w.who with
  | .header q =>
    s.modQw q (fun x => { x with waiting := x.waiting.map (fun c => if c.id == w.id then { c with waitOk := true } else c) })
  | .command q id => s.finish q id [⟨stDone, 0, 0⟩]

/-- Test the registered waiters of an object in order of registration (R316, R318). -/
def State.testList (s : State) (obj : Nat) : List Waiter → State
  | [] => s
  | w :: ws =>
    if condHolds (s.obj obj) w.cond w.gen && s.timePast w then
      ((s.setObj obj (condAct (s.obj obj) w.cond)).satisfy w).testList obj ws
    else s.testList obj ws

def State.testWaiters (s : State) (obj : Nat) : State :=
  s.testList obj (s.work.waiters.filter (fun w => w.registered && w.obj == obj))

/-- A taker of the SEMAPHORE is registered (R318). -/
def State.takers (s : State) (obj : Nat) : Bool :=
  s.work.waiters.any (fun w => w.registered && w.obj == obj && w.cond == .code 3)

/-- Tiles with an enabled SYNC_EN pair bound to the object (R328); SWAP_SYNC is local to the tile's partition (log 9). -/
def State.boundTiles (s : State) (obj : Nat) : List Nat :=
  (s.tiles.filter (fun (t, x) => x.pairs.any (fun (_, h) =>
    h.enable && h.syncEn && s.physObj (s.partOfTile t) h.swapSync.toNat == obj))).map Prod.fst

/-- The value of an object after an operation of matching type, and whether it sends swap notices (R314, R328). -/
def opEffect (o : Obj) (op v : Nat) (takers : Bool) : Obj × Bool :=
  let x := o.value.toNat
  match op with
  | 0x01 => ({ o with value := 1 }, !bit x 0)
  | 0x02 => ({ o with value := 0 }, false)
  | 0x03 => ({ o with value := BitVec.ofNat 64 (satAdd 32 (bits x 0 32) (v % 2 ^ 32)) }, true)
  | 0x04 => (if decide (0 < x) && !takers then { o with value := BitVec.ofNat 64 (x - 1) } else o, false)
  | 0x05 => ({ o with value := o.value + BitVec.ofNat 64 v }, decide (0 < signed 64 v))
  | 0x06 => ({ o with value := BitVec.ofNat 64 v }, false)
  | 0x07 =>
    let gen := bits x 0 32
    let arr := bits x 32 16 + 1
    let exp := bits x 48 16
    if arr = exp then ({ o with value := BitVec.ofNat 64 ((gen + 1) % 2 ^ 32 + exp * 2 ^ 48) }, true)
    else ({ o with value := BitVec.ofNat 64 (gen + (arr % 2 ^ 16) * 2 ^ 32 + exp * 2 ^ 48) }, false)
  | 0x10 => (⟨0, BitVec.ofNat 64 v⟩, false)
  | 0x11 => (⟨1, BitVec.ofNat 64 (v % 2 ^ 32)⟩, false)
  | 0x12 => (⟨2, BitVec.ofNat 64 ((v % 2 ^ 16) * 2 ^ 48)⟩, false)
  | 0x13 => (⟨3, BitVec.ofNat 64 (v % 2)⟩, false)
  | _ => (o, false)

/-- A synchronisation operation at the object's home (R314 to R318): a type that does not match has no effect and
counts TYPE_MISMATCH; otherwise the effect, the swap notices, the waiters' tests. -/
def State.syncOp (s : State) (obj op v : Nat) : State :=
  let o := s.obj obj
  let mism := match opType op with | none => false | some ty => o.type.toNat != ty
  if mism then
    let d := obj / 32768
    { s with mismatch := Tbl.set 0 s.mismatch d (BitVec.ofNat 32 (satAdd 32 (Tbl.get 0 s.mismatch d).toNat 1)) }
  else
    let (o', notice) := opEffect o op v (s.takers obj)
    let s := s.setObj obj o'
    let s := if notice then
        s.modWork (fun w => { w with notices := w.notices ++ (s.boundTiles obj).map (fun t => (t, obj)) })
      else s
    s.testWaiters obj

/-- Waiter slots of a die in use (R316). -/
def State.slotsUsed (s : State) (d : Nat) : Nat :=
  (s.work.waiters.filter (fun w => w.registered && w.obj / 32768 == d)).length

/-- Begin a wait on an object: satisfied at once, or registered in a free slot, or polling (R316, R318). A BARRIER
wait of code 4 reads the generation and arrives first (R293). -/
def State.beginWait (s : State) (id obj : Nat) (who : WaitFor) (c : WaitCond) : State :=
  let gen := bits (s.obj obj).value.toNat 0 32
  let w : Waiter := { id := id, obj := obj, who := who, cond := c, gen := gen,
                      registered := decide (s.slotsUsed (obj / 32768) < 8192), polled := s.nclk }
  let s := if c == .code 4 then s.syncOp obj 7 0 else s
  let blocked := c == .code 3 && s.takers obj
  if condHolds (s.obj obj) c gen && s.timePast w && !blocked then
    (s.setObj obj (condAct (s.obj obj) c)).satisfy w
  else s.modWork (fun x => { x with waiters := x.waiters ++ [w] })

/-! ### Fetching (R284 to R290) -/

/-- Published slots not yet fetched (R284). -/
def Queue.avail (w : Queue) : Nat := (w.sqTail.toNat + 2 ^ w.sqLog.toNat - w.head.toNat) % 2 ^ w.sqLog.toNat
/-- Byte address of slot `i` of the command ring. -/
def Queue.slotAddr (w : Queue) (i : Nat) : Nat := w.sqBase.toNat * 4096 + (i % 2 ^ w.sqLog.toNat) * 64
/-- Free completion records (R287). -/
def Queue.freeRecords (w : Queue) : Nat :=
  let n := 2 ^ w.cqLog.toNat
  if w.cqTail = w.cqHead then n else (w.cqHead.toNat + n - w.cqTail.toNat) % n

/-- Q_HEAD advances past `n` slots. -/
def Queue.advance (w : Queue) (n : Nat) : Queue :=
  { w with head := BitVec.ofNat 16 ((w.head.toNat + n) % 2 ^ w.sqLog.toNat) }

/-- The queue may fetch: RUN or STEP, nothing waiting, no fence or stop token, no record pending that halts it. STEP_MODE
holds from this fetch on (R310). -/
def State.mayFetch (s : State) (q : Nat) : Bool :=
  let w := s.queue q
  let x := s.qw q
  !s.frozen && !s.mod.fault && !s.mod.changeBusy && (w.st == 1 || w.st == 2) && x.waiting.isNone && !x.fence &&
  !x.stopToken && x.readTag.isNone && x.stepHalt.isNone && !(x.finished.any w.haltsAfter) &&
  (!w.stepMode || (x.executing.isEmpty && x.finished.isEmpty))

/-- A fetched command is taken: Q_HEAD advances, the field checks are made, its header wait begins (R285, R289). -/
def State.take (s : State) (q : Nat) (b : List Byte) : State :=
  let w := s.queue q
  let slot := w.head.toNat
  let (id, s) := s.fresh
  let s := s.modQueue q (fun w => w.advance (cSlots b))
  let s := s.modQueue q (fun w => { w with st := if w.stepMode then 2 else 1 })
  let s := s.modQw q (fun x => { x with
    waiting := some { id := id, bytes := b, since := s.clk.live, waitOk := cWaitCond b == 0, slot := slot },
    partialAt := none, fetched := [] })
  match s.fieldCheck q b with
  | some e =>
    let ok := s.sigFieldsOk (s.queue q).part.toNat b
    let s := s.endWaiting q e
    s.modQw q (fun x => { x with finished := x.finished.map (fun f => if f.id == id then { f with sigOk := ok } else f) })
  | none =>
    if cWaitCond b = 0 then s
    else s.beginWait id (s.physObj (s.queue q).part.toNat (cWaitSync b)) (.header q) (.code (cWaitCond b))

/-- A slot that cannot be interpreted: the command completes POISON_CONSUMED and the queue halts (R402). -/
def State.badSlot (s : State) (q : Nat) (b : List Byte) (n : Nat) : State :=
  let (id, s) := s.fresh
  let s := s.modQueue q (fun w => w.advance n)
  let f : Fin := { id := id, bytes := b, status := ⟨stPoison, 0, 0⟩, start := s.mclk, stop := s.mclk,
                   bank := some (s.bank (s.bankOf q)), sigOk := false, halt := true }
  s.modQw q (fun x => { x with finished := x.finished ++ [f], partialAt := none, fetched := [] })

/-- A read of host memory is sent (R402): its tag. -/
def State.hostRead (s : State) (addr bytes : Nat) (use : ReadFor) : Nat × State :=
  let tag := s.work.nextTag
  let r : HostRead := { tag := tag, addr := addr, bytes := bytes, since := s.clk.root, use := use }
  (tag, s.modWork (fun x => { x with nextTag := tag + 1, hostReads := x.hostReads ++ [r] }))

/-- Ask host memory for slots of the ring (R402). -/
def State.readSlots (s : State) (q first n : Nat) : State :=
  let w := s.queue q
  let (tag, s) := s.hostRead (w.slotAddr first) (64 * n) (.slot q (first % 2 ^ w.sqLog.toNat))
  s.modQw q (fun x => { x with readTag := some tag })

/-- The bytes of `n` ring slots in HBM from slot `i`, and whether one is marked. -/
def State.ringBytes (s : State) (q i n : Nat) : List Byte × Bool :=
  let w := s.queue q
  let p := w.part.toNat
  (((List.range n).map (fun j => s.rdAt p (w.slotAddr (i + j)) 64)).flatten,
   (List.range n).any (fun j => s.markAt p (w.slotAddr (i + j)) 64))

/-- One fetch. A ring in HBM is read at once; a ring in host memory by a read that a later completion answers. -/
def State.fetch1 (s : State) (q : Nat) : State :=
  let w := s.queue q
  let x := s.qw q
  let av := w.avail
  let i := w.head.toNat
  if av = 0 then s
  else if w.sqHbm then
    let (h, bad) := s.ringBytes q i 1
    if bad then s.badSlot q h 1
    else
      let n := cSlots h
      if av < n then
        s.modQw q (fun x => { x with partialAt := x.partialAt.getD s.clk.live |> some })
      else
        let (b, bad) := s.ringBytes q i n
        if bad then s.badSlot q b n else s.take q (b.take (max 64 (16 * cLen h)))
  else if x.fetched.isEmpty then s.readSlots q i 1
  else
    let n := cSlots x.fetched
    if n * 64 ≤ x.fetched.length then s.take q (x.fetched.take (max 64 (16 * cLen x.fetched)))
    else if av < n then
      s.modQw q (fun x => { x with partialAt := x.partialAt.getD s.clk.live |> some })
    else s.readSlots q (i + x.fetched.length / 64) (n - x.fetched.length / 64)

/-- Fetch until the queue may fetch no more: at most `n` rejected commands in a row. -/
def State.pumpN (s : State) (q : Nat) : Nat → State
  | 0 => s
  | n + 1 =>
    if s.mayFetch q then
      let h := (s.queue q).head
      let s' := s.fetch1 q
      if (s'.queue q).head = h then s' else s'.pumpN q n
    else s

def State.pump (s : State) (q : Nat) : State := s.pumpN q 65536

/-- Every enabled queue looks again. -/
def State.pumpAll (s : State) : State := (List.range 64).foldl State.pump s

/-! ### Dispatch (R289, R291) -/

/-- Everything before the state check holds for the waiting command of `q`. -/
def State.mayDispatch (s : State) (q op : Nat) : Option Waiting :=
  let w := s.queue q
  let x := s.qw q
  match x.waiting with
  | none => none
  | some c =>
    if cOp c.bytes == op && !s.frozen && !s.mod.fault && (w.st == 1 || w.st == 2) && c.waitOk && !x.stopToken && s.coreAwake q &&
       decide (x.executing.length < 32) && decide (2 ≤ w.freeRecords) &&
       (!(cOrdered c.bytes || op == 2) || (x.executing.isEmpty && x.finished.isEmpty)) &&
       (w.st == 1 || x.executing.isEmpty)
    then some c else none

/-- Dispatch of the waiting command of `q` with opcode `op`: the partition state check (R299), then the body, which
takes the command's identifier and bytes. The body answers a Reject, or the state after its dispatch. -/
def State.dispatch (s : State) (q op : Nat) (body : State → Nat → List Byte → Except Earned State) : State :=
  match s.mayDispatch q op with
  | none => s
  | some c =>
    if !legal op (s.partSt (s.queue q).part.toNat) then (s.endWaiting q ⟨stConflict, conflictAt 1 0, 0⟩).pump q
    else
      let e : Exec := { id := c.id, bytes := c.bytes, since := c.since }
      let s1 := s.modQw q (fun x => { x with waiting := none, executing := x.executing ++ [e] })
      match body s1 c.id c.bytes with
      | .error r => (s.endWaiting q r).pump q
      | .ok s2 => s2.pump q

/-- A body whose work is done at dispatch (R304): it starts and ends in this mclk. -/
def State.atOnce (s : State) (q id : Nat) : State := (s.startAt q id s.mclk).finish q id [⟨stDone, 0, 0⟩]

end Sys2Proof.Machine
end

