-- ==== Sys2Proof/Machine/Routing.lean ====
section
/-!
DEFINITION. Frames and routes of Gwynlink (R336, R337, R343, R347 to R351): the layout of a frame, the choice of the
port, and handing a transaction to it.
-/
namespace Sys2Proof.Machine

/-! ### Frame layout -/

/-- The 16 bytes of a transaction header (R343). -/
def Txn.header (t : Txn) : List Byte :=
  let dlen := ceilDiv t.data.length 32
  leBytes 16 (t.type + t.src * 2 ^ 4 + t.dest * 2 ^ 16 + t.status * 2 ^ 28 + t.tseq * 2 ^ 32 + dlen * 2 ^ 48 +
    t.poison * 2 ^ 51 + t.addr * 2 ^ 64)

/-- A frame's 256 bytes: link header with ACK and NAK, transaction, CRC (R336, R337). -/
def Frame.encode (f : Frame) (kind ack : Nat) (nak : Bool) : List Byte :=
  let h := leBytes 12 (f.seq + ack * 2 ^ 12 + b01 nak * 2 ^ 24 + f.vc * 2 ^ 25 + f.cls * 2 ^ 27 + f.hops * 2 ^ 28 +
    kind * 2 ^ 34)
  let b := slice (h ++ f.txn.header ++ f.txn.data) 0 252
  b ++ leBytes 4 (crc32 b)

/-- What a frame's bytes say: KIND, ACK, NAK and the frame (R337, R343). -/
def decodeFrame (b : List Byte) : Nat × Nat × Bool × Frame :=
  let h := fld b 0 12
  let t := fld b 12 16
  let dlen := bits t 48 3
  let txn : Txn := { type := bits t 0 4, src := bits t 4 12, dest := bits t 16 12, status := bits t 28 4,
                     tseq := bits t 32 16, poison := bits t 51 7, addr := bits t 64 64, data := slice b 28 (32 * dlen) }
  (bits h 34 2, bits h 12 12, bit h 24,
   { seq := bits h 0 12, vc := bits h 25 2, cls := bits h 27 1, hops := bits h 28 6, txn := txn })

/-- The frame's CRC holds. -/
def frameCrcOk (b : List Byte) : Bool := decide (b.length = 256) && crc32 (b.take 252) == fld b 252 4

/-- The virtual channel of a transaction type (R344). -/
def vcOf : Nat → Option Nat
  | 1 | 3 => some 0 | 2 | 4 => some 1 | 5 | 6 => some 2 | 7 | 8 => some 3 | _ => none

/-! ### Ports and routes -/

/-- UP or DEGRADED. -/
def Port.up (p : Port) : Bool := p.st == 2 || p.st == 3

/-- Coordinate `d` (0 X, 1 Y, 2 Z) of a node identifier (R348). -/
def coord (node d : Nat) : Nat := bits node (4 * d) 4
def Part.dim (p : Part) : Nat → Nat
  | 0 => p.dimX.toNat | 1 => p.dimY.toNat | _ => p.dimZ.toNat

/-- The ports of a partition that carry direction code `c` (R348). -/
def State.bundle (s : State) (p c : Nat) : List Nat := (s.portsOf p).filter (fun i => (s.port i).useDir.toNat == c)

/-- PORT.ROUTE_CTRL.ERROR (R348). -/
def State.routeError (s : State) (p : Nat) : Bool :=
  let x := s.part p
  !x.tableMode && ([0, 1, 2].any (fun d => decide (x.dim d ≤ coord x.node.toNat d) ||
    (decide (1 < x.dim d) && ((s.bundle p (2 * d + 1)).isEmpty || (s.bundle p (2 * d + 2)).isEmpty))))

/-- The ports a table entry lists (R351). -/
def routePorts (e : Nat) : List Nat :=
  ([0, 8, 16].filter (fun o => bit e (o + 5))).map (fun o => bits e o 5)

/-- The bundle and class of the next hop towards `dest`, for a frame that arrived with class `cls` in direction
code `from` (0: injected here) (R349, R351). -/
def State.nextHop (s : State) (p dest cls arrived : Nat) : List Nat × Nat :=
  let x := s.part p
  if x.tableMode then
    let e := Tbl.get 0 x.routes dest
    -- a port of another partition is none of this one's (R20)
    ((routePorts e).filter (s.portsOf p).contains, if bit e 24 then 1 else cls)
  else
    let here := x.node.toNat
    let step (d : Nat) : Option (List Nat × Nat) :=
      let n := x.dim d
      let k := (coord dest d + n - coord here d % n) % n
      if k = 0 then none
      else
        let plus := decide (k ≤ n - k)
        let code := if plus then 2 * d + 1 else 2 * d + 2
        let same := decide (0 < arrived) && decide ((arrived - 1) / 2 = d)
        let wrap := (plus && coord here d == n - 1) || (!plus && coord here d == 0)
        some (s.bundle p code, if wrap then 1 else if same then cls else 0)
    match [0, 1, 2].findSome? step with
    | some r => r
    | none => ([], cls)

/-- The port for a destination and channel (R350): entry (DEST_NODE + VC) mod count of the ports up; otherwise the
DETAIL of LINK_DOWN (R305). -/
def State.route (s : State) (p dest vc cls arrived : Nat) : Except Nat (Nat × Nat) :=
  if s.routeError p then .error 0x1F
  else
    let (b, c) := s.nextHop p dest cls arrived
    match b with
    | [] => .error 0x1F
    | _ =>
      let up := b.filter (fun i => (s.port i).up)
      if up.isEmpty then .error (b.foldl min 31)
      else .ok (up.getD ((dest + vc) % up.length) 0, c)

/-- Hand a frame to a port: it waits there for its slot (R342). -/
def State.queueFrame (s : State) (port : Nat) (f : Frame) : State :=
  s.modLink port (fun l => { l with txq := l.txq ++ [f] })

/-- Send a transaction from a partition, or the DETAIL of LINK_DOWN. -/
def State.sendTxn (s : State) (p : Nat) (t : Txn) : Except Nat State :=
  let vc := (vcOf t.type).getD 0
  match s.route p t.dest vc 0 0 with
  | .error d => .error d
  | .ok (port, cls) =>
    let t := { t with src := (s.part p).node.toNat }
    .ok (s.queueFrame port { seq := 0, vc := vc, cls := cls, hops := 0, txn := t })

/-- Send where a failure only loses the message (a response, an ABORT). -/
def State.sendOr (s : State) (p : Nat) (t : Txn) : State :=
  match s.sendTxn p t with | .ok s' => s' | .error _ => s

/-- The next TSEQ of a partition (R319). -/
def State.nextTseq (s : State) (p : Nat) : Nat × State :=
  let n := ((s.part p).txSeq + 1).toNat
  (n, s.modPart p (fun x => { x with txSeq := BitVec.ofNat 16 n }))

end Sys2Proof.Machine
end

