-- ==== Sys2Proof/Machine/CollPlan.lean ====
section
/-!
DEFINITION. The shape of a collective: its descriptor (R359 to R361), the digest (R363), the header of its frames (R362),
and the plan of transfers that each order gives (R367), as a function of descriptor, member count and rank.
-/
namespace Sys2Proof.Machine

/-! ### Descriptor (R359) -/
def cdKind (b : List Byte) : Nat := fld b 0 1
def cdOrder (b : List Byte) : Nat := fld b 1 1
def cdFmtCode (b : List Byte) : Nat := bits (fld b 2 1) 0 5
def cdFmt (b : List Byte) : Fmt := (Fmt.ofCode (cdFmtCode b)).getD .sb16
def cdRnd (b : List Byte) : Rnd := (Rnd.ofCode (bits (fld b 3 1) 0 2)).getD .rne
def cdHealth (b : List Byte) : Bool := bit (fld b 3 1) 2
def cdCache (b : List Byte) : Nat := bits (fld b 3 1) 3 2
def cdJob (b : List Byte) : Nat := fld b 4 4
def cdColl (b : List Byte) : Nat := fld b 8 4
def cdTensor (b : List Byte) : Nat := fld b 12 4
def cdStep (b : List Byte) : Nat := fld b 16 4
def cdSrc (b : List Byte) : Nat := cAddr b 24
def cdSrcScale (b : List Byte) : Nat := cAddr b 32
def cdDst (b : List Byte) : Nat := cAddr b 40
def cdDstScale (b : List Byte) : Nat := cAddr b 48
def cdHdr (b : List Byte) : Nat := cAddr b 56
def cdElems (b : List Byte) : Nat := fld b 64 8
def cdCount (b : List Byte) : Nat := fld b 72 2
def cdRoot (b : List Byte) : Nat := fld b 74 2
def cdBank (b : List Byte) : Nat := fld b 76 1
def cdEntry (b : List Byte) : Nat := fld b 78 2
def cdRecord (b : List Byte) : Nat := cAddr b 80

/-- The member list at byte `o` of a descriptor. -/
def nodesAt (b : List Byte) (o n : Nat) : List Nat := (List.range n).map (fun i => fld b (o + 2 * i) 2)
/-- Byte of the first PERMUTE entry, and entry `i` (R360). -/
def cdEntries (b : List Byte) : Nat := roundUp (96 + 2 * cdCount b) 64
def cdPerm (b : List Byte) (i : Nat) : List Byte := slice b (cdEntries b + 32 * i) 32

def cdFields : List (Nat × Nat × Nat) :=
  [(0, 1, 0xFF), (1, 1, 0xFF), (2, 1, 0x1F), (3, 1, 0x1F), (4, 4, 0xFFFFFFFF), (8, 4, 0xFFFFFFFF), (12, 4, 0xFFFFFFFF),
   (16, 8, all64), (24, 8, addr52), (32, 8, addr52), (40, 8, addr52), (48, 8, addr52), (56, 8, addr52), (64, 8, all64),
   (72, 2, 0xFFFF), (74, 2, 0xFFFF), (76, 1, 0xFF), (78, 2, 0xFFFF), (80, 8, addr52), (88, 4, 0xFFFFFFFF)]

/-- The kind carries elements of the descriptor's format. -/
def cdTensorKind (b : List Byte) : Bool := decide (cdKind b ≤ 4)
/-- Bytes of the element plane and of the scale plane of E elements. -/
def cdBytes (b : List Byte) : Nat := cdElems b * (cdFmt b).elemBits / 8
def cdScales (b : List Byte) : Nat := if (cdFmt b).isBlock then cdElems b / 32 else 0
def cdSb16 (b : List Byte) : Bool := cdFmt b == .sb16

/-- The offset of the first field of the first 96 bytes that breaks R359 to R361 and R438; none: they pass. -/
def cdParam (b : List Byte) : Option Nat :=
  let k := cdKind b
  let e := cdElems b
  let p := cdCount b
  let first (l : List (Bool × Nat)) : Option Nat := (l.find? (fun x => x.1)).map (fun x => x.2)
  match reservedAt cdFields b 96 with
  | some o => some o
  | none => first
    [(k == 0 || decide (6 < k), 0), (decide (3 < cdOrder b), 1),
     (decide (15 < cdFmtCode b) || ((k == 1 || k == 2) && !cdSb16 b) || ((k == 3 || k == 4) && cdFmt b == .split), 2),
     (bits (fld b 3 1) 0 2 == 3 || cdCache b == 3 || (cdCache b != 0 && k != 3), 3),
     (decide (cdHdr b % 32 ≠ 0), 56),
     ((k == 6 && e != 0) || (k != 6 && (e == 0 || decide (2 ^ 36 < e))) || (k == 1 && decide (e % 32 ≠ 0)) ||
      (k == 2 && decide (e % (32 * p) ≠ 0)) || ((k == 3 || k == 4) && (cdFmt b).isBlock && decide (e % 32 ≠ 0)), 64),
     (p == 0 || decide (4096 < p), 72), (decide (p ≤ cdRoot b), 74), (decide (15 < cdBank b), 76)]

/-- The shape digest of a COLLECTIVE; a RESHARD adds the four bytes of NEW_EPOCH (R363). -/
def cdDigest (b : List Byte) (reshard : Option Nat) : Nat :=
  let f := fld b 3 1
  let tail := match reshard with | some e => leBytes 4 e | none => []
  crc32c (slice b 0 3 ++ leBytes 1 (f - bits f 0 2) ++ slice b 12 4 ++ slice b 64 16 ++ slice b 96 (2 * cdCount b) ++ tail)

/-! ### Header of a frame (R362) -/

structure CollHdr where
  job : Nat
  epoch : Nat
  step : Nat := 0
  coll : Nat
  seq : Nat := 0
  rank : Nat := 0
  /-- bit 0 NONFINITE, 1 POISON, 2 LAST -/
  flags : Nat := 0
  contrib : Nat := 0
  op : Nat
  scales : Nat := 0
  ctl : Nat := 0
  arg : Nat := 0
  deriving DecidableEq, Repr

/-- CONTRIB has 12 bits: 4,096 contributions stand as 0 (log 21). -/
def CollHdr.encode (h : CollHdr) : List Byte :=
  leBytes 4 h.job ++ leBytes 4 h.epoch ++ leBytes 4 h.step ++ leBytes 4 h.coll ++ leBytes 4 h.seq ++
    leBytes 2 (h.rank + h.flags * 2 ^ 12) ++ leBytes 2 (h.contrib % 4096 + h.op * 2 ^ 12) ++ leBytes 3 h.scales ++
    leBytes 1 h.ctl ++ leBytes 4 h.arg

def decodeColl (b : List Byte) : CollHdr :=
  { job := fld b 0 4, epoch := fld b 4 4, step := fld b 8 4, coll := fld b 12 4, seq := fld b 16 4,
    rank := bits (fld b 20 2) 0 12, flags := bits (fld b 20 2) 12 3, contrib := bits (fld b 22 2) 0 12,
    op := bits (fld b 22 2) 12 4, scales := fld b 24 3, ctl := fld b 27 1, arg := fld b 28 4 }

/-! ### Plans (R367) -/

/-- A ring dimension: its size, and the rank distance of neighbours. -/
abbrev Ring := Nat × Nat

def Ring.at (d : Ring) (r : Nat) : Nat := r / d.2 % d.1
/-- The rank one step on, in the + or − direction. -/
def Ring.next (d : Ring) (plus : Bool) (r : Nat) : Nat :=
  let c := d.at r
  let c' := if plus then (c + 1) % d.1 else (c + d.1 - 1) % d.1
  r - c * d.2 + c' * d.2
/-- The place of rank `r` in the ring that ends at `home`: 0 begins, size − 1 ends. -/
def Ring.pos (d : Ring) (plus : Bool) (r home : Nat) : Nat :=
  if plus then (d.at r + 2 * d.1 - d.at home - 1) % d.1 else (d.at home + 2 * d.1 - 1 - d.at r) % d.1

/-- What a rank does for one piece: the additions it makes in order, and where the sum goes: on to a rank, or nowhere,
the sum being final here. -/
structure Reduced where
  adds : List Xfer
  next : Option (Nat × Nat)

/-- Dimension by dimension, each by the ring rule (RING is one dimension). -/
def ringReduce (lo hi home : Nat) (plus : Bool) (r : Nat) : List Ring → Nat → List Xfer → Reduced
  | [], _, adds => ⟨adds, none⟩
  | d :: ds, b, adds =>
    let k := d.pos plus r home
    let adds := if k = 0 then adds else
      adds ++ [⟨d.next (!plus) r, lo, hi, b * k, b * (k + 1), true, false, []⟩]
    if k + 1 = d.1 then ringReduce lo hi home plus r ds (b * d.1) adds
    else ⟨adds, some (d.next plus r, b * (k + 1))⟩

/-- The gather back from `home`, in reverse: source of this rank (none at home) and the ranks it serves. -/
def ringGather (home : Nat) (plus : Bool) (r : Nat) : List Ring → List Nat → Option Nat × List Nat
  | [], fwd => (none, fwd)
  | d :: ds, fwd =>
    let n := d.next plus r
    if d.at r = d.at home then ringGather home plus r ds (if d.1 = 1 then fwd else fwd ++ [n])
    else (some (d.next (!plus) r), if d.at n = d.at home then fwd else fwd ++ [n])

/-- Levels of a tree of P ranks, and the level at which rank r ≠ 0 sends. -/
def treeLevels (p : Nat) : Nat := if p ≤ 1 then 0 else Nat.log2 (p - 1) + 1
def treeLevel (p r : Nat) : Nat := ((List.range (treeLevels p)).find? (fun l => decide (r % 2 ^ (l + 1) ≠ 0))).getD (treeLevels p)

def treeReduce (lo hi p r : Nat) : Reduced :=
  let up := treeLevel p r
  let adds := ((List.range up).filter (fun l => decide (r + 2 ^ l < p))).map (fun l =>
    (⟨r + 2 ^ l, lo, hi, min (2 ^ l) (p - r - 2 ^ l), min (2 ^ (l + 1)) (p - r), true, false, []⟩ : Xfer))
  ⟨adds, if r = 0 then none else some (r - 2 ^ up, min (2 ^ up) (p - r))⟩

/-- The tree's broadcast from `home`, on ranks counted from it. -/
def treeGather (home p r : Nat) : Option Nat × List Nat :=
  let k := (r + p - home) % p
  let up := treeLevel p k
  let fwd := ((List.range up).reverse.filter (fun l => decide (k + 2 ^ l < p))).map (fun l => (k + 2 ^ l + home) % p)
  (if k = 0 then none else some ((k - 2 ^ up + home) % p), fwd)

def chainReduce (lo hi p r : Nat) : Reduced :=
  ⟨if r = 0 then [] else [⟨r - 1, lo, hi, r, r + 1, true, false, []⟩], if r + 1 = p then none else some (r + 1, r + 1)⟩

/-- The transfers of one piece at rank `r`: the reduction, if there is one, then the gather, if there is one. -/
def pieceXfers (lo hi r p : Nat) (red : Option Reduced) (gather : Option (Option Nat × List Nat)) : List Xfer :=
  if hi ≤ lo then []
  else
    let back := match gather with
      | some (some src, fwd) => [(⟨src, lo, hi, p, p, false, true, fwd⟩ : Xfer)]
      | _ => []
    let here := match gather with | some (none, fwd) => fwd | _ => []
    match red with
    | none => (if here.isEmpty then [] else [⟨r, lo, hi, p, p, false, false, here⟩]) ++ back
    | some ⟨adds, next⟩ =>
      let (fwd, after, final) := match next with | some (n, k) => ([n], k, false) | none => (here, p, true)
      let own := match adds.reverse with
        | [] => if fwd.isEmpty then [] else [⟨r, lo, hi, after, after, false, false, fwd⟩]
        | x :: rest => rest.reverse ++ [{ x with final := final, fwd := fwd }]
      own ++ back

/-- Blocks of chunk `c` (R360), and of its part `i` of six: stripe i / 2, its + half for even i (R367). -/
def chunkAt (nb p c : Nat) : Nat × Nat := (c * nb / p, (c + 1) * nb / p)
def sixth (lo hi i : Nat) : Nat × Nat := (lo + i * (hi - lo) / 6, lo + (i + 1) * (hi - lo) / 6)

/-- X, Y, Z rotated by the stripe. -/
def stripeDims (dims : List Ring) (st : Nat) : List Ring := dims.drop st ++ dims.take st

/-- The plan of rank `r` for a vector of `v` units: order, kind, ring dimensions (X, Y, Z under TORUS), units of one
contribution, root. -/
def collPlan (order kind : Nat) (dims : List Ring) (p u root r : Nat) : List Xfer :=
  let torus := order == 2
  let red := kind == 1 || kind == 2
  let ring := if torus then dims else [(p, 1)]
  -- one piece that ends, or begins, at `home`
  let piece (lo hi home : Nat) (reduce gather : Bool) : List Xfer :=
    if torus then
      ((List.range 6).map (fun i =>
        let (a, b) := sixth lo hi i
        let ds := stripeDims dims (i / 2)
        let plus := i % 2 == 0
        pieceXfers a b r p (if reduce then some (ringReduce a b home plus r ds 1 []) else none)
          (if gather then some (ringGather home plus r ds []) else none))).flatten
    else
      pieceXfers lo hi r p (if reduce then some (ringReduce lo hi home true r ring 1 []) else none)
        (if gather then some (ringGather home true r ring []) else none)
  if p ≤ 1 ∨ kind = 5 ∨ kind = 6 then []
  else if red then
    if order = 1 then pieceXfers 0 u r p (some (treeReduce 0 u p r)) (some (treeGather 0 p r))
    else if order = 3 then
      pieceXfers 0 u r p (some (chainReduce 0 u p r))
        (some (if r + 1 = p then none else some (r + 1), if r = 0 then [] else [r - 1]))
    else ((List.range p).map (fun c => let (a, b) := chunkAt u p c; piece a b c true (kind == 1))).flatten
  else
    let homes := if kind = 3 then List.range p else [root]
    (homes.map (fun j =>
      let lo := if kind = 3 then j * u else 0
      if order = 1 then pieceXfers lo (lo + u) r p none (some (treeGather j p r))
      else piece lo (lo + u) j false true)).flatten

/-- Segments of a transfer: three units each (R362). -/
def Xfer.segs (x : Xfer) : Nat := ceilDiv (x.hi - x.lo) 3

/-- The transfer and segment that SEQ `n` from rank `src` means: segments are numbered through a receiver's plan, per
sender (log 21). -/
def segOf (plan : List Xfer) (src n : Nat) : Option (Nat × Nat) :=
  let r := ((List.range plan.length).zip plan).foldl (fun (a : Nat × Option (Nat × Nat)) (i, x) =>
    if x.src ≠ src then a
    else (a.1 + x.segs, a.2 <|> (if a.1 ≤ n ∧ n < a.1 + x.segs then some (i, n - a.1) else none))) (0, none)
  r.2

/-- The number of the first segment of the transfer of a receiver's plan that carries these units from `src`. -/
def seqOf (plan : List Xfer) (src lo hi contrib : Nat) : Nat :=
  let r := plan.foldl (fun (a : Nat × Option Nat) x =>
    if x.src ≠ src then a
    else (a.1 + x.segs, a.2 <|> (if x.lo = lo ∧ x.hi = hi ∧ x.contrib = contrib then some a.1 else none))) (0, none)
  r.2.getD 0

end Sys2Proof.Machine
end

