-- ==== Sys2Proof/Machine/Collectives.lean ====
section
/-!
DEFINITION. The collective engine of a member (R357 to R382): jobs, rendezvous, segments and reductions, flags, header,
endings; and the progress of KV_RING (R376, R377).
-/
namespace Sys2Proof.Machine

/-! ### Jobs (R357) -/

def State.job (s : State) (p j : Nat) : Option Job := (s.part p).jobs.find? (fun x => x.id == j)
def State.jobEpoch (s : State) (p j : Nat) : Nat := ((s.job p j).map (fun x => x.epoch)).getD 0
def State.onJob (s : State) (p j : Nat) (f : Job → Job) : State :=
  s.modPart p (fun x => { x with jobs := updWhere (fun y => y.id == j) f x.jobs })
/-- The job has an entry, made if there is room; none: the table is full. -/
def State.withJob (s : State) (p j : Nat) : Option State :=
  if (s.job p j).isSome then some s
  else if 64 ≤ (s.part p).jobs.length then none
  else some (s.modPart p (fun x => { x with jobs := x.jobs ++ [{ id := j }] }))

/-! ### Collectives in progress -/

def State.coll (s : State) (id : Nat) : Option Coll := s.work.colls.find? (fun c => c.id == id)
def State.onColl (s : State) (id : Nat) (f : Coll → Coll) : State :=
  s.modWork (fun w => { w with colls := updWhere (fun c => c.id == id) f w.colls })
def State.collOf (s : State) (p job coll : Nat) : Option Coll :=
  s.work.colls.find? (fun c => c.part == p && c.job == job && c.collId == coll)

def Coll.p (c : Coll) : Nat := c.members.length
def Coll.kind (c : Coll) : Nat := cdKind c.desc
def Coll.step (c : Coll) : Nat := if c.op = 0x52 then 0 else cdStep c.desc
def Coll.others (c : Coll) : List Nat := (List.range c.p).filter (fun r => r != c.rank)
def Coll.node (c : Coll) (r : Nat) : Nat := c.members.getD r 0
/-- Units of one contribution: SB16 blocks, or 64-byte units of the element plane and then of the scale plane. -/
def Coll.units (c : Coll) : Nat :=
  if cdSb16 c.desc then cdElems c.desc / 32 else ceilDiv (cdBytes c.desc) 64 + ceilDiv (cdScales c.desc) 64

/-- The ring dimensions of the partition: X, Y, Z (R367). -/
def State.torusDims (s : State) (p : Nat) : List Ring :=
  let x := s.part p
  [(x.dim 0, 1), (x.dim 1, x.dim 0), (x.dim 2, x.dim 0 * x.dim 1)]
def State.planFor (s : State) (c : Coll) (r : Nat) : List Xfer :=
  collPlan (cdOrder c.desc) c.kind (s.torusDims c.part) c.p c.units (cdRoot c.desc) r

/-- Send a frame of the collective to a member; a send without a port is noted (R382). -/
def State.sendColl (s : State) (c : Coll) (peer : Nat) (h : CollHdr) (data : List Byte := []) (poison : Nat := 0) : State :=
  let h := { h with job := c.job, epoch := c.epoch, coll := c.collId, step := c.step, rank := c.rank }
  let t : Txn := { type := if h.op = 0 then 5 else 6, dest := c.node peer, data := h.encode ++ data, poison := poison }
  match s.sendTxn c.part t with
  | .ok s => s
  | .error d => s.onColl c.id (fun x => { x with down := x.down <|> some d })

def ctlHdr (op : Nat) (seq : Nat := 0) (ctl : Nat := 0) (arg : Nat := 0) (flags : Nat := 0) : CollHdr :=
  { job := 0, epoch := 0, coll := 0, op := op, seq := seq, ctl := ctl, arg := arg, flags := flags }

/-! ### Units in memory -/

/-- Where unit `k` of a contribution lies under plane bases: address, bytes, address of the block's scale (R35). -/
def Coll.place (c : Coll) (base sbase k : Nat) : Nat × Nat × Option Nat :=
  if cdSb16 c.desc then (base + 64 * k, 64, some (sbase + k))
  else
    let n := cdBytes c.desc
    let e := ceilDiv n 64
    if k < e then (base + 64 * k, min 64 (n - 64 * k), none)
    else (sbase + 64 * (k - e), min 64 (cdScales c.desc - 64 * (k - e)), none)

def State.getUnit (s : State) (p : Nat) (at' : Nat × Nat × Option Nat) : CUnit :=
  let (a, n, sc) := at'
  let bs := s.rdAt p a n
  let mark := s.markAt p a n || (match sc with | some x => s.markAt p x 1 | none => false)
  let scale := match sc with | some x => leNat (s.rdAt p x 1) | none => 0
  { scale := scale, bytes := slice bs 0 64, flags := 4 * b01 mark }

/-- Write a unit; bytes at or above `limit` are left out. -/
def State.putUnit (s : State) (p : Nat) (at' : Nat × Nat × Option Nat) (limit : Nat) (u : CUnit) : State :=
  let (a, n, sc) := at'
  let m := bit u.flags 2
  let s := s.wrAt p a (u.bytes.take (min n (limit - a))) m
  match sc with
  | some x => if x < limit then s.wrAt p x (leBytes 1 u.scale) m else s
  | none => s

/-- Index of a unit in this member's own contribution. -/
def Coll.ownUnit (c : Coll) (s : State) (v : Nat) : CUnit :=
  s.getUnit c.part (c.place (cdSrc c.desc) (cdSrcScale c.desc) (if c.kind = 3 then v - c.rank * c.units else v))

/-- Where a complete unit is stored at DST, if this member keeps it: REDUCE_SCATTER keeps its own chunk (R360). -/
def State.storeUnit (s : State) (c : Coll) (v : Nat) (u : CUnit) : State :=
  let b := c.desc
  let n := c.units
  let dst := cdDst b
  let dsc := cdDstScale b
  let big := 2 ^ 53
  match c.kind with
  | 2 =>
    let (lo, hi) := chunkAt n c.p c.rank
    if lo ≤ v ∧ v < hi then s.putUnit c.part (c.place dst dsc (v - lo)) big u else s
  | 3 =>
    let j := v / n
    let k := v % n
    let s := s.putUnit c.part (c.place (dst + j * cdBytes b) (dsc + j * cdScales b) k) big u
    if cdCache b = 1 then
      match c.cache with
      | some (ca, len) =>
        s.putUnit c.part (c.place (ca + j * cdBytes b) (ca + c.p * cdBytes b + j * cdScales b) k) (ca + len) u
      | none => s
    else s
  | _ => s.putUnit c.part (c.place dst dsc v) big u

/-- The result range becomes undefined (R381, R382): free values. -/
def State.undefine (s : State) (p a n : Nat) : State :=
  let (bs, s) := s.freeBytes n
  s.wrAt p a bs

def State.undefineResult (s : State) (c : Coll) : State :=
  let b := c.desc
  if !c.phase then s
  else if c.op = 0x52 then
    let o := roundUp (64 + 2 * c.p) 64
    (List.range (fld b 12 2)).foldl (fun s i =>
      let w := fld b (o + 4 * i) 4
      let t := s.physTile c.part (bits w 0 11)
      s.undefine c.part (tileBase t + (s.pair t (bits w 11 4)).base - s.firstDie c.part * 2 ^ 36) (fld b 16 4)) s
  else
    match c.kind with
    | 1 | 4 => (s.undefine c.part (cdDst b) (cdBytes b)).undefine c.part (cdDstScale b) (cdScales b)
    | 2 => (s.undefine c.part (cdDst b) (cdBytes b / c.p)).undefine c.part (cdDstScale b) (cdScales b / c.p)
    | 3 =>
      let s := (s.undefine c.part (cdDst b) (c.p * cdBytes b)).undefine c.part (cdDstScale b) (c.p * cdScales b)
      (match c.cache with
       | some (a, n) => if cdCache b = 1 then s.undefine c.part a n else s
       | none => s)
    | 5 => s.undefine c.part (cdDst b) (cdDstScale b)
    | _ => s

/-! ### Header and ending -/

/-- The reduction header (R372); ORIGIN beyond one member is not carried by any frame: free, not above the own rank
where the own flag is set (log 22). -/
def State.writeHdr (s : State) (c : Coll) (final : Bool) : State :=
  let b := c.desc
  if c.op = 0x52 ∨ cdHdr b = 0 then s
  else
    let (v, s) := s.free
    let nf := c.flags % 4 ||| b01 c.own
    let origin :=
      if !final || nf % 2 = 0 then 0xFFFF
      else if c.p = 1 then 0
      else if c.own then v.toNat % (c.rank + 1)
      else let m := v.toNat % (c.p + 1); if m = c.p then 0xFFFF else m
    let differ := c.clears.any (fun x => x.step != c.step)
    let fl := if final then nf + 4 + 8 * b01 differ else 0
    s.wrAt c.part (cdHdr b)
      (leBytes 4 c.step ++ leBytes 4 (if final then c.epoch else 0xFFFFFFFF) ++ leBytes 4 c.job ++ leBytes 4 c.collId ++
       leBytes 1 fl ++ leBytes 1 (cdOrder b) ++ leBytes 2 c.p ++ leBytes 2 origin ++ leBytes 2 0 ++
       leBytes 4 (cdTensor b) ++ leBytes 4 0)

/-- A collective leaves: its COLL_ID joins the last 64 completed of its job (R358), its command completes. -/
def State.collLeave (s : State) (c : Coll) (es : List Earned) : State :=
  let s := s.modWork (fun w => { w with colls := w.colls.filter (fun x => x.id != c.id) })
  let s := if c.started then s.onJob c.part c.job (fun j => { j with done := (c.collId :: j.done).take 64 }) else s
  s.finish c.q c.id es

/-- A collective ends early: results undefined, header invalid, ABORT to every other member where `abort` gives a status
and the node named (R381, R382). -/
def State.collFail (s : State) (c : Coll) (e : Earned) (abort : Option (Nat × Nat)) : State :=
  let s := match abort with
    | some (st, node) => c.others.foldl (fun (s : State) r => s.sendColl c r (ctlHdr 2 (arg := st + node * 65536))) s
    | none => s
  (s.undefineResult c).collLeave c [e]

/-- A send found no port up: LINK_DOWN, and ABORT naming itself (R382). -/
def State.collDown (s : State) (id : Nat) : State :=
  match s.coll id with
  | some c =>
    match c.down with
    | some d => s.collFail c ⟨stLinkDown, d, 0⟩ (some (stLinkDown, c.node c.rank))
    | none => s
  | none => s

/-! ### Data phase -/

/-- This member's own flag (R370). -/
def State.ownFlag (s : State) (c : Coll) : Bool :=
  let n := cdScales c.desc
  (cdTensorKind c.desc && (s.rdAt c.part (cdSrcScale c.desc) n).any (fun x => x.toNat == 0xFF) &&
    (c.kind != 4 || c.rank == cdRoot c.desc)) ||
  (cdHealth c.desc && (c.nanOut != 0 || c.infOut != 0))

/-- Send up to three units of a transfer to a rank: segment `k` of the units from `lo` (R362). -/
def State.sendSeg (s : State) (c : Coll) (peer lo hi contrib k : Nat) (us : List CUnit) : State :=
  let seq := seqOf (s.planFor c peer) c.rank lo hi contrib + k
  let fl := us.foldl (fun f u => f ||| u.flags % 4) 0
  let last := decide (hi ≤ lo + 3 * (k + 1))
  let scales := ((List.range us.length).zip us).foldl (fun a (i, u) => a + u.scale % 256 * 2 ^ (8 * i)) 0
  let marks := ((List.range us.length).zip us).foldl (fun a (i, u) => if bit u.flags 2 then a + 6 * 2 ^ (2 * i) else a) 0
  let h : CollHdr := { job := 0, epoch := 0, coll := 0, op := 0, seq := seq, flags := fl + 4 * b01 last, contrib := contrib,
                       scales := scales }
  s.sendColl c peer h (us.map (fun u => u.bytes)).flatten marks

/-- Add a received block to the member's own in FP32, and encode the sum (R365): the unit, and the reducer's counts. -/
def addUnit (c : Coll) (seed after v : Nat) (inc own : CUnit) : CUnit × Health :=
  let f := Fmt.sb16
  let dec (u : CUnit) (i : Nat) : Val × Health :=
    let x := applyScale u.scale (f.decode (fld u.bytes (2 * i) 2))
    let y := r32 x
    (y, { Health.zero with nanIn := b01 y.isNan, flush := b01 (!x.isZero && y.isZero) })
  let pairs := (List.range 32).map (fun i => (dec inc i, dec own i))
  let key : Key := { seed := seed, step := c.step, tensor := cdTensor c.desc, site := 0, seq := after % 256 }
  let draws := (List.range 32).map (fun i => key.draw (32 * v + i))
  let (sc, es, h) := f.encodeBlock (cdRnd c.desc) false draws (pairs.map (fun (a, b) => r32 (Val.add a.1 b.1)))
  let poison := bit inc.flags 2 || bit own.flags 2
  let formed := b01 (sc == 0xFF || poison) + 2 * b01 poison
  ({ scale := sc, bytes := (es.map (leBytes 2)).flatten,
     flags := ((inc.flags ||| own.flags) % 4 ||| formed) + 4 * b01 poison },
   pairs.foldl (fun h (a, b) => (h.add a.2).add b.2) h)

/-- The additions already made at unit `v` that come before transfer `i`, all done. -/
def Coll.ready (c : Coll) (i k : Nat) : Bool :=
  match c.plan[i]? with
  | none => false
  | some x =>
    !x.add || (List.range 3).all (fun j =>
      let v := x.lo + 3 * k + j
      decide (x.hi ≤ v) ||
        Tbl.get 0 c.applied v == ((c.plan.take i).filter (fun y => y.add && decide (y.lo ≤ v) && decide (v < y.hi))).length)

/-- Apply a segment: add or store its units, send them on (R365, R366, R371). -/
def State.applySeg (s : State) (id i k : Nat) (us : List CUnit) : State :=
  match s.coll id with
  | none => s
  | some c =>
    match c.plan[i]? with
    | none => s
    | some x =>
      let seed := (s.queue c.q).seed.toNat
      let step (a : State × List CUnit) (j : Nat) : State × List CUnit :=
        let (s, out) := a
        let v := x.lo + 3 * k + j
        match us[j]? with
        | none => a
        | some inc =>
          if x.hi ≤ v then a
          else if x.add then
            let own := match Tbl.find c.partials v with
              | some u => u
              | none => let u := c.ownUnit s v; { u with flags := u.flags ||| b01 c.own }
            let (u, h) := addUnit c seed x.after v inc own
            let s := s.health (s.bankOf c.q) h
            let s := s.onColl id (fun c => { c with applied := Tbl.put c.applied v (Tbl.get 0 c.applied v + 1) })
            let s := if x.final then
                (s.storeUnit c v u).onColl id (fun c => { c with flags := c.flags ||| u.flags % 4 })
              else s.onColl id (fun c => { c with partials := Tbl.put c.partials v u })
            (s, out ++ [u])
          else
            ((s.storeUnit c v inc).onColl id (fun c => { c with flags := c.flags ||| inc.flags % 4 }), out ++ [inc])
      let (s, out) := [0, 1, 2].foldl step (s, [])
      let s := x.fwd.foldl (fun s t => s.sendSeg c t x.lo x.hi x.after k out) s
      s.onColl id (fun c => { c with left := c.left - 1 })

/-- Apply held segments that have become applicable, at most `n`. -/
def State.drainRaw (s : State) (id : Nat) : Nat → State
  | 0 => s
  | n + 1 =>
    match s.coll id with
    | none => s
    | some c =>
      match takeFirst (fun (i, k, _) => c.ready i k) c.raw with
      | none => s
      | some ((i, k, us), rest) =>
        ((s.onColl id (fun c => { c with raw := rest })).applySeg id i k us).drainRaw id n

/-- Messages of the flag round, and the rank that message `k` goes to and comes from (R371). -/
def State.roundRings (s : State) (c : Coll) : List Ring :=
  let ds : List Ring := if cdOrder c.desc = 2 then s.torusDims c.part else [(c.p, 1)]
  (ds.map (fun d => List.replicate (d.1 - 1) d)).flatten
def Coll.hasRound (c : Coll) : Bool := c.op == 0x50 && (c.kind == 2 || c.kind == 6)

/-- The member's part before the flag round is done. -/
def Coll.bodyDone (c : Coll) : Bool :=
  c.phase && c.left == 0 &&
    (if c.kind = 5 then decide (cdDstScale c.desc ≤ c.bytesIn) || c.p == 1
     else if c.kind = 6 then decide (c.arrived.length + 1 = c.p) else true)

/-- Advance the flag round. -/
def State.flagRound (s : State) (id : Nat) : Nat → State
  | 0 => s
  | n + 1 =>
    match s.coll id with
    | none => s
    | some c =>
      let rings := s.roundRings c
      if !c.hasRound || !c.bodyDone then s
      else if c.flagsSent = c.round ∧ c.flagsSent < rings.length then
        let d := rings.getD c.flagsSent (1, 1)
        let s := s.sendColl c (d.next true c.rank) (ctlHdr 6 (seq := c.flagsSent) (flags := c.flags % 4 ||| b01 c.own))
        (s.onColl id (fun c => { c with flagsSent := c.flagsSent + 1 })).flagRound id n
      else
        match Tbl.find c.flagsIn c.round with
        | some f =>
          if c.round < c.flagsSent then
            (s.onColl id (fun c => { c with flags := c.flags ||| f % 4, round := c.round + 1 })).flagRound id n
          else s
        | none => s

/-- The collective completes once its part, and the flag round, are done (R371, R372). -/
def State.collCheck (s : State) (id : Nat) : State :=
  match s.coll id with
  | none => s
  | some c =>
    if c.down.isSome then s.collDown id
    else if c.op = 0x52 then s
    else if c.bodyDone && (!c.hasRound || c.round == (s.roundRings c).length) then
      (s.writeHdr c true).collLeave c [⟨stDone, 0, 0⟩]
    else s

/-- After any change: held segments, the flag round, completion. -/
def State.collGo (s : State) (id : Nat) : State :=
  let n := match s.coll id with | some c => c.raw.length | none => 0
  ((s.drainRaw id n).flagRound id 10000).collCheck id

/-- The segments of units that this member originates. -/
def State.sendOwn (s : State) (c : Coll) : State :=
  (c.plan.filter (fun x => x.src == c.rank)).foldl (fun s x =>
    (List.range x.segs).foldl (fun s k =>
      let us := ((List.range 3).map (fun j => x.lo + 3 * k + j)).filter (fun v => decide (v < x.hi)) |>.map (fun v =>
        let u := c.ownUnit s v
        { u with flags := u.flags ||| b01 c.own })
      x.fwd.foldl (fun s t => s.sendSeg c t x.lo x.hi x.contrib k us) s) s) s

/-- Units of its own contribution that a member stores itself: all with one member, its part of a gather. -/
def Coll.ownStores (c : Coll) : List Nat :=
  match c.kind with
  | 1 | 2 => if c.p = 1 then List.range c.units else []
  | 3 => (List.range c.units).map (fun k => c.rank * c.units + k)
  | 4 => if c.rank = cdRoot c.desc then List.range c.units else []
  | _ => []

/-- One PERMUTE entry is sent in segments of 192 bytes: SEQ and SCALES hold the byte offset at DST, CONTRIB the bytes
(log 21); an entry to the member itself is copied. -/
def State.sendPerm (s : State) (c : Coll) (e : List Byte) : State :=
  let peer := fld e 0 2
  let src := cAddr e 8
  let off := fld e 16 8
  let n := fld e 24 8
  (List.range (ceilDiv n 192)).foldl (fun s k =>
    let m := min 192 (n - 192 * k)
    let o := off + 192 * k
    let bs := s.rdAt c.part (src + 192 * k) m
    let mark := fun j => s.markAt c.part (src + 192 * k + 32 * j) (min 32 (m - 32 * j))
    if peer = c.rank then
      (List.range (ceilDiv m 32)).foldl (fun s j =>
        s.wrAt c.part (cdDst c.desc + o + 32 * j) ((bs.drop (32 * j)).take 32) (mark j)) s
    else
      let marks := (List.range (ceilDiv m 32)).foldl (fun a j => if mark j then a + 2 * 2 ^ j else a) 0
      let last := decide (n ≤ 192 * (k + 1))
      let h : CollHdr := { job := 0, epoch := 0, coll := 0, op := 0, seq := o % 2 ^ 32, scales := o / 2 ^ 32, contrib := m,
                           flags := b01 c.own + 4 * b01 last }
      s.sendColl c peer h bs marks) s

/-- The first PERMUTE entry that exceeds its receiver's RECV_BYTES, as its CLEAR gives (R379). -/
def Coll.permBad (c : Coll) : Option Nat :=
  (List.range (cdElems c.desc)).find? (fun i =>
    let e := cdPerm c.desc i
    let room := if fld e 0 2 = c.rank then cdDstScale c.desc
      else ((c.clears.find? (fun x => x.rank == fld e 0 2)).map (fun x => x.arg * 65536)).getD 0
    decide (room < fld e 16 8 + fld e 24 8))

/-- A REUSE gather needs no traffic: no member's entry is dropped (R375). -/
def Coll.localCopy (c : Coll) : Bool :=
  c.kind == 3 && cdCache c.desc == 2 && c.cache.isSome && c.clears.all (fun x => !bit x.ctl 0)

/-- Copy the kept entry to DST: the element plane, then the scale plane. -/
def State.copyCache (s : State) (c : Coll) : State :=
  match c.cache with
  | none => s
  | some (a, len) =>
    let n := c.p * cdBytes c.desc
    let copy (s : State) (from' dest n : Nat) : State :=
      (List.range (ceilDiv n 64)).foldl (fun s k =>
        let m := min 64 (n - 64 * k)
        s.wrAt c.part (dest + 64 * k) (s.rdAt c.part (from' + 64 * k) m) (s.markAt c.part (from' + 64 * k) m)) s
    copy (copy s a (cdDst c.desc) (min n len)) (a + n) (cdDstScale c.desc) (min (c.p * cdScales c.desc) (len - n))

/-- MODULE.NF_LOG (R370). -/
def State.logNonfinite (s : State) (c : Coll) : State :=
  s.modLog (fun l => { l with nfTensor := BitVec.ofNat 32 (cdTensor c.desc), nfPart := BitVec.ofNat 3 c.part, nfValid := true,
                              nfNan := BitVec.ofNat 32 (min c.nanOut 0xFFFFFFFF),
                              nfInf := BitVec.ofNat 32 (min c.infOut 0xFFFFFFFF) })

/-- The data phase of a COLLECTIVE or RESHARD (R363, R370, R372). -/
def State.dataPhase (s : State) (c : Coll) : State :=
  let s := s.writeHdr c false
  let own := s.ownFlag c
  let reuse := c.localCopy
  let plan := if reuse then [] else s.planFor c c.rank
  let left := (plan.filter (fun x => x.src != c.rank)).foldl (fun a x => a + x.segs) 0
  let c := { c with phase := true, own := own, plan := plan, left := left }
  let s := s.onColl c.id (fun _ => c)
  let s := if own then s.logNonfinite c else s
  if reuse then (s.copyCache c).collCheck c.id
  else
    let s := c.ownStores.foldl (fun s v => s.storeUnit c v (c.ownUnit s v)) s
    if c.kind = 5 then
      match c.permBad with
      | some i =>
        s.collFail c ⟨stParamRange, fieldAt 4 (cdEntries c.desc + 32 * i + 16), 0⟩ (some (stParamRange, c.node c.rank))
      | none => ((List.range (cdElems c.desc)).foldl (fun s i => s.sendPerm c (cdPerm c.desc i)) s).collGo c.id
    else
      let s := if c.kind = 6 then c.others.foldl (fun s r => s.sendColl c r (ctlHdr 5)) s else s
      (s.sendOwn c).collGo c.id

/-! ### KV_RING (R376, R377) -/
def kvTiles (b : List Byte) : Nat := fld b 12 2
def kvSteps (b : List Byte) : Nat := fld b 10 2
def kvBlock (b : List Byte) : Nat := fld b 16 4
def kvDone (b : List Byte) : Nat := bits (fld b 20 4) 0 18
def kvTile (b : List Byte) (i : Nat) : Nat × Nat :=
  let w := fld b (roundUp (64 + 2 * fld b 8 2) 64 + 4 * i) 4
  (bits w 0 11, bits w 11 4)
def kvFields : List (Nat × Nat × Nat) :=
  [(0, 4, 0xFFFFFFFF), (4, 4, 0xFFFFFFFF), (8, 2, 0xFFFF), (10, 2, 0xFFFF), (12, 2, 0xFFFF), (16, 4, 0xFFFFFFFF),
   (20, 4, 0x3FFFF), (24, 4, 0xFFFFFFFF)]
def kvDigest (b : List Byte) : Nat :=
  crc32c (slice b 0 20 ++ slice b 64 (2 * fld b 8 2) ++ slice b (roundUp (64 + 2 * fld b 8 2) 64) (4 * kvTiles b))

/-- The pair of listed tile `i`, and the partition address of its producer range. -/
def State.kvPair (s : State) (c : Coll) (i : Nat) : HalfPair :=
  s.pair (s.physTile c.part (kvTile c.desc i).1) (kvTile c.desc i).2
def State.kvAddr (s : State) (c : Coll) (i : Nat) : Nat :=
  let l := (kvTile c.desc i).1
  tileRegion + l / 144 * 2 ^ 36 + l % 144 * 2 ^ 23 + (s.kvPair c i).base

def Coll.pred (c : Coll) : Nat := (c.rank + c.p - 1) % c.p
def Coll.succ (c : Coll) : Nat := (c.rank + 1) % c.p
/-- Segments of a block on one tile, and over all tiles. -/
def kvSegs (b : List Byte) : Nat := ceilDiv (kvBlock b) 192

/-- Swap `j` has taken effect on every listed tile. -/
def State.kvSwapped (s : State) (c : Coll) (j : Nat) : Bool :=
  (List.range (kvTiles c.desc)).all (fun i => decide (j ≤ ((s.kvPair c i).generation.toNat + 65536 - c.gens.getD i 0) % 65536))

/-- Send block j − 1 from every listed tile's consumer range: SEQ numbers the block's segments tile by tile, CONTRIB
holds the step (log 21). -/
def State.kvSend (s : State) (c : Coll) (j : Nat) : State :=
  let b := c.desc
  let n := kvSegs b
  (List.range (kvTiles b)).foldl (fun s i =>
    let a := s.kvAddr c i + (s.kvPair c i).z
    (List.range n).foldl (fun s k =>
      let m := min 192 (kvBlock b - 192 * k)
      let marks := (List.range 6).foldl (fun x u => if s.markAt c.part (a + 192 * k + 32 * u) (min 32 (m - 32 * u)) then x + 2 * 2 ^ u else x) 0
      let h : CollHdr := { job := 0, epoch := 0, coll := 0, op := 0, seq := i * n + k, contrib := j, flags := 4 * b01 (k + 1 == n) }
      s.sendColl c c.succ h (s.rdAt c.part (a + 192 * k) m) marks) s) s

/-- A KV segment lands in the tile's producer range. -/
def State.kvLand (s : State) (c : Coll) (seq : Nat) (data : List Byte) (marks : Nat) : State :=
  let b := c.desc
  let n := kvSegs b
  let a := s.kvAddr c (seq / n) + 192 * (seq % n)
  let m := min 192 (kvBlock b - 192 * (seq % n))
  (List.range 6).foldl (fun s u =>
    s.wrAt c.part (a + 32 * u) ((data.drop (32 * u)).take (min 32 (m - 32 * u))) (bit marks (u + 1))) s

/-- Whatever of a KV_RING's next step is due. -/
def State.kvGo (s : State) (c : Coll) : State :=
  let b := c.desc
  let steps := kvSteps b
  -- CLEAR j to the predecessor once swap j − 1 has taken effect
  let (s, c) :=
    if c.clearSent < steps ∧ c.clearSent = c.swaps ∧ s.kvSwapped c c.swaps then
      let s := s.sendColl c c.pred (ctlHdr 1 (seq := c.clearSent + 1) (arg := c.digest))
      (s.onColl c.id (fun x => { x with clearSent := x.clearSent + 1 }), { c with clearSent := c.clearSent + 1 })
    else (s, c)
  -- block j − 1 on the successor's CLEAR j
  let (s, c) :=
    if c.sentBlocks < c.clearGot ∧ c.sentBlocks = c.swaps ∧ s.kvSwapped c c.swaps then
      let s := s.kvSend c (c.sentBlocks + 1)
      (s.onColl c.id (fun x => { x with sentBlocks := x.sentBlocks + 1 }), { c with sentBlocks := c.sentBlocks + 1 })
    else (s, c)
  let obj := s.physObj c.part (s.kvPair c 0).swapSync.toNat
  let j := c.swaps + 1
  if c.swaps < steps ∧ c.sentBlocks = j ∧ c.bytesIn = j * (kvTiles b * kvSegs b) ∧
     j * kvTiles b ≤ (s.obj (s.physObj c.part (kvDone b))).value.toNat then
    (s.onColl c.id (fun x => { x with swaps := j })).syncOp obj 3 (kvTiles b)
  else if c.swaps = steps ∧ s.kvSwapped c steps then s.collLeave c [⟨stDone, 0, 0⟩]
  else s

/-! ### Starting (R363, R380) -/

/-- A CLEAR is taken by the collective it names. -/
def State.takeClear (s : State) (id : Nat) (h : CollHdr) : State :=
  s.onColl id (fun c => { c with
    clears := if c.clears.any (fun x => x.rank == h.rank) then c.clears
      else c.clears ++ [⟨h.rank, h.ctl, h.step, h.arg⟩],
    clearGot := if c.op = 0x52 ∧ h.rank = c.succ then max c.clearGot h.seq else c.clearGot })

/-- A CLEAR whose digest is not the member's own; a PERMUTE's CLEAR carries RECV_BYTES instead (R362). -/
def Coll.mismatched (c : Coll) : Bool :=
  !(c.op != 0x52 && c.kind == 5) && c.clears.any (fun x => x.arg != c.digest)

/-- Once every CLEAR is held: the digests are compared, the data phase starts (R363). -/
def State.rendezvous (s : State) (id : Nat) : State :=
  match s.coll id with
  | none => s
  | some c =>
    if c.down.isSome then s.collDown id
    else if !c.started || c.phase || c.clears.length + 1 < c.p then s
    else if c.mismatched then s.collLeave c [⟨stParamRange, fieldAt 4 0, 0⟩]
    else if c.op = 0x52 then s.onColl id (fun c => { c with phase := true })
    else s.dataPhase c

/-- The CLEAR of a member (R363, R375); KV_RING's to its predecessor is that of step 1 (R377). -/
def Coll.clearFor (c : Coll) (r : Nat) : CollHdr :=
  if c.op = 0x52 then ctlHdr 1 (seq := b01 (r == c.pred)) (arg := c.digest)
  else
    let reuse := c.kind == 3 && cdCache c.desc == 2
    let ctl := b01 (reuse && c.cache.isNone) + 2 * b01 (reuse && c.cache.isSome)
    ctlHdr 1 (ctl := ctl) (arg := if c.kind = 5 then ceilDiv (cdDstScale c.desc) 65536 else c.digest)

/-- A stale frame is counted (R381). -/
def State.countStale (s : State) (e : Nat) : State :=
  s.modMod (fun m => { m with staleCount := BitVec.ofNat 32 (satAdd 32 m.staleCount.toNat 1), staleEpoch := BitVec.ofNat 32 e })

/-- The start: the epoch advances for a RESHARD, CLEAR goes to every other member, CLEARs that came early are taken. -/
def State.startColl (s : State) (c : Coll) : State :=
  let p := c.part
  let s := s.startAt c.q c.id s.mclk
  let s :=
    if c.op = 0x51 then
      let s := s.onJob p c.job (fun j => { j with epoch := c.newEpoch })
      let old := (s.part p).clears.filter (fun t =>
        let h := decodeColl t.data; h.job == c.job && decide (h.epoch < c.newEpoch))
      let s := s.modPart p (fun x => { x with clears := x.clears.filter (fun t =>
        let h := decodeColl t.data; !(h.job == c.job && decide (h.epoch < c.newEpoch))) })
      old.foldl (fun s t => s.countStale (decodeColl t.data).epoch) s
    else s
  let e := s.jobEpoch p c.job
  let mine (t : Txn) : Bool := let h := decodeColl t.data; h.job == c.job && h.coll == c.collId && h.epoch == e
  let early := (s.part p).clears.filter mine
  let s := s.modPart p (fun x => { x with clears := x.clears.filter (fun t => !mine t) })
  let digest := if c.op = 0x52 then kvDigest c.desc else cdDigest c.desc (if c.op = 0x51 then some c.newEpoch else none)
  let gens := if c.op = 0x52 then (List.range (kvTiles c.desc)).map (fun i => (s.kvPair c i).generation.toNat) else []
  let c := { c with started := true, epoch := e, digest := digest, gens := gens, clearSent := b01 (c.op == 0x52) }
  let s := s.onColl c.id (fun _ => c)
  let s := c.others.foldl (fun s r => s.sendColl c r (c.clearFor r)) s
  let s := early.foldl (fun s t => s.takeClear c.id (decodeColl t.data)) s
  s.rendezvous c.id

/-- It may start: a RESHARD after every earlier COLLECTIVE and KV_RING of its job, the others after an earlier RESHARD. -/
def State.mayStart (s : State) (c : Coll) : Bool :=
  !c.started && s.work.colls.all (fun x =>
    !(x.part == c.part && x.job == c.job && decide (x.id < c.id) && (if c.op = 0x51 then x.op != 0x51 else x.op == 0x51)))

/-- Start those that may start, at most `n`. -/
def State.startN (s : State) : Nat → State
  | 0 => s
  | n + 1 =>
    match s.work.colls.find? s.mayStart with
    | some c => (s.startColl c).startN n
    | none => s

/-- The collective awaits a CLEAR, segment or message of member `m` (R382). -/
def State.awaits (s : State) (c : Coll) (m : Nat) : Bool :=
  if m = c.rank ∨ c.p ≤ m ∨ !c.started then false
  else if !c.clears.any (fun x => x.rank == m) then true
  else if c.op = 0x52 then
    (m == c.pred && decide (c.bytesIn < (c.swaps + 1) * (kvTiles c.desc * kvSegs c.desc)) && decide (c.swaps < kvSteps c.desc)) ||
    (m == c.succ && c.clearGot == c.swaps && decide (c.swaps < kvSteps c.desc))
  else if !c.phase then false
  else
    let due := ((c.plan.filter (fun x => x.src == m)).foldl (fun a x => a + x.segs) 0)
    let got := (c.seen.filter (fun (r, _, op) => r == m && op == 0)).length
    let d := (s.roundRings c).getD c.round (1, 1)
    decide (got < due) || (c.kind == 5 && decide (c.bytesIn < cdDstScale c.desc)) ||
      (c.kind == 6 && !c.arrived.contains m) ||
      (c.hasRound && c.bodyDone && decide (c.round < (s.roundRings c).length) && d.next false c.rank == m)

/-- A BARRIER, or a flag round, is what a collective awaits (R384). -/
def Coll.barrierWait (c : Coll) : Bool := c.op == 0x50 && (c.kind == 6 || (c.hasRound && c.bodyDone))

/-- One timer for each member from which a collective awaits a frame, from the time at which the wait begins (R382); the
idle cause of the wait and the ports of those members (R384). -/
def State.collTimers (s : State) : State :=
  s.modWork (fun w => { w with colls := w.colls.map (fun c =>
    let ms := c.others.filter (s.awaits c)
    { c with
      timers := ms.map (fun m => (m, (Tbl.find c.timers m).getD s.clk.live))
      cause := if c.barrierWait then 12 else 11
      ports := ms.foldl (fun l m => match s.route c.part (c.node m) 2 0 0 with
        | .ok (i, _) => setIns l i
        | .error _ => l) [] }) })

/-- Every KV_RING in its data phase takes what is due; then what may start, starts. -/
def State.collsGo (s : State) : State :=
  let s := (s.work.colls.filter (fun c => c.op == 0x52 && c.phase)).foldl (fun s c =>
    match s.coll c.id with | some c => ((s.kvGo c).collDown c.id) | none => s) s
  (s.startN s.work.colls.length).collTimers

end Sys2Proof.Machine
end

