-- ==== Sys2Proof/Machine/Sync.lean ====
section
/-!
DEFINITION. Synchronisation (13 R311 to R319, R327, R328): the operations at an object's home, waits, swap notices,
SIGNAL and WAIT, and the remote requests and responses.
-/
namespace Sys2Proof.Machine

/-- While the module is frozen nothing of the block's own work advances (R197): the row's step does not happen. -/
def State.unlessFrozen (s : State) (f : State → State) : State := if s.frozen then s else f s

/-- The rows that perform one operation at an object's home (R314, R315). -/
def execEventSet (obj : Nat) (s : State) : Host.Outcome State Fault Refusal :=
  .next (s.unlessFrozen (fun s => s.syncOp obj 0x01 0))
def execEventClear (obj : Nat) (s : State) : Host.Outcome State Fault Refusal :=
  .next (s.unlessFrozen (fun s => s.syncOp obj 0x02 0))
def execSemPost (obj n : Nat) (s : State) : Host.Outcome State Fault Refusal :=
  .next (s.unlessFrozen (fun s => s.syncOp obj 0x03 n))
def execSemTry (obj : Nat) (s : State) : Host.Outcome State Fault Refusal :=
  .next (s.unlessFrozen (fun s => s.syncOp obj 0x04 0))
def execCounterAdd (obj v : Nat) (s : State) : Host.Outcome State Fault Refusal :=
  .next (s.unlessFrozen (fun s => (s.syncOp obj 0x05 v).collsGo))
def execCounterSet (obj v : Nat) (s : State) : Host.Outcome State Fault Refusal :=
  .next (s.unlessFrozen (fun s => (s.syncOp obj 0x06 v).collsGo))
def execBarrierArrive (obj : Nat) (s : State) : Host.Outcome State Fault Refusal :=
  .next (s.unlessFrozen (fun s => s.syncOp obj 0x07 0))
def execInitCounter (obj v : Nat) (s : State) : Host.Outcome State Fault Refusal :=
  .next (s.unlessFrozen (fun s => (s.syncOp obj 0x10 v).collsGo))
def execInitSemaphore (obj v : Nat) (s : State) : Host.Outcome State Fault Refusal :=
  .next (s.unlessFrozen (fun s => s.syncOp obj 0x11 v))
def execInitBarrier (obj v : Nat) (s : State) : Host.Outcome State Fault Refusal :=
  .next (s.unlessFrozen (fun s => s.syncOp obj 0x12 v))
def execInitEvent (obj v : Nat) (s : State) : Host.Outcome State Fault Refusal :=
  .next (s.unlessFrozen (fun s => s.syncOp obj 0x13 v))

/-- A waiter without a slot polls its object every 256 nclk: satisfied if its condition holds and no registered taker
waits, registered if a slot is free, otherwise it polls on (R190, R316, R318). -/
def State.poll (s : State) (w : Waiter) : State :=
  let s := s.advance (3 * (w.polled + 256 - s.nclk))
  let o := s.obj w.obj
  if condHolds o w.cond w.gen && s.timePast w && !(w.cond == .code 3 && s.takers w.obj) then
    (s.setObj w.obj (condAct o w.cond)).satisfy w
  else
    let reg := decide (s.slotsUsed (w.obj / 32768) < 8192)
    s.modWork (fun x => { x with waiters := x.waiters.filter (fun u => u.id != w.id) ++
      [{ w with registered := reg, polled := s.nclk }] })

def execWaiterPoll (w : Nat) (s : State) : Host.Outcome State Fault Refusal :=
  .next (s.unlessFrozen (fun s =>
    match s.work.waiters.find? (fun x => x.id == w && !x.registered) with
    | some x => s.poll x
    | none => s))

/-- Swap every enabled SYNC_EN pair of a tile that is bound to the object (R328). -/
def State.swapBound (s : State) (tile obj : Nat) : State :=
  s.modTile tile (fun t => { t with pairs := t.pairs.map (fun (n, h) =>
    (n, if h.enable && h.syncEn && s.physObj (s.partOfTile tile) h.swapSync.toNat == obj then h.swap else h)) })

/-- The next swap notice of a tile takes effect (R328). -/
def execSwapNotice (tile : Nat) (s : State) : Host.Outcome State Fault Refusal :=
  .next (s.unlessFrozen (fun s =>
    match takeFirst (fun (t, _) => t == tile) s.work.notices with
    | some ((_, obj), rest) => (s.modWork (fun w => { w with notices := rest })).swapBound tile obj |>.collsGo
    | none => s))

/-- The pair belongs to a running FUSED_CHAIN (R329): PAIR_OUT of a stage names it. -/
def State.pairInChain (s : State) (tile n : Nat) : Bool :=
  s.work.fused.any (fun f => f.stages.any (fun st =>
    bit (fld st 1 1) 7 && bits (fld st 1 1) 0 4 == n && s.physTile f.part (bits (fld st 2 2) 0 11) == tile))

/-- HALF_SWAP (R327): every pair of the mask swaps, or none. -/
def State.halfSwapBody (s : State) (q id : Nat) (b : List Byte) : Except Earned State :=
  let l := bits (fld b 16 2) 0 11
  let t := s.physTile (s.queue q).part.toNat l
  let ns := (List.range 16).filter (fun n => bit (fld b 20 2) n)
  if ns.any (fun n => !(s.pair t n).enable || (s.pair t n).syncEn || s.pairInChain t n) then
    .error ⟨stConflict, conflictAt 4 l, 0⟩
  else
    let s := s.startAt q id s.mclk
    let s := ns.foldl (fun s n => s.modPair t n HalfPair.swap) s
    .ok (s.finishAt q id (s.mclk + 1) [⟨stDone, 0, 0⟩])

def execHalfSwap (q : Nat) (s : State) : Host.Outcome State Fault Refusal :=
  .next (s.dispatch q 0x33 (fun s id b => s.halfSwapBody q id b))

def execNop (q : Nat) (s : State) : Host.Outcome State Fault Refusal :=
  .next (s.dispatch q 0x01 (fun s id _ => .ok (s.atOnce q id)))

/-- FENCE: no later command is fetched until it has completed (R292). -/
def execFence (q : Nat) (s : State) : Host.Outcome State Fault Refusal :=
  .next (s.dispatch q 0x02 (fun s id _ => .ok ((s.modQw q (fun x => { x with fence := true })).atOnce q id)))

/-- SIGNAL: one operation on a local object, or a SYNC_REQ to the node named (R314, R319). -/
def State.signalBody (s : State) (q id : Nat) (b : List Byte) : State :=
  let p := (s.queue q).part.toNat
  let obj := bits (fld b 16 4) 0 18
  let o := fld b 20 1
  let v := fld b 24 8
  let n := fld b 22 2
  let s := s.startAt q id s.mclk
  if bit n 15 then
    let (t, s) := s.nextTseq p
    let txn : Txn := { type := 3, dest := bits n 0 12, tseq := t, addr := obj + o * 2 ^ 18, data := leBytes 8 v }
    match s.sendTxn p txn with
    | .error d => s.finish q id [⟨stLinkDown, d, 0⟩]
    | .ok s =>
      let r : Remote := { id := id, q := q, part := p, node := bits n 0 12, tseq := t, since := s.clk.live }
      s.modWork (fun w => { w with remotes := w.remotes ++ [r] })
  else (s.syncOp (s.physObj p obj) o v).finish q id [⟨stDone, 0, 0⟩]

def execSignal (q : Nat) (s : State) : Host.Outcome State Fault Refusal :=
  .next (s.dispatch q 0x03 (fun s id b => .ok (s.signalBody q id b))).collsGo

/-- WAIT (R304, R307, R317): COND 0 waits for NOT_BEFORE only; any other condition waits for both. -/
def State.waitBody (s : State) (q id : Nat) (b : List Byte) : State :=
  let s := s.startAt q id s.mclk
  let c := fld b 20 1
  if c = 0 then (if fld b 32 8 ≤ s.sclk then s.finish q id [⟨stDone, 0, 0⟩] else s)
  else s.beginWait id (s.physObj (s.queue q).part.toNat (bits (fld b 16 4) 0 18)) (.command q id) (.cond c (fld b 24 8))

def execWait (q : Nat) (s : State) : Host.Outcome State Fault Refusal :=
  .next (s.dispatch q 0x04 (fun s id b => .ok (s.waitBody q id b)))

/-- The time base reaches an executing WAIT's NOT_BEFORE: a COND 0 wait completes; any other condition is tested
again, its time part released (R317). -/
def State.notBefore (s : State) (q id : Nat) : State :=
  match (s.qw q).executing.find? (fun e => e.id == id && cOp e.bytes == 4) with
  | none => s
  | some e =>
    let s := s.untilRoot (60 * fld e.bytes 32 8)
    if fld e.bytes 20 1 = 0 then s.finish q id [⟨stDone, 0, 0⟩]
    else
      match s.work.waiters.find? (fun w => w.id == id) with
      | some w =>
        if condHolds (s.obj w.obj) w.cond w.gen then (s.setObj w.obj (condAct (s.obj w.obj) w.cond)).satisfy w else s
      | none => s

def execNotBeforeReached (q id : Nat) (s : State) : Host.Outcome State Fault Refusal :=
  .next (s.unlessFrozen (fun s => s.notBefore q id))

/-! ### Delivered transactions -/

/-- The inbox of a virtual channel. -/
def Part.inbox (x : Part) : Nat → List Arrived
  | 0 => x.inReq | 1 => x.inRsp | 2 => x.inColl | _ => x.inMirror
def Part.setInbox (x : Part) (vc : Nat) (l : List Arrived) : Part :=
  match vc with
  | 0 => { x with inReq := l } | 1 => { x with inRsp := l } | 2 => { x with inColl := l } | _ => { x with inMirror := l }

/-- The transaction at the head of a channel's inbox, if it is the kind the row handles: taken, its receive buffer
freed (R341). Nothing is delivered while the module is frozen, the partition's NODE_ID is unwritten or a die of it naps (R26, R197,
R426). -/
def State.deliver (s : State) (p vc : Nat) (is : Txn → Bool) : Option (Txn × State) :=
  if s.frozen || s.mod.changeBusy || (s.part p).nodeHeld || !s.partAwake p then none
  else
    match (s.part p).inbox vc with
    | [] => none
    | a :: rest =>
      if is a.txn then
        let s := s.modPart p (fun x => x.setInbox vc rest)
        let k := vc * 2 + a.cls
        some (a.txn, s.modLink a.port (fun l => { l with freed := Tbl.set 0 l.freed k ((Tbl.get 0 l.freed k + 1) % 4096) }))
      else none

/-- Perform a remote request once per sequence, keeping its result (R319): status 0, 1 DOMAIN_VIOLATION,
2 PARAM_RANGE. -/
def State.remoteOp (s : State) (p : Nat) (t : Txn) : Nat × Nat × State :=
  let id := bits t.addr 0 18
  let op := bits t.addr 18 8
  let v := leNat (t.data.take 8)
  let (r, s) := s.free
  if !s.objOk id then (1, r.toNat, s)
  else if !opListed op || operandBad op v || s.typeBad p id (opType op) then (2, r.toNat, s)
  else (0, r.toNat, s.syncOp (s.physObj p id) op v)

/-- A repeat of the kept sequence returns the kept result without performing the operation again. -/
def State.syncReq (s : State) (p : Nat) (t : Txn) : State :=
  let k := bits t.addr 15 3 * 4096 + t.src
  let reply (s : State) (st v : Nat) : State :=
    s.sendOr p { type := 4, dest := t.src, status := st, tseq := t.tseq, data := leBytes 8 v }
  match Tbl.find (s.part p).rxSeq k with
  | some (sq, st) =>
    if sq = t.tseq then reply s (st % 4) (st / 4)
    else
      let (st, v, s) := s.remoteOp p t
      reply (s.modPart p (fun x => { x with rxSeq := Tbl.put x.rxSeq k (t.tseq, st + 4 * v) })) st v
  | none =>
    let (st, v, s) := s.remoteOp p t
    reply (s.modPart p (fun x => { x with rxSeq := Tbl.put x.rxSeq k (t.tseq, st + 4 * v) })) st v

def execSyncReq (p : Nat) (s : State) : Host.Outcome State Fault Refusal :=
  .next (match s.deliver p 0 (fun t => t.type == 3) with
    | some (t, s) => (s.syncReq p t).collsGo
    | none => s)

/-- The status of a remote SIGNAL's response (R319): STATUS of R343 as a status code with its DETAIL. -/
def remoteStatus (st : Nat) : Earned :=
  if st = 0 then ⟨stDone, 0, 0⟩ else if st = 1 then ⟨stDomain, fieldAt 0 16, 0⟩ else ⟨stParamRange, fieldAt 0 20, 0⟩

def execSyncRsp (p : Nat) (s : State) : Host.Outcome State Fault Refusal :=
  .next (match s.deliver p 1 (fun t => t.type == 4) with
    | some (t, s) =>
      match takeFirst (fun r => r.part == p && r.node == t.src && r.tseq == t.tseq) s.work.remotes with
      | some (r, rest) => (s.modWork (fun w => { w with remotes := rest })).finish r.q r.id [remoteStatus t.status]
      | none => s
    | none => s)

/-- No SYNC_RSP within COLL_TIMEOUT (R319). -/
def execRemoteSignalTimeout (id : Nat) (s : State) : Host.Outcome State Fault Refusal :=
  .next (s.unlessFrozen (fun s =>
    match takeFirst (fun r => r.id == id) s.work.remotes with
    | some (r, rest) =>
      let s := s.untilLive (r.since + usRoot s.mod.collTimeout.toNat)
      (s.modWork (fun w => { w with remotes := rest })).finish r.q r.id [⟨stPeerTimeout, r.node, 0⟩]
    | none => s))

end Sys2Proof.Machine
end

