-- ==== Sys2Proof/Machine/CollRows.lean ====
section
/-!
DEFINITION. The rows of collectives and of remote writes: COLLECTIVE, RESHARD, KV_RING (R356 to R361, R374, R376, R379),
the arriving frames (R345, R362 to R382), the timers (R363, R382), and MODULE.JOB_EPOCH (R357).
-/
namespace Sys2Proof.Machine

/-! ### Commands -/

def collParam (o : Nat) : Earned := ⟨stParamRange, fieldAt 4 o, 0⟩
def collDomain (o : Nat) : Earned := ⟨stDomain, fieldAt 4 o, 0⟩
def collBusy : Earned := ⟨stConflict, conflictAt 1 0, 0⟩

/-- The offset of the first entry of a member list that is reserved or repeated, or of the list if it lacks the own
node (R361). -/
def State.nodesBad (s : State) (p o : Nat) (ns : List Nat) : Option Nat :=
  match (List.range ns.length).find? (fun i => decide (4096 ≤ ns.getD i 0) || (ns.take i).contains (ns.getD i 0)) with
  | some i => some (o + 2 * i)
  | none => if ns.contains (s.part p).node.toNat then none else some o

/-- TORUS needs torus mode and every node of the torus in rank order (R367). -/
def State.torusListOk (s : State) (p : Nat) (ns : List Nat) : Bool :=
  let x := s.part p
  !x.tableMode && ns == (List.range (x.dim 0 * x.dim 1 * x.dim 2)).map (fun r =>
    r % x.dim 0 + 16 * (r / x.dim 0 % x.dim 1) + 256 * (r / (x.dim 0 * x.dim 1)))

def permFields : List (Nat × Nat × Nat) := [(0, 2, 0xFFFF), (8, 8, addr52), (16, 8, all64), (24, 8, all64)]
def cacheFields : List (Nat × Nat × Nat) := [(0, 8, all64), (8, 8, all64), (16, 8, all64), (24, 4, 0xFFFFFFFF)]

/-- The gather cache record (R374): an error, or the kept entry's address and bytes. -/
def State.cacheEntry (s : State) (q : Nat) (b : List Byte) : Except Earned (Option (Nat × Nat)) :=
  let p := (s.queue q).part.toNat
  let a := cdRecord b
  if cdCache b = 0 then .ok none
  else if a % 64 ≠ 0 then .error (collParam 80)
  else if !s.inWindow q a 64 then .error (collDomain 80)
  else
    let r := s.rdAt p a 64
    let n := fld r 24 4
    if (reservedAt cacheFields r 64).isSome ∨ n = 0 ∨ 65536 < n then .error (collParam 80)
    else if n ≤ cdEntry b then .error (collParam 78)
    else if !s.inWindow q (a + 64 + 16 * cdEntry b) 16 then .error (collDomain 80)
    else
      let e := s.rdAt p (a + 64 + 16 * cdEntry b) 16
      if fld r 16 8 < fld e 0 8 + fld e 8 8 then .ok none
      else if !s.inDomain q (fld r 0 8 + fld e 0 8) (fld e 8 8) then .error (collDomain 80)
      else .ok (some (fld r 0 8 + fld e 0 8, fld e 8 8))

/-- The address fields of a descriptor with the bytes they reach (R308, R361); rank `r` issues it. -/
def cdSpans (b : List Byte) (r : Nat) : List (Nat × Nat × Nat) :=
  let n := cdBytes b
  let sc := cdScales b
  let p := cdCount b
  let hdr := (56, cdHdr b, if cdHdr b = 0 then 0 else 32)
  let (rd, wr, wrs) := match cdKind b with
    | 1 => (true, n, sc)
    | 2 => (true, n / p, sc / p)
    | 3 => (true, p * n, p * sc)
    | 4 => (r == cdRoot b, n, sc)
    | _ => (false, 0, 0)
  let src := if rd then [(24, cdSrc b, n), (32, cdSrcScale b, sc)] else []
  let dst := if cdKind b = 5 then [(40, cdDst b, cdDstScale b)] else [(40, cdDst b, wr), (48, cdDstScale b, wrs)]
  src ++ dst ++ [hdr]

/-- The checks of a collective descriptor (R361): the descriptor with its lists, and its cache entry. -/
def State.collDesc (s : State) (q a : Nat) : Except Earned (List Byte × Option (Nat × Nat)) :=
  let p := (s.queue q).part.toNat
  let hd := s.rdAt p a 96
  match cdParam hd with
  | some o => .error (collParam o)
  | none =>
    let perm := cdKind hd == 5
    let total := if perm then cdEntries hd + 32 * cdElems hd else 96 + 2 * cdCount hd
    if !s.inWindow q a total then .error (collDomain 96)
    else
      let b := s.rdAt p a total
      let ns := nodesAt b 96 (cdCount b)
      let entries := if perm then List.range (cdElems b) else []
      match s.nodesBad p 96 ns with
      | some o => .error (collParam o)
      | none =>
        if cdOrder b = 2 ∧ !s.torusListOk p ns then .error (collParam 1)
        else
          match entries.findSome? (fun i =>
            let e := cdPerm b i
            (match reservedAt permFields e 32 with
             | some o => some o
             | none => if cdCount b ≤ fld e 0 2 then some 0 else none).map (fun o => cdEntries b + 32 * i + o)) with
          | some o => .error (collParam o)
          | none =>
            let r := (ns.findIdx (fun x => x == (s.part p).node.toNat))
            match (cdSpans b r).find? (fun (_, x, n) => decide (n ≠ 0) && !s.inDomain q x n) with
            | some (o, _, _) => .error (collDomain o)
            | none =>
              match entries.find? (fun i => !s.inDomain q (cAddr (cdPerm b i) 8) (fld (cdPerm b i) 24 8)) with
              | some i => .error (collDomain (cdEntries b + 32 * i + 8))
              | none => (s.cacheEntry q b).map (fun e => (b, e))

/-- Enter a collective on the partition's list: the job has its entry (R357). -/
def State.addColl (s : State) (q id op : Nat) (b : List Byte) (ns : List Nat) (job coll epoch : Nat)
    (cache : Option (Nat × Nat)) : Except Earned State :=
  let p := (s.queue q).part.toNat
  match s.withJob p job with
  | none => .error collBusy
  | some s =>
    let bank := s.bank (cdBank b)
    let c : Coll := {
      id := id, q := q, part := p, op := op, desc := b, members := ns,
      rank := ns.findIdx (fun x => x == (s.part p).node.toNat), job := job, collId := coll, newEpoch := epoch,
      cache := cache, nanOut := if op = 0x52 ∨ !cdHealth b then 0 else bank.health.getD 1 0,
      infOut := if op = 0x52 ∨ !cdHealth b then 0 else bank.health.getD 2 0 }
    .ok (s.modWork (fun w => { w with colls := w.colls ++ [c] }))

def execCollective (q : Nat) (s : State) : Host.Outcome State Fault Refusal :=
  .next (s.dispatch q 0x50 (fun s id cmd =>
    match s.collDesc q (cAddr cmd 16) with
    | .error e => .error e
    | .ok (b, cache) =>
      if (s.collOf (s.queue q).part.toNat (cdJob b) (cdColl b)).isSome then .error collBusy
      else s.addColl q id 0x50 b (nodesAt b 96 (cdCount b)) (cdJob b) (cdColl b) 0 cache)).collsGo

/-- RESHARD (R379): a PERMUTE under the job's next epoch. -/
def execReshard (q : Nat) (s : State) : Host.Outcome State Fault Refusal :=
  .next (s.dispatch q 0x51 (fun s id cmd =>
    let e := fld cmd 24 4
    match s.collDesc q (cAddr cmd 16) with
    | .error e => .error e
    | .ok (b, _) =>
      if cdKind b ≠ 5 then .error (collParam 0)
      else if e = 0xFFFFFFFF ∨ e ≠ (s.jobEpoch (s.queue q).part.toNat (cdJob b) + 1) % 2 ^ 32 then
        .error ⟨stParamRange, fieldAt 0 24, 0⟩
      else s.addColl q id 0x51 b (nodesAt b 96 (cdCount b)) (cdJob b) (cdColl b) e none)).collsGo

/-- The checks of a KV_RING descriptor (R376): the descriptor with its lists. -/
def State.kvDesc (s : State) (q a : Nat) : Except Earned (List Byte) :=
  let p := (s.queue q).part.toNat
  let hd := s.rdAt p a 64
  let n := fld hd 8 2
  let t := kvTiles hd
  let o := roundUp (64 + 2 * n) 64
  let first (l : List (Bool × Nat)) : Option Nat := (l.find? (fun x => x.1)).map (fun x => x.2)
  match reservedAt kvFields hd 64 <|> first
    [(decide (n < 2) || decide (4096 < n), 8), (kvSteps hd == 0 || decide (n ≤ kvSteps hd), 10),
     (t == 0 || decide (1152 < t), 12),
     (decide (kvBlock hd < 64) || decide (2 ^ 21 < kvBlock hd) || decide (kvBlock hd % 64 ≠ 0), 16)] with
  | some o => .error (collParam o)
  | none =>
    if !s.inWindow q a (o + 4 * t) then .error (collDomain 64)
    else
      let b := s.rdAt p a (o + 4 * t)
      match s.nodesBad p 64 (nodesAt b 64 n) with
      | some o => .error (collParam o)
      | none =>
        let pair (i : Nat) := s.pair (s.physTile p (kvTile b i).1) (kvTile b i).2
        let sync := (pair 0).swapSync.toNat
        let listed (i : Nat) : Bool := decide ((kvTile b i).1 < s.nDies * 144) && s.listed (s.physTile p (kvTile b i).1)
        let bad (i : Nat) : Bool := fld b (o + 4 * i) 4 / 2 ^ 15 != 0 ||
          (listed i && (!(pair i).enable || !(pair i).syncEn || decide ((pair i).z < kvBlock b) ||
            (pair i).swapSync.toNat != sync))
        match (List.range t).find? bad with
        | some i => .error (collParam (o + 4 * i))
        | none =>
          if listed 0 && s.objOk sync && (s.obj (s.physObj p sync)).type != 1 then .error (collParam o)
          else if s.typeBad p (kvDone b) (some 0) then .error (collParam 20)
          else
            match (List.range t).find? (fun i => !listed i) with
            | some i => .error (collDomain (o + 4 * i))
            | none => if s.objOk (kvDone b) then .ok b else .error (collDomain 20)

def execKvRing (q : Nat) (s : State) : Host.Outcome State Fault Refusal :=
  .next (s.dispatch q 0x52 (fun s id cmd =>
    match s.kvDesc q (cAddr cmd 16) with
    | .error e => .error e
    | .ok b =>
      let job := fld b 0 4
      let coll := fld b 4 4
      if (s.collOf (s.queue q).part.toNat job coll).isSome then .error collBusy
      else s.addColl q id 0x52 b (nodesAt b 64 (fld b 8 2)) job coll 0 none)).collsGo

/-! ### Arriving frames -/

/-- Answer a frame of a collective that the partition cannot take: STALE or BUSY. -/
def State.answerColl (s : State) (p : Nat) (t : Txn) (h : CollHdr) (op epoch : Nat) : State :=
  let r : CollHdr := { job := h.job, epoch := epoch, coll := h.coll, seq := h.seq, op := op }
  s.sendOr p { type := 6, dest := t.src, data := r.encode }

/-- Frames of an older epoch, and of the job's last 64 completed collectives, are discarded (R364, R381): none; otherwise
the frame may act. -/
def State.admitColl (s : State) (p : Nat) (t : Txn) (h : CollHdr) : State × Bool :=
  let e := s.jobEpoch p h.job
  if h.epoch < e then
    let s := s.countStale h.epoch
    (if t.type = 6 ∧ (h.op = 2 ∨ h.op = 3) then s else s.answerColl p t h 3 e, false)
  else if (s.job p h.job).any (fun j => j.done.contains h.coll) then
    (s.modMod (fun m => { m with collDup := BitVec.ofNat 32 (satAdd 32 m.collDup.toNat 1) }), false)
  else (s, true)

/-- The identity of a frame (R364); a KV_RING block's carries its step. -/
def CollHdr.ident (h : CollHdr) (seg kv : Bool) : Nat × Nat × Nat :=
  (h.rank, h.seq + (if kv && seg then h.contrib * 2 ^ 32 else 0), if seg then 0 else h.op)

/-- The executing collective of a frame: its timer restarts; a repeat is counted and dropped. -/
def State.collFrame (s : State) (p : Nat) (t : Txn) (f : State → Coll → CollHdr → State) : State :=
  let h := decodeColl t.data
  let (s, ok) := s.admitColl p t h
  if !ok then s
  else
    match s.work.colls.find? (fun c => c.part == p && c.job == h.job && c.collId == h.coll && c.started && c.epoch == h.epoch) with
    | none => s
    | some c =>
      let i := h.ident (t.type == 5) (c.op == 0x52)
      if c.seen.contains i then
        s.modMod (fun m => { m with collDup := BitVec.ofNat 32 (satAdd 32 m.collDup.toNat 1) })
      else
        let sender := c.members.findIdx (fun x => x == t.src)
        let s := s.onColl c.id (fun c => { c with seen := i :: c.seen, timers := Tbl.put c.timers sender s.clk.live })
        match s.coll c.id with
        | some c => (f s c h).collsGo
        | none => s

/-- The payload of a segment as units. -/
def segUnits (t : Txn) (h : CollHdr) (n : Nat) : List CUnit :=
  (List.range n).map (fun j =>
    { scale := bits h.scales (8 * j) 8, bytes := slice t.data (32 + 64 * j) 64,
      flags := h.flags % 4 + 4 * b01 (bit t.poison (1 + 2 * j) || bit t.poison (2 + 2 * j)) })

/-- A segment acts: a block of a KV_RING or bytes of a PERMUTE land; any other is added or stored in its turn, and held
until then. -/
def State.collSeg (s : State) (t : Txn) (c : Coll) (h : CollHdr) : State :=
  if c.op = 0x52 then
    if h.rank = c.pred ∧ h.contrib = c.swaps + 1 ∧ h.seq < kvTiles c.desc * kvSegs c.desc then
      (s.kvLand c h.seq (t.data.drop 32) t.poison).onColl c.id (fun c => { c with bytesIn := c.bytesIn + 1 })
    else s
  else if c.kind = 5 then
    let o := h.seq + h.scales * 2 ^ 32
    if cdDstScale c.desc < o + h.contrib then s
    else
      let s := (List.range (ceilDiv h.contrib 32)).foldl (fun s u =>
        s.wrAt c.part (cdDst c.desc + o + 32 * u) ((t.data.drop (32 + 32 * u)).take (min 32 (h.contrib - 32 * u)))
          (bit t.poison (u + 1))) s
      (s.onColl c.id (fun c => { c with bytesIn := c.bytesIn + h.contrib, flags := c.flags ||| h.flags % 4 })).collGo c.id
  else
    match segOf (s.planFor c c.rank) h.rank h.seq with
    | none => s
    | some (i, k) =>
      (s.onColl c.id (fun c => { c with raw := c.raw ++ [(i, k, segUnits t h 3)] })).collGo c.id

def execCollSeg (p : Nat) (s : State) : Host.Outcome State Fault Refusal :=
  .next (match s.deliver p 2 (fun t => t.type == 5) with
    | some (t, s) => s.collFrame p t (fun s c h => s.collSeg t c h)
    | none => s)

/-- A COLL_CTL frame with an operation. -/
def isCtl (op : Nat) (t : Txn) : Bool := t.type == 6 && (decodeColl t.data).op == op

/-- CLEAR: taken by the executing collective it names, otherwise held pending, up to 8,192 (R363, R381). -/
def State.clearFrame (s : State) (p : Nat) (t : Txn) : State :=
  let h := decodeColl t.data
  let now := s.work.colls.any (fun c => c.part == p && c.job == h.job && c.collId == h.coll && c.started && c.epoch == h.epoch)
  if now then s.collFrame p t (fun s c h => (s.takeClear c.id h).rendezvous c.id)
  else
    let (s, ok) := s.admitColl p t h
    if !ok then s
    else if 8192 ≤ (s.part p).clears.length then s.answerColl p t h 4 h.epoch
    else s.modPart p (fun x => { x with clears := x.clears ++ [t] })

/-- An operation that R362 does not list is discarded. -/
def execClear (p : Nat) (s : State) : Host.Outcome State Fault Refusal :=
  .next (match s.deliver p 2 (fun t => isCtl 1 t || (t.type == 6 && ((decodeColl t.data).op == 0 || decide (6 < (decodeColl t.data).op)))) with
    | some (t, s) => if isCtl 1 t then s.clearFrame p t else s
    | none => s)

/-- ABORT: the status it carries; LINK_DOWN arrives as PEER_TIMEOUT naming the sender (R382). -/
def abortStatus (arg src : Nat) : Earned :=
  let st := bits arg 0 16
  if st = stLinkDown then ⟨stPeerTimeout, src, 0⟩
  else ⟨st, if st = stPeerTimeout then bits arg 16 12 else if st = stParamRange then fieldAt 4 0 else 0, 0⟩

def execAbort (p : Nat) (s : State) : Host.Outcome State Fault Refusal :=
  .next (match s.deliver p 2 (isCtl 2) with
    | some (t, s) => s.collFrame p t (fun s c h => s.collFail c (abortStatus h.arg t.src) none)
    | none => s)

/-- STALE: the collective completes EPOCH_STALE with its own epoch, which the stale frame carried (R305, R381). The answer
carries the receiver's newer epoch. -/
def execStale (p : Nat) (s : State) : Host.Outcome State Fault Refusal :=
  .next (match s.deliver p 2 (isCtl 3) with
    | some (t, s) =>
      let h := decodeColl t.data
      let (s, ok) := s.admitColl p t h
      if !ok then s
      else match s.work.colls.find? (fun c => c.part == p && c.job == h.job && c.collId == h.coll && c.started) with
        | some c => (s.collFail c ⟨stStale, c.epoch, 1⟩ none).collsGo
        | none => s
    | none => s)

/-- BUSY: the CLEAR goes again 10 µs later (R363). -/
def execBusy (p : Nat) (s : State) : Host.Outcome State Fault Refusal :=
  .next (match s.deliver p 2 (isCtl 4) with
    | some (t, s) =>
      let h := decodeColl t.data
      let (s, ok) := s.admitColl p t h
      if !ok then s
      else match s.work.colls.find? (fun c => c.part == p && c.job == h.job && c.collId == h.coll && c.started) with
        | some c =>
          let r := c.members.findIdx (fun x => x == t.src)
          s.onColl c.id (fun c => { c with busy := c.busy ++ [(r, s.clk.root + usRoot 10)],
                                           timers := Tbl.put c.timers r s.clk.live })
        | none => s
    | none => s)

def execClearResend (id member : Nat) (s : State) : Host.Outcome State Fault Refusal :=
  .next (s.unlessFrozen (fun s =>
    match s.coll id with
    | none => s
    | some c =>
      match takeFirst (fun (r, _) => r == member) c.busy with
      | none => s
      | some ((r, due), rest) =>
        let s := (s.untilRoot due).onColl id (fun c => { c with busy := rest })
        ((s.sendColl c r (c.clearFor r)).collDown id).collsGo))

def execArrive (p : Nat) (s : State) : Host.Outcome State Fault Refusal :=
  .next (match s.deliver p 2 (isCtl 5) with
    | some (t, s) => s.collFrame p t (fun s c h =>
        (s.onColl c.id (fun c => { c with arrived := setIns c.arrived h.rank })).collGo c.id)
    | none => s)

def execFlags (p : Nat) (s : State) : Host.Outcome State Fault Refusal :=
  .next (match s.deliver p 2 (isCtl 6) with
    | some (t, s) => s.collFrame p t (fun s c h =>
        (s.onColl c.id (fun c => { c with flagsIn := Tbl.put c.flagsIn h.seq h.flags })).collGo c.id)
    | none => s)

/-- A member's timer expires: PEER_TIMEOUT naming it, ABORT to every other member (R382). -/
def execCollTimeout (id member : Nat) (s : State) : Host.Outcome State Fault Refusal :=
  .next (s.unlessFrozen (fun s =>
    match s.coll id with
    | none => s
    | some c =>
      match Tbl.find c.timers member with
      | some since =>
        let s := s.untilLive (since + usRoot s.mod.collTimeout.toNat)
        let n := c.node member
        (s.collFail c ⟨stPeerTimeout, n, 0⟩ (some (stPeerTimeout, n))).collsGo
      | none => s))

/-! ### Remote writes (R345) -/

/-- Every byte lies in the remote-write window, and in an enabled tile slot or the partition's HBM. -/
def State.remoteOk (s : State) (p a n : Nat) : Bool :=
  let x := s.part p
  decide (x.rxBase.toNat ≤ x.rxLimit.toNat) && decide (x.rxBase.toNat * 4096 ≤ a) &&
  decide (a + n ≤ (x.rxLimit.toNat + 1) * 4096) && decide (a < stagingRegion) &&
  (List.range n).all (fun i => (s.addrKey p (a + i)).isSome)

def execWrite (p : Nat) (s : State) : Host.Outcome State Fault Refusal :=
  .next (match s.deliver p 0 (fun t => t.type == 1) with
    | some (t, s) =>
      let a := bits t.addr 0 52
      let ok := s.remoteOk p a t.data.length
      let s := if ok then
          (List.range (ceilDiv t.data.length 32)).foldl (fun s u =>
            s.wrAt p (a + 32 * u) ((t.data.drop (32 * u)).take 32) (bit t.poison u)) s
        else s
      s.sendOr p { type := 2, dest := t.src, status := b01 (!ok), tseq := t.tseq }
    | none => s)

/-- The module issues no WRITE (no command of R307 does): a response is taken and nothing awaits it. -/
def execWriteRsp (p : Nat) (s : State) : Host.Outcome State Fault Refusal :=
  .next (match s.deliver p 1 (fun t => t.type == 2) with
    | some (_, s) => s
    | none => s)

/-! ### MODULE.JOB_EPOCH (R357) -/

/-- A write of EPOCH for the job that JOB_SEL names. -/
def State.writeJobEpoch (s : State) (v : Nat) : State :=
  let p := s.log.jobPart.toNat
  let j := s.log.jobSel.toNat
  let e := v % 2 ^ 32
  if e = 0xFFFFFFFF ∨ s.work.colls.any (fun c => c.part == p && c.job == j) then s.hostErrOpen 6
  else if s.nParts ≤ p then s.hostErrOpen 4
  else match s.withJob p j with
    | some s => s.onJob p j (fun x => { x with epoch := e })
    | none => s

def execJobEpoch (v : Nat) (s : State) : Host.Outcome State Fault Refusal :=
  .next (if s.modServed then s.writeJobEpoch v else s)

end Sys2Proof.Machine
end

