-- ==== Sys2Proof/Machine/Luts.lean ====
section
/-!
DEFINITION. The LUT stage (spec 05, R133 to R136; special values of R54): Ibketha's tables by their construction, range
reduction, the quadratic of one of 64 segments, reconstruction. The table constants were computed from the
construction of R136 in high precision and rounded RNE to FP32.
-/
namespace Sys2Proof

/-- Ibketha's table of exp2 (0x00): f = 2^u, segments s / 64 (R136): 64 segments of c0, c1, c2 in FP32, little-endian from the lowest bit. -/
def tabExp2 : Nat :=
  0x3ef4a9f53faf88453ffd3e0c3ef207443fada4373ffa83b33eef6bd73fabc5603ff7d0e03eecd79b3fa9ebb23ff5257d3eea4a7b3fa8171e3ff281773ee7c4653fa647963fefe4ba3ee545443fa47d0d3fed4f303ee2cd063fa2b7743feac0c73ee05b973fa0f6bd3fe8396a3eddf0e53f9f3adc3fe5b9073edb8cdd3f9d83c43fe33f8a3ed92f6d3f9bd1663fe0ccdf3ed6d8833f9a23b63fde60f53ed4880c3f987aa63fdbfbb83ed23df73f96d62b3fd99d163ecffa323f9536383fd744fd3ecdbcab3f939abf3fd4f35b3ecb85533f9203b53fd2a81e3ec954173f90710e3fd063343ec728e63f8ee2bd3fce248c3ec503b13f8d58b63fcbec153ec2e4663f8bd2ee3fc9b9be3ec0caf53f8a51593fc78d753ebeb74f3f88d3ec3fc5672a3ebca9623f875a9a3fc346cd3ebaa1203f85e5583fc12c4d3eb89e783f84741c3fbf179a3eb6a15c3f8306da3fbd08a43eb4a9bb3f819d873fbaff5b3eb2b7883f8038193fb8fbaf3eb0cab23f7dad083fb6fd923eaee32c3f7af17d3fb504f33ead00e53f783d7b3fb311c43eab23d13f7590ed3fb123f63ea94be03f72ebbf3faf3b793ea779053f704ddc3fad583f3ea5ab313f6db7313fab7a3a3ea3e2573f6b27a93fa9a15b3ea21e683f689f303fa7cd943ea05f583f661db43fa5fed73e9ea5193f63a3213fa435163e9cef9d3f612f643fa270433e9b3ed73f5ec26a3fa0b0513e9992bb3f5c5c203f9ef5323e97eb3c3f59fc753f9d3eda3e96484c3f57a3553f9b8d3a3e94a9e03f5550ae3f99e0463e930feb3f5304703f9837f03e917a603f50be883f96942d3e8fe9333f4e7ee43f94f4f03e8e5c593f4c45743f935a2b3e8cd3c53f4a12263f91c3d43e8b4f6b3f47e4e93f9031dc3e89cf413f45bdad3f8ea43a3e88533a3f439c623f8d1adf3e86db4b3f4180f63f8b95c23e8567683f3f6b593f8a14d63e83f7873f3d5b7c3f88980f3e828b9d3f3b514f3f871f623e81239e3f394cc13f85aac33e7f7f003f374dc43f843a293e7cbe6f3f3554483f82cd873e7a05763f33603f3f8164d23e7753ff3f3171983f800000

/-- Ibketha's table of log2 (0x01): f = log2 u, segments 1 + s / 64 (R136): 64 segments of c0, c1, c2 in FP32, little-endian from the lowest bit. -/
def tabLog2 : Nat :=
  0xbe3a1e033f3a1dec3f7d1a71be3d124a3f3b980e3f7a2f04be4018b83f3d183d3f773da4be4331e23f3e9e9e3f744636be465e653f402b583f7148a2be499ee23f41be933f6e44cdbe4cf4033f4358783f6b3a9fbe505e783f44f9323f6829fcbe53def93f46a0ed3f6512c7be5776443f484fd63f61f4e5be5b25223f4a061d3f5ed039be5eec623f4bc3f33f5ba4a5be62ccdd3f4d89893f587209be66c7773f4f57143f553848be6add1b3f512ccb3f51f740be6f0ec13f530ae53f4eaed0be735d6c3f54f19b3f4b5ed7be77ca293f56e12c3f480731be7c56133f58d9d33f44a7bbbe8081293f5adbd43f41404fbe82e80d3f5ce76f3f3dd0c8be8560583f5efcec3f3a58ffbe87eab43f611c923f36d8ccbe8a87d33f6346ac3f335005be8d386f3f657b883f2fbe80be8ffd4b3f67bb783f2c2411be92d7353f6a06cf3f28808cbe95c7053f6c5de53f24d3c3be98cd9d3f6ec1153f211d84be9bebec3f7130be3f1d5da0be9f22eb3f73ad433f1993e4bea273a13f76370a3f15c01bbea5df253f78ce7f3f11e20fbea966993f7b74123f0df989bead0b323f7e28373f0a0650beb0ce353f8075b43f060828beb4b0f63f81df113f01fed5beb8b4e03f8350763efbd42cbebcdb6f3f84ca283ef39356bec126383f864c703eeb3aa0bec596e43f87d7983ee2c97ebeca2f363f896bf13eda3f61becef10c3f8b09ce3ed19bb1bed3de613f8cb1843ec8ddd5bed8f94c3f8e63713ec0052cbede44083f901ff23eb7110fbee3c0f03f91e76d3eae00d3bee972863f93ba4b3ea4d3c3beef5b773f9598fa3e9b8927bef57e973f9783ef3e92203ebefbdeed3f997ba43e889840bf013fd93f9b809b3e7de0b8bf04b22a3f9d935a3e6a4f75bf0848413f9fb4713e567af4bf0c04113fa1e4773e426161bf0fe7b53fa4240b3e2e00d4bf13f56a3fa673d53e195752bf182f973fa8d4873e0462c7bf1c98d13fab46dd3dde4218bf2133dc3fadcb9e3db31fbebf2603b23fb0639e3d8759ccbf2b0b853fb30fbd3d35d6a9bf304ec73fb5d0e73cb73cd1bf35d1303fb8a81a3371f3b2

/-- Ibketha's table of reciprocal (0x02): f = 1 / u, segments 1 + s / 64 (R136): 64 segments of c0, c1, c2 in FP32, little-endian from the lowest bit. -/
def tabRecip : Nat :=
  0x3e018367be8204ea3f0102043e049befbe8417533f0208203e07cdeebe8636843f03126e3e0b1a6abe8862e63f0421083e0e827abe8a9ce93f0534083e12073fbe8ce4fe3f064b8a3e15a9eabe8f3b9d3f0767ab3e196bbcbe91a1433f0888883e1d4e05be9416723f09ae403e215226be969bb23f0ad8f33e257994be99318e3f0c08c03e29c5d6be9bd89b3f0d3dcb3e2e3887be9e91733f0e78353e32d359bea15cb53f0fb8243e379814bea43b0a3f10fdbc3e3c889abea72d203f1249243e41a6e5beaa33af3f139a863e46f50dbead4f763f14f2093e4c7546beb0813d3f164fda3e5229e4beb3c9d63f17b4263e58155ebeb72a1d3f191f1a3e5e3a4cbebaa2f63f1a90e83e649b6ebebe35533f1c09c03e6b3baebec1e2303f1d89d83e721e1ebec5aa963f1f11663e794601bec98f9b3f20a0a03e805b66becd92623f2237c33e843a15bed1b41d3f23d70a3e8840febed5f60f3f257eb53e8c7232beda59893f272f053e90cfe0bededfef3f28e83f3e955c5fbee38ab83f2aaaaa3e9a1a26bee85b6e3f2c76913e9f0bdabeed53b03f2e4c413ea43449bef275343f302c0b3ea99670bef7c1c73f3216423eaf357fbefd3b513f340b403eb514ddbf0171ea3f360b603ebb382dbf045eb83f3817023ec1a350bf0765313f3a2e8b3ec85a6ebf0a86863f3c52633ecf61f6bf0dc3f73f3e82f93ed6beacbf111eda3f40c0c03ede75a9bf1498983f430c303ee68c65bf1832af3f4565c83eef08c0bf1beeb53f47ce0c3ef7f10abf1fce5b3f4a45873f00a606bf23d36b3f4ccccc3f05908abf27ffce3f4f64743f0abc01bf2c55893f520d203f102ca9bf30d6c83f54c77a3f15e718bf3585d73f5794353f1bf041bf3a652d3f5a740d3f224d7ebf3f776a3f5d67c83f29049bbf44bf5d3f6070373f301be2bf4a40063f638e383f379a25bf4ffc9d3f66c2b33f3f86cabf55f8963f6a0ea03f47e9e1bf5c37a23f6d73023f50cc30bf62bdbc3f70f0ef3f5a3747bf698f2a3f74898c3f643596bf70b0843f783e0e3f6ed286bf7826bf3f7c0fbf3f7a1a94bf7ff7333f7ffffe

/-- Ibketha's table of rsqrt (0x03): f = u^(−1/2), 32 segments over [1, 2) and 32 over [2, 4) (R136): 64 segments of c0, c1, c2 in FP32, little-endian from the lowest bit. -/
def tabRsqrt : Nat :=
  0x3c43cefbbd830c5d3f01030a3c4bbc3ebd863b303f020c523c541e67bd898b893f031c193c5cfe44bd8cff5e3f0432a53c666575bd9098ce3f05503e3c705e85bd945a1f3f0675313c7af505bd9845c73f07a1d23c831ad5bd9c5e6e3f08d6773c891738bda0a6f43f0a137d3c8f7760bda522763f0b59473c9643cebda9d4583f0ca83f3c9d85efbdaec0453f0e00d43ca5482fbdb3ea3e3f0f63803cad9626bdb956a03f10d0c23cb67cb9bdbf0a2f3f1249243cc00a48bdc50a233f13cd393cca4ee5bdcb5c323f155da13cd55c91bdd206a53f16fb053ce14783bdd910633f18a61e3cee267abde0810c3f1a5fb13cfc1325bde8610c3f1c28953d05954abdf0b9b63f1e01b13d0dc6e1bdf995673f1fec023d16b11ebe017fd33f21e89a3d206970be0682a83f23f8a13d2b0866be0bda673f261d5d3d36aa3abe118f253f2858333d436f81be17a9f93f2aaaa83d517df3be1e352b3f2d166a3d61016fbe253c603f2f9d503d722d32be2cccd43f3241673d829eabbe34f5a63f3504f03d8a7521be39548e3f3673493d901008be3dd4e33f37ea733d95fd99be4284a13f396ace3d9c440cbe47668f3f3af4ba3da2ea30be4c7dab3f3c889f3da9f77abe51cd2d3f3e26eb3db17417be57588f3f3fd0113db96904be5d23933f41848f3dc1e022be63324b3f4344e63dcae459be69891e3f4511a23dd481b2be702cd53f46eb593ddec57bbe7722a33f48d2aa3de9be77be7e70313f4ac83e3df57d09be830dd53f4ccccc3e0109b6be8715e53f4ee1153e07cafcbe8b53fa3f5105ea3e0f0db2be8fcc1e3f533c2c3e16de93be9482c23f5584cc3e1f4beabe997cc93f57e0cd3e2865cfbe9ebf953f5a51483e323e69bea4511c3f5cd76c3e3cea45beaa37f53f5f74813e4880b6beb07b753f6229ea3e551c49beb723c23f64f92c3e62db4dbebe39f63f67e3eb3e71e07dbec5c83f3f6aebf33e8129e3becdda0b3f6e133b3e8a319dbed67c383f715bec3e94221abedfbd4d3f74c8633e9f1a5dbee9adc33f785b3e3eab3ea3bef460523f7c17603eb8b96bbeffea5d3f7ffffb

/-- Ibketha's table of GELU (0x06): f = the standard normal distribution function, segments s / 16 (R136): 64 segments of c0, c1, c2 in FP32, little-endian from the lowest bit. -/
def tabGelu : Nat :=
  0xb99dd1c83932f3c03f7ffd4db9c6ab5d396479143f7ffc82b9f90de2399147a23f7ffb7eba1b757f39b809d13f7ffa35ba4143c939e83a483f7ff894ba6f42a63a11f22b3f7ff688ba937b173a36ba203f7ff3f7bab50d3f3a63e29d3f7ff0c1badd54203a8d8c243f7fecc3bb06b62f3aaf27743f7fe7d0bb234a4e3ad7e4f43f7fe1b4bb45175c3b0489493f7fda30bb6ce0303b2217793f7fd0fabb8dbcb73b4576f13f7fc5bdbba8e47b3b6f9e563f7fb814bbc8625a3b90d1873f7fa789bbecb8693bae5d833f7f9395bc0b37483bd11f193f7f7b9dbc23086a3bf9d3c53f7f5eecbc3e16983c14a5643f7f3cb9bc5ca8763c30328a3f7f141dbc7f02bf3c500a683f7ee413bc92b3393c74ae343f7eab7abca807613c8f53493f7e690dbcbf97683ca741463f7e1b65bcd977983cc26b253f7dc0f7bcf5b5a23ce11caf3f7d5812bd0a2b9f3d01d1353f7cdedebd1aac663d1524343f7c535fbd2c55f43d2aac7c3f7bb372bd3f1b143d428d8a3f7afcd0bd52e7ec3d5ce8673f7a2d10bd67a1783d79dab73f7941a8bd7d25203d8cbee83f7837f5bd89a4363d9df2dc3f770d3dbd94ec713db090123f75beb3bda04e073dc499be3f744981bdaba7e53dda0ef23f72aad1bdb6d55a3df0ea273f70dfd0bdc1ae6e3e04906c3f6ee5bdbdcc085f3e1151943f6cb9f1bdd5b6323e1eadcb3f6a59eabdde896d3e2c97683f67c357bde652de3e3afdcf3f64f425bdece3883e49cd743f61ea88bdf20d923e58efea3f5ea506bdf5a5563e684c093f5b2288bdf782663e77c6243f57625fbdf780a03e83a0233f53644ebdf5812e3e8b4d483f4f2895bdf16b7c3e92d9cb3f4aaff7bdeb2e1a3e9a346a3f45fbbdbde2bf7c3ea14b973f410dbebdd81e903ea80dbb3f3be85bbdcb532d3eae697d3f368e82bdbc6e523eb44e0c3f3103aabdab8a283eb9ab6a3f2b4bcbbd98c9d73ebe72b03f256b5bbd8459163ec296553f1f6741bd5cd7223ec60a713f1944cabd2e78233ec8c4ef3f130999bcfc2df23ecabdc33f0cbb9dbc987e883ecbef123f0660f9bbcc1f123ecc554b3effffef

/-- Ibketha's table of sin and cos (0x07, 0x08): 32 segments of sin, then 32 of cos, each of width π / 128 (R136): 64 segments of c0, c1, c2 in FP32, little-endian from the lowest bit. -/
def tabSincos : Nat :=
  0xbeb739b2bf30884e3f396843bebb8ec7bf2bedcc3f3daefabebfc6f1bf2738c73f41d871bec3e188bf2269f93f45e404bec7ddeabf1d821f3f49d113becbbb7abf1881fb3f4d9f03becf799fbf136a533f514d3ebed317c7bf0e3bef3f54db32bed69561bf08f79d3f584853bed9f1e4bf039e2b3f5b941bbedd2ccbbefc60db3f5ebe06bee04597bef15e763f61c598bee33bcdbee636d83f64aa5abee60efabedaebba3f676bd8bee8beacbecf7ed93f6a09a7beeb4a7abec3f1fa3f6c835fbeedb200beb846e33f6ed89ebeeff4dfbeac7f623f710909bef212bdbea09d473f731448bef40b47be94a2683f74fa0bbef5de2fbe88909d3f76ba08bef78b2cbe78d3853f7853f8bef911febe605f723f79c79ebefa7267be47c8c63f7b14bfbefbac32be2f134b3f7c3b28befcbf2dbe1642d13f7d3aacbefdab2fbdfab6553f7e1324befe7013bdc8c0603f7ec46dbeff0dbbbd96ab753f7f4e6ebeff840ebd48fe9e3f7fb10fbeffd2fabcc90ea43f7fec43befffa73b5065b853f800000beb2c85b3f396aea3f3085babeae3b723f3db1b13f2beb49bea993ac3f41db383f273655bea4d1bf3f45e6da3f226798be9ff6683f49d3f83f1d7fd0be9b02663f4da1f63f187fbfbe95f67d3f51503f3f136829be90d3733f54de403f0e39d9be8b9a153f584b6f3f08f59abe864b303f5b97423f039c3cbe80e7953f5ec13a3efc5d25be76e0323f61c8d73ef15ae7be6bcb293f64ada43ee63372be6091c43f676f2d3edae87ebe5535be3f6a0d053ecf7bc8be49b8d73f6c86c73ec3ef13be3e1cd43f6edc0f3eb84427be3263813f710c813eac7cd1be268eab3f7317c83ea09ae2be1aa0273f74fd933e94a02fbe0e99ca3f76bd963e888e91be027d703f78578d3e78cfc7bdec99ed3f79cb383e605c0ebdd4147e3f7b185e3e47c5bdbdbb6e5b3f7c3ecc3e2f109dbda2ab513f7d3e543e16407ebd89cf313f7e16cf3dfab268bd61bba33f7ec81b3dc8bd2cbd2fb6143f7f521e3d96a8fabcfb2ad93f7fb4c13d48fb1bbc96c2cf3f7feff63cc90a86bbc90e143f8001dab3a55bc0

/-- Word `i` of a table. -/
def tabWord (t i : Nat) : Nat := bits t (32 * i) 32

/-- The value of an FP32 constant. -/
def c32 (w : Nat) : Val := lay32.decode w

/-- The constants of R135. -/
def cL2E : Val := c32 0x3FB8AA3B
def cH : Val := c32 0x3F38AA3B
def cK : Val := c32 0x3ECC422A
def cC2P : Val := c32 0x3F22F983
def cK128 : Val := c32 0x4222F983
def cP128 : Val := c32 0x3CC90FDB
def cA1 : Val := c32 0x3FC90000
def cA2 : Val := c32 0x39FD0000
def cA3 : Val := c32 0x35AA2217
def cOne : Val := .fin false 1 0

/-- An integer as a value. -/
def ofInt (i : Int) : Val := ofUnits false i 0

/-- floor of a finite value. -/
def Val.floor : Val → Int
  | .fin n m e =>
    if 0 ≤ e then units n m e 0
    else if n then -(((m + 2 ^ (-e).toNat - 1) / 2 ^ (-e).toNat : Nat) : Int)
    else ((m / 2 ^ (-e).toNat : Nat) : Int)
  | _ => 0

/-- The integer nearest a finite value, ties to even. -/
def Val.nearest : Val → Int
  | .fin n m e => let k := roundTo .rne 0 m e 0; if n then -(k : Int) else k
  | _ => 0

/-- Multiplication by 2^n, exactly. -/
def Val.scale (v : Val) (n : Int) : Val := match v with | .fin s m e => .fin s m (e + n) | v => v

def mul32 (a b : Val) : Val := r32 (Val.mul a b)
def add32 (a b : Val) : Val := r32 (Val.add a b)

/-- The inner FMA of segment `s` and its operands: t × (inner) + c0, not yet rounded. -/
def quadExact (tab s : Nat) (t : Val) : Val :=
  Val.add (Val.mul t (fma32 t (c32 (tabWord tab (3 * s + 2))) (c32 (tabWord tab (3 * s + 1))))) (c32 (tabWord tab (3 * s)))

/-- p of R135, both FMAs rounded RNE. -/
def quad (tab s : Nat) (t : Val) : Val := r32 (quadExact tab s t)

/-- |x| as m × 2^e with m in [1, 2): the exponent and the mantissa (subnormals normalised). -/
def normalise : Val → Int × Val
  | .fin _ m e => let g := mag2 m e; (g, .fin false m (e - g))
  | v => (0, v)

/-- floor(x) and x − n rounded RNE in FP32; a difference that rounds to 1 counts as the next integer (log 72). -/
def exp2Split (x : Val) : Int × Val :=
  let n := x.floor
  let f := r32 (Val.sub x (ofInt n))
  if Val.lt f cOne then (n, f) else (n + 1, .zero)

/-- 2^u for a finite argument, before the last rounding. -/
def exp2Exact (tab : Nat) (x : Val) : Val :=
  let (n, f) := exp2Split x
  let s := (f.scale 6).floor.toNat
  (quad tab s (Val.sub f ((ofInt s).scale (-6)))).scale n

/-- 1 / x for a finite non-zero argument, before the last rounding. -/
def recipExact (tab : Nat) (x : Val) : Val :=
  let (e, m) := normalise x
  let f := Val.sub m cOne
  let s := (f.scale 6).floor.toNat
  let p := quad tab s (Val.sub f ((ofInt s).scale (-6)))
  let v := fma32 m.negate p cOne
  let y := fma32 p v p
  let r := y.scale (-e)
  if x.neg? then r.negate else r

/-- log2 of a finite positive argument, before the last rounding. -/
def log2Exact (tab : Nat) (x : Val) : Val :=
  let (e, m) := normalise x
  let f := Val.sub m cOne
  let s := (f.scale 6).floor.toNat
  Val.add (ofInt e) (quad tab s (Val.sub f ((ofInt s).scale (-6))))

/-- x^(−1/2) of a finite positive argument, before the last rounding. -/
def rsqrtExact (tab : Nat) (x : Val) : Val :=
  let (g, m0) := normalise x
  let e := g - g % 2
  let m := m0.scale (g % 2)
  let lo := decide (g % 2 = 0)
  let s := if lo then ((Val.sub m cOne).scale 5).floor.toNat else 32 + ((Val.sub m (ofInt 2)).scale 4).floor.toNat
  let start := if lo then Val.add cOne ((ofInt s).scale (-5)) else Val.add (ofInt 2) ((ofInt (s - 32 : Int)).scale (-4))
  let p := quad tab s (Val.sub m start)
  let u := mul32 m p
  let v := fma32 u.negate p cOne
  let y := fma32 (p.scale (-1)) v p
  y.scale (-(e / 2))

/-- exp2* and recip* of R135: Ibketha's tables, RNE throughout, special inputs by R54. -/
def exp2Star (x : Val) : Val :=
  match x with
  | .nan => .nan
  | .inf n => if n then .zero else .inf false
  | .fin _ 0 _ => cOne
  | v => r32 (exp2Exact tabExp2 v)

def recipStar (x : Val) : Val :=
  match x with
  | .nan => .nan
  | .inf n => .fin n 0 0
  | .fin n 0 _ => .inf n
  | v => r32 (recipExact tabRecip v)

/-- The result of a function at a special input of R54; none where it is computed. -/
def lutSpecial (op : Nat) (x : Val) : Option Val :=
  match op, x with
  | _, .nan => some .nan
  | 0, .inf n => some (if n then .zero else .inf false)
  | 0, .fin _ 0 _ => some cOne
  | 1, .inf n => some (if n then .nan else .inf false)
  | 1, .fin _ 0 _ => some (.inf true)
  | 1, .fin true _ _ => some .nan
  | 2, .inf n => some (.fin n 0 0)
  | 2, .fin n 0 _ => some (.inf n)
  | 3, .inf n => some (if n then .nan else .zero)
  | 3, .fin n 0 _ => some (.inf n)
  | 3, .fin true _ _ => some .nan
  | 4, .inf n => some (if n then cOne.negate else cOne)
  | 4, .fin n 0 _ => some (.fin n 0 0)
  | 5, .inf n => some (if n then .zero else cOne)
  | 5, .fin _ 0 _ => some (.fin false 1 (-1))
  | 6, .inf n => some (if n then .fin true 0 0 else .inf false)
  | 6, .fin n 0 _ => some (.fin n 0 0)
  | 7, .inf _ => some .nan
  | 7, .fin n 0 _ => some (.fin n 0 0)
  | 8, .inf _ => some .nan
  | 8, .fin _ 0 _ => some cOne
  | _, _ => none

/-- GELU's Φ(a) for a ≥ 0 (R135). -/
def geluPhi (tab : Nat) (a : Val) : Val :=
  if Val.lt a (ofInt 4) then
    let s := (a.scale 4).floor.toNat
    quad tab s (Val.sub a ((ofInt s).scale (-4)))
  else
    let w := recipStar a
    let z := mul32 w w
    let g := exp2Star (mul32 (mul32 a a) cH).negate
    let t := fma32 (fma32 (ofInt 3) z cOne.negate) z cOne
    add32 cOne (mul32 (mul32 (mul32 g cK) w) t).negate

/-- A result outside [−1, 1] of sin or cos for |x| > 2^16: the spec gives only the interval, so it is an open value in
it (R133, log 71). -/
def openSine (odd : Int) (x v : Val) : Val :=
  if Val.lt (ofInt 65536) x.abs && Val.lt cOne v.abs then
    .fin false ((Config.sine (decide (odd = 1)) (lay32.convert .rne true 0 x).1).toNat) (-16) |> fun u => Val.sub u cOne
  else v

/-- sin (odd = 0) and cos (odd = 1) before the last rounding (R135). -/
def sincosExact (tab : Nat) (odd : Int) (x : Val) : Val :=
  let k := (mul32 x cC2P).nearest
  let nk := ofInt (-k)
  let r := fma32 nk cA3 (fma32 nk cA2 (fma32 nk cA1 x))
  let q := (k + odd) % 4
  let a := r.abs
  let s0 := min 31 (mul32 a cK128).floor.toNat
  let isOdd := decide (q % 2 = 1)
  let s := if isOdd then s0 + 32 else s0
  let p := quadExact tab s (fma32 (ofInt (-(s0 : Int))) cP128 a)
  let p := if !isOdd && r.neg? then p.negate else p
  openSine odd x (if 2 ≤ q then p.negate else p)

/-- i / w rounded RNE to FP32. -/
def quotient32 (i : Nat) : Val → Val
  | .nan => .nan
  | .inf n => .fin n 0 0
  | .fin n m e =>
    if m = 0 then (if i = 0 then .nan else .inf n)
    else
      -- a sticky bit below 64 extra bits stands for the remainder
      let k := i * 2 ^ (64 + Nat.log2 m)
      r32 (.fin n (2 * (k / m) + b01 (k % m != 0)) (-(e + 65 + Nat.log2 m)))

/-- CUSTOM before the last rounding (R134): word 0 is x0, word 1 the inverse segment width w, words 4 on the segments;
index / w, x0 + index / w and t are each rounded RNE. -/
def customExact (tab : Nat) (x : Val) : Val :=
  let x0 := c32 (tabWord tab 0)
  let w := c32 (tabWord tab 1)
  match mul32 (r32 (Val.sub x x0)) w with
  | .nan => .nan
  | .inf n =>
    let s : Nat := if n then 0 else 63
    let t := r32 (Val.sub x (add32 x0 (quotient32 s w)))
    quadExact (tab >>> 128) s t
  | u =>
    let s : Nat := (if u.floor < 0 then 0 else if 63 < u.floor then 63 else u.floor).toNat
    let t := r32 (Val.sub x (add32 x0 (quotient32 s w)))
    quadExact (tab >>> 128) s t

/-- The value of function `op` at a finite input that is not special, before its last rounding (R135). -/
def lutExact (op tab : Nat) (x : Val) : Val :=
  match op with
  | 0 => exp2Exact tab x
  | 1 => log2Exact tab x
  | 2 => recipExact tab x
  | 3 => rsqrtExact tab x
  | 4 =>
    let g := exp2Star (mul32 (x.abs.scale 1) cL2E).negate
    let q := recipStar (add32 cOne g)
    let y := Val.add (Val.mul (g.scale 1).negate q) cOne
    if x.neg? then y.negate else y
  | 5 => recipStar (add32 cOne (exp2Star (mul32 x cL2E).negate))
  | 6 =>
    let phi := geluPhi tab x.abs
    Val.mul x (if x.neg? then add32 cOne phi.negate else phi)
  | 7 => sincosExact tab 0 x
  | 8 => sincosExact tab 1 x
  | _ => customExact tab x

/-- The last rounding of a LUT function in FP32: a finite overflow gives ±Inf (R54). -/
def lutRound (md : Rnd) (r : Nat) (v : Val) : Nat × Health :=
  let e := (lay32.convert .rne true 0 v).1
  if (lay32.decode e).isInf then (e, .zero) else lay32.convert md false r v

/-- The true result of `op` lies below the smallest FP32 subnormal although the composition of R135 ends in an exact
zero: sigmoid of a very negative input, from a × L2E at or above 149; GELU of one, from (a × a) × H at or above 148
(R54, log 72). -/
def lutVanishes (op : Nat) (x : Val) : Bool :=
  x.neg? && ((op == 5 && !(Val.lt (mul32 x.abs cL2E) (ofInt 149))) || (op == 6 && !(Val.lt (mul32 (mul32 x x) cH) (ofInt 148))))

/-- A LUT stage in lane mode 0 on one FP32 lane: the result's bits and counts (R133, R135). -/
def lut32 (op tab : Nat) (md : Rnd) (r : Nat) (x : Val) : Nat × Health :=
  match lutSpecial op x with
  | some v => (lay32.convert .rne true 0 v).1 |> fun w => (w, .zero)
  | none =>
    let v := lutExact op tab x
    let (w, h) := lutRound md r v
    (w, if v.isZero && lutVanishes op x then { h with flush := 1 } else h)

/-- A LUT stage in lane mode 1: evaluated in FP32 with RNE, then rounded once into the lane format (R134). -/
def lut16 (f : Fmt) (op tab : Nat) (md : Rnd) (nonsat : Bool) (r : Nat) (x : Val) : Nat × Health :=
  let (w, h) := lut32 op tab .rne 0 x
  let (u, h') := f.convert md nonsat r (c32 w)
  (u, { h' with flush := max h.flush h'.flush })

end Sys2Proof
end

