-- ==== Sys2Proof/Machine/Products.lean ====
section
/-!
DEFINITION. Products of the arrays (03 R60, R61, R71, R88) and the scalar steps of parameter groups (09 R222, R229, R231).
-/
namespace Sys2Proof.Machine

/-! ### Column sums (R60, R61, R88) -/

/-- A product of a pass; in the cross terms of a split pass an infinite hi times a zero lo is +0 (R42). -/
def cellMul (cross : Bool) (a b : Val) : Val :=
  if cross && ((a.isInf && b.isZero) || (a.isZero && b.isInf)) then .zero else Val.mul a b

/-- The 16-bit class aligns a product to the largest product exponent of its segment, here its unit 2^q (R61). -/
def alignProduct (q : Int) : Val → Val
  | .fin n m e =>
    if q ≤ e then .fin n m e
    else
      let s := (q - e).toNat
      if m % 2 ^ s = 0 then .fin n (m >>> s) q else .fin n (2 * (m >>> s) + 1) (q - 1)
  | v => v

/-- The largest exponent of the non-zero finite products; the exponent of a product is floor(log2) of its magnitude, as
the spec does not define it (DESIGN CHOICE, log 76). -/
def topExp : List Val → Option Int
  | [] => none
  | .fin _ (m + 1) e :: t =>
    match topExp t with
    | none => some (mag2 (m + 1) e)
    | some x => some (max x (mag2 (m + 1) e))
  | _ :: t => topExp t

/-- Products of one K-segment as they enter the sum. -/
def segment (cls : Nat) (ps : List Val) : List Val :=
  if 2 ≤ cls then
    match topExp ps with
    | none => ps
    | some e => ps.map (alignProduct (e - 55))
  else ps

/-- Split a list in pieces of 32. -/
def pieces {α : Type} : Nat → List α → List (List α)
  | 0, _ => []
  | n + 1, l => if l.isEmpty then [] else l.take 32 :: pieces n (l.drop 32)

/-- S of one output element; a masked position has no part in it (R170). -/
def columnSum (cls : Nat) (cross : Bool) (a : List (Option Val)) (b : List Val) : Val :=
  Val.sum (((pieces 2 ((a.zip b).map (fun (x, y) => x.map (fun x => cellMul cross x y)))).map
    (fun l => segment cls (l.filterMap id))).flatten)

/-- The streaming operand's values in a sub-pass of a split pass, and the stationary operand's (R71). -/
def feedValue (fmt sub : Nat) (v : Val) : Val :=
  if fmt = 0x0F then (if sub = 1 then splitLo v else splitHi v) else v
def cellValue (fmt part : Nat) (v : Val) : Val :=
  if fmt = 0x0F then (if part = 0 then splitLo v else splitHi v) else v

/-! ### Scalars in FP32 (R222, R228, R231, R234) -/

def v32 (w : Nat) : Val := lay32.decode w
def sub32 (a b : Val) : Val := r32 (Val.sub a b)

/-- exp2(k × log2 b) through the LUT. -/
def powLut (b : Val) (k : Nat) : Val :=
  let l := v32 (lut32 1 tabLog2 .rne 0 b).1
  v32 (lut32 0 tabExp2 .rne 0 (mul32 (r32 (ofInt (k : Int))) l)).1

/-- A value of unit 2^e below which something is left over (`rest`), rounded RNE. -/
def roundRest (n : Bool) (q : Nat) (e : Int) (rest : Bool) : Val := r32 (.fin n (2 * q + b01 rest) (e - 1))

/-- The quotient, rounded RNE. -/
def div32 : Val → Val → Val
  | .nan, _ => .nan
  | _, .nan => .nan
  | .inf _, .inf _ => .nan
  | .inf a, .fin b _ _ => .inf (a != b)
  | .fin a _ _, .inf b => .fin (a != b) 0 0
  | .fin a m e, .fin b n g =>
    if n = 0 then (if m = 0 then .nan else .inf (a != b))
    else roundRest (a != b) (m * 2 ^ 64 / n) (e - g - 64) (decide (m * 2 ^ 64 % n ≠ 0))

/-- Largest r < 2^n with r² at most q. -/
def floorSqrt (n q : Nat) : Nat :=
  (List.range n).foldr (fun k r => if (r + 2 ^ k) * (r + 2 ^ k) ≤ q then r + 2 ^ k else r) 0

/-- The square root, rounded RNE. -/
def sqrt32 : Val → Val
  | .fin n m e =>
    if m = 0 then .fin n 0 0
    else if n then .nan
    else
      let k : Nat := if e % 2 = 0 then 64 else 65
      let q := m * 2 ^ k
      let r := floorSqrt 64 q
      roundRest false r ((e - k) / 2) (decide (r * r ≠ q))
  | .inf false => .inf false
  | _ => .nan

/-- The inverse of the fourth root as one scalar step, rounded RNE once (R231; DESIGN CHOICE, log 89). -/
def rootFourth : Val → Val
  | .fin n m e =>
    if m = 0 then .inf n
    else if n then .nan
    else
      let k : Nat := 140 + ((-e - 140) % 4).toNat
      let r := floorSqrt 48 (floorSqrt 96 (2 ^ k / m))
      roundRest false r ((-e - k) / 4) (decide (r * r * r * r * m ≠ 2 ^ k))
  | .inf false => .zero
  | _ => .nan

/-! ### Products of an update-assist plane (R229, R231) -/

/-- Values as FP32 words. -/
def bytesOf (l : List Val) : List Byte := l.flatMap (fun v => leBytes 4 (to32 .rne 0 v))

/-- One element of a product: K of at most 16 is one pass in every shape; the tiling of a longer one is the plane's, and
its rounding open. `i`: the element, of the operands with these bytes. -/
def passProduct (a b : List Val) (left right : List Byte) (i : Nat) : Val :=
  if a.length ≤ 16 then r32 (columnSum 2 false (a.map some) b) else v32 (Config.product left right i).toNat

/-- The same in FP32-split passes: three sub-passes, each added with RNE (R71). -/
def splitProduct (a b : List Val) (left right : List Byte) (i : Nat) : Val :=
  if a.length ≤ 16 then
    let sub (k : Nat) : Val :=
      columnSum 3 (decide (k < 2)) (a.map (fun x => some (feedValue 0x0F k x))) (b.map (cellValue 0x0F (if k = 0 then 0 else 1)))
    add32 (add32 (r32 (sub 0)) (sub 1)) (sub 2)
  else v32 (Config.product left right i).toNat

/-- Row i and column j of a d × d matrix. -/
def rowOf (d : Nat) (a : List Val) (i : Nat) : List Val := (a.drop (i * d)).take d
def colOf (d : Nat) (a : List Val) (j : Nat) : List Val := (List.range d).map (fun i => a.getD (i * d + j) .zero)

/-- The product of two d × d matrices in split passes. -/
def squareProduct (d : Nat) (a b : List Val) : List Val :=
  let left := bytesOf a
  let right := bytesOf b
  (List.range (d * d)).map (fun k => splitProduct (rowOf d a (k / d)) (colOf d b (k % d)) left right k)

/-- Element k of a d × d matrix lies on its diagonal. -/
def onDiag (d k : Nat) : Bool := k / d == k % d

/-- One iteration of R231 on X and Z. -/
def rootStep (d : Nat) (xz : List Val × List Val) : List Val × List Val :=
  let (x, z) := xz
  let five : Val := .fin false 5 0
  let t := ((List.range (d * d)).zip z).map (fun (k, v) => mul32 (sub32 (if onDiag d k then five else .zero) v) (.fin false 1 (-2)))
  let t2 := squareProduct d t t
  (squareProduct d x t, squareProduct d (squareProduct d t2 t2) z)

/-- The root of a factor of size d (R231): `b` is BETA2^t. The sum of squares adds one element after another in row-major
order (DESIGN CHOICE, log 89). -/
def rootOf (d : Nat) (f : List Val) (b eps : Val) : List Val :=
  let den := sub32 cOne b
  let a := ((List.range (d * d)).zip f).map (fun (k, v) => add32 (div32 v den) (if onDiag d k then eps else .zero))
  let c := sqrt32 (a.foldl (fun s v => add32 s (mul32 v v)) .zero)
  let x := (List.range (d * d)).map (fun k => mul32 (rootFourth c) (if onDiag d k then cOne else .zero))
  ((List.range 12).foldl (fun xz _ => rootStep d xz) (x, a.map (fun v => div32 v c))).1

end Sys2Proof.Machine
end

