-- ==== Sys2Proof/Machine/Groups.lean ====
section
/-!
DEFINITION. Parameter groups (09 R218 to R221, R226, R227; 08 R208 to R212; 16 R387, R390): the record's fields, where
plane bytes lie, mirrored writes, the record write of a group, and the end of a command on groups.
-/
namespace Sys2Proof.Machine

/-! ### The record (R218) -/

def gStep (r : List Byte) : Nat := fld r 0 8
def gNext (r : List Byte) : Nat := fld r 8 4
def gEpoch (r : List Byte) : Nat := fld r 12 4
def gSparse (r : List Byte) : Bool := bits (fld r 18 1) 0 2 == 1
def gLeft (r : List Byte) : Bool := bit (fld r 18 1) 2
def gRight (r : List Byte) : Bool := bit (fld r 18 1) 3
def gMaster (r : List Byte) : Bool := bit (fld r 18 1) 4
def gFrozen (r : List Byte) : Bool := bit (fld r 18 1) 5
def gRoot (r : List Byte) : Nat := bits (fld r 18 1) 6 1
def gKnots (r : List Byte) : Nat := fld r 19 1
def gRows (r : List Byte) : Nat := fld r 20 4
def gCols (r : List Byte) : Nat := fld r 24 4
def gPitch (r : List Byte) : Nat := fld r 28 4
def gTensor (r : List Byte) : Nat := fld r 60 4
/-- An address field at byte o. -/
def gAddr (r : List Byte) (o : Nat) : Nat := cAddr r o
def oW : Nat := 72
def oM : Nat := 80
def oMScale : Nat := 88
def oHi : Nat := 96
def oLo : Nat := 104
def oL : Nat := 112
def oR : Nat := 120
def oRootL : Nat := 128
def oRootR : Nat := 136
def oSched : Nat := 144
def oMask : Nat := 152
def oRule : Nat := 160
def oAux : Nat := 168
def oAuxScale : Nat := 176
def oGrad : Nat := 184
def oGradScale : Nat := 192
def oHdr : Nat := 200
def oIndex : Nat := 208
def oStamp : Nat := 216

/-- Replace n bytes at o. -/
def putFld (r : List Byte) (o n v : Nat) : List Byte := r.take o ++ leBytes n v ++ r.drop (o + n)

/-! ### Layout (R219 to R221, R233) -/

/-- Element index r × ROW_PITCH + c in the planes, and its parts. -/
def xRow (r : List Byte) (x : Nat) : Nat := x / gPitch r
def xCol (r : List Byte) (x : Nat) : Nat := x % gPitch r
/-- Logical index r × COLS + c. -/
def xLogical (r : List Byte) (x : Nat) : Nat := xRow r x * gCols r + xCol r x
/-- Blocks of R219 per block-row. -/
def blockCols (r : List Byte) : Nat := ceilDiv (gCols r) 1024
def blockRows (r : List Byte) : Nat := ceilDiv (gRows r) 1024
def blockOf (r : List Byte) (x : Nat) : Nat := xRow r x / 1024 * blockCols r + xCol r x / 1024

/-- Bytes of an element plane. -/
def planeBytes (r : List Byte) : Nat := 2 * gRows r * gPitch r
def granules (r : List Byte) : Nat := ceilDiv (planeBytes r) 4096

/-- Where byte 0 of granule g's part of a side plane lies, c bytes per granule, S stacks (R221). -/
def sideAddr (base g c st : Nat) : Nat :=
  let q := g / st
  base + 4096 * (st * (q * c / 4096) + g % st) + q * c % 4096
/-- Scale byte of the 32-element block that holds element x: blocks follow the padded plane of R221, so that one may span
rows where ROW_PITCH is no multiple of 32, against R35 (DESIGN CHOICE, log 92). -/
def scaleOf (base x st : Nat) : Nat := sideAddr base (x / 2048) 64 st + x % 2048 / 32
/-- Elements of a row segment, bytes of stamps per granule, and the stamp of element x (R233). -/
def segLen (r : List Byte) : Nat := min (gPitch r) 2048
def stampBytes (r : List Byte) : Nat := 4 * (2048 / segLen r)
def stampOf (r : List Byte) (x st : Nat) : Nat :=
  sideAddr (gAddr r oStamp) (x / 2048) (stampBytes r) st + x % 2048 / segLen r * 4

/-- Height of block-row i of n rows, elements of the factors before it, and of all. -/
def partLen (n i : Nat) : Nat := min 1024 (n - 1024 * i)
def factorElems (n : Nat) : Nat := (List.range (ceilDiv n 1024)).foldl (fun a i => a + partLen n i * partLen n i) 0

/-- Write bytes at partition addresses, each with its mark, in one write. -/
def State.wrCells (s : State) (p : Nat) (l : List (Nat × Byte × Bool)) : State :=
  s.store (l.filterMap (fun (a, b, m) => (s.addrKey p a).map (fun k => (k, b, m))))

/-! ### Mirrored writes (R387, R389, R390) -/

/-- Mode of a PAIRED partition; 0 mirrors nothing. -/
def State.mirrorMode (s : State) (p : Nat) : Nat := let x := (s.part p).pair; if x.st = 2 then x.mode else 0

/-- Send one mirror transaction of a kind (R389). -/
def State.mirrorTxn (s : State) (p group kind addr : Nat) (data : List Byte) (poison : Nat := 0) : State :=
  let t : Txn := { type := 7, dest := (s.part p).pair.partner, tseq := group % 65536, poison := poison,
                   addr := addr % 2 ^ 52 + kind * 2 ^ 52, data := data }
  (s.modPart p (fun x => { x with pair := { x.pair with tx := x.pair.tx + BitVec.ofNat 64 data.length } })).sendOr p t

/-- Send bytes of the primary range as plane frames of at most seven data units: the number sent. -/
def State.mirrorBytes (s : State) (p group kind a : Nat) (bs : List Byte) (mark : Nat → Bool) : Nat → Nat × State
  | 0 => (0, s)
  | n + 1 =>
    if bs.isEmpty then (0, s)
    else
      let d := bs.take 224
      let poison := (List.range 7).foldl (fun m i => if 32 * i < d.length ∧ mark (a + 32 * i) then m + 2 ^ i else m) 0
      let s := s.mirrorTxn p group kind a d poison
      let (k, s) := s.mirrorBytes p group kind (a + 224) (bs.drop 224) mark n
      (k + 1, s)

/-- Runs of consecutive numbers in a rising list: first, count. -/
def runsOf : List Nat → List (Nat × Nat)
  | [] => []
  | x :: t => match runsOf t with
    | (y, n) :: r => if y = x + 1 then (x, n + 1) :: r else (x, 1) :: (y, n) :: r
    | [] => [(x, 1)]

/-- Send the 32-byte units that hold the addresses, as they now stand. -/
def State.mirrorUnits (s : State) (p group : Nat) (addrs : List Nat) : Nat × State :=
  let us := addrs.foldl (fun l a => setIns l (a / 32)) []
  (runsOf us).foldl (fun (k, s) (u, n) =>
    let (j, s') := s.mirrorBytes p group 0 (32 * u) (s.rdAt p (32 * u) (32 * n)) (fun a => s.markAt p a 32) n
    (k + j, s')) (0, s)

/-! ### Commands on groups -/

def State.onUpd (s : State) (id : Nat) (f : Update → Update) : State :=
  s.modWork (fun w => { w with updates := updWhere (fun u => u.id == id) f w.updates })
def State.upd (s : State) (id : Nat) : Option Update := s.work.updates.find? (fun u => u.id == id)
def State.onGroup (s : State) (id index : Nat) (f : GroupWork → GroupWork) : State :=
  s.onUpd id (fun u => { u with groups := updWhere (fun g => g.index == index) f u.groups })

/-- Address of a group's record (R215). -/
def Update.recAt (u : Update) (g : Nat) : Nat := u.table + 256 * g

/-- The 8-byte fields of a record that a mask names, in one write: the others are not written (R237, R279). -/
def State.wrRecord (s : State) (p a mask : Nat) (rec : List Byte) : State :=
  s.wrCells p (((List.range 256).filter (fun i => bit mask (i / 8))).map (fun i => (a + i, rec.getD i 0, false)))

/-- Close a group with the record given: written at once, or sent last to the partner and written on its
acknowledgement (R226, R390). -/
def State.closeGroup (s : State) (u : Update) (g : GroupWork) (rec : List Byte) : State :=
  let mode := s.mirrorMode u.part
  let a := u.recAt g.index
  if mode = 0 ∨ (mode = 1 ∧ g.frames = 0) then
    (s.wrRecord u.part a g.mask rec).onGroup u.id g.index (fun g => { g with written := true })
  else
    let units := (List.range 8).filter (fun i => decide (bits g.mask (4 * i) 4 ≠ 0))
    let (k, s) := if mode = 2 then (runsOf units).foldl (fun (k, s) (i, n) =>
        let (j, s') := s.mirrorBytes u.part g.index 0 (a + 32 * i) (slice rec (32 * i) (32 * n)) (fun _ => false) 2
        (k + j, s')) (0, s)
      else (0, s)
    let s := s.mirrorTxn u.part g.index 1 (g.frames + k) []
    s.onGroup u.id g.index (fun g => { g with written := true, acked := false, frames := g.frames + k, due := rec })

/-- The partner's acknowledgement, or the end of mirroring: the record is written (R390, R395). -/
def State.ackGroup (s : State) (u : Update) (g : GroupWork) : State :=
  (s.wrRecord u.part (u.recAt g.index) g.mask g.due).onGroup u.id g.index (fun g => { g with acked := true, due := [] })

/-! ### The gradient-scale record (R208, R211) -/

/-- FP32 bits of 2^e for a signed exponent. -/
def pow2Bits (e : Int) : Nat := to32 .rne 0 (.fin false 1 e)

/-- The record after the step; none where it stays. -/
def scaleNext (r : List Byte) (step : Nat) (skipped : Bool) : Option (List Byte) :=
  if fld r 24 8 = step then none
  else
    let e := signed 8 (fld r 8 1)
    let lo := signed 8 (fld r 9 1)
    let hi := signed 8 (fld r 10 1)
    let dyn := bit (fld r 11 1) 0
    let good := (fld r 16 4 + 1) % 2 ^ 32
    let (e, good, skips, st) :=
      if skipped then (if dyn then max lo (e - 1) else e, 0, satAdd 32 (fld r 20 4) 1, stNonfinite)
      else if dyn && decide (fld r 12 4 ≤ good) then (min hi (e + 1), 0, fld r 20 4, stDone)
      else (e, good, fld r 20 4, stDone)
    some (leBytes 4 (pow2Bits e) ++ leBytes 4 (pow2Bits (-e)) ++ leBytes 1 (unsigned 8 e) ++ slice r 9 7 ++
      leBytes 4 good ++ leBytes 4 skips ++ leBytes 8 step ++ leBytes 2 st ++ slice r 34 30)

/-! ### Roots (R231, R232) -/

/-- The sides of a group: factor plane, root slots, length. -/
def gSides (r : List Byte) : List (Nat × Nat × Nat) :=
  (if gLeft r then [(oL, oRootL, gRows r)] else []) ++ (if gRight r then [(oR, oRootR, gCols r)] else [])

/-- The new roots of one side of a group, factor by factor, each with the mark of its factor (R219, R231, R239): address,
byte, mark. -/
def State.newRoots (s : State) (p : Nat) (r : List Byte) (oF oRoot len : Nat) : List (Nat × Byte × Bool) :=
  let slot := gAddr r oRoot + (1 - gRoot r) * (4 * factorElems len)
  let b := powLut (v32 (fld r 44 4)) (gStep r)
  (List.range (ceilDiv len 1024)).flatMap (fun i =>
    let d := partLen len i
    let o := 4 * i * 2 ^ 20
    let fs := s.rdAt p (gAddr r oF + o) (4 * d * d)
    let m := s.markAt p (gAddr r oF + o) (4 * d * d)
    let bs := bytesOf (rootOf d ((List.range (d * d)).map (fun k => v32 (fld fs (4 * k) 4))) b (v32 (fld r 48 4)))
    ((List.range bs.length).zip bs).map (fun (k, x) => (slot + o + k, x, m)))

/-- Refresh a due group once its plane has run (R231, R232). -/
def State.refreshGroup (s : State) (u : Update) (g : GroupWork) : State :=
  let p := u.part
  let r := s.rdAt p (u.recAt g.index) 256
  let cells := (gSides r).flatMap (fun (oF, oRoot, len) => s.newRoots p r oF oRoot len)
  let bs := cells.map (fun c => c.2.1)
  let bad := (List.range (bs.length / 4)).any (fun i => match v32 (fld bs (4 * i) 4) with | .fin _ _ _ => false | _ => true)
  let mark := cells.any (fun c => c.2.2)
  let touched := cells.map Prod.fst
  let s := s.wrCells p cells
  let (k, s) := if s.mirrorMode p = 2 then s.mirrorUnits p g.index touched else (0, s)
  let r' := if bad then putFld r 16 2 stNonfinite
    else
      let kind := setBits (fld r 18 1) 6 1 (1 - gRoot r)
      putFld (putFld (putFld r 18 1 kind) 64 8 (gStep r)) 16 2 (if mark then stPoison else stDone)
  let s := s.onGroup u.id g.index (fun g => { g with poison := mark, frames := g.frames + k })
  s.closeGroup u { g with frames := g.frames + k } r'

/-- Every due group of a ROOT_REFRESH whose plane has run its body. -/
def State.refreshAll (s : State) (id : Nat) : State :=
  match s.upd id with
  | none => s
  | some u => (u.groups.filter (fun g => g.cls == 6 && !g.written)).foldl (fun s g => s.refreshGroup u g) s

/-! ### The end of a command on groups (R211, R227, R238) -/

/-- Indices of a command's groups of a class, or marked poisoned. -/
def Update.ofClass (u : Update) (c : Nat) : List Nat := (u.groups.filter (fun g => g.cls == c)).map (fun g => g.index)
def Update.poisoned (u : Update) : List Nat :=
  (u.groups.filter (fun g => g.cls == 4 || g.poison)).map (fun g => g.index)

/-- A status over a set of groups: the lowest, and the count. -/
def groupStatus (c : Nat) (l : List Nat) : List Earned :=
  match l with
  | [] => []
  | x :: t => [⟨c, t.foldl min x, min 255 (t.length + 1)⟩]

/-- The statuses of R227. A step that R226 skips has no group left to skip where all were before: NONFINITE_SKIP without a
group (R211, R238). -/
def Update.statuses (u : Update) : List Earned :=
  groupStatus stSkew (u.ofClass 2) ++ groupStatus stPoison u.poisoned ++ groupStatus stNonfinite (u.ofClass 3) ++
    (if u.skip then [⟨stNonfinite, 0, 0⟩] else []) ++ [⟨stDone, 0, 0⟩]

/-- A group that the command has still to write. -/
def Update.current (u : Update) : Option GroupWork := u.groups.find? (fun g => (g.cls == 5 || g.cls == 6) && !g.written)

/-- Update engines of a partition show the group in progress (R462). -/
def State.showGroup (s : State) (p : Nat) (g : Option Nat) : State :=
  ((List.range 32).filter (fun k => s.partOfStack k == p)).foldl (fun s k => s.modStack k (fun x =>
    match g with
    | some i => { x with ueBusy := true, ueGroup := BitVec.ofNat 16 i }
    | none => { x with ueBusy := false })) s

/-- The step-end update of the record: written, or sent to the partner. -/
def State.scaleEnd (s : State) (u : Update) : State :=
  match scaleNext (s.rdAt u.part u.record 64) u.step u.skip with
  | none => s.onUpd u.id (fun u => { u with scale := 2 })
  | some r =>
    if s.mirrorMode u.part = 2 then
      let (k, s) := s.mirrorBytes u.part 0 0 u.record r (fun _ => false) 1
      (s.mirrorTxn u.part 0 2 k []).onUpd u.id (fun u => { u with scale := 1, scaleRec := r })
    else (s.wrAt u.part u.record r).onUpd u.id (fun u => { u with scale := 2 })

/-- A group's phases have begun and its record is still to be written. -/
def Update.begun (u : Update) : Bool := u.groups.any (fun g => g.cls == 5 && !g.written && decide (0 < g.aDone))

/-- The command ends once its plane has run, its groups are closed and acknowledged and, for a whole UPDATE_STEP without
a skewed group, the gradient-scale record is updated. A cut falls between groups: one that has begun is finished (R192,
R213). -/
def State.updateCheck (s : State) (id : Nat) : State :=
  match s.upd id with
  | none => s
  | some u =>
    let left := u.current.isSome && (u.begun || !(u.aborted || u.stopping))
    if u.run ≠ 0 ∨ left ∨ u.groups.any (fun g => !g.acked) then s
    else
      let cut := u.current.isSome
      let s := if u.kind = 0 ∧ !cut ∧ (u.ofClass 2).isEmpty ∧ u.scale = 0 then s.scaleEnd u else s
      match s.upd id with
      | none => s
      | some u =>
        if u.scale = 1 then s
        else
          let es := if u.kind = 0 then u.statuses else groupStatus stPoison u.poisoned ++ [⟨stDone, 0, 0⟩]
          let es := if cut && !u.aborted then ⟨stStopped, 0, 0⟩ :: es else es
          let s := if u.kind < 2 then s.cover u.part (s.partUes u.part) (s.covered u.part u.coverAt 0) else s
          let s := s.modWork (fun w => { w with updates := w.updates.filter (fun x => x.id != id) })
          let s := s.traceCmd u.q id (if u.kind < 2 then s.ueSources u.part else []) 0x02 (report es).code
          (s.showGroup u.part none).finish u.q id es (halt := u.kind == 0 && !(u.ofClass 2).isEmpty)

end Sys2Proof.Machine
end

