-- ==== Sys2Proof/Machine/Pairs.lean ====
section
/-!
DEFINITION. Lichen pairs (spec 16, R385 to R396): forming and resync, mirror transactions at the receiving side, step
commit, heartbeats, failover.
-/
namespace Sys2Proof.Machine

def State.onPair (s : State) (p : Nat) (f : Pair → Pair) : State := s.modPart p (fun x => { x with pair := f x.pair })

/-- The ports of a mask. -/
def maskPorts (m : Nat) : List Nat := (List.range 18).filter (fun i => bit m i)

/-- Commands of a partition that execute with opcode `op`: queue and identifier. -/
def State.executingOp (s : State) (p op : Nat) : List (Nat × Exec) :=
  (s.qwork.filter (fun (q, _) => (s.queue q).part.toNat == p)).flatMap (fun (q, x) =>
    (x.executing.filter (fun e => cOp e.bytes == op)).map (fun e => (q, e)))

def State.finishOp (s : State) (p op : Nat) (es : List Earned) : State :=
  (s.executingOp p op).foldl (fun s (q, e) => s.finish q e.id es) s

/-- Send a mirror transaction without a group: FORM, COMMIT (R389). -/
def State.sendPair (s : State) (p kind : Nat) (data : List Byte) : Except Nat State :=
  s.sendTxn p { type := 7, dest := (s.part p).pair.partner, addr := kind * 2 ^ 52, data := data }

/-- The 32 data bytes of FORM and COMMIT: MODE, MIRROR_BYTES, STEP, pair epoch. Bit 8 of MODE marks the survivor of a
failover, which no rule lays out (log 25). -/
def pairData (mode bytes step epoch : Nat) (survivor : Bool) : List Byte :=
  leBytes 8 (mode + 256 * b01 survivor) ++ leBytes 8 bytes ++ leBytes 8 step ++ leBytes 8 epoch

/-! ### Failover (R394, R395) -/

/-- Groups awaiting an acknowledgement, and the record, are written at once: mirroring has stopped. -/
def State.ackAll (s : State) (p : Nat) : State :=
  (s.work.updates.filter (fun u => u.part == p)).foldl (fun s u =>
    let s := (u.groups.filter (fun g => !g.acked)).foldl (fun s g => s.ackGroup u g) s
    let s := if u.scale = 1 then (s.wrAt p u.record u.scaleRec).onUpd u.id (fun u => { u with scale := 2 }) else s
    s.updateCheck u.id) s

/-- A PAIRED member enters failover. -/
def State.failover (s : State) (p cause : Nat) : State :=
  let x := (s.part p).pair
  if x.st ≠ 2 then s
  else
    let s := s.modPart p (fun y => { y with
      st := if y.st = 1 then 6 else y.st,
      pair := { y.pair with st := 4, failCause := BitVec.ofNat 3 cause, landed := [], unacked := [], partnerCommit := none,
                            partnerForm := none } })
    let s := (s.event 5).ackAll p
    s.finishOp p 0x61 [⟨stPeerTimeout, x.partner, 0⟩]

/-! ### Resync (R396) -/

/-- Send `n` bytes from partition address `a` as resync frames, whose ADDR is the sender's address. -/
def State.resyncSend (s : State) (p a n : Nat) : State :=
  (List.range (ceilDiv n 224)).foldl (fun s k =>
    let o := a + 224 * k
    let m := min 224 (n - 224 * k)
    let marks := (List.range 7).foldl (fun x i => if s.markAt p (o + 32 * i) (min 32 (m - 32 * i)) then x + 2 ^ i else x) 0
    let t : Txn := { type := 7, dest := (s.part p).pair.partner, addr := o + 5 * 2 ^ 52, data := s.rdAt p o m, poison := marks }
    s.sendOr p t) s

/-- Resync frames of a partition that no acknowledgement has released. -/
def State.resyncOut (s : State) (p : Nat) : Bool :=
  (maskPorts (s.part p).pair.ports).any (fun i =>
    let l := s.link i
    (l.txq ++ l.unacked).any (fun f => f.txn.type == 7 && bits f.txn.addr 52 4 == 5))

/-- The resync ends once every byte due has come and every frame sent is acknowledged: PAIRED; a survivor leaves
PAIR_FAILOVER. -/
def State.resyncCheck (s : State) (p : Nat) : State :=
  let x := (s.part p).pair
  if x.st = 3 ∧ x.resyncDue ≤ x.resyncGot ∧ !s.resyncOut p then
    let s := s.modPart p (fun y => { y with
      st := if y.st = 6 then 1 else y.st,
      pair := { y.pair with st := 2, before := 0, landed := [], unacked := [], partnerForm := none, partnerCommit := none,
                            lastHb := s.clk.live } })
    let s := (if x.before = 4 then s.event 1 else s).finishOp p 0x60 [⟨stDone, 0, 0⟩]
    -- PAIR_FAIL_N may be low already (R394)
    if s.pins.pairFailN || s.frozen then s else s.failover p 4
  else s

/-- The FORM messages are both present: compare them and begin the resync. A survivor sends both its ranges; its
replacement sends nothing and takes the survivor's epoch and COMMIT_STEP; otherwise each sends its primary range. -/
def State.formMatch (s : State) (p : Nat) : State :=
  let x := (s.part p).pair
  match x.partnerForm with
  | none => s
  | some (mode, bytes, step, epoch) =>
    if x.st ≠ 1 then s
    else if mode % 256 ≠ x.mode ∨ bytes ≠ x.bytes then
      (s.onPair p (fun y => { y with st := y.before, partnerForm := none })).finishOp p 0x60
        [⟨stParamRange, fieldAt 0 16, 0⟩]
    else
      let survivor := x.before == 4
      let replacement := 256 ≤ mode && !survivor
      let due := if survivor then 0 else if replacement then 2 * x.bytes else x.bytes
      let s := s.onPair p (fun y =>
        let y := { y with st := 3, resyncDue := due, resyncGot := 0, resyncSent := 0 }
        if replacement then { y with epoch := BitVec.ofNat 32 epoch, commitStep := BitVec.ofNat 64 step } else y)
      let s := if replacement then s.undefine p 0 x.bytes else s.resyncSend p 0 x.bytes
      let s := if survivor then s.resyncSend p x.base x.bytes else s
      s.resyncCheck p

/-- Resync bytes: from the sender's primary range into the mirror copy, from its mirror copy into the primary range. -/
def State.resyncBytes (s : State) (p : Nat) (t : Txn) : State :=
  let x := (s.part p).pair
  let a := bits t.addr 0 52
  let n := t.data.length
  if x.st ≠ 3 ∨ t.src ≠ x.partner then s
  else
    let dest := if a < x.bytes then x.base + a else a - x.base
    let s := (List.range (ceilDiv n 32)).foldl (fun s i =>
      s.wrAt p (dest + 32 * i) ((t.data.drop (32 * i)).take 32) (bit t.poison i)) s
    (s.onPair p (fun y => { y with resyncGot := y.resyncGot + n })).resyncCheck p

/-! ### Groups (R390) -/

/-- A command's outstanding acknowledgements (R391): update × 65536 + group, and update × 65536 + 65535 … for its
gradient-scale record, under a bit of its own. -/
def State.outstanding (s : State) (p : Nat) : List Nat :=
  (s.work.updates.filter (fun u => u.part == p)).flatMap (fun u =>
    (u.groups.filter (fun g => !g.acked)).map (fun g => 2 * (u.id * 65536 + g.index)) ++
      (if u.scale = 1 then [2 * u.id * 65536 + 1] else []))

/-- Copy landed bytes to the mirror copy, and answer (R390). -/
def State.applyLanded (s : State) (p : Nat) (t : Txn) (kind : Nat) : State :=
  let x := (s.part p).pair
  let (mine, rest) := x.landed.partition (fun (g, _, _, _) => g == t.tseq)
  let ok := mine.length == bits t.addr 0 52
  let s := s.onPair p (fun y => { y with landed := rest })
  let s := if ok then
      mine.foldl (fun s (_, a, bs, poison) =>
        let s := (List.range (ceilDiv bs.length 32)).foldl (fun s i =>
          s.wrAt p (x.base + a + 32 * i) ((bs.drop (32 * i)).take 32) (bit poison i)) s
        s.onPair p (fun y => { y with rx := y.rx + BitVec.ofNat 64 bs.length })) s
    else s
  s.sendOr p { type := 8, dest := x.partner, status := if ok then 0 else 2, tseq := t.tseq, addr := kind * 2 ^ 52 }

/-! ### Step commit (R391) -/

/-- The commit is agreed, or refused on both sides. -/
def State.commitCheck (s : State) (p : Nat) : State :=
  match s.executingOp p 0x61 with
  | [] => s
  | (q, e) :: _ =>
    let x := (s.part p).pair
    let t := fld e.bytes 16 8
    match x.partnerCommit with
    | none => s
    | some u =>
      if u ≠ t then
        (s.onPair p (fun y => { y with partnerCommit := none })).finish q e.id [⟨stConflict, conflictAt 6 0, 0⟩]
      else if !x.unacked.isEmpty then s
      else
        (s.onPair p (fun y => { y with partnerCommit := none, epoch := y.epoch + 1,
                                         commitStep := BitVec.ofNat 64 t })).finish q e.id [⟨stDone, 0, 0⟩]

def execPairCommit (q : Nat) (s : State) : Host.Outcome State Fault Refusal :=
  .next (s.dispatch q 0x61 (fun s id b =>
    let p := (s.queue q).part.toNat
    let x := (s.part p).pair
    let t := fld b 16 8
    if x.st ≠ 2 ∨ t < x.commitStep.toNat then .error ⟨stConflict, conflictAt 6 0, 0⟩
    else
      let s := s.startAt q id s.mclk
      if t = x.commitStep.toNat then .ok (s.finish q id [⟨stDone, 0, 0⟩])
      else match s.sendPair p 4 (pairData x.mode x.bytes t x.epoch.toNat false) with
        | .error d => .ok (s.finish q id [⟨stLinkDown, d, 0⟩])
        | .ok s => .ok ((s.onPair p (fun y => { y with unacked := s.outstanding p })).commitCheck p)))

/-- The partner's acknowledgement of a group, or of the gradient-scale record. STATUS 2 leaves the group unacknowledged:
the spec gives no further step (log 26). -/
def State.mirrorAck (s : State) (p : Nat) (t : Txn) : State :=
  let kind := bits t.addr 52 4
  if t.status ≠ 0 then s
  else
    let mine (u : Update) : Bool := u.part == p &&
      (if kind = 2 then u.scale == 1 else u.groups.any (fun g => g.index == t.tseq && !g.acked))
    match s.work.updates.find? mine with
    | none => s
    | some u =>
      let (key, s) :=
        if kind = 2 then
          (2 * u.id * 65536 + 1, (s.wrAt p u.record u.scaleRec).onUpd u.id (fun u => { u with scale := 2 }))
        else match u.groups.find? (fun g => g.index == t.tseq && !g.acked) with
          | some g => (2 * (u.id * 65536 + g.index), s.ackGroup u g)
          | none => (0, s)
      let s := s.onPair p (fun y => { y with unacked := y.unacked.filter (fun k => k != key) })
      (s.updateCheck u.id).commitCheck p

/-! ### PAIR_CONFIG (R385, R386) -/

/-- The checks of R385: the offset of the field at fault. -/
def State.pairFieldsBad (s : State) (q : Nat) (b : List Byte) : Option Nat :=
  let p := (s.queue q).part.toNat
  let x := s.part p
  let ps := maskPorts (fld b 20 4)
  let base := cAddr b 24
  let n := fld b 32 8
  let land := x.pair.landingMib.toNat * 2 ^ 20
  let inter := s.nStacks * (64 - s.mod.dieLocal.toNat) * 2 ^ 30
  let same (f : Port → Nat) : Bool := ps.all (fun i => f (s.port i) == f (s.port (ps.getD 0 0)))
  if ps.isEmpty ∨ 3 < ps.length ∨ ps.any (fun i => s.partOfPort i != p) ∨
     !(if x.tableMode then true else same (fun y => y.dir.toNat) && (s.port (ps.getD 0 0)).dir != 0) ∨
     !(same (fun y => y.peerNode.toNat)) ∨ ps.any (fun i => !(s.port i).peerValid) then some 20
  else if n = 0 ∨ n % 4096 ≠ 0 then some 32
  else if base < n ∨ inter < base + n + land then some 24
  else if !s.inWindow q 0 n then some 32
  else if !s.inWindow q base (n + land) then some 24
  else none

def State.pairConfig (s : State) (q id : Nat) (b : List Byte) : Except Earned State :=
  let p := (s.queue q).part.toNat
  let mode := fld b 16 1
  if mode = 0 then
    let s := s.startAt q id s.mclk
    let left := (s.part p).st == 6
    let s := s.modPart p (fun y => { y with
      st := if y.st = 6 then 1 else y.st, pair := { y.pair with st := 0, mode := 0, landed := [], unacked := [], partnerForm := none, partnerCommit := none } })
    let s := if left then s.event 1 else s
    .ok ((s.ackAll p).finish q id [⟨stDone, 0, 0⟩])
  else
    match s.pairFieldsBad q b with
    | some o => .error ⟨stParamRange, fieldAt 0 o, 0⟩
    | none =>
      let ps := maskPorts (fld b 20 4)
      let x := (s.part p).pair
      let s := s.startAt q id s.mclk
      let s := s.onPair p (fun y => { y with
        before := if y.st = 1 ∨ y.st = 3 then y.before else y.st, st := 1, mode := mode, ports := fld b 20 4,
        base := cAddr b 24, bytes := fld b 32 8, partner := (s.port (ps.getD 0 0)).peerNode.toNat })
      match s.sendPair p 3 (pairData mode (fld b 32 8) x.commitStep.toNat x.epoch.toNat (x.st == 4)) with
      | .error d => .ok ((s.onPair p (fun y => { y with st := y.before })).finish q id [⟨stLinkDown, d, 0⟩])
      | .ok s => .ok (s.formMatch p)

def execPairConfig (q : Nat) (s : State) : Host.Outcome State Fault Refusal :=
  .next (s.dispatch q 0x60 (fun s id b => s.pairConfig q id b))

/-! ### Arriving mirror transactions -/

/-- A MIRROR_DATA transaction of a kind (R389); kinds 6 to 15 go with kind 0's row and have no effect. -/
def isMirror (kind : Nat) (t : Txn) : Bool := t.type == 7 && bits t.addr 52 4 == kind

def execMirrorData (p : Nat) (s : State) : Host.Outcome State Fault Refusal :=
  .next (match s.deliver p 3 (fun t => isMirror 0 t || (t.type == 7 && decide (5 < bits t.addr 52 4))) with
    | some (t, s) =>
      if isMirror 0 t ∧ (s.part p).pair.st = 2 ∧ t.src = (s.part p).pair.partner then
        s.onPair p (fun y => { y with landed := y.landed ++ [(t.tseq, bits t.addr 0 52, t.data, t.poison)] })
      else s
    | none => s)

def execGroupEnd (p : Nat) (s : State) : Host.Outcome State Fault Refusal :=
  .next (match s.deliver p 3 (isMirror 1) with
    | some (t, s) => if (s.part p).pair.st = 2 ∧ t.src = (s.part p).pair.partner then s.applyLanded p t 1 else s
    | none => s)

def execScaleRecordEnd (p : Nat) (s : State) : Host.Outcome State Fault Refusal :=
  .next (match s.deliver p 3 (isMirror 2) with
    | some (t, s) => if (s.part p).pair.st = 2 ∧ t.src = (s.part p).pair.partner then s.applyLanded p t 2 else s
    | none => s)

def execMirrorAck (p : Nat) (s : State) : Host.Outcome State Fault Refusal :=
  .next (match s.deliver p 3 (fun t => t.type == 8) with
    | some (t, s) => if t.src = (s.part p).pair.partner then s.mirrorAck p t else s
    | none => s)

/-- FORM: kept until this member's own PAIR_CONFIG, then compared. -/
def execForm (p : Nat) (s : State) : Host.Outcome State Fault Refusal :=
  .next (match s.deliver p 3 (isMirror 3) with
    | some (t, s) =>
      let x := (s.part p).pair
      if x.st = 1 ∧ t.src ≠ x.partner then s
      else
        let f := (fld t.data 0 8, fld t.data 8 8, fld t.data 16 8, fld t.data 24 8)
        (s.onPair p (fun y => { y with partnerForm := some f })).formMatch p
    | none => s)

def execCommit (p : Nat) (s : State) : Host.Outcome State Fault Refusal :=
  .next (match s.deliver p 3 (isMirror 4) with
    | some (t, s) =>
      if (s.part p).pair.st = 2 ∧ t.src = (s.part p).pair.partner then
        (s.onPair p (fun y => { y with partnerCommit := some (fld t.data 16 8) })).commitCheck p
      else s
    | none => s)

def execResyncBytes (p : Nat) (s : State) : Host.Outcome State Fault Refusal :=
  .next (match s.deliver p 3 (isMirror 5) with
    | some (t, s) => s.resyncBytes p t
    | none => s)

/-! ### Heartbeats (R393, R394) -/

/-- A heartbeat on a port of the mask restarts the time-out; it may show FAULTED or the end of pairing. While frozen it
only restarts it (R392). -/
def execPairHeartbeat (port node epoch : Nat) (frozen faulted ended : Bool) (s : State) : Host.Outcome State Fault Refusal :=
  .next (
    let p := s.partOfPort port
    let x := (s.part p).pair
    -- the epoch and FROZEN of the message change nothing at the receiver
    let _ := (epoch, frozen)
    if !bit x.ports port || node != x.partner then s
    else
      let s := s.onPair p (fun y => { y with lastHb := s.clk.live })
      if s.frozen then s
      else if faulted then s.failover p 2
      else if ended then s.failover p 3
      else s)

/-- The heartbeat message (R393) in every control slot of the ports of the mask, until superseded (R338): kind 2, the node
identifier and pair epoch, the flags FROZEN, FAULTED and pairing ended. -/
def State.heartbeat (s : State) (p : Nat) : State :=
  let y := s.part p
  let fl := b01 s.frozen + 2 * b01 (y.st == 5 || s.mod.fault) + 4 * b01 (y.pair.st == 0)
  let m := (2, y.node.toNat + y.pair.epoch.toNat * 2 ^ 12, fl)
  (maskPorts y.pair.ports).foldl (fun s i =>
    s.modLink i (fun l => { l with ctl := l.ctl.filter (fun c => c.1 != 2) ++ [m] })) s

/-- Every 200 µs, also while frozen (R393, R197). -/
def execHeartbeatSend (p : Nat) (s : State) : Host.Outcome State Fault Refusal :=
  .next (
    if (s.part p).pair.ports = 0 then s
    else
      let s := s.untilRoot ((s.part p).pair.sentHb + usRoot 200)
      (s.heartbeat p).onPair p (fun y => { y with sentHb := s.clk.root }))

def execHeartbeatTimeout (p : Nat) (s : State) : Host.Outcome State Fault Refusal :=
  .next (s.unlessFrozen (fun s =>
    let x := (s.part p).pair
    if x.st ≠ 2 then s
    else (s.untilLive (x.lastHb + usRoot x.hbTimeout.toNat)).failover p 1))

/-- PAIR_FAIL_N as others drive it, after its filter: low takes every PAIRED partition into failover; while frozen the
level waits for the release. -/
def execPairFailN (low : Bool) (s : State) : Host.Outcome State Fault Refusal :=
  .next (
    let s := s.modPins (fun x => { x with pairFailN := !low })
    if low && !s.frozen then (List.range s.nParts).foldl (fun s p => s.failover p 4) s else s)

end Sys2Proof.Machine
end

