-- ==== Sys2Proof/Machine/Trace.lean ====
section
/-!
DEFINITION. Trace rings and PERF_SNAPSHOT (19 R443, R444, R446 to R449).
-/
namespace Sys2Proof.Machine

def State.modRing (s : State) (p : Nat) (f : TraceRing → TraceRing) : State :=
  s.modPart p (fun x => { x with trace := f x.trace })

/-- Bytes of the ring's data area. -/
def TraceRing.data (r : TraceRing) : Nat := r.bytes - 4096

/-- Rewrite the header; READ_OFFSET (bytes 8 to 15) is the host's (R449). -/
def State.traceHeader (s : State) (p : Nat) : State :=
  let r := (s.part p).trace
  (s.wrAt p r.base (leBytes 8 r.offset)).wrAt p (r.base + 16)
    (leBytes 8 r.lost ++ leBytes 4 r.wraps ++ leBytes 1 (b01 r.wrap))

/-- Write one block of 512 records, or drop it: under POLICY STOP a block that would fill the ring is dropped, and so
is every later one, its records added to LOST (R449). NULL padding is not a record lost. -/
def State.traceBlock (s : State) (p : Nat) (recs : List Nat) : State :=
  let r := (s.part p).trace
  let size := r.data
  let next := (r.offset + 8192) % size
  let full := decide (next = leNat (s.rdAt p (r.base + 8) 8))
  if !r.wrap && (r.stopped || full) then
    (s.modRing p (fun r => { r with stopped := true, lost := r.lost + (recs.filter (· != 0)).length })).traceHeader p
  else
    let s := s.wrAt p (r.base + 4096 + r.offset) ((recs.map (leBytes 16)).flatten)
    (s.modRing p (fun r => { r with offset := next, wraps := r.wraps + b01 (next == 0) })).traceHeader p

/-- Once a half has been written, the first record after space returns is a LOST record with the count (R448). -/
def TraceBuf.resume (b : TraceBuf) (src mclk : Nat) : TraceBuf :=
  if 0 < b.lost then
    ({ b with lost := 0 }).push (mclk + 0x12 * 2 ^ 48 + src * 2 ^ 56 + (b.lost % 2 ^ 32) * 2 ^ 76)
  else b

/-- The partition of a source. -/
def State.partOfSrc (s : State) (src : Nat) : Nat :=
  match src / 0x2000 with
  | 0 => s.partOfTile (src % 0x2000)
  | 1 => s.partOfStack (src % 0x2000)
  | _ => s.partOfPort (src % 0x2000)

/-- The trace DMA writes a source's full half (R448). -/
def State.traceDrain (s : State) (src : Nat) : State :=
  let b := s.traceBuf src
  if b.full.isEmpty then s
  else
    let m := s.mclk
    (s.traceBlock (s.partOfSrc src) b.full).modTrace src (fun b => ({ b with full := [] }).resume src m)

def execTraceBlockWrite (source : Nat) (s : State) : Host.Outcome State Fault Refusal :=
  .next (if s.frozen || !(s.part (s.partOfSrc source)).trace.running then s else s.traceDrain source)

/-- Flush a source: its full half, then its partial half padded with NULL records (R449). -/
def State.traceFlush1 (s : State) (src : Nat) : State :=
  let s := s.traceDrain src
  let b := s.traceBuf src
  if b.half.isEmpty then s
  else
    let recs := b.half ++ List.replicate (512 - b.half.length) 0
    (s.traceBlock (s.partOfSrc src) recs).modTrace src (fun b => { b with half := [] })

def State.traceFlush (s : State) (p : Nat) : State :=
  if (s.part p).trace.running then (s.traceSources p).foldl State.traceFlush1 s else s

def State.traceRecord (s : State) (p : Nat) (on : Bool) : State :=
  (s.traceSources p).foldl (fun s src => s.modTrace src (fun b => { b with recording := on })) s

/-- TRACE_CTL (R449). -/
def State.traceBody (s : State) (q id : Nat) (b : List Byte) : State :=
  let p := (s.queue q).part.toNat
  let s := s.startAt q id s.mclk
  let s := s.traceFlush p
  let s :=
    match fld b 16 1 with
    | 0 => if (s.part p).trace.running then
        (s.traceRecord p false).modRing p (fun r => { r with running := false }) else s
    | 1 =>
      let r : TraceRing := { running := true, base := cAddr b 24, bytes := fld b 32 8, wrap := fld b 17 1 == 1 }
      let s := (s.modRing p (fun _ => r)).wrAt p (cAddr b 24) (List.replicate 4096 0)
      (s.traceHeader p).traceRecord p true
    | _ => s
  s.finish q id [⟨stDone, 0, 0⟩]

def execTraceCtl (q : Nat) (s : State) : Host.Outcome State Fault Refusal :=
  .next (s.dispatch q 0x71 (fun s id b => .ok (s.traceBody q id b)))

/-- PERF_SNAPSHOT: the sample precedes any reset in its START mclk (R440, R444). -/
def State.perfBody (s : State) (q id : Nat) (b : List Byte) : State :=
  let k := fld b 16 1
  let s := s.tally k
  let bytes := (s.sampleOf k s.mclk).snapshot k 0xFFFF s.mclk (cTag b) q 2 snapshotMax
  let s := s.startAt q id s.mclk
  let s := s.wrAt (s.queue q).part.toNat (cAddr b 24) bytes
  let s := if bit (fld b 17 1) 0 then s.resetBank k else s
  s.finish q id [⟨stDone, 0, 0⟩]

def execPerfSnapshot (q : Nat) (s : State) : Host.Outcome State Fault Refusal :=
  .next (s.dispatch q 0x70 (fun s id b => .ok (s.perfBody q id b)))

end Sys2Proof.Machine
end

