-- ==== Sys2Proof/Machine/Links.lean ====
section
/-!
DEFINITION. The link layer and the ports (spec 14, R335 to R355): frames, acknowledgement and replay, credits, routing
of what arrives, port and lane states.
-/
namespace Sys2Proof.Machine

/-- A key of the per-buffer tables: VC × 2 + class (R341). -/
def Frame.buf (f : Frame) : Nat := f.vc * 2 + f.cls

/-! ### Port states (R355) -/

/-- A port takes a state and a width: event bit 3 where the state changes, and a trace record. -/
def State.portTo (s : State) (i st lanes : Nat) : State :=
  let was := (s.port i).st.toNat
  let s := s.modPort i (fun x => { x with st := BitVec.ofNat 3 st, goodLanes := BitVec.ofNat 8 lanes, since := s.clk.root })
  (if was = st then s else s.event 3).traceEv (srcPort i) 0 0x10 8 (st + lanes * 8)

/-- The ports that share a bundle with port `i` (R348, R351). -/
def State.mates (s : State) (i : Nat) : List Nat :=
  let p := s.partOfPort i
  let x := s.part p
  if x.tableMode then
    (s.portsOf p).filter (fun j => j == i || x.routes.any (fun (_, e) => (routePorts e).contains i && (routePorts e).contains j))
  else if (s.port i).useDir = 0 then [i]
  else s.bundle p (s.port i).useDir.toNat

/-! ### Frames that cannot be sent (R350, R355) -/

/-- The command that sent a frame no port can carry completes with LINK_DOWN; a forwarded frame is counted. -/
def State.lostFrame (s : State) (i : Nat) (f : Frame) : State :=
  let p := s.partOfPort i
  let e : Earned := ⟨stLinkDown, i, 0⟩
  let t := f.txn
  if 0 < f.hops then
    s.modPort i (fun x => { x with noRoute := BitVec.ofNat 16 (satAdd 16 x.noRoute.toNat 1) })
  else
    match t.type with
    | 3 =>
      match takeFirst (fun r => r.part == p && r.node == t.dest && r.tseq == t.tseq) s.work.remotes with
      | some (r, rest) => (s.modWork (fun w => { w with remotes := rest })).finish r.q r.id [e]
      | none => s
    | 5 | 6 =>
      let h := decodeColl t.data
      match s.work.colls.find? (fun c => c.part == p && c.job == h.job && c.collId == h.coll && c.started) with
      | some c => (s.collFail c e (some (stLinkDown, c.node c.rank))).collsGo
      | none => s
    | 7 =>
      match bits t.addr 52 4 with
      | 3 | 5 => (s.onPair p (fun y => if y.st = 1 ∨ y.st = 3 then { y with st := y.before } else y)).finishOp p 0x60 [e]
      | 4 => s.finishOp p 0x61 [e]
      | _ => (s.work.updates.filter (fun u => u.part == p)).foldl (fun s u => s.earnOn u.q u.id e) s
    | _ => s

/-- Queue a frame by the present choice of its route: before newer frames, or behind them. -/
def State.reroute (s : State) (i : Nat) (front : Bool) (f : Frame) : State :=
  match s.route (s.partOfPort i) f.txn.dest f.vc f.cls 0 with
  | .error _ => s.lostFrame i f
  | .ok (j, _) => s.modLink j (fun l => { l with txq := if front then f :: l.txq else l.txq ++ [f] })

/-- Unsent frames of the bundle take the new choice (R350). -/
def State.rechoose (s : State) (ports : List Nat) : State :=
  let fs := ports.flatMap (fun j => (s.link j).txq.map (fun f => (j, f)))
  let s := ports.foldl (fun s j => s.modLink j (fun l => { l with txq := [] })) s
  fs.foldl (fun s (j, f) => s.reroute j false f) s

/-- A port stops carrying data: its unacknowledged frames are sent again first, in order, on the new choice (R350). -/
def State.portDown (s : State) (i st lanes : Nat) : State :=
  let was := (s.port i).up
  let s := s.portTo i st lanes
  if !was then s
  else
    let ms := s.mates i
    let old := (s.link i).unacked
    let s := s.modLink i (fun l => { l with unacked := [], replay := [], noProgress := 0, nakSent := false, held := false })
    let s := s.rechoose ms
    old.reverse.foldl (fun s f => s.reroute i true f) s

/-! ### Training (R352, R355) -/

/-- A port begins training: REACH and DIR take effect; lanes not retired train. -/
def State.toTraining (s : State) (i : Nat) : State :=
  let s := s.modPort i (fun x => { x with useReach := x.reach, useDir := x.dir })
  let s := (List.range 8).foldl (fun s j => s.modLane (8 * i + j) (fun x => if x.st = 1 then x else { x with st := 2 })) s
  s.portTo i 1 0

/-- The node that a direction implies (R348). -/
def Part.neighbour (x : Part) (dir : Nat) : Nat :=
  let d := (dir - 1) / 2
  let n := x.dim d
  let c := coord x.node.toNat d
  let c' := if dir % 2 = 1 then (c + 1) % n else (c + n - 1) % n
  x.node.toNat - c * 2 ^ (4 * d) + c' * 2 ^ (4 * d)
def opposite (dir : Nat) : Nat := if dir % 2 = 1 then dir + 1 else dir - 1

/-- Torus mode: the peer is not the implied neighbour, or its DIR is not the opposite (R355). -/
def State.miswired (s : State) (i : Nat) : Bool :=
  let x := s.part (s.partOfPort i)
  let y := s.port i
  let d := y.useDir.toNat
  !x.tableMode && d != 0 && y.peerValid && (x.neighbour d != y.peerNode.toNat || opposite d != y.peerDir.toNat)

/-- A link starts: sequences and credits begin anew at both ends, buffers still occupied excepted (log 27); new frames of
the bundle wait until those already sent are acknowledged (R350). -/
def State.linkUp (s : State) (i : Nat) : State :=
  let p := s.part (s.partOfPort i)
  let stay (k : Nat) : Nat :=
    ((p.inReq ++ p.inRsp ++ p.inColl ++ p.inMirror).filter (fun a =>
      a.port == i && 2 * ((vcOf a.txn.type).getD 0) + a.cls == k)).length + ((s.link i).rxq.filter (fun f => f.buf == k)).length
  let freed := (List.range 8).filterMap (fun k => if stay k = 0 then none else some (k, 4096 - stay k))
  let s := s.modLink i (fun l => { l with txSeq := 0, rxNext := 0, unacked := [], replay := [], noProgress := 0, sent := [],
                                          peerFreed := [], freed := freed, nakSent := false })
  let ms := (s.mates i).filter (fun j => (s.port j).up)
  if ms.any (fun j => !(s.link j).unacked.isEmpty) then ms.foldl (fun s j => s.modLink j (fun l => { l with held := true })) s
  else s.rechoose ms

/-- The width a mask of good lanes gives a port: UP, DEGRADED or DOWN. -/
def State.setWidth (s : State) (i m : Nat) : State :=
  let n := ((List.range 8).filter (fun j => bit m j)).length
  let was := (s.port i).up
  let st := if n = 8 then 2 else if 4 ≤ n then 3 else 4
  if st = 4 then s.portDown i 4 m
  else
    let s := s.portTo i st m
    if was then s else s.linkUp i

/-- The lanes of a port in service. -/
def State.laneMask (s : State) (i : Nat) : Nat :=
  (List.range 8).foldl (fun a j => if (s.lane (8 * i + j)).st = 0 then a + 2 ^ j else a) 0

/-- End of a training attempt: the lanes that trained, and those whose polarity is corrected (R333); at most 100 ms per
attempt. A lane's frame slots are numbered from here (log 94). -/
def execPortTraining (port : Nat) (mask : Trained) (s : State) : Host.Outcome State Fault Refusal :=
  .next (
    if (s.port port).st ≠ 1 then s
    else
      let s := (List.range 8).foldl (fun s j =>
        s.modLane (8 * port + j) (fun x => if x.st = 2 ∧ bit mask.mask j then
          { x with
            st := 0
            inverted := bit mask.inverted j
            slot := 0 }
        else x)) s
      if s.miswired port then s.portTo port 5 (s.laneMask port) else s.setWidth port (s.laneMask port))

/-- RETRAIN_INTERVAL after a port went DOWN (R355). -/
def execRetrainInterval (port : Nat) (s : State) : Host.Outcome State Fault Refusal :=
  .next (
    let x := s.port port
    if x.st = 4 ∧ x.autoRetrain then
      (s.untilRoot (x.since + usRoot (1000 * x.retrainInterval.toNat))).toTraining port
    else s)

/-- ENABLE (R355). -/
def State.portSetEnable (s : State) (i : Nat) (on : Bool) : State :=
  let was := (s.port i).enable
  let s := s.modPort i (fun x => { x with enable := on })
  if on && !was then s.toTraining i
  else if !on && was then s.portDown i 0 0
  else s

def execPortEnable (v : Nat) (s : State) : Host.Outcome State Fault Refusal :=
  .next (if !s.laneServed then s else if s.sel.port.toNat < 18 then s.portSetEnable s.sel.port.toNat (bit v 0) else s.hostErrOpen 3)

/-! ### Lanes (R353, R354) -/

/-- A lane leaves service, both directions; the port names it to the peer in WIDTH_CHANGE (kind 3 of its control messages)
with a codeword the model does not count: a free value. -/
def State.retireLane (s : State) (l : Nat) (tell : Bool) : State :=
  let i := l / 8
  if (s.lane l).st = 1 then s
  else
    let (v, s) := (s.modLane l (fun x => { x with st := 1 })).free
    -- the change completes within 2 µs, in a time the spec leaves open
    let s := s.modLink i (fun k => { k with
      ctl := if tell then k.ctl.filter (fun c => c.1 != 3) ++ [(3, l % 8, v.toNat / 16384)] else k.ctl
      widthUntil := s.clk.root + v.toNat % 12001 })
    if (s.port i).up then s.setWidth i (s.laneMask i) else s

/-- The lane of a port that is wired to a lane of its peer (R333). -/
def State.ownLane (s : State) (i j : Nat) : Nat := if (s.link i).reversed then 7 - j else j

/-- The peer's WIDTH_CHANGE names one of its own lanes (R354). -/
def execWidthChange (port lane codeword : Nat) (s : State) : Host.Outcome State Fault Refusal :=
  .next (
    -- the codeword fixes the instant, at most 2 µs away (R354)
    let _ := codeword
    s.retireLane (8 * port + s.ownLane port lane) false)

/-- One step of a coefficient: the transmit FFE, the CTLE, the receiver's FFE, the DFE. -/
def Lane.equalise (x : Lane) (tap : Nat) (d : Int) : Lane :=
  if tap < 5 then { x with ffe := x.ffe.set tap (x.ffe.getD tap 0 + d) }
  else if tap = 5 then { x with ctle := x.ctle + d }
  else if tap < 22 then { x with rxFfe := x.rxFfe.set (tap - 6) (x.rxFfe.getD (tap - 6) 0 + d) }
  else { x with dfe := x.dfe + d }

/-- One step of one equaliser coefficient, at most one per µs once the lane is in service (R352). -/
def execEqualiserRequest (lane tap : Nat) (up : Bool) (s : State) : Host.Outcome State Fault Refusal :=
  .next (
    let x := s.lane lane
    let last := Tbl.get 0 x.eqAt tap
    if x.st = 0 ∧ 0 < last ∧ s.clk.root + 1 < last + usRoot 1 then s
    else s.modLane lane (fun x => { x.equalise tap (if up then 1 else -1) with eqAt := Tbl.set 0 x.eqAt tap (s.clk.root + 1) }))

/-- An alignment codeword (R335): the peer, and the lanes good at the sender, in its own numbering; in training the lane
index shows reversal (R333); MISWIRED, or a peer change that leaves it (R355). -/
def execAlignmentCodeword (lane : LaneRead) (node peerPort dir mask : Nat) (s : State) : Host.Outcome State Fault Refusal :=
  .next (
    let i := lane.lane / 8
    let y := s.port i
    let changed := y.peerNode.toNat != node || y.peerPort.toNat != peerPort || y.peerDir.toNat != dir
    let s := s.modPort i (fun x => { x with peerNode := BitVec.ofNat 12 node, peerPort := BitVec.ofNat 5 peerPort,
                                            peerDir := BitVec.ofNat 3 dir, peerValid := true })
    if y.st = 5 then (if changed then s.toTraining i else s)
    else if y.st = 1 then s.modLink i (fun l => { l with reversed := lane.index == 7 - lane.lane % 8 })
    else if !y.up then s
    else if s.miswired i then s.portDown i 5 (s.laneMask i)
    else (List.range 8).foldl (fun s j =>
      let k := 8 * i + s.ownLane i j
      if (s.lane k).st = 0 ∧ !bit mask j then s.retireLane k false else s) s)

/-- The end of a 100 ms window (R353): `margin` is the highest seen in it. -/
def execLaneErrorWindow (lane errors symbols uncorr margin : Nat) (s : State) : Host.Outcome State Fault Refusal :=
  .next (
    let x := s.lane lane
    let s := s.modLane lane (fun x => { x with
      corr := BitVec.ofNat 48 (satAdd 48 x.corr.toNat errors), uncorr := BitVec.ofNat 16 (satAdd 16 x.uncorr.toNat uncorr),
      margin := BitVec.ofNat 8 (min 255 margin) })
    if x.st = 0 ∧ (symbols < errors * 2 ^ x.serLimit.toNat ∨ x.uncorrLimit.toNat < uncorr ∨ margin < x.marginLimit.toNat) then
      s.retireLane lane true
    else s)

def execLockLoss (lane : Nat) (s : State) : Host.Outcome State Fault Refusal :=
  .next (if (s.lane lane).st = 0 then s.retireLane lane true else s)

def execLaneRetire (v : Nat) (s : State) : Host.Outcome State Fault Refusal :=
  .next (
    if !s.laneServed then s
    else if 144 ≤ s.sel.lane.toNat then s.hostErrOpen 3
    else if bit v 0 then s.retireLane s.sel.lane.toNat true else s)

/-! ### Acknowledgement and replay (R339, R340) -/

/-- Replay every unacknowledged frame. A replay already in progress restarts and counts once. Eight replays without
progress take the port down. -/
def State.beginReplay (s : State) (i : Nat) : State :=
  let l := s.link i
  if l.unacked.isEmpty then s
  else if !l.replay.isEmpty then
    s.modLink i (fun l => { l with replay := l.unacked, timer := s.clk.root })
  else
    let s := s.modPort i (fun x => { x with retry := BitVec.ofNat 16 (satAdd 16 x.retry.toNat 1) })
    let s := s.traceEv (srcPort i) 0 0x0F 8 ((l.unacked.map (fun f => f.seq)).headD 0)
    if 8 ≤ l.noProgress + 1 then s.portDown i 4 (s.laneMask i)
    else s.modLink i (fun l => { l with replay := l.unacked, noProgress := l.noProgress + 1, timer := s.clk.root })

/-- Once every frame sent on a bundle is acknowledged, held frames take the new choice (R350). -/
def State.unhold (s : State) (i : Nat) : State :=
  let ms := (s.mates i).filter (fun j => (s.port j).up)
  if (s.link i).held && ms.all (fun j => (s.link j).unacked.isEmpty) then
    (ms.foldl (fun s j => s.modLink j (fun l => { l with held := false })) s).rechoose ms
  else s

/-- A cumulative acknowledgement, and a NAK. -/
def State.acked (s : State) (i ack : Nat) (nak : Bool) : State :=
  let l := s.link i
  let s :=
    match l.unacked.findIdx? (fun f => f.seq == ack) with
    | some k =>
      let s := s.modLink i (fun l => { l with
        unacked := l.unacked.drop (k + 1), noProgress := 0, timer := s.clk.root,
        replay := l.replay.filter (fun f => (l.unacked.drop (k + 1)).any (fun g => g.seq == f.seq)) })
      (s.unhold i).resyncCheck (s.partOfPort i)
    | none => s
  if nak then s.beginReplay i else s

def execAckTimeout (port : Nat) (s : State) : Host.Outcome State Fault Refusal :=
  .next (
    let l := s.link port
    if !(s.port port).up || l.unacked.isEmpty then s
    else (s.untilRoot (l.timer + usRoot (s.port port).ackTimeout.toNat)).beginReplay port)

/-- A control slot: acknowledgement, the freed-buffer counts, and the end of a FREEZE's or RELEASE's repetition (R338,
R341). -/
def execControlSlot (port : Nat) (b : SlotBody) (s : State) : Host.Outcome State Fault Refusal :=
  .next (
    if !b.crcOk then s
    else
      let s := s.modLink port (fun l => { l with peerFreed := (List.range 8).foldl (fun t k => Tbl.set 0 t k (b.freed.getD k 0 % 4096)) l.peerFreed })
      let s := if b.heard then s.modLink port (fun l => { l with ctl := l.ctl.filter (fun c => c.1 != 0 && c.1 != 1) }) else s
      if (s.port port).up then s.acked port b.ack b.nak else s)

/-! ### What arrives (R339, R344, R345, R347, R351) -/

/-- A buffer of a port becomes free. -/
def State.freeBuf (s : State) (i k : Nat) : State :=
  s.modLink i (fun l => { l with freed := Tbl.set 0 l.freed k ((Tbl.get 0 l.freed k + 1) % 4096) })

def bump16 (x : BitVec 16) : BitVec 16 := BitVec.ofNat 16 (satAdd 16 x.toNat 1)

/-- Route one accepted frame: discard it, deliver it, or hand it on. -/
def State.routeIn (s : State) (i : Nat) (f : Frame) : State :=
  let p := s.partOfPort i
  let t := f.txn
  match vcOf t.type with
  | none => (s.modPort i (fun x => { x with badType := bump16 x.badType })).freeBuf i f.buf
  | some vc =>
    if t.dest = (s.part p).node.toNat then
      s.modPart p (fun x => x.setInbox vc (x.inbox vc ++ [{ port := i, cls := f.cls, txn := t }]))
    else if 48 ≤ f.hops + 1 then (s.modPort i (fun x => { x with hopLimit := bump16 x.hopLimit })).freeBuf i f.buf
    else
      match s.route p t.dest f.vc f.cls (s.port i).useDir.toNat with
      | .error _ => (s.modPort i (fun x => { x with noRoute := bump16 x.noRoute })).freeBuf i f.buf
      | .ok (j, c) =>
        s.queueFrame j { seq := 0, vc := f.vc, cls := c, hops := f.hops + 1, txn := t, inBuf := some (i, f.buf) }

/-- Route what a port has buffered, unless the module is frozen, the partition changes or its NODE_ID is unwritten (R26,
R197, R355). -/
def State.drainRx (s : State) (i : Nat) : State :=
  if s.frozen || s.mod.changeBusy || (s.part (s.partOfPort i)).nodeHeld then s
  else
    let fs := (s.link i).rxq
    fs.foldl (fun s f => s.routeIn i f) (s.modLink i (fun l => { l with rxq := [] }))

/-- Symbol errors that the FEC of a codeword corrects (R334). -/
def fecLimit : Nat := 15

/-- A discarded frame: the first after an accepted one draws one NAK (R339). -/
def State.badFrame (s : State) (i : Nat) : State :=
  s.modLink i (fun l => { l with
    nakDue := l.nakDue || !l.nakSent
    nakSent := true })

/-- A frame in a slot; one whose codeword the FEC cannot correct is lost (R339). -/
def State.frameIn (s : State) (i errs : Nat) (bytes : List Byte) : State :=
  let bad (s : State) : State := s.badFrame i
  if !(s.port i).up || decide (fecLimit < errs) then s
  else if !frameCrcOk bytes then bad s
  else
    let (kind, ack, nak, f) := decodeFrame bytes
    if 1 < kind then bad s
    else
      let s := s.acked i ack nak
      if kind = 1 then s
      else if f.seq ≠ (s.link i).rxNext.toNat then bad s
      else
        (s.modLink i (fun l => { l with rxNext := l.rxNext + 1, nakSent := false, nakDue := false, rxq := l.rxq ++ [f] })).drainRx i

def execDataFrame (port : Nat) (bytes : FrameRead) (s : State) : Host.Outcome State Fault Refusal :=
  .next (s.frameIn port bytes.errs bytes.bytes)

/-! ### Transmission (R341, R342) -/

/-- Credits left for a buffer at the peer. -/
def Link.credits (l : Link) (k : Nat) : Nat := 256 - (Tbl.get 0 l.sent k + 4096 - Tbl.get 0 l.peerFreed k) % 4096

/-- The first frame of a VC that may be sent. -/
def Link.candidate (l : Link) (vc : Nat) : Option Frame :=
  if 512 ≤ l.unacked.length then none else l.txq.find? (fun f => f.vc == vc && decide (0 < l.credits f.buf))

/-- The bytes of a frame as sent: with the cumulative acknowledgement and the NAK (R337, R339). -/
def State.emit (s : State) (i : Nat) (f : Frame) (kind : Nat) : State :=
  let l := s.link i
  (s.reply { kind := 3, value := i, bytes := f.encode kind ((l.rxNext.toNat + 4095) % 4096) l.nakDue }).modLink i
    (fun l => { l with nakDue := false })

/-! ### Slots of the lanes (R334, R335, R338) -/

/-- Data codeword of a lane in which frame slot `n` begins: two and a half slots to a codeword. -/
def slotCodeword (n : Nat) : Nat := 2 * n / 5
/-- The alignment codeword of each 256 has gone between the two slots n − 1 and n. -/
def alignBefore (n : Nat) : Bool := decide (0 < n) && slotCodeword n / 255 != slotCodeword (n - 1) / 255
/-- Slot `n` of lane `j` is a control slot. -/
def controlAt (j n : Nat) : Bool := n % 21 == 21 * j / 8 % 21

/-- What a lane's control slot carries: ACK, NAK, the freed-buffer counts, up to four control messages, and whether it
acknowledges the peer's FREEZE or RELEASE; the order of the fields is the model's (log 94). -/
def State.controlBody (s : State) (i : Nat) : List Byte :=
  let l := s.link i
  leBytes 2 ((l.rxNext.toNat + 4095) % 4096) ++ leBytes 1 (b01 l.nakSent + 2 * b01 l.heard) ++
    ((List.range 8).map (fun k => leBytes 2 (Tbl.get 0 l.freed k))).flatten ++
    ((l.ctl.take 4).map (fun (k, a, b) => leBytes 1 k ++ leBytes 8 a ++ leBytes 8 b)).flatten

/-- What a lane's alignment codeword carries (R335), in the rule's order. -/
def State.alignBody (s : State) (i j : Nat) : List Byte :=
  leBytes 1 j ++ leBytes 2 (s.part (s.partOfPort i)).node.toNat ++ leBytes 1 i ++ leBytes 1 (s.port i).useDir.toNat ++
    leBytes 1 (s.laneMask i)

/-- The port's next frame slot: good lanes take turns in ascending order. -/
def State.nextLane (s : State) (i : Nat) : Option Nat :=
  let l := (s.link i).lane
  ((List.range 8).map (fun k => (l + 1 + k) % 8)).find? (fun j => bit (s.laneMask i) j)

/-- Slots pass up to the next that is no control slot, each with what the lane sends in it (kind 6 a control slot, kind 7 an
alignment codeword, with the lane). -/
def State.passSlots (s : State) (i : Nat) : Nat → State
  | 0 => s
  | n + 1 =>
    match s.nextLane i with
    | none => s
    | some j =>
      let l := 8 * i + j
      let k := (s.lane l).slot
      let s := if alignBefore k then s.reply { kind := 7, value := l, bytes := s.alignBody i j } else s
      let s := (s.modLane l (fun x => { x with slot := k + 1 })).modLink i (fun x => { x with
        lane := j
        slots := x.slots + 1 })
      if controlAt j k then (s.reply { kind := 6, value := l, bytes := s.controlBody i }).passSlots i n else s

/-- mclks that end in the port's present slot: a slot of one lane lasts 408/7 root cycles (R334). -/
def State.slotMclk (s : State) (i : Nat) : Nat :=
  let w := ((List.range 8).filter (fun j => bit (s.laneMask i) j)).length
  let n := (s.link i).slots
  let d := 7 * w * s.clk.div
  408 * n / d - 408 * (n - 1) / d

/-- The weighted round-robin: the VC in turn while it has frames left in its turn, otherwise the next that can send. -/
def Link.choose (l : Link) (w : List (BitVec 8)) : Option (Frame × Nat × Nat) :=
  [0, 1, 2, 3, 4].findSome? (fun k =>
    let v := (l.turn + k) % 4
    let left := if k = 0 then l.left else (w.getD v 1).toNat
    if left = 0 then none else (l.candidate v).map (fun f => (f, v, left - 1)))

/-- One data slot: a replay, a frame, or an idle frame. While frozen only frames in flight are sent
again (R197); a partition that quiesces sends no new frame (R192). -/
def State.dataSlot (s : State) (i : Nat) : State :=
  let l := s.link i
  let m := s.slotMclk i
  let p := s.partOfPort i
  let idle : Frame := { seq := 0, vc := 0, cls := 0, hops := 0, txn := { type := 0 } }
  let e := engPort i
  -- before NODE_ID is written only control slots go (R26)
  if !(s.port i).up || (s.part p).nodeHeld then s
  else
    match l.replay with
    | f :: rest =>
      let s := s.count (s.ambient p) e 9 m
      (s.emit i f 0).modLink i (fun l => { l with replay := rest })
    | [] =>
      if s.frozen || l.held || (s.part p).quiescing then s.emit i idle 1
      else
        match l.choose (s.port i).weights with
        | none =>
          let s := if l.txq.isEmpty then s else s.count (s.ambient p) e (if 512 ≤ l.unacked.length ∨ s.clk.root < l.widthUntil then 9 else 6) m
          s.emit i idle 1
        | some (f, turn, left) =>
          let sent := { f with seq := l.txSeq.toNat, inBuf := none }
          let s := match f.inBuf with | some (j, k) => s.freeBuf j k | none => s
          let s := s.modLink i (fun l => { l with
            txq := l.txq.erase f, txSeq := l.txSeq + 1, sent := Tbl.set 0 l.sent f.buf ((Tbl.get 0 l.sent f.buf + 1) % 4096),
            timer := if l.unacked.isEmpty then s.clk.root else l.timer, unacked := l.unacked ++ [sent], turn := turn, left := left })
          (s.count (s.ambient p) e 0 m).emit i sent 0

/-- The lanes' slots pass up to the next data slot, which the port fills. -/
def State.transmit (s : State) (i : Nat) : State := (s.passSlots i 16).dataSlot i

def execFrameTransmit (port : Nat) (s : State) : Host.Outcome State Fault Refusal := .next (s.transmit port)

end Sys2Proof.Machine
end

