-- ==== Sys2Proof/Machine/Banks.lean ====
section
/-!
DEFINITION. Tile-store banks and their arbitration (11 R263 to R265, R267).

A master's access asks for its banks in one mclk and is granted all of them or none. The requests of a mclk are the ones
refused in the mclk before, which still stand, and the one that asks; a request that an earlier command of the mclk was
granted has its banks. Commands whose rows run whole (a drain, an invocation, a DMA descriptor) ask for no bank here: the
contention between them and other masters is timing that the model leaves out (log 93).
-/
namespace Sys2Proof.Machine

/-- Word and bank of a tile-store offset (R263). -/
def tsWord (off : Nat) : Nat := off / 64
def tsBank (off : Nat) : Nat := tsWord off % 32

/-- The words that an access of `n` bytes touches; each lies in the bank of its number mod 32 (R264). -/
def accessWords (off n : Nat) : List Nat :=
  if n = 0 then [] else (List.range (ceilDiv (off % 64 + n) 64)).map (fun i => tsWord off + i)

/-- Masters of a tile in the order of R265: 0, 1 feeders; 2, 3 load paths; 4, 5 drain units; 6 to 21 LOAD and STORE
stages by entry; 22 request-network port. A request's key is master × 32, plus the pinnule of a feeder's row. -/
def reqKey (master sub : Nat) : Nat := master * 32 + sub
/-- Class of a master: 0 F, 1 L, 2 V, 3 N. -/
def masterClass (m : Nat) : Nat := if m < 2 then 0 else if m < 6 then 1 else if m < 22 then 2 else 3
def BankReq.cls (r : BankReq) : Nat := masterClass (r.key / 32)

/-- Ascending numbers, those after `last` first: turns taken round-robin. -/
def turns (last : Nat) (l : List Nat) : List Nat :=
  l.filter (fun x => decide (last < x)) ++ l.filter (fun x => decide (x ≤ last))

/-- Order by the most refusals, then by the order of R265 (rule 1). -/
def bySeniority (rs : List BankReq) : List BankReq :=
  let before (a b : BankReq) : Bool := decide (b.age < a.age) || (a.age == b.age && decide (a.key ≤ b.key))
  rs.foldl (fun l r => l.takeWhile (fun x => before x r) ++ r :: l.dropWhile (fun x => before x r)) []

/-- A bank's requests, the winner first (R265 rules 1 to 4). Turns start after the class and the master of it that last
won the bank. -/
def Arb.order (a : Arb) (bank : Nat) (rs : List BankReq) : List BankReq :=
  let need := rs.filter (fun r => r.banks.contains bank)
  let old := bySeniority (need.filter (fun r => decide (15 ≤ r.age)))
  let young := need.filter (fun r => decide (r.age < 15))
  let ofClass (c : Nat) : List BankReq :=
    let ms := (List.range 23).filter (fun m => young.any (fun r => r.cls == c && r.key / 32 == m))
    (turns (Tbl.get 22 a.lastMaster (bank * 4 + c)) ms).flatMap (fun m =>
      (List.range 32).flatMap (fun sub => young.filter (fun r => r.key == reqKey m sub)))
  old ++ ofClass 0 ++ (turns (Tbl.get 3 a.lastClass bank) [1, 2, 3]).flatMap ofClass

/-- The requests granted in a mclk: a request that wins only some of its banks takes none, and the banks it won pass to
the next requester; the banks it lost keep their winners (R265). Requests that lose in one pass give way together (log 93). -/
def Arb.granted (a : Arb) : Nat → List BankReq → List BankReq
  | 0, _ => []
  | n + 1, rs =>
    let wins (r : BankReq) (b : Nat) : Bool := ((a.order b rs).head?).map (fun x => x.key) == some r.key
    let partly (r : BankReq) : Bool := r.banks.any (wins r) && !r.banks.all (wins r)
    if rs.any partly then a.granted n (rs.filter (fun r => !partly r)) else rs.filter (fun r => r.banks.all (wins r))

/-- The tile's arbitration in mclk `m`: requests not refused in the mclk before are gone. -/
def Arb.at (a : Arb) (m : Nat) : Arb :=
  if a.mclk = m then a
  else { a with mclk := m, taken := [], waiting := a.waiting.filter (fun r => r.seen + 1 == m) }

/-- The word is free for the request: its bank is not taken, or serves the same word to the same requester, as for the
two rows of one mclk (R58). -/
def Arb.free (a : Arb) (key w : Nat) : Bool :=
  a.taken.all (fun (k, u) => u % 32 != w % 32 || (k == key && u == w))

/-- Requests outstanding in the tile (R190). -/
def Arb.outstanding (a : Arb) : Nat := a.waiting.length + (a.taken.map Prod.fst).eraseDups.length

/-- A request's outcome in a mclk: granted; refused; turned away at the bound of 64 requests (R190). -/
inductive Grant where
  | granted
  | refused
  | bound
  deriving DecidableEq, Repr

/-- A master asks for the banks of words in mclk `m`. -/
def Arb.ask (a : Arb) (m key : Nat) (ws : List Nat) : Grant × Arb :=
  let a := a.at m
  let rest := a.waiting.filter (fun r => r.key != key)
  let mine := a.waiting.find? (fun r => r.key == key)
  let me : BankReq := { key := key, banks := (ws.map (· % 32)).eraseDups, age := (mine.map (fun r => r.age)).getD 0, seen := m }
  if ws.isEmpty then (.granted, a)
  else if mine.any (fun r => r.seen == m) then (.refused, a)
  else if mine.isNone && decide (64 ≤ a.outstanding) then (.bound, a)
  else
    let others := rest.filter (fun r => r.seen != m && r.banks.all (fun b => a.taken.all (fun (_, u) => u % 32 != b)))
    if ws.all (a.free key) && (a.granted (others.length + 2) (me :: others)).any (fun r => r.key == key) then
      (.granted, { a with
        taken := ws.map (fun w => (key, w)) ++ a.taken, waiting := rest,
        lastClass := if me.cls = 0 then a.lastClass else me.banks.foldl (fun t b => Tbl.set 3 t b me.cls) a.lastClass,
        lastMaster := me.banks.foldl (fun t b => Tbl.set 22 t (b * 4 + me.cls) (key / 32)) a.lastMaster })
    else (.refused, { a with waiting := rest ++ [{ me with age := me.age + 1 }] })

/-- A master of a tile asks for the banks of words in this mclk. -/
def State.askBanks (s : State) (tile key : Nat) (ws : List Nat) : Grant × State :=
  let (g, a) := ((s.tile tile).arb).ask s.mclk key ws
  (g, s.modTile tile (fun t => { t with arb := a }))

/-- A bank that no master requests in this mclk: the patrol scrub may use it (R267). -/
def State.bankIdle (s : State) (tile bank : Nat) : Bool :=
  let a := ((s.tile tile).arb).at s.mclk
  a.taken.all (fun (_, w) => w % 32 != bank) && a.waiting.all (fun r => !r.banks.contains bank)

end Sys2Proof.Machine
end

