-- ==== Sys2Proof/Machine/Schedules.lean ====
section
/-!
DEFINITION. What a context holds of a run's timing and schedules (06 R145, R146): the header's planes, schedule entries, the
lists of the units and the places of their issues.
-/
namespace Sys2Proof.Machine

/-! ### Context contents -/

/-- Context header (R145). -/
def hPlane (b : List Byte) : Nat := bits (fld b 0 1) 0 2
def planeInfo (slot : Nat) (b : List Byte) : PlaneInfo :=
  let w := fld b 0 4
  { plane := bits w 0 2, slot := slot, last := bit w 2, next := bits w 3 2, desc := bit w 5, usesHbm := bit w 6,
    fill := fld b 4 4, ii := fld b 8 4, drain := fld b 12 4, endc := fld b 16 4 }

/-- SPAN_p(n) (R154). -/
def PlaneInfo.span (p : PlaneInfo) (n : Nat) : Nat := p.fill + n * p.ii + p.drain

/-- A schedule entry (R146). -/
def schedAt (b : List Byte) (e : Nat) : List Byte := slice b (0x1100 + 16 * e) 16
def eUnit (x : List Byte) : Nat := bits (fld x 0 1) 0 3
def eKind (x : List Byte) : Nat := bits (fld x 0 1) 4 3
def eMbSeq (x : List Byte) : Bool := bit (fld x 0 1) 7
def eIndex (x : List Byte) : Nat := fld x 1 1
def eCount (x : List Byte) : Nat := fld x 2 2
def eLogical (x : List Byte) : Nat := fld x 4 6
def eAddr (x : List Byte) : Int := signed 32 (fld x 12 4)

/-- Entries a block holds: the bytes beyond its length hold none (R144). -/
def schedCount (b : List Byte) : Nat := min 128 ((b.length - 0x1100) / 16)

/-- A unit's list: its entries in table order. -/
def unitAll (b : List Byte) (u : Nat) : List (Nat × List Byte) :=
  ((List.range (schedCount b)).map (fun e => (e, schedAt b e))).filter (fun x => eUnit x.2 == u)

/-- The same up to and including END. -/
def unitList (b : List Byte) (u : Nat) : List (Nat × List Byte) :=
  let all := unitAll b u
  match all.findIdx? (fun x => eKind x.2 == 0) with
  | some i => all.take (i + 1)
  | none => all

/-- The operations of a unit: entries of kind OP. -/
def opsOf (b : List Byte) (u : Nat) : List Nat := ((unitList b u).filter (fun (_, x) => eKind x == 1)).map (fun (_, x) => eIndex x)

/-- Where an issue of a list stands: its entry, the iterations of the REPEAT bodies around it counted together, their
COUNTs multiplied, the body position in the micro-batch body (none outside), whether an epilogue entry follows MB. -/
structure OpPlace where
  entry : Nat
  x : List Byte
  iter : Nat := 0
  times : Nat := 1
  body : Option Nat := none
  after : Bool := false
  deriving DecidableEq, Repr

/-- Issues of the entries `lo` to `hi` − 1 that `sel` picks, in a plane of `n` bodies (R146). -/
def opCount (sel : List Byte → Bool) (l : List (Nat × List Byte)) (n : Nat) : Nat → Nat → Nat → Nat
  | 0, _, _ => 0
  | k + 1, lo, hi =>
    if hi ≤ lo then 0
    else match l[lo]? with
      | none => 0
      | some (_, x) =>
        let stop := min hi (lo + 1 + eIndex x)
        match eKind x with
        | 0 => 0
        | 2 => eCount x * opCount sel l n k (lo + 1) stop + opCount sel l n k stop hi
        | 3 => n * opCount sel l n k (lo + 1) stop + opCount sel l n k stop hi
        | _ => b01 (sel x) + opCount sel l n k (lo + 1) hi

/-- The `i`-th of those issues, in list order. -/
def opAt (sel : List Byte → Bool) (l : List (Nat × List Byte)) (n : Nat) : Nat → Nat → Nat → OpPlace → Nat → Option OpPlace
  | 0, _, _, _, _ => none
  | k + 1, lo, hi, at', i =>
    if hi ≤ lo then none
    else match l[lo]? with
      | none => none
      | some (e, x) =>
        let stop := min hi (lo + 1 + eIndex x)
        match eKind x with
        | 0 => none
        | 2 =>
          let c := opCount sel l n k (lo + 1) stop
          if i < eCount x * c then
            opAt sel l n k (lo + 1) stop { at' with iter := at'.iter * eCount x + i / c, times := at'.times * eCount x } (i % c)
          else opAt sel l n k stop hi at' (i - eCount x * c)
        | 3 =>
          let c := opCount sel l n k (lo + 1) stop
          if i < n * c then opAt sel l n k (lo + 1) stop { at' with body := some (i / c) } (i % c)
          else opAt sel l n k stop hi { at' with after := true } (i - n * c)
        | _ =>
          if sel x then
            (if i = 0 then some { at' with entry := e, x := x } else opAt sel l n k (lo + 1) hi at' (i - 1))
          else opAt sel l n k (lo + 1) hi at' i

/-- Entries that a unit issues: OP, and at the sync port WAIT and SIGNAL. -/
def isIssue (x : List Byte) : Bool := eKind x == 1 || eKind x == 4 || eKind x == 5

/-- Issues of a unit's list in a plane of `n` bodies. -/
def expectedOps (b : List Byte) (u n : Nat) : Nat := opCount isIssue (unitList b u) n 129 0 128

/-- The place of the `i`-th issue of a unit that `sel` picks. -/
def placeAt (sel : List Byte → Bool) (b : List Byte) (u n i : Nat) : Option OpPlace :=
  opAt sel (unitList b u) n 129 0 128 { entry := 0, x := [] } i

/-- Phase of a place in its plane: 0 prologue, 1 + 2k body k, then the epilogue. -/
def OpPlace.phase (p : OpPlace) (n : Nat) : Nat := match p.body with | some k => 1 + k | none => if p.after then n + 1 else 0

/-- `p` stands before `q` in the schedule: by phase, by iteration where both stand in as many iterations of REPEAT
bodies, then by table order (log 74). -/
def OpPlace.before (p q : OpPlace) (n : Nat) : Bool :=
  let a := p.phase n
  let b := q.phase n
  if a = b then
    (if p.times = q.times ∧ p.iter ≠ q.iter then decide (p.iter < q.iter) else decide (p.entry < q.entry))
  else decide (a < b)

end Sys2Proof.Machine
end

