-- ==== Sys2Proof/Machine/Lists.lean ====
section
/-!
DEFINITION. What the lists of a tile's units say (06 R144, R146): fields of drain descriptors, and of the sections for
which the spec gives contents and no bit positions, read through the layout that the state holds (log 63); the passes,
stationary loads and drains of a list in their order.
-/
namespace Sys2Proof.Machine

/-! ### Drain descriptors (R96) -/

def dw (b : List Byte) (lo n : Nat) : Nat := bits (fld b 0 64) lo n
def dArray (b : List Byte) : Nat := dw b 0 1
def dFill (b : List Byte) : Bool := bit (fld b 0 1) 1
def dRowBase (b : List Byte) : Nat := dw b 2 10
def dRows (b : List Byte) : Nat := dw b 12 11
def dCol (b : List Byte) : Nat := dw b 23 6
def dCols (b : List Byte) : Nat := dw b 29 7
def dFmt (b : List Byte) : Fmt := (Fmt.ofCode (dw b 36 5)).getD .fp32
def dRnd (b : List Byte) : Rnd := (Rnd.ofCode (dw b 41 2)).getD .rne
def dNonsat (b : List Byte) : Bool := dw b 43 1 == 1
def dClear (b : List Byte) : Bool := dw b 44 1 == 1
def dAdd (b : List Byte) : Bool := dw b 45 1 == 1
def dMax (b : List Byte) : Bool := dw b 46 1 == 1
def dSum (b : List Byte) : Bool := dw b 47 1 == 1
def dMerge (b : List Byte) : Bool := dw b 48 1 == 1
def dSplit (b : List Byte) : Bool := dw b 49 1 == 1
def dDest (b : List Byte) : Nat := dw b 50 2
def dAddr (b : List Byte) (g : Nat) : Nat :=
  match g with | 0 => dw b 64 23 | 1 => dw b 384 23 | 2 => dw b 416 23 | _ => dw b 448 23

/-! ### Shapes and classes (R58, R66, R72, R74) -/

/-- Rate class of a format code: 0 4/6-bit, 1 8-bit, 2 16-bit, 3 FP32 split. -/
def arrClass : Nat → Option Nat
  | 0x07 | 0x08 | 0x09 => some 0
  | 0x03 | 0x04 | 0x05 | 0x06 | 0x0A => some 1
  | 0x01 | 0x02 | 0x0B => some 2
  | 0x0F => some 3
  | _ => none

/-- Pinnules, K positions and columns of a shape. -/
def shapePins : Nat → Nat | 0 => 1 | 1 => 2 | 2 => 4 | _ => 16
def shapeK : Nat → Nat | 0 | 1 => 64 | 2 => 32 | _ => 16
def shapeN : Nat → Nat | 0 => 64 | 1 | 2 => 32 | _ => 16
/-- First column of a pinnule, and the accumulator rows open to it (R74). -/
def pinCol (shape pn : Nat) : Nat :=
  match shape with | 0 => 0 | 1 => 32 * pn | 2 => 32 * (pn % 2) | _ => 16 * (pn % 4)
def pinRows (shape pn : Nat) : Nat × Nat :=
  match shape with
  | 0 | 1 => (0, 1024) | 2 => (512 * (pn / 2), 512) | _ => (256 * (pn / 4), 256)
/-- Rows of one pinnule's limit. -/
def shapeRows : Nat → Nat | 0 | 1 => 1024 | 2 => 512 | _ => 256

/-- Elements of one slot-row of 64 lanes of 12 bits (R66). -/
def slotElems : Nat → Nat | 0 => 128 | 1 => 64 | _ => 32

/-! ### Sections read through the layout (R144) -/

/-- Field `i` of a list of places in a record. -/
def fieldAtBits (fs : List (Nat × Nat)) (w i : Nat) : Nat :=
  match fs[i]? with | some (o, n) => bits w o n | none => 0

/-- The 512 bytes of an array's setup. -/
def setupWord (b : List Byte) (a : Nat) : Nat := fld b (0x100 + 512 * a) 512

/-- Array setup: shape, rate class, operand formats, mesh direction of the chain link that leaves MA_1. -/
structure ArrSetup where
  shape : Nat
  cls : Nat
  fmtA : Nat
  fmtB : Nat
  link : Nat
  deriving DecidableEq, Repr

def State.arrSetup (s : State) (b : List Byte) (a : Nat) : ArrSetup :=
  let f := fieldAtBits s.layout.setup (setupWord b a)
  ⟨f 0, f 1, f 2, f 3, f 4⟩

/-- Setup of a pinnule: feed window, problem tag, output tensor and its logical base and step between rows, K and N in
use, pitch and scale plane of the stationary operand. -/
structure PinSetup where
  winBase : Nat
  winLimit : Nat
  tag : Nat
  tensor : Nat
  logical : Nat
  logicalRow : Nat
  kUsed : Nat
  nUsed : Nat
  pitchB : Nat
  scaleB : Nat
  deriving DecidableEq, Repr

def State.pinSetup (s : State) (b : List Byte) (a pn : Nat) : PinSetup :=
  let f := fieldAtBits s.layout.pin (setupWord b a >>> (s.layout.pinBase + s.layout.pinBits * pn))
  ⟨f 0, f 1, f 2, f 3, f 4, f 5, f 6, f 7, f 8, f 9⟩

/-- A pass record: source kind 0 tile store, 1 operand cache, 2 stream; the steps are per REPEAT iteration. -/
structure PassRec where
  pn : Nat
  rows : Nat
  base : Nat
  mode : Nat
  chainOut : Bool
  marker : Bool
  rnd : Nat
  seq : Nat
  kind : Nat
  addr : Nat
  pitch : Nat
  step : Int
  rowStep : Int
  scale : Nat
  scalePitch : Nat
  scaleStep : Int
  scaleStream : Bool
  kOffset : Nat
  deriving DecidableEq, Repr

/-- A two's complement field. -/
def signedField (fs : List (Nat × Nat)) (w i : Nat) : Int :=
  match fs[i]? with | some (o, n) => signed n (bits w o n) | none => 0

def State.passRec (s : State) (b : List Byte) (i : Nat) : PassRec :=
  let w := fld b (0x500 + 32 * i) 32
  let f := fieldAtBits s.layout.pass w
  let g := signedField s.layout.pass w
  ⟨f 0, f 1, f 2, f 3, f 4 == 1, f 5 == 1, f 6, f 7, f 8, f 9, f 10, g 11, g 12, f 13, f 14, g 15, f 16 == 1, f 17⟩

/-- An entry of the stationary load list. -/
structure LoadRec where
  pn : Nat
  kind : Nat
  addr : Nat
  transpose : Bool
  part : Nat
  scaleStream : Bool
  deriving DecidableEq, Repr

def State.loadRec (s : State) (b : List Byte) (i : Nat) : LoadRec :=
  let f := fieldAtBits s.layout.load (fld b (0xD00 + 8 * i) 8)
  ⟨f 0, f 1, f 2, f 3 == 1, f 4, f 5 == 1⟩

/-- A timed input: source kind, frame-slot binding or port, presentation offset in the body, source class (0 PEER,
1 HOST, 2 LOCAL, 3 HBM), the stream it feeds and the HBM address its beats stand at, in units of 64 bytes. -/
structure TimedIn where
  kind : Nat
  binding : Nat
  offset : Nat
  cls : Nat
  stream : Nat
  deriving DecidableEq, Repr

def State.timedIn (s : State) (b : List Byte) (i : Nat) : TimedIn :=
  let f := fieldAtBits s.layout.timed (fld b (0x3B00 + 8 * i) 8)
  ⟨f 0, f 1, f 2, f 3, f 4⟩

/-! ### Cells of the memory frame (R274, R276) -/

/-- Cells that no run may hold: the calibration slot and the refresh cells (R274). -/
def reservedCell (c : Nat) : Bool :=
  decide (c < 8) || (decide (120 ≤ c) && decide (c < 128)) || (decide (248 ≤ c) && decide (c < 256)) ||
  (decide (376 ≤ c) && decide (c < 384)) || decide (504 ≤ c)

/-- A cell that a binding holds: stack, cell, pseudo-channel of its 256-byte unit, direction. -/
structure HeldCell where
  stack : Nat
  cell : Nat
  channel : Nat
  write : Bool
  deriving DecidableEq, Repr

/-- The entries of a context's timed inputs that bind HBM (R165). -/
def State.hbmInputs (s : State) (b : List Byte) : List (Nat × TimedIn) :=
  ((List.range 64).filter (fun i => fld b (0x3B00 + 8 * i) 8 != 0)).filterMap (fun i =>
    let x := s.timedIn b i
    if x.cls = 3 then some (i, x) else none)

/-- The cells of one binding, all of the stack of its address (R272, R276). -/
def State.cellsOf (s : State) (p : Nat) (x : TimedIn) : List HeldCell :=
  let k := s.hbmKey p (Config.boundAddr x.binding).toNat
  let o := k % 2 ^ 36
  (Config.boundCells x.binding).map (fun c =>
    ⟨k / 2 ^ 36, c.toNat, 16 * (o / 4096 % 4) + o / 256 % 16, Config.boundWrite x.binding⟩)

/-- The stacks and cells that a run holds from its S to its completion (R276). -/
def State.runCells (s : State) (r : Run) : List (Nat × Nat) :=
  r.planes.flatMap (fun pl => r.tiles.flatMap (fun t =>
    (s.hbmInputs ((s.tile t).ctx pl.slot).bytes).flatMap (fun (_, x) =>
      (s.cellsOf r.part x).map (fun c => (c.stack, c.cell)))))

/-- A synchronisation binding: object and source class. -/
def State.syncBind (s : State) (b : List Byte) (i : Nat) : Nat × Nat :=
  let f := fieldAtBits s.layout.bind (fld b (0x3D00 + 8 * i) 8)
  (f 0, f 1)

/-! ### Operations in list order -/

/-- The feeder of array `a` issues the passes of its list; this picks one pinnule's. -/
def State.isPass (s : State) (b : List Byte) (pn : Nat) (x : List Byte) : Bool :=
  eKind x == 1 && (s.passRec b (eIndex x)).pn == pn

def isOp (x : List Byte) : Bool := eKind x == 1

/-- Columns [c, c + n) and [d, d + m) share one. -/
def overlaps (c n d m : Nat) : Bool := decide (c < d + m) && decide (d < c + n)

/-- Base row of a pass at a place of the list. -/
def PassRec.baseAt (r : PassRec) (p : OpPlace) : Nat := ((r.base : Int) + r.rowStep * (p.iter : Int)).toNat

/-- A pass at a place targets the region of a drain descriptor. -/
def State.passHits (s : State) (b : List Byte) (a : Nat) (p : OpPlace) (d : List Byte) : Bool :=
  let r := s.passRec b (eIndex p.x)
  let u := s.arrSetup b a
  overlaps (r.baseAt p) r.rows (dRowBase d) (dRows d) && overlaps (pinCol u.shape r.pn) (shapeN u.shape) (dCol d) (dCols d)

/-- From issue `i` on, an issue of the list that stands before `q` meets `hit`. -/
def anyBefore (sel : List Byte → Bool) (b : List Byte) (u n : Nat) (q : OpPlace) (hit : OpPlace → Bool) : Nat → Nat → Bool
  | 0, _ => false
  | k + 1, i =>
    match placeAt sel b u n i with
    | none => false
    | some p => p.before q n && (hit p || anyBefore sel b u n q hit k (i + 1))

/-- How far a pinnule has come in a plane of a run: the tags of another plane read as its beginning. -/
def Pinnule.posIn (p : Pinnule) (run plane : Nat) : FeedPos :=
  if p.pos.run = run ∧ p.pos.plane = plane then p.pos else { run := run, plane := plane }

/-- The drain descriptor that a place of a drain unit's list names. -/
def drainAt (b : List Byte) (p : OpPlace) : List Byte := slice b (0x1900 + 64 * eIndex p.x) 64

/-- A row of the pass at `q` on columns [c, c + n) must wait: a drain or FILL before it in the list, not yet begun,
targets the row (R104). -/
def State.drainAhead (s : State) (r : Run) (b : List Byte) (tile a : Nat) (q : OpPlace) (row c n : Nat) : Bool :=
  anyBefore isOp b (4 + a) r.n q (fun p =>
      let d := drainAt b p
      overlaps row 1 (dRowBase d) (dRows d) && overlaps c n (dCol d) (dCols d))
    (opCount isOp (unitList b (4 + a)) r.n 129 0 128) (Tbl.get 0 r.unitOps (tile * 8 + 4 + a))

/-- Rows of passes before the drain at `q` that target its region and have not all issued (R103). -/
def State.passAhead (s : State) (r : Run) (b : List Byte) (tile a : Nat) (q : OpPlace) (d : List Byte) : Bool :=
  let u := s.arrSetup b a
  (List.range (shapePins u.shape)).any (fun pn =>
    let pos := ((((s.tile tile).arr a).pins.find? (fun x => x.1 == pn)).map Prod.snd |>.getD {}).posIn r.id r.cur
    anyBefore (s.isPass b pn) b a r.n q (fun p => s.passHits b a p d)
      (opCount (s.isPass b pn) (unitList b a) r.n 129 0 128) pos.passes)

/-- The mclk from which no issued row that targets the region is in the pipeline (R62, R103). -/
def State.flightEnd (s : State) (tile a : Nat) (d : List Byte) : Nat :=
  let x := (s.tile tile).arr a
  x.flight.foldl (fun m f =>
    if overlaps f.row 1 (dRowBase d) (dRows d) && overlaps f.col f.cols (dCol d) (dCols d) then max m (f.mclk + 10) else m) 0

end Sys2Proof.Machine
end

