-- ==== Sys2Proof/Machine/Runs.lean ====
section
/-!
DEFINITION. Frond runs (06 R146 to R156, R164 to R169; 07 R187 to R189, R191, R192): RUN_FROND, UNLOAD_FROND, the rows
of a run's life, its holds and its early ends.
-/
namespace Sys2Proof.Machine

/-- Neither frozen nor paused: mclk-domain units issue (R197, R430). -/
def State.unlessHalted (s : State) (f : State → State) : State :=
  if s.frozen || s.pwr.paused.isSome then s else f s

/-! ### Runs -/

def State.run (s : State) (id : Nat) : Option Run := s.work.runs.find? (fun r => r.id == id)
def State.onRun (s : State) (id : Nat) (f : Run → Run) : State :=
  s.modWork (fun w => { w with runs := updWhere (fun r => r.id == id) f w.runs })

/-- The plane a run is in. -/
def Run.plane (r : Run) : PlaneInfo := r.planes.getD r.cur ⟨0, 0, true, 0, false, false, 0, 1, 0, 0⟩
def Run.slips (r : Run) : Nat := r.slip.foldl (· + ·) 0
/-- The mclk stamp of an unheld mclk count from S. -/
def Run.stamp (r : Run) (u : Nat) : Nat := r.start.getD 0 + r.slips + u
/-- Root cycles of the frame a run's holds are measured in (R165). -/
def Run.unit (r : Run) : Nat := if r.plane.usesHbm then frameRoot else slotRoot
/-- Run index and micro-batch index of a body position (R154, R202). -/
def Run.index (r : Run) (k : Nat) : Nat := if r.plane.desc then r.n - 1 - k else k
def Run.mb (r : Run) (k : Nat) : Nat := r.mbBase + r.index k

/-- The run issues: started, not held, its issue not ended. -/
def Run.live (r : Run) : Bool := r.start.isSome && r.hold.isNone && !r.issueEnded

/-- Held mclk count as slip under their cause, in the run and in its bank (R166, R438). -/
def State.addSlip (s : State) (r : Run) (cause n : Nat) : State :=
  let s := s.onRun r.id (fun r => { r with slip := r.slip.set (cause - 1) (r.slip.getD (cause - 1) 0 + n) })
  s.modBank (s.bankOf r.q) (fun b => { b with slip := bump b.slip (cause - 1) n })

/-- Context slots of the run's planes on its tiles, in state `from` where given, take state `st`. -/
def State.setCtxs (s : State) (tiles slots : List Nat) (f : Ctx → Ctx) : State :=
  tiles.foldl (fun s t => slots.foldl (fun s c => s.modCtx t c f) s) s

/-- Every stream source of the tiles holds full credits at the start of a plane (R172). -/
def State.freshCredits (s : State) (tiles : List Nat) : State :=
  tiles.foldl (fun s t => s.modTile t (fun x =>
    { x with srcs := Tbl.mapV {} (fun c => { c with spent := [], returning := [], sent := 0 }) x.srcs })) s

/-- The mclk in which every pass, drain, FILL and invocation issued on the tiles so far is complete (R148). -/
def State.workEnd (s : State) (tiles : List Nat) : Nat :=
  tiles.foldl (fun m t =>
    let x := s.tile t
    [(if x.ma0.lastIssue = 0 then 0 else x.ma0.lastIssue + 10), (if x.ma1.lastIssue = 0 then 0 else x.ma1.lastIssue + 10),
     x.ma0.drainUntil, x.ma1.drainUntil, x.ve.busyUntil].foldl max m) 0

/-- A drain, FILL or invocation of the run is held by a stream part way. -/
def State.opHeld (s : State) (r : Run) : Bool :=
  r.tiles.any (fun t =>
    let x := s.tile t
    [x.ma0.drain, x.ma1.drain].any (fun d => match d with | some d => d.op.id == r.id | none => false) ||
      (match x.ve.run with | some g => g.op.id == r.id | none => false))

/-- The context that a run has left is LOADED once the work issued under it is complete (R148). -/
def State.settleRun (s : State) (r : Run) : State :=
  match r.leaving with
  | some (c, m) =>
    if m ≤ s.mclk ∧ !s.opHeld r then
      (s.setCtxs r.tiles [c] (fun x => if x.st == 4 then { x with st := 2 } else x)).onRun r.id (fun x => { x with leaving := none })
    else s
  | none => s

/-- The same for every run. -/
def State.settle (s : State) : State := s.work.runs.foldl (fun s r => s.settleRun r) s

/-- Every unit stamp of the tiles moves on by `h` mclk (R165). -/
def State.shiftTiles (s : State) (tiles : List Nat) (stop h : Nat) : State :=
  tiles.foldl (fun s t => s.modTile t (fun x => x.shift stop h)) s

/-- The first root cycle from now on that begins a frame of `unit` root cycles and an mclk (R153). -/
def State.nextEdge (s : State) (unit : Nat) : Nat :=
  let o := s.clk.frameOrigin.getD 0
  let r0 := o + roundUp (s.clk.root - o) unit
  ((List.range s.clk.div).map (fun i => r0 + i * unit)).find? (fun r => (r - s.clk.markRoot) % s.clk.div == 0) |>.getD r0

/-- Root time of the first mclk of the module time base (R419). -/
def State.running (s : State) : Bool := s.clk.origin.isSome

/-- The header every context of a plane shares (R145): that of the first tile whose context is not empty (R142). -/
def State.headerOf (s : State) (tiles : List Nat) (c : Nat) : List Byte :=
  (tiles.findSome? (fun t => match ((s.tile t).ctx c).bytes with | [] => none | b => some b)).getD []

/-- Follow NEXT_PLANE from the plane in slot `c` of tile `t`: the planes, or none where a linked plane is missing. -/
def State.follow (s : State) (tiles : List Nat) (t digest : Nat) : Nat → Nat → Option (List PlaneInfo)
  | 0, _ => some []
  | n + 1, c =>
    let p := planeInfo c (s.headerOf tiles c)
    if p.last then some [p]
    else
      match [0, 1, 2, 3].find? (fun k =>
        let x := (s.tile t).ctx k
        x.st == 2 && x.digest.toNat == digest && x.plane.toNat == p.next) with
      | none => none
      | some k => (s.follow tiles t digest n k).map (p :: ·)

/-- The slot of a tile holds plane `p` of the digest, LOADED. -/
def State.holds (s : State) (t c digest p : Nat) : Bool :=
  let x := (s.tile t).ctx c
  x.st == 2 && x.digest.toNat == digest && x.plane.toNat == p

/-- The planes a run of the digest enters from slot `c`, or the first conflicting tile (R153). -/
def State.runPlanes (s : State) (tiles : List Nat) (c digest : Nat) : Except Nat (List PlaneInfo) :=
  match tiles.find? (fun t => !s.holds t c digest 0) with
  | some t => .error t
  | none =>
    let t0 := tiles.headD 0
    match s.follow tiles t0 digest 4 c with
    | none => .error t0
    | some ps =>
      match tiles.find? (fun t => ps.any (fun p => !s.holds t p.slot digest p.plane)) with
      | some t => .error t
      | none => .ok ps

/-- Arrange a run for a command; its waits begin. -/
def State.newRun (s : State) (owner q p digest : Nat) (tiles : List Nat) (ps : List PlaneInfo) (n base step : Nat) :
    Nat × State :=
  let (id, s) := s.fresh
  let r : Run := { id := id, owner := owner, q := q, part := p, digest := digest, tiles := tiles, planes := ps, n := n,
                   mbBase := base, step := step }
  (id, s.modWork (fun w => { w with runs := w.runs ++ [r] }))

/-- RUN_FROND (R153, R202, R307). -/
def State.runBody (s : State) (q id : Nat) (b : List Byte) : Except Earned State :=
  let p := (s.queue q).part.toNat
  let c := bits (fld b 16 1) 0 2
  let n := fld b 18 2
  let digest := fld b 32 4
  let s := s.settle
  match Tbl.find (s.part p).fronds digest with
  | none => .error ⟨stConflict, conflictAt 2 0, 0⟩
  | some (mbMax, tiles) =>
    match s.runPlanes tiles c digest with
    | .error t => .error ⟨stConflict, conflictAt 2 (s.localTile t), 0⟩
    | .ok ps =>
      if mbMax < n then .error ⟨stParamRange, fieldAt 0 18, 0⟩
      else
        let s := s.modQw q (fun x => x.onExec id (fun e => { e with digest := digest }))
        .ok (s.newRun id q p digest tiles ps n (fld b 20 2) (fld b 24 8)).2

def execRunFrond (q : Nat) (s : State) : Host.Outcome State Fault Refusal :=
  .next (s.dispatch q 0x11 (fun s id b => s.runBody q id b))

/-- UNLOAD_FROND (R156): on every tile where a named slot holds the digest, those slots become EMPTY. -/
def State.unloadBody (s : State) (q id : Nat) (b : List Byte) : Except Earned State :=
  let p := (s.queue q).part.toNat
  let mask := fld b 16 1
  let digest := fld b 20 4
  let s := s.settle
  let slots := [0, 1, 2, 3].filter (fun c => bit mask c)
  let has (t c : Nat) : Bool :=
    let x := (s.tile t).ctx c
    x.st != 0 && x.digest.toNat == digest
  let tiles := (s.size p).tiles.filter (fun t => slots.any (has t))
  match tiles.find? (fun t => slots.any (fun c =>
      let x := (s.tile t).ctx c
      x.st != 0 && x.st != 2)) with
  | some t => .error ⟨stConflict, conflictAt 2 (s.localTile t), 0⟩
  | none =>
    let s := s.modQw q (fun x => x.onExec id (fun e => { e with digest := digest }))
    let s := s.setCtxs tiles slots (fun x => if x.digest.toNat == digest then {} else x)
    let left := (s.size p).tiles.any (fun t => [0, 1, 2, 3].any (fun c =>
      let x := (s.tile t).ctx c
      x.st != 0 && x.digest.toNat == digest))
    let s := if left then s else s.modPart p (fun x => { x with fronds := Tbl.del x.fronds digest })
    .ok (s.atOnce q id)

def execUnloadFrond (q : Nat) (s : State) : Host.Outcome State Fault Refusal :=
  .next (s.dispatch q 0x12 (fun s id b => s.unloadBody q id b))

/-! ### Sync port (R146, R165) -/

/-- `f` of a run as it stands. -/
def State.onEnded (s : State) (id : Nat) (f : State → Run → State) : State :=
  match s.run id with | some r => f s r | none => s

/-- A unit of a run has issued an operation of its list (R146). -/
def State.issuedOp (s : State) (id tile unit : Nat) : State :=
  s.onRun id (fun r =>
    let k := tile * 8 + unit
    { r with unitOps := Tbl.set 0 r.unitOps k (Tbl.get 0 r.unitOps k + 1) })

/-- Another unit of the tile has an issue to make that stands before `q` in the table (log 74). -/
def State.othersBefore (s : State) (r : Run) (b : List Byte) (tile : Nat) (q : OpPlace) : Bool :=
  let before (p : Option OpPlace) : Bool := match p with | some p => p.before q r.n | none => false
  [0, 1].any (fun a => (List.range (shapePins (s.arrSetup b a).shape)).any (fun pn =>
    before (placeAt (s.isPass b pn) b a r.n (((Tbl.get ({} : Pinnule) ((s.tile tile).arr a).pins pn).posIn r.id r.cur).passes)))) ||
  [2, 3, 4, 5, 6].any (fun u => before (placeAt isIssue b u r.n (Tbl.get 0 r.unitOps (tile * 8 + u))))

/-- The operation of a SIGNAL entry on its object, by the object's type: an EVENT is set, a SEMAPHORE posted 1, a COUNTER
counts 1, a BARRIER is arrived at; the spec names none (DESIGN CHOICE, log 82). -/
def State.signalBound (s : State) (obj : Nat) : State :=
  match (s.obj obj).type.toNat with
  | 0 => s.syncOp obj 0x05 1
  | 1 => s.syncOp obj 0x03 1
  | 2 => s.syncOp obj 0x07 0
  | _ => s.syncOp obj 0x01 0

/-- The condition of a WAIT entry on its object, by type: COUNTER not zero, SEMAPHORE taken, EVENT set; none of a BARRIER
(DESIGN CHOICE, log 82). -/
def boundCond (o : Obj) : WaitCond :=
  match o.type.toNat with | 0 => .code 5 | 1 => .code 3 | 3 => .code 1 | _ => .code 0

/-- A tile's sync port has issued an entry: it counts a busy mclk, and the run has progress (R164, R187). -/
def State.portIssued (s : State) (r : Run) (tile : Nat) : State :=
  ((s.issuedOp r.id tile 7).count (s.bankOf r.q) (engTile tile 7) 0 1).onRun r.id (fun r => { r with noProg := 0 })

/-- The next entry of a tile's sync port, once every entry before it in the table has issued: the run, whether it is a
SIGNAL, and the object it is bound to. -/
def State.syncNext (s : State) (id tile : Nat) : Option (Run × Bool × Nat) :=
  match s.run id with
  | none => none
  | some r =>
    let b := ((s.tile tile).ctx r.plane.slot).bytes
    match placeAt isIssue b 7 r.n (Tbl.get 0 r.unitOps (tile * 8 + 7)) with
    | none => none
    | some p =>
      let early := match p.body with | some k => decide (r.bodies ≤ k) | none => false
      if !r.live || early || s.othersBefore r b tile p then none
      else some (r, eKind p.x == 5, s.physObj r.part (s.syncBind b (eIndex p.x)).1)

/-- That entry issues; a WAIT, when its object is ready. Until then it is a timed input that may be late (R165). -/
def State.syncEntry (s : State) (id tile : Nat) : Option State :=
  match s.syncNext id tile with
  | none => none
  | some (r, true, obj) => some ((s.signalBound obj).collsGo.portIssued r tile)
  | some (r, false, obj) =>
    let c := boundCond (s.obj obj)
    if condHolds (s.obj obj) c 0 && !(c == .code 3 && s.takers obj) then
      some ((s.setObj obj (condAct (s.obj obj) c)).portIssued r tile)
    else none

/-- Entries of a tile's sync port issue as far as they may. -/
def State.syncPort (s : State) (id tile : Nat) : Nat → State
  | 0 => s
  | n + 1 => match s.syncEntry id tile with | some s => s.syncPort id tile n | none => s

/-- The sync ports of a run's tiles. -/
def State.syncPorts (s : State) (id : Nat) : State :=
  match s.run id with
  | none => s
  | some r => r.tiles.foldl (fun s t =>
      s.syncPort id t (expectedOps ((s.tile t).ctx r.plane.slot).bytes 7 r.n)) s

/-! ### Start and bodies -/

/-- A running frond holds a cell of a stack that this run binds (R276). -/
def State.cellsHeld (s : State) (r : Run) : Bool :=
  let mine := s.runCells r
  !mine.isEmpty && s.work.runs.any (fun x => x.id != r.id && x.start.isSome && (s.runCells x).any mine.contains)

/-- The start S of a run (R153): no other run on its tiles, no cell of its bindings held (R276), no divider change
pending, every tile awake (R426). -/
def State.runStart (s : State) (r : Run) : State :=
  let s := s.settle
  let busy := r.tiles.any (fun t => [0, 1, 2, 3].any (fun c =>
    let x := (s.tile t).ctx c
    x.st == 3 || x.st == 4))
  if r.start.isSome || r.stopping || busy || s.cellsHeld r || s.clk.pendingDiv.isSome || !s.running ||
     !r.tiles.all s.tileAwake then s
  else
    let s := s.untilRoot (s.nextEdge r.unit)
    let m := s.mclk
    let s := s.startAt r.q r.owner m
    let s := s.setCtxs r.tiles [r.plane.slot] (fun x => { x with st := 3 })
    let b := s.bank (s.bankOf r.q)
    let s := (s.freshCredits r.tiles).onRun r.id (fun x => { x with start := some m, coverAt := s.counted r.part }.rebase b 0 (s.causeBy r.part))
    let srcs := if s.work.updates.any (fun u => u.id == r.owner) then [] else r.tiles.map srcTile
    (s.traceCmd r.q r.owner srcs 0x01 0).syncPorts r.id

def execRunStart (id : Nat) (s : State) : Host.Outcome State Fault Refusal :=
  .next (s.unlessHalted (fun s => match s.run id with | some r => s.runStart r | none => s))

/-- Body position k of the run's plane starts, or the run is held at the armed break (R154, R451). -/
def State.bodyStart (s : State) (r : Run) : State :=
  let k := r.bodies
  if !r.live || r.stopping || decide (r.n ≤ k) then s
  else
    let pl := r.plane
    let s := s.untilMclk (r.stamp (r.ap + pl.fill + k * pl.ii))
    if s.dbg.brkEnable && !s.dbg.brkHit && s.dbg.brkPlane.toNat == pl.plane && s.dbg.brkMb.toNat == r.mb k then
      let h : Hold := { cause := 1, since := s.mclk, live := s.clk.live }
      let s := (s.modDbg (fun d => { d with brkHit := true })).onRun r.id (fun x => { x with hold := some h })
      r.tiles.foldl (fun s t => s.traceEv (srcTile t) 0 0x06 3 1) s
    else
      let s := (s.onRun r.id (fun x => { x with bodies := k + 1 })).syncPorts r.id
      r.tiles.foldl (fun s t => s.traceEv (srcTile t) 0 0x03 1 (r.mb k % 2 ^ 16 + pl.plane * 2 ^ 16)) s

def execBodyStart (id : Nat) (s : State) : Host.Outcome State Fault Refusal :=
  .next (s.unlessHalted (fun s => match s.run id with | some r => s.bodyStart r | none => s))

/-- Tile and unit pairs whose list has unissued entries at the end of the plane (R154). -/
def State.unissued (s : State) (r : Run) : List (Nat × Nat) :=
  (r.tiles.map (fun t =>
    let b := ((s.tile t).ctx r.plane.slot).bytes
    ((List.range 8).filter (fun u => decide (Tbl.get 0 r.unitOps (t * 8 + u) < expectedOps b u r.n))).map
      (fun u => (t, u)))).flatten

/-- Earn STEER_ORPHAN for units with leftovers (R154, R184, R305). -/
def State.orphans (s : State) (id : Nat) (l : List (Nat × Nat)) : State :=
  match l with
  | [] => s
  | (t, u) :: _ =>
    s.onRun id (fun x => { x with earned := earn x.earned ⟨stOrphan, s.localTile t + u * 2 ^ 11, min 255 l.length⟩ })

/-- Tokens and data left in the steering units of a run's tiles: units 8 to 11 (R184, R305). -/
def State.steerLeft (s : State) (r : Run) : List (Nat × Nat) :=
  (r.tiles.map (fun t =>
    ((List.range 4).filter (fun u => Tbl.get ({} : Steer) (s.tile t).steer u != ({} : Steer))).map (fun u => (t, u + 8)))).flatten

/-- Steering queues of the tiles are emptied. -/
def State.emptySteer (s : State) (tiles : List Nat) : State :=
  tiles.foldl (fun s t => s.modTile t (fun x => { x with steer := [] })) s

/-- Every tile of the frond switches planes in one mclk (R154, R172). What the old plane leaves in the steering units is
discarded there, as the new plane's configuration takes them (R184, log 81). -/
def State.planeSwitch (s : State) (r : Run) : State :=
  let pl := r.plane
  if !r.live || r.stopping || pl.last || decide (r.bodies ≠ r.n) then s
  else
    let u := r.ap + pl.span r.n
    let s := ((s.untilMclk (r.stamp u)).syncPorts r.id).settle
    let s := s.onEnded r.id (fun s r => s.orphans r.id (s.unissued r))
    let next := (r.planes.getD (r.cur + 1) pl).slot
    -- steering leftovers of the plane are orphans; the context drained before is LOADED by now
    let s := (s.orphans r.id (s.steerLeft r)).emptySteer r.tiles
    let s := s.setCtxs r.tiles (r.planes.map (fun p => p.slot)) (fun x => if x.st == 4 then { x with st := 2 } else x)
    let s := s.setCtxs r.tiles [pl.slot] (fun x => { x with st := 4 })
    let s := s.setCtxs r.tiles [next] (fun x => { x with st := 3 })
    let s := s.freshCredits r.tiles
    let s := s.onRun r.id (fun x =>
      { x with cur := x.cur + 1, bodies := 0, ap := u, unitOps := [], leaving := some (pl.slot, s.workEnd r.tiles) })
    (r.tiles.foldl (fun s t => s.traceEv (srcTile t) 0 0x04 1 (pl.slot + 4 * next)) s).syncPorts r.id

def execPlaneSwitch (id : Nat) (s : State) : Host.Outcome State Fault Refusal :=
  .next (s.unlessHalted (fun s => match s.run id with | some r => s.planeSwitch r | none => s))

/-- Unheld mclk from S to the end of issue: of every body, or of the bodies started before the stop token (R192). -/
def Run.issueAt (r : Run) : Nat := r.ap + r.plane.span (if r.stopping then r.bodies else r.n)

def State.issueEnd (s : State) (r : Run) : State :=
  if !r.live || !(r.stopping || (r.plane.last && r.bodies == r.n)) then s
  else
    let s := (s.untilMclk (r.stamp r.issueAt)).syncPorts r.id
    let s := if r.stopping then s else s.onEnded r.id (fun s r => s.orphans r.id (s.unissued r))
    let s := s.setCtxs r.tiles [r.plane.slot] (fun x => { x with st := 4 })
    s.onRun r.id (fun x => { x with issueEnded := true })

def execIssueEnd (id : Nat) (s : State) : Host.Outcome State Fault Refusal :=
  .next (s.unlessHalted (fun s => match s.run id with | some r => s.issueEnd r | none => s))

/-! ### Ends -/

/-- Tokens, data and chain rows left on the run's tiles: steering units are 8 to 11, a CHAIN_IN queue is its feeder
(R95, R184, R305). -/
def State.leftovers (s : State) (r : Run) : List (Nat × Nat) :=
  (r.tiles.map (fun t =>
    ([0, 1].filter (fun a => !((s.tile t).arr a).chainQ.isEmpty)).map (fun u => (t, u)))).flatten ++ s.steerLeft r

/-- Steering queues and chain queues of the tiles are emptied; `streams`: so are stream queues and source buffers. -/
def State.emptyQueues (s : State) (tiles : List Nat) (streams : Bool) : State :=
  tiles.foldl (fun s t => s.modTile t (fun x =>
    { x with steer := [], ma0 := { x.ma0 with chainQ := [] }, ma1 := { x.ma1 with chainQ := [] },
             queues := if streams then [] else x.queues, srcs := if streams then [] else x.srcs })) s

/-- A run leaves: its contexts return to LOADED, and its command completes; a plane of UPDATE_STEP or ROOT_REFRESH
hands its statuses to the command (R217, R297). -/
def State.leaveRun (s : State) (r : Run) (stop : Nat) (es : List Earned) : State :=
  let s := s.tally (s.bankOf r.q)
  let s := if r.start.isNone then s else s.cover r.part r.engines (s.covered r.part r.coverAt
    (if s.bankOf r.q = s.ambient r.part then s.elapsed r - r.baseAt else 0))
  let s := s.setCtxs r.tiles (r.planes.map (fun p => p.slot)) (fun x =>
    if x.st == 3 || x.st == 4 then { x with st := 2 } else x)
  let s := s.modWork (fun w => { w with runs := w.runs.filter (fun x => x.id != r.id) })
  let s := s.modQw r.q (fun x => x.onExec r.owner (fun e => { e with slip := e.slip + r.slips }))
  if s.work.updates.any (fun u => u.id == r.owner) then
    -- a stop token cuts the command between groups, not with its plane (R192)
    let es := es.filter (fun e => e.code != stStopped)
    let s := (r.earned ++ es).foldl (fun s e => s.earnOn r.q r.owner e) s
    let s := if es.isEmpty && decide (0 < r.bodies) then s.refreshAll r.owner else s
    (s.onUpd r.owner (fun u => { u with run := 0, aborted := u.aborted || !es.isEmpty })).updateCheck r.owner
  else
    let es := r.earned ++ es ++ [⟨stDone, 0, 0⟩]
    (s.traceCmd r.q r.owner (r.tiles.map srcTile) 0x02 (report es).code).finishAt r.q r.owner stop es

/-- The run is complete: E lies END mclk after the end of issue (R145, R164). -/
def State.runComplete (s : State) (r : Run) : State :=
  if !r.issueEnded || r.hold.isSome || s.opHeld r then s
  else
    let e := r.stamp (r.issueAt + r.plane.endc)
    let s := s.untilMclk e
    let cut := r.stopping && (decide (r.bodies < r.n) || !r.plane.last)
    let s := if cut then s else s.orphans r.id (s.leftovers r)
    let s := s.emptyQueues r.tiles false
    match s.run r.id with
    | some r => s.leaveRun r (e - 1) (if cut then [⟨stStopped, 0, 0⟩] else [])
    | none => s

def execRunComplete (id : Nat) (s : State) : Host.Outcome State Fault Refusal :=
  .next (s.unlessHalted (fun s => match s.run id with | some r => s.runComplete r | none => s))

/-! ### Holds -/

/-- A timed input is late at its presentation mclk (R165, R166): a hold begins, or one of the same mclk takes the
first cause in order. -/
def State.lateInput (s : State) (r : Run) (input cls cause : Nat) : State :=
  if r.start.isNone || r.issueEnded || !lateOk cls cause then s
  else
    match r.hold with
    | some h =>
      if h.since = s.mclk ∧ cause < h.cause then
        s.onRun r.id (fun x => { x with hold := some { h with cause := cause, cls := cls, input := input } })
      else s
    | none =>
      let h : Hold := { cause := cause, since := s.mclk, cls := cls, input := input, live := s.clk.live }
      let s := s.onRun r.id (fun x => { x with hold := some h })
      r.tiles.foldl (fun s t => s.traceEv (srcTile t) 0 0x06 3 cause) s

def execTimedInputLate (id input cls cause : Nat) (s : State) : Host.Outcome State Fault Refusal :=
  .next (s.unlessHalted (fun s => match s.run id with | some r => s.lateInput r input cls cause | none => s))

/-- A hold ends: its length is the smallest whole number of frames and of mclk that reaches now (R165); every stamp of the
run's units moves on by it. -/
def State.endHold (s : State) (r : Run) (h : Hold) : State :=
  let len := wholeHold r.unit s.clk.div (s.mclk - h.since)
  let s := s.untilMclk (h.since + len)
  let s := (s.addSlip r h.cause len).onRun r.id (fun x => { x with
    hold := none, waits := x.waits.map (fun w => { w with since := w.since + len }), movesTo := shiftBy h.since len x.movesTo 0,
    leaving := x.leaving.map (fun (c, m) => (c, shiftBy h.since len m 0)) })
  let s := s.shiftTiles r.tiles h.since len
  (r.tiles.foldl (fun s t => s.traceEv (srcTile t) 0 0x07 3 (h.cause + len * 8)) s).syncPorts r.id

/-- The break hold of R451 ends only once CONTINUE has been written. -/
def execHoldEnd (id : Nat) (s : State) : Host.Outcome State Fault Refusal :=
  .next (s.unlessHalted (fun s =>
    match s.run id with
    | some r =>
      match r.hold with
      | some h => if h.cause = 1 ∧ s.dbg.brkHit then s else s.endHold r h
      | none => s
    | none => s))

/-- The waiting point whose wait began earliest, ties by tile and unit (R188, R305). -/
def Run.starvePoint (r : Run) (s : State) : Nat :=
  let key (w : WaitPoint) := (w.since * 2048 + w.tile) * 16 + w.unit
  match r.waits with
  | [] => 0
  | w :: ws =>
    let m := ws.foldl (fun a x => if key x < key a then x else a) w
    s.localTile m.tile + m.unit * 2 ^ 11 + m.stream * 2 ^ 16

/-- A unit of a run waits, from this mclk unless it already does (R188). -/
def State.waitAt (s : State) (id tile unit stream : Nat) : State :=
  s.onRun id (fun r =>
    if r.waits.any (fun w => w.tile == tile && w.unit == unit && w.stream == stream) then r
    else { r with waits := r.waits ++ [⟨tile, unit, stream, s.mclk⟩] })

/-- A unit of a run moves a beat: the no-progress counter returns to 0 and the unit's wait ends (R187). -/
def State.moved (s : State) (id tile unit : Nat) : State :=
  s.onRun id (fun r =>
    { r with noProg := 0, waits := r.waits.filter (fun w => !(w.tile == tile && w.unit == unit)) })

/-- An operation of a unit of the run moves beats up to mclk `m` (R187). -/
def State.movesTo (s : State) (id m : Nat) : State := s.onRun id (fun r => { r with movesTo := max r.movesTo m })

/-- The limit in force in the present mclk (R189). -/
def State.noProgLimit (s : State) : Nat := if s.mclk < s.dbg.noProgFrom then s.dbg.noProgWas else s.dbg.noProgress.toNat

/-- The mclk in which a counter that goes on counting reaches the limit, a change of the limit included (R187, R189). -/
def State.starveAt (s : State) (r : Run) : Nat :=
  let from' := max s.mclk r.movesTo
  let k := if s.mclk < r.movesTo then 0 else r.noProg
  let m := from' + (s.noProgLimit - k)
  if s.mclk < s.dbg.noProgFrom ∧ s.dbg.noProgFrom ≤ m then max s.dbg.noProgFrom (from' + (s.dbg.noProgress.toNat - k)) else m

end Sys2Proof.Machine
end

