-- ==== Sys2Proof/Machine/Operands.lean ====
section
/-!
DEFINITION. Operands of the tile units: elements in the stored formats (R35, R37), the spaces of a tile and of an update
engine (R82, R137, R140), input queues of streams (R170, R171), and the work a row belongs to.
-/
namespace Sys2Proof

/-- Bytes an element of index `i` of a row touches: first byte, byte count, bit shift. -/
def Fmt.place (f : Fmt) (i : Nat) : Nat × Nat × Nat :=
  let b := i * f.elemBits
  let last := (b + f.elemBits - 1) / 8
  (b / 8, last - b / 8 + 1, b % 8)

/-- The value of element bits under a block scale code, which plain formats do not use. -/
def Fmt.value (f : Fmt) (w scale : Nat) : Val :=
  if f.isBlock then applyScale scale (f.decode w) else f.decode w

/-- Element codes packed from bit 0 upward (R35). -/
def packBits (n : Nat) : List Nat → Nat
  | [] => 0
  | c :: cs => c % 2 ^ n + 2 ^ n * packBits n cs

/-- The bytes of consecutive elements. -/
def Fmt.bytes (f : Fmt) (cs : List Nat) : List Byte := leBytes (ceilDiv (cs.length * f.elemBits) 8) (packBits f.elemBits cs)

end Sys2Proof

namespace Sys2Proof.Machine

/-! ### Whose work a row is -/

/-- Queue, command, partition and step of a piece of work, and whether it issues. -/
structure Issuer where
  q : Nat
  owner : Nat
  part : Nat
  step : Nat
  live : Bool
  deriving DecidableEq, Repr

/-- The work of an identifier: a run, an operator, a FUSED_CHAIN, or UPDATE_STEP and ROOT_REFRESH. -/
def State.issuer (s : State) (id : Nat) : Option Issuer :=
  match s.run id with
  | some r => some ⟨r.q, r.owner, r.part, r.step, r.live⟩
  | none =>
    match s.work.ops.find? (fun o => o.id == id) with
    | some o => some ⟨o.q, o.owner, o.part, fld o.arg 16 4, o.start.isSome⟩
    | none =>
      match s.work.fused.find? (fun f => f.id == id) with
      | some f => some ⟨f.q, f.id, f.part, 0, true⟩
      | none => (s.work.updates.find? (fun u => u.id == id)).map (fun u => ⟨u.q, u.id, u.part, u.step, true⟩)

def State.seedOf (s : State) (i : Issuer) : Nat := (s.queue i.q).seed.toNat

/-- Earn a status on the command or, while it runs, on the run (R305). -/
def State.earnWork (s : State) (id : Nat) (i : Issuer) (e : Earned) : State :=
  match s.run id with
  | some _ => s.onRun id (fun r => { r with earned := earn r.earned e })
  | none => s.earnOn i.q i.owner e

/-! ### Elements -/

/-- The stored bits of element `i` of the row at offset `base`, and whether a byte of it is marked. -/
def State.rdElem (s : State) (key : Nat → Option Nat) (f : Fmt) (base i : Nat) : Nat × Bool :=
  let (o, n, sh) := f.place i
  let ks := (List.range n).map (fun j => key (base + o + j))
  (bits (leNat (ks.map (fun k => match k with | some k => s.rd k | none => 0))) sh f.elemBits,
   ks.any (fun k => match k with | some k => s.marked k | none => false))

/-- A byte, and its mark. -/
def State.rdByte (s : State) (key : Nat → Option Nat) (o : Nat) : Byte × Bool :=
  match key o with
  | some k => (s.rd k, s.marked k)
  | none => (0, false)

/-- Cells of bytes at an offset of a space, all with one mark. -/
def cellsAt (key : Nat → Option Nat) (off : Nat) (bs : List Byte) (mark : Bool) : List Cell :=
  ((List.range bs.length).zip bs).filterMap (fun (i, b) => (key (off + i)).map (fun k => (k, b, mark)))

/-! ### Spaces -/

/-- Memory key of an offset of a tile's store or operand cache, under latched roles. -/
def State.tileKey (s : State) (t roles : Nat) (cache : Bool) (off : Nat) : Option Nat :=
  if cache then (if off < 131072 then some (tileBase t + 0x680000 + off) else none)
  else if off < 0x600000 then some (tileBase t + (s.tile t).xlat roles off) else none

/-- Memory key of an offset of an update engine's staging buffer or constant window (R140). -/
def ueKey (k : Nat) (window : Bool) (off : Nat) : Option Nat :=
  if window then (if off < 131072 then some (stagingRegion + k * 2 ^ 23 + 2 ^ 23 - 131072 + off) else none)
  else if off < 2 ^ 23 then some (stagingRegion + k * 2 ^ 23 + off) else none

/-- Key of byte 0 of accumulator element (r, n) of an array (R82). -/
def accKey (t a r n : Nat) : Nat := tileBase t + 0x600000 + 0x40000 * a + 256 * r + 4 * n

/-- An accumulator element and the poison of its segment (R85). -/
def State.acc (s : State) (t a r n : Nat) : Nat × Bool :=
  let k := accKey t a r n
  (leNat ((List.range 4).map (fun i => s.rd (k + i))), s.marked k)

/-- Cells of accumulator elements: row r, columns from c0. -/
def accCells (t a r c0 : Nat) (ws : List (Nat × Bool)) : List Cell :=
  (((List.range ws.length).zip ws).map (fun (i, w, p) =>
    ((List.range 4).zip (leBytes 4 w)).map (fun (j, b) => (accKey t a r (c0 + i) + j, b, p)))).flatten

/-! ### Input queues of streams -/

/-- The queue of a stream at destination unit `u` of a tile: R178's DEST (R171). -/
def Tile.queue (t : Tile) (st u : Nat) : StreamQ := Tbl.get {} t.queues (st * 8 + u)
def State.setQueue (s : State) (t st u : Nat) (q : StreamQ) : State :=
  s.modTile t (fun x => { x with queues := Tbl.set {} x.queues (st * 8 + u) q })

/-- Tiles whose source feeds the stream's queue `dest` = tile × 8 + DEST. -/
def State.sourcesOf (s : State) (st dest : Nat) : List Nat :=
  (s.tiles.filter (fun (_, x) => decide (0 < Tbl.get 0 (Tbl.get ({} : StreamSrc) x.srcs st).spent dest))).map Prod.fst

/-- Take `n` beats from a queue; each frees a credit that starts back to its source (R172). -/
def State.takeBeats (s : State) (t st u n : Nat) : List Beat × State :=
  let q := (s.tile t).queue st u
  let bs := q.beats.take n
  let s := s.setQueue t st u { q with beats := q.beats.drop n }
  match s.sourcesOf st (t * 8 + u) with
  | [] => (bs, s)
  | src :: _ =>
    (bs, s.modTile src (fun x =>
      let c := Tbl.get ({} : StreamSrc) x.srcs st
      { x with srcs := Tbl.set {} x.srcs st { c with returning := c.returning ++ List.replicate bs.length (t * 8 + u) } }))

/-- Lane `i` of a beat is masked: bit i of its lane mask is 1 (log 10). -/
def laneMasked (b : Beat) (i : Nat) : Bool := bit b.mask i

/-- A null beat (R170). -/
def nullBeat : Beat := { lanes := List.replicate 16 0, mask := 0xFFFF, poison := false }

/-- The bytes of a beat: a masked lane supplies 0 (R119, R170). -/
def beatBytes (b : Beat) : List Byte :=
  ((List.range 16).map (fun i => leBytes 4 (if bit b.mask i then 0 else b.lanes.getD i 0))).flatten

/-- A stall of a tile unit, in the bank of the work (R435, R437). -/
def State.stall (s : State) (i : Issuer) (t unit c n : Nat) : State := s.count (s.bankOf i.q) (engTile t unit) c n

end Sys2Proof.Machine
end

