-- ==== Sys2Proof/Machine/Routes.lean ====
section
/-!
DEFINITION. Stream routes and queues as the active contexts give them (06 R157 to R160; 07 R171 to R178, R186): node
tables, the destinations of a stream, steering entries, queue allocation, credits.
-/
namespace Sys2Proof.Machine

/-- The active context of a tile; the bytes of no context are none. -/
def Tile.active (t : Tile) : List Byte :=
  match [0, 1, 2, 3].find? (fun c => (t.ctx c).st == 3) with
  | some c => (t.ctx c).bytes
  | none => []

/-! ### Node tables (R157 to R159) -/

/-- Entries of a context's node table that route something. -/
def nodeEntries (b : List Byte) : List Nat :=
  (List.range (min 256 ((b.length - 0x2F00) / 8))).map (fun i => fld b (0x2F00 + 8 * i) 8) |>.filter (fun x => bits x 20 6 != 0)
def nStream (x : Nat) : Nat := bits x 0 16
def nIn (x : Nat) : Nat := bits x 16 3
def nOut (x : Nat) : Nat := bits x 20 6
def nSlots (x : Nat) : Nat := bits x 32 16

/-- The side on which a link code arrives: north meets south, east meets west, a rhizome crossing itself. -/
def nOpposite : Nat → Nat
  | 1 => 3 | 2 => 4 | 3 => 1 | 4 => 2 | c => c

/-- Physical tiles across link code c of a tile: one neighbour on the die, or the facing tiles of joined dies. On a corner
tile that faces two dies code 5 names both, as R157 gives one code for either boundary (DESIGN CHOICE, log 83). -/
def across (t c : Nat) : List Nat :=
  let d := t / 144
  let y := t % 144 / 12
  let x := t % 12
  match c with
  | 1 => if 0 < y then [t - 12] else []
  | 2 => if x < 11 then [t + 1] else []
  | 3 => if y < 11 then [t + 12] else []
  | 4 => if 0 < x then [t - 1] else []
  | 5 =>
    (if x = 11 ∧ d % 4 < 3 then [(d + 1) * 144 + y * 12] else []) ++
    (if x = 0 ∧ 0 < d % 4 then [(d - 1) * 144 + y * 12 + 11] else []) ++
    (if y = 11 ∧ d < 4 then [(d + 4) * 144 + x] else []) ++
    (if y = 0 ∧ 4 ≤ d then [(d - 4) * 144 + 132 + x] else [])
  | _ => []

/-- Follow a stream from a tile it entered by code `arrived`, over tiles that `ok` admits: the tiles where it has a local
destination. -/
def followStream (ctx : Nat → List Byte) (ok : Nat → Bool) (st : Nat) : Nat → Nat → Nat → List Nat
  | 0, _, _ => []
  | n + 1, t, arrived =>
    match (nodeEntries (ctx t)).find? (fun x => nStream x == st && nIn x == arrived) with
    | none => []
    | some x =>
      (if bit (nOut x) 0 then [t] else []) ++
        (([1, 2, 3, 4, 5].filter (fun c => bit (nOut x) c)).map (fun c =>
          (((across t c).filter ok).map (fun u => followStream ctx ok st n u (nOpposite c))).flatten)).flatten

/-- The destination tiles of the stream whose source is on a tile: none lies in another partition (R23). -/
def State.destsOf (s : State) (t st : Nat) : List Nat :=
  followStream (fun u => (s.tile u).active) (fun u => s.partOfTile u == s.partOfTile t) st 1200 t 0

/-! ### Queue allocation and steering (R176 to R178) -/

/-- The used entries of a context's queue allocation table. -/
def allocEntries (b : List Byte) : List Nat :=
  ((List.range 64).map (fun i => fld b (0x3780 + 8 * i) 8)).filter (fun x => bits x 24 9 != 0)
def aStream (x : Nat) : Nat := bits x 0 16
def aDest (x : Nat) : Nat := bits x 16 4
def aDepth (x : Nat) : Nat := bits x 24 9
def aBase (x : Nat) : Nat := bits x 33 8
def aSkew (x : Nat) : Nat := bits x 48 16

/-- Steering entry u of a context. -/
def steerEntry (b : List Byte) (u : Nat) : List Byte := slice b (0x3700 + 32 * u) 32
def sKind (x : List Byte) : Nat := bits (fld x 0 2) 0 2
def sWays (x : List Byte) : Nat := bits (fld x 0 2) 2 3
def sBeats (x : List Byte) : Nat := bits (fld x 0 2) 8 7
def sToken (x : List Byte) : Nat := fld x 2 2
def sData (x : List Byte) : Nat := fld x 4 2
def sWay (x : List Byte) (w : Nat) : Nat := fld x (6 + 2 * w) 2

/-- Where a beat of a stream lands on a tile: an input queue, tokens of unit u, or data queue w of unit u. -/
inductive Sink where
  | queue (unit depth : Nat)
  | token (u : Nat)
  | data (u w : Nat)
  deriving DecidableEq, Repr

/-- The sinks of a stream under a context. -/
def sinksOf (b : List Byte) (st : Nat) : List Sink :=
  let units := (List.range 4).map (fun u =>
    let x := steerEntry b u
    if sKind x = 0 then []
    else
      (if sToken x = st then [Sink.token u] else []) ++
      (if sKind x = 1 then (if sData x = st then [Sink.data u 0] else [])
       else (List.range (sWays x)).filterMap (fun w => if sWay x w = st then some (Sink.data u w) else none)))
  units.flatten ++ ((allocEntries b).filter (fun x => aStream x == st)).map (fun x => Sink.queue (aDest x) (aDepth x))

def Steer.data (x : Steer) : Nat → List Beat
  | 0 => x.data0 | 1 => x.data1 | 2 => x.data2 | _ => x.data3
def Steer.setData (x : Steer) (w : Nat) (l : List Beat) : Steer :=
  match w with
  | 0 => { x with data0 := l } | 1 => { x with data1 := l } | 2 => { x with data2 := l } | _ => { x with data3 := l }
def State.steer (s : State) (t u : Nat) : Steer := Tbl.get {} (s.tile t).steer u
def State.modSteer (s : State) (t u : Nat) (f : Steer → Steer) : State :=
  s.modTile t (fun x => { x with steer := Tbl.set {} x.steer u (f (Tbl.get {} x.steer u)) })

/-- Tokens a beat carries: value and poison of each unmasked lane (R179, R183). -/
def beatTokens (b : Beat) : List (Nat × Bool) :=
  ((List.range 16).filter (fun i => !laneMasked b i)).map (fun i => (b.lanes.getD i 0 % 4, b.poison))

/-! ### Credits (R172, R175, R182) -/

def State.source (s : State) (t st : Nat) : StreamSrc := Tbl.get {} (s.tile t).srcs st
def State.modSource (s : State) (t st : Nat) (f : StreamSrc → StreamSrc) : State :=
  s.modTile t (fun x => { x with srcs := Tbl.set {} x.srcs st (f (Tbl.get {} x.srcs st)) })

/-- Credits the source of a stream holds for queue `u` of a destination, of the depth. -/
def State.credits (s : State) (t st dest u depth : Nat) : Nat := depth - Tbl.get 0 (s.source t st).spent (dest * 8 + u)

/-- The source may send beats, the first of them `b`, to a destination tile: `n` of them fit every sink. -/
def State.roomAt (s : State) (t st dest n : Nat) (tokens : Nat) : Bool :=
  let ks := sinksOf (s.tile dest).active st
  !ks.isEmpty && ks.all (fun k => match k with
    | .queue u d => decide (n ≤ s.credits t st dest u d)
    | .token u => decide ((s.steer dest u).tokens.length + tokens ≤ 32)
    | .data u w => decide (((s.steer dest u).data w).length + n ≤ 64))

/-- A beat lands at a destination; an input queue's costs the source a credit. -/
def State.land (s : State) (t st dest : Nat) (b : Beat) : State :=
  (sinksOf (s.tile dest).active st).foldl (fun s k => match k with
    | .queue u _ =>
      let q := (s.tile dest).queue st u
      let s := s.setQueue dest st u { beats := q.beats ++ [b], peak := max q.peak (q.beats.length + 1) }
      s.modSource t st (fun c =>
        { c with spent := Tbl.set 0 c.spent (dest * 8 + u) (Tbl.get 0 c.spent (dest * 8 + u) + 1) })
    | .token u => s.modSteer dest u (fun x => { x with tokens := x.tokens ++ beatTokens b })
    | .data u w => s.modSteer dest u (fun x => x.setData w (x.data w ++ [b]))) s

/-- Destination unit of a stream that a LOAD stage of the tile takes: 4 or 5, as the active context allots it (R178). -/
def State.loadDest (s : State) (t st : Nat) : Nat :=
  if (allocEntries (s.tile t).active).any (fun x => aStream x == st && aDest x == 4) ||
    !((s.tile t).queue st 4).beats.isEmpty then 4 else 5

/-- Destination units of one join: the LOAD stages of the vector engine, or one feeder or load path. -/
def joinOf (dest : Nat) : Nat := if dest = 5 then 4 else dest

/-- Why the source of a stream holds: STALL_JOIN_SKEW where a full skew queue's join has another input queue empty,
STALL_DOWNSTREAM otherwise (R186). -/
def State.holdCause (s : State) (t st : Nat) : Nat :=
  let skewed (d : Nat) : Bool :=
    let b := (s.tile d).active
    (allocEntries b).any (fun x => aStream x == st && aSkew x != 0 && s.credits t st d (aDest x) (aDepth x) == 0 &&
      (allocEntries b).any (fun y => aStream y != st && joinOf (aDest y) == joinOf (aDest x) &&
        ((s.tile d).queue (aStream y) (aDest y)).beats.isEmpty))
  if (s.destsOf t st).any skewed then 5 else 4

end Sys2Proof.Machine
end

