-- ==== Sys2Proof/Machine/Arrays.lean ====
section
/-!
DEFINITION. Matrix arrays (03 R57 to R81) and the accumulate stage with its chains (04 R82 to R95): the rows
STREAMING_ROW_ISSUE and SLOT_ROW_LOAD.
-/
namespace Sys2Proof.Machine

/-- mclk between two rows of a pinnule (R58, R93); two rows of the 4/6-bit class share one unless the pass is chained. -/
def rowMclk (cls m : Nat) (chained : Bool) : Nat :=
  match cls with | 0 => if chained then 1 else (m + 1) % 2 | 1 => 1 | _ => 2

/-! ### Feeds -/

def rowBytes (r : RowIssue) : Nat :=
  ceilDiv (r.kUsed * ((Fmt.ofCode r.fmtA).getD .fp32).elemBits) 8
def rowBlock (r : RowIssue) : Bool := ((Fmt.ofCode r.fmtA).getD .fp32).isBlock

/-- The feed window is left (R79): by an element byte, or by a scale byte that is read from memory. -/
def rowOutside (r : RowIssue) : Bool :=
  let out (o n : Nat) : Bool := decide (o < r.winBase) || decide (r.winLimit + 1 < o + n)
  match r.src with
  | .store o | .cache o => out o (rowBytes r) || (rowBlock r && !r.scaleStream && out r.scale (ceilDiv r.kUsed 32))
  | .stream _ => false

/-- Beats a row takes from its stream: the spec does not say how rows lie in beats, and the model gives each row whole
beats (DESIGN CHOICE, log 77). A stream of scales gives one beat per row. -/
def rowBeats (r : RowIssue) : Nat := ceilDiv (rowBytes r) 64

/-- The words of tile store a row reads, scale bytes included; none where it comes from elsewhere (R264). -/
def rowWords (r : RowIssue) : List Nat :=
  match r.src with
  | .store o => accessWords o (rowBytes r) ++
      (if rowBlock r && !r.scaleStream then accessWords r.scale (ceilDiv r.kUsed 32) else [])
  | .cache _ => []
  | .stream _ => if rowBlock r && !r.scaleStream then accessWords r.scale (ceilDiv r.kUsed 32) else []

/-- The streams a row takes beats from, with the number of beats. -/
def rowStreams (r : RowIssue) : List (Nat × Nat) :=
  (match r.src with | .stream st => [(st, rowBeats r)] | _ => []) ++
  (if rowBlock r && r.scaleStream then [(r.scale, 1)] else [])

/-- The values of a row's K positions, none where a lane is masked, and whether the row carries poison; the beats of its
streams are taken. -/
def State.feedRow (s : State) (r : RowIssue) (roles : Nat) : List (Option Val) × Bool × State :=
  let f := (Fmt.ofCode r.fmtA).getD .fp32
  let key (c : Bool) := s.tileKey r.tile roles c
  let pad := List.replicate (shapeK r.shape - r.kUsed) (some Val.zero)
  let inCache := match r.src with | .cache _ => true | _ => false
  let (scs, s1) := if f.isBlock && r.scaleStream then s.takeBeats r.tile r.scale r.array 1 else ([], s)
  let scales := scs.headD nullBeat
  let scale (j : Nat) : Nat × Bool :=
    if !f.isBlock then (0, false)
    else if r.scaleStream then (bits (leNat (beatBytes scales)) (8 * (j / 32)) 8, scales.poison)
    else
      let (b, p) := s.rdByte (key inCache) (r.scale + j / 32)
      (b.toNat, p)
  let mem (c : Bool) (o : Nat) : List (Option Val) × Bool :=
    let es := (List.range r.kUsed).map (fun j =>
      let (w, p) := s.rdElem (key c) f o j
      let (sc, ps) := scale j
      (some (feedValue r.fmtA r.sub (f.value w sc)), p || ps))
    (es.map Prod.fst ++ pad, es.any Prod.snd)
  match r.src with
  | .store o => let (v, p) := mem false o; (v, p, s1)
  | .cache o => let (v, p) := mem true o; (v, p, s1)
  | .stream st =>
    let (bs, s2) := s1.takeBeats r.tile st r.array (rowBeats r)
    let raw := leNat ((bs.map beatBytes).flatten)
    let vs := (List.range r.kUsed).map (fun j =>
      let o := j * f.elemBits
      if laneMasked (bs.getD (o / 512) nullBeat) (o % 512 / 32) then none
      else some (feedValue r.fmtA r.sub (f.value (bits raw o f.elemBits) (scale j).1)))
    (vs ++ pad, bs.any (fun b => b.poison) || (List.range r.kUsed).any (fun j => (scale j).2), s2)

/-! ### Pinnules -/

def MatArray.pin (a : MatArray) (pn : Nat) : Pinnule := Tbl.get {} a.pins pn
def State.pin (s : State) (t a pn : Nat) : Pinnule := ((s.tile t).arr a).pin pn
def State.modPin (s : State) (t a pn : Nat) (f : Pinnule → Pinnule) : State :=
  s.modArr t a (fun x => { x with pins := Tbl.set {} x.pins pn (f (x.pin pn)) })

/-- The set was loaded in this shape and class, as this half (R71, R76). -/
def StatSet.laidOut (c : StatSet) (shape cls part : Nat) : Bool := c.shape == shape && c.cls == cls && c.part == part

/-- Slot-rows the shadow set lacks; one that no load has begun lacks them all. -/
def StatSet.lacks (c : StatSet) : Option Nat := if c.need = 0 then none else some (c.need - c.rows)

/-- A swap: the shadow set becomes active (R67). -/
def Pinnule.swap (p : Pinnule) : Pinnule :=
  { p with active := p.shadow, shadow := { cells := p.active.cells } }

/-- Set the marks of units without writing them. -/
def State.markKeys (s : State) (ks : List Nat) : State :=
  (unitsOf ks).foldl (fun s u => s.setMark u true) s

/-- Keys of an accumulator row's columns that are a pinnule's. -/
def pinKeys (t a shape pn row : Nat) : List Nat :=
  (List.range (shapeN shape / 16)).map (fun g => accKey t a row (pinCol shape pn + 16 * g))

/-- The pinnule faults: its rows of the command so far take poison (R80, R305). -/
def State.pinFault (s : State) (r : RowIssue) (i : Issuer) : State :=
  let p := s.pin r.tile r.array r.pn
  let d := s.localTile r.tile + r.array * 2 ^ 11 + r.pn * 2 ^ 12 + (r.tag % 2 ^ 16) * 2 ^ 16
  let s := s.modPin r.tile r.array r.pn (fun p => { p with faulted := some r.work })
  let s := (p.touched.foldl (fun s row => s.markKeys (pinKeys r.tile r.array r.shape r.pn row)) s)
  let s := s.modBank (s.bankOf i.q) (fun b => b.addFault d)
  let s := s.earnWork r.work i ⟨stPinnule, d, 1⟩
  s.traceEv (srcTile r.tile) r.array 0x0A 5 d

/-! ### Counting (R78) -/

/-- A pinnule holds a ready row for `n` mclk from now: mclks in which the array is busy are not counted again, and of
two holds of one mclk the lowest pinnule's reason stands. -/
def State.arrStall (s : State) (i : Issuer) (t a pn c n : Nat) : State :=
  let x := (s.tile t).arr a
  let m := s.mclk
  let e := engTile t a
  let b := s.bankOf i.q
  if m < x.countedTo then
    if x.stallAt = m ∧ pn < x.stallPin ∧ x.stallCode ≠ c ∧ x.countedTo = m + 1 then
      ((s.modBank b (fun k => k.uncount e x.stallCode 1)).count b e c 1).modArr t a
        (fun x => { x with stallPin := pn, stallCode := c })
    else
      let k := m + n - x.countedTo
      (s.count b e c k).modArr t a (fun x => { x with countedTo := max x.countedTo (m + n) })
  else (s.count b e c n).modArr t a (fun x =>
    { x with countedTo := m + n, stallAt := m, stallPin := pn, stallCode := c })

/-- A row takes its feeder for `n` mclk from now: the fill of a chain start counts once, and a hold counted in this
mclk for another pinnule gives way (R77, R78). -/
def State.arrBusy (s : State) (i : Issuer) (t a n : Nat) : State :=
  let x := (s.tile t).arr a
  let m := s.mclk
  let e := engTile t a
  let b := s.bankOf i.q
  let fill := if x.lastIssue = 0 ∨ x.lastIssue + 10 ≤ m then 10 else 0
  let undo := decide (x.stallAt = m) && x.stallPin != 16 && decide (x.countedTo = m + 1)
  let s := if undo then s.modBank b (fun k => k.uncount e x.stallCode 1) else s
  let upTo := if undo then m else x.countedTo
  (s.count b e 0 (fill + (m + n - max m upTo))).modArr t a (fun x =>
    { x with countedTo := max upTo (m + n), stallPin := 16 })

/-! ### Stationary loads (R66, R69, R70, R75) -/

/-- The source row-major order of a set's elements: source row, source column, and the cell (k, n) of element `e`. A
block-format source lies K-innermost; a plain one does so where the load transposes (R59, R70). -/
def slotCell (r : SlotRow) (e : Nat) : Nat × Nat × Nat × Nat :=
  let f := (Fmt.ofCode r.fmt).getD .fp32
  let k := shapeK r.shape
  let n := shapeN r.shape
  if f.isBlock || r.transpose then (e / k, e % k, e % k, e / k) else (e / n, e % n, e / n, e % n)

/-- Bytes of a slot-row. -/
def slotLen (r : SlotRow) (cls : Nat) : Nat := slotElems cls * ((Fmt.ofCode r.fmt).getD .fp32).elemBits / 8

/-- Beats of its stream that slot-row `row` of a set needs, and those it uses up; slot-rows are packed across beats, as
the spec does not say how they lie in them (DESIGN CHOICE, log 77). -/
def slotBeats (len row : Nat) : Nat × Nat :=
  (ceilDiv ((row + 1) * len) 64 - row * len / 64, (row + 1) * len / 64 - row * len / 64)

/-- The streams a slot-row needs beats of. -/
def slotStreams (r : SlotRow) (cls row : Nat) : List (Nat × Nat) :=
  (match r.src with | .stream st => [(st, (slotBeats (slotLen r cls) row).1)] | _ => []) ++
  (if ((Fmt.ofCode r.fmt).getD .fp32).isBlock && r.scaleStream then [(r.scale, 1)] else [])

/-- The values of a slot-row's elements at cells, and whether one carries poison. -/
def State.slotValues (s : State) (r : SlotRow) (cls i roles : Nat) (raw : Nat) (mask : Nat → Bool) (scales : Beat) :
    List (Nat × Val) × Bool :=
  let f := (Fmt.ofCode r.fmt).getD .fp32
  let per := slotElems cls
  let es := (List.range per).map (fun j =>
    let (a, b, k, n) := slotCell r (i * per + j)
    let cell := k * shapeN r.shape + n
    if r.kUsed ≤ k ∨ r.nUsed ≤ n then (cell, Val.zero, false)
    else
      let so := r.scale + a * r.pitch / f.blockBytes + b / 32
      let scale (c : Bool) : Nat × Bool :=
        if !f.isBlock then (0, false)
        else if r.scaleStream then
          (bits (leNat (beatBytes scales)) (8 * (((i * per + j) / 32 - i * per / 32) % 64)) 8, scales.poison)
        else
          let (b, p) := s.rdByte (s.tileKey r.tile roles c) so
          (b.toNat, p)
      let get (c : Bool) (o : Nat) : Nat × Bool × Nat × Bool :=
        let (w, p) := s.rdElem (s.tileKey r.tile roles c) f (o + a * r.pitch) b
        let (sc, ps) := scale c
        (w, p, sc, ps)
      match r.src with
      | .stream _ =>
        let (sc, ps) := scale false
        if mask (j * f.elemBits) then (cell, Val.zero, ps)
        else (cell, cellValue r.fmt r.part (f.value (bits raw (j * f.elemBits) f.elemBits) sc), ps)
      | .store o => let (w, p, sc, ps) := get false o; (cell, cellValue r.fmt r.part (f.value w sc), p || ps)
      | .cache o => let (w, p, sc, ps) := get true o; (cell, cellValue r.fmt r.part (f.value w sc), p || ps))
  (es.map (fun (c, v, _) => (c, v)), es.any (fun (_, _, p) => p))

/-- The words of tile store that slot-row `row` of a set reads (R264). -/
def slotWords (r : SlotRow) (cls row : Nat) : List Nat :=
  let f := (Fmt.ofCode r.fmt).getD .fp32
  let per := slotElems cls
  let spans := (List.range per).map (fun j => slotCell r (row * per + j))
  let elem : List Nat := match r.src with
    | .store o => spans.flatMap (fun (a, b, _, _) =>
        let (at', n) := if f.isBlock then (b / 32 * f.blockBytes, f.blockBytes) else (b * f.elemBits / 8, f.elemBits / 8)
        accessWords (o + a * r.pitch + at') (max 1 n))
    | _ => []
  let inStore : Bool := match r.src with | .cache _ => false | _ => true
  let scales := if f.isBlock && !r.scaleStream && inStore then
      spans.flatMap (fun (a, b, _, _) => accessWords (r.scale + a * r.pitch / f.blockBytes + b / 32) 1) else []
  (elem ++ scales).eraseDups

/-- The slot-row has its data: every stream it reads holds the beats. -/
def State.fed (s : State) (tile unit : Nat) (l : List (Nat × Nat)) : Bool :=
  l.all (fun (st, n) => decide (n ≤ ((s.tile tile).queue st unit).beats.length))

/-- A set that a new load begins: an earlier load of the shadow leaves no trace (R69). -/
def StatSet.begin (c : StatSet) (r : SlotRow) (cls roles : Nat) : StatSet :=
  let k := shapeK r.shape * shapeN r.shape
  { shape := r.shape, cls := cls, part := if cls = 3 then r.part else 0, need := k / slotElems cls, latch := roles,
    cells := if c.cells.length = k then c.cells else List.replicate k Val.zero }

/-- The load path writes one slot-row whose data it has. -/
def State.slotWrite (s : State) (r : SlotRow) (i : Issuer) (cls : Nat) (sh : StatSet) : State :=
  let unit := 2 + r.array
  let len := slotLen r cls
  let row := sh.rows
  let (raw, mask, bad, s) := match r.src with
    | .stream st =>
      let bs := (((s.tile r.tile).queue st unit).beats).take (slotBeats len row).1
      let (_, s') := s.takeBeats r.tile st unit (slotBeats len row).2
      let skip := row * len % 64
      (leNat (((bs.map beatBytes).flatten).drop skip),
       (fun o => laneMasked (bs.getD ((8 * skip + o) / 512) nullBeat) ((8 * skip + o) % 512 / 32)),
       bs.any (fun b => b.poison), s')
    | _ => (0, (fun _ => false), false, s)
  let (scs, s) := if ((Fmt.ofCode r.fmt).getD .fp32).isBlock && r.scaleStream then s.takeBeats r.tile r.scale unit 1 else ([], s)
  let (vs, p) := s.slotValues r cls row sh.latch raw mask (scs.headD nullBeat)
  let sh := { sh with rows := row + 1, poison := sh.poison || p || bad,
                      cells := vs.foldl (fun c (x : Nat × Val) => c.set x.1 x.2) sh.cells }
  let s := s.modPin r.tile r.array r.pn (fun q => { q with shadow := sh })
  let (kind, place) := match r.src with | .store o => (0, o) | .cache o => (1, o) | .stream st => (2, st)
  let s := if p || bad then s.tracePoison (srcTile r.tile) unit kind place else s
  let s := s.stall i r.tile unit 0 1
  let s := if sh.rows = sh.need then s.issuedOp r.work r.tile unit else s
  s.moved r.work r.tile unit

/-- A load that R70 or the shape refuses. -/
def slotLegal (r : SlotRow) : Bool :=
  decide (r.pn < shapePins r.shape) &&
  !(r.transpose && (r.shape == 1 || ((Fmt.ofCode r.fmt).getD .fp32).isBlock))

/-- The next slot-row of a load, or the hold: while the shadow set is full and not swapped (R69, R190), or data lacks. A load
that begins while an unfinished set of an ended plane stands there overwrites it. -/
def State.slotLoad (s : State) (r : SlotRow) (fresh : Bool) : State :=
  match s.issuer r.work, arrClass r.fmt with
  | some i, some cls =>
    let unit := 2 + r.array
    let sh := (s.pin r.tile r.array r.pn).shadow
    if !i.live || !slotLegal r then s
    else if 0 < sh.need ∧ sh.rows = sh.need then s.stall i r.tile unit 6 1
    else
      let sh := if sh.need = 0 || fresh then sh.begin r cls (s.tile r.tile).roles else sh
      let want := slotStreams r cls sh.rows
      if !(s.fed r.tile unit want) then (s.stall i r.tile unit 1 1).waitAt r.work r.tile unit ((want.map Prod.fst).headD 0)
      else
        -- the load path is a master of class L (R265)
        match s.askBanks r.tile (reqKey unit 0) (slotWords r cls sh.rows) with
        | (.granted, s) => s.slotWrite r i cls sh
        | (.refused, s) => s.stall i r.tile unit 1 1
        | (.bound, s) => s.stall i r.tile unit 6 1
  | _, _ => s

/-- The load path's present entry in the list of a run, as a slot-row (R66): one set at a time, in list order. -/
def State.nextSlot (s : State) (id tile array : Nat) : Option (SlotRow × Bool) :=
  match s.run id with
  | none => none
  | some r =>
    let b := ((s.tile tile).ctx r.plane.slot).bytes
    if !r.live || !r.tiles.contains tile then none
    else
      match placeAt isOp b (2 + array) r.n (Tbl.get 0 r.unitOps (tile * 8 + 2 + array)) with
      | none => none
      | some p =>
        if (match p.body with | some k => decide (r.bodies ≤ k) | none => false) then none
        else
          let l := s.loadRec b (eIndex p.x)
          let u := s.arrSetup b array
          let q := s.pinSetup b array l.pn
          let run := match p.body with | some k => r.index k | none => 0
          let addr := ((l.addr : Int) + eAddr p.x * (run : Int)).toNat
          let scale := ((q.scaleB : Int) + (if l.scaleStream then 0 else eAddr p.x * (run : Int))).toNat
          let a := (s.tile tile).arr array
          let sh := (a.pin l.pn).shadow
          let row : SlotRow :=
            { work := id, tile := tile, array := array, pn := l.pn, shape := u.shape, fmt := u.fmtB, part := l.part,
              src := if l.kind = 0 then .store addr else if l.kind = 1 then .cache addr else .stream (l.addr % 65536),
              pitch := q.pitchB, scale := scale, scaleStream := l.scaleStream, transpose := l.transpose,
              kUsed := q.kUsed, nUsed := q.nUsed }
          some (row, decide (0 < sh.need) && decide (sh.rows < sh.need) &&
            (a.loadRun != id || a.loadPlane != r.cur || !(sh.laidOut u.shape ((arrClass u.fmtB).getD 0) sh.part)))

/-- One attempt of the load path in the list of a run. -/
def State.frondSlot (s : State) (id tile array : Nat) : State :=
  match s.nextSlot id tile array, s.run id with
  | some (r, fresh), some run =>
    (s.slotLoad r fresh).modArr tile array (fun x => { x with loadRun := id, loadPlane := run.cur })
  | _, _ => s

/-- A slot-row given outright belongs to work that has no list of its own. -/
def State.slotRow (s : State) : SlotRef → State
  | .frond id tile array => s.frondSlot id tile array
  | .direct r => if (s.run r.work).isSome then s else s.slotLoad r false

/-! ### Issue -/

/-- The feeder holds the row: the stall is counted, and a CHAIN_IN queue, a join input or a marker is a waiting point
(R78, R188). -/
def State.rowHold (s : State) (r : RowIssue) (i : Issuer) (c : Nat) (waits : Bool) : State :=
  let st := match r.src with | .stream n => n | _ => 0
  let s := s.arrStall i r.tile r.array r.pn c 1
  if waits then s.waitAt r.work r.tile r.array st else s

/-- A row that is part of a chain (R93). -/
def rowChained (r : RowIssue) : Bool := r.chainOut || r.mode == 2

/-- The mode of a row: sub-passes 1 and 2 of a split pass accumulate (R71). -/
def rowMode (r : RowIssue) : Nat := if r.fmtA = 0x0F ∧ r.sub ≠ 0 then 1 else r.mode

/-- The mclk before which the row does not issue, with the count it is held under: drain fence (R104), old shape's last
row (R76), issue notice of the chain (R92). Only a region that the row's columns meet fences it (R83). -/
def State.rowNotBefore (s : State) (r : RowIssue) (cls : Nat) : Nat × Nat :=
  let a := (s.tile r.tile).arr r.array
  let row := r.base + r.m
  let fence := if decide (a.drainBase ≤ row) && decide (row < a.drainBase + a.drainRows) &&
        overlaps (pinCol r.shape r.pn) (shapeN r.shape) a.drainCol a.drainCols then
      a.drainFrom + (row - a.drainBase) + a.drainLag else 0
  let change := if a.shape != r.shape || a.cls != cls then a.lastIssue + 10 else 0
  let notice := if rowMode r = 2 then ((a.chainQ.map (fun x => x.notice)).headD 0) else 0
  if fence ≤ notice ∧ change ≤ notice then (notice, 1) else if fence < change then (change, 2) else (fence, 3)

/-- The first mclk in which the pinnule's feed slots are free for the row (R58, R73). -/
def State.rowSlot (s : State) (r : RowIssue) (cls : Nat) : Nat :=
  let p := s.pin r.tile r.array r.pn
  if cls = 0 ∧ !rowChained r ∧ r.m % 2 = 1 then p.lastAt else p.nextAt

/-- The words and marks the row writes to the accumulator (R87, R88, R95). -/
def State.accRow (s : State) (r : RowIssue) (i : Issuer) (cls : Nat) (a : List (Option Val)) : List (Nat × Bool) :=
  let p := s.pin r.tile r.array r.pn
  let n := shapeN r.shape
  let c0 := pinCol r.shape r.pn
  let row := r.base + r.m
  let inc := (((s.tile r.tile).arr r.array).chainQ).headD ⟨[], 0, 0⟩
  let md := (Rnd.ofCode r.rnd).getD .rne
  let key : Key := { seed := s.seedOf i, step := i.step, tensor := r.tensor, site := 1, seq := r.seq }
  (List.range r.nUsed).map (fun j =>
    let col := (List.range a.length).map (fun k => p.active.cells.getD (k * n + j) .zero)
    let sum := columnSum cls (decide (r.fmtA = 0x0F ∧ r.sub < 2)) a col
    let (old, mark) := s.acc r.tile r.array row (c0 + j)
    let draw := if md = .stoch then key.draw (r.logical + j) else 0
    match rowMode r with
    | 0 => (to32 md draw sum, false)
    | 1 => (to32 md draw (Val.add sum (lay32.decode old)), mark)
    | _ => (to32 md draw (Val.add sum (lay32.decode (inc.words.getD (c0 + j) 0))), bit inc.poison ((c0 + j) / 16)))

/-- Keys of the segments of a CHAIN_IN row that come in poisoned (R95). -/
def incomingMarks (t a row poison : Nat) : List Nat :=
  ((List.range 4).filter (fun g => bit poison g)).map (fun g => accKey t a row (16 * g))

/-- Forward the row on the chain link, with the marks it wrote; a segment it did not write carries the incoming mark
only. The issue notice arrives 4 mclk after the issue (R92, R95). -/
def State.chainOut (s : State) (r : RowIssue) (inc : Nat) : State :=
  if r.chainOut && (r.fmtA != 0x0F || r.sub == 2) then
    let row := r.base + r.m
    let ws := (List.range 64).map (fun n => (s.acc r.tile r.array row n).1)
    let ps := (List.range 4).foldl (fun a g =>
      a + b01 (if 16 * g < r.nUsed then (s.acc r.tile r.array row (16 * g)).2 else bit inc g) * 2 ^ g) 0
    s.modArr (r.chainTo / 2) (r.chainTo % 2) (fun x => { x with chainQ := x.chainQ ++ [⟨ws, ps, s.mclk + 4⟩] })
  else s

/-- The pass's rows of the pinnule move on; the last row of a pass is an issue of the feeder's list (R71, R146). -/
def State.rowDone (s : State) (r : RowIssue) : State :=
  let last := decide (r.m + 1 = r.rows)
  let whole := last && (r.fmtA != 0x0F || r.sub == 2)
  let s := match s.run r.work with
    | none => s
    | some run => s.modPin r.tile r.array r.pn (fun p =>
        let q := p.posIn run.id run.cur
        { p with pos := if whole then { q with passes := q.passes + 1, row := 0, sub := 0 }
                        else if last then { q with row := 0, sub := r.sub + 1 } else { q with row := r.m + 1, sub := r.sub } })
  if whole then s.issuedOp r.work r.tile r.array else s

/-- The row issues: marker swap, fault, or the accumulator row; then the chain link (R62, R67, R80, R92). The beats of a
faulted pinnule's row are taken and dropped, so that its streams keep the schedule (log 75). -/
def State.rowGo (s : State) (r : RowIssue) (i : Issuer) (cls : Nat) : State :=
  let row := r.base + r.m
  let s := s.modPin r.tile r.array r.pn (fun p =>
    let p := if r.m = 0 then { p with latch := (s.tile r.tile).roles } else p
    let p := if p.work = r.work then p else { p with work := r.work, touched := [], faulted := none }
    if p.active.shape = r.shape then p else { p with touched := [] })
  let s := if r.marker then
      (s.modPin r.tile r.array r.pn Pinnule.swap).traceEv (srcTile r.tile) r.array 0x05 2 (r.pn + (r.tag % 2 ^ 16) * 16)
    else s
  let s := s.modPin r.tile r.array r.pn (fun p => { p with touched := setIns p.touched row })
  let p := s.pin r.tile r.array r.pn
  let dead := p.faulted == some r.work
  let outside := rowOutside r
  let (vs, poison, s) :=
    if dead || outside then ([], false, (rowStreams r).foldl (fun s (st, n) => (s.takeBeats r.tile st r.array n).2) s)
    else s.feedRow r p.latch
  let (kind, place) := match r.src with | .store o => (0, o) | .cache o => (1, o) | .stream st => (2, st)
  let s := if poison then s.tracePoison (srcTile r.tile) r.array kind place else s
  let s := if !dead && (outside || poison || (r.marker && p.active.poison)) then s.pinFault r i else s
  let inc := if rowMode r = 2 then ((((s.tile r.tile).arr r.array).chainQ).headD ⟨[], 0, 0⟩).poison else 0
  -- a row of null beats writes nothing (R170)
  let null := !vs.isEmpty && (vs.take r.kUsed).all Option.isNone
  let s := if (s.pin r.tile r.array r.pn).faulted == some r.work then
      s.markKeys (pinKeys r.tile r.array r.shape r.pn row ++ incomingMarks r.tile r.array row inc)
    else if null then s
    else (s.store (accCells r.tile r.array row (pinCol r.shape r.pn) (s.accRow r i cls vs))).markKeys
      (incomingMarks r.tile r.array row inc)
  let s := if rowMode r = 2 then s.modArr r.tile r.array (fun x => { x with chainQ := x.chainQ.drop 1 }) else s
  let s := (s.chainOut r inc).arrBusy i r.tile r.array (rowMclk cls r.m (rowChained r))
  let m := s.mclk
  let s := s.modArr r.tile r.array (fun x => { x with
    shape := r.shape, cls := cls, lastIssue := m,
    flight := ⟨m, row, pinCol r.shape r.pn, shapeN r.shape⟩ :: x.flight.filter (fun f => decide (m < f.mclk + 10)) })
  let s := s.modPin r.tile r.array r.pn (fun p => { p with
    lastAt := m, nextAt := m + (if cls = 0 ∧ !rowChained r then 1 else rowMclk cls r.m (rowChained r)) })
  (s.rowDone r).moved r.work r.tile r.array

/-- The rows of a pass that its pinnule may not target, or operands of two classes, are never loaded or issued (R58, R74,
R89, R91). -/
def rowLegal (r : RowIssue) : Bool :=
  let (lo, n) := pinRows r.shape r.pn
  decide (r.pn < shapePins r.shape) && decide (lo ≤ r.base) && decide (r.base + r.rows ≤ lo + n) &&
  (arrClass r.fmtA).isSome && arrClass r.fmtA == arrClass r.fmtB && decide (r.kUsed ≤ shapeK r.shape) &&
  decide (r.nUsed ≤ shapeN r.shape) && (r.shape == 0 || !rowChained r) && !(r.fmtA == 0x0F && r.rnd == 2)

/-- The array's arrays a chain link may reach: MA_1 of the same tile from MA_0, MA_0 of a mesh neighbour on the die
from MA_1 (R91). -/
def chainLink (tile array target : Nat) : Bool :=
  if array = 0 then target == tile * 2 + 1
  else [1, 2, 3, 4].any (fun c => (across tile c).any (fun u => target == u * 2))

/-- The marker's set: complete, or lacking at most three slot-rows whose data the load path has (R68). -/
def State.markerReady (s : State) (r : RowIssue) (cls : Nat) : Bool :=
  let sh := (s.pin r.tile r.array r.pn).shadow
  let part := if cls = 3 then (if r.sub = 1 then 1 else 0) else 0
  sh.laidOut r.shape cls part &&
  (match sh.lacks with
   | none => false
   | some 0 => true
   | some n => decide (n ≤ 3) &&
      (match s.nextSlot r.work r.tile r.array with
       | some (l, fresh) => l.pn == r.pn && !fresh &&
          (List.range n).all (fun k => s.fed r.tile (2 + r.array) (slotStreams l cls (sh.rows + k)))
       | none => false))

/-- The load path writes the slot-rows that the marker's set still lacks, before the swap (R68). -/
def State.completeSet (s : State) (r : RowIssue) : State :=
  match (s.pin r.tile r.array r.pn).shadow.lacks with
  | some n => (List.range n).foldl (fun s _ => s.frondSlot r.work r.tile r.array) s
  | none => s

/-- One issue attempt (R68, R69, R76, R92, R104); `ahead`: a drain before the pass in the list has not begun (R104). -/
def State.rowIssue (s : State) (r : RowIssue) (ahead : Bool) : State :=
  match s.issuer r.work, arrClass r.fmtA with
  | some i, some cls =>
    if !i.live || !(rowLegal r) || (r.chainOut && !chainLink r.tile r.array r.chainTo) then s
    else
      let a := (s.tile r.tile).arr r.array
      let act := (a.pin r.pn).active
      let down := (s.tile (r.chainTo / 2)).arr (r.chainTo % 2)
      -- shape and class change at a marker only, for every pinnule (R76)
      if (act.shape != r.shape || act.cls != cls) && !r.marker then s
      else if r.marker && !(s.markerReady r cls) then s.rowHold r i 2 true
      else if rowMode r == 2 && a.chainQ.isEmpty then s.rowHold r i 1 true
      else if !(s.fed r.tile r.array (rowStreams r)) then s.rowHold r i 1 (decide (1 < (rowStreams r).length))
      else if r.chainOut && decide (16 ≤ down.chainQ.length) then s.rowHold r i 4 false
      else if ahead then s.rowHold r i 3 false
      else
        let s := if r.marker then s.completeSet r else s
        if r.marker && (s.pin r.tile r.array r.pn).shadow.lacks != some 0 then s.rowHold r i 2 true else
        let s := s.untilMclk (s.rowSlot r cls)
        let (t, c) := s.rowNotBefore r cls
        let s := if s.mclk < t then (s.arrStall i r.tile r.array r.pn c (t - s.mclk)).untilMclk t else s
        -- the feeder is a master of class F (R265)
        match s.askBanks r.tile (reqKey r.array r.pn) (rowWords r) with
        | (.granted, s) => s.rowGo r i cls
        | (.refused, s) => s.rowHold r i 1 false
        | (.bound, s) => s.rowHold r i 6 false
  | _, _ => s

/-- The next row of a pinnule in the list of a run's feeder (R71, R146): the pass record with the schedule's steps, and
whether a drain before it has not begun. -/
def State.nextRow (s : State) (id tile array pn : Nat) : Option (RowIssue × Bool) :=
  match s.run id with
  | none => none
  | some r =>
    let b := ((s.tile tile).ctx r.plane.slot).bytes
    if !r.live || !r.tiles.contains tile then none
    else
      let pos := (s.pin tile array pn).posIn id r.cur
      match placeAt (s.isPass b pn) b array r.n pos.passes with
      | none => none
      | some p =>
        if (match p.body with | some k => decide (r.bodies ≤ k) | none => false) then none
        else
          let c := s.passRec b (eIndex p.x)
          let u := s.arrSetup b array
          let q := s.pinSetup b array pn
          let (mb, run) := match p.body with | some k => (r.mb k, r.index k) | none => (0, 0)
          let move := c.step * (p.iter : Int) + eAddr p.x * (run : Int)
          let addr := ((c.addr : Int) + move).toNat + pos.row * c.pitch
          let scale := if c.scaleStream then c.scale
            else ((c.scale : Int) + c.scaleStep * (p.iter : Int) + eAddr p.x * (run : Int)).toNat + pos.row * c.scalePitch
          let base := c.baseAt p
          let row : RowIssue :=
            { work := id, tile := tile, array := array, pn := pn, shape := u.shape, fmtA := u.fmtA, fmtB := u.fmtB,
              m := pos.row, rows := c.rows, base := base, mode := c.mode, chainOut := c.chainOut,
              chainTo := if array = 0 then tile * 2 + 1 else ((across tile u.link).headD tile) * 2,
              marker := pos.row == 0 && ((pos.sub == 0 && c.marker) || (u.fmtA == 0x0F && pos.sub == 1)),
              rnd := c.rnd, seq := c.seq,
              src := if c.kind = 0 then .store addr else if c.kind = 1 then .cache addr else .stream (c.addr % 65536),
              scale := scale, scaleStream := c.scaleStream, sub := pos.sub, kUsed := q.kUsed, nUsed := q.nUsed,
              winBase := q.winBase, winLimit := q.winLimit, tag := q.tag, tensor := q.tensor,
              logical := (q.logical + eLogical p.x * mb + (p.iter * c.rows + pos.row) * q.logicalRow) % 2 ^ 48 }
          let ahead := s.drainAhead r b tile array p (base + pos.row) (pinCol u.shape pn) (shapeN u.shape)
          some (row, ahead)

/-- A row given outright belongs to work that has no list of its own. -/
def State.streamRow (s : State) : RowRef → State
  | .frond id tile array pn =>
    match s.nextRow id tile array pn with
    | some (r, ahead) => s.rowIssue r ahead
    | none => s
  | .direct r => if (s.run r.work).isSome then s else s.rowIssue r false

end Sys2Proof.Machine
end

