-- ==== Sys2Proof/Machine/Drain.lean ====
section
/-!
DEFINITION. Drains and FILLs (04 R96 to R105; 08 R205 to R207), and where an operation of a tile's list takes its
descriptor from (06 R146).
-/
namespace Sys2Proof.Machine

/-! ### Operations of a list -/

/-- The place of the next issue of a unit's list, if it is entry `e` and its body has started. -/
def Run.next (r : Run) (b : List Byte) (tile e unit : Nat) : Option OpPlace :=
  match placeAt isIssue b unit r.n (Tbl.get 0 r.unitOps (tile * 8 + unit)) with
  | none => none
  | some p =>
    if decide (p.entry ≠ e) || (match p.body with | some k => decide (r.bodies ≤ k) | none => false) then none else some p

/-- Resolve a reference for a unit of the given kind: 0 drain unit, 1 vector engine; of a run, with the place of the
entry, which must be the next of its unit's list (R105, R146). -/
def State.resolve (s : State) (w : WorkRef) (kind : Nat) : Option (OpRef × Option OpPlace) :=
  match w with
  | .direct id tile desc record step hbm => some (⟨id, tile, desc, record, 0, 0, 0, step, none, hbm⟩, none)
  | .frond id tile e =>
    match s.run id with
    | none => none
    | some r =>
      let b := ((s.tile tile).ctx r.plane.slot).bytes
      let x := schedAt b e
      let unitOk := if kind = 0 then eUnit x == 4 || eUnit x == 5 else eUnit x == 6
      if !r.live || !r.tiles.contains tile || decide (schedCount b ≤ e) || eKind x != 1 || !unitOk then none
      else
        match r.next b tile e (eUnit x) with
        | none => none
        | some p =>
          let rec0 := slice b (0x2D00 + 16 * eIndex x) 16
          let desc := if kind = 0 then slice b (0x1900 + 64 * eIndex x) 64 else slice b (0x2100 + 256 * fld rec0 0 1) 256
          let (mb, run) := match p.body with | some k => (r.mb k, r.index k) | none => (0, 0)
          some (⟨id, tile, desc, rec0, eLogical x * mb, eAddr x * (run : Int), if eMbSeq x then mb else 0, r.step, some e, []⟩,
            some p)

/-- The reference names the operation. -/
def refNames (w : WorkRef) (o : OpRef) : Bool :=
  match w with
  | .frond id tile e => o.id == id && o.tile == tile && o.entry == some e
  | .direct id tile desc record _ _ => o.id == id && o.tile == tile && o.entry.isNone && o.desc == desc && o.record == record

/-- Work issued goes on under its old context, unless its run is held (R148, R165). -/
def State.goesOn (s : State) (id : Nat) : Option Issuer :=
  match s.run id with
  | some r => if r.hold.isNone then s.issuer id else none
  | none => s.issuer id

/-- The entry has issued: the unit's count and movement (R146, R187). -/
def State.issueEntry (s : State) (o : OpRef) (unit : Nat) : State :=
  match o.entry with
  | none => s
  | some _ => (s.issuedOp o.id o.tile unit).moved o.id o.tile unit

/-- An address with the schedule's step added, within the 23 bits of a tile slot. -/
def OpRef.at (o : OpRef) (a : Nat) : Nat := ((a : Int) + o.addr).toNat

/-! ### The descriptor (R96) -/

/-- Field checks of a drain or FILL descriptor (R96, R98, R99, R43, R30), tile-store offsets included (R263); range failures
of R106 stand apart. -/
def drainBad (b : List Byte) : Bool :=
  let f := dw b 36 5
  let blk := ((Fmt.ofCode f).map Fmt.isBlock).getD false
  let addOk := f == 0 || f == 1 || f == 2 || f == 0x0B
  let far (a : Nat) : Bool := decide (0x600000 ≤ a)
  decide (dRows b = 0) || decide (1024 < dRows b) || decide (dCols b = 0) || decide (64 < dCol b + dCols b) || decide (0x0F ≤ f) ||
  decide (dw b 41 2 = 3) || decide (dDest b = 3) || decide (dw b 52 12 ≠ 0) ||
  (if dDest b = 1 then decide (dw b 80 16 ≠ 0) else decide (dw b 87 9 ≠ 0)) ||
  decide (dw b 119 9 ≠ 0) || decide (dw b 151 9 ≠ 0) || decide (dw b 184 8 ≠ 0) || decide (dw b 216 8 ≠ 0) ||
  decide (dw b 312 8 ≠ 0) || decide (dw b 368 16 ≠ 0) || decide (dw b 480 32 ≠ 0) ||
  (dSplit b && (decide (dCol b % 16 ≠ 0) || decide (dCols b % 16 ≠ 0) || blk)) ||
  (blk && decide (dCol b % 32 ≠ 0)) || (dAdd b && (!addOk || decide (dDest b ≠ 0))) ||
  (dDest b == 0 && (far (dAddr b 0) || (dSplit b && (List.range (ceilDiv (dCols b) 16)).any (fun g => far (dAddr b g))) ||
    (blk && far (dw b 96 23)))) || ((dMax b || dSum b || dMerge b) && far (dw b 128 23)) ||
  (dFill b && (decide (f ≠ 0) || decide (dDest b ≠ 0) || dClear b || dAdd b || dMax b || dSum b || dMerge b || dSplit b))

/-- The rows of a drain or FILL exceed those open to a pinnule in the shape (R74, R96, R106). -/
def drainOver (shape : Nat) (b : List Byte) : Bool :=
  let n := shapeRows shape
  decide (1024 < dRowBase b + dRows b) || decide (n < dRowBase b % n + dRows b)

/-! ### Fused pairs (R101, R102) -/

def f32 (w : Nat) : Val := lay32.decode w
/-- exp2((x − m) × L2E), each step RNE in FP32. A term that goes to zero is not counted: a drain counts its columns (R98;
DESIGN CHOICE, log 79). -/
def expTerm (x m : Val) : Val := f32 (lut32 0 tabExp2 .rne 0 (mul32 (r32 (Val.sub x m)) cL2E)).1

/-- The pair of a row's values. -/
def rowPair (vs : List Val) : Val × Val :=
  let m := match vs with | [] => Val.inf true | v :: t => t.foldl Val.max v
  (m, if m = .inf true then .zero else (vs.map (fun x => expTerm x m)).foldl add32 .zero)

def mergePair (a b : Val × Val) : Val × Val :=
  let m := Val.max a.1 b.1
  (m, if m = .inf true then .zero else add32 (mul32 a.2 (expTerm a.1 m)) (mul32 b.2 (expTerm b.1 m)))

/-! ### One row -/

/-- Results of converting a row: cells of tile store, bytes for a stream with marks, health. -/
structure RowOut where
  cells : List Cell
  bytes : List (Byte × Bool)
  health : Health
  deriving Repr

/-- Convert the values of one row's columns to the descriptor's format (R98, R99). `dest c` is the element plane's
offset of column index c; `old` gives the destination's value and mark with ADD. -/
def State.drainRow (s : State) (b : List Byte) (key : Nat → Option Nat) (dest : Nat → Nat) (scale : Nat)
    (k : Key) (idx : Nat) (vs : List (Val × Bool)) : RowOut :=
  let f := dFmt b
  let n := vs.length
  let add := dAdd b
  let draw (c : Nat) : Nat := if dRnd b = .stoch then k.draw (idx + c) else 0
  let ins := (List.range n).zip vs
  -- destination values for ADD
  let olds := ins.map (fun (c, _) =>
    if add then
      let blk := c / 32
      let base := if f.isBlock then dest (32 * blk) else dest c
      let (w, p) := s.rdElem key f base (if f.isBlock then c % 32 else 0)
      let (sc, ps) := if f.isBlock then s.rdByte key (scale + blk) else (0, false)
      (f.value w sc.toNat, p || ps)
    else (Val.zero, false))
  let sums := (vs.zip olds).map (fun ((v, p), (o, q)) => (if add then r32 (Val.add v o) else v, p || q))
  let hin := (vs.foldl (fun h (v, _) => h.add (inHealth v)) Health.zero)
  let hin := if add then olds.foldl (fun h (v, _) => h.add (inHealth v)) hin else hin
  if f.isBlock then
    let blocks := (List.range (ceilDiv n 32)).map (fun g =>
      let part := (sums.drop (32 * g)).take 32
      let (sc, es, h) := f.encodeBlock (dRnd b) (dNonsat b) ((List.range 32).map (fun j => draw (32 * g + j)))
        (part.map Prod.fst)
      let bs := f.bytes (es ++ List.replicate (32 - es.length) 0)
      let p := part.any Prod.snd
      (cellsAt key (dest (32 * g)) bs p ++ cellsAt key (scale + g) [BitVec.ofNat 8 sc] p, bs.map (fun x => (x, p)), h))
    { cells := (blocks.map (fun x => x.1)).flatten, bytes := (blocks.map (fun x => x.2.1)).flatten,
      health := blocks.foldl (fun h x => h.add x.2.2) hin }
  else
    let es := ((List.range n).zip sums).map (fun (c, v, p) =>
      let (w, h) := f.convert (dRnd b) (dNonsat b) (draw c) v
      let bs := f.bytes [w]
      (cellsAt key (dest c) bs p, bs.map (fun x => (x, p)), h.add (outHealth f w)))
    { cells := (es.map (fun x => x.1)).flatten, bytes := (es.map (fun x => x.2.1)).flatten,
      health := es.foldl (fun h x => h.add x.2.2) hin }

/-- Beats of a row's bytes; lanes beyond them are masked (R170). -/
def rowBeats' (bs : List (Byte × Bool)) : List Beat :=
  (List.range (ceilDiv bs.length 64)).map (fun i =>
    let part := (bs.drop (64 * i)).take 64
    let raw := part.map Prod.fst
    { lanes := (List.range 16).map (fun l => fld raw (4 * l) 4),
      mask := (List.range 16).foldl (fun m l => if part.length ≤ 4 * l then m + 2 ^ l else m) 0,
      poison := part.any Prod.snd })

/-- Put beats in a stream source's buffer (R173). -/
def State.sourceBeats (s : State) (t unit st : Nat) (bs : List Beat) : State :=
  s.modTile t (fun x =>
    let c := Tbl.get ({} : StreamSrc) x.srcs st
    { x with srcs := Tbl.set {} x.srcs st { c with buf := c.buf ++ bs, unit := unit } })

/-- `n` beats do not fit in the stream's source buffer of 8: a unit that delivers them holds (R173). -/
def State.sourceFull (s : State) (t st n : Nat) : Bool :=
  decide (8 < (Tbl.get ({} : StreamSrc) (s.tile t).srcs st).buf.length + n)

/-- Row i of a drain (R97 to R102). What the spec leaves open: a block format to a stream sends element bytes alone, its
scale bytes go nowhere; MERGE_IN without FUSE_SUMEXP writes m' and leaves the stored s (DESIGN CHOICE, log 79). -/
def State.drainOne (s : State) (o : OpRef) (i : Issuer) (roles row : Nat) : State :=
  let b := o.desc
  let key := s.tileKey o.tile roles false
  let a := dArray b
  let r := dRowBase b + row
  let vs := (List.range (dCols b)).map (fun c =>
    let (w, p) := s.acc o.tile a r (dCol b + c)
    (f32 w, p))
  let pitch := row * dw b 160 24
  let dest (c : Nat) : Nat :=
    if dSplit b then o.at (dAddr b (c / 16)) + pitch + c % 16 * (dFmt b).elemBits / 8
    else o.at (dAddr b 0) + pitch + c * (dFmt b).elemBits / 8
  let k : Key := { seed := s.seedOf i, step := o.step, tensor := dw b 224 32, site := 0,
                   seq := (dw b 304 8 + o.seq) % 256 }
  let idx := dw b 256 48 + row * dw b 320 48 + o.logical
  let out := s.drainRow b key dest (o.at (dw b 96 23) + row * dw b 192 24) k idx vs
  let s := if vs.any Prod.snd then s.tracePoison (srcTile o.tile) (4 + a) 3 (0x40000 * a + 256 * r + 4 * dCol b) else s
  let s := if dDest b = 2 then s.health (s.bankOf i.q) (vs.foldl (fun h (v, _) => h.add (inHealth v)) Health.zero)
    else s.health (s.bankOf i.q) out.health
  let s := match dDest b with
    | 0 => s.store out.cells
    | 1 => s.sourceBeats o.tile (4 + a) (dw b 64 16) (rowBeats' out.bytes)
    | _ => s
  let s := if dMax b || dSum b then
      let pa := o.at (dw b 128 23) + 8 * row
      let own := rowPair (vs.map Prod.fst)
      let stored := (List.range 8).map (fun j => s.rdByte key (pa + j))
      let raw := leNat (stored.map Prod.fst)
      let pair := if dMerge b then mergePair (f32 (raw % 2 ^ 32), f32 (raw / 2 ^ 32)) own else own
      let p := vs.any Prod.snd || (dMerge b && stored.any Prod.snd)
      let bs := leBytes 4 (to32 .rne 0 pair.1) ++ (if dSum b then leBytes 4 (to32 .rne 0 pair.2) else [])
      s.store (cellsAt key pa bs p)
    else s
  if dClear b then s.store (accCells o.tile a r (dCol b) ((List.range (dCols b)).map (fun _ => (0, false)))) else s

/-- Row i of a FILL: FP32 words from tile store; poison of the source is added (R85, R97). -/
def State.fillOne (s : State) (o : OpRef) (roles row : Nat) : State :=
  let b := o.desc
  let key := s.tileKey o.tile roles false
  let a := dArray b
  let r := dRowBase b + row
  let ws := (List.range (dCols b)).map (fun c =>
    let bs := (List.range 4).map (fun j => s.rdByte key (o.at (dAddr b 0) + row * dw b 160 24 + 4 * c + j))
    (leNat (bs.map Prod.fst), bs.any Prod.snd || (s.acc o.tile a r (dCol b + c)).2))
  let from' := o.at (dAddr b 0) + row * dw b 160 24
  let bad := (List.range (4 * dCols b)).any (fun j => (s.rdByte key (from' + j)).2)
  let s := if bad then s.tracePoison (srcTile o.tile) (4 + a) 0 from' else s
  s.store (accCells o.tile a r (dCol b) ws)

/-- mclk a drain or FILL lasts (R97): the spec gives a FILL's rows and not how long it keeps the drain unit, here up to
the end of its last row's write (DESIGN CHOICE, log 78). -/
def drainLen (b : List Byte) : Nat := if dFill b then 3 + dRows b else if dAdd b then 8 + dRows b else 4 + dRows b

/-- Beats of one row of a drain to a stream. -/
def drainBeats (b : List Byte) : Nat :=
  let f := dFmt b
  ceilDiv (if f.isBlock then ceilDiv (dCols b) 32 * f.blockBytes else ceilDiv (dCols b * f.elemBits) 8) 64

/-- Row `row` of a drain or FILL under way. -/
def State.drainStep (s : State) (o : OpRef) (i : Issuer) (roles row : Nat) : State :=
  if dFill o.desc then s.fillOne o roles row else s.drainOne o i roles row

/-- Rows from `row` on, `n` at most, up to one that the destination stream cannot take (R97): the row reached. -/
def State.drainRows (s : State) (o : OpRef) (i : Issuer) (roles : Nat) : Nat → Nat → Nat × State
  | 0, row => (row, s)
  | n + 1, row =>
    if dDest o.desc = 1 ∧ s.sourceFull o.tile (dw o.desc 64 16) (drainBeats o.desc) then (row, s)
    else (s.drainStep o i roles row).drainRows o i roles n (row + 1)

/-- A drain or FILL goes on from row `d.row`: held mclks since the row's time count under the stream's cause, and move
the drain's later rows. -/
def State.drainOn (s : State) (d : DrainRun) (i : Issuer) : State :=
  let o := d.op
  let b := o.desc
  let a := dArray b
  let unit := 4 + a
  let (row, s1) := s.drainRows o i d.roles (dRows b - d.row) d.row
  let late := if 0 < d.row ∨ row = 0 then s.mclk - (d.start + d.row) else 0
  let start := d.start + late
  let s1 := if late = 0 then s1 else s1.stall i o.tile unit (s.holdCause o.tile (dw b 64 16)) late
  let s1 := s1.stall i o.tile unit 0 (row - d.row)
  let s1 := if row = d.row then s1 else s1.moved o.id o.tile unit
  let stamps (x : MatArray) (upTo : Nat) : MatArray := { x with
    drainFrom := start, drainUntil := upTo, drainBase := dRowBase b, drainRows := dRows b,
    drainCol := dCol b, drainCols := dCols b, drainLag := if dFill b then 4 else 2 }
  if row = dRows b then
    ((s1.modArr o.tile a (fun x => { stamps x (start + drainLen b) with drain := none })).stall i o.tile unit 0
      (drainLen b - dRows b)).movesTo o.id (start + drainLen b)
  else (s1.modArr o.tile a (fun x =>
    { stamps x (start + drainLen b) with drain := some { d with start := start, row := row } })).movesTo o.id (start + row)

/-- A drain or FILL starts in the first mclk in which no earlier row of the region is in flight and the drain unit is
free, and runs to its last row unless a stream holds it (R97, R103, R105). -/
def State.drainGo (s : State) (o : OpRef) (i : Issuer) : State :=
  let a := dArray o.desc
  if (((s.tile o.tile).arr a).drain).isSome then s
  else
    let s := s.untilMclk (max ((s.tile o.tile).arr a).drainUntil (s.flightEnd o.tile a o.desc))
    (s.issueEntry o (4 + a)).drainOn { op := o, start := s.mclk, roles := (s.tile o.tile).roles } i

/-- Passes before the drain in the list have rows of its region that have not issued (R103). -/
def State.drainWaits (s : State) (o : OpRef) (p : Option OpPlace) : Bool :=
  match p, s.run o.id with
  | some q, some r =>
    s.passAhead r ((s.tile o.tile).ctx r.plane.slot).bytes o.tile (dArray o.desc) q o.desc
  | _, _ => false

/-- The tile of a reference. -/
def refTile : WorkRef → Nat
  | .frond _ tile _ => tile
  | .direct _ tile _ _ _ _ => tile

/-- The DRAIN and FILL rows: each takes a descriptor of its own kind; one that a stream holds goes on. -/
def State.drainRef (s : State) (w : WorkRef) (fill : Bool) : State :=
  let x := s.tile (refTile w)
  match [x.ma0.drain, x.ma1.drain].findSome? (fun d => d.filter (fun d => refNames w d.op && dFill d.op.desc == fill)) with
  | some d => match s.goesOn d.op.id with | some i => s.drainOn d i | none => s
  | none =>
    match s.resolve w 0 with
    | none => s
    | some (o, p) =>
      match s.issuer o.id with
      | none => s
      | some i =>
        if !i.live || dFill o.desc != fill || drainBad o.desc ||
            drainOver ((s.tile o.tile).arr (dArray o.desc)).shape o.desc || s.drainWaits o p then s
        else s.drainGo o i

def refId : WorkRef → Nat
  | .frond id _ _ => id
  | .direct id _ _ _ _ _ => id

end Sys2Proof.Machine
end

