-- ==== Sys2Proof/Machine/Chains.lean ====
section
/-!
DEFINITION. Chain descriptors (05 R108 to R118, R140): the fields of header and stage entries, the stages a stage
depends on, depths and timing, and the checks of R110.
-/
namespace Sys2Proof.Machine

/-! ### Fields -/

def vHead (b : List Byte) (lo n : Nat) : Nat := bits (fld b 0 64) lo n
def vStages (b : List Byte) : Nat := vHead b 0 4
/-- Loop levels less one. -/
def vDepth (b : List Byte) : Nat := vHead b 4 2
/-- Lane mode 1: 16-bit lanes. -/
def v16 (b : List Byte) : Bool := vHead b 6 1 == 1
def vMaskBase (b : List Byte) : Nat := vHead b 256 17
def vScale (b : List Byte) (n : Nat) : Nat := if n < 4 then vHead b (288 + 24 * n) 23 else 0

/-- A stage entry as a number of 128 bits. -/
def vEntry (b : List Byte) (e : Nat) : Nat := fld b (64 + 16 * e) 16
def xKind (x : Nat) : Nat := bits x 0 4
def xA (x : Nat) : Nat := bits x 4 4
def xB (x : Nat) : Nat := bits x 8 4
def xC (x : Nat) : Nat := bits x 12 4
def xPred (x : Nat) : Nat := bits x 16 4
def xOp (x : Nat) : Nat := bits x 20 8
def xFmt (x : Nat) : Fmt := (Fmt.ofCode (bits x 28 5)).getD .fp32
def xOut (x : Nat) : Fmt := (Fmt.ofCode (bits x 33 5)).getD .fp32
def xRnd (x : Nat) : Rnd := (Rnd.ofCode (bits x 38 2)).getD .rne
def xNonsat (x : Nat) : Bool := bit x 40
def xSite (x : Nat) : Nat := bits x 41 8
def xLevel (x : Nat) : Nat := bits x 49 2
def xKeep (x : Nat) : Bool := bit x 51
def xIndexOut (x : Nat) : Bool := bit x 52
def xMaskWrite (x : Nat) : Bool := bit x 53
def xOc (x : Nat) : Nat := bits x 64 17
def xImm (x : Nat) : Nat := bits x 96 32
def xSpace (x : Nat) : Nat := bits x 20 2
def xPacked (x : Nat) : Bool := bit x 22
def xStored (x : Nat) : Fmt := (Fmt.ofCode (bits x 24 5)).getD .fp32
def xBase (x : Nat) : Nat := bits x 32 23
/-- Stride of level 1 to 3. -/
def xStride (x l : Nat) : Int := signed 22 (bits x (56 + 22 * (l - 1)) 22)

/-- The comparison code of a MASK stage (R126). -/
def xCmp (x : Nat) : Nat := if 10 ≤ xOp x then xSite x % 16 else xOp x

/-- The lane format a LOAD delivers (R121). -/
def loadLane (mode : Bool) (f : Fmt) : Fmt := if mode then f else if f.isInt then .int32 else .fp32

/-- A lane format of the mode (R109). -/
def laneFmt (mode : Bool) (c : Nat) : Bool := if mode then c == 1 || c == 2 || c == 0x0D else c == 0 || c == 0x0C

/-- The data sources a stage uses, with the byte of the entry that names each (R115 to R117). -/
def xIns (x : Nat) : List (Nat × Nat) :=
  let a := (xA x, 0)
  let b := (xB x, 1)
  let c := (xC x, 1)
  match xKind x with
  | 2 =>
    if [0x06, 0x07, 0x0F, 0x1B].contains (xOp x) then [a] else if xOp x = 3 then [a, b, c] else [a, b]
  | 3 | 4 | 7 | 8 => [a]
  | 5 => if xCmp x ≤ 6 then [a, b] else if xCmp x ≤ 8 then [a] else []
  | 6 => if xOp x = 2 then [a, b] else [a]
  | _ => []

/-- The PACK stage of a chain. -/
def vPack (b : List Byte) : Option Nat := (List.range (vStages b)).find? (fun e => xKind (vEntry b e) == 6)
/-- The COMPRESS stage of a chain. -/
def vCompress (b : List Byte) : Option Nat :=
  (List.range (vStages b)).find? (fun e => xKind (vEntry b e) == 6 && xOp (vEntry b e) == 0)

/-- The entry a source code names: a stage, or the PACK stage for the index stream. -/
def srcEntry (b : List Byte) (c : Nat) : Option Nat := if c < 12 then some c else if c = 12 then vPack b else none

/-- The stages a stage takes data or its predicate from. -/
def xDeps (b : List Byte) (x : Nat) : List Nat :=
  (xIns x).filterMap (fun (c, _) => srcEntry b c) ++
    (if xKind x = 1 ∨ xKind x = 5 ∨ 12 ≤ xPred x then [] else [xPred x])

/-! ### Timing (R108, R109, R111, R112) -/

def xLatency (mode : Bool) (k : Nat) : Nat :=
  match k with
  | 1 => 3 | 2 => 4 | 3 => if mode then 7 else 6 | 4 => 3 | 5 => 2 | 6 => 5 | 7 => 4 | _ => 2

/-- The depth of every stage. -/
def vDepths (b : List Byte) : List Nat :=
  (List.range (vStages b)).foldl (fun ds e =>
    let x := vEntry b e
    ds ++ [xLatency (v16 b) (xKind x) + (xDeps b x).foldl (fun m d => max m (ds.getD d 0)) 0]) []

def vHas (b : List Byte) (p : Nat → Bool) : Bool := (List.range (vStages b)).any (fun e => p (vEntry b e))

/-- The issue interval of a chain. -/
def vII (b : List Byte) : Nat := if v16 b && vHas b (fun x => xKind x == 3) then 2 else 1
/-- A LUT stage that copies a table at setup (R133). -/
def xCopies (x : Nat) : Bool := xKind x == 3 && xOp x != 4 && xOp x != 5 && !xKeep x
def vSetup (b : List Byte) : Nat := if vHas b xCopies then 12 else 4
/-- The chain latency L. -/
def vLatency (b : List Byte) : Nat :=
  let ds := vDepths b
  (List.range (vStages b)).foldl (fun m e => if xKind (vEntry b e) = 8 then max m (ds.getD e 0) else m) 0
/-- Duration of an invocation of `n` slots without hold. -/
def vLength (b : List Byte) (n : Nat) : Nat :=
  if n = 0 then vSetup b
  else vSetup b + (n - 1) * vII b + vLatency b + (if (vCompress b).isSome then vII b else 0)

/-! ### Checks (R110) -/

/-- Stages of each kind in the pool: LOAD, ALU, LUT, CVT, MASK, PACK, RED, STORE (R108, R140). -/
def vPool (ue : Bool) : List Nat := if ue then [2, 8, 2, 4, 1, 1, 2, 2] else [2, 4, 2, 2, 1, 1, 1, 2]

/-- Byte of the lowest set bit. -/
def lowByte (v n : Nat) : Nat := ((List.range n).find? (fun i => bits v (8 * i) 8 != 0)).getD 0

/-- Reserved bits of an entry. -/
def xReserved (x : Nat) : Nat :=
  if xKind x = 1 ∨ xKind x = 8 then
    x &&& (0xFF00 + 2 ^ 23 + 7 * 2 ^ 29 + 2 ^ 55 + 63 * 2 ^ 122)
  else x &&& (1023 * 2 ^ 54 + 0x7FFF * 2 ^ 81)

/-- A source that names no earlier stage with an output, no index stream, nor a constant (R117). -/
def srcBad (b : List Byte) (e c : Nat) : Bool :=
  let store := xKind (vEntry b e) == 8
  if c < 12 then decide (e ≤ c) || xKind (vEntry b c) == 8
  else if c = 12 then
    !((List.range e).any (fun p => xKind (vEntry b p) == 6 && xOp (vEntry b p) == 0 && xIndexOut (vEntry b p)))
  else c == 15 || store

/-- Format code of what a source code delivers to a stage. -/
def srcFmt (b : List Byte) (c : Nat) : Option Fmt :=
  if c = 12 then some .int32
  else if c < 12 then
    let y := vEntry b c
    match xKind y with
    | 1 => some (loadLane (v16 b) (xStored y))
    | 4 => some (xOut y)
    | 5 | 8 => none
    | _ => some (xFmt y)
  else none

/-- The checks of one entry in order: byte of the entry, failing. A reserved SITE is refused where the stage's RND is
STOCH, the only mode that uses it (DESIGN CHOICE, log 80). -/
def entryChecks (b : List Byte) (e : Nat) (ue : Bool) : List (Bool × Nat) :=
  let x := vEntry b e
  let k := xKind x
  let m := v16 b
  let op := xOp x
  let fc := bits x 28 5
  let flt := fc < 3
  let ls := k == 1 || k == 8
  let pred := xPred x
  let fo := bits x 33 5
  let sf := bits x 24 5
  let rounds := k == 2 || k == 3 || k == 4 || k == 7
  let oc := fun (n : Nat) => decide (131072 < xOc x + n)
  [(k == 0 || decide (8 < k), 0), (xReserved x != 0, lowByte (xReserved x) 16)] ++
  (xIns x).map (fun (c, o) => (srcBad b e c, o)) ++
  [-- a predicate names an earlier MASK; a MASK has none; SEL and PACK need one
   (k != 1 && pred != 15 && (decide (e ≤ pred) || xKind (vEntry b pred) != 5 || k == 5), 2),
   ((k == 6 || (k == 2 && op == 8)) && pred == 15, 2),
   -- a CVT output that is no lane format feeds STOREs only
   (k != 8 && (xDeps b x).any (fun d => xKind (vEntry b d) == 4 && !laneFmt m (bits (vEntry b d) 33 5)), 0),
   -- fields of the calculating stages
   (!ls && !laneFmt m fc, 3), (!ls && k != 4 && fo != 0, 4), (xKeep x && !ls && k != 3, 6),
   (xIndexOut x && !ls && (k != 6 || op != 0 || m), 6), (xMaskWrite x && !ls && k != 5, 6),
   (rounds && bits x 38 2 == 3, 4), (rounds && bits x 38 2 == 2 && !siteOk (xSite x), 5),
   ((xIns x).any (fun (c, _) => c == 13) && !ls && oc (if ue then 1024 else 256), 8),
   (k == 2 && (decide (0x1B < op) || (decide (op ≤ 0x0F) && !flt) ||
      (decide (0x10 ≤ op) && flt && !([0x15, 0x16, 0x17, 0x1B].contains op))), 2),
   (k == 3 && (decide (9 < op) || !flt), 2),
   (k == 3 && op != 4 && op != 5 && ((op != 9 && decide (xOc x % 64 ≠ 0)) || oc (if op = 9 then 784 else 768)), 8),
   (k == 4 && (decide (0x0F ≤ fo) || (m && (fo == 0 || fo == 0x0C))), 4),
   (k == 5 && decide (0x0B < op), 2),
   (k == 5 && decide (10 ≤ op) && (decide (8 < xCmp x) || decide (15 < xSite x)), 5),
   (k == 6 && decide (2 < op), 2),
   (k == 6 && op != 0 && !(decide (xA x < e) && xKind (vEntry b (xA x)) == 1 && xPacked (vEntry b (xA x))), 0),
   (k == 7 && decide (3 < op), 2), (k == 7 && decide (vDepth b < xLevel x), 6),
   -- LOAD and STORE
   (k == 1 && xA x != 0, 0), (ls && xSpace x == 3, 2), (ls && decide (0x0F ≤ sf), 3),
   (k == 1 && m && !laneFmt true sf, 3), (k == 8 && xPacked x, 2),
   (k == 8 && srcFmt b (xA x) != some (xStored x), 3),
   (ls && xPacked x && [1, 2, 3].any (fun l => xStride x l != 0), 7),
   (ls && (xStored x).isBlock && [1, 2, 3].any (fun l =>
      decide (l ≤ vDepth b) && decide (xStride x l % ((xStored x).blockBytes : Int) ≠ 0)), 7),
   (k == 1 && xPacked x && !((List.range (vStages b)).any (fun p =>
      let y := vEntry b p
      xKind y == 6 && xOp y != 0 && xA y == e)), 2)]

/-- A descriptor without the strides of its SPACE 2 stages, which an operator does not use (R486). -/
def unstrided (b : List Byte) : List Byte :=
  b.take 64 ++ (List.range 12).flatMap (fun e =>
    let x := vEntry b e
    let bound := (xKind x == 1 || xKind x == 8) && xSpace x == 2
    leBytes 16 (if bound then setBits x 56 66 0 else x))

/-- Stages that stand below the COMPRESS: they see the flush slot. -/
def vBelow (b : List Byte) : List Nat :=
  match vCompress b with
  | none => []
  | some c => (List.range (vStages b)).foldl (fun l e =>
      if e = c ∨ (xDeps b (vEntry b e)).any l.contains then e :: l else l) []

/-- Entries from which a STORE is reached, found from the last entry down. -/
def vLive (b : List Byte) : List Nat :=
  (List.range (vStages b)).reverse.foldl (fun l e =>
    let x := vEntry b e
    if xKind x = 8 ∨ l.contains e then xDeps b x ++ e :: l else l) []

/-- The first byte of a descriptor that R110 refuses; none: the descriptor is sound. -/
def chainBadAt (b : List Byte) (ue : Bool) : Option Nat :=
  let n := vStages b
  let res := reservedAt [(0, 1, 0x7F), (1, 1, 0xFF), (2, 4, 0xFFFFFFFF), (6, 6, 2 ^ 48 - 1), (12, 6, 2 ^ 48 - 1),
    (18, 6, 2 ^ 48 - 1), (24, 6, 2 ^ 48 - 1), (32, 4, 0x1FFFF), (36, 3, 0x7FFFFF), (39, 3, 0x7FFFFF), (42, 3, 0x7FFFFF),
    (45, 3, 0x7FFFFF)] (b.take 64) 64
  let counts := (List.range 8).any (fun k =>
    decide ((vPool ue).getD k 0 < ((List.range n).filter (fun e => xKind (vEntry b e) == k + 1)).length))
  let tail := (List.range 12).find? (fun e => decide (n ≤ e) && vEntry b e != 0)
  match res with
  | some o => some o
  | none =>
    if n = 0 ∨ 12 < n then some 0
    else if vMaskBase b % 64 ≠ 0 then some 32
    else match tail with
      | some e => some (64 + 16 * e)
      | none =>
        if counts then some 0
        else
          let bad := (List.range n).findSome? (fun e =>
            ((entryChecks b e ue).find? (fun c => c.1)).map (fun c => 64 + 16 * e + c.2))
          match bad with
          | some o => some o
          | none =>
            if !vHas b (fun x => xKind x == 8) then some 0
            else ((List.range n).find? (fun e =>
              !(vLive b).contains e && !(xKind (vEntry b e) == 5 && xMaskWrite (vEntry b e)))).map (fun e => 64 + 16 * e)

/-! ### The invocation record (R118, R119, R131) -/

def rDesc (r : List Byte) : Nat := fld r 0 1
def rPop (r : List Byte) : Bool := bit (fld r 1 1) 0
/-- Length register of level l. -/
def rLen (r : List Byte) (l : Nat) : Nat := if l = 0 then fld r 2 4 else fld r (4 + 2 * l) 2
/-- Iterations of an outer level, 1 beyond LOOP_DEPTH. -/
def vIter (b r : List Byte) (l : Nat) : Nat := if l ≤ vDepth b then rLen r l else 1

/-- A chain under the element limit. -/
def vLimited (b : List Byte) : Bool :=
  vHas b (fun x => xKind x == 6 || (xKind x == 5 && (xMaskWrite x || decide (9 ≤ xOp x))))
def vElements (b r : List Byte) : Nat := rLen r 0 * vIter b r 1 * vIter b r 2 * vIter b r 3

/-- A stage reads or writes the mask plane. -/
def vPlane (b : List Byte) : Bool := vHas b (fun x => xKind x == 5 && (xMaskWrite x || decide (9 ≤ xOp x)))

/-- A record refused at LOAD_FROND: reserved bits, or lengths beyond the limit of R131; a plane of that length must lie
in the operand cache. -/
def recordBad (b r : List Byte) : Option Nat :=
  match reservedAt [(0, 1, 0xFF), (1, 1, 1), (2, 4, 0xFFFFFFFF), (6, 2, 0xFFFF), (8, 2, 0xFFFF), (10, 2, 0xFFFF)] r 16 with
  | some o => some o
  | none =>
    if vLimited b ∧ 65536 < vElements b r then some 2
    else if vPlane b ∧ vElements b r = 65536 ∧ 131072 < vMaskBase b + 8192 then some 2
    else none

end Sys2Proof.Machine
end

