-- ==== Sys2Proof/Machine/Vector.lean ====
section
/-!
DEFINITION. Invocations of vector and update engines (05 R108 to R141): the lockstep pipeline mclk by mclk, its
stages, and the INVOCATION row.
-/
namespace Sys2Proof.Machine

/-! ### Lanes -/

/-- Where an invocation's stages find their operands. -/
structure ChainEnv where
  /-- lanes of a beat -/
  w : Nat
  /-- memory key of an offset of the element plane, and of the scale plane, of an entry -/
  key : Nat → Nat → Option Nat
  scaleKey : Nat → Nat → Option Nat
  /-- memory key of an offset of operand cache or constant window -/
  cacheKey : Nat → Option Nat
  /-- offset of the first element, and of its scale byte, of an entry's row (i1, i2, i3) -/
  row : Nat → Nat → Nat → Nat → Int
  scaleRow : Nat → Nat → Nat → Nat → Int
  /-- logical index of element i0 of row (i1, i2, i3) -/
  logical : Nat → Nat → Nat → Nat → Nat
  /-- the entry moves stream beats -/
  stream : Nat → Bool
  /-- banked memory whose conflicts hold the chain: the bank of a word, and the word of an offset of a space in it -/
  bank : Nat → Nat
  word : Nat → Nat → Option Nat
  seed : Nat
  step : Nat
  /-- added to SEQUENCE -/
  seq : Nat
  lut0 : Nat
  lut1 : Nat
  /-- elements of level 0 that carry lanes -/
  len0 : Nat
  /-- slots, beats per level-0 row, and the outer lengths -/
  slots : Nat
  beats : Nat
  n1 : Nat
  n2 : Nat
  /-- element i0 of a row takes part -/
  live : Nat → Bool := fun _ => true
  /-- lane bits, counts and poison of an element that the issuing command delivers to an entry decoded -/
  given : Nat → VLane → Option (Nat × Health × Bool) := fun _ _ => none

/-- An invocation at work on a state. -/
structure ChainRun extends VProg where
  s : State

/-! ### Slots (R119, R120) -/

/-- Beat of its row and outer indices of slot j; the flush slot belongs to the last row. -/
def ChainEnv.at (e : ChainEnv) (j : Nat) : Nat × Nat × Nat × Nat :=
  let j := min j (e.slots - 1)
  let r := j / e.beats
  (j % e.beats, r % e.n1, r / e.n1 % e.n2, r / (e.n1 * e.n2))

/-- The lanes that enter in slot j. -/
def ChainEnv.enter (e : ChainEnv) (j : Nat) : ChainBeat :=
  if e.slots ≤ j then List.replicate e.w none
  else
    let (b, i1, i2, i3) := e.at j
    (List.range e.w).map (fun l =>
      let i0 := b * e.w + l
      if e.len0 ≤ i0 || !e.live i0 then none
      else some { w := 0, idx := e.logical i0 i1 i2 i3, p0 := i0, p1 := i1, p2 := i2, p3 := i3, elem := j * e.w + l })

def VLane.row (x : VLane) : Nat × Nat × Nat := (x.p1, x.p2, x.p3)

/-! ### Inputs -/

/-- The vector operand of source 0xD, read at setup (R117). -/
def vectorAt (s : State) (env : ChainEnv) (x : Nat) : ChainBeat :=
  let n := (xFmt x).elemBits / 8
  (List.range env.w).map (fun l =>
    let bs := (List.range n).map (fun i => s.rdByte env.cacheKey (xOc x + n * l + i))
    some { w := leNat (bs.map Prod.fst), poison := bs.any Prod.snd, own := false })

/-- The beat a source code supplies in slot j. -/
def ChainRun.source (v : ChainRun) (s0 : State) (env : ChainEnv) (x c j : Nat) : ChainBeat :=
  if c < 12 then Tbl.get [] v.outs (j * 16 + c)
  else if c = 12 then Tbl.get [] v.index j
  else if c = 13 then vectorAt s0 env x
  else List.replicate env.w (some { w := xImm x % 2 ^ (xFmt x).elemBits, own := false })

/-- VLane l of a beat. -/
def laneOf (b : ChainBeat) (l : Nat) : Option VLane := b.getD l none

/-- Combine input lanes: masked where an input is masked or the predicate is 0; `sel` keeps lanes whatever the
predicate. `f` takes the inputs, the predicate and the lane's identity: that of an input, else of the predicate. -/
def joinBeats (w : Nat) (enter : ChainBeat) (ins : List ChainBeat) (pred : Option ChainBeat) (sel : Bool)
    (f : List VLane → Bool → VLane → Nat × Health) : List (Option (VLane × Health)) :=
  (List.range w).map (fun l =>
    let xs := ins.map (fun b => laneOf b l)
    if xs.any Option.isNone then none
    else
      let xs := xs.filterMap id
      let pl := pred.bind (fun b => laneOf b l)
      if pred.isSome && (match pl with | none => true | some p => !sel && p.w == 0) then none
      else
        match ((xs.find? (fun x => x.own)).orElse (fun _ => pl)).orElse (fun _ => laneOf enter l) with
        | none => none
        | some who =>
          let (w, h) := f xs (match pl with | some p => p.w != 0 | none => false) who
          some ({ who with w := w, own := true, live := true,
                           poison := xs.any (fun x => x.poison) || (match pl with | some p => p.poison | none => false) }, h))

/-- Keep a stage's output and its counts. -/
def ChainRun.emit (v : ChainRun) (e j : Nat) (ls : List (Option (VLane × Health))) : ChainRun :=
  let out := ls.map (fun x => x.map Prod.fst)
  let hs := ls.filterMap (fun x => x.bind (fun (a, h) => if h = Health.zero then none else some (e, a.elem, h)))
  { v with outs := Tbl.put v.outs (j * 16 + e) out, defer := v.defer ++ hs }

/-- The first poisoned data of the invocation (R447). -/
def ChainRun.tainted (v : ChainRun) (bad : Bool) (k x : Nat) : ChainRun :=
  if bad && v.taint.isNone then { v with taint := some (k, x) } else v

/-- Kind and place of a LOAD's element at address `a`. -/
def loadPlace (x a : Nat) : Nat × Nat :=
  match xSpace x with
  | 1 => (1, a)
  | 2 => (2, xBase x % 65536)
  | _ => (0, a)

/-- The STOCH draw of a lane at a stage (R48, R120). -/
def ChainEnv.draw (env : ChainEnv) (b : List Byte) (x idx : Nat) : Nat :=
  if xRnd x = .stoch then
    ({ seed := env.seed, step := env.step, tensor := vHead b 16 32, site := xSite x,
       seq := (vHead b 8 8 + env.seq) % 256 } : Key).draw idx
  else 0

/-! ### LOAD (R120, R121) -/

/-- Stored bits, scale code and poison of an element; none where a stream's lane is masked. Of a stream, `l` is the
place of the element in the beats the entry has taken. -/
def ChainRun.elementAt (v : ChainRun) (env : ChainEnv) (e x l : Nat) (p : VLane) : Option (Nat × Nat × Bool) :=
  let f := xStored x
  let (o, n, sh) := f.place p.p0
  let base := env.row e p.p1 p.p2 p.p3
  let sb := (env.scaleRow e p.p1 p.p2 p.p3).toNat + p.p0 / 32
  let (sc, sp) := if f.isBlock then v.s.rdByte (env.scaleKey e) sb else (0, false)
  if env.stream e then
    let bit0 := l * f.elemBits
    let beat := (Tbl.get [] v.fed e).getD (bit0 / 512) nullBeat
    if laneMasked beat (bit0 % 512 / 32) then none
    else some (bits (leNat (beatBytes beat)) (bit0 % 512) f.elemBits, sc.toNat, beat.poison || sp)
  else
    let bs := (List.range n).map (fun i => v.s.rdByte (env.key e) (base.toNat + o + i))
    some (bits (leNat (bs.map Prod.fst)) sh f.elemBits, sc.toNat, bs.any Prod.snd || sp)

/-- Stored bits to lane bits, with their counts (R55, R121): a format that is the lane's passes its bits unchanged (R53). -/
def toLane (mode : Bool) (f : Fmt) (w sc : Nat) : Nat × Health :=
  if mode || f = .fp32 then (w, inHealth (f.decode w))
  else if f.isInt then (unsigned 32 (signed f.elemBits w), .zero)
  else
    let v := f.value w sc
    let (r, h) := lay32.convert .rne true 0 v
    (r, h.add (inHealth v))

/-- Words of the banked memory that a span of bytes of an entry's space touches. -/
def ChainEnv.words (env : ChainEnv) (space off n : Nat) : List Nat :=
  ((List.range (ceilDiv (off % 64 + n) 64)).filterMap (fun i => env.word space (off + 64 * i)))

/-- The byte offset of an element. -/
def offsetOf (env : ChainEnv) (e x : Nat) (p : VLane) : Nat :=
  (env.row e p.p1 p.p2 p.p3).toNat + ((xStored x).place p.p0).1

/-- Words of the banked memory that a LOAD's or STORE's elements touch, scale bytes included (R138, R141). -/
def ChainEnv.touched (env : ChainEnv) (e x : Nat) (ps : List VLane) : List Nat :=
  let f := xStored x
  let sp := xSpace x
  let plane (p : VLane) : List Nat :=
    if f.isBlock then
      env.words sp ((env.row e p.p1 p.p2 p.p3).toNat + p.p0 / 32 * f.blockBytes) f.blockBytes ++
        env.words (if sp = 1 then 1 else 0) ((env.scaleRow e p.p1 p.p2 p.p3).toNat + p.p0 / 32) 1
    else env.words sp (offsetOf env e x p) (f.elemBits / 8)
  if sp = 2 then (if f.isBlock then (ps.map (fun p => env.words 0 ((env.scaleRow e p.p1 p.p2 p.p3).toNat + p.p0 / 32) 1)).flatten.eraseDups else [])
  else (ps.map plane).flatten.eraseDups

/-- Note a banked access. -/
def ChainRun.touch (v : ChainRun) (mclk e : Nat) (ws : List Nat) : ChainRun :=
  if ws.isEmpty then v else { v with access := (mclk, e, ws) :: v.access }

/-- A LOAD's beat is read in the mclk in which its slot enters (log 73). -/
def ChainRun.load (v : ChainRun) (env : ChainEnv) (b : List Byte) (e j mclk : Nat) : ChainRun :=
  let x := vEntry b e
  if xPacked x then
    -- elements that the slots not yet expanded, this one included, can take
    let n := env.w * (j + 1 - v.expanded)
    let els := (List.range n).map (fun i => v.elementAt env e x (v.taken + i) { w := 0, p0 := v.taken + i })
    let bad := els.any (fun y => match y with | some (_, _, q) => q | none => false)
    let (k, a) := loadPlace x (env.row e 0 0 0).toNat
    ({ v with snaps := Tbl.put v.snaps j ⟨v.taken, els⟩, outs := Tbl.put v.outs (j * 16 + e) [] }).tainted bad k a
  else
    let en := env.enter j
    let ls := (List.range env.w).map (fun l => (laneOf en l).bind (fun p =>
      match env.given e p with
      | some (r, h, q) => some ({ p with w := r, poison := q }, h)
      | none => (v.elementAt env e x l p).map (fun (w, sc, q) =>
          let (r, h) := toLane (v16 b) (xStored x) w sc
          ({ p with w := r, poison := q }, h))))
    let bad := (ls.filterMap id).find? (fun y => y.1.poison && (env.given e y.1).isNone)
    let (k, a) := loadPlace x (match bad with | some (p, _) => offsetOf env e x p | none => 0)
    ((v.emit e j ls).tainted bad.isSome k a).touch mclk e (env.touched e x (en.filterMap id))

/-! ### Arithmetic (R123, R124, R133) -/

/-- Integer and bitwise operations on `n`-bit lanes. -/
def intOp (op n a b : Nat) : Nat :=
  let x := signed n a
  let y := signed n b
  match op with
  | 0x10 => unsigned n (x + y)
  | 0x11 => unsigned n (x - y)
  | 0x12 => unsigned n (x * y)
  | 0x13 => unsigned n (min x y)
  | 0x14 => unsigned n (max x y)
  | 0x15 => a &&& b
  | 0x16 => a ||| b
  | 0x17 => a ^^^ b
  | 0x18 => (a <<< (b % n)) % 2 ^ n
  | 0x19 => a >>> (b % n)
  | 0x1A => unsigned n (x >>> (b % n))
  | _ => a

/-- The comparison of code c (R126), unordered false but for NE. -/
def compareVal (c : Nat) (a b : Val) : Bool :=
  match c with
  | 0 => Val.eqNum a b
  | 1 => !(Val.eqNum a b)
  | 2 => !a.isNan && !b.isNan && Val.ltNum a b
  | 3 => !a.isNan && !b.isNan && !(Val.ltNum b a)
  | 4 => !a.isNan && !b.isNan && Val.ltNum b a
  | 5 => !a.isNan && !b.isNan && !(Val.ltNum a b)
  | 6 => !a.isNan && !b.isNan && !(Val.ltNum a.abs b.abs)
  | 7 => a.isNan
  | _ => !a.isNan && !a.isInf

/-- The exact value of a floating-point operation. -/
def floatOp (op : Nat) (a b c : Val) : Val :=
  match op with
  | 0x00 => Val.add a b
  | 0x01 => Val.sub a b
  | 0x02 => Val.mul a b
  | 0x03 => Val.add (Val.mul a b) c
  | 0x04 => Val.min a b
  | 0x05 => Val.max a b
  | 0x06 => a.abs
  | 0x07 => a.negate
  | 0x0F => if a.isNan || a.isZero then a else if a.neg? then cOne.negate else cOne
  | _ => if compareVal (op - 9) a b then cOne else .zero

/-- Rounding into a lane format: in 16-bit lanes SAT decides the overflow; FP32 overflows to infinity (R53, R124). -/
def intoLane (f : Fmt) (x r : Nat) (v : Val) : Nat × Health :=
  match f.lay with
  | some l => l.convert (xRnd x) (f == .fp32 || xNonsat x) r v
  | none => toInteger f.elemBits (xRnd x) r v

def aluLane (env : ChainEnv) (b : List Byte) (x : Nat) (xs : List VLane) (p : Bool) (who : VLane) : Nat × Health :=
  let op := xOp x
  let f := xFmt x
  let g (i : Nat) : Nat := (xs.getD i default).w
  if op = 0x08 then (if p then g 0 else g 1, .zero)
  else if 0x10 ≤ op then (intOp op f.elemBits (g 0) (g 1), .zero)
  else intoLane f x (env.draw b x who.idx) (floatOp op (f.decode (g 0)) (f.decode (g 1)) (f.decode (g 2)))

/-- A LUT stage: the first of the chain has table 0. -/
def lutLane (env : ChainEnv) (b : List Byte) (e : Nat) (xs : List VLane) (who : VLane) : Nat × Health :=
  let x := vEntry b e
  let first := !((List.range e).any (fun k => xKind (vEntry b k) == 3))
  let tab := if first then env.lut0 else env.lut1
  let f := xFmt x
  let v := f.decode (xs.headD default).w
  let r := env.draw b x who.idx
  if f = .fp32 then lut32 (xOp x) tab (xRnd x) r v else lut16 f (xOp x) tab (xRnd x) (xNonsat x) r v

/-- A CVT stage; a block output travels as it came, its blocks being encoded by the STORE (R122). -/
def cvtLane (env : ChainEnv) (b : List Byte) (x : Nat) (xs : List VLane) (who : VLane) : Nat × Health :=
  let w := (xs.headD default).w
  if (xOut x).isBlock then (w, .zero)
  else (xOut x).convert (xRnd x) (xNonsat x) (env.draw b x who.idx) ((xFmt x).decode w)

/-- ALU, LUT or CVT in slot j. -/
def ChainRun.compute (v : ChainRun) (s0 : State) (env : ChainEnv) (b : List Byte) (e j : Nat) : ChainRun :=
  let x := vEntry b e
  let k := xKind x
  let ins := (xIns x).map (fun (c, _) => v.source s0 env x c j)
  let pred := if xPred x = 15 then none else some (Tbl.get [] v.outs (j * 16 + xPred x))
  v.emit e j (joinBeats env.w (env.enter j) ins pred (k == 2 && xOp x == 0x08) (fun xs p who =>
    if k = 2 then aluLane env b x xs p who else if k = 3 then lutLane env b e xs who else cvtLane env b x xs who))

/-! ### MASK (R126) -/

/-- The predicate of slot j: a lane whose input is masked gives predicate 0, writes no bit and has no ordinal. -/
def ChainRun.mask (v : ChainRun) (s0 : State) (env : ChainEnv) (b : List Byte) (e j mclk depth : Nat) (below : Bool) :
    ChainRun :=
  let x := vEntry b e
  let f := xFmt x
  let op := xOp x
  let enter := env.enter j
  let ins := (xIns x).map (fun (c, _) => v.source s0 env x c j)
  let ls := joinBeats env.w enter (if op = 9 then [enter] else ins) none false (fun xs _ _ =>
    (b01 (compareVal (xCmp x) (f.decode (xs.getD 0 default).w) (f.decode (xs.getD 1 default).w)), .zero))
  -- ordinals of the unmasked lanes
  let (q1, ls) := ls.foldl (fun (q, acc) y =>
    match y with
    | none => (q, acc ++ [none])
    | some (p, _) => (q + 1, acc ++ [some { p with ord := q }])) (v.ordMask, ([] : ChainBeat))
  let plane (p : VLane) : VLane :=
    if op < 9 then p
    else
      let (byte, marked) := v.s.rdByte env.cacheKey (vMaskBase b + p.ord / 8)
      let bit := bits byte.toNat (p.ord % 8) 1
      { p with w := if op = 9 then bit else if op = 10 then p.w * bit else max p.w bit, poison := p.poison || marked }
  let set := ls.map (fun y => y.map plane)
  let out := ((List.range env.w).zip set).map (fun (l, y) =>
    y.orElse (fun _ => if below then none else (laneOf enter l).map (fun p => { p with live := false })))
  let v := { v with ordMask := q1, outs := Tbl.put v.outs (j * 16 + e) out }
  let set := set.filterMap id
  let bytes := (set.map (fun p => vMaskBase b + p.ord / 8)).eraseDups
  let words := (bytes.map (fun o => env.words 1 o 1)).flatten.eraseDups
  let v := if 9 ≤ op then v.touch mclk e words else v
  if !xMaskWrite x then v
  else
    -- the bits of other ordinals in a byte stay: they are those of this stage's earlier slots, or of memory
    let cells := bytes.filterMap (fun o =>
      (env.cacheKey o).map (fun k =>
        let old := (v.writes.foldl (fun a (_, cs) =>
          (cs.find? (fun c => c.1 == k)).map (fun c => c.2.1) |>.getD a) (v.s.rd k)).toNat
        let mine := set.filter (fun p => vMaskBase b + p.ord / 8 = o)
        let w := mine.foldl (fun a p => setBits a (p.ord % 8) 1 p.w) old
        (k, BitVec.ofNat 8 w, mine.any (fun p => p.poison))))
    ({ v with writes := v.writes ++ [(depth, cells)] }).touch depth e words

/-! ### PACK (R127 to R130, R132) -/

/-- Slot j of a COMPRESS: a lane without data or predicate has no part in it; the index is the element's ordinal at the
MASK, poisoned by a poisoned predicate alone (R126 to R128, R139). -/
def ChainRun.compress (v : ChainRun) (s0 : State) (env : ChainEnv) (b : List Byte) (e j : Nat) : ChainRun :=
  let x := vEntry b e
  let data := v.source s0 env x (xA x) j
  let pred := Tbl.get [] v.outs (j * 16 + xPred x)
  let v := (List.range env.w).foldl (fun (v : ChainRun) l =>
    match laneOf data l, laneOf pred l with
    | some p, some y =>
      if !p.own && !y.live then v
      else
        let p := if p.own then { p with ord := y.ord } else { y with w := p.w, poison := p.poison }
        let v := { v with sticky := v.sticky || y.poison }
        if y.w = 0 then { v with gone := p.elem :: v.gone } else { v with buf := v.buf ++ [p], kept := v.kept + 1 }
    | _, _ => v) v
  let go := decide (env.w ≤ v.buf.length) || decide (j = env.slots)
  let take := if go then v.buf.take env.w else []
  let beat := ((List.range take.length).zip take).map (fun (i, p) =>
    ({ p with p0 := v.packed + i, p1 := 0, p2 := 0, p3 := 0, own := true } : VLane))
  let pad := List.replicate (env.w - beat.length) none
  { v with
    buf := if go then v.buf.drop env.w else v.buf, packed := v.packed + take.length,
    outs := Tbl.put v.outs (j * 16 + e) (beat.map (fun p => some { p with poison := p.poison || v.sticky }) ++ pad),
    index := Tbl.put v.index j (beat.map (fun p =>
      some { p with w := (xImm x + p.ord) % 2 ^ 32, poison := v.sticky }) ++ pad) }

def ChainRun.expand (v : ChainRun) (s0 : State) (env : ChainEnv) (b : List Byte) (e j mclk : Nat) : ChainRun :=
  let x := vEntry b e
  let ld := xA x
  let y := vEntry b ld
  let pred := Tbl.get [] v.outs (j * 16 + xPred x)
  let read := Tbl.get ({} : PackedRead) v.snaps j
  let other := if xOp x = 2 then v.source s0 env x (xB x) j else []
  let v := { v with sticky := v.sticky || pred.any (fun p => match p with | some p => p.poison | none => false) }
  let k0 := v.taken
  let (k1, ls) := (List.range env.w).foldl (fun (k, acc) l =>
    match laneOf pred l with
    | none => (k, acc ++ [none])
    | some p =>
      if p.w = 0 then
        if xOp x = 1 then
          (k, acc ++ [some (({ p with w := xImm x % 2 ^ (xFmt x).elemBits, poison := v.sticky } : VLane), Health.zero)])
        else match laneOf other l with
          | none => (k, acc ++ [none])
          | some o => (k, acc ++ [some ({ p with w := o.w, poison := o.poison || v.sticky }, Health.zero)])
      else
        match read.seen.getD (k - read.first) none with
        | none => (k + 1, acc ++ [none])
        | some (w, sc, q) =>
          let (r, h) := toLane (v16 b) (xStored y) w sc
          (k + 1, acc ++ [some ({ p with w := r, poison := q || v.sticky }, h)]))
    (k0, ([] : List (Option (VLane × Health))))
  let ps : List VLane := (List.range (k1 - k0)).map (fun i => { w := 0, p0 := k0 + i })
  let v := { v with taken := k1, expanded := v.expanded + 1 }
  (v.emit e j ls).touch mclk ld (env.touched ld y ps)

/-! ### RED (R125) -/

/-- One addition, maximum or minimum of a RED. -/
def redStep (env : ChainEnv) (b : List Byte) (x idx : Nat) (a c : Nat × Bool) : (Nat × Bool) × Health :=
  let f := xFmt x
  let op := xOp x
  let p := a.2 || c.2
  if f.isInt then
    ((intOp (if op = 1 then 0x14 else if op = 2 then 0x13 else 0x10) f.elemBits a.1 c.1, p), .zero)
  else
    let u := f.decode a.1
    let w := f.decode c.1
    let v := if op = 1 then Val.max u w else if op = 2 then Val.min u w else Val.add u w
    let (r, h) := match f.lay with
      | some l => l.convert (xRnd x) true (env.draw b x idx) v
      | none => (0, Health.zero)
    ((r, p), h)

/-- Combine two inputs of which either may be absent. -/
def redJoin (env : ChainEnv) (b : List Byte) (x idx : Nat) (a c : Option (Nat × Bool)) : Option (Nat × Bool) × Health :=
  match a, c with
  | some a, some c => let (r, h) := redStep env b x idx a c; (some r, h)
  | some a, none => (some a, .zero)
  | none, c => (c, .zero)

/-- One level of the pairwise tree. -/
def redLevel (env : ChainEnv) (b : List Byte) (x idx : Nat) :
    List (Option (Nat × Bool)) → List (Option (Nat × Bool)) × Health
  | a :: c :: t =>
    let (r, h) := redJoin env b x idx a c
    let (rs, hs) := redLevel env b x idx t
    (r :: rs, h.add hs)
  | [a] => ([a], .zero)
  | [] => ([], .zero)

/-- The pairwise tree over a beat of at most 2^n lanes. -/
def redTree (env : ChainEnv) (b : List Byte) (x idx : Nat) :
    Nat → List (Option (Nat × Bool)) → Option (Nat × Bool) × Health
  | 0, l => (l.headD none, .zero)
  | n + 1, l =>
    let (l', h) := redLevel env b x idx l
    let (r, h') := redTree env b x idx n l'
    (r, h.add h')

/-- The result of a run with no unmasked lane. -/
def redEmpty (x : Nat) : Nat :=
  let f := xFmt x
  let n := f.elemBits
  if f.isInt then (if xOp x = 1 then 2 ^ (n - 1) else if xOp x = 2 then 2 ^ (n - 1) - 1 else 0)
  else match f.lay with
    | some l => if xOp x = 1 then l.packInf true else if xOp x = 2 then l.packInf false else 0
    | none => 0

/-- The run of level `lv` that slot j belongs to. -/
def ChainEnv.runOf (env : ChainEnv) (lv j : Nat) : Nat × Nat × Nat :=
  let (_, i1, i2, i3) := env.at j
  match lv with
  | 0 => (i1, i2, i3) | 1 => (0, i2, i3) | 2 => (0, 0, i3) | _ => (0, 0, 0)

def ChainRun.red (v : ChainRun) (s0 : State) (env : ChainEnv) (b : List Byte) (e j total : Nat) (below : Bool) : ChainRun :=
  let x := vEntry b e
  let lv := xLevel x
  let run := env.runOf lv j
  let fresh := decide (j = 0) || env.runOf lv (j - 1) != run
  let enter := env.enter j
  let data := (List.range env.w).map (fun l => (laneOf (v.source s0 env x (xA x) j) l).bind (fun p =>
    if p.own then some p else (laneOf enter l).map (fun q => { q with w := p.w, poison := p.poison })))
  let c : RedCarry := if fresh then {} else Tbl.get {} v.carry e
  let (c0, f0) := (c.value, c.first)
  let first := f0.orElse (fun _ => (if below then data.findSome? id else (laneOf enter 0).orElse (fun _ => data.findSome? id)))
  let last := if below then decide (j + 1 = total) || (env.runOf lv (j + 1) != run && decide (j + 1 < env.slots))
    else decide (j + 1 = env.slots) || env.runOf lv (j + 1) != run
  let pred := if xPred x = 15 then none else some (Tbl.get [] v.outs (j * 16 + xPred x))
  let cut (l : Nat) (y : Option (VLane × Health)) : Option (VLane × Health) :=
    match pred with
    | none => y
    | some pb => match laneOf pb l with
      | some p => if p.w = 0 then none else y.map (fun (a, h) => ({ a with poison := a.poison || p.poison }, h))
      | none => none
  let (c1, ls, h) :=
    if xOp x = 3 then
      data.foldl (fun (c, acc, h) y =>
        match y with
        | none => (c, acc ++ [none], h)
        | some p =>
          let (r, h') := redJoin env b x p.idx c (some (p.w, p.poison))
          let (w, q) := r.getD (0, false)
          (r, acc ++ [some (({ p with w := w, poison := q } : VLane), Health.zero)], h.add h'))
        (c0, ([] : List (Option (VLane × Health))), Health.zero)
    else
      let idx := match first with | some p => p.idx | none => 0
      let (r, h1) := redTree env b x idx 10 (data.map (fun y => y.map (fun p => (p.w, p.poison))))
      let (c, h2) := match r with
        | none => (c0, Health.zero)
        | some r => redJoin env b x idx c0 (some r)
      let who : VLane := first.getD { w := 0, elem := j * env.w }
      let res := c.getD (redEmpty x, false)
      let lane : VLane := { who with w := res.1, poison := res.2, p0 := 0, p1 := run.1, p2 := run.2.1, p3 := run.2.2 }
      (c, (if last then [some (lane, Health.zero)] else [none]) ++ List.replicate (env.w - 1) none, h1.add h2)
  let ls := ((List.range ls.length).zip ls).map (fun (l, y) => cut l y)
  { (v.emit e j ls) with carry := Tbl.put v.carry e ⟨c1, first⟩, health := v.health.add h }

/-! ### STORE (R120, R122, R139) -/

/-- The lanes a STORE writes in slot j. -/
def ChainRun.storeLanes (v : ChainRun) (s0 : State) (env : ChainEnv) (b : List Byte) (e j : Nat) : ChainBeat :=
  let x := vEntry b e
  let src := v.source s0 env x (xA x) j
  if xPred x = 15 then src
  else
    let pb := Tbl.get [] v.outs (j * 16 + xPred x)
    (List.range env.w).map (fun l => (laneOf src l).bind (fun p => (laneOf pb l).bind (fun q =>
      if q.w = 0 then none else some { p with poison := p.poison || q.poison })))

/-- An element's code, bytes of blocks, scale cells, counts: what a STORE makes of a group of 32 lanes in a block
format. -/
structure StoredBlock where
  group : Nat
  bytes : List Byte
  scale : Nat
  lane : VLane
  poison : Bool
  health : Health
  deriving Repr

/-- Encode the active lanes of each block of a beat (R122). -/
def encodeBlocks (env : ChainEnv) (b : List Byte) (cvt : Nat) (f : Fmt) (ls : ChainBeat) : List StoredBlock :=
  (List.range (ceilDiv env.w 32)).filterMap (fun g =>
    let act := (List.range 32).filterMap (fun i => (laneOf ls (32 * g + i)).map (fun p => (i, p)))
    match act with
    | [] => none
    | (i0, p0) :: _ =>
      let (sc, codes, h) := f.encodeBlock (xRnd cvt) (xNonsat cvt) (act.map (fun (_, p) => env.draw b cvt p.idx))
        (act.map (fun (_, p) => (xFmt cvt).decode p.w))
      let full := (act.zip codes).foldl (fun (l : List Nat) ((i, _), c) => l.set i c) (List.replicate 32 0)
      some { group := g, bytes := f.bytes full, scale := sc, lane := { p0 with p0 := p0.p0 - i0 },
             poison := act.any (fun (_, p) => p.poison), health := h })

/-- Beats of a STORE that delivers to a stream: element codes packed as they lie in memory. -/
def streamBeats (env : ChainEnv) (f : Fmt) (ls : ChainBeat) (bytes : List Byte) : List Beat :=
  let per := ceilDiv (env.w * f.elemBits) 512
  (List.range per).map (fun i =>
    let raw := slice bytes (64 * i) 64
    let lanesIn (k : Nat) : ChainBeat :=
      (List.range env.w).filterMap (fun l =>
        let o := l * f.elemBits
        if o < (16 * i + k + 1) * 32 ∧ (16 * i + k) * 32 < o + f.elemBits then some (laneOf ls l) else none)
    { lanes := (List.range 16).map (fun k => fld raw (4 * k) 4),
      mask := (List.range 16).foldl (fun m k => if (lanesIn k).all Option.isNone then m + 2 ^ k else m) 0,
      poison := (List.range 16).any (fun k => (lanesIn k).any (fun p => match p with | some p => p.poison | none => false)) })

def ChainRun.store (v : ChainRun) (s0 : State) (env : ChainEnv) (b : List Byte) (e j depth : Nat) : ChainRun :=
  let x := vEntry b e
  let f := xStored x
  let ls := v.storeLanes s0 env b e j
  let src := xA x
  -- a conversion is counted once, at the first STORE it feeds
  let firstUse := !((List.range e).any (fun k => xKind (vEntry b k) == 8 && xA (vEntry b k) == src))
  let bad := ls.any (fun p => match p with | some p => p.poison | none => false)
  if f.isBlock then
    let blocks := encodeBlocks env b (vEntry b src) f ls
    let h := blocks.foldl (fun h k => h.add (if firstUse then k.health else { k.health with sat := 0, flush := 0 })) v.health
    let scales := (blocks.map (fun k =>
      let so := (env.scaleRow e k.lane.p1 k.lane.p2 k.lane.p3).toNat + k.lane.p0 / 32
      cellsAt (env.scaleKey e) so [BitVec.ofNat 8 k.scale] k.poison)).flatten
    let v := { v with health := h, poisoned := v.poisoned || bad }
    if env.stream e then
      let bytes := ((List.range (ceilDiv env.w 32)).map (fun g =>
        match blocks.find? (fun k => k.group == g) with
        | some k => k.bytes
        | none => List.replicate f.blockBytes 0)).flatten
      { v with out := Tbl.put v.out e (Tbl.get [] v.out e ++ streamBeats env f ls bytes),
               writes := v.writes ++ [(depth, scales)] }
    else
      let cells := (blocks.map (fun k =>
        cellsAt (env.key e) ((env.row e k.lane.p1 k.lane.p2 k.lane.p3).toNat + k.lane.p0 / 32 * f.blockBytes) k.bytes
          k.poison)).flatten
      ({ v with writes := v.writes ++ [(depth, cells ++ scales)] }).touch depth e (env.touched e x (blocks.map (fun (k : StoredBlock) => k.lane)))
  else
    let n := f.elemBits / 8
    let act := ls.filterMap id
    let h := act.foldl (fun h p => h.add (outHealth f p.w)) v.health
    let v := { v with health := h, poisoned := v.poisoned || bad }
    if env.stream e then
      let bytes := (ls.map (fun p => leBytes n (match p with | some p => p.w | none => 0))).flatten
      { v with out := Tbl.put v.out e (Tbl.get [] v.out e ++ streamBeats env f ls bytes) }
    else
      let cells := (act.map (fun p => cellsAt (env.key e) (offsetOf env e x p) (leBytes n p.w) p.poison)).flatten
      ({ v with writes := v.writes ++ [(depth, cells)] }).touch depth e (env.touched e x act)

/-! ### The pipeline (R111, R112) -/

/-- Stores whose mclk has ended reach memory. -/
def ChainRun.commit (v : ChainRun) (mclk : Nat) : ChainRun :=
  { v with s := (v.writes.filter (fun w => decide (w.1 < mclk))).foldl (fun s w => s.store w.2) v.s,
           writes := v.writes.filter (fun w => decide (mclk ≤ w.1)) }

/-- Stages from which a STORE is reached without the COMPRESS (R132). -/
def vBypass (b : List Byte) : List Nat :=
  let c := vCompress b
  (List.range (vStages b)).reverse.foldl (fun l e =>
    let x := vEntry b e
    if xKind x = 8 ∨ (l.contains e ∧ some e ≠ c) then (xDeps b x).filter (fun d => some d != c) ++ e :: l else l) []

/-- Stage e takes its beat of slot j in mclk `mclk` (counted from the first slot's entry). -/
def ChainRun.stage (v : ChainRun) (s0 : State) (env : ChainEnv) (b : List Byte) (below : List Nat)
    (total depth e j mclk : Nat) : ChainRun :=
  let x := vEntry b e
  let stop := j * vII b + depth - 1
  if env.slots ≤ j ∧ !below.contains e then
    { v with outs := Tbl.put v.outs (j * 16 + e) (List.replicate env.w none) }
  else match xKind x with
    | 1 => v.load env b e j mclk
    | 5 => v.mask s0 env b e j mclk stop (below.contains e)
    | 6 => if xOp x = 0 then v.compress s0 env b e j else v.expand s0 env b e j mclk
    | 7 => v.red s0 env b e j total (below.contains e)
    | 8 => v.store s0 env b e j stop
    | _ => v.compute s0 env b e j

/-- The slot of which stage e takes its beat in mclk `mclk`, if it takes one. -/
def slotIn (b : List Byte) (ds : List Nat) (total e mclk : Nat) : Option Nat :=
  let t0 := ds.getD e 0 - xLatency (v16 b) (xKind (vEntry b e))
  if t0 ≤ mclk ∧ (mclk - t0) % vII b = 0 ∧ (mclk - t0) / vII b < total then some ((mclk - t0) / vII b) else none

/-- Mclks in which `n` rounds of grants in entry order leave a stage without its banks; each stage's words that share a
bank take one round apiece (R138, R141). -/
def grantRounds (bank : Nat → Nat) : Nat → List (List Nat) → Nat
  | 0, _ => 0
  | n + 1, as =>
    let (_, left) := as.foldl (fun (taken, left) ws =>
      let bs := ws.map bank
      if bs.any taken.contains then (taken, left ++ [ws]) else (taken ++ bs, left)) (([] : List Nat), ([] : List (List Nat)))
    if left.isEmpty then 0 else 1 + grantRounds bank n left

/-- The words of one access, split so that no part claims a bank twice. -/
def splitWords (bank : Nat → Nat) (ws : List Nat) : List (List Nat) :=
  let rank (i : Nat) : Nat := ((ws.take i).filter (fun u => bank u == bank (ws.getD i 0))).length
  let most := (List.range ws.length).foldl (fun m i => max m (rank i)) 0
  (List.range (most + 1)).map (fun r => (List.range ws.length).filterMap (fun i => if rank i = r then ws[i]? else none))

/-- Count the conflicts of mclk `mclk` and of those before it. -/
def ChainRun.settleBanks (v : ChainRun) (env : ChainEnv) (mclk : Nat) : ChainRun :=
  let due := v.access.filter (fun a => decide (a.1 ≤ mclk))
  let ms := (due.map Prod.fst).eraseDups
  let lost := ms.foldl (fun n m =>
    let as := ((List.range 12).map (fun e => (due.filter (fun a => a.1 == m && a.2.1 == e)).reverse.map (fun a => a.2.2))).flatten
    n + grantRounds env.bank 64 ((as.map (splitWords env.bank)).flatten)) 0
  { v with access := v.access.filter (fun a => decide (mclk < a.1)), conflicts := v.conflicts + lost }

/-- One mclk of the chain. -/
def ChainRun.cycle (v : ChainRun) (s0 : State) (env : ChainEnv) (b : List Byte) (below ds : List Nat) (total : Nat) :
    ChainRun :=
  let mclk := v.mclk
  let v := v.commit mclk
  let v := (List.range (vStages b)).foldl (fun v e =>
    match slotIn b ds total e mclk with
    | some j => v.stage s0 env b below total (ds.getD e 0) e j mclk
    | none => v) v
  -- beats older than the deepest stage are spent
  let old := (mclk - ds.foldl max 0) / vII b
  let v := { v with mclk := mclk + 1, outs := Tbl.keep (fun k => decide (old ≤ k / 16 + 1)) v.outs,
                    index := Tbl.keep (fun k => decide (old ≤ k + 1)) v.index,
                    snaps := Tbl.keep (fun k => decide (old ≤ k + 1)) v.snaps }
  v.settleBanks env mclk

/-- Slots of an invocation, a COMPRESS's flush slot included, and mclks from the first slot's entry to the last store. -/
def vTotal (env : ChainEnv) (b : List Byte) : Nat := env.slots + (if (vCompress b).isSome then 1 else 0)
def vSpan (env : ChainEnv) (b : List Byte) : Nat :=
  if env.slots = 0 then 0 else (vTotal env b - 1) * vII b + (vDepths b).foldl max 0 + 1

/-- The counts of an invocation that has ended: those of discarded elements are withdrawn (R132). -/
def ChainRun.counted (v : ChainRun) (b : List Byte) : Health :=
  let by' := vBypass b
  v.defer.foldl (fun h (e, el, d) => if by'.contains e || !v.gone.contains el then h.add d else h) v.health

/-- Every store has reached memory. -/
def ChainRun.flush (v : ChainRun) (env : ChainEnv) (b : List Byte) : ChainRun :=
  ({ (v.commit (vSpan env b + 1)) with health := v.counted b }).settleBanks env (vSpan env b + 1)

/-- Run a chain that no stream can hold to its end; `fed`: the beats of its one slot. -/
def runChain (s : State) (env : ChainEnv) (b : List Byte) (fed : Tbl (List Beat) := []) : ChainRun :=
  let ds := vDepths b
  ((List.range (vSpan env b)).foldl (fun v _ => v.cycle s env b (vBelow b) ds (vTotal env b)) ({ s := s, fed := fed } : ChainRun)).flush env b

/-! ### The invocation (R112, R129, R131) -/

/-- An engine: a tile's vector engine, or update engine `tile − 1152`. -/
def isUe (t : Nat) : Bool := decide (1152 ≤ t)
def State.vec (s : State) (t : Nat) : Vec := if isUe t then (s.stack (t - 1152)).vec else (s.tile t).ve
def State.modVec (s : State) (t : Nat) (f : Vec → Vec) : State :=
  if isUe t then s.modStack (t - 1152) (fun x => { x with vec := f x.vec })
  else s.modTile t (fun x => { x with ve := f x.ve })
def engVec (t : Nat) : Nat := if isUe t then engUe (t - 1152) else engTile t 6

/-- A stall, or busy mclks, of an engine. -/
def State.vecCount (s : State) (i : Issuer) (t c n : Nat) : State := s.count (s.bankOf i.q) (engVec t) c n

/-- LUT stages copy their tables (R133): a table of 784 bytes for CUSTOM, 768 otherwise. -/
def State.copyTables (s : State) (t : Nat) (cache : Nat → Option Nat) (b : List Byte) : State :=
  let luts := (List.range (vStages b)).filter (fun e => xKind (vEntry b e) == 3)
  ((List.range luts.length).zip luts).foldl (fun s (i, e) =>
    let x := vEntry b e
    if xCopies x then
      let n := if xOp x = 9 then 784 else 768
      let tab := leNat ((List.range n).map (fun o => (s.rdByte cache (xOc x + o)).1))
      s.modVec t (fun v => if i = 0 then { v with lut0 := tab } else { v with lut1 := tab })
    else s) s

/-- Bank of a word of a tile: 0 to 15 of the operand cache (R137), 16 on of the tile store, whose words are numbered from
65,536 here (R263). -/
def cacheOrStore (w : Nat) : Nat := if w < 65536 then w % 16 else 16 + (w - 65536) % 32

/-- The environment of an engine's invocation in its own spaces; entries that `o.hbm` sets up reach their stack (R140). -/
def State.chainEnv (s : State) (o : OpRef) (i : Issuer) (b r : List Byte) (w : Nat) : ChainEnv :=
  let ue := isUe o.tile
  let roles := if ue then 0 else (s.tile o.tile).roles
  let v := s.vec o.tile
  let bound (e : Nat) : Option Nat := if ue then Tbl.find o.hbm e else none
  let space (sp off : Nat) : Option Nat :=
    if ue then ueKey (o.tile - 1152) (sp == 1) off else s.tileKey o.tile roles (sp == 1) off
  let shift (sp : Nat) : Int := if sp = 1 ∨ ue then 0 else o.addr
  let order (e : Nat) : Nat :=
    ((List.range e).filter (fun k => xKind (vEntry b k) == 1 || xKind (vEntry b k) == 8)).length
  let step (x i1 i2 i3 : Nat) : Int :=
    (i1 : Int) * xStride x 1 + (i2 : Int) * xStride x 2 + (i3 : Int) * xStride x 3
  let cap := if rPop r then min v.popcnt.toNat (rLen r 0) else rLen r 0
  let run := if o.entry.isNone then cap else rLen r 0
  let beats := ceilDiv run w
  { w := w,
    key := fun e off => if (bound e).isSome then some ((o.tile - 1152) * 2 ^ 36 + off) else space (xSpace (vEntry b e)) off,
    scaleKey := fun e off => space (if xSpace (vEntry b e) = 1 then 1 else 0) off,
    cacheKey := fun off => space 1 off,
    row := fun e i1 i2 i3 =>
      let x := vEntry b e
      (match bound e with | some a => (a : Int) | none => (xBase x : Int) + shift (xSpace x)) + step x i1 i2 i3,
    scaleRow := fun e i1 i2 i3 =>
      let x := vEntry b e
      (vScale b (order e) : Int) + shift (xSpace x) + step x i1 i2 i3 / ((xStored x).blockBytes : Int),
    logical := fun i0 i1 i2 i3 =>
      (vHead b 48 48 + o.logical + i0 + i1 * vHead b 96 48 + i2 * vHead b 144 48 + i3 * vHead b 192 48) % 2 ^ 48,
    stream := fun e => xSpace (vEntry b e) == 2 && (bound e).isNone,
    bank := if ue then (· % 64) else cacheOrStore,
    word := fun sp off =>
      if ue then (if sp = 1 then some ((2 ^ 23 - 131072 + off) / 64) else if sp = 0 then some (off / 64) else none)
      else if sp = 1 then some (off / 64) else if sp = 0 then some (65536 + tsWord off) else none,
    seed := s.seedOf i, step := o.step, seq := o.seq,
    lut0 := v.lut0, lut1 := v.lut1,
    len0 := cap, slots := beats * vIter b r 1 * vIter b r 2 * vIter b r 3, beats := beats,
    n1 := vIter b r 1, n2 := vIter b r 2 }

/-- Lanes of a beat (R109, R140). -/
def vWidth (t : Nat) (b : List Byte) : Nat := (if isUe t then 256 else 64) * (if v16 b then 2 else 1)

/-- Stream beats of one slot of an entry. -/
def slotBeatsOf (w x : Nat) : Nat := ceilDiv (w * (xStored x).elemBits) 512
def xStream (x : Nat) : Nat := xBase x % 65536

/-- The stream LOADs of a chain. -/
def streamLoads (env : ChainEnv) (b : List Byte) : List Nat :=
  (List.range (vStages b)).filter (fun e => xKind (vEntry b e) == 1 && env.stream e)

/-- The entry that holds the chain in its next mclk and the count of the hold (R113): a LOAD whose stream lacks the slot's
beats, a STORE whose stream's source buffer cannot take them; the lowest-numbered entry that holds. -/
def ChainRun.holds (v : ChainRun) (t : Nat) (env : ChainEnv) (b : List Byte) (ds : List Nat) : Option (Nat × Nat) :=
  (List.range (vStages b)).findSome? (fun e =>
    let x := vEntry b e
    let n := slotBeatsOf env.w x
    if !env.stream e || isUe t then none
    else match slotIn b ds (vTotal env b) e v.mclk with
      | none => none
      | some j =>
        if xKind x = 1 then
          (if j < env.slots ∧ ((v.s.tile t).queue (xStream x) (v.s.loadDest t (xStream x))).beats.length < n then some (e, 1) else none)
        else if v.s.sourceFull t (xStream x) n then some (e, v.s.holdCause t (xStream x))
        else none)

/-- Beats whose operands the spec sets up nowhere: free values (R140). -/
def State.freeBeats (s : State) (n : Nat) : List Beat × State :=
  ((List.range n).map (fun i =>
    { lanes := (List.range 16).map (fun l => (Config.free (s.freeN + 16 * i + l)).toNat % 2 ^ 32), mask := 0, poison := false }),
   { s with freeN := s.freeN + 16 * n })

/-- The stream LOADs that take a slot in the next mclk take its beats; a packed LOAD keeps those of earlier slots. -/
def ChainRun.feed (v : ChainRun) (t : Nat) (env : ChainEnv) (b : List Byte) (ds : List Nat) : ChainRun :=
  (streamLoads env b).foldl (fun v e =>
    let x := vEntry b e
    let n := slotBeatsOf env.w x
    match slotIn b ds (vTotal env b) e v.mclk with
    | none => v
    | some j =>
      if env.slots ≤ j then v
      else
        let (bs, s) := if isUe t then v.s.freeBeats n else v.s.takeBeats t (xStream x) (v.s.loadDest t (xStream x)) n
        { v with s := s, fed := Tbl.put v.fed e ((if xPacked x then Tbl.get [] v.fed e else []) ++ bs) }) v

/-- Beats for a stream enter its source buffer. An update engine's have no destination but what `hbm` sets up. -/
def ChainRun.deliver (v : ChainRun) (t : Nat) (b : List Byte) : ChainRun :=
  if isUe t then { v with out := [] }
  else { v with s := v.out.foldl (fun s (e, bs) => s.sourceBeats t 6 (xStream (vEntry b e)) bs) v.s, out := [] }

/-- Up to `n` mclk of an invocation on engine t; with the hold that stops it. -/
def ChainRun.go (s0 : State) (t : Nat) (env : ChainEnv) (b : List Byte) (ds : List Nat) :
    Nat → ChainRun → ChainRun × Option Nat
  | 0, v => (v, none)
  | n + 1, v =>
    match v.holds t env b ds with
    | some (_, c) => (v, some c)
    | none => ChainRun.go s0 t env b ds n
        (((v.feed t env b ds).cycle s0 env b (vBelow b) ds (vTotal env b)).deliver t b)

/-- Mclks of an invocation that count as busy when it has come to mclk `m` of its chain. -/
def busySoFar (env : ChainEnv) (b : List Byte) (m : Nat) : Nat := min (vLength b env.slots) (vSetup b + m)

/-- An invocation goes on from `g`; its counts, and its end or the hold that keeps it (R112, R113). -/
def State.invokeOn (s : State) (g : VRun) (i : Issuer) (b : List Byte) (env : ChainEnv) : State :=
  let t := g.op.tile
  let due := g.start + vSetup b + g.prog.mclk + g.prog.conflicts + g.prog.held
  let late := if g.prog.mclk = 0 then 0 else s.mclk - due
  let s := if late = 0 then s else s.vecCount i t g.cause late
  let p : VProg := { g.prog with held := g.prog.held + late }
  let (v, hold) := ChainRun.go s t env b (vDepths b) (vSpan env b - p.mclk) { p with s := s }
  match hold with
  | some c =>
    let s := (v.s.vecCount i t 0 (busySoFar env b v.mclk - (if p.mclk = 0 then 0 else busySoFar env b p.mclk))).vecCount i t 1
      (v.conflicts - p.conflicts)
    let s := s.modVec t (fun x => { x with
      run := some { g with prog := v.toVProg, cause := c },
      busyUntil := g.start + vLength b env.slots + v.conflicts + v.held })
    let s := if v.mclk = p.mclk then s
      else (s.moved g.op.id t 6).movesTo g.op.id (g.start + vSetup b + v.mclk + v.conflicts + v.held)
    -- a LOAD of a join waits at its input (R188)
    if c = 1 ∧ 1 < (streamLoads env b).length then
      match v.holds t env b (vDepths b) with
      | some (e, _) => s.waitAt g.op.id t 6 (xStream (vEntry b e))
      | none => s
    else s
  | none =>
    let v := v.flush env b
    let s := v.s.health (s.bankOf i.q) v.health
    let s := s.modVec t (fun x =>
      { x with run := none, busyUntil := g.start + vLength b env.slots + v.conflicts + v.held,
               popcnt := if (vCompress b).isSome then BitVec.ofNat 32 v.kept else x.popcnt })
    let s := match v.taint with
      | some (k, x) => s.tracePoison (if isUe t then srcUe (t - 1152) else srcTile t) (if isUe t then 0 else 6) k x
      | none => s
    let s := if v.poisoned then s.poisonOn i.q i.owner (if isUe t then t - 1152 else s.localTile t) else s
    let s := (s.vecCount i t 0 (vLength b env.slots - (if p.mclk = 0 then 0 else busySoFar env b p.mclk))).vecCount i t 1
      (v.conflicts - p.conflicts)
    s.movesTo g.op.id (g.start + vLength b env.slots + v.conflicts + v.held)

/-- An invocation begins in the mclk after the one before has ended, and runs whole unless a stream holds it; one that is
held goes on (R112, R113). Its LUT stages copy their tables at setup. -/
def State.invoke (s : State) (o : OpRef) (i : Issuer) (b r : List Byte) : State :=
  let w := vWidth o.tile b
  if (s.vec o.tile).run.isSome then s
  else
    let s := s.untilMclk (s.vec o.tile).busyUntil
    let s := (s.copyTables o.tile (s.chainEnv o i b r w).cacheKey b).issueEntry o 6
    s.invokeOn { op := o, start := s.mclk, prog := {} } i b (s.chainEnv o i b r w)

/-- An invocation that a stream holds goes on. -/
def State.invokeMore (s : State) (g : VRun) (i : Issuer) : State :=
  let b := slice g.op.desc 0 256
  s.invokeOn g i b (s.chainEnv g.op i b (slice g.op.record 0 16) (vWidth g.op.tile b))

/-- The row: the chain comes from a frond's entry, or outright; a chain that R110 refuses never runs. -/
def State.invocation (s : State) (w : WorkRef) : State :=
  match ((s.vec (refTile w)).run).filter (fun g => refNames w g.op) with
  | some g => match s.goesOn g.op.id with | some i => s.invokeMore g i | none => s
  | none =>
    match s.resolve w 1 with
    | none => s
    | some (o, _) =>
      match s.issuer o.id with
      | none => s
      | some i =>
        let b := slice o.desc 0 256
        let r := slice o.record 0 16
        if !i.live || (chainBadAt b (isUe o.tile)).isSome || (recordBad b r).isSome then s else s.invoke o i b r

end Sys2Proof.Machine
end

