-- ==== Sys2Proof/Machine/Streams.lean ====
section
/-!
DEFINITION. Streams in motion (07 R172, R173, R179 to R183, R187): a beat leaves its source, a credit returns, a SWITCH
or MERGE handles an item.
-/
namespace Sys2Proof.Machine

/-- The run that executes on a tile. -/
def State.runOn (s : State) (t : Nat) : Option Run := s.work.runs.find? (fun r => r.start.isSome && r.tiles.contains t)

/-- Nothing of a held run moves (R165). -/
def State.movable (s : State) (t : Nat) : Option Run := (s.runOn t).filter (fun r => r.hold.isNone)

/-- SLOTS of a stream's source entry (R157). -/
def State.srcSlots (s : State) (t st : Nat) : Nat :=
  (((nodeEntries (s.tile t).active).find? (fun x => nStream x == st && nIn x == 0)).map nSlots).getD 0

/-- The first nclk from now whose slot the stream owns and no beat of it has taken, counted from the first memory frame of F3
(R157). -/
def State.nextSlotAt (s : State) (t st : Nat) : Option Nat :=
  let now := ceilDiv (s.clk.root - s.clk.frameOrigin.getD 0) 3
  let k := max now (s.source t st).slotAt
  ((List.range 16).find? (fun i => bit (s.srcSlots t st) ((k + i) % 16))).map (fun i => k + i)

/-- The timed input that feeds a stream of a tile (R144, R165). -/
def State.timedOf (s : State) (t st : Nat) : Option TimedIn :=
  let b := (s.tile t).active
  (((List.range 64).filter (fun i => fld b (0x3B00 + 8 * i) 8 != 0)).map (s.timedIn b)).find? (fun x => x.stream == st)

/-- The next beat of a source: from its buffer; of a timed input, the 64 bytes that its frame-slot binding reads, or a
segment or host data that the spec leaves open: a free value (log 84). -/
def State.nextBeat (s : State) (p t st : Nat) : Option (Beat × State) :=
  let c := s.source t st
  let s' := s.modSource t st (fun c => { c with buf := c.buf.drop 1, sent := c.sent + 1 })
  match c.buf with
  | b :: _ => some (b, s')
  | [] =>
    match s.timedOf t st with
    | none => none
    | some x =>
      if x.cls = 3 then
        let a := (Config.boundAddr x.binding).toNat + 64 * c.sent
        let bs := s.rdAt p a 64
        some ({ lanes := (List.range 16).map (fun l => fld bs (4 * l) 4), mask := 0, poison := s.markAt p a 64 }, s')
      else
        let (bs, s'') := s'.freeBeats 1
        some (bs.headD nullBeat, s'')

/-- The unit whose beats lie in the buffer is at work in the present mclk. -/
def State.unitBusy (s : State) (t unit : Nat) : Bool :=
  let x := s.tile t
  if unit = 6 then x.ve.run.isSome || decide (s.mclk < x.ve.busyUntil)
  else
    let a := x.arr (unit - 4)
    a.drain.isSome || decide (s.mclk < a.drainUntil)

/-- A source holds beats for want of a credit: its unit counts the mclk, unless it is at work or has counted it (R173, R186). -/
def State.sourceHeld (s : State) (r : Run) (t st : Nat) : State :=
  let c := s.source t st
  let m := s.mclk + 1
  if c.buf.isEmpty || s.unitBusy t c.unit || (s.tile t).srcs.any (fun (_, x) => x.unit == c.unit && x.heldAt == m) then s
  else (s.modSource t st (fun c => { c with heldAt := m })).count (s.bankOf r.q) (engTile t c.unit) (s.holdCause t st) 1

/-- Steering queues of a tile that hold tokens without an item, or data without a token, wait (R188). -/
def State.steerWaits (s : State) (id t : Nat) : State :=
  (List.range 4).foldl (fun s u =>
    let x := steerEntry (s.tile t).active u
    let y := s.steer t u
    let ways := if sKind x = 1 then [sData x] else (List.range (sWays x)).map (sWay x)
    let full (w : Nat) : Bool := decide (sBeats x ≤ (y.data w).length)
    let idx := List.range ways.length
    if sKind x = 0 then s
    else if y.tokens.isEmpty then
      (if idx.any (fun w => !(y.data w).isEmpty) then s.waitAt id t (8 + u) (sToken x) else s)
    else match idx.find? (fun w => !full w) with
      | some w => s.waitAt id t (8 + u) (ways.getD w 0)
      | none => s) s

/-- A source's next beat goes to every destination at once in the stream's next slot, or waits for the missing credit
(R157, R172). -/
def State.sendBeat (s : State) (t st : Nat) : State :=
  match s.movable t, s.nextSlotAt t st with
  | some r, some k =>
    match s.nextBeat r.part t st with
    | none => s
    | some (b, s') =>
      let ds := s.destsOf t st
      let s' := s'.untilRoot (s.clk.frameOrigin.getD 0 + 3 * k)
      if ds.isEmpty || !(ds.all (fun d => s'.roomAt t st d 1 (beatTokens b).length)) then
        (s.untilRoot (s.clk.frameOrigin.getD 0 + 3 * k)).sourceHeld r t st
      else
        let s := s'.modSource t st (fun c => { c with slotAt := k + 1 })
        let s := (ds.foldl (fun s d => s.land t st d b) s).onRun r.id (fun x => { x with noProg := 0 })
        ds.foldl (fun s d => s.steerWaits r.id d) s
  | _, _ => s

def execStreamBeat (tile stream : Nat) (s : State) : Host.Outcome State Fault Refusal :=
  .next (s.unlessHalted (fun s => s.sendBeat tile stream))

/-- A credit on its way back from a destination reaches the source (R172). -/
def State.creditBack (s : State) (t st dest : Nat) : State :=
  match s.movable t, takeFirst (fun d => d / 8 == dest) (s.source t st).returning with
  | some r, some (k, rest) =>
    let s := s.modSource t st (fun c =>
      { c with returning := rest, spent := Tbl.set 0 c.spent k (Tbl.get 0 c.spent k - 1) })
    s.onRun r.id (fun x => { x with noProg := 0 })
  | _, _ => s

def execCreditReturn (tile stream dest : Nat) (s : State) : Host.Outcome State Fault Refusal :=
  .next (s.unlessHalted (fun s => s.creditBack tile stream dest))

/-! ### Steering units -/

/-- Every destination of an output stream of the unit takes the whole item. -/
def State.itemRoom (s : State) (t st n tokens : Nat) : Bool :=
  let ds := s.destsOf t st
  !ds.isEmpty && ds.all (fun d => s.roomAt t st d n tokens)

/-- Send the beats of an item to every destination of an output. -/
def State.sendItem (s : State) (t st : Nat) (bs : List Beat) : State :=
  bs.foldl (fun s b => (s.destsOf t st).foldl (fun s d => s.land t st d b) s) s

def itemTokens (bs : List Beat) : Nat := bs.foldl (fun n b => n + (beatTokens b).length) 0

/-- The unit moves: its waits end, and those of what it leaves in its queues begin (R188). -/
def State.steered (s : State) (r : Run) (t u : Nat) : State := (s.moved r.id t (8 + u)).steerWaits r.id t

/-- A SWITCH (R180, R183): a poisoned token sends its item, marked, to every output. -/
def State.switchItem (s : State) (t u : Nat) : State :=
  let x := steerEntry (s.tile t).active u
  let st := s.steer t u
  let n := sBeats x
  match s.movable t, st.tokens with
  | some r, (v, poison) :: rest =>
    if sKind x ≠ 1 then s
    else if st.data0.length < n then s.waitAt r.id t (8 + u) (sData x)
    else
      let item := (st.data0.take n).map (fun b => if poison then { b with poison := true } else b)
      let out (w : Nat) : List Beat := if poison || w == v then item else List.replicate n nullBeat
      let ways := List.range (sWays x)
      if !(ways.all (fun w => s.itemRoom t (sWay x w) n (itemTokens (out w)))) then s.waitAt r.id t (8 + u) (sData x)
      else
        let s := s.modSteer t u (fun y => { y with tokens := rest, data0 := y.data0.drop n })
        let s := ways.foldl (fun s w => s.sendItem t (sWay x w) (out w)) s
        s.steered r t u
  | _, _ => s

def execSwitchItem (tile unit : Nat) (s : State) : Host.Outcome State Fault Refusal :=
  .next (s.unlessHalted (fun s => s.switchItem tile unit))

/-- A MERGE (R181, R183): every input's item is consumed; a poisoned token sends input 0's, marked. -/
def State.mergeItem (s : State) (t u : Nat) : State :=
  let x := steerEntry (s.tile t).active u
  let st := s.steer t u
  let n := sBeats x
  let ways := List.range (sWays x)
  match s.movable t, st.tokens with
  | some r, (v, poison) :: rest =>
    if sKind x ≠ 2 then s
    else match ways.find? (fun w => decide ((st.data w).length < n)) with
      | some w => s.waitAt r.id t (8 + u) (sWay x w)
      | none =>
        let item := if poison then ((st.data 0).take n).map (fun b => { b with poison := true })
          else if v < sWays x then (st.data v).take n else List.replicate n nullBeat
        if !(s.itemRoom t (sData x) n (itemTokens item)) then s.waitAt r.id t (8 + u) (sData x)
        else
          let s := s.modSteer t u (fun y => ways.foldl (fun y w => y.setData w ((y.data w).drop n)) { y with tokens := rest })
          (s.sendItem t (sData x) item).steered r t u
  | _, _ => s

def execMergeItem (tile unit : Nat) (s : State) : Host.Outcome State Fault Refusal :=
  .next (s.unlessHalted (fun s => s.mergeItem tile unit))

end Sys2Proof.Machine
end

