-- ==== Sys2Proof/Machine/Ends.lean ====
section
/-!
DEFINITION. Early ends of runs (06 R154; 07 R187 to R189; 12 R297; 15 R383): the no-progress limit, a silent peer, an
uncorrectable error in a context; work already issued completes.
-/
namespace Sys2Proof.Machine

/-- The rest of a drain or FILL that a stream holds: its beats are dropped with the stream's (R188). -/
def State.drainOut (s : State) (t a : Nat) (d : DrainRun) (i : Issuer) : State :=
  let s := (List.range (dRows d.op.desc - d.row)).foldl (fun s k => s.drainStep d.op i d.roles (d.row + k)) s
  s.modArr t a (fun x => { x with drain := none })

/-- The rest of an invocation that a stream holds: beats for streams are dropped; where a LOAD's beats are gone the elements
already read complete (DESIGN CHOICE, log 85). -/
def ChainRun.runOut (t : Nat) (env : ChainEnv) (b : List Byte) (ds : List Nat) : Nat → ChainRun → ChainRun
  | 0, v => v
  | n + 1, v =>
    match ChainRun.go v.s t env b ds (vSpan env b - v.mclk) v with
    | (v, none) => v
    | (v, some 1) => v
    | (v, some _) => ChainRun.runOut t env b ds n { v with s := v.s.modTile t (fun x => { x with srcs := [] }) }

def State.invokeOut (s : State) (g : VRun) (i : Issuer) : State :=
  let t := g.op.tile
  let b := slice g.op.desc 0 256
  let env := s.chainEnv g.op i b (slice g.op.record 0 16) (vWidth t b)
  let v := (ChainRun.runOut t env b (vDepths b) (vSpan env b + 1) { g.prog with s := s }).flush env b
  let s := v.s.health (s.bankOf i.q) v.health
  let s := s.modVec t (fun x =>
    { x with run := none, popcnt := if (vCompress b).isSome then BitVec.ofNat 32 v.kept else x.popcnt })
  if v.poisoned then s.poisonOn i.q i.owner (s.localTile t) else s

/-- Work of the run that streams hold part way on a tile completes. -/
def State.completeHeld (s : State) (id : Nat) (i : Issuer) (t : Nat) : State :=
  let s := [0, 1].foldl (fun s a =>
    match (((s.tile t).arr a).drain).filter (fun d => d.op.id == id) with
    | some d => s.drainOut t a d i
    | none => s) s
  match ((s.tile t).ve.run).filter (fun g => g.op.id == id) with
  | some g => s.invokeOut g i
  | none => s

/-- Every unit of the run stops issuing now: held mclk up to the stop are slip, work already issued completes, queues are
emptied (R188, R297). -/
def State.abandonRun (s : State) (r : Run) (e : Earned) : State :=
  let s := match r.hold with
    | some h => s.addSlip r h.cause (s.mclk - h.since)
    | none => s
  let s := s.emptyQueues r.tiles true
  let s : State := match s.issuer r.id with
    | some i => r.tiles.foldl (fun (s : State) t => s.completeHeld r.id i t) s
    | none => s
  let s := s.emptyQueues r.tiles true
  match s.run r.id with
  | some r => s.leaveRun r s.mclk [e]
  | none => s

/-- The no-progress counter reaches the limit (R188). -/
def State.joinStarve (s : State) (r : Run) : State :=
  if r.start.isNone || r.hold.isSome then s
  else
    let s := s.untilMclk (s.starveAt r)
    s.abandonRun r ⟨stStarve, r.starvePoint s, 0⟩

def execJoinStarve (id : Nat) (s : State) : Host.Outcome State Fault Refusal :=
  .next (s.unlessHalted (fun s => match s.run id with | some r => s.joinStarve r | none => s))

/-- The collective that a synchronisation binding of a run waits for: the KV_RING that posts its object (R377). -/
def State.boundColl (s : State) (r : Run) (i : Nat) : Option Coll :=
  let obj := (s.syncBind ((s.tile (r.tiles.headD 0)).ctx r.plane.slot).bytes i).1
  s.work.colls.find? (fun c => c.part == r.part && c.op == 0x52 && c.started && (s.kvPair c 0).swapSync.toNat == obj)

/-- The node named (R383): the member that the bound collective has awaited longest (DESIGN CHOICE, log 95), or the
module's own. -/
def State.silentPeer (s : State) (r : Run) (i : Nat) : Nat :=
  let own := (s.part r.part).node.toNat
  match s.boundColl r i with
  | none => own
  | some c => (c.timers.foldl (fun (a : Option (Nat × Nat)) (m, t) =>
      match a with | some (_, u) => if t < u then some (m, t) else a | none => some (m, t)) none).elim own (fun x => c.node x.1)

/-- A run held on an input of class PEER for COLL_TIMEOUT ends PEER_TIMEOUT (R383). -/
def State.peerTimeout (s : State) (r : Run) : State :=
  match r.hold with
  | none => s
  | some h =>
    if h.cls ≠ 0 then s
    else
      let s := s.untilLive (h.live + usRoot s.mod.collTimeout.toNat)
      s.abandonRun r ⟨stPeerTimeout, s.silentPeer r h.input, 0⟩

def execPeerInputTimeout (id : Nat) (s : State) : Host.Outcome State Fault Refusal :=
  .next (s.unlessFrozen (fun s => match s.run id with | some r => s.peerTimeout r | none => s))

/-- A unit of a tile reads a context word with an uncorrectable ECC error: the run ends, the damaged context becomes EMPTY
(R154). -/
def State.contextError (s : State) (id t : Nat) : State :=
  match s.run id with
  | none => s
  | some r =>
    if !r.live || !r.tiles.contains t then s
    else (s.abandonRun r ⟨stPoison, s.localTile t, 1⟩).modCtx t r.plane.slot (fun _ => {})

end Sys2Proof.Machine
end

