-- ==== Sys2Proof/Machine/Fronds.lean ====
section
/-!
DEFINITION. Loading fronds (06 R142 to R151, R158; 07 R171, R176 to R178, R185): the image, the load checks, LOAD_FROND and
the context loaders.
-/
namespace Sys2Proof.Machine

/-! ### The image (R142, R143) -/

def iPlanes (h : List Byte) : Nat := fld h 12 1
/-- Local tiles of TILE_MAP, ascending. -/
def iTiles (h : List Byte) : List Nat := (List.range 1152).filter (fun t => bit (fld h (64 + t / 144 * 18) 18) (t % 144))
def iDigest (h : List Byte) : Nat := fld h 4 4

/-- The image's block table as the state holds it: entry of plane p and the i-th tile. -/
def State.blockEntry (s : State) (p image tiles pl i : Nat) : Nat := leNat (s.rdAt p (image + 256 + 4 * (pl * tiles + i)) 4)

/-- Offset of a block in the image, and its length. -/
def State.blockAt (s : State) (p image planes tiles pl i : Nat) : Nat × Nat :=
  let start := roundUp (256 + 4 * planes * tiles) 256
  let before := (List.range (pl * tiles + i)).foldl (fun a k => a + 256 * (s.blockEntry p image tiles 0 k % 128)) 0
  (start + before, 256 * (s.blockEntry p image tiles pl i % 128))

/-- Bytes of the whole image. -/
def State.imageLen (s : State) (p image planes tiles : Nat) : Nat :=
  (s.blockAt p image planes tiles planes 0).1

/-- The first failing byte of the image header (R143, R4). -/
def State.headerBad (s : State) (p image : Nat) (h : List Byte) (planes : List Nat) : Option Nat :=
  let fields := [(0, 2, 0xFFFF), (4, 4, 0xFFFFFFFF), (8, 4, 0xFFFFFFFF), (12, 4, 0xFFFFFFFF), (16, 4, 0xFFFFFFFF),
    (20, 16, 2 ^ 128 - 1), (64, 144, 2 ^ 1152 - 1)]
  let n := iPlanes h
  let ts := iTiles h
  let checks : List (Bool × Nat) :=
    [(fld h 0 2 != 1, 0), (n == 0 || decide (4 < n) || planes.any (fun q => decide (n ≤ q)), 12),
     (fld h 13 1 == 0 || decide (s.nDies < fld h 13 1), 13), (fld h 14 1 == 0 || decide (s.nStacks < fld h 14 1), 14),
     (decide ((s.portsOf p).length < fld h 15 1), 15), (fld h 16 2 != ts.length || ts.isEmpty, 16),
     (fld h 18 2 == 0, 18)] ++
    (List.range 4).map (fun q => (decide (n ≤ q) && fld h (20 + 4 * q) 4 != 0, 20 + 4 * q)) ++
    [(ts.any (fun t => decide (s.nDies ≤ t / 144) || !s.listed (s.physTile p t)), 64),
     (iDigest h != crc32c (h.take 4 ++ List.replicate 4 0 ++ h.drop 8), 4),
     (fld h 8 4 != s.imageLen p image n ts.length, 8)]
  match reservedAt fields h 256 with
  | some o => some o
  | none => (checks.find? (fun c => c.1)).map Prod.snd

/-! ### One context (R145, R146) -/

/-- Header of a context of plane `pl`. -/
def ctxHeaderBad (pl : Nat) (b : List Byte) : Option Nat :=
  let i := planeInfo 0 b
  match reservedAt [(0, 4, 0x7F), (4, 4, 2 ^ 32 - 1), (8, 4, 2 ^ 32 - 1), (12, 4, 2 ^ 32 - 1), (16, 4, 2 ^ 32 - 1)]
    (slice b 0 256) 256 with
  | some o => some o
  | none =>
    if i.plane ≠ pl then some 0
    else if !i.last && i.next == pl then some 0
    else if i.ii = 0 then some 8
    else if !i.last && i.endc != 0 then some 16
    else none

/-- Nesting depth of the REPEAT bodies around position `pos` of a list. -/
def repeatDepth (l : List (Nat × List Byte)) (pos : Nat) : Nat :=
  (((List.range pos).zip l).filter (fun (i, _, x) => eKind x == 2 && decide (pos ≤ i + eIndex x))).length

/-- Entries of a unit's table section an OP may name. -/
def opLimit (u : Nat) : Nat := if u < 2 then 64 else if u < 4 then 128 else if u < 7 then 32 else 0

/-- Reserved and unused fields of a schedule entry, of a list or beyond its END (R9, R146). -/
def entryReserved (x : List Byte) : Bool :=
  bit (fld x 0 1) 3 || fld x 10 2 != 0 || decide (5 < eKind x) || (eKind x != 2 && eCount x != 0)

/-- The entries of a context's schedules (R146): the offset of the first that fails. -/
def schedulesBad (b : List Byte) : Option Nat :=
  (((List.range (schedCount b)).find? (fun e => entryReserved (schedAt b e))).map (fun e => 0x1100 + 16 * e)).orElse (fun _ =>
  (List.range 8).findSome? (fun u =>
    let l := unitList b u
    let n := l.length
    let idle := l.all (fun (_, x) => eKind x == 0)
    ((List.range n).zip l).findSome? (fun (i, e, x) =>
      let k := eKind x
      let nested := k == 2 || k == 3
      let bad := (k == 2 && eCount x == 0) ||
        (k == 1 && (decide (opLimit u ≤ eIndex x) || u == 7)) ||
        ((k == 4 || k == 5) && u != 7) ||
        (nested && decide (n ≤ i + eIndex x + 1)) || (k == 3 && decide (0 < repeatDepth l i)) ||
        decide (4 < repeatDepth l i) ||
        (decide (i + 1 = n) && (k != 0 || (!idle && ((l.filter (fun (_, y) => eKind y == 3)).length != 1))))
      if bad then some (0x1100 + 16 * e) else none)))

/-- Entries of a section that the load checks: those present (R144: an entry of zeros is absent), and those that the
named units' lists use. -/
def entriesOf (b : List Byte) (base size count : Nat) (us : List Nat) : List Nat :=
  (List.range count).filter (fun i => fld b (base + size * i) size != 0 || us.any (fun u => (opsOf b u).contains i))

/-- Drain descriptors (R96), each on the array of the unit that names it, and those whose rows exceed the array
(R106). -/
def drainsBad (b : List Byte) : Option Nat :=
  (entriesOf b 0x1900 64 32 [4, 5]).findSome? (fun i =>
    let d := slice b (0x1900 + 64 * i) 64
    if drainBad d || [4, 5].any (fun u => (opsOf b u).contains i && decide (dArray d + 4 ≠ u)) then some (0x1900 + 64 * i)
    else none)
def State.drainsOver (s : State) (b : List Byte) : Option Nat :=
  (entriesOf b 0x1900 64 32 [4, 5]).findSome? (fun i =>
    let d := slice b (0x1900 + 64 * i) 64
    if drainOver (s.arrSetup b (dArray d)).shape d then some (0x1900 + 64 * i) else none)

/-! ### Array rules, through the layout of log 63 -/

/-- Iterations that the REPEAT bodies around position `i` of a list make together. -/
def repeatTimes (l : List (Nat × List Byte)) (i : Nat) : Nat :=
  ((List.range i).zip l).foldl (fun n (j, _, x) => if eKind x = 2 ∧ i ≤ j + eIndex x then n * eCount x else n) 1

def isBlockCode (c : Nat) : Bool := ((Fmt.ofCode c).map Fmt.isBlock).getD false

/-- Formats, shapes, passes and loads of an array that the context's lists use (R58, R59, R70, R72, R75, R89): the first
failing byte. -/
def State.arrayBad (s : State) (b : List Byte) (a : Nat) : Option Nat :=
  let ps := opsOf b a
  let ls := opsOf b (2 + a)
  let u := s.arrSetup b a
  if ps.isEmpty && ls.isEmpty then none
  else if (arrClass u.fmtA).isNone || arrClass u.fmtA != arrClass u.fmtB || arrClass u.fmtA != some u.cls then some (0x100 + 512 * a)
  else
    (ps.findSome? (fun i =>
      let c := s.passRec b i
      let q := s.pinSetup b a c.pn
      let bad := decide (shapePins u.shape ≤ c.pn) || c.rows == 0 || decide (1024 < c.rows) || c.mode == 3 || c.rnd == 3 ||
        c.kind == 3 || decide (shapeK u.shape < q.kUsed) || decide (shapeN u.shape < q.nUsed) ||
        (u.fmtA == 0x0F && c.rnd == 2) ||
        ((isBlockCode u.fmtA || isBlockCode u.fmtB) && c.kOffset % min 32 (shapeK u.shape) != 0) ||
        ((c.chainOut || c.mode == 2) && u.shape != 0)
      if bad then some (0x500 + 32 * i) else none)).orElse (fun _ =>
    ls.findSome? (fun i =>
      let l := s.loadRec b i
      let bad := decide (shapePins u.shape ≤ l.pn) || l.kind == 3 || decide (1 < l.part) ||
        (l.transpose && (u.shape == 1 || isBlockCode u.fmtB))
      if bad then some (0xD00 + 8 * i) else none))

/-- A pass whose rows, in any iteration, fall outside its pinnule's (R74, R106). -/
def State.passOver (s : State) (b : List Byte) (a : Nat) : Option Nat :=
  let l := unitList b a
  ((List.range l.length).zip l).findSome? (fun (k, _, x) =>
    if eKind x ≠ 1 then none
    else
      let c := s.passRec b (eIndex x)
      let (lo, n) := pinRows (s.arrSetup b a).shape c.pn
      let last := (c.base : Int) + c.rowStep * ((repeatTimes l k : Nat) - 1 : Int)
      let out (v : Int) : Bool := decide (v < lo) || decide ((lo + n : Int) < v + c.rows)
      if out c.base || out last then some (0x500 + 32 * eIndex x) else none)

/-- An array, tile × 2 + array, forwards or receives chain rows in the plane. -/
def State.chainUse (s : State) (ctx : Nat → List Byte) (x : Nat) (f : PassRec → Bool) : Bool :=
  let b := ctx (x / 2)
  (opsOf b (x % 2)).any (fun i => f (s.passRec b i))

/-- The array that the link of an array reaches (R91). -/
def State.chainTarget (s : State) (ctx : Nat → List Byte) (x : Nat) : Option Nat :=
  if x % 2 = 0 then some (x + 1)
  else
    let c := (s.arrSetup (ctx (x / 2)) 1).link
    if c = 0 ∨ 4 < c then none else ((across (x / 2) c).head?).map (fun t => t * 2)

/-- A chain from array `x` on leaves the frond, visits an array twice or has more than 16 arrays (R91). -/
def State.chainBroken (s : State) (ctx : Nat → List Byte) (inF : Nat → Bool) : Nat → List Nat → Nat → Bool
  | 0, _, _ => true
  | n + 1, seen, x =>
    if seen.contains x || !inF (x / 2) then true
    else if !(s.chainUse ctx x (fun c => c.chainOut)) then false
    else match s.chainTarget ctx x with
      | none => true
      | some y => s.chainBroken ctx inF n (x :: seen) y

/-- Chains through a tile's arrays (R91): an array that takes CHAIN_IN rows has one before it. -/
def State.chainsBroken (s : State) (ctx : Nat → List Byte) (tiles : List Nat) (t : Nat) : Option Nat :=
  [0, 1].findSome? (fun a =>
    let x := t * 2 + a
    let fed := tiles.any (fun u => [0, 1].any (fun c =>
      s.chainUse ctx (u * 2 + c) (fun p => p.chainOut) && s.chainTarget ctx (u * 2 + c) == some x))
    if s.chainBroken ctx tiles.contains 16 [] x || (s.chainUse ctx x (fun p => p.mode == 2) && !fed) then some (0x100 + 512 * a)
    else none)

/-- Chain descriptors, and the invocation records with the descriptors they name (R110, R118, R131). -/
def chainsBad (b : List Byte) : Option Nat :=
  let chain (d : Nat) : Option Nat := (chainBadAt (slice b (0x2100 + 256 * d) 256) false).map (fun o => 0x2100 + 256 * d + o)
  ((entriesOf b 0x2100 256 12 []).findSome? chain).orElse (fun _ =>
    (entriesOf b 0x2D00 16 32 [6]).findSome? (fun i =>
      let r := slice b (0x2D00 + 16 * i) 16
      let d := rDesc r
      if 11 < d then some (0x2D00 + 16 * i)
      else (chain d).orElse (fun _ => (recordBad (slice b (0x2100 + 256 * d) 256) r).map (fun o => 0x2D00 + 16 * i + o))))

/-- Steering entries (R177). -/
def steeringBad (b : List Byte) : Option Nat :=
  (List.range 4).findSome? (fun u =>
    let x := steerEntry b u
    let k := sKind x
    let bad :=
      if k = 0 then fld x 0 32 != 0
      else k == 3 || decide (sWays x < 2) || decide (4 < sWays x) || sBeats x == 0 || decide (64 < sBeats x) ||
        bits (fld x 0 2) 5 3 != 0 || bits (fld x 0 2) 15 1 != 0 || fld x 14 18 != 0 ||
        (decide (sWays x < 3) && sWay x 2 != 0) || (decide (sWays x < 4) && sWay x 3 != 0)
    if bad then some (0x3700 + 32 * u) else none)

/-- The queue allocation table (R171, R178) and the reserved rest of the section. -/
def queuesBad (b : List Byte) : Option Nat :=
  let all := (List.range 64).map (fun i => (i, fld b (0x3780 + 8 * i) 8))
  let used := all.filter (fun (_, x) => aDepth x != 0)
  match used.findSome? (fun (i, x) =>
    let clash := used.any (fun (j, y) => j != i && decide (aBase x < aBase y + aDepth y) && decide (aBase y < aBase x + aDepth x))
    if decide (aDepth x < 4) || decide (256 < aDepth x) || decide (7 < aDest x) || bits x 20 4 != 0 || bits x 41 7 != 0 ||
        decide (256 < aBase x + aDepth x) || clash then some (0x3780 + 8 * i) else none) with
  | some o => some o
  | none => if fld b 0x3980 384 ≠ 0 then some 0x3980 else if fld b 0x3F00 256 ≠ 0 then some 0x3F00 else none

/-- A queue of a context that overlaps one of the plane before it in the pool: the old queue may still hold beats at the
switch (R171). A queue that both contexts place alike is one queue (DESIGN CHOICE, log 52). -/
def queuesClash (b next : List Byte) : Option Nat :=
  ((List.range 64).map (fun i => (i, fld next (0x3780 + 8 * i) 8))).findSome? (fun (i, x) =>
    if aDepth x ≠ 0 ∧ (allocEntries b).any (fun y => decide (aBase x < aBase y + aDepth y) && decide (aBase y < aBase x + aDepth x) &&
        !(aStream x == aStream y && aDest x == aDest y && aBase x == aBase y && aDepth x == aDepth y)) then
      some (0x3780 + 8 * i) else none)

/-! ### Routes (R158, R185) -/

def rotate16 (m k : Nat) : Nat := ((m <<< k) ||| (m >>> (16 - k))) % 65536

/-- Hops and crossings from a stream's source to a destination tile, following the node tables. -/
def routeCost (ctx : Nat → List Byte) (st dest : Nat) : Nat → Nat → Nat → Option Nat
  | 0, _, _ => none
  | n + 1, t, arrived =>
    match (nodeEntries (ctx t)).find? (fun x => nStream x == st && nIn x == arrived) with
    | none => none
    | some x =>
      if t = dest ∧ bit (nOut x) 0 then some 0
      else ([1, 2, 3, 4, 5].filter (fun c => bit (nOut x) c)).findSome? (fun c =>
        (across t c).findSome? (fun u =>
          (routeCost ctx st dest n u (nOpposite c)).map (fun k => k + (if c = 5 then 30 else 1))))

/-- The tiles a stream visits from where it entered a tile: one for every entry followed. -/
def streamPath (ctx : Nat → List Byte) (ok : Nat → Bool) (st : Nat) : Nat → Nat → Nat → List Nat
  | 0, _, _ => []
  | n + 1, t, arrived =>
    match (nodeEntries (ctx t)).find? (fun x => nStream x == st && nIn x == arrived) with
    | none => []
    | some x => t :: (([1, 2, 3, 4, 5].filter (fun c => bit (nOut x) c)).map (fun c =>
        (((across t c).filter ok).map (fun u => streamPath ctx ok st n u (nOpposite c))).flatten)).flatten

/-- The entry of a stream on a tile is no part of a tree from one local source (R158): none or several sources, or a tile
that the tree from the source does not visit, or visits twice. -/
def noTree (ctx : Nat → List Byte) (ok : Nat → Bool) (tiles : List Nat) (st t : Nat) : Bool :=
  match tiles.filter (fun u => (nodeEntries (ctx u)).any (fun y => nStream y == st && nIn y == 0)) with
  | [u] => ((streamPath ctx ok st 1200 u 0).filter (fun v => v == t)).length != 1
  | _ => true

/-- Route checks of one tile's node table among the contexts of its plane: byte of the first failing entry. -/
def routesBad (ctx : Nat → List Byte) (tiles : List Nat) (t : Nat) : Option Nat :=
  let inPart (u : Nat) : Bool := tiles.contains u
  let b := ctx t
  let es := (List.range (min 256 ((b.length - 0x2F00) / 8))).map (fun i => (i, fld b (0x2F00 + 8 * i) 8))
  es.findSome? (fun (i, x) =>
    if nOut x = 0 then (if x = 0 then none else some (0x2F00 + 8 * i))
    else
      let outs := [0, 1, 2, 3, 4, 5].filter (fun c => bit (nOut x) c)
      let links := outs.filter (fun c => c != 0)
      let reserved := bits x 19 1 != 0 || bits x 26 6 != 0 || bits x 48 16 != 0 || decide (5 < nIn x)
      let clash := es.any (fun (j, y) => j != i &&
        ((nStream y == nStream x && nOut y != 0) || ((nOut y &&& nOut x &&& 62) != 0 && (nSlots y &&& nSlots x) != 0)))
      let downstream (c : Nat) : Bool :=
        let want := rotate16 (nSlots x) (if c = 5 then 14 else 1)
        (across t c).any (fun u => inPart u && (nodeEntries (ctx u)).any (fun y =>
          nStream y == nStream x && nIn y == nOpposite c && nSlots y == want))
      let upstream : Bool := nIn x == 0 || (across t (nIn x)).any (fun u => inPart u && (nodeEntries (ctx u)).any (fun y =>
          nStream y == nStream x && bit (nOut y) (nOpposite (nIn x))))
      let back := nIn x != 0 && bit (nOut x) (nIn x)
      let many := nIn x == 0 && decide (16 < (followStream ctx inPart (nStream x) 1200 t 0).length)
      if reserved || clash || !(links.all downstream) || !upstream || back || many || noTree ctx inPart tiles (nStream x) t then
        some (0x2F00 + 8 * i) else none)

/-- Join inputs shallower than their skew window and round trip (R185): 16 × (DEPTH − SKEW) must reach RT × slots. An input
is a join's where its queue has a SKEW_WINDOW or another queue feeds the same unit; one whose stream has no source fails. -/
def skewBad (ctx : Nat → List Byte) (tiles : List Nat) (t : Nat) : Option Nat :=
  ((List.range 64).map (fun i => (i, fld (ctx t) (0x3780 + 8 * i) 8))).findSome? (fun (i, x) =>
    let joins := (allocEntries (ctx t)).any (fun y => y != x && joinOf (aDest y) == joinOf (aDest x) && decide (aDest x < 6))
    if aDepth x = 0 || (aSkew x == 0 && !joins) then none
    else
      let src := tiles.findSome? (fun u => ((nodeEntries (ctx u)).find? (fun y => nStream y == aStream x && nIn y == 0)).map
        (fun y => (u, y)))
      match src with
      | none => some (0x3780 + 8 * i)
      | some (u, y) =>
        let hops := (routeCost ctx (aStream x) t 1200 u 0).getD 0
        let slots := ((List.range 16).filter (fun k => bit (nSlots y) k)).length
        if aDepth x < aSkew x ∨ 16 * (aDepth x - aSkew x) < (2 * (hops + 4) + 1) * slots then some (0x3780 + 8 * i) else none)

/-! ### The checks of a load (R150) -/

/-- A timed input whose stream has no source on the tile cannot deliver (R173); what frame slots a binding may name the spec
does not lay out (R150): a free verdict on the timed inputs and bindings. -/
def State.timedBad (s : State) (b : List Byte) : Option Nat :=
  let used := (List.range 64).filter (fun i => fld b (0x3B00 + 8 * i) 8 != 0)
  match used.find? (fun i => !((nodeEntries b).any (fun y => nStream y == (s.timedIn b i).stream && nIn y == 0))) with
  | some i => some (0x3B00 + 8 * i)
  | none =>
    if fld b 0x3B00 0x400 ≠ 0 ∧ Config.setupVerdict (slice b 0x3B00 0x400) ≠ 0 then some 0x3B00 else none

/-- Timed inputs of a tile whose HBM binding R276 refuses, among those of all the plane's contexts: byte of the entry. -/
def State.cellsBad (s : State) (p : Nat) (ctx : Nat → List Byte) (tiles : List Nat) (t : Nat) : Option Nat :=
  (s.hbmInputs (ctx t)).findSome? (fun (i, x) =>
    let mine := s.cellsOf p x
    let a := (Config.boundAddr x.binding).toNat
    let others := tiles.flatMap (fun u => (s.hbmInputs (ctx u)).flatMap (fun (j, y) =>
      if u = t ∧ j = i then [] else s.cellsOf p y))
    if decide (s.nStacks * 2 ^ 36 < a + 256) || mine.any (fun c => reservedCell c.cell ||
        others.any (fun d => d.stack == c.stack && d.cell == c.cell && (d.write != c.write || d.channel == c.channel))) then
      some (0x3B00 + 8 * i)
    else none)

/-- The first check that fails. -/
def firstBad : List (Unit → Option Nat) → Option Nat
  | [] => none
  | f :: t => match f () with | some o => some o | none => firstBad t

/-- PARAM_RANGE of one context. -/
def State.contextBad (s : State) (pl : Nat) (b : List Byte) : Option Nat :=
  firstBad [fun _ => ctxHeaderBad pl b, fun _ => s.arrayBad b 0, fun _ => s.arrayBad b 1, fun _ => schedulesBad b,
    fun _ => drainsBad b, fun _ => chainsBad b, fun _ => steeringBad b, fun _ => queuesBad b, fun _ => s.timedBad b]

/-- NEXT_PLANE links from plane `pl` visit a plane twice: `next` gives a plane's link, none at LAST. -/
def linksLoop (next : Nat → Option Nat) : Nat → List Nat → Nat → Bool
  | 0, _, _ => true
  | n + 1, seen, pl =>
    if seen.contains pl then true
    else match next pl with
      | none => false
      | some q => linksLoop next n (pl :: seen) q

/-- CRC of a plane: its block-table entries and its blocks. -/
def State.planeCrc (s : State) (p image tiles pl : Nat) (blocks : List (List Byte)) : Nat :=
  crc32c (((List.range tiles).map (fun i => leBytes 4 (s.blockEntry p image tiles pl i))).flatten ++ blocks.flatten)

/-- What the checks of a load find, its parts all written: statuses in the order of R306. -/
def State.loadVerdict (s : State) (l : Load) : Option Earned :=
  let h := s.rdAt l.part l.image 256
  let n := iPlanes h
  let lt := iTiles h
  let tn := lt.length
  let bytes (pl t : Nat) : List Byte :=
    match l.planes.find? (fun x => x.1 == pl) with
    | some (_, c) => ((s.tile t).ctx c).bytes
    | none => []
  let off (pl i : Nat) : Nat := (s.blockAt l.part l.image n tn pl i).1
  let len := s.imageLen l.part l.image n tn
  if s.markAt l.part l.image (min len (2 ^ 27)) then some ⟨stPoison, 0, 0⟩
  else
    let param : Option Nat :=
      match s.headerBad l.part l.image h (l.planes.map Prod.fst) with
      | some o => some o
      | none =>
        l.planes.findSome? (fun (pl, _) =>
          let idx := (List.range tn).zip l.tiles
          let ctx (t : Nat) : List Byte := bytes pl t
          let first := (idx.find? (fun (_, t) => !(ctx t).isEmpty)).map (fun (_, t) => ctx t)
          let entry := (List.range tn).findSome? (fun i =>
            let e := s.blockEntry l.part l.image tn pl i
            if 64 < e then some (256 + 4 * (pl * tn + i)) else none)
          let next (q : Nat) : Option Nat :=
            match (List.range tn).find? (fun i => decide (0 < (s.blockAt l.part l.image n tn q i).2)) with
            | none => none
            | some i =>
              let inf := planeInfo 0 (s.rdAt l.part (l.image + off q i) 32)
              if inf.last then none else some inf.next
          match entry with
          | some o => some o
          | none =>
            match first with
            | none => some (256 + 4 * (pl * tn))
            | some f =>
              if s.planeCrc l.part l.image tn pl (idx.map (fun (_, t) => ctx t)) ≠ fld h (20 + 4 * pl) 4 then some (20 + 4 * pl)
              else if linksLoop next 5 [] pl then some (off pl 0)
              else idx.findSome? (fun (i, t) =>
                let b := ctx t
                if b.isEmpty then none
                else
                  let bad := firstBad [fun _ => s.contextBad pl b,
                    fun _ => if slice b 4 16 = slice f 4 16 then none else some 4,
                    fun _ => s.chainsBroken ctx l.tiles t, fun _ => routesBad ctx l.tiles t, fun _ => skewBad ctx l.tiles t,
                    fun _ => s.cellsBad l.part ctx l.tiles t]
                  match bad with
                  | some o => some (off pl i + o)
                  | none =>
                    match next pl with
                    | none => none
                    | some q => (queuesClash b (s.rdAt l.part (l.image + off q i) (s.blockAt l.part l.image n tn q i).2)).map
                        (fun o => off q i + o)))
    match param with
    | some o => some ⟨stParamRange, fieldAt 1 o, 0⟩
    | none =>
      (l.planes.findSome? (fun (pl, _) => ((List.range tn).zip l.tiles).findSome? (fun (i, t) =>
        let b := bytes pl t
        (firstBad [fun _ => s.passOver b 0, fun _ => s.passOver b 1, fun _ => s.drainsOver b]).map (fun o => off pl i + o)))).map
        (fun o => ⟨stAccRange, fieldAt 1 o, 0⟩)

/-! ### The commands -/

def State.onLoad (s : State) (id : Nat) (f : Load → Load) : State :=
  s.modWork (fun w => { w with loads := updWhere (fun l => l.id == id) f w.loads })

/-- LOAD_FROND (R149): every target on every tile EMPTY and the digest in no other slot; targets become LOADING. -/
def State.loadBody (s : State) (q id : Nat) (b : List Byte) : Except Earned State :=
  let p := (s.queue q).part.toNat
  let image := cAddr b 16
  let m := fld b 24 1
  let sl := fld b 26 2
  let planes := ([0, 1, 2, 3].filter (fun i => bit m i)).map (fun i => (i, bits sl (2 * i) 2))
  let h := s.rdAt p image 256
  let digest := iDigest h
  let tiles := (((iTiles h).filter (fun t => decide (t / 144 < s.nDies))).map (s.physTile p)).filter s.listed
  let slots := planes.map Prod.snd
  let clash (t : Nat) : Bool :=
    slots.any (fun c => ((s.tile t).ctx c).st != 0) ||
    [0, 1, 2, 3].any (fun c => !slots.contains c && ((s.tile t).ctx c).st != 0 && ((s.tile t).ctx c).digest.toNat == digest)
  if !s.inWindow q image (fld h 8 4) then .error ⟨stDomain, fieldAt 0 16, 0⟩
  else match tiles.find? clash with
    | some t => .error ⟨stConflict, conflictAt 2 (s.localTile t), 0⟩
    | none =>
      let s := planes.foldl (fun s (pl, c) => s.setCtxs tiles [c] (fun _ =>
        { st := 1, plane := BitVec.ofNat 2 pl, digest := BitVec.ofNat 32 digest, bytes := [] })) s
      let l : Load := { id := id, q := q, part := p, image := image, planes := planes, tiles := tiles, digest := digest,
                        waiting := (tiles.map (fun t => t / 144)).eraseDups }
      .ok (s.modWork (fun w => { w with loads := w.loads ++ [l] }))

def execLoadFrond (q : Nat) (s : State) : Host.Outcome State Fault Refusal :=
  .next (s.dispatch q 0x10 (fun s id b => s.loadBody q id b))

/-- Root cycles a die's part takes: 1 µs and its bytes at 224 GB/s (R151). -/
def State.loadTime (s : State) (l : Load) (die : Nat) : Nat :=
  let bytes := (l.tiles.filter (fun t => t / 144 == die)).foldl (fun a t =>
    l.planes.foldl (fun a (_, c) => a + ((s.tile t).ctx c).bytes.length) a) 0
  6000 + ceilDiv (6 * bytes) 224

/-- A die's context loader serves the oldest load that waits for it (R151); operator work on a tile of the load is
waited for (R19). -/
def State.contextLoad (s : State) (die : Nat) : State :=
  match s.work.loads.find? (fun l => l.waiting.contains die) with
  | none => s
  | some l =>
    let mine := ((List.range l.tiles.length).zip l.tiles).filter (fun (_, t) => t / 144 == die)
    if l.tiles.any (fun t => (s.tile t).op.isSome) then s
    else
      let s := s.untilRoot (Tbl.get 0 s.work.loaders die)
      let h := s.rdAt l.part l.image 256
      let tn := (iTiles h).length
      let s := (s.startAt l.q l.id s.mclk).modQw l.q (fun x => x.onExec l.id (fun e => { e with digest := l.digest }))
      let s := mine.foldl (fun s (i, t) => l.planes.foldl (fun s (pl, c) =>
        let (o, n) := s.blockAt l.part l.image (iPlanes h) tn pl i
        let bs := s.rdAt l.part (l.image + o) (min n 16384)
        s.modCtx t c (fun x => { x with bytes := bs })) s) s
      let done := s.clk.root + s.loadTime l die
      let s := s.modWork (fun w => { w with loaders := Tbl.set 0 w.loaders die done })
      s.onLoad l.id (fun x =>
        { x with waiting := setDel x.waiting die, written := setIns x.written die, endsAt := max x.endsAt done })

def execContextLoad (die : Nat) (s : State) : Host.Outcome State Fault Refusal :=
  .next (s.unlessFrozen (fun s => s.contextLoad die))

/-- Every die has written its part: the checks decide, the targets become LOADED or EMPTY (R150). -/
def State.loadComplete (s : State) (l : Load) : State :=
  if !l.waiting.isEmpty then s
  else
    let s := s.startAt l.q l.id s.mclk
    let s := s.untilRoot l.endsAt
    let slots := l.planes.map Prod.snd
    let bad := s.loadVerdict l
    let s := s.modWork (fun w => { w with loads := w.loads.filter (fun x => x.id != l.id) })
    match bad with
    | some e => (s.setCtxs l.tiles slots (fun _ => {})).finish l.q l.id [e]
    | none =>
      let mb := leNat (s.rdAt l.part (l.image + 18) 2)
      let s := s.setCtxs l.tiles slots (fun x => { x with st := 2 })
      let s := s.modPart l.part (fun x => { x with fronds := Tbl.put x.fronds l.digest (mb, l.tiles) })
      let s := l.tiles.foldl (fun s t => s.modVec t (fun v => { v with popcnt := 0 })) s
      s.finish l.q l.id [⟨stDone, 0, 0⟩]

def execContextLoadComplete (id : Nat) (s : State) : Host.Outcome State Fault Refusal :=
  .next (s.unlessFrozen (fun s =>
    match s.work.loads.find? (fun l => l.id == id) with
    | some l => s.loadComplete l
    | none => s))

end Sys2Proof.Machine
end

