-- ==== Sys2Proof/Machine/Transfers.lean ====
section
/-!
DEFINITION. DMA and host memory (13 R322 to R326, 17 R402), fused chains (R329 to R331), BAR2 (R400) and the accesses
held while a command uses an array (R86).
-/
namespace Sys2Proof.Machine

/-! ### Descriptors (R323, R324) -/

/-- A signed 48-bit stride. -/
def stride (b : List Byte) (o : Nat) : Int := signed 48 (fld b o 6)
def Dma.rowLen (d : Dma) : Nat := if d.len = 0 then fld d.bytes 16 4 else d.len
def dCount (b : List Byte) (i : Nat) : Nat := fld b (20 + 2 * i) 2
def Dma.srcHost (d : Dma) : Bool := bit (fld d.bytes 26 1) 0
def Dma.dstHost (d : Dma) : Bool := bit (fld d.bytes 26 1) 1
def Dma.after (d : Dma) : Bool := bit (fld d.bytes 26 1) 2

/-- The offsets of every row, in the order i3, then i2, then i1 (R324), with strides at byte offset `o`. -/
def rowOffsets (b : List Byte) (o : Nat) : List Int :=
  ((List.range (dCount b 2)).map (fun (i3 : Nat) =>
    ((List.range (dCount b 1)).map (fun (i2 : Nat) =>
      (List.range (dCount b 0)).map (fun (i1 : Nat) =>
        (i1 : Int) * stride b o + (i2 : Int) * stride b (o + 6) + (i3 : Int) * stride b (o + 12)))).flatten)).flatten

/-- Lowest and highest row offset (R324). -/
def rowBounds (b : List Byte) (o : Nat) : Int × Int :=
  [0, 1, 2].foldl (fun (lo, hi) i =>
    let e : Int := ((dCount b i : Nat) - 1 : Int) * stride b (o + 6 * i)
    if e < 0 then (lo + e, hi) else (lo, hi + e)) (0, 0)

/-- One side of a descriptor lies in the queue's domain (R308): in HBM the extremes decide; elsewhere every row. -/
def State.sideOk (s : State) (q base n : Nat) (b : List Byte) (o : Nat) : Bool :=
  let (lo, hi) := rowBounds b o
  let a : Int := base
  if a + hi + n ≤ (s.capacity : Int) then decide (0 ≤ a + lo) && s.inDomain q (a + lo).toNat (hi - lo + n).toNat
  else (rowOffsets b o).all (fun x => decide (0 ≤ a + x) && s.inDomain q (a + x).toNat n)

def dmaFields (b : List Byte) : List (Nat × Nat × Nat) :=
  let f := fld b 26 1
  [(0, 8, if bit f 0 then all64 else addr52), (8, 8, if bit f 1 then all64 else addr52), (16, 4, 0xFFFFFFFF),
   (20, 2, 0xFFFF), (22, 2, 0xFFFF), (24, 2, 0xFFFF), (26, 1, 7), (28, 6, 2 ^ 48 - 1), (34, 6, 2 ^ 48 - 1),
   (40, 6, 2 ^ 48 - 1), (46, 6, 2 ^ 48 - 1), (52, 6, 2 ^ 48 - 1), (58, 6, 2 ^ 48 - 1)]

/-- The checks of one descriptor at byte `at` of its list (R323, R324): PARAM_RANGE before DOMAIN_VIOLATION. -/
def State.descParam (b : List Byte) (pos : Nat) : Option Earned :=
  let n := fld b 16 4
  let bad : Option Nat :=
    match reservedAt (dmaFields b) b 64 with
    | some o => some o
    | none =>
      if n = 0 ∨ 16777216 < n then some 16
      else if dCount b 0 = 0 then some 20 else if dCount b 1 = 0 then some 22 else if dCount b 2 = 0 then some 24
      else if 2 ^ 40 < n * dCount b 0 * dCount b 1 * dCount b 2 then some 16 else none
  bad.map (fun o => ⟨stParamRange, fieldAt 4 (pos + o), 0⟩)

def State.descDomain (s : State) (q : Nat) (b : List Byte) (pos : Nat) : Option Earned :=
  let f := fld b 26 1
  let n := fld b 16 4
  if !(bit f 0) && !s.sideOk q (cAddr b 0) n b 28 then some ⟨stDomain, fieldAt 4 pos, 0⟩
  else if !(bit f 1) && !s.sideOk q (cAddr b 8) n b 46 then some ⟨stDomain, fieldAt 4 (pos + 8), 0⟩
  else none

/-- Check a list of descriptors. -/
def State.descsBad (s : State) (q : Nat) (ds : List (List Byte)) : Option Earned :=
  let l := (List.range ds.length).zip ds
  match l.findSome? (fun (i, d) => State.descParam d (64 * i)) with
  | some e => some e
  | none => l.findSome? (fun (i, d) => s.descDomain q d (64 * i))

def State.descList (s : State) (p a n : Nat) : List (List Byte) :=
  (List.range n).map (fun i => s.rdAt p (a + 64 * i) 64)

/-- Put descriptors on a command's list; each takes an identifier. -/
def State.addDmas (s : State) (owner q p : Nat) (stage : Option Nat) (ds : List (List Byte × Nat)) : State :=
  ds.foldl (fun s (b, len) =>
    let (id, s) := s.fresh
    let d : Dma := { id := id, owner := owner, q := q, part := p, stage := stage, bytes := b, len := len }
    s.modWork (fun w => { w with dmas := w.dmas ++ [d] })) s

/-! ### Arrays in use (R86) -/

/-- A run whose planes hold operations of array `a`'s feeder, load path or drain unit on the tile. -/
def State.runUses (s : State) (r : Run) (t a : Nat) : Bool :=
  r.tiles.contains t && r.planes.any (fun p =>
    [a, 2 + a, 4 + a].any (fun u => !(opsOf ((s.tile t).ctx p.slot).bytes u).isEmpty))

/-- The array of a tile is used by a run or by a matrix operator or ATTENTION (R243) that executes. -/
def State.arrayUsed (s : State) (t a : Nat) : Bool :=
  s.work.runs.any (fun r => r.start.isSome && s.runUses r t a) ||
  s.work.ops.any (fun o => o.start.isSome && o.tiles.contains t && decide (fld o.arg 0 2 ≤ 3))

/-- A memory key lies in an accumulator memory whose array is in use. -/
def State.accBusy (s : State) (k : Nat) : Bool :=
  decide (tileRegion ≤ k) && decide (k < stagingRegion) && decide (0x600000 ≤ k % 2 ^ 23) &&
  decide (k % 2 ^ 23 < 0x680000) && s.arrayUsed (keyTile k) ((k % 2 ^ 23 - 0x600000) / 0x40000)

/-! ### Fused chains (R329 to R331) -/

def Fused.nth (l : List Nat) (i : Nat) : Nat := l.getD i 0

/-- Stage `j` may start its next iteration (R330). -/
def Fused.ready (f : Fused) (j : Nat) : Bool :=
  let st := f.stages.getD j []
  let i := Fused.nth f.started j
  let linkedIn := if j = 0 then none else fPair (f.stages.getD (j - 1) [])
  let prev :=
    if j = 0 then true
    else match linkedIn with
      | some _ => decide (i < Fused.nth f.handed (j - 1))
      | none => decide (i < Fused.nth f.completed (j - 1))
  let own := match fPair st with
    | some _ => decide (i ≤ Fused.nth f.handed j)
    | none => j + 1 == f.stages.length || decide (i ≤ Fused.nth f.completed (j + 1))
  !f.stopping && decide (i < fIter st) && decide (Fused.nth f.completed j = i) && prev && own

/-- The first mclk in which stage `j`'s next iteration may run: after its own last, two mclk after the swap of a pair
(one after it takes effect), after the neighbour that no pair links (R330). -/
def Fused.goAt (f : Fused) (j : Nat) : Nat :=
  let st := f.stages.getD j []
  let own := if 1 < Fused.nth f.started j then Fused.nth f.doneAt j + 1 else 0
  let prev :=
    if j = 0 then 0
    else match fPair (f.stages.getD (j - 1) []) with
      | some _ => Fused.nth f.swapped (j - 1) + 1
      | none => Fused.nth f.doneAt (j - 1) + 1
  let next := match fPair st with
    | some _ => if 0 < Fused.nth f.handed j then Fused.nth f.swapped j + 1 else 0
    | none => if j + 1 < f.stages.length ∧ 1 < Fused.nth f.started j then Fused.nth f.doneAt (j + 1) + 1 else 0
  max own (max prev next)

/-- The descriptor of an iteration: SRC and DST advanced by the stage's steps (R329). -/
def stepDesc (st b : List Byte) (i : Nat) : List Byte :=
  let src : Int := (fld b 0 8 : Int) + (i : Int) * signed 32 (fld st 20 4)
  let dst : Int := (fld b 8 8 : Int) + (i : Int) * signed 32 (fld st 24 4)
  leBytes 8 (unsigned 64 src) ++ leBytes 8 (unsigned 64 dst) ++ b.drop 16

def State.onFused (s : State) (id : Nat) (f : Fused → Fused) : State :=
  s.modWork (fun w => { w with fused := updWhere (fun x => x.id == id) f w.fused })

/-- Start stage `j`'s next iteration: a DMA stage issues its descriptors; a VECTOR stage awaits its INVOCATION; an
OP stage awaits its OPERATOR_START. -/
def State.startStage (s : State) (f : Fused) (j : Nat) : State :=
  let st := f.stages.getD j []
  let i := Fused.nth f.started j
  let s := s.onFused f.id (fun x => { x with started := x.started.set j (i + 1) })
  match fKind st with
  | 1 =>
    let ds := s.descList f.part (cAddr st 8) (fld st 16 2)
    s.addDmas f.id f.q f.part (some j) (ds.map (fun d => (stepDesc st d i, 0)))
  | 3 =>
    let arg := s.rdAt f.part (cAddr st 8) 256
    let (id, s) := s.fresh
    let o : OpRun := { id := id, owner := f.id, stage := some j, q := f.q, part := f.part, arg := arg,
                       obj := s.physObj f.part (bits (fld arg 12 4) 0 18), items := 0, want := 0 }
    s.modWork (fun w => { w with ops := w.ops ++ [o] })
  | _ => s

/-- Start every stage that is ready; a chain whose last stage has done its last iteration, or that is stopping with
nothing in progress, completes (R331). -/
def State.fusedGo (s : State) (id : Nat) : State :=
  match s.work.fused.find? (fun f => f.id == id) with
  | none => s
  | some f =>
    let c := f.stages.length
    let n := fIter (f.stages.getD 0 [])
    let idle := (List.range c).all (fun j => Fused.nth f.started j == Fused.nth f.completed j)
    if Fused.nth f.completed (c - 1) = n ∨ (f.stopping ∧ idle) then
      let es := if Fused.nth f.completed (c - 1) = n then [] else [⟨stStopped, 0, 0⟩]
      (s.modWork (fun w => { w with fused := w.fused.filter (fun x => x.id != id) })).finishAt f.q id (max s.mclk (Fused.nth f.doneAt (c - 1))) (es ++ [⟨stDone, 0, 0⟩])
    else (List.range c).foldl (fun s j => if f.ready j then s.startStage f j else s) s

/-- An iteration of stage `j` completes in mclk `at'`. -/
def State.stageDone (s : State) (id j at' : Nat) : State :=
  (s.onFused id (fun f => { f with
    completed := f.completed.set j (Fused.nth f.completed j + 1)
    doneAt := f.doneAt.set j at' })).fusedGo id

/-- The checks of R329 and R331 that look at state: a stage's pair must be enabled and not hardware-handed, and the
descriptors that a DMA stage lists must pass R323's checks. The record's own fields are field checks (R290). -/
def State.chainBad (s : State) (q : Nat) (stages : List (List Byte)) : Option Earned :=
  let p := (s.queue q).part.toNat
  let pairBad (b : List Byte) : Bool :=
    match fPair b with
    | some (n, t) => let h := s.pair (s.physTile p t) n; !h.enable || h.syncEn
    | none => false
  match ((List.range stages.length).zip stages).find? (fun (_, b) => pairBad b) with
  | some (j, _) => some ⟨stParamRange, fieldAt 0 (32 + 32 * j + 1), 0⟩
  | none =>
    stages.findSome? (fun b =>
      if fKind b = 1 then
        let ds := s.descList p (cAddr b 8) (fld b 16 2)
        -- every iteration's addresses are checked (R290, R329)
        (s.descsBad q ds).orElse (fun _ => (List.range (fIter b)).findSome? (fun i =>
          ((List.range ds.length).zip ds).findSome? (fun (k, d) => s.descDomain q (stepDesc b d i) (64 * k))))
      else none)

/-- The pair of stage `j` swaps once its producer has completed iteration i and its consumer iteration i − 1, in the mclk
after the later of the two (R330). -/
def State.handover (s : State) (f : Fused) (j : Nat) : State :=
  match fPair (f.stages.getD j []) with
  | none => s
  | some (n, t) =>
    let i := Fused.nth f.handed j
    let last := j + 1 == f.stages.length
    if decide (i < Fused.nth f.completed j) && (last || decide (i ≤ Fused.nth f.completed (j + 1))) then
      let m := max (Fused.nth f.doneAt j) (if last ∨ i = 0 then 0 else Fused.nth f.doneAt (j + 1)) + 1
      let s := (s.untilMclk m).modPair (s.physTile f.part t) n HalfPair.swap
      (s.onFused f.id (fun x => { x with
        handed := x.handed.set j (i + 1)
        swapped := x.swapped.set j m })).fusedGo f.id
    else s

def execHandoverSwap (id stage : Nat) (s : State) : Host.Outcome State Fault Refusal :=
  .next (s.unlessFrozen (fun s =>
    match s.work.fused.find? (fun f => f.id == id) with
    | some f => s.handover f stage
    | none => s))

/-! ### Copying -/

/-- The bytes of one row with the marks of their units. -/
def State.rowBytes (s : State) (roles : Nat → Nat) (p a n : Nat) : List (Byte × Bool) :=
  (List.range n).map (fun i => match s.addrKeyW roles p (a + i) with | some k => (s.rd k, s.marked k) | none => (0, false))

/-- Write one row to the destination: module memory, or host memory with EP where a byte is marked (R326). -/
def State.putRow (s : State) (d : Dma) (roles : Nat → Nat) (off : Int) (bs : List (Byte × Bool)) : State :=
  let a := ((fld d.bytes 8 8 : Int) + off).toNat
  if d.dstHost then
    let w : HostWrite := { addr := a, bytes := bs.map Prod.fst, ep := bs.any Prod.snd }
    { s with hostOut := w :: s.hostOut }
  else
    s.store ((List.range bs.length).zip bs |>.filterMap
      (fun (i, b) => (s.addrKeyW roles d.part (a + i)).map (fun k => (k, b.1, b.2))))

/-- Copy the rows of a descriptor whose source is module memory, in order, each row read whole first (R324). -/
def State.copyRows (s : State) (d : Dma) (roles : Nat → Nat) : State :=
  let n := d.rowLen
  ((rowOffsets d.bytes 28).zip (rowOffsets d.bytes 46)).foldl (fun s (o1, o2) =>
    s.putRow d roles o2 (s.rowBytes roles d.part ((fld d.bytes 0 8 : Int) + o1).toNat n)) s

/-- Write the rows of a descriptor from bytes a host read delivered. -/
def State.placeRows (s : State) (d : Dma) (roles : Nat → Nat) (bs : List (Byte × Bool)) : State :=
  let n := d.rowLen
  ((List.range (rowOffsets d.bytes 46).length).zip (rowOffsets d.bytes 46)).foldl
    (fun s (i, o) => s.putRow d roles o ((bs.drop (i * n)).take n)) s

def State.onDma (s : State) (id : Nat) (f : Dma → Dma) : State :=
  s.modWork (fun w => { w with dmas := updWhere (fun d => d.id == id) f w.dmas })

/-- A descriptor is complete: the command completes with its last one; a stage with the last of its iteration. -/
def State.dmaDone (s : State) (d : Dma) : State :=
  let s := s.onDma d.id (fun x => { x with done := true })
  let mine (x : Dma) := x.owner == d.owner && x.stage == d.stage
  if s.work.dmas.any (fun x => mine x && !x.done) then s
  else
    let last := (s.work.dmas.filter mine).foldl (fun m x => max m x.endAt) s.mclk
    let s := s.modWork (fun w => { w with dmas := w.dmas.filter (fun x => !mine x) })
    match d.stage with
    | some j => s.stageDone d.owner j last
    | none => s.finishAt d.q d.owner last [⟨stDone, 0, 0⟩]

/-- The tiles' roles latched by a descriptor. -/
def Dma.rolesOf (d : Dma) (t : Nat) : Nat := Tbl.get 0 d.latch t

/-- Any accumulator address of an array in use on either side of a descriptor (R86). -/
def State.dmaHeld (s : State) (d : Dma) : Bool :=
  let side (host : Bool) (base : Nat) (o : Nat) :=
    !host && decide (tileRegion ≤ base) && (rowOffsets d.bytes o).any (fun x =>
      (List.range d.rowLen).any (fun i =>
        match s.addrKey d.part ((base : Int) + x).toNat with
        | some k => s.accBusy (k + i)
        | none => false))
  side d.srcHost (fld d.bytes 0 8) 28 || side d.dstHost (fld d.bytes 8 8) 46

def Dma.total (d : Dma) : Nat := d.rowLen * dCount d.bytes 0 * dCount d.bytes 1 * dCount d.bytes 2

/-- Bytes that engine `e` of the die moves for a descriptor: all of them on its own engine; of a COPY, every sixteenth piece
of 64 KiB from its own engine on (R325). -/
def Dma.share (d : Dma) (e : Nat) : Nat :=
  if d.len = 0 then (if e = d.eng then d.total else 0)
  else
    let k := (e + 16 - d.eng) % 16
    let full := d.len / 65536
    (if k < full then (full - k + 15) / 16 * 65536 else 0) + (if full % 16 = k then d.len % 65536 else 0)

/-- The engines of a descriptor move its bytes, 64 per nclk, each once it is free (R322): busy mclks are counted and the
last of them is the descriptor's end. -/
def State.moveBytes (s : State) (d : Dma) : State :=
  let die := ((s.qw d.q).core.getD 0) / 4
  (List.range 16).foldl (fun s e =>
    let n := d.share e
    if n = 0 then s
    else
      let k := 16 * die + e
      let len := max 1 (ceilDiv (3 * ceilDiv n 64) s.clk.div)
      let m := max s.mclk (Tbl.get 0 s.work.dmaFree k)
      let s := if s.bankOf d.q = s.ambient d.part then s else s.cover d.part [engDma k] len
      (s.count (s.bankOf d.q) (engDma k) 0 len).modWork (fun w => { w with
        dmaFree := Tbl.set 0 w.dmaFree k (m + len)
        dmas := updWhere (fun x => x.id == d.id) (fun x => { x with endAt := max x.endAt (m + len - 1) }) w.dmas })) s

/-- Run a descriptor whose roles are latched: a host source is asked for; otherwise the rows are copied. -/
def State.runDma (s : State) (d : Dma) : State :=
  if d.srcHost then
    let (tag, s) := s.hostRead (fld d.bytes 0 8) d.total (.dma d.id)
    s.onDma d.id (fun x => { x with tag := some tag })
  else
    ((s.moveBytes d).copyRows d d.rolesOf).dmaDone d

/-- A side of a descriptor reaches a tile's slot. -/
def State.dmaTouches (s : State) (d : Dma) (t : Nat) : Bool :=
  let n := fld d.bytes 16 4
  let side (host : Bool) (base o : Nat) : Bool :=
    !host && (rowOffsets d.bytes o).any (fun x =>
      let a := ((base : Int) + x).toNat
      [a, a + n - 1].any (fun a =>
        decide (tileRegion ≤ a) && decide (a < stagingRegion) &&
        (s.firstDie d.part + (a - tileRegion) / 2 ^ 36) * 144 + a / 2 ^ 23 % 2 ^ 13 == t))
  side (bit (fld d.bytes 26 1) 0) (cAddr d.bytes 0) 28 || side (bit (fld d.bytes 26 1) 1) (cAddr d.bytes 8) 46

/-- The die of the engines, and every tile that a descriptor reaches, are awake (R426). -/
def State.dmaAwake (s : State) (d : Dma) (die : Nat) : Bool :=
  s.dieAwake die && s.pwr.scopes.all (fun (k, _) => decide (1152 ≤ k) || s.tileAwake k || !s.dmaTouches d k) &&
  (List.range s.nDies).all (fun i => s.dieAwake (s.firstDie d.part + i))

/-- A DMA engine starts the next descriptor of a command (R322, R324, R325): AFTER waits for every earlier one; at the
bound of 16 engines × 32 descriptors the core holds with STALL_CREDIT (R190). A descriptor goes to the engine that holds
the fewest, the lowest of those. -/
def State.startDma (s : State) (owner : Nat) : State :=
  match s.work.dmas.find? (fun d => d.owner == owner && !d.started) with
  | none => s
  | some d =>
    let die := ((s.qw d.q).core.getD 0) / 4
    let inflight := (s.work.dmas.filter (fun x => x.started && !x.done && ((s.qw x.q).core.getD 0) / 4 == die)).length
    let earlier := s.work.dmas.filter (fun x => x.owner == owner && x.stage == d.stage && decide (x.id < d.id))
    let held (e : Nat) : Nat := (s.work.dmas.filter (fun x => x.started && !x.done && x.eng == e &&
      ((s.qw x.q).core.getD 0) / 4 == die)).length
    let eng := (List.range 16).foldl (fun a e => if held e < held a then e else a) 0
    if (d.after && earlier.any (fun x => !x.done)) || !s.dmaAwake d die then s
    else if 512 ≤ inflight then s.count (s.bankOf d.q) (engDma (16 * die)) 6 1
    else
      -- AFTER: in the mclk after the last of the earlier ones; a stage's iteration: by R330
      let s := if d.after then s.untilMclk (earlier.foldl (fun m x => max m (x.endAt + 1)) 0) else s
      let s := match d.stage, s.work.fused.find? (fun f => f.id == owner) with
        | some j, some f => s.untilMclk (f.goAt j)
        | _, _ => s
      let latch := s.tiles.filterMap (fun (t, x) => if x.roles = 0 then none else some (t, x.roles))
      let s := s.startAt d.q owner s.mclk
      let d := { d with
        started := true
        latch := latch
        eng := eng
        startedAt := s.mclk
        endAt := s.mclk }
      let s := s.onDma d.id (fun _ => d)
      if s.dmaHeld d then s.modWork (fun w => { w with held := w.held ++ [.dma d.id] })
      else s.runDma d

def execDmaDescriptor (id : Nat) (s : State) : Host.Outcome State Fault Refusal :=
  .next (s.unlessFrozen (fun s => s.startDma id))

/-- COPY: one descriptor with COUNT_1 = COUNT_2 = COUNT_3 = 1 (R325). -/
def copyDesc (b : List Byte) : List Byte :=
  leBytes 8 (fld b 16 8) ++ leBytes 8 (fld b 24 8) ++ leBytes 4 0 ++ leBytes 2 1 ++ leBytes 2 1 ++ leBytes 2 1 ++
    leBytes 1 (fld b 40 1 % 4) ++ leBytes 37 0

def execCopy (q : Nat) (s : State) : Host.Outcome State Fault Refusal :=
  .next (s.dispatch q 0x30 (fun s id b =>
    .ok (s.addDmas id q (s.queue q).part.toNat none [(copyDesc b, fld b 32 8)])))

def execCopyNd (q : Nat) (s : State) : Host.Outcome State Fault Refusal :=
  .next (s.dispatch q 0x31 (fun s id b =>
    let p := (s.queue q).part.toNat
    let ds := s.descList p (cAddr b 16) (fld b 24 2)
    match s.descsBad q ds with
    | some e => .error e
    | none => .ok (s.addDmas id q p none (ds.map (fun d => (d, 0))))))

/-! ### Host reads (R326, R402) -/

/-- A failed read of a command slot: logged; the command completes POISON_CONSUMED and the queue halts (R402). -/
def State.slotFailed (s : State) (q slot addr : Nat) : State :=
  let x := s.qw q
  let n := if x.fetched.isEmpty then 1 else cSlots x.fetched
  ((s.hostErr 5 addr q slot).modQw q (fun x => { x with readTag := none })).badSlot q x.fetched n

/-- A read answered: the slot's bytes join those fetched; a descriptor's rows are written, poisoned on an error and
logged (R326). -/
def State.hostAnswer (s : State) (r : HostRead) (ok : Bool) (bs : List Byte) : State :=
  let s := s.modWork (fun w => { w with hostReads := w.hostReads.filter (fun x => x.tag != r.tag) })
  match r.use with
  | .slot q slot =>
    if ok then
      (s.modQw q (fun x => { x with readTag := none, fetched := x.fetched ++ slice bs 0 r.bytes })).pump q
    else (s.slotFailed q slot r.addr).pump q
  | .dma id =>
    match s.work.dmas.find? (fun d => d.id == id) with
    | none => s
    | some d =>
      let s := if ok then s else s.hostErr 7 r.addr d.q 0
      -- the engine has waited for its source (R435)
      let s := s.count (s.bankOf d.q) (engDma (16 * (((s.qw d.q).core.getD 0) / 4) + d.eng)) 1 (s.mclk - d.startedAt)
      let s := s.moveBytes d
      (s.placeRows d d.rolesOf ((slice bs 0 r.bytes).map (fun b => (b, !ok)))).dmaDone d

/-- While frozen a completion is kept and acts on release. -/
def execHostReadCompletion (tag : Nat) (ok : Bool) (bytes : List Byte) (s : State) : Host.Outcome State Fault Refusal :=
  .next (
    if s.frozen then s.modDbg (fun d => { d with held := d.held ++ [.hostReadCompletion tag ok bytes] })
    else match s.work.hostReads.find? (fun r => r.tag == tag) with
      | some r => s.hostAnswer r ok bytes
      | none => s)

def execCplTimeout (tag : Nat) (s : State) : Host.Outcome State Fault Refusal :=
  .next (s.unlessFrozen (fun s =>
    match s.work.hostReads.find? (fun r => r.tag == tag) with
    | some r => (s.untilRoot (r.since + usRoot (1000 * s.mod.cplTimeout.toNat))).hostAnswer r false []
    | none => s))

/-! ### BAR2 (R399, R400) -/

/-- An access made before HOST_QUIET_UNTIL (R426). -/
def State.quiet (s : State) : State :=
  if s.sclk < s.pwr.hostQuiet.toNat then
    s.modPwr (fun p => { p with quietBroken := BitVec.ofNat 32 (satAdd 32 p.quietBroken.toNat 1) })
  else s

/-- Physical address of a BAR2 offset. -/
def State.bar2Addr (s : State) (o : Nat) : Nat := s.mod.bar2.toNat * 2 ^ 36 + o

def State.physBytes (s : State) (a n : Nat) : List Byte × Bool :=
  let ks := (List.range n).map (fun i => s.physKey (a + i))
  (ks.map (fun k => match k with | some k => s.rd k | none => 0),
   ks.any (fun k => match k with | some k => s.marked k | none => false))

/-- A byte of the range is reserved or absent (R262). -/
def State.physHole (s : State) (a n : Nat) : Bool := (List.range n).any (fun i => (s.physKey (a + i)).isNone)
/-- A BAR2 write received before is held: later writes keep their order and later reads reflect it (R400). -/
def State.writeHeldUp (s : State) : Bool :=
  !s.frozen && s.work.held.any (fun h => match h with | .write _ _ _ => true | _ => false)

/-- A byte of the range lies in an accumulator in use; never held while frozen (R86, R450). -/
def State.physBusy (s : State) (a n : Nat) : Bool :=
  !s.frozen && (List.range n).any (fun i => match s.physKey (a + i) with | some k => s.accBusy k | none => false)

def State.serveRead (s : State) (a n : Nat) : State :=
  let (bs, ep) := s.physBytes a n
  s.reply { kind := 2, value := a, bytes := bs, ep := ep }

def execBar2Read (off n : Nat) (s : State) : Host.Outcome State Fault Refusal :=
  .next (
    let s := s.quiet
    if !s.mod.done then (s.hostErr 1 off).reply { kind := 2, value := off, bytes := List.replicate n 0 }
    else
      let a := s.bar2Addr off
      let s := s.wakeAddr a
      let s := if s.physHole a n then s.hostErr 2 a else s
      if s.physBusy a n || s.writeHeldUp then s.modWork (fun w => { w with held := w.held ++ [.read a n] })
      else s.serveRead a n)

/-- A posted BAR2 write; EP marks every unit it writes (R280). -/
def State.bar2Store (s : State) (a : Nat) (bs : List Byte) (ep : Bool) : State := s.wrPhys a bs ep

/-- A write to a physical address. -/
def State.bar2Do (s : State) (a : Nat) (bytes : List Byte) (ep : Bool) : State :=
  let s := s.wakeAddr a
  let s := if s.physHole a bytes.length then s.hostErr 2 a else s
  if s.physBusy a bytes.length || s.writeHeldUp then s.modWork (fun w => { w with held := w.held ++ [.write a bytes ep] })
  else s.bar2Store a bytes ep

/-- While frozen the write is kept, with the address that the window gives it now. -/
def execBar2Write (off : Nat) (bytes : List Byte) (ep : Bool) (s : State) : Host.Outcome State Fault Refusal :=
  .next (
    let s := s.quiet
    if !s.mod.done then s.hostErr 1 off
    else if s.frozen then s.modDbg (fun d => { d with held := d.held ++ [.bar2Write (s.bar2Addr off) bytes ep] })
    else s.bar2Do (s.bar2Addr off) bytes ep)

/-- The oldest access held by R86 is served once the command that uses the array has completed. -/
def State.serveHeld (s : State) : State :=
  match s.work.held with
  | [] => s
  | h :: rest =>
    let s' := s.modWork (fun w => { w with held := rest })
    match h with
    | .read a n => if s.physBusy a n then s else s'.serveRead a n
    | .write a bs ep => if s.physBusy a bs.length then s else s'.bar2Store a bs ep
    | .dma id =>
      match s.work.dmas.find? (fun d => d.id == id) with
      | some d => if s.dmaHeld d then s else s'.runDma d
      | none => s'

def execHeldAccumulatorAccess (s : State) : Host.Outcome State Fault Refusal :=
  .next (s.unlessFrozen State.serveHeld)

end Sys2Proof.Machine
end

