-- ==== Sys2Proof/Machine/Tensors.lean ====
section
/-!
DEFINITION. The operator argument block and its checks (10 R240 to R243, R486), tiling (R245 to R251), and tensors in HBM.
-/
namespace Sys2Proof.Machine

/-! ### The block (R241, R242) -/

/-- A tensor descriptor. -/
structure Tensor where
  addr : Nat
  scale : Nat
  fmt : Nat
  tr : Bool
  rows : Nat
  cols : Nat
  ld : Nat
  deriving DecidableEq, Repr

def tensorBytes (a : List Byte) (i : Nat) : List Byte := slice a (64 + 32 * i) 32
/-- Tensor i; none where its ADDR is 0. -/
def tensorOf (a : List Byte) (i : Nat) : Option Tensor :=
  let b := tensorBytes a i
  if fld b 0 8 = 0 then none
  else some ⟨cAddr b 0, cAddr b 8, bits (fld b 16 1) 0 5, bit (fld b 17 1) 0, fld b 20 4, fld b 24 4, fld b 28 4⟩

def Tensor.f (t : Tensor) : Fmt := (Fmt.ofCode t.fmt).getD .fp32
/-- Stored rows and the length of one. -/
def Tensor.stored (t : Tensor) : Nat × Nat := if t.tr then (t.cols, t.rows) else (t.rows, t.cols)
/-- Byte address of stored row i of batch element b, and of its scale bytes. -/
def Tensor.rowAt (t : Tensor) (b i : Nat) : Nat := t.addr + (b * t.stored.1 + i) * t.ld * t.f.elemBits / 8
def Tensor.scaleAt (t : Tensor) (b i : Nat) : Nat := t.scale + (b * t.stored.1 + i) * t.ld / 32
/-- Bytes of the element plane and of the scale plane that a batch of n touches. -/
def Tensor.extent (t : Tensor) (n : Nat) : Nat × Nat :=
  let last := n * t.stored.1 - 1
  let len := t.stored.2
  if t.f.isBlock then
    (last * t.ld * t.f.elemBits / 8 + ceilDiv len 32 * t.f.blockBytes, last * t.ld / 32 + ceilDiv len 32)
  else (last * t.ld * t.f.elemBits / 8 + ceilDiv (len * t.f.elemBits) 8, 0)

def aOp (a : List Byte) : Nat := fld a 0 2
def aOrder (a : List Byte) : Nat := bits (fld a 2 1) 0 2
def aShape (a : List Byte) : Nat := bits (fld a 2 1) 2 3
def aRnd (a : List Byte) : Rnd := (Rnd.ofCode (bits (fld a 3 1) 0 2)).getD .rne
def aOut (a : List Byte) : Rnd := (Rnd.ofCode (bits (fld a 3 1) 2 2)).getD .rne
def aNonsat (a : List Byte) : Bool := bit (fld a 3 1) 4
def aHPin (a : List Byte) : Nat := fld a 4 2
def aNiPin (a : List Byte) : Nat := fld a 6 1
def aMax (a : List Byte) : Nat := fld a 8 2
def aCounter (a : List Byte) : Nat := bits (fld a 12 4) 0 18
def aStep (a : List Byte) : Nat := fld a 16 4
def aTensor (a : List Byte) : Nat := fld a 20 4
def aSeq (a : List Byte) : Nat := fld a 24 1
def aBatch (a : List Byte) : Nat := fld a 28 4
def aParam (a : List Byte) (i : Nat) : Nat := fld a (32 + 4 * i) 4

/-- The result tensor of an operator. -/
def resultIndex (op : Nat) : Nat := match op with | 1 | 2 | 8 => 2 | 3 | 4 => 3 | _ => 1

/-! ### Tiling (R245, R246, R250, R251) -/

/-- Shape, height, strips, output tiles, K blocks and row sets of a matrix operator; `grouped`: R251. -/
structure Plan where
  shape : Nat
  h : Nat
  ni : Nat
  items : Nat
  kb : Nat
  sets : Nat
  deriving DecidableEq, Repr

def groupsOf : Nat → Nat | 0 | 1 => 1 | 2 => 2 | _ => 4

def planOf (a : List Byte) (m n k : Nat) : Plan :=
  let grouped := aOp a == 2
  let auto := if k ≤ 16 then 3 else if k ≤ 32 then 2 else if grouped && decide (n ≤ 32) then 1 else 0
  let shape := if aShape a = 0 then auto else aShape a - 1
  let g := groupsOf shape
  let kb := ceilDiv k (shapeK shape)
  if grouped then
    { shape := shape, h := m, ni := 1, kb := kb, sets := 1,
      items := ceilDiv (aBatch a) (2 * shapePins shape) * ceilDiv n (shapeN shape) }
  else
    let r := roundUp m (64 * g)
    let (h, ni) :=
      if aOrder a = 0 then
        if m ≤ 512 then (r, min (min 16 (1024 / r)) (ceilDiv n 128)) else (min 1024 r, 1)
      else (if aHPin a = 0 then min 1024 r else aHPin a, if aNiPin a = 0 then 1 else aNiPin a)
    { shape := shape, h := h, ni := ni, kb := kb, sets := ceilDiv (h * ni / g) (1024 / g),
      items := aBatch a * ceilDiv m h * ceilDiv n (128 * ni) }

/-- Rows that the vector operators cut in output tiles of 64, or ATTENTION in 1,024. -/
def vectorRows (a : List Byte) : Nat :=
  match aOp a, tensorOf a 0, tensorOf a 1 with
  | 0x0A, _, some t => t.stored.1
  | _, some t, _ => t.rows
  | _, _, _ => 0

/-- The plan of a matrix operator. -/
def matPlan (a : List Byte) : Plan :=
  match tensorOf a 0, tensorOf a 1 with
  | some x, some y => planOf a x.rows y.cols x.cols
  | _, _ => ⟨0, 1, 1, 0, 0, 1⟩

/-- Output tiles of an operator. -/
def itemsOf (a : List Byte) : Nat :=
  match aOp a with
  | 1 | 2 => (matPlan a).items
  | 3 => aBatch a * ceilDiv (vectorRows a) 1024
  | _ => aBatch a * ceilDiv (vectorRows a) 64

/-! ### Checks (R243) -/

/-- Required and possible tensors; NORM's T2 may be absent. -/
def tensorCounts : Nat → Nat × Nat
  | 1 | 2 => (3, 4) | 3 => (4, 5) | 4 => (4, 4) | 8 => (3, 3) | _ => (2, 2)

def tensorFields : List (Nat × Nat × Nat) :=
  [(0, 8, addr52), (8, 8, addr52), (16, 1, 0x1F), (17, 1, 1), (20, 4, 2 ^ 32 - 1), (24, 4, 2 ^ 32 - 1), (28, 4, 2 ^ 32 - 1)]

def argFields : List (Nat × Nat × Nat) :=
  [(0, 2, 0xFFFF), (2, 1, 0x1F), (3, 1, 0x1F), (4, 2, 0xFFFF), (6, 1, 0xFF), (8, 2, 0xFFFF), (12, 4, 0x3FFFF),
   (16, 4, 2 ^ 32 - 1), (20, 4, 2 ^ 32 - 1), (24, 1, 0xFF), (28, 4, 2 ^ 32 - 1), (32, 16, 2 ^ 128 - 1)]

/-- Form of one descriptor: the first failing byte of the block. -/
def tensorBad (a : List Byte) (i : Nat) : Option Nat :=
  let b := tensorBytes a i
  let o := 64 + 32 * i
  match tensorOf a i with
  | none => if fld b 0 32 = 0 then none else some o
  | some t =>
    match reservedAt tensorFields b 32 with
    | some r => some (o + r)
    | none =>
      if 15 < t.fmt then some (o + 16)
      else if !t.f.isBlock && t.scale != 0 then some (o + 8)
      else if t.rows = 0 ∨ 2 ^ 31 ≤ t.rows then some (o + 20)
      else if t.cols = 0 ∨ 2 ^ 31 ≤ t.cols then some (o + 24)
      else if t.ld < t.stored.2 ∨ (t.f.isBlock ∧ t.ld % 32 ≠ 0) then some (o + 28)
      else none

/-- SPACE 2 stages of a CHAIN descriptor in entry order (R486). -/
def boundStages (d : List Byte) : List Nat :=
  (List.range (vStages d)).filter (fun e =>
    (xKind (vEntry d e) == 1 || xKind (vEntry d e) == 8) && xSpace (vEntry d e) == 2)

/-- Entries whose lanes are results of a RED, not of a scan. -/
def vReduced (d : List Byte) : List Nat :=
  (List.range (vStages d)).foldl (fun l e =>
    let x := vEntry d e
    if (xKind x = 7 ∧ xOp x ≠ 3) ∨ (xDeps d x).any l.contains then e :: l else l) []

/-- Bytes of the element and scale planes that a chain's stage touches: stored row r of its tensor for every stored row r of
T1, for the elements it moves, as for its own extent; what a packed read or a COMPRESS moves lies in that (R486). -/
def chainExtent (d : List Byte) (t1 x : Tensor) (e n : Nat) : Nat × Nat :=
  let red := (vReduced d).contains e
  let len := if red then 1 else t1.stored.2
  let row := (n - 1) * x.stored.1 +
    (if red ∧ ((List.range (vStages d)).any (fun k => xKind (vEntry d k) == 7 && xOp (vEntry d k) != 3 && xLevel (vEntry d k) != 0))
      then (t1.stored.1 - 1) / 64 * 64 else t1.stored.1 - 1)
  let own := x.extent n
  let packed := xPacked (vEntry d e) || (match vCompress d with | some c => c == e || (vBelow d).contains e | none => false)
  if packed then own
  else if x.f.isBlock then
    (max own.1 (row * x.ld * x.f.elemBits / 8 + ceilDiv len 32 * x.f.blockBytes), max own.2 (row * x.ld / 32 + ceilDiv len 32))
  else (max own.1 (row * x.ld * x.f.elemBits / 8 + ceilDiv (len * x.f.elemBits) 8), 0)

/-- Rules of the matrix operators: byte of the first failing field (R58, R59, R70, R89, R243, R250). -/
def matrixBad (a : List Byte) (x y z : Tensor) (w : Option Tensor) : Option Nat :=
  let p := matPlan a
  let first (l : List (Bool × Nat)) : Option Nat := (l.find? (fun c => c.1)).map Prod.snd
  first [
    (y.rows != x.cols, 64 + 32 + 20), (z.rows != x.rows, 64 + 64 + 20), (z.cols != y.cols, 64 + 64 + 24),
    (w.any (fun t => t.rows != x.rows), 64 + 96 + 20), (w.any (fun t => t.cols != y.cols), 64 + 96 + 24),
    (z.fmt == 15, 64 + 64 + 16), (w.any (fun t => t.fmt == 15), 64 + 96 + 16),
    ((arrClass x.fmt).isNone, 64 + 16), (arrClass y.fmt != arrClass x.fmt, 64 + 32 + 16),
    (x.fmt == 15 && aRnd a == .stoch, 3),
    (x.f.isBlock && x.tr, 64 + 17), (y.f.isBlock && !y.tr, 64 + 32 + 17),
    (aOp a == 2 && decide (64 < x.cols), 64 + 24),
    (aOp a == 1 && decide (8192 < p.h * p.ni), 4),
    -- a plain B stored K-innermost takes the transposed load, which P2 lacks
    (p.shape == 1 && !y.f.isBlock && y.tr, 64 + 32 + 17)]

/-- The checks of R243 before any effect: a status, or none. -/
def State.opBad (s : State) (q : Nat) (a : List Byte) : Option Earned :=
  let p := (s.queue q).part.toNat
  let op := aOp a
  let bad (o : Nat) : Option Earned := some ⟨stParamRange, fieldAt 2 o, 0⟩
  let first (l : List (Bool × Nat)) : Option Nat := (l.find? (fun c => c.1)).map Prod.snd
  match reservedAt argFields (a.take 64) 64 with
  | some o => bad o
  | none =>
    match (List.range 6).findSome? (tensorBad a) with
    | some o => bad o
    | none =>
      match first [(op == 0 || decide (10 < op), 0), (aOrder a == 3 || decide (4 < aShape a), 2),
          (bits (fld a 3 1) 0 2 == 3 || bits (fld a 3 1) 2 2 == 3, 3),
          (aHPin a != 0 && (decide (aHPin a < 64) || decide (8192 < aHPin a) || decide (aHPin a % 64 ≠ 0)), 4),
          (decide (16 < aNiPin a), 6), (aBatch a == 0 || decide (65536 < aBatch a), 28)] with
      | some o => bad o
      | none =>
        let here (i : Nat) := (tensorOf a i).isSome
        let d := match tensorOf a 0 with | some t => s.rdAt p t.addr 256 | none => []
        let bound := boundStages d
        let (need, most) := if op = 10 then (1 + bound.length, 1 + bound.length) else tensorCounts op
        if op = 10 ∧ (tensorOf a 0).any (fun t => !s.inWindow q t.addr 256) then some ⟨stDomain, fieldAt 2 64, 0⟩
        else if op = 10 ∧ here 0 ∧ (chainBadAt (unstrided d) false).isSome then
          some ⟨stParamRange, fieldAt 4 ((chainBadAt (unstrided d) false).getD 0), 0⟩
        else if op = 10 ∧ (bound.isEmpty ∨ 5 < bound.length) then some ⟨stParamRange, fieldAt 4 0, 0⟩
        else match first ((List.range 6).map (fun i =>
            ((decide (i < need) && !here i && !(op == 4 && i == 2)) || (decide (most ≤ i) && here i), 64 + 32 * i))) with
        | some o => bad o
        | none =>
          let t (i : Nat) : Tensor := (tensorOf a i).getD ⟨0, 0, 0, false, 0, 0, 0⟩
          let rule : Option Nat :=
            if op ≤ 2 then matrixBad a (t 0) (t 1) (t 2) (tensorOf a 3)
            else if op = 10 then
              first (((List.range bound.length).zip bound).map (fun (i, e) =>
                (Fmt.ofCode (t (i + 1)).fmt != some (xStored (vEntry d e)), 64 + 32 * (i + 1) + 16)))
            else
              let plain := (List.range 6).map (fun i => (here i && (t i).fmt == 15, 64 + 32 * i + 16))
              first (plain ++ (match op with
                | 3 => [((t 0).cols != 64 && (t 0).cols != 128, 64 + 24), (decide (2 ^ 20 < (t 0).rows), 64 + 20),
                        (decide (2 ^ 20 < (t 1).rows), 96 + 20), ((t 1).cols != (t 0).cols, 96 + 24),
                        ((t 2).rows != (t 1).rows, 128 + 20), ((t 2).cols != (t 0).cols, 128 + 24),
                        ((t 3).rows != (t 0).rows, 160 + 20), ((t 3).cols != (t 0).cols, 160 + 24),
                        (decide (4096 < aBatch a), 28), (decide (1 < aParam a 1), 36)] ++
                       [0, 1, 2].map (fun i => (arrClass (t i).fmt != some 1 && arrClass (t i).fmt != some 2, 64 + 32 * i + 16)) ++
                       -- Q and K meet in one pass, with blocks along the head width; those of V lie along the keys
                       [(arrClass (t 1).fmt != arrClass (t 0).fmt, 96 + 16), ((t 0).f.isBlock && (t 0).tr, 64 + 17),
                        ((t 1).f.isBlock && (t 1).tr, 96 + 17), ((t 2).f.isBlock && !(t 2).tr, 128 + 17)]
                | 4 => [(decide (2 ^ 20 < (t 0).cols), 64 + 24), (decide (1 < aParam a 1), 36),
                        (match lay32.decode (aParam a 0) with | .fin false (_ + 1) _ => false | _ => true, 32),
                        ((t 3).rows != (t 0).rows, 160 + 20), ((t 3).cols != (t 0).cols, 160 + 24)]
                | 5 => [(decide (2 ^ 24 < (t 0).cols), 64 + 24), ((t 1).rows != (t 0).rows, 96 + 20),
                        ((t 1).cols != (t 0).cols, 96 + 24)]
                | 6 => [(decide (2 < aParam a 1), 36),
                        (!(((t 1).rows == (t 0).rows && (t 1).cols == 1) || ((t 1).rows == 1 && (t 1).cols == (t 0).rows)), 96 + 20)]
                | 7 => [((t 1).rows != (t 0).rows, 96 + 20), ((t 1).cols != (t 0).cols, 96 + 24)]
                | 8 => [((t 1).fmt != 0x0C, 96 + 16), ((t 1).rows != 1, 96 + 20), ((t 2).rows != (t 1).cols, 128 + 20),
                        ((t 2).cols != (t 0).cols, 128 + 24)]
                | _ => [((t 1).rows != (t 0).cols, 96 + 20), ((t 1).cols != (t 0).rows, 96 + 24)]))
          match rule with
          | some o => bad o
          | none =>
            let c := aCounter a
            if s.objOk c && (s.obj (s.physObj p c)).type != 0 then bad 12
            else
              let dom : Option Nat := (List.range 6).findSome? (fun i =>
                match tensorOf a i with
                | none => none
                | some x =>
                  if op = 10 ∧ i = 0 then none
                  else
                    let (e, k) := if op = 10 then chainExtent d (t 1) x (bound.getD (i - 1) 0) (aBatch a) else x.extent (aBatch a)
                    if !s.inWindow q x.addr e then some (64 + 32 * i)
                    else if x.f.isBlock && !s.inWindow q x.scale k then some (64 + 32 * i + 8) else none)
              match dom with
              | some o => some ⟨stDomain, fieldAt 2 o, 0⟩
              | none => if s.objOk c then none else some ⟨stDomain, fieldAt 2 12, 0⟩

/-! ### Elements -/

/-- Stored indices of logical element (r, c). -/
def Tensor.at (t : Tensor) (r c : Nat) : Nat × Nat := if t.tr then (c, r) else (r, c)

/-- Stored bits, scale code and mark of logical element (r, c) of batch element b. -/
def State.tensorRaw (s : State) (p : Nat) (t : Tensor) (b r c : Nat) : Nat × Nat × Bool :=
  let (i, j) := t.at r c
  let key (o : Nat) : Option Nat := s.addrKey p o
  let (w, q) := s.rdElem key t.f (t.rowAt b i) j
  let (sc, qs) := if t.f.isBlock then s.rdByte key (t.scaleAt b i + j / 32) else (0, false)
  (w, sc.toNat, q || qs)

/-- Its value. -/
def State.tensorVal (s : State) (p : Nat) (t : Tensor) (b r c : Nat) : Val × Bool :=
  let (w, sc, q) := s.tensorRaw p t b r c
  (t.f.value w sc, q)

/-- How results are rounded into a tensor (R249). -/
structure Rounding where
  md : Rnd
  nonsat : Bool
  key : Key

def Rounding.draw (r : Rounding) (i : Nat) : Nat := if r.md = .stoch then r.key.draw i else 0

/-- Convert and store the rectangle of logical rows r0 to r0 + rn − 1 and columns c0 to c0 + cn − 1 of batch element b:
blocks lie along the stored row (R36, R242). -/
def State.putRect (s : State) (p : Nat) (t : Tensor) (rd : Rounding) (b r0 rn c0 cn : Nat)
    (elem : Nat → Nat → Val × Bool) : State × Health :=
  let key (o : Nat) : Option Nat := s.addrKey p o
  let (i0, ni, j0, nj) := if t.tr then (c0, cn, r0, rn) else (r0, rn, c0, cn)
  let logical (i j : Nat) : Nat × Nat := if t.tr then (j, i) else (i, j)
  let index (i j : Nat) : Nat :=
    let (r, c) := logical i j
    (b * t.rows + r) * t.cols + c
  let rowOut (i : Nat) : List Cell × Health :=
    if t.f.isBlock then
      ((List.range (ceilDiv nj 32)).map (fun g =>
        let js := (List.range (min 32 (nj - 32 * g))).map (fun k => j0 + 32 * g + k)
        let es := js.map (fun j => elem (logical i j).1 (logical i j).2)
        let (sc, cs, h) := t.f.encodeBlock rd.md rd.nonsat (js.map (fun j => rd.draw (index i j))) (es.map Prod.fst)
        let q := es.any Prod.snd
        (cellsAt key (t.rowAt b i + (j0 / 32 + g) * t.f.blockBytes) (t.f.bytes (cs ++ List.replicate (32 - cs.length) 0)) q ++
          cellsAt key (t.scaleAt b i + j0 / 32 + g) [BitVec.ofNat 8 sc] q, h))).foldl
        (fun (cs, h) (c, k) => (cs ++ c, h.add k)) ([], Health.zero)
    else
      ((List.range nj).map (fun k =>
        let j := j0 + k
        let (v, q) := elem (logical i j).1 (logical i j).2
        let (w, h) := t.f.convert rd.md rd.nonsat (rd.draw (index i j)) v
        (cellsAt key (t.rowAt b i + j * t.f.elemBits / 8) (t.f.bytes [w]) q, h.add (outHealth t.f w)))).foldl
        (fun (cs, h) (c, k) => (cs ++ c, h.add k)) ([], Health.zero)
  let all := (List.range ni).map (fun k => rowOut (i0 + k))
  (s.store (all.map Prod.fst).flatten, (all.map Prod.snd).foldl Health.add .zero)

/-- Store raw element bits of a rectangle of a format that is not a block format (a move, R32). -/
def State.moveRect (s : State) (p : Nat) (t : Tensor) (b r0 rn c0 cn : Nat) (elem : Nat → Nat → Nat × Bool) : State :=
  let key (o : Nat) : Option Nat := s.addrKey p o
  s.store ((List.range rn).map (fun k => ((List.range cn).map (fun l =>
    let (i, j) := t.at (r0 + k) (c0 + l)
    let (w, q) := elem (r0 + k) (c0 + l)
    cellsAt key (t.rowAt b i + j * t.f.elemBits / 8) (t.f.bytes [w]) q)).flatten)).flatten

end Sys2Proof.Machine
end

