-- ==== Sys2Proof/Machine/Costs.lean ====
section
/-!
DEFINITION. What an output tile of a matrix operator costs (10 R247, R250, R251, R259): the passes, FILLs and drains of one
array, their mclk and the counts of its units.
-/
namespace Sys2Proof.Machine

/-- One piece of an array's work on an output tile. -/
inductive OpPiece where
  /-- a pass of rows from a row of its set on; load time of the stationary sets it swaps to, 0 where it swaps to none -/
  | pass (base rows load : Nat)
  | fill (rows : Nat)
  | drain (rows : Nat)
  deriving DecidableEq, Repr

/-- Progress of an array: next free issue mclk of its feeder and mclk of its drain unit's end; mclk from which a row r of a
pass may issue, less r, as the last FILL or drain has it (R104); last swap; rows issued; counts. -/
structure OpTime where
  feed : Nat := 0
  unit : Nat := 0
  fence : Nat := 0
  swap : Nat := 0
  begun : Bool := false
  busy : Nat := 0
  stationary : Nat := 0
  accPort : Nat := 0
  load : Nat := 0
  drains : Nat := 0
  deriving DecidableEq, Repr

/-- Issue time of a pass of M rows (R77). -/
def passTime (cls m : Nat) : Nat := match cls with | 0 => ceilDiv m 2 | 1 => m | 2 => 2 * m | _ => 6 * m

/-- The next piece. A split pass waits for its second set after sub-pass 1, and for the next pass's first after sub-pass 3
(R71, R77): `load` is the time of one set. The first set is staged before the output tile's span (R259). -/
def OpTime.next (cls : Nat) (t : OpTime) : OpPiece → OpTime
  | .fill n =>
    let s := max t.unit (if t.begun then t.feed + 10 else 0)
    { t with unit := s + 3 + n, fence := s + 4, drains := t.drains + 3 + n }
  | .drain n =>
    let s := max t.unit (if t.begun then t.feed + 10 else 0)
    { t with unit := s + 4 + n, fence := s + 2, drains := t.drains + 4 + n }
  | .pass base m load =>
    let p := passTime cls m
    -- the swap waits for the set; then the rows wait for the drain unit
    let ready := if load = 0 ∨ !t.begun then t.feed else max t.feed (t.swap + load)
    let go := max ready (t.fence + base)
    let mid := if cls = 3 ∧ load ≠ 0 then load - 2 * m else 0
    let stop := max (go + mid + p) (if cls = 0 ∧ t.fence ≠ 0 then t.fence + base + m else 0)
    { t with feed := stop, begun := true,
             swap := if load = 0 then t.swap else if cls = 3 then go + 2 * m + mid else go,
             busy := t.busy + p, stationary := t.stationary + (ready - t.feed) + mid,
             accPort := t.accPort + (go - ready) + (stop - (go + mid + p)),
             load := t.load + (if cls = 3 then 2 * load else load) }

/-- The time line of an array's work. -/
def opTimeline (cls : Nat) (ws : List OpPiece) : OpTime := ws.foldl (OpTime.next cls) {}

/-- The span from the first piece to the last written row of the final drain (R259). -/
def OpTime.cost (t : OpTime) : Nat := t.unit

/-- Load time of a full array's set, and of one pinnule's (R58, R66). -/
def setTime (cls : Nat) : Nat := match cls with | 0 => 32 | 1 => 64 | _ => 128

/-- The pieces of an array that has `strips` column strips of an output tile of MATMUL: rows of all strips in row sets of at
most the limit (R247, R250). A K-group has a FILL and a drain of its own; its rows go with those of the others (DESIGN
CHOICE, log 90). -/
def matPieces (p : Plan) (cls strips : Nat) (addend : Bool) : List OpPiece :=
  let g := groupsOf p.shape
  let limit := 1024 / g
  let hg := p.h / g
  let sets := (List.range (ceilDiv (hg * strips) limit)).map (fun c =>
    (List.range strips).filterMap (fun s =>
      let lo := max (c * limit) (s * hg)
      let hi := min ((c + 1) * limit) ((s + 1) * hg)
      if lo < hi then some (s, lo - c * limit, hi - lo) else none))
  let spill := decide (1 < sets.length)
  (List.range p.kb).flatMap (fun k =>
    let (_, ws) := sets.foldl (fun (cur, ws) set =>
      let rows := set.foldl (fun n x => n + x.2.2) 0
      let pre := if (k = 0 ∧ addend) ∨ (0 < k ∧ spill) then List.replicate g (OpPiece.fill rows) else []
      let (cur, ps) := set.foldl (fun (cur, ps) (s, b, m) =>
        (some s, ps ++ [OpPiece.pass b m (if cur = some s then 0 else setTime cls)])) (cur, ([] : List OpPiece))
      let post := if k + 1 = p.kb ∨ spill then List.replicate g (OpPiece.drain rows) else []
      (cur, ws ++ pre ++ ps ++ post)) ((none : Option Nat), ([] : List OpPiece))
    ws)

/-- The pieces of an array that holds `n` problems of MATMUL_GROUPED: rows in chunks of the pinnules' limit, each problem's
K blocks in passes of its pinnule (R251). -/
def groupPieces (p : Plan) (cls m n : Nat) (addend : Bool) : List OpPiece :=
  if n = 0 then []
  else
    let limit := 1024 / groupsOf p.shape
    let g := ceilDiv n (shapePins p.shape / groupsOf p.shape)
    let load := setTime cls / shapePins p.shape * n
    (List.range (ceilDiv m limit)).flatMap (fun c =>
      let rows := min limit (m - c * limit)
      (if addend then List.replicate g (OpPiece.fill rows) else []) ++
        (List.range p.kb).map (fun _ => OpPiece.pass 0 rows (if c = 0 ∨ 1 < p.kb then load else 0)) ++
        List.replicate g (OpPiece.drain rows))

/-- The time line of array `a` on output tile `i` of a matrix operator. -/
def arrayTime (arg : List Byte) (i a : Nat) : OpTime :=
  let p := matPlan arg
  match tensorOf arg 0, tensorOf arg 1 with
  | some x, some y =>
    let cls := (arrClass x.fmt).getD 1
    let addend := (tensorOf arg 3).isSome
    if aOp arg = 1 then
      let ni := i % ceilDiv y.cols (128 * p.ni)
      let cn := min (128 * p.ni) (y.cols - 128 * p.ni * ni)
      opTimeline cls (matPieces p cls ((ceilDiv cn 64 + 1 - a) / 2) addend)
    else
      let q := shapePins p.shape
      let b0 := i / ceilDiv y.cols (shapeN p.shape) * (2 * q)
      opTimeline cls (groupPieces p cls x.rows (min q (aBatch arg - b0 - a * q)) addend)
  | _, _ => {}

/-- Cost of an output tile: the larger of its two arrays'; of an operator without passes the spec gives none (R259). -/
def tileCost (arg : List Byte) (i : Nat) : Nat :=
  if aOp arg ≤ 2 then max (arrayTime arg i 0).cost (arrayTime arg i 1).cost else 0

/-- The counts of the arrays' units for an output tile that ends `late` mclk after its time: busy with the fill, stalls,
and STALL_OPERAND for what held the tile up beyond (R78, R259; DESIGN CHOICE, log 90). -/
def State.tileCounts (s : State) (bank tile : Nat) (arg : List Byte) (i late : Nat) : State :=
  if 2 < aOp arg then s
  else [0, 1].foldl (fun s a =>
    let t := arrayTime arg i a
    if !t.begun then s
    else
      let s := (((s.count bank (engTile tile a) 0 (t.busy + 10)).count bank (engTile tile a) 2 t.stationary).count bank
        (engTile tile a) 3 t.accPort).count bank (engTile tile a) 1 late
      (s.count bank (engTile tile (2 + a)) 0 t.load).count bank (engTile tile (4 + a)) 0 t.drains) s

end Sys2Proof.Machine
end

