-- ==== Sys2Proof/Machine/Results.lean ====
section
/-!
DEFINITION. The results of one output tile of an operator (10 R243, R246 to R251, R486): matrix products with their pinnule
faults, reductions, conversions, moves, chains, and the operators whose arithmetic order the spec does not state.
-/
namespace Sys2Proof.Machine

/-- What the output tiles of an operator share: partition, queue, command, block, job seed. -/
structure OpCtx where
  part : Nat
  q : Nat
  owner : Nat
  arg : List Byte
  seed : Nat
  /-- output tiles reported before -/
  done : List Nat := []

def OpCtx.op (c : OpCtx) : Nat := aOp c.arg
/-- Tensor i, which the checks found present. -/
def OpCtx.t (c : OpCtx) (i : Nat) : Tensor := (tensorOf c.arg i).getD ⟨0, 0, 0, false, 1, 1, 1⟩
/-- The key of a STOCH rounding (R249). -/
def OpCtx.key (c : OpCtx) (site seq : Nat) : Key :=
  { seed := c.seed, step := aStep c.arg, tensor := aTensor c.arg, site := site, seq := seq }
/-- Output conversions: site 0 and the header's SEQUENCE. -/
def OpCtx.rounding (c : OpCtx) : Rounding :=
  { md := aOut c.arg, nonsat := aNonsat c.arg, key := c.key 0 (aSeq c.arg) }

/-! ### Matrix operators (R246 to R251) -/

/-- Rows and columns of an output tile. -/
structure Region where
  /-- batch elements: one, or the problems of a grouped operator by array and pinnule -/
  b : Nat
  r0 : Nat
  rn : Nat
  c0 : Nat
  cn : Nat
  deriving DecidableEq, Repr

/-- Pinnule of an array by row of its H rows and by column of a strip (R74, R246). -/
def pinOf (p : Plan) (row col : Nat) : Nat :=
  match p.shape with
  | 0 => 0
  | 1 => col / 32
  | 2 => row / (p.h / 2) * 2 + col / 32
  | _ => row / (p.h / 4) * 4 + col / 16

/-- The region of output tile i of MATMUL. -/
def matRegion (c : OpCtx) (p : Plan) (i : Nat) : Region :=
  let m := (c.t 0).rows
  let n := (c.t 1).cols
  let im := ceilDiv m p.h
  let iN := ceilDiv n (128 * p.ni)
  let ni := i % iN
  let mi := i / iN % im
  { b := i / (iN * im), r0 := p.h * mi, rn := min p.h (m - p.h * mi), c0 := 128 * p.ni * ni,
    cn := min (128 * p.ni) (n - 128 * p.ni * ni) }

/-- Streaming values of row r in K block k, as a sub-pass feeds them; cells of column n (R71, R75). -/
def State.matRow (s : State) (c : OpCtx) (kw k sub b r : Nat) : List Val × Bool :=
  let t := c.t 0
  let es := (List.range (min kw (t.cols - k * kw))).map (fun j => s.tensorVal c.part t b r (k * kw + j))
  ((es.map (fun e => feedValue t.fmt sub e.1)) ++ List.replicate (kw - es.length) Val.zero, es.any Prod.snd)
def State.matCol (s : State) (c : OpCtx) (kw k sub b n : Nat) : List Val × Bool :=
  let t := c.t 1
  let es := (List.range (min kw (t.rows - k * kw))).map (fun j => s.tensorVal c.part t b (k * kw + j) n)
  ((es.map (fun e => cellValue t.fmt (if sub = 0 then 0 else 1) e.1)) ++ List.replicate (kw - es.length) Val.zero,
   es.any Prod.snd)

/-- The addend of an element in FP32 with its counts (R121, R248). -/
def State.addend (s : State) (c : OpCtx) (b r n : Nat) : Option (Nat × Bool × Health) :=
  (tensorOf c.arg 3).map (fun t =>
    let (w, sc, p) := s.tensorRaw c.part t b r n
    if t.f.isInt then let (x, h) := lay32.convert .rne true 0 (t.f.decode w); (x, p, h)
    else let (x, h) := toLane false t.f w sc; (x, p, h))

/-- FP32 bits of one element: K blocks ascending, OVERWRITE on block 0 or ACCUMULATE on the addend (R88, R248). -/
def State.matElement (s : State) (c : OpCtx) (p : Plan) (b r n : Nat) : Nat :=
  let cls := (arrClass (c.t 0).fmt).getD 1
  let kw := shapeK p.shape
  let subs := if cls = 3 then [0, 1, 2] else [0]
  let idx := (b * (c.t 0).rows + r) * (c.t 1).cols + n
  let first : Option Nat := (s.addend c b r n).map (fun x => x.1)
  let pass (acc : Option Nat) (k sub : Nat) : Option Nat :=
    let sum := columnSum cls (decide (cls = 3) && decide (sub < 2)) ((s.matRow c kw k sub b r).1.map some)
      (s.matCol c kw k sub b n).1
    let draw := if aRnd c.arg = .stoch then (c.key 1 (k % 256)).draw idx else 0
    match acc with
    | none => some (to32 (aRnd c.arg) draw sum)
    | some w => some (to32 (aRnd c.arg) draw (Val.add sum (lay32.decode w)))
  ((List.range p.kb).foldl (fun a k => subs.foldl (fun a sub => pass a k sub) a) first).getD 0

/-- The pinnule fault of a group of rows and columns of one batch element: poison in a row's streaming data, or in a
column's stationary data (R79, R80). Rows from the fault on, in the chunks given, are lost. -/
def State.rowMarked (s : State) (c : OpCtx) (b r : Nat) : Bool :=
  let t := c.t 0
  (List.range t.cols).any (fun k => (s.tensorVal c.part t b r k).2)
def State.colMarked (s : State) (c : OpCtx) (b n : Nat) : Bool :=
  let t := c.t 1
  (List.range t.rows).any (fun k => (s.tensorVal c.part t b k n).2)

/-- The addend's mark on an element: its 16-column segment's (R85). -/
def State.addendMarked (s : State) (c : OpCtx) (b r n n1 : Nat) : Bool :=
  (List.range 16).any (fun j =>
    let m := n / 16 * 16 + j
    decide (m < n1) && (match s.addend c b r m with | some (_, p, _) => p | none => false))

/-- Convert and store a matrix result; a row set that a fault struck takes free values with marks. `dead r n`: the
element is lost. Columns c0 to c0 + cn − 1 are stored: those of the region or, of blocks that two output tiles share, both
tiles'. -/
def State.matStore (s : State) (c : OpCtx) (p : Plan) (g : Region) (c0 cn : Nat) (dead : Nat → Nat → Bool) :
    State × Health :=
  let t := c.t 2
  let n1 := (c.t 1).cols
  let f0 := s.freeN
  let word (r n : Nat) : Nat × Bool :=
    if dead r n then ((Config.free (f0 + (r - g.r0) * cn + (n - c0))).toNat % 2 ^ 32, true)
    else (s.matElement c p g.b r n, s.addendMarked c g.b r n n1)
  let el (r n : Nat) : Val × Bool := let (w, q) := word r n; (lay32.decode w, q)
  let hin := (List.range g.rn).foldl (fun h i => (List.range g.cn).foldl (fun h j =>
    let h := match s.addend c g.b (g.r0 + i) (g.c0 + j) with | some (_, _, k) => h.add k | none => h
    h.add (inHealth (el (g.r0 + i) (g.c0 + j)).1)) h) Health.zero
  let (s, h) := ({ s with freeN := s.freeN + g.rn * cn }).putRect c.part t c.rounding g.b g.r0 g.rn c0 cn el
  (s, hin.add h)

/-- Report pinnule faults of an output tile: array, pinnule and tag of each (R243, R251, R305). -/
def State.opFaults (s : State) (c : OpCtx) (tile : Nat) (fs : List (Nat × Nat × Nat)) : State :=
  fs.foldl (fun s (a, pn, tag) =>
    let d := s.localTile tile + a * 2 ^ 11 + pn * 2 ^ 12 + tag % 2 ^ 16 * 2 ^ 16
    let s := s.modBank (s.bankOf c.q) (fun b => b.addFault d)
    let s := s.earnOn c.q c.owner ⟨stPinnule, d, 1⟩
    s.traceEv (srcTile tile) a 0x0A 5 d) s

/-- Strip, column within it, and row within the output tile decide array and pinnule. -/
def matPin (p : Plan) (g : Region) (r n : Nat) : Nat × Nat :=
  let j := (n - g.c0) / 64
  (j % 2, pinOf p (r - g.r0) ((n - g.c0) % 64))

/-- The stationary set of a pinnule's columns from n0 on after the last K block: cells and mark (R65, R247, R248). -/
def State.lastSet (s : State) (c : OpCtx) (p : Plan) (b n0 : Nat) : List Val × Bool :=
  let kw := shapeK p.shape
  let nw := shapeN p.shape
  let cols := (List.range nw).map (fun j =>
    if n0 + j < (c.t 1).cols then s.matCol c kw (p.kb - 1) 2 b (n0 + j) else (List.replicate kw Val.zero, false))
  ((List.range (kw * nw)).map (fun e => ((cols.getD (e % nw) ([], false)).1).getD (e / nw) .zero), cols.any Prod.snd)

/-- The sets that the pinnules of array `a` keep from an output tile of MATMUL: those of its last strip. -/
def State.matSets (s : State) (c : OpCtx) (p : Plan) (g : Region) (a : Nat) : List (Nat × Nat × List Val × Bool) :=
  let strips := (ceilDiv g.cn 64 + 1 - a) / 2
  if strips = 0 then []
  else
    let n0 := g.c0 + 64 * (2 * (strips - 1) + a)
    (List.range (shapePins p.shape)).map (fun pn => (a, pn, s.lastSet c p g.b (n0 + pinCol p.shape pn)))

/-- Arrays after an output tile: shape and class, the last sets active, the rest as it stood (R65, R76, R80). -/
def State.leaveSets (s : State) (tile : Nat) (p : Plan) (cls : Nat) (l : List (Nat × Nat × List Val × Bool)) : State :=
  l.foldl (fun s (a, pn, cells, bad) => s.modArr tile a (fun x =>
    let y := Tbl.get {} x.pins pn
    { x with shape := p.shape, cls := cls, lastIssue := s.mclk,
             pins := Tbl.set {} x.pins pn { y with
               active := { shape := p.shape, cls := cls, part := b01 (cls == 3), cells := cells, poison := bad },
               shadow := { cells := y.active.cells } } })) s

/-- Output tile i of MATMUL. The spec gives a MATMUL pass no problem tag: a free value. -/
def State.matTile (s : State) (c : OpCtx) (tile i : Nat) : State :=
  let p := matPlan c.arg
  let g := matRegion c p i
  let rows := (List.range g.rn).map (fun j => g.r0 + j)
  let cols := (List.range g.cn).map (fun j => g.c0 + j)
  let badRows := rows.filter (s.rowMarked c g.b)
  let badCols := cols.filter (s.colMarked c g.b)
  let hit := ((badRows.map (fun r => cols.map (matPin p g r))).flatten ++
    (badCols.map (fun n => rows.map (fun r => matPin p g r n))).flatten).eraseDups
  let order := hit.mergeSort (fun x y => decide (x.1 * 16 + x.2 ≤ y.1 * 16 + y.2))
  let tags := (List.range order.length).map (fun k => (Config.free (s.freeN + k)).toNat)
  let s := { s with freeN := s.freeN + order.length }
  let dead (r n : Nat) : Bool := decide (g.c0 ≤ n) && hit.contains (matPin p g r n)
  let sets := [0, 1].flatMap (fun a => s.matSets c p g a)
  let (s, h) := s.matStore c p g g.c0 g.cn dead
  let strips := ceilDiv g.cn 64
  let spill := if p.sets ≤ 1 then 0
    else 2 * p.sets * (p.kb - 1) * (b01 (decide (0 < strips)) + b01 (decide (1 < strips)))
  let s := (s.health (s.bankOf c.q) h).modBank (s.bankOf c.q) (fun b => { b with spill := satAdd 48 b.spill spill })
  (s.leaveSets tile p ((arrClass (c.t 0).fmt).getD 1) sets).opFaults c tile ((order.zip tags).map (fun (x, t) => (x.1, x.2, t)))

/-- Output tile i of MATMUL_GROUPED: 2q problems, one pinnule each, at one column block (R251). Rows pass in chunks of
the pinnule's row limit; a fault leaves the chunks already drained. Where two column blocks share the blocks of a block
format, the output tile reported last writes both (R258; DESIGN CHOICE, log 91). -/
def State.groupTile (s : State) (c : OpCtx) (tile i : Nat) : State :=
  let p := matPlan c.arg
  let n := (c.t 1).cols
  let blocks := ceilDiv n (shapeN p.shape)
  let q := shapePins p.shape
  let c0 := i % blocks * shapeN p.shape
  let chunk := 1024 / groupsOf p.shape
  let other := i / blocks * blocks + (i % blocks + 1 - 2 * (i % blocks % 2))
  let shared := (c.t 2).f.isBlock && !(c.t 2).tr && shapeN p.shape == 16 && decide (other / blocks = i / blocks)
  let fault (b at' : Nat) : Option Nat :=
    if (List.range (min (shapeN p.shape) (n - at'))).any (fun k => s.colMarked c b (at' + k)) then some 0
    else ((List.range (c.t 0).rows).find? (s.rowMarked c b)).map (fun r => r / chunk * chunk)
  let sets := (List.range (2 * q)).filterMap (fun j =>
    let b := i / blocks * (2 * q) + j
    if aBatch c.arg ≤ b then none else some (j / q, j % q, s.lastSet c p b c0))
  let s := (List.range (2 * q)).foldl (fun s j =>
    let b := i / blocks * (2 * q) + j
    if aBatch c.arg ≤ b then s
    else
      let g : Region := { b := b, r0 := 0, rn := (c.t 0).rows, c0 := c0, cn := min (shapeN p.shape) (n - c0) }
      let from' := fault b c0
      let dead (r m : Nat) : Bool :=
        match (if shared then fault b (m / 16 * 16) else from') with | some x => decide (x ≤ r) | none => false
      let s :=
        if !shared then
          let (s, h) := s.matStore c p g c0 g.cn dead
          s.health (s.bankOf c.q) h
        else if c.done.contains other then
          let lo := c0 / 32 * 32
          let (s, h) := s.matStore c p { g with c0 := lo, cn := min 32 (n - lo) } lo (min 32 (n - lo)) dead
          s.health (s.bankOf c.q) h
        else s
      if from'.isSome then s.opFaults c tile [(j / q, j % q, aParam c.arg 0 % 65536 + b)] else s) s
  s.leaveSets tile p ((arrClass (c.t 0).fmt).getD 1) sets

/-! ### Vector operators (R243) -/

/-- Combine neighbours: lanes 2i and 2i + 1, a last lane alone passing on (R125). -/
def pairUp {α : Type} (f : α → α → α) : List α → List α
  | a :: b :: t => f a b :: pairUp f t
  | l => l
def treeFold {α : Type} (f : α → α → α) : Nat → List α → Option α
  | 0, l => l.head?
  | n + 1, l => treeFold f n (pairUp f l)

/-- A run of level 0 over 64-lane beats: the first beat's result becomes the carry (R125). -/
def runFold {α : Type} (f : α → α → α) : Nat → Option α → List α → Option α
  | 0, c, _ => c
  | n + 1, c, l =>
    if l.isEmpty then c
    else
      let b := treeFold f 6 (l.take 64)
      runFold f n (match c, b with | some x, some y => some (f x y) | none, y => y | x, none => x) (l.drop 64)

/-- One operation of REDUCE on lane bits, poison and counts. -/
def redOp (op : Nat) (int : Bool) (md : Rnd) (draw : Nat) (a b : Nat × Bool × Health) : Nat × Bool × Health :=
  let p := a.2.1 || b.2.1
  let h := a.2.2.add b.2.2
  if int then (intOp (if op = 1 then 0x14 else if op = 2 then 0x13 else 0x10) 32 a.1 b.1, p, h)
  else
    let x := lay32.decode a.1
    let y := lay32.decode b.1
    let v := if op = 1 then Val.max x y else if op = 2 then Val.min x y else Val.add x y
    let (w, k) := lay32.convert md true draw v
    (w, p, h.add k)

/-- REDUCE: output tile i covers rows 64 i on; the value of row r is element (r, 0) or (0, r) of the result. -/
def State.reduceTile (s : State) (c : OpCtx) (b r0 rn : Nat) : State × Bool :=
  let x := c.t 0
  let y := c.t 1
  let flat := decide (y.cols = x.rows) && !decide (y.cols = 1)
  let row (r : Nat) : Nat × Bool × Health :=
    let idx := b * x.rows + r
    let draw := if aRnd c.arg = .stoch then (c.key 1 (aSeq c.arg)).draw idx else 0
    let lanes := (List.range x.cols).map (fun j =>
      let (w, sc, p) := s.tensorRaw c.part x b r j
      let (l, h) := toLane false x.f w sc
      (l, p, h))
    (runFold (redOp (aParam c.arg 1) x.f.isInt (aRnd c.arg) draw) (ceilDiv x.cols 64) none lanes).getD (0, false, .zero)
  let res := (List.range rn).map (fun k => row (r0 + k))
  let el (r n : Nat) : Val × Bool :=
    let (w, p, _) := res.getD ((if flat then n else r) - r0) (0, false, .zero)
    (if x.f.isInt then Fmt.int32.decode w else lay32.decode w, p)
  let (s, h) := if flat then s.putRect c.part y c.rounding b 0 1 r0 rn el
    else s.putRect c.part y c.rounding b r0 rn 0 1 el
  let h := res.foldl (fun h r => h.add r.2.2) h
  (s.health (s.bankOf c.q) h, res.any (fun r => r.2.1))

/-- Convert or move a rectangle of the result: `src r n` names the element of T0 it takes, none for +0 (R243). -/
def State.convertRect (s : State) (c : OpCtx) (y : Tensor) (b r0 rn c0 cn : Nat)
    (src : Nat → Nat → Option (Nat × Nat)) (mark : Nat → Bool) : State × Bool :=
  let x := c.t 0
  let bad := (List.range rn).any (fun i => (List.range cn).any (fun j =>
    mark (r0 + i) || (match src (r0 + i) (c0 + j) with
      | some (r, n) => (s.tensorRaw c.part x b r n).2.2 | none => false)))
  if x.fmt = y.fmt ∧ !x.f.isBlock then
    (s.moveRect c.part y b r0 rn c0 cn (fun r n =>
      match src r n with
      | some (i, j) => let (w, _, p) := s.tensorRaw c.part x b i j; (w, p || mark r)
      | none => (0, mark r)), bad)
  else
    let el (r n : Nat) : Val × Bool :=
      match src r n with
      | some (i, j) => let (v, p) := s.tensorVal c.part x b i j; (v, p || mark r)
      | none => (.zero, mark r)
    let hin := (List.range rn).foldl (fun h i => (List.range cn).foldl (fun h j =>
      h.add (inHealth (el (r0 + i) (c0 + j)).1)) h) Health.zero
    let (s, h) := s.putRect c.part y c.rounding b r0 rn c0 cn el
    (s.health (s.bankOf c.q) (hin.add h), bad)

/-- Copy rows of a block format to rows r0 on, bit for bit; `src r`: the source row, none for +0 (R243). -/
def State.copyBlocks (s : State) (c : OpCtx) (y : Tensor) (b r0 rn : Nat) (src : Nat → Option Nat) (mark : Nat → Bool) :
    State × Bool :=
  let x := c.t 0
  let key (o : Nat) : Option Nat := s.addrKey c.part o
  let nb := ceilDiv x.cols 32
  let w := x.f.blockBytes
  let zero := x.f.encodeBlock c.rounding.md c.rounding.nonsat (List.replicate 32 0) (List.replicate 32 .zero)
  let one (r g : Nat) : List Cell × Bool :=
    let (es, sc, q) := match src r with
      | none => (x.f.bytes zero.2.1, BitVec.ofNat 8 zero.1, mark r)
      | some i =>
        let e := (List.range w).map (fun k => s.rdByte key (x.rowAt b i + g * w + k))
        let k := s.rdByte key (x.scaleAt b i + g)
        (e.map Prod.fst, k.1, mark r || k.2 || e.any Prod.snd)
    (cellsAt key (y.rowAt b r + g * w) es q ++ cellsAt key (y.scaleAt b r + g) [sc] q, q)
  let all := (List.range rn).flatMap (fun k => (List.range nb).map (one (r0 + k)))
  (s.store (all.flatMap Prod.fst), all.any Prod.snd)

/-- GATHER_ROWS: output tile i covers result rows 64 i on, the last one all that remain. -/
def State.gatherTile (s : State) (c : OpCtx) (b r0 rn : Nat) : State × Bool :=
  let x := c.t 0
  let y := c.t 2
  let index (r : Nat) : Nat × Bool := let (w, _, p) := s.tensorRaw c.part (c.t 1) b 0 r; (w, p)
  let out (r : Nat) : Bool := let (w, _) := index r; decide (signed 32 w < 0) || decide (x.rows ≤ w)
  let rows := (List.range rn).map (fun k => r0 + k)
  let clamps := (rows.filter out).length
  let mark (r : Nat) : Bool := (index r).2
  let (s', bad) :=
    if x.fmt = y.fmt ∧ x.f.isBlock ∧ !x.tr ∧ !y.tr then
      s.copyBlocks c y b r0 rn (fun r => if out r then none else some (index r).1) mark
    else s.convertRect c y b r0 rn 0 y.cols (fun r n => if out r then none else some ((index r).1, n)) mark
  (s'.health (s'.bankOf c.q) { Health.zero with sat := clamps }, bad)

/-! ### Operators of unstated order -/

/-- The operand bytes that row r of a result depends on: that row of T0, and every tensor that is neither T0 nor a result
(R258). -/
def State.operandBytes (s : State) (c : OpCtx) (b r : Nat) : List Byte :=
  let x := c.t 0
  (List.range x.cols).flatMap (fun n =>
    let (w, sc, _) := s.tensorRaw c.part x b r n
    leBytes 4 w ++ leBytes 1 sc) ++
  [1, 2].flatMap (fun i =>
    match tensorOf c.arg i with
    | none => []
    | some t =>
      if i = resultIndex c.op then []
      else
        let (e, k) := t.extent (aBatch c.arg)
        s.rdAt c.part t.addr e ++ (if t.f.isBlock then s.rdAt c.part t.scale k else []))

/-- Store stored rows i0 to i0 + n − 1 of a tensor with bytes that the spec does not state; `mark i`: row i is marked. -/
def State.openRows (s : State) (c : OpCtx) (t : Tensor) (base b i0 n : Nat) (mark : Nat → Bool) : State :=
  let key (o : Nat) : Option Nat := s.addrKey c.part o
  s.store (((List.range n).map (fun j =>
    let i := i0 + j
    let len := t.stored.2
    let w := if t.f.isBlock then ceilDiv len 32 * t.f.blockBytes else len * t.f.elemBits / 8
    let g := if t.f.isBlock then ceilDiv len 32 else 0
    let at' := (b * t.stored.1 + i) * (w + g)
    let ops := s.operandBytes c b i
    let byte (k : Nat) : Byte := Config.operator c.arg ops (BitVec.ofNat 64 c.seed) (base + k)
    cellsAt key (t.rowAt b i) ((List.range w).map (fun k => byte (at' + k))) (mark i) ++
      cellsAt key (t.scaleAt b i) ((List.range g).map (fun k => byte (at' + w + k))) (mark i))).flatten)

/-- The health counts of such a tile: NAN_OUT and INF_OUT as written in a plain format, the rest free. -/
def State.openHealth (s : State) (c : OpCtx) (t : Tensor) (b r0 rn : Nat) : State :=
  let f (k : Nat) : Nat := (Config.free (s.freeN + k)).toNat % 2 ^ 32
  let h : Health := { nanIn := f 0, nanOut := f 1, infOut := f 2, sat := f 3, flush := f 4 }
  let seen := (List.range rn).foldl (fun h i => (List.range t.cols).foldl (fun h j =>
    h.add (outHealth t.f (s.tensorRaw c.part t b (r0 + i) j).1)) h) Health.zero
  let h := if t.f.isBlock then h else { h with nanOut := seen.nanOut, infOut := seen.infOut }
  ({ s with freeN := s.freeN + 5 }).health (s.bankOf c.q) h

/-- Logical rows r0 to r0 + n − 1 of the result of NORM, SOFTMAX and ATTENTION. A transposed result holds them as columns:
every stored row is written, its other elements as they stood. -/
def State.openTile (s : State) (c : OpCtx) (t : Tensor) (base b r0 rn : Nat) (mark : Nat → Bool) : State :=
  if t.tr then
    let n := t.f.elemBits / 8
    let el (r j : Nat) : Nat × Bool :=
      let o := base + ((b * t.rows + r) * t.cols + j) * n
      (leNat ((List.range n).map (fun k =>
        Config.operator c.arg (s.operandBytes c b r) (BitVec.ofNat 64 c.seed) (o + k))), mark r)
    if t.f.isBlock then
      let e32 (r j : Nat) : Val × Bool :=
        let o := base + ((b * t.rows + r) * t.cols + j) * 4
        (lay32.decode (leNat ((List.range 4).map (fun k =>
          Config.operator c.arg (s.operandBytes c b r) (BitVec.ofNat 64 c.seed) (o + k)))), mark r)
      (s.putRect c.part t c.rounding b r0 rn 0 t.cols e32).1
    else s.moveRect c.part t b r0 rn 0 t.cols el
  else s.openRows c t base b r0 rn mark

/-- NORM and SOFTMAX rows: poison in the row, or in gain and bias, marks the row (R139). -/
def State.rowOpTile (s : State) (c : OpCtx) (b r0 rn : Nat) : State × Bool :=
  let x := c.t 0
  let side := c.op == 4 && [1, 2].any (fun i => match tensorOf c.arg i with
    | some t => (List.range t.rows).any (fun r => (List.range t.cols).any (fun n => (s.tensorRaw c.part t 0 r n).2.2))
    | none => false)
  let mark (r : Nat) : Bool := side || (List.range x.cols).any (fun n => (s.tensorRaw c.part x b r n).2.2)
  let y := c.t (resultIndex c.op)
  let bad := (List.range rn).any (fun k => mark (r0 + k))
  ((s.openTile c y 0 b r0 rn mark).openHealth c y b r0 rn, bad)

/-- ATTENTION: output tile i is one head by 1,024 query rows. Poison that an array reads faults its pinnules: which ones
follows from a placement the spec does not give. -/
def State.attendTile (s : State) (c : OpCtx) (tile b r0 rn : Nat) : State :=
  let marked (t : Tensor) (r : Nat) : Bool := (List.range t.cols).any (fun n => (s.tensorRaw c.part t b r n).2.2)
  let kv := (List.range (c.t 1).rows).any (fun r => marked (c.t 1) r || marked (c.t 2) r)
  let mark (r : Nat) : Bool := kv || marked (c.t 0) r
  let bad := (List.range rn).any (fun k => mark (r0 + k))
  let o := c.t 3
  let s := (s.openTile c o 0 b r0 rn mark).openHealth c o b r0 rn
  let s := match tensorOf c.arg 4 with
    | some t => s.openTile c t (2 ^ 60) b r0 (min rn (t.rows - r0)) mark
    | none => s
  if bad then
    let f (k : Nat) : Nat := (Config.free (s.freeN + k)).toNat
    ({ s with freeN := s.freeN + 3 }).opFaults c tile [(f 0 % 2, f 1 % 16, f 2)]
  else s

/-! ### CHAIN (R486) -/

/-- The descriptor as firmware runs it: roundings keyed by the header's TENSOR_ID and SEQUENCE (R249). -/
def opChain (c : OpCtx) (d : List Byte) : List Byte :=
  let h := setBits (setBits (fld d 0 32) 8 8 (aSeq c.arg)) 16 32 (aTensor c.arg)
  leBytes 32 h ++ d.drop 32

/-- Ibketha's table of a LUT function (R136). -/
def tableOf : Nat → Nat
  | 0 => tabExp2 | 1 => tabLog2 | 2 => tabRecip | 3 => tabRsqrt | 6 => tabGelu | 7 | 8 => tabSincos | _ => 0

/-- The table of LUT stage i of a chain: the one kept, Ibketha's, or what the operand cache holds for CUSTOM (R133). -/
def State.opTable (s : State) (tile : Nat) (d : List Byte) (i : Nat) : Nat :=
  match ((List.range (vStages d)).filter (fun e => xKind (vEntry d e) == 3))[i]? with
  | none => 0
  | some e =>
    let x := vEntry d e
    if xKeep x then (if i = 0 then (s.tile tile).ve.lut0 else (s.tile tile).ve.lut1)
    else if xOp x = 9 then leNat ((List.range 784).map (fun o => (s.rdByte (s.tileKey tile 0 true) (xOc x + o)).1))
    else tableOf (xOp x)

/-- The environment of the invocation of output tile (b, rows i0 to i0 + n − 1). -/
def State.opEnv (s : State) (c : OpCtx) (tile : Nat) (d : List Byte) (b i0 n : Nat) : ChainEnv :=
  let bound := boundStages d
  let tens (e : Nat) : Tensor := c.t ((bound.findIdx (fun x => x == e)) + 1)
  let isT (e : Nat) : Bool := xSpace (vEntry d e) == 2
  let t1 := c.t 1
  let w := if v16 d then 128 else 64
  let len := t1.stored.2
  let order (e : Nat) : Nat :=
    ((List.range e).filter (fun k => xKind (vEntry d k) == 1 || xKind (vEntry d k) == 8)).length
  { w := w,
    key := fun e off => if isT e then s.addrKey c.part off else s.tileKey tile 0 (xSpace (vEntry d e) == 1) off,
    scaleKey := fun e off => if isT e then s.addrKey c.part off else s.tileKey tile 0 (xSpace (vEntry d e) == 1) off,
    cacheKey := fun off => s.tileKey tile 0 true off,
    row := fun e i1 i2 i3 =>
      if isT e then ((tens e).rowAt b (i0 + i1) : Nat)
      else
        let x := vEntry d e
        (xBase x : Int) + (i1 : Int) * xStride x 1 + (i2 : Int) * xStride x 2 + (i3 : Int) * xStride x 3,
    scaleRow := fun e i1 _ _ =>
      if isT e then ((tens e).scaleAt b (i0 + i1) : Nat)
      else
        let x := vEntry d e
        (vScale d (order e) : Int) + (i1 : Int) * xStride x 1 / ((xStored x).blockBytes : Int),
    logical := fun j i1 _ _ =>
      let (r, k) := if t1.tr then (j, i0 + i1) else (i0 + i1, j)
      (b * t1.rows + r) * t1.cols + k,
    stream := fun _ => false, bank := id, word := fun _ _ => none,
    seed := c.seed, step := aStep c.arg, seq := 0,
    lut0 := s.opTable tile d 0, lut1 := s.opTable tile d 1,
    len0 := len, slots := ceilDiv len w * n, beats := ceilDiv len w, n1 := n, n2 := 1 }

/-- Output tile of CHAIN. -/
def State.chainTile (s : State) (c : OpCtx) (tile b i0 n : Nat) : State × Bool :=
  let d := opChain c (s.rdAt c.part (c.t 0).addr 256)
  let v := runChain s (s.opEnv c tile d b i0 n) d
  let luts := (List.range (vStages d)).filter (fun e => xKind (vEntry d e) == 3)
  let copied (i : Nat) : Bool := match luts[i]? with | some e => xCopies (vEntry d e) | none => false
  let keep := v.s.modVec tile (fun x =>
    { x with lut0 := if copied 0 then s.opTable tile d 0 else x.lut0, lut1 := if copied 1 then s.opTable tile d 1 else x.lut1 })
  let v := { v with s := keep }
  let s := v.s.health (v.s.bankOf c.q) v.health
  let s := if (vCompress d).isSome then s.modVec tile (fun x => { x with popcnt := BitVec.ofNat 32 v.kept }) else s
  (s, v.poisoned)

/-! ### One output tile -/

/-- Form and write the results of output tile i on a tile; data a vector stage stored from poison earns POISON_CONSUMED. -/
def State.outputTile (s : State) (c : OpCtx) (tile i : Nat) : State :=
  let cut := if c.op = 3 then 1024 else 64
  let rows := vectorRows c.arg
  let per := ceilDiv rows cut
  let b := i / per
  let r0 := i % per * cut
  let rn := min cut (rows - r0)
  let after (x : State × Bool) : State := if x.2 then x.1.poisonOn c.q c.owner (x.1.localTile tile) else x.1
  match c.op with
  | 1 => s.matTile c tile i
  | 2 => s.groupTile c tile i
  | 3 => s.attendTile c tile b r0 rn
  | 4 | 5 => after (s.rowOpTile c b r0 rn)
  | 6 => after (s.reduceTile c b r0 rn)
  | 7 => after (s.convertRect c (c.t 1) b r0 rn 0 (c.t 1).cols (fun r n => some (r, n)) (fun _ => false))
  | 8 =>
    let n := (c.t 2).rows
    let k := if i % per + 1 = per then n - r0 else min 64 (n - r0)
    after (s.gatherTile c b r0 k)
  | 9 => after (s.convertRect c (c.t 1) b 0 (c.t 1).rows r0 rn (fun r n => some (n, r)) (fun _ => false))
  | _ => after (s.chainTile c tile b r0 rn)

end Sys2Proof.Machine
end

