-- ==== Sys2Proof/Machine/Operators.lean ====
section
/-!
DEFINITION. Operators (10 R240, R244, R252 to R259; 07 R192): OP, OPERATOR_START, WORK_COUNTER_TAKE,
OUTPUT_TILE_COMPLETE.
-/
namespace Sys2Proof.Machine

def State.onOp (s : State) (id : Nat) (f : OpRun → OpRun) : State :=
  s.modWork (fun w => { w with ops := updWhere (fun o => o.id == id) f w.ops })

/-- The grant memory stands open from the start until every selected tile has had a grant of items or more (R254). -/
def OpRun.holds (o : OpRun) : Bool := o.start.isSome && decide (o.ended.length < o.tiles.length)

/-- The counter already has an open grant memory (R252). -/
def State.counterHeld (s : State) (obj : Nat) : Bool := s.work.ops.any (fun o => o.holds && o.obj == obj)

def counterConflict (a : List Byte) : Earned := ⟨stConflict, conflictAt 5 (aCounter a), 0⟩

/-! ### OP -/

def State.opBody (s : State) (q id : Nat) (b : List Byte) : Except Earned State :=
  let p := (s.queue q).part.toNat
  let a := s.rdAt p (cAddr b 16) 256
  match s.opBad q a with
  | some e => .error e
  | none =>
    let obj := s.physObj p (aCounter a)
    if s.counterHeld obj then .error (counterConflict a)
    else
      let (n, s) := s.fresh
      let o : OpRun := { id := n, owner := id, q := q, part := p, arg := a, obj := obj, items := itemsOf a, want := 0 }
      .ok (s.modWork (fun w => { w with ops := w.ops ++ [o] }))

def execOp (q : Nat) (s : State) : Host.Outcome State Fault Refusal :=
  .next (s.dispatch q 0x20 (fun s id b => s.opBody q id b))

/-! ### Selection (R244, R245) -/

/-- Free tiles of a partition: listed, unclaimed, without an operator. -/
def State.freeTiles (s : State) (p : Nat) : List Nat :=
  (s.size p).tiles.filter (fun t => !(s.tile t).claimed && (s.tile t).op.isNone)

/-- One round over the dies: the lowest tile of each. -/
def oneRound (dies : List Nat) (ts : List Nat) : List Nat :=
  dies.filterMap (fun d => (ts.filter (fun t => t / 144 == d)).foldl (fun a t => match a with
    | none => some t | some x => some (min x t)) none)

/-- Round-robin over dies, lowest free index of each first. -/
def roundRobin (dies : List Nat) : Nat → List Nat → List Nat
  | 0, _ => []
  | n + 1, ts =>
    let r := oneRound dies ts
    if r.isEmpty then [] else r ++ roundRobin dies n (ts.filter (fun t => !(r.contains t)))

/-- The scratch of a tile reads as values, and carries marks, that the spec does not state: what is listed leaves memory
(R240). -/
def State.loseScratch (s : State) (t : Nat) : State :=
  let mine (k : Nat) : Bool := decide (tileRegion ≤ k) && decide (k < stagingRegion) && keyTile k == t
  { s with mem := Tbl.keep (fun k => !mine k) s.mem, scratch := Tbl.put s.scratch t (s.freeN + 1),
           poison := s.poison.filter (fun u => !mine (64 * u)), freeN := s.freeN + 2 ^ 23 + 2 ^ 17 }

/-! ### Takes (R252 to R254) -/

/-- A take at the grant memory of an operator: the value returned, and the state after it. -/
def State.take1 (s : State) (o : OpRun) (req seq : Nat) : Nat × State :=
  let kept := Tbl.find o.kept req
  let same := match kept with | some (q, _) => decide (q = seq) | none => false
  let (v, s) :=
    if same then ((kept.getD (0, 0)).2, s)
    else if o.stopping ∨ (s.obj o.obj).type ≠ 0 then (o.items, s)
    else ((s.obj o.obj).value.toNat, s.syncOp o.obj 5 1)
  let t := s.physTile o.part req
  (v, s.onOp o.id (fun o =>
    let o := { o with kept := Tbl.put o.kept req (seq, v) }
    if same then o
    else if v < o.items then { o with grants := o.grants ++ [(v, req)] }
    else { o with ended := setIns o.ended t }))

/-- A tile takes by its local index. -/
def execWorkCounterTake (obj requester seq : Nat) (s : State) : Host.Outcome State Fault Refusal :=
  .next (s.unlessHalted (fun s =>
    match s.work.ops.find? (fun o => o.holds && o.obj == obj) with
    | none => s
    | some o =>
      if !o.tiles.contains (s.physTile o.part requester) || decide (65535 < seq) then s
      else
        let (v, s) := s.take1 o requester seq
        s.reply { kind := 3, value := v }))

/-! ### Start -/

/-- The first operator of a partition that has not started, in dispatch order. -/
def State.nextOp (s : State) (p : Nat) : Option OpRun := s.work.ops.find? (fun o => o.part == p && o.start.isNone)

/-- The tiles selected for an operator, in ascending order (R244). -/
def State.opTiles (s : State) (o : OpRun) : List Nat :=
  let free := s.freeTiles o.part
  let f := free.length
  let want := min (min f (itemsOf o.arg)) (if aMax o.arg = 0 then f else aMax o.arg)
  let dies := (List.range s.nDies).map (fun d => s.firstDie o.part + d)
  ((roundRobin dies f free).take want).foldl setIns []

/-- The start: tiles selected, counter 0, first takes in ascending order, S (R244, R252, R254). -/
def State.opStart (s : State) (o : OpRun) : State :=
  let items := itemsOf o.arg
  let ts := s.opTiles o
  let want := ts.length
  let s := s.syncOp o.obj 6 0
  let s := ts.foldl (fun s t => (s.modTile t (fun x => { x with op := some o.id })).loseScratch t) s
  let m := s.mclk
  let b := s.bank (s.bankOf o.q)
  let s := s.onOp o.id (fun x =>
    { x with start := some m, tiles := ts, items := items, want := want, base := b.totals (tileEngines ts),
             baseBy := s.causeBy o.part, coverAt := s.counted o.part,
             finish := ts.foldl (fun f t => Tbl.put f t m) [] })
  let s := if o.stage.isNone then s.startAt o.q o.owner m else s
  let s := s.traceCmd o.q o.owner (ts.map srcTile) 0x01 0
  ts.foldl (fun s t =>
    match s.work.ops.find? (fun x => x.id == o.id) with
    | some x => (s.take1 x (s.localTile t) 0).2
    | none => s) s

/-- Drop an operator and end its command. -/
def State.dropOp (s : State) (o : OpRun) (e : Earned) : State :=
  (s.modWork (fun w => { w with ops := w.ops.filter (fun x => x.id != o.id) })).finish o.q o.owner [e]

/-- A stage of a fused chain is checked when it is due to start. -/
def State.stageOpBad (s : State) (o : OpRun) : Option Earned := if o.stage.isSome then s.opBad o.q o.arg else none

def State.tryStart (s : State) (o : OpRun) : State :=
  if o.stopping || !s.running then s
  else if s.counterHeld o.obj then s.dropOp o (counterConflict o.arg)
  else if 8 ≤ (s.work.ops.filter (fun x => x.holds && x.obj / 32768 == o.obj / 32768)).length then s
  else if (s.freeTiles o.part).isEmpty || !(s.opTiles o).all s.tileAwake then s
  else s.opStart o

/-- Selection is serial in dispatch order (R244): a later operator waits for an earlier one. -/
def execOperatorStart (id : Nat) (s : State) : Host.Outcome State Fault Refusal :=
  .next (s.unlessHalted (fun s =>
    match s.work.ops.find? (fun o => o.id == id) with
    | none => s
    | some o => if (s.nextOp o.part).any (fun x => x.id == id) then s.tryStart o else s))

/-! ### Completions (R255 to R257) -/

/-- CRC-32C over the grants (R257). -/
def OpRun.digest (o : OpRun) : Nat :=
  crc32c ((o.grants.map (fun (i, r) => leBytes 4 i ++ leBytes 2 r ++ leBytes 2 0)).flatten)

/-- Release the tiles and complete the command, or the stage's iteration. -/
def State.opEnd (s : State) (o : OpRun) (st : Nat) : State :=
  let s := s.tally (s.bankOf o.q)
  let s := s.cover o.part (tileEngines o.tiles) (s.covered o.part o.coverAt
    (if s.bankOf o.q = s.ambient o.part then s.opElapsed o - o.baseAt else 0))
  let s := o.tiles.foldl (fun s t => (s.modTile t (fun x => { x with op := none })).loseScratch t) s
  let s := s.modWork (fun w => { w with ops := w.ops.filter (fun x => x.id != o.id) })
  let s := s.traceCmd o.q o.owner (o.tiles.map srcTile) 0x02 st
  match o.stage with
  | some j => (if st = stDone then s else s.earnOn o.q o.owner ⟨st, 0, 0⟩).stageDone o.owner j s.mclk
  | none =>
    (s.modQw o.q (fun x => x.onExec o.owner (fun e => { e with digest := o.digest }))).finish o.q o.owner [⟨st, 0, 0⟩]

/-- A tile's grants that it has not reported. -/
def OpRun.outstanding (o : OpRun) (req : Nat) : List Nat :=
  (o.grants.filter (fun g => g.2 == req && !(o.done.contains g.1))).map Prod.fst

/-- Sweep (R256): with every tile ended, each missing index goes to an idle tile, lowest index to lowest tile. -/
def State.sweep (s : State) (o : OpRun) : State :=
  let out := (o.tiles.map (fun t => o.outstanding (s.localTile t))).flatten
  let missing := (List.range o.items).filter (fun i => !(o.done.contains i) && !(out.contains i))
  let idle := o.tiles.filter (fun t => (o.outstanding (s.localTile t)).isEmpty)
  s.onOp o.id (fun x => { x with grants := x.grants ++ (missing.zip idle).map (fun (i, t) => (i, s.localTile t)) })

/-- After a report: completion, the stop of R192, or a sweep. -/
def State.opCheck (s : State) (id : Nat) : State :=
  match s.work.ops.find? (fun o => o.id == id) with
  | none => s
  | some o =>
    let ended := decide (o.ended.length = o.tiles.length)
    let busy := o.tiles.any (fun t => !(o.outstanding (s.localTile t)).isEmpty)
    if o.done.length = o.items then s.opEnd o stDone
    else if o.stopping ∧ !busy then s.opEnd o stStopped
    else if ended ∧ !o.stopping then s.sweep o else s

/-- A report of output tile `index` by a tile: formed and written, or a duplicate (R255). The tile runs its output tiles back
to back, each for its cost (R259). -/
def State.tileDone (s : State) (o : OpRun) (tile index : Nat) : State :=
  let req := s.localTile tile
  if o.done.contains index || !(o.grants.contains (index, req)) then
    (s.modBank (s.bankOf o.q) (fun b => { b with dup := satAdd 48 b.dup 1 })).opCheck o.id
  else
    let stop := Tbl.get 0 o.finish tile + tileCost o.arg index
    let s := s.untilMclk (stop - 1)
    let late := if 2 < aOp o.arg then 0 else s.mclk + 1 - stop
    let s := s.tileCounts (s.bankOf o.q) tile o.arg index late
    let c : OpCtx := { part := o.part, q := o.q, owner := o.owner, arg := o.arg, seed := (s.queue o.q).seed.toNat,
                       done := o.done }
    let s := s.outputTile c tile index
    (s.onOp o.id (fun x =>
      { x with done := setIns x.done index, finish := Tbl.put x.finish tile (s.mclk + 1) })).opCheck o.id

def execOutputTileComplete (id tile index : Nat) (s : State) : Host.Outcome State Fault Refusal :=
  .next (s.unlessHalted (fun s =>
    match s.work.ops.find? (fun o => o.id == id) with
    | some o => if o.start.isSome && o.tiles.contains tile then s.tileDone o tile index else s
    | none => s))

end Sys2Proof.Machine
end

