-- ==== Sys2Proof/Machine/Fused.lean ====
section
/-!
DEFINITION. FUSED_CHAIN's dispatch and its VECTOR stages (13 R329 to R331), and the INVOCATION row.
-/
namespace Sys2Proof.Machine

/-! ### FUSED_CHAIN -/

/-- The block of a VECTOR stage: descriptor and record. -/
def State.vectorBlock (s : State) (p : Nat) (st : List Byte) : List Byte × List Byte :=
  let b := s.rdAt p (cAddr st 8) 272
  (slice b 0 256, slice b 256 16)

/-- The objects that VECTOR and OP stages name are checked by their own chapters' rules (R110, R118, R243, R331). -/
def State.stagesBad (s : State) (q : Nat) (stages : List (List Byte)) : Option Earned :=
  let p := (s.queue q).part.toNat
  stages.findSome? (fun st =>
    if fKind st = 2 then
      let (d, r) := s.vectorBlock p st
      match chainBadAt d false with
      | some o => some ⟨stParamRange, fieldAt 4 o, 0⟩
      | none => (recordBad d r).map (fun o => ⟨stParamRange, fieldAt 4 (256 + o), 0⟩)
    else if fKind st = 3 then s.opBad q (s.rdAt p (cAddr st 8) 256)
    else none)

def State.fusedBody (s : State) (q id : Nat) (b : List Byte) : Except Earned State :=
  let stages := fStages b
  let c := stages.length
  match (s.chainBad q stages).orElse (fun _ => s.stagesBad q stages) with
  | some e => .error e
  | none =>
    let z := List.replicate c 0
    let f : Fused := { id := id, q := q, part := (s.queue q).part.toNat, stages := stages, started := z, completed := z,
                       handed := z, swapped := z, doneAt := z }
    let s := (s.startAt q id s.mclk).modWork (fun w => { w with fused := w.fused ++ [f] })
    .ok (s.fusedGo id)

def execFusedChain (q : Nat) (s : State) : Host.Outcome State Fault Refusal :=
  .next (s.dispatch q 0x32 (fun s id b => s.fusedBody q id b))

/-! ### INVOCATION -/

/-- The VECTOR stage of a chain that is due to run on a tile. -/
def State.dueStage (s : State) (f : Fused) (tile : Nat) : Option Nat :=
  (List.range f.stages.length).find? (fun j =>
    let st := f.stages.getD j []
    fKind st == 2 && s.physTile f.part (bits (fld st 16 2) 0 11) == tile &&
      decide (Fused.nth f.completed j < Fused.nth f.started j))

/-- A VECTOR stage's iteration runs its own block with LOGICAL_BASE moved on (R329); the stage is done in the
invocation's last mclk (R112, R330). -/
def State.stageInvoke (s : State) (f : Fused) (j tile step : Nat) : State :=
  let st := f.stages.getD j []
  let (d, r) := s.vectorBlock f.part st
  let i := Fused.nth f.started j - 1
  let s := s.untilMclk (f.goAt j)
  let o : OpRef := { id := f.id, tile := tile, desc := d, record := r, logical := fld st 28 4 * i % 2 ^ 48, addr := 0,
                     seq := 0, step := step, entry := none }
  match s.issuer f.id with
  | none => s
  | some w =>
    if (chainBadAt d false).isSome || (recordBad d r).isSome then s
    else
      let s' := match ((s.vec tile).run).filter (fun g => g.op.id == f.id) with
        | some g => s.invokeMore g w
        | none => s.invoke o w d r
      if (s'.vec tile).run.isSome then s' else (s'.untilMclk ((s'.vec tile).busyUntil - 1)).stageDone f.id j ((s'.vec tile).busyUntil - 1)

def State.invocationRow (s : State) (w : WorkRef) : State :=
  match w with
  | .direct id tile _ _ step _ =>
    match s.work.fused.find? (fun f => f.id == id) with
    | some f => match s.dueStage f tile with | some j => s.stageInvoke f j tile step | none => s
    | none => s.invocation w
  | _ => s.invocation w

end Sys2Proof.Machine
end

