-- ==== Sys2Proof/Machine/Admission.lean ====
section
/-!
DEFINITION. Admission of parameter groups (09 R214 to R226, R231 to R236; 08 R210; 16 R388): schedule values, the checks
of lists, records and rules, the classes of groups.
-/
namespace Sys2Proof.Machine

/-! ### Values (R222, R228, R231, R234) -/

/-- Knot k of a schedule table: STEP, LR, WD, BETA1. -/
def knotAt (b : List Byte) (k i : Nat) : Nat := fld b (16 * k + 4 * i) 4

/-- The value of column i for the update of index t (R222). -/
def schedule (b : List Byte) (n i t : Nat) : Val :=
  let u := min t (2 ^ 32 - 1)
  if u ≤ knotAt b 0 0 then v32 (knotAt b 0 i)
  else if knotAt b (n - 1) 0 ≤ u then v32 (knotAt b (n - 1) i)
  else
    match (List.range (n - 1)).find? (fun k => decide (knotAt b k 0 ≤ u) && decide (u < knotAt b (k + 1) 0)) with
    | none => v32 (knotAt b (n - 1) i)
    | some k =>
      let num (x : Nat) : Val := r32 (ofInt (x : Int))
      let a := num (u - knotAt b k 0)
      let d := num (knotAt b (k + 1) 0 - knotAt b k 0)
      let f := div32 a d
      let v0 := v32 (knotAt b k i)
      let v1 := v32 (knotAt b (k + 1) i)
      add32 v0 (mul32 (sub32 v1 v0) f)

/-- Learning rate, weight decay and momentum decay of a group's next update. -/
def State.rates (s : State) (p : Nat) (r : List Byte) : Val × Val × Val :=
  let t := gStep r + 1
  let n := gKnots r
  let b := s.rdAt p (gAddr r oSched) (16 * n)
  let v (i o : Nat) : Val := if n = 0 then v32 (fld r o 4) else schedule b n i t
  (mul32 (v32 (fld r 52 4)) (v 1 32), v 2 36, v 3 40)

/-! ### Checks -/

def numBad (w : Nat) : Bool := match v32 w with | .fin n m _ => n && decide (0 < m) | _ => true
def unitBad (w : Nat) : Bool := numBad w || !(Val.ltNum (v32 w) cOne)

/-- Bytes of index words at INDEX_ADDR. -/
def State.indexList (s : State) (p : Nat) (r : List Byte) : List Nat :=
  let k := leNat (s.rdAt p (gAddr r oIndex) 4)
  (List.range (min k (gRows r + 1))).map (fun i => leNat (s.rdAt p (gAddr r oIndex + 4 + 4 * i) 4))

/-- The element planes and side planes of a record: offset, bytes per granule. -/
def elemPlanes : List Nat := [oW, oM, oHi, oLo, oAux]
def sidePlanes (r : List Byte) : List (Nat × Nat) := [(oMScale, 64), (oAuxScale, 64), (oStamp, stampBytes r)]

/-- Stack that holds a partition address. -/
def State.stackAt (s : State) (p a : Nat) : Nat := s.hbmKey p a / 2 ^ 36

/-- The rules of R224 on a record, its planes in the interleaved space (R273): byte of the first failing field. `grad`: its gradient and header are used. -/
def State.recordRule (s : State) (p : Nat) (r : List Byte) (grad : Bool) : Option Nat :=
  let form := bits (fld r 18 1) 0 2
  let sides := gLeft r || gRight r
  let rows := gRows r
  let cols := gCols r
  let pitch := gPitch r
  let st := s.nStacks
  let here (o : Nat) : Bool := decide (gAddr r o ≠ 0)
  let need (o : Nat) (w : Bool) : Bool × Nat := (here o != w, o)
  let must (o : Nat) (w : Bool) : Bool × Nat := (w && !here o, o)
  let first (l : List (Bool × Nat)) : Option Nat := (l.find? (fun c => c.1)).map Prod.snd
  let custom := here oRule
  match first [(decide (1 < form), 18), (sides && gSparse r, 18), (rows == 0 || decide (2 ^ 31 ≤ rows), 20),
      (cols == 0 || decide (2 ^ 31 ≤ cols), 24), (decide (64 < gKnots r), 19), (form == 0 && pitch != cols, 28),
      (form == 1 && (decide (pitch < cols) || (decide (2048 % pitch ≠ 0) && decide (pitch % 2048 ≠ 0))), 28),
      (form == 1 && here oMask, oMask), must oW true, must oM true, must oMScale true, need oHi (gMaster r),
      need oLo (gMaster r), need oL (gLeft r), need oR (gRight r), need oRootL (gLeft r), need oRootR (gRight r),
      must oSched (decide (0 < gKnots r)), (!custom && here oAux, oAux), (!custom && here oAuxScale, oAuxScale),
      (here oAux != here oAuxScale, oAuxScale), must oGrad grad, must oGradScale grad, must oHdr grad, need oIndex (gSparse r),
      need oStamp (gSparse r)] with
  | some o => some o
  | none =>
    let w := gAddr r oW
    let inter := st * (64 - s.mod.dieLocal.toNat) * 2 ^ 30
    let plane := elemPlanes.find? (fun o => here o &&
      (decide (gAddr r o % 4096 ≠ 0) || decide (gAddr r o % (4096 * st) ≠ w % (4096 * st)) ||
       decide (inter < gAddr r o + planeBytes r)))
    let side := (sidePlanes r).find? (fun (o, c) => here o &&
      ((List.range (min st (granules r))).any (fun j => decide (inter < sideAddr (gAddr r o) (granules r - 1 - j) c st + c)) ||
       s.stackAt p (gAddr r o) != s.stackAt p w ||
       (List.range (ceilDiv (granules r) st)).any (fun q => decide (4096 < gAddr r o % 4096 + q * c % 4096 + c))))
    match plane, side with
    | some o, _ => some o
    | none, some (o, _) => some o
    | none, none =>
      match first [(unitBad (fld r 40 4), 40), (unitBad (fld r 44 4), 44), (numBad (fld r 32 4), 32), (numBad (fld r 36 4), 36),
          (numBad (fld r 52 4), 52),
          (match v32 (fld r 48 4) with | .fin false (_ + 1) _ => false | _ => true, 48)] with
      | some o => some o
      | none =>
        let n := gKnots r
        let b := s.rdAt p (gAddr r oSched) (16 * n)
        if n ≠ 0 ∧ (gAddr r oSched % 16 ≠ 0 ∨ !gFrozen r ∧ (List.range n).any (fun k =>
            (decide (0 < k) && decide (knotAt b k 0 ≤ knotAt b (k - 1) 0)) || numBad (knotAt b k 1) || numBad (knotAt b k 2) ||
            unitBad (knotAt b k 3))) then some oSched
        else if gSparse r ∧ grad then
          let l := s.indexList p r
          let k := leNat (s.rdAt p (gAddr r oIndex) 4)
          if gAddr r oIndex % 4 ≠ 0 ∨ rows < k ∨ l.any (fun x => decide (rows ≤ x)) ∨
              (l.zip (l.drop 1)).any (fun (x, y) => decide (y ≤ x)) then some oIndex else none
        else none

/-- Streams of a custom rule (R236): loads 0 to 4, stores 8 to 11. -/
def ruleStreams (b : List Byte) : List (Nat × Nat) :=
  ((List.range (vStages b)).filter (fun e => xKind (vEntry b e) == 1 || xKind (vEntry b e) == 8)).map
    (fun e => (xKind (vEntry b e), if xSpace (vEntry b e) = 2 then xBase (vEntry b e) % 65536 else 99))

/-- A custom rule breaks R236: byte of the descriptors at RULE_ADDR. -/
def ruleBad (a b : List Byte) (sides : Bool) : Option Nat :=
  let one (d : List Byte) (o : Nat) : Option Nat :=
    match chainBadAt d true with
    | some x => some (o + x)
    | none =>
      if (ruleStreams d).any (fun (k, n) => if k = 1 then decide (4 < n) else decide (n < 8) || decide (11 < n))
      then some (o + 64) else none
  match one a 0, one b 256 with
  | some o, _ => some o
  | none, some o => some o
  | none, none => if sides && !((ruleStreams a ++ ruleStreams b).any (fun (_, n) => n == 4)) then some 0 else none

/-- What a record names: field, address, bytes, and whether a tile slot may be named (R215). -/
def State.extents (s : State) (p : Nat) (r : List Byte) (grad : Bool) : List (Nat × Nat × Nat × Bool) :=
  let rows := gRows r
  let nb := ceilDiv (gCols r) 32
  let k := if gSparse r then leNat (s.rdAt p (gAddr r oIndex) 4) else rows
  let plane := roundUp (planeBytes r) 64
  let st := s.nStacks
  let l : List (Nat × Nat × Bool) :=
    [(oW, planeBytes r, false), (oM, plane, false), (oHi, planeBytes r, false), (oLo, planeBytes r, false), (oAux, plane, false),
     (oL, 4 * factorElems rows, false), (oR, 4 * factorElems (gCols r), false), (oRootL, 8 * factorElems rows, false),
     (oRootR, 8 * factorElems (gCols r), false), (oSched, 16 * gKnots r, false),
     (oMask, ceilDiv (ceilDiv (rows * gCols r) 4096) 8, false), (oRule, 512, false)] ++
    (if grad then [(oIndex, 4 + 4 * k, false), (oGrad, 64 * k * nb, true), (oGradScale, k * nb, true), (oHdr, 32, true)] else [])
  (l.filter (fun x => gAddr r x.1 != 0)).map (fun (o, n, t) => (o, gAddr r o, n, t)) ++
    ((sidePlanes r).filter (fun x => gAddr r x.1 != 0)).map (fun (o, c) =>
      let last := (List.range (min st (granules r))).foldl (fun m j => max m (sideAddr (gAddr r o) (granules r - 1 - j) c st + c)) 0
      (o, gAddr r o, last - gAddr r o, false))

def State.placeBad (s : State) (q a n : Nat) (tile : Bool) : Bool :=
  if tile ∧ s.capacity ≤ a then !(s.inDomain q a n) || decide (stagingRegion ≤ a) else !(s.inWindow q a n)

/-- Planes that a PAIRED command mirrors: extents that must lie in the primary range, and their bytes (R387, R388). -/
def State.pairBad (s : State) (p kind : Nat) (table index : Nat) (r : List Byte) : Option Nat :=
  let m := s.mirrorMode p
  let x := (s.part p).pair
  let ws : List Nat := if kind = 0 then
      (if m = 0 then [] else [oW, oHi, oLo]) ++ (if m = 2 then [oM, oMScale, oAux, oAuxScale, oL, oR, oStamp] else [])
    else if m = 2 then [oRootL, oRootR] else []
  let ext := (s.extents p r false).filter (fun e => ws.contains e.1)
  if m = 2 ∧ x.bytes < table + 256 * index + 256 then some 0
  else
    match ext.find? (fun (_, a, n, _) => decide (x.bytes < a + n)) with
    | some (o, _) => some o
    | none =>
      let total := ext.foldl (fun a (_, _, n, _) => a + n) (if m = 2 then 256 else 0)
      if m ≠ 0 ∧ x.landingMib.toNat * 2 ^ 20 < total then some 20 else none

/-- The gradient-scale record (R210): byte of the first failing field. -/
def scaleBad (r : List Byte) : Option Nat :=
  let e := signed 8 (fld r 8 1)
  let lo := signed 8 (fld r 9 1)
  let hi := signed 8 (fld r 10 1)
  let first (l : List (Bool × Nat)) : Option Nat := (l.find? (fun c => c.1)).map Prod.snd
  let gap := ((List.range 30).find? (fun i => r.getD (34 + i) 0 != 0)).getD 30
  first [(decide (1 < fld r 11 1), 11), (decide (gap < 30), 34 + gap), (decide (lo < -126) || decide (126 < lo), 9),
    (decide (hi < lo) || decide (126 < hi), 10), (decide (e < lo) || decide (hi < e), 8), (decide (fld r 12 4 = 0), 12),
    (decide (fld r 0 4 ≠ pow2Bits e), 0), (decide (fld r 4 4 ≠ pow2Bits (-e)), 4),
    (decide (fld r 32 2 ≠ stDone) && decide (fld r 32 2 ≠ stNonfinite), 32)]

/-! ### Admission (R223 to R226) -/

/-- A listed group is named by an executing command (R237). -/
def State.groupBusy (s : State) (p rec : Nat) : Bool :=
  s.work.updates.any (fun u => u.part == p && decide (u.kind < 2) && u.groups.any (fun g => u.recAt g.index == rec))

/-- The gradient words of a group that are read: index in the rows of the gradient, element of the planes. -/
def State.gradRows (s : State) (p : Nat) (r : List Byte) : List Nat :=
  if gSparse r then s.indexList p r else List.range (gRows r)

/-- Bit of the frozen mask (R235). -/
def State.frozenAt (s : State) (p : Nat) (r : List Byte) (logical : Nat) : Bool :=
  gAddr r oMask != 0 && bit (leNat (s.rdAt p (gAddr r oMask + logical / 32768) 1)) (logical / 4096 % 8)

/-- Address of gradient element (i-th row held, column c), and of its scale byte (R35, R234). -/
def gradAt (r : List Byte) (i c : Nat) : Nat × Nat :=
  let nb := ceilDiv (gCols r) 32
  (gAddr r oGrad + 64 * (i * nb + c / 32) + 2 * (c % 32), gAddr r oGradScale + i * nb + c / 32)

/-- A gradient word that the update would read carries a mark. -/
def State.gradMarked (s : State) (p : Nat) (r : List Byte) : Bool :=
  let rows := s.gradRows p r
  ((List.range rows.length).zip rows).any (fun (i, x) => (List.range (gCols r)).any (fun c =>
    !(s.frozenAt p r (x * gCols r + c)) && (s.markAt p (gradAt r i c).1 2 || s.markAt p (gradAt r i c).2 1)))

/-- Reads of admission beside gradients that carry a mark. -/
def State.admitMarked (s : State) (p table index : Nat) (r : List Byte) (grad : Bool) : Bool :=
  let a := table + 256 * index
  s.markAt p a 256 || (!gFrozen r && (
    s.markAt p (gAddr r oSched) (16 * gKnots r) ||
    (gAddr r oMask != 0 && s.markAt p (gAddr r oMask) (ceilDiv (ceilDiv (gRows r * gCols r) 4096) 8)) ||
    (gAddr r oRule != 0 && s.markAt p (gAddr r oRule) 512) ||
    (grad && (s.markAt p (gAddr r oHdr) 32 ||
      (gSparse r && s.markAt p (gAddr r oIndex) (4 + 4 * leNat (s.rdAt p (gAddr r oIndex) 4)))))))

/-- The checks of a record; of a FROZEN group nothing beyond it is read (R223, R225). -/
def State.recordCheck (s : State) (q p kind table index : Nat) : Option Earned :=
  let a := table + 256 * index
  let r := s.rdAt p a 256
  let grad := kind == 0 && !gFrozen r
  let bad (o : Nat) : Option Earned := some ⟨stParamRange, fieldAt 3 o, 0⟩
  match reservedAt recordFields r 256 with
  | some o => bad o
  | none =>
    match s.recordRule p r grad with
    | some o => bad o
    | none =>
      let d := s.rdAt p (gAddr r oRule) 512
      match (if gAddr r oRule = 0 ∨ gFrozen r then none else ruleBad (slice d 0 256) (slice d 256 256) (gLeft r || gRight r)) with
      | some o => some ⟨stParamRange, fieldAt 4 o, 0⟩
      | none =>
        match s.pairBad p kind table index r with
        | some o => bad o
        | none =>
          ((s.extents p r grad).find? (fun (_, x, n, t) => s.placeBad q x n t)).map
            (fun (o, _) => ⟨stDomain, fieldAt 3 o, 0⟩)

/-- The entries of a group list. -/
def State.groupList (s : State) (p a n : Nat) : List Nat := (List.range n).map (fun i => leNat (s.rdAt p (a + 4 * i) 4))

/-- Position of the first entry with a reserved bit, or that repeats an earlier one. -/
def listBad : List Nat → Nat → List Nat → Option Nat
  | _, _, [] => none
  | seen, i, x :: t => if 65536 ≤ x ∨ seen.contains x then some i else listBad (setIns seen x) (i + 1) t

/-- The checks of a list and its records, in order; a mark on anything read besides gradients completes the command with
POISON_CONSUMED. -/
def State.admitBad (s : State) (q p kind table : Nat) (la : Nat) (xs : List Nat) : Option Earned :=
  if s.markAt p la (4 * xs.length) then some ⟨stPoison, 0, 0⟩
  else
    match listBad [] 0 xs with
    | some i => some ⟨stParamRange, fieldAt 3 (4 * i), 0⟩
    | none =>
      match xs.find? (fun x => s.groupBusy p (table + 256 * x)) with
      | some x => some ⟨stConflict, conflictAt 3 x, 0⟩
      | none =>
        match xs.find? (fun x => !(s.inWindow q (table + 256 * x) 256)) with
        | some _ => some ⟨stDomain, fieldAt 3 0, 0⟩
        | none =>
          match xs.findSome? (s.recordCheck q p kind table) with
          | some e => some e
          | none =>
            (groupStatus stPoison (xs.filter (fun x =>
              s.admitMarked p table x (s.rdAt p (table + 256 * x) 256) (kind == 0)))).head?

/-- Blocks whose phases a group runs: none where no element is touched. -/
def State.phaseBlocks (s : State) (p : Nat) (r : List Byte) : Nat :=
  let touched := if gSparse r then !(s.indexList p r).isEmpty
    else (List.range (ceilDiv (gRows r * gCols r) 4096)).any (fun k => !(s.frozenAt p r (4096 * k)))
  if touched then blockRows r * blockCols r else 0

/-- The class of a group of UPDATE_STEP (R225, R226). -/
def State.classOf (s : State) (p table : Nat) (skip : Bool) (x : Nat) : GroupWork :=
  let r := s.rdAt p (table + 256 * x) 256
  let h := s.rdAt p (gAddr r oHdr) 32
  let step := fld h 0 4
  let same := decide (fld h 4 4 = gEpoch r)
  if gFrozen r then { index := x, cls := 0, written := true }
  else if (step + 1) % 2 ^ 32 = gNext r ∧ same then { index := x, cls := 1, written := true }
  else if step ≠ gNext r ∨ !same then { index := x, cls := 2, hdrStep := step }
  else if skip then { index := x, cls := 3, hdrStep := step }
  else if s.gradMarked p r then { index := x, cls := 4, hdrStep := step }
  else { index := x, cls := 5, hdrStep := step, blocks := s.phaseBlocks p r }

/-- Some listed group's header carries the non-finite flag (R226). -/
def State.anyNonfinite (s : State) (p table : Nat) (xs : List Nat) : Bool :=
  xs.any (fun x =>
    let r := s.rdAt p (table + 256 * x) 256
    !gFrozen r && bit (leNat (s.rdAt p (gAddr r oHdr + 16) 1)) 0)

/-- The record of a group that is not applied (R225, R226). -/
def idleRecord (r : List Byte) (g : GroupWork) : List Byte :=
  if g.cls = 2 then putFld r 16 2 stSkew
  else putFld (putFld r 8 4 (g.hdrStep + 1)) 16 2 (if g.cls = 3 then stNonfinite else stPoison)

end Sys2Proof.Machine
end

