-- ==== Sys2Proof/Machine/Phases.lean ====
section
/-!
DEFINITION. The phases of an applied group (09 R228 to R230, R234 to R236, R239): momentum and weights of a block,
factors, stamps, custom rules, and the group's close.
-/
namespace Sys2Proof.Machine

/-- What the phases of a group share: command, record, schedule values, touched rows. -/
structure GroupCtx where
  p : Nat
  st : Nat
  seed : Nat
  step : Nat
  inv : Val
  r : List Byte
  lr : Val
  wd : Val
  b1 : Val
  rows : List Nat

def State.groupCtx (s : State) (u : Update) (g : GroupWork) : GroupCtx :=
  let r := s.rdAt u.part (u.recAt g.index) 256
  let (lr, wd, b1) := s.rates u.part r
  { p := u.part, st := s.nStacks, seed := (s.queue u.q).seed.toNat, step := u.step, inv := v32 u.inv, r := r,
    lr := lr, wd := wd, b1 := b1, rows := s.gradRows u.part r }

def GroupCtx.t (c : GroupCtx) : Nat := gStep c.r + 1
def GroupCtx.draw (c : GroupCtx) (tensor x : Nat) : Nat :=
  ({ seed := c.seed, step := c.step, tensor := (gTensor c.r + tensor) % 2 ^ 32, site := 2, seq := 0 } : Key).draw (xLogical c.r x)

/-- Element x of the planes takes part: it lies in the matrix, its row is touched, it is not frozen. -/
def State.elemLive (s : State) (c : GroupCtx) (x : Nat) : Bool :=
  decide (xCol c.r x < gCols c.r) && decide (xRow c.r x < gRows c.r) && (!gSparse c.r || c.rows.contains (xRow c.r x)) &&
  !(s.frozenAt c.p c.r (xLogical c.r x))

/-- Elements of block b that take part, row-major. -/
def State.blockElems (s : State) (c : GroupCtx) (b : Nat) : List Nat :=
  let r0 := b / blockCols c.r * 1024
  let c0 := b % blockCols c.r * 1024
  let rows := if gSparse c.r then c.rows.filter (fun x => decide (r0 ≤ x) && decide (x < r0 + 1024))
    else (List.range (min 1024 (gRows c.r - r0))).map (fun i => r0 + i)
  ((rows.map (fun i => (List.range (min 1024 (gCols c.r - c0))).map (fun j => i * gPitch c.r + c0 + j))).flatten).filter
    (s.elemLive c)

/-- The SB16 blocks that phase A of block b updates: those of which b is the first block of R219 to hold an element. -/
def State.phaseA (s : State) (c : GroupCtx) (b : Nat) : List Nat :=
  let ks := (s.blockElems c b).foldl (fun l x => setIns l (x / 32)) []
  ks.filter (fun k => !((List.range 32).any (fun i =>
    s.elemLive c (32 * k + i) && decide (blockOf c.r (32 * k + i) < b))))

/-- A value rounded RNE into FP32, with its counts (R55). -/
def round32 (v : Val) : Val × Health := let (w, h) := lay32.convert .rne true 0 v; (lay32.decode w, h)

/-- An SB16 element as a LOAD decodes it: value, mark, counts (R121). -/
def State.sbAt (s : State) (c : GroupCtx) (elem scale : Nat) : Val × Bool × Health :=
  let (w, h) := toLane false .sb16 (leNat (s.rdAt c.p elem 2)) (leNat (s.rdAt c.p scale 1))
  (v32 w, s.markAt c.p elem 2 || s.markAt c.p scale 1, h)
def State.gradientAt (s : State) (c : GroupCtx) (x : Nat) : Val × Bool × Health :=
  let i := if gSparse c.r then c.rows.findIdx (fun y => y == xRow c.r x) else xRow c.r x
  let (a, b) := gradAt c.r i (xCol c.r x)
  s.sbAt c a b

/-- The factor by which a touched row's momentum has decayed since its stamp (R234). -/
def State.decay (s : State) (c : GroupCtx) (x : Nat) : Option Val :=
  if gSparse c.r then
    let stamp := leNat (s.rdAt c.p (stampOf c.r x c.st) 4)
    some (powLut c.b1 ((gStep c.r + 2 ^ 32 - stamp % 2 ^ 32) % 2 ^ 32))
  else none

/-- Momentum of an element before the update, decayed where its row was untouched (R234). -/
def State.momentumAt (s : State) (c : GroupCtx) (x : Nat) : Val × Bool × Health :=
  let (m, q, h) := s.sbAt c (gAddr c.r oM + 2 * x) (scaleOf (gAddr c.r oMScale) x c.st)
  match s.decay c x with
  | some f => let (m, k) := round32 (Val.mul m f); (m, q, h.add k)
  | none => (m, q, h)

/-- FP32 momentum of element x under the default rule, its mark and counts (R228, R229). -/
def State.newMomentum (s : State) (c : GroupCtx) (x : Nat) : Val × Bool × Health :=
  let (m, bad, h) := s.momentumAt c x
  let (g, _, k) := s.gradientAt c x
  let (d, h1) := round32 (Val.mul (sub32 cOne c.b1) (Val.mul c.inv g))
  let (r, h2) := round32 (Val.add (Val.mul c.b1 m) d)
  (r, bad, ((h.add k).add h1).add h2)

/-- What a phase does to the state and reports: counts, poison consumed, addresses written. -/
structure PhaseOut where
  s : State
  health : Health := {}
  bad : Bool := false
  touched : List Nat := []

/-- Write bytes with their marks in one write, noting them. -/
def PhaseOut.put (o : PhaseOut) (p : Nat) (l : List (Nat × Byte × Bool)) : PhaseOut :=
  { o with s := o.s.wrCells p l, touched := o.touched ++ l.map Prod.fst }
/-- Bytes from an address, all with one mark. -/
def bytesAt (a : Nat) (bs : List Byte) (mark : Bool) : List (Nat × Byte × Bool) :=
  ((List.range bs.length).zip bs).map (fun (i, b) => (a + i, b, mark))

/-- An SB16 block of a state plane that rows not listed share: they stay bit for bit (R234), so its scale stays, and the
words of the listed rows' elements are not stated there (DESIGN CHOICE, log 92): free values. `s0`: the state before. -/
def PhaseOut.shareBlock (o : PhaseOut) (s0 : State) (c : GroupCtx) (k elem scale : Nat) : PhaseOut :=
  let bad := o.s.markAt c.p (elem + 64 * k) 64
  let (f, s) := o.s.freeBytes 64
  let old := s0.rdAt c.p (elem + 64 * k) 64
  let new := (List.range 32).flatMap (fun i => slice (if s0.elemLive c (32 * k + i) then f else old) (2 * i) 2)
  ({ o with s := s }).put c.p (bytesAt (elem + 64 * k) new bad ++
    bytesAt (scaleOf scale (32 * k) c.st) (s0.rdAt c.p (scaleOf scale (32 * k) c.st) 1) bad)

/-- Element x of a plane belongs to a row of the matrix that a sparse gradient does not list. -/
def GroupCtx.unlisted (c : GroupCtx) (x : Nat) : Bool :=
  gSparse c.r && decide (xRow c.r x < gRows c.r) && !c.rows.contains (xRow c.r x)
/-- Block k of the planes holds such an element. -/
def GroupCtx.shares (c : GroupCtx) (k : Nat) : Bool := (List.range 32).any (fun i => c.unlisted (32 * k + i))

/-- U1 on one SB16 block: momentum encoded by R40, and M' in BF16 kept for phase B. -/
def PhaseOut.u1 (o : PhaseOut) (s0 : State) (c : GroupCtx) (k : Nat) : PhaseOut × List (Nat × Nat) :=
  let xs := (List.range 32).map (fun i => 32 * k + i)
  let live := xs.filter (s0.elemLive c)
  let ms := live.map (s0.newMomentum c)
  let bad := ms.any (fun m => m.2.1)
  let (sc, codes, h) := Fmt.sb16.encodeBlock .stoch false (live.map (c.draw 1)) (ms.map (fun m => m.1))
  let old := s0.rdAt c.p (gAddr c.r oM + 64 * k) 64
  let new (x : Nat) : Nat :=
    match (live.zip codes).find? (fun y => y.1 == x) with
    | some (_, w) => w
    | none => if xCol c.r x < gCols c.r ∧ xRow c.r x < gRows c.r then fld old (2 * (x % 32)) 2 else 0
  let bf := ms.map (fun m => layBf.convert .rne false 0 m.1)
  let hs := (ms.foldl (fun h m => h.add m.2.2) h)
  let hs := bf.foldl (fun h w => (h.add w.2).add (outHealth .bf16 w.1)) hs
  let o := o.put c.p (bytesAt (gAddr c.r oM + 64 * k) (Fmt.sb16.bytes (xs.map new)) bad ++
    bytesAt (scaleOf (gAddr c.r oMScale) (32 * k) c.st) [BitVec.ofNat 8 sc] bad)
  let o := if c.shares k then o.shareBlock s0 c k (gAddr c.r oM) (gAddr c.r oMScale) else o
  ({ o with health := o.health.add hs, bad := o.bad || bad },
   (live.zip (bf.zip ms)).map (fun (x, w, m) => (x, w.1 + b01 m.2.1 * 2 ^ 16)))

/-- The bytes that each engine reads for its share of block b, into staging half b mod 2 (R230, R141): SB16 blocks in
ascending order, 64 bytes of each plane, then the scale bytes (DESIGN CHOICE of the places, log 87). -/
def PhaseOut.stage (o : PhaseOut) (c : GroupCtx) (b : Nat) (ks planes : List Nat) (scale : Option Nat) : PhaseOut :=
  let engines := (ks.map (fun k => o.s.stackAt c.p (gAddr c.r oW + 64 * k))).eraseDups
  engines.foldl (fun o e =>
    let mine := ks.filter (fun k => o.s.stackAt c.p (gAddr c.r oW + 64 * k) == e)
    let read (a n : Nat) : List (Byte × Bool) := let q := o.s.markAt c.p a n; (o.s.rdAt c.p a n).map (fun x => (x, q))
    let bs := planes.flatMap (fun a => mine.flatMap (fun k => read (a + 64 * k) 64)) ++
      (match scale with | some a => mine.flatMap (fun k => read (scaleOf a (32 * k) c.st) 1) | none => [])
    let cells := ((List.range bs.length).zip bs).filterMap (fun (i, x, q) =>
      (ueKey e false (b % 2 * 2 ^ 22 + i)).map (fun key => (key, x, q)))
    { o with s := o.s.store cells }) o

/-- The stamps of the rows of block b's block-row, once its last block has run phase A (R234). -/
def PhaseOut.stamps (o : PhaseOut) (c : GroupCtx) (b : Nat) : PhaseOut :=
  if !gSparse c.r || decide (b % blockCols c.r + 1 ≠ blockCols c.r) then o
  else
    let r0 := b / blockCols c.r * 1024
    (c.rows.filter (fun x => decide (r0 ≤ x) && decide (x < r0 + 1024))).foldl (fun o i =>
      (List.range (ceilDiv (gPitch c.r) (segLen c.r))).foldl (fun o j =>
        o.put c.p (bytesAt (stampOf c.r (i * gPitch c.r + j * segLen c.r) c.st) (leBytes 4 c.t) false)) o) o

/-! ### Custom rules (R236) -/

/-- The nine broadcast vectors of the constant window. -/
def GroupCtx.vectors (c : GroupCtx) : List Nat :=
  let bits32 (v : Val) : Nat := to32 .rne 0 v
  [bits32 c.lr, bits32 c.wd, bits32 c.b1, fld c.r 44 4, fld c.r 48 4, bits32 c.inv,
   bits32 (sub32 cOne (powLut c.b1 c.t)), bits32 (sub32 cOne (powLut (v32 (fld c.r 44 4)) c.t)), bits32 (ofInt (c.t : Int))]

/-- Write them into the windows of the partition's engines. -/
def State.putVectors (s : State) (c : GroupCtx) : State :=
  let bs := (c.vectors.map (fun w => (List.replicate 256 (leBytes 4 w)).flatten)).flatten
  ((List.range 32).filter (fun k => s.partOfStack k == c.p)).foldl (fun s k => s.store (cellsAt (ueKey k true) 0 bs false)) s

/-- Plane of a stream: element base and side base of a custom rule's loads and stores. -/
def streamPlane (r : List Byte) : Nat → Nat × Nat
  | 1 | 8 => (gAddr r oM, gAddr r oMScale)
  | 2 | 9 => (gAddr r oAux, gAddr r oAuxScale)
  | _ => (gAddr r oW, 0)

/-- Streams whose operands the spec does not lay out for a custom rule: E; a plane that a sparse, ragged or MASTER32 group
does not deliver as its bytes lie, in a format other than the decoded one; values to the tiles. -/
def openStream (r : List Byte) (x : Nat) : Bool :=
  let n := xBase x % 65536
  let f := xStored x
  if xKind x = 1 then
    n == 4 || (f != .sb16 && ((n == 0 && (gSparse r || decide (gCols r % 32 ≠ 0))) || (n == 1 && gSparse r))) ||
    (n == 3 && gMaster r && f != .fp32)
  else (n == 10 && gMaster r) || n == 11

/-- What the command delivers decoded to a custom rule's LOAD: gradient words by element, the momentum of a sparse group
after its decay, the joined master weight (R229, R234, R236). -/
def State.ruleGiven (s : State) (c : GroupCtx) (x elem : Nat) : Option (Nat × Health × Bool) :=
  let n := xBase x % 65536
  let word (v : Val × Bool × Health) : Nat × Health × Bool := (to32 .rne 0 v.1, v.2.2, v.2.1)
  if n = 0 ∧ xStored x = .sb16 then some (word (s.gradientAt c elem))
  else if n = 1 ∧ xStored x = .sb16 ∧ gSparse c.r then some (word (s.momentumAt c elem))
  else if n = 3 ∧ xStored x = .fp32 ∧ gMaster c.r then
    let half (o : Nat) : Nat × Bool := (leNat (s.rdAt c.p (gAddr c.r o + 2 * elem) 2), s.markAt c.p (gAddr c.r o + 2 * elem) 2)
    let (h, q) := half oHi
    let (l, q') := half oLo
    some (h * 2 ^ 16 + l, inHealth (v32 (h * 2 ^ 16 + l)), q || q')
  else none

/-- The environment of one SB16 block's invocation on engine k. -/
def State.ruleEnv (s : State) (c : GroupCtx) (d : List Byte) (ue x0 n : Nat) : ChainEnv :=
  let id (e : Nat) : Nat := xBase (vEntry d e) % 65536
  let w := if v16 d then 512 else 256
  let grad := gradAt c.r (xRow c.r x0) (xCol c.r x0)
  let v := (s.stack ue).vec
  { w := w,
    key := fun _ off => s.addrKey c.p off, scaleKey := fun _ off => s.addrKey c.p off,
    cacheKey := fun off => ueKey ue true off,
    row := fun e _ _ _ => if id e = 0 then (grad.1 : Int) else ((streamPlane c.r (id e)).1 + 2 * x0 : Nat),
    scaleRow := fun e _ _ _ => if id e = 0 then (grad.2 : Int) else (scaleOf (streamPlane c.r (id e)).2 x0 c.st : Nat),
    logical := fun i _ _ _ => xLogical c.r (x0 + i),
    stream := fun e => openStream c.r (vEntry d e), bank := id, word := fun _ _ => none,
    seed := c.seed, step := c.step, seq := 0, lut0 := v.lut0, lut1 := v.lut1,
    len0 := n, slots := 1, beats := 1, n1 := 1, n2 := 1,
    live := fun i => s.elemLive c (x0 + i),
    given := fun e p => s.ruleGiven c (vEntry d e) (x0 + p.p0) }

/-- The master weight that a custom rule stores: split, and W rounded from it (R229). -/
def PhaseOut.masters (o : PhaseOut) (s0 : State) (c : GroupCtx) (k n : Nat) (bs : List Beat) : PhaseOut :=
  let xs := (List.range n).filter (fun i => s0.elemLive c (32 * k + i))
  let cells := xs.flatMap (fun i =>
    let x := 32 * k + i
    let b := bs.getD (i / 16) nullBeat
    if laneMasked b (i % 16) then []
    else
      let f := b.lanes.getD (i % 16) 0
      bytesAt (gAddr c.r oHi + 2 * x) (leBytes 2 (f / 2 ^ 16)) b.poison ++
        bytesAt (gAddr c.r oLo + 2 * x) (leBytes 2 (f % 2 ^ 16)) b.poison ++
        bytesAt (gAddr c.r oW + 2 * x) (leBytes 2 (layBf.convert .rne false 0 (v32 f)).1) b.poison)
  o.put c.p cells

/-- The descriptor as the engine runs it on block k, whose last live element is n − 1; roundings take its own site
(R236). -/
def PhaseOut.rule (o : PhaseOut) (s0 : State) (c : GroupCtx) (half k n : Nat) : PhaseOut :=
  let d := o.s.rdAt c.p (gAddr c.r oRule + 256 * half) 256
  let x0 := 32 * k
  let ue := o.s.stackAt c.p (gAddr c.r oW + 64 * k)
  let w := if v16 d then 512 else 256
  let loads := (List.range (vStages d)).filter (fun e => xKind (vEntry d e) == 1 && openStream c.r (vEntry d e))
  let (fed, s) := loads.foldl (fun (f, s) e =>
    let (bs, s) := s.freeBeats (slotBeatsOf w (vEntry d e))
    (Tbl.put f e bs, s)) (([] : Tbl (List Beat)), o.s)
  let s := s.copyTables (1152 + ue) (fun off => ueKey ue true off) d
  let v := runChain s (s.ruleEnv c d ue x0 n) d fed
  let stores := (List.range (vStages d)).filter (fun e => xKind (vEntry d e) == 8)
  let id (e : Nat) : Nat := xBase (vEntry d e) % 65536
  let planes := (stores.filter (fun e => decide (8 ≤ id e) && decide (id e ≤ 10) && !(openStream c.r (vEntry d e)))).map id
  let touched := (planes.map (fun i =>
    (List.range (2 * n)).map (fun j => (streamPlane c.r i).1 + 64 * k + j) ++
      (if i = 10 then [] else [scaleOf (streamPlane c.r i).2 x0 c.st]))).flatten
  let s := v.s.modVec (1152 + ue) (fun x =>
    if (vCompress d).isSome then { x with popcnt := BitVec.ofNat 32 v.kept } else x)
  let o := { o with s := s, health := o.health.add v.health, bad := o.bad || v.poisoned, touched := o.touched ++ touched }
  let o := if !c.shares k then o
    else (planes.filter (fun i => decide (i < 10))).foldl (fun o i =>
      o.shareBlock s0 c k (streamPlane c.r i).1 (streamPlane c.r i).2) o
  match stores.find? (fun e => id e == 10 && gMaster c.r) with
  | none => o
  | some e =>
    if xStored (vEntry d e) = .fp32 then o.masters s0 c k n (Tbl.get [] v.out e)
    else
      -- what a store of another format gives the three planes is not stated
      let (bs, s) := o.s.freeBeats 2
      ({ o with s := s }).masters s0 c k n bs

/-- Run a custom chain over the SB16 blocks given. -/
def PhaseOut.rules (o : PhaseOut) (s0 : State) (c : GroupCtx) (half : Nat) (ks : List Nat) : PhaseOut :=
  ks.foldl (fun o k =>
    let n := ((List.range 32).filter (fun i => s0.elemLive c (32 * k + i))).foldl (fun m i => max m (i + 1)) 0
    o.rule s0 c half k n) o

/-! ### E and the weights (R228, R229) -/

/-- A root word that a block uses carries a mark. -/
def State.rootMarked (s : State) (c : GroupCtx) (b : Nat) : Bool :=
  let one (here : Bool) (oRoot n i : Nat) : Bool :=
    here && s.markAt c.p (gAddr c.r oRoot + gRoot c.r * (4 * factorElems n) + 4 * i * 2 ^ 20) (4 * partLen n i * partLen n i)
  one (gLeft c.r) oRootL (gRows c.r) (b / blockCols c.r) || one (gRight c.r) oRootR (gCols c.r) (b % blockCols c.r)

/-- The root in use of a block-row or block-column of n elements, rounded RNE to BF16 (R219, R229). -/
def State.rootBf (s : State) (c : GroupCtx) (oRoot n i : Nat) : List Val :=
  let d := partLen n i
  let bs := s.rdAt c.p (gAddr c.r oRoot + gRoot c.r * (4 * factorElems n) + 4 * i * 2 ^ 20) (4 * d * d)
  (List.range (d * d)).map (fun k => layBf.decode (layBf.convert .rne false 0 (v32 (fld bs (4 * k) 4))).1)

/-- D of the elements of block b, M' in BF16 given by element, 0 where an element takes no part: M' itself without sides; one
product with one side; with both the order of the two products is the plane's (R217, R229). -/
def State.directionOf (s : State) (c : GroupCtx) (b : Nat) (xs : List Nat) (pend : Tbl Nat) : List Val :=
  let m (x : Nat) : Val := layBf.decode (Tbl.get 0 pend x % 2 ^ 16)
  if !gLeft c.r && !gRight c.r then xs.map m
  else
    let i := b / blockCols c.r
    let j := b % blockCols c.r
    let p := partLen (gRows c.r) i
    let q := partLen (gCols c.r) j
    let at' (a k : Nat) : Nat := (1024 * i + a) * gPitch c.r + 1024 * j + k
    let ms := bytesOf ((List.range (p * q)).map (fun k => m (at' (k / q) (k % q))))
    let pl := if gLeft c.r then s.rootBf c oRootL (gRows c.r) i else []
    let pr := if gRight c.r then s.rootBf c oRootR (gCols c.r) j else []
    let left := leBytes 4 p ++ bytesOf pl
    let right := leBytes 4 q ++ bytesOf pr
    xs.map (fun x =>
      let a := xRow c.r x - 1024 * i
      let k := xCol c.r x - 1024 * j
      if gLeft c.r && gRight c.r then v32 (Config.product (left ++ right) ms (a * q + k)).toNat
      else if gLeft c.r then passProduct (rowOf p pl a) ((List.range p).map (fun r => m (at' r k))) left ms (a * q + k)
      else passProduct ((List.range q).map (fun r => m (at' a r))) (colOf q pr k) ms right (a * q + k))

/-- Values by element as lanes of the elements listed, masked where there is none; both rise. -/
def lanesOf : List Nat → List (Nat × Val) → List (Option Val)
  | [], _ => []
  | _ :: t, [] => none :: lanesOf t []
  | x :: t, (y, v) :: r => if x = y then some v :: lanesOf t r else none :: lanesOf t ((y, v) :: r)

/-- s = sqrt(sum / n) (R228) where it has one value whatever the rounding of its steps: NaN, an infinity, 0, or a root
that is exact. Nothing otherwise: the spec gives the steps (R229) but not their rounding. -/
def exactScale (sum : Val) (n : Nat) : Option Val :=
  match sum with
  | .fin neg m e =>
    if m = 0 then some .zero
    else
      let k := ((List.range 22).filter (fun i => decide (n % 2 ^ (i + 1) = 0))).length
      let e' := e - k
      let q := m / (n / 2 ^ k)
      let (q, e'') := if e' % 2 = 0 then (q, e') else (2 * q, e' - 1)
      let z := ((List.range 40).filter (fun i => decide (q % 4 ^ (i + 1) = 0))).length
      let r := floorSqrt 16 (q / 4 ^ z)
      if neg || decide (m % (n / 2 ^ k) ≠ 0) || decide (r * r ≠ q / 4 ^ z) then none
      else some (.fin false r (e'' / 2 + z))
  | v => some v

/-- E of the elements of block b: s × sign(D), s over the block's elements that take part in row-major order (R228, R229);
SIGN passes ±0 and NaN (R123). -/
def State.direction (s : State) (c : GroupCtx) (b : Nat) (xs : List Nat) (pend : Tbl Nat) : List Val × Bool :=
  let bad := xs.any (fun x => bit (Tbl.get 0 pend x) 16) || s.rootMarked c b
  let ds := s.directionOf c b xs pend
  let c0 := b % blockCols c.r * 1024
  let places := (List.range (partLen (gRows c.r) (b / blockCols c.r))).flatMap (fun i =>
    (List.range (min 1024 (gCols c.r - c0))).map (fun j => (b / blockCols c.r * 1024 + i) * gPitch c.r + c0 + j))
  let lanes := lanesOf places (xs.zip (ds.map (fun d => mul32 d d)))
  let join (a b : Option Val) : Option Val :=
    match a, b with | some x, some y => some (add32 x y) | some x, none => some x | none, y => y
  let sum := match runFold join (ceilDiv lanes.length 64) none lanes with | some (some v) => v | _ => .zero
  let sc := (exactScale sum ds.length).getD (v32 (Config.rootMean (to32 .rne 0 sum) ds.length).toNat)
  (ds.map (fun d => mul32 sc (floatOp 0x0F d d d)), bad)

/-- U2 on element x with its E: the bytes of the weight's planes, rounded once, their mark, counts (R229). -/
def State.u2 (s : State) (c : GroupCtx) (x : Nat) (e : Val) (bad : Bool) : List (Nat × Byte × Bool) × Bool × Health :=
  let p := c.p
  let w16 (oo : Nat) : Nat × Bool := (leNat (s.rdAt p (gAddr c.r oo + 2 * x) 2), s.markAt p (gAddr c.r oo + 2 * x) 2)
  let (w, mark) := if gMaster c.r then
      let (h, m1) := w16 oHi
      let (l, m2) := w16 oLo
      (v32 (h * 2 ^ 16 + l), m1 || m2)
    else let (b, m) := w16 oW; (layBf.decode b, m)
  let (u, h0) := round32 (Val.add (Val.mul c.wd w) e)
  let v := Val.add w (Val.mul c.lr u).negate
  let q := mark || bad
  let h := ((inHealth w).add (inHealth e)).add h0
  if gMaster c.r then
    let (f, h1) := lay32.convert .rne true 0 v
    let (b, h2) := layBf.convert .rne false 0 (v32 f)
    (bytesAt (gAddr c.r oHi + 2 * x) (leBytes 2 (f / 2 ^ 16)) q ++ bytesAt (gAddr c.r oLo + 2 * x) (leBytes 2 (f % 2 ^ 16)) q ++
      bytesAt (gAddr c.r oW + 2 * x) (leBytes 2 b) q, q, ((h.add h1).add h2).add (outHealth .bf16 b))
  else
    let (b, h1) := layBf.convert .stoch false (c.draw 0 x) v
    (bytesAt (gAddr c.r oW + 2 * x) (leBytes 2 b) q, q, (h.add h1).add (outHealth .bf16 b))

/-- U2 on the elements of a block, written together. -/
def PhaseOut.weights (o : PhaseOut) (c : GroupCtx) (xs : List Nat) (es : List Val) (bad : Bool) : PhaseOut :=
  let rs := (xs.zip es).map (fun (x, e) => o.s.u2 c x e bad)
  { (o.put c.p (rs.flatMap (fun r => r.1))) with
    health := rs.foldl (fun h r => h.add r.2.2) o.health, bad := o.bad || rs.any (fun r => r.2.1) }

/-! ### Factors and the close -/

/-- g of block (i, j) by rows, 0 where an element takes no part (R228, R235). -/
def State.gradBlock (s : State) (c : GroupCtx) (i j : Nat) : List (List Val) :=
  (List.range (partLen (gRows c.r) i)).map (fun a => (List.range (partLen (gCols c.r) j)).map (fun k =>
    let x := (1024 * i + a) * gPitch c.r + 1024 * j + k
    if s.elemLive c x then Val.mul c.inv (s.gradientAt c x).1 else .zero))
def transpose (q : Nat) (g : List (List Val)) : List (List Val) := (List.range q).map (fun k => g.map (fun r => r.getD k .zero))

/-- The sum of g gᵀ over blocks of d rows in the order given, each term and each addition rounded RNE (R229). -/
def gramSum (d : Nat) (gs : List (List (List Val))) : List Val :=
  let ops := gs.map (fun g => (g, leBytes 4 d ++ bytesOf g.flatten))
  (List.range (d * d)).map (fun k =>
    match ops.map (fun (g, bs) => passProduct (g.getD (k / d) []) (g.getD (k % d) []) bs bs k) with
    | [] => .zero
    | t :: r => r.foldl add32 t)

/-- A block that no gradient element reaches adds no term. -/
def State.blockLive (s : State) (c : GroupCtx) (i j : Nat) : Bool := !(s.blockElems c (i * blockCols c.r + j)).isEmpty

/-- The factors of a side after the update: BETA2 × F + (1 − BETA2) × the sum, the product rounded, then one FMA (R228,
R229); each word keeps the mark it was read with (R239). -/
def State.newFactors (s : State) (c : GroupCtx) (left : Bool) : List (Nat × Byte × Bool) :=
  let b2 := v32 (fld c.r 44 4)
  let n := if left then gRows c.r else gCols c.r
  let a := gAddr c.r (if left then oL else oR)
  (List.range (ceilDiv n 1024)).flatMap (fun i =>
    let d := partLen n i
    let gs := if left then
        ((List.range (blockCols c.r)).filter (s.blockLive c i)).map (s.gradBlock c i)
      else ((List.range (blockRows c.r)).filter (fun r => s.blockLive c r i)).map (fun r => transpose d (s.gradBlock c r i))
    ((List.range (d * d)).zip (gramSum d gs)).flatMap (fun (k, t) =>
      let o := a + 4 * i * 2 ^ 20 + 4 * k
      let f := v32 (leNat (s.rdAt c.p o 4))
      bytesAt o (leBytes 4 (to32 .rne 0 (fma32 b2 f (mul32 (sub32 cOne b2) t)))) (s.markAt c.p o 4)))

def PhaseOut.factors (o : PhaseOut) (c : GroupCtx) : PhaseOut :=
  let l := (if gLeft c.r then o.s.newFactors c true else []) ++ (if gRight c.r then o.s.newFactors c false else [])
  { (o.put c.p l) with bad := o.bad || l.any (fun x => x.2.2) }

/-- Take a phase's effects: health to the bank, poison to the group, mirrored units to the partner (R387). -/
def State.takePhase (u : Update) (g : GroupWork) (o : PhaseOut) (weights : Bool) : State × GroupWork :=
  let s := o.s.health (o.s.bankOf u.q) o.health
  let mode := s.mirrorMode u.part
  let (k, s) := if mode = 2 ∨ (mode = 1 ∧ weights) then s.mirrorUnits u.part g.index o.touched else (0, s)
  (s, { g with poison := g.poison || o.bad, frames := g.frames + k })

/-- The group is applied: factors, then the record in one write (R226, R239). -/
def State.applyGroup (s : State) (u : Update) (g : GroupWork) : State :=
  let c := s.groupCtx u g
  let (s, g) := State.takePhase u g (({ s := s } : PhaseOut).factors c) false
  let r := putFld (putFld (putFld c.r 0 8 c.t) 8 4 (g.hdrStep + 1)) 16 2 (if g.poison then stPoison else stDone)
  (s.onGroup u.id g.index (fun _ => g)).closeGroup u g r

/-- Groups without element work are applied as they come up. -/
def State.emptyGroups (s : State) (id : Nat) : Nat → State
  | 0 => s
  | n + 1 =>
    match s.upd id with
    | none => s
    | some u =>
      match u.current with
      | some g => if g.cls = 5 ∧ g.blocks = 0 ∧ !u.stopping then (s.applyGroup u g).emptyGroups id n else s
      | none => s

/-- The plane serves the engines once its body has started (R217). A group that has begun is finished whatever ends the
plane's run, as a cut falls between groups (R192, R213; DEDUCED, log 86). -/
def State.planeServes (s : State) (u : Update) : Bool :=
  u.begun || (!u.aborted &&
    (u.run == 0 || (match s.run u.run with | some r => r.start.isSome && decide (0 < r.bodies) | none => true)))

/-- Phase A of block b (R230): after A(b − 1), and after B(b − 2). -/
def State.momentum (s : State) (u : Update) (b : Nat) : State :=
  match u.current with
  | none => s
  | some g =>
    if g.cls ≠ 5 ∨ g.aDone ≠ b ∨ g.blocks ≤ b ∨ g.bDone + 1 < g.aDone ∨ !(s.planeServes u) ∨ (u.stopping ∧ g.aDone = 0) then s
    else
      let c := s.groupCtx u g
      let s := if b = 0 then s.showGroup u.part (some g.index) else s
      let s := if b = 0 ∧ gAddr c.r oRule ≠ 0 then s.putVectors c else s
      let ks := s.phaseA c b
      let o := ({ s := s } : PhaseOut).stage c b ks [gAddr c.r oM] (some (gAddr c.r oMScale))
      let (o, pend) :=
        if gAddr c.r oRule ≠ 0 then (o.rules s c 0 ks, ([] : List (Nat × Nat)))
        else ks.foldl (fun (o, l) k => let (o', m) := o.u1 s c k; (o', l ++ m)) (o, ([] : List (Nat × Nat)))
      let o := o.stamps c b
      let (s, g) := State.takePhase u g o false
      s.onGroup u.id g.index (fun _ =>
        { g with aDone := b + 1, pend := pend.foldl (fun t (x, v) => Tbl.put t x v) g.pend })

/-- Phase B of block b: after A(b + 1), or after the last A (R230); with the last block the group is applied. -/
def State.weight (s : State) (u : Update) (b : Nat) : State :=
  match u.current with
  | none => s
  | some g =>
    if g.cls ≠ 5 ∨ g.bDone ≠ b ∨ g.aDone < min (b + 2) g.blocks ∨ g.blocks ≤ b ∨ !(s.planeServes u) then s
    else
      let c := s.groupCtx u g
      let xs := s.blockElems c b
      let ks := xs.foldl (fun l x => setIns l (x / 32)) []
      let o := ({ s := s } : PhaseOut).stage c b ks
        (if gMaster c.r then [gAddr c.r oHi, gAddr c.r oLo] else [gAddr c.r oW]) none
      let o :=
        if gAddr c.r oRule ≠ 0 then o.rules s c 1 (s.phaseA c b)
        else let (es, bad) := s.direction c b xs g.pend; o.weights c xs es bad
      let (s, g) := State.takePhase u g o true
      let g := { g with bDone := b + 1, pend := g.pend.filter (fun y => !(xs.contains y.1)) }
      let s := s.onGroup u.id g.index (fun _ => g)
      if g.bDone = g.blocks then
        let s := s.applyGroup u g
        (s.emptyGroups u.id u.groups.length).updateCheck u.id
      else s

end Sys2Proof.Machine
end

