-- ==== Sys2Proof/Machine/Update.lean ====
section
/-!
DEFINITION. The commands on parameter groups (09 R214 to R239): UPDATE_STEP, ROOT_REFRESH, GROUP_WRITE, and the rows
MOMENTUM_PHASE and WEIGHT_PHASE.
-/
namespace Sys2Proof.Machine

/-! ### The rows -/

/-- The plane of a command on groups (R217): the frond whose plane stands in the slot, entered for one body. -/
def State.planeRun (s : State) (id q p slot step : Nat) : Except Earned (Nat × State) :=
  match (s.size p).tiles.find? (fun t => ((s.tile t).ctx slot).st == 2) with
  | none => .error ⟨stConflict, conflictAt 2 0, 0⟩
  | some t =>
    let x := (s.tile t).ctx slot
    match Tbl.find (s.part p).fronds x.digest.toNat with
    | none => .error ⟨stConflict, conflictAt 2 (s.localTile t), 0⟩
    | some (_, tiles) =>
      match tiles.find? (fun t => !s.holds t slot x.digest.toNat x.plane.toNat) with
      | some t => .error ⟨stConflict, conflictAt 2 (s.localTile t), 0⟩
      | none =>
        let info := planeInfo slot (s.headerOf tiles slot)
        .ok (s.newRun id q p x.digest.toNat tiles [{ info with last := true }] 1 0 step)

/-- While PAIRED, a command on groups waits until every other has completed (R388). -/
def State.pairWaits (s : State) (q : Nat) : Bool :=
  let p := (s.queue q).part.toNat
  s.mirrorMode p != 0 && s.work.updates.any (fun u => u.part == p)

/-- UPDATE_STEP: admission, classes, the records of groups that are not applied (R223 to R226). -/
def State.updateBody (s : State) (q id : Nat) (b : List Byte) : Except Earned State :=
  let p := (s.queue q).part.toNat
  let table := cAddr b 24
  let xs := s.groupList p (cAddr b 32) (fld b 40 4)
  let sr := cAddr b 48
  let r := s.rdAt p sr 64
  match s.admitBad q p 0 table (cAddr b 32) xs with
  | some e => .error e
  | none =>
    if s.markAt p sr 64 then .error ⟨stPoison, 0, 0⟩
    else match scaleBad r with
    | some o => .error ⟨stParamRange, fieldAt 5 o, 0⟩
    | none =>
      if s.mirrorMode p = 2 ∧ (s.part p).pair.bytes < sr + 64 then .error ⟨stParamRange, fieldAt 5 0, 0⟩
      else
        match s.planeRun id q p (bits (fld b 44 1) 0 2) (fld b 16 8) with
        | .error e => .error e
        | .ok (run, s) =>
          let skip := s.anyNonfinite p table xs
          let gs := xs.map (s.classOf p table skip)
          let u : Update := { id := id, q := q, part := p, kind := 0, step := fld b 16 8, table := table, record := sr,
                              inv := fld r 4 4, skip := skip, groups := gs, run := run, coverAt := s.counted p }
          let s := ((s.startAt q id s.mclk).modWork (fun w => { w with updates := w.updates ++ [u] })).traceCmd q id
            (s.ueSources p) 0x01 0
          .ok ((gs.foldl (fun s g =>
            if g.cls = 2 ∨ g.cls = 3 ∨ g.cls = 4 then s.closeGroup u g (idleRecord (s.rdAt p (u.recAt g.index) 256) g)
            else s) s).emptyGroups id gs.length)

def execUpdateStep (q : Nat) (s : State) : Host.Outcome State Fault Refusal :=
  .next (if s.pairWaits q then s else s.dispatch q 0x40 (fun s id b => s.updateBody q id b))

/-- A group is due for new roots (R231). -/
def rootDue (r : List Byte) (force : Bool) : Bool :=
  (gLeft r || gRight r) && decide (1 ≤ gStep r) &&
  (force || (decide (fld r 56 4 ≠ 0) && decide (fld r 64 8 + fld r 56 4 ≤ gStep r)))

def State.refreshBody (s : State) (q id : Nat) (b : List Byte) : Except Earned State :=
  let p := (s.queue q).part.toNat
  let table := cAddr b 16
  let xs := s.groupList p (cAddr b 24) (fld b 32 4)
  match s.admitBad q p 1 table (cAddr b 24) xs with
  | some e => .error e
  | none =>
    match s.planeRun id q p (bits (fld b 36 1) 0 2) 0 with
    | .error e => .error e
    | .ok (run, s) =>
      let gs := xs.map (fun x =>
        let due := rootDue (s.rdAt p (table + 256 * x) 256) (bit (fld b 37 1) 0)
        ({ index := x, cls := if due then 6 else 7, written := !due } : GroupWork))
      let u : Update := { id := id, q := q, part := p, kind := 1, table := table, groups := gs, run := run,
                          coverAt := s.counted p }
      .ok (((s.startAt q id s.mclk).modWork (fun w => { w with updates := w.updates ++ [u] })).traceCmd q id
        (s.ueSources p) 0x01 0)

def execRootRefresh (q : Nat) (s : State) : Host.Outcome State Fault Refusal :=
  .next (if s.pairWaits q then s else s.dispatch q 0x41 (fun s id b => s.refreshBody q id b))

/-- GROUP_WRITE (R237): the masked 8-byte fields in one record write. -/
def State.groupWriteBody (s : State) (q id : Nat) (b : List Byte) : Except Earned State :=
  let p := (s.queue q).part.toNat
  let table := cAddr b 16
  let x := fld b 24 2
  if s.groupBusy p (table + 256 * x) then .error ⟨stConflict, conflictAt 3 x, 0⟩
  else
    let r := s.rdAt p (table + 256 * x) 256
    let mask := fld b 28 4
    let new := ((List.range 32).map (fun i => if bit mask i then slice b (32 + 8 * i) 8 else slice r (8 * i) 8)).flatten
    let g : GroupWork := { index := x, cls := 8, mask := mask }
    let u : Update := { id := id, q := q, part := p, kind := 2, table := table, groups := [g] }
    let s := (s.startAt q id s.mclk).modWork (fun w => { w with updates := w.updates ++ [u] })
    .ok ((s.closeGroup u g new).updateCheck id)

def execGroupWrite (q : Nat) (s : State) : Host.Outcome State Fault Refusal :=
  .next (if s.pairWaits q then s else s.dispatch q 0x42 (fun s id b => s.groupWriteBody q id b))

/-! ### The phases -/

def execMomentumPhase (id block : Nat) (s : State) : Host.Outcome State Fault Refusal :=
  .next (s.unlessHalted (fun s => match s.upd id with | some u => s.momentum u block | none => s))

def execWeightPhase (id block : Nat) (s : State) : Host.Outcome State Fault Refusal :=
  .next (s.unlessHalted (fun s => match s.upd id with | some u => s.weight u block | none => s))

end Sys2Proof.Machine
end

