-- ==== Sys2Proof/Machine/QueueEvents.lean ====
section
/-!
DEFINITION. What happens to queues beside their commands (12 R281 to R310, 07 R191 to R194): enable, disable, resume,
doorbells, time-outs, completion records, QUIESCE and its end.
-/
namespace Sys2Proof.Machine

/-! ### Enable, disable, resume (R17, R281 to R283, R300) -/

/-- The load of a control core, which the spec does not define: the number of queues bound to it (DESIGN CHOICE, log 14). -/
def State.coreLoad (s : State) (c : Nat) : Nat := (s.qwork.filter (fun (_, x) => x.core == some c)).length

/-- The least-loaded control core of a partition, the lowest-numbered of those equally loaded (R17). -/
def State.leastCore (s : State) (p : Nat) : Nat :=
  let cs := (List.range (4 * s.nDies)).map (fun i => 4 * s.firstDie p + i)
  cs.foldl (fun a c => if s.coreLoad c < s.coreLoad a then c else a) (cs.headD 0)

/-- The conditions of R282 on a queue's registers and partition. -/
def State.enableOk (s : State) (w : Queue) : Bool :=
  let p := w.part.toNat
  let size (l : BitVec 5) : Bool := decide (4 ≤ l.toNat) && decide (l.toNat ≤ 16)
  let inHbm (base n : Nat) : Bool := decide (base * 4096 + n ≤ s.capacity)
  s.mod.done && decide (p < s.nParts) && (s.part p).st == 1 && !s.frozen && !s.mod.fault &&
  size w.sqLog && size w.cqLog &&
  (!w.sqHbm || inHbm w.sqBase.toNat (64 * 2 ^ w.sqLog.toNat)) &&
  (!w.cqHbm || inHbm w.cqBase.toNat (32 * 2 ^ w.cqLog.toNat)) &&
  decide (w.winBase.toNat ≤ w.winLimit.toNat) && decide ((w.winLimit.toNat + 1) * 4096 ≤ s.capacity)

/-- ENABLE set on an IDLE queue: bound and started, or refused and counted. -/
def State.enableQueue (s : State) (q : Nat) : State :=
  let w := s.queue q
  if s.enableOk w then
    let core := s.leastCore w.part.toNat
    let s := s.modQueue q (fun w => { w with
      enable := true, st := if w.stepMode then 2 else 1, head := 0, sqTail := 0, cqTail := 0, cqHead := 0, phase := true })
    -- a source of work that appears while the partition quiesces has its stop token too (R191)
    (s.modQw q (fun _ => { core := some core, stopToken := (s.part w.part.toNat).quiescing })).pump q
  else s.modQueue q (fun w => { w with refEnables := BitVec.ofNat 16 (satAdd 16 w.refEnables.toNat 1) })

/-- ENABLE cleared: refused and counted while a fetched command waits, executes or has no record yet. -/
def State.disableQueue (s : State) (q : Nat) : State :=
  let x := s.qw q
  if x.waiting.isSome || !x.executing.isEmpty || !x.finished.isEmpty || x.stepHalt.isSome then
    s.modQueue q (fun w => { w with refEnables := BitVec.ofNat 16 (satAdd 16 w.refEnables.toNat 1) })
  else
    let s := s.modWork (fun w => { w with hostReads := w.hostReads.filter (fun r =>
      match r.use with | .slot k _ => k != q | .dma _ => true) })
    (s.modQueue q (fun w => { w with enable := false, st := 0 })).modQw q (fun _ => {})

/-- RESUME: a HALTED queue returns to RUN or STEP; ignored in any other state. -/
def State.resumeQueue (s : State) (q : Nat) : State :=
  if (s.queue q).st = 3 then
    (s.modQueue q (fun w => { w with st := if w.stepMode then 2 else 1 })).pump q
  else s

/-- A write ignored because the queue is not IDLE (R281). -/
def State.refuseWrite (s : State) (q : Nat) : State :=
  s.modQueue q (fun w => { w with refWrites := BitVec.ofNat 16 (satAdd 16 w.refWrites.toNat 1) })

/-- A value written to Q_CTRL (R281, R460): the ring places only while IDLE, then ENABLE, then RESUME. -/
def State.writeQCtrl (s : State) (q v : Nat) : State :=
  let w := s.queue q
  let moves := w.sqHbm != bit v 4 || w.cqHbm != bit v 5
  let s := if w.st = 0 then s.modQueue q (fun w => { w with sqHbm := bit v 4, cqHbm := bit v 5 })
           else if moves then s.refuseWrite q else s
  let s := s.modQueue q (fun w => { w with stepMode := bit v 1, stopOnReject := bit v 2 })
  let s := if bit v 0 then (if w.st = 0 then s.enableQueue q else s) else if w.st = 0 then s else s.disableQueue q
  if bit v 3 then s.resumeQueue q else s

/-- Keep a write for the end of the partition change. -/
def State.holdWrite (s : State) (kind q v : Nat) : State :=
  s.modMod (fun m => { m with changeHeld := m.changeHeld ++ [(kind, q, v)] })

/-- The QUEUE block answers from the end of F5 (R408); while a partition change is in progress a write of Q_CTRL is held
(R26). -/
def State.qCtrl (s : State) (v : Nat) : State :=
  let q := s.sel.queue.toNat
  if !s.allServed then s
  else if s.mod.changeBusy then s.holdWrite 0 q v
  else s.writeQCtrl q v

/-- The three rows write Q_CTRL of the selected queue with their own bit as the row has it. -/
def execQueueEnable (v : Nat) (s : State) : Host.Outcome State Fault Refusal :=
  .next (s.qCtrl (setBits v 0 1 1))
def execQueueDisable (v : Nat) (s : State) : Host.Outcome State Fault Refusal :=
  .next (s.qCtrl (setBits v 0 1 0))
def execResume (v : Nat) (s : State) : Host.Outcome State Fault Refusal :=
  .next (s.qCtrl (setBits v 3 1 1))

/-! ### Doorbells (R284, R287) -/

/-- A doorbell write ignored and logged. -/
def State.ignoreBell (s : State) (q : Nat) : State :=
  s.modQueue q (fun w => { w with ignDoor := BitVec.ofNat 16 (satAdd 16 w.ignDoor.toNat 1) })

def State.bellTail (s : State) (q v : Nat) : State :=
  let w := s.queue q
  if w.st = 0 ∨ 2 ^ w.sqLog.toNat ≤ v then s.ignoreBell q
  else (s.modQueue q (fun w => { w with sqTail := BitVec.ofNat 16 v })).pump q

def State.bellHead (s : State) (q v : Nat) : State :=
  let w := s.queue q
  if w.st = 0 ∨ 2 ^ w.cqLog.toNat ≤ v then s.ignoreBell q
  else s.modQueue q (fun w => { w with cqHead := BitVec.ofNat 16 v })

/-- A doorbell value acts: kind 1 the tail, kind 2 the head; or it waits for the end of a partition change (R26). -/
def State.bellNow (s : State) (kind q v : Nat) : State :=
  if s.mod.changeBusy then s.holdWrite kind q v
  else
    let s := s.wakeCore q
    if kind = 1 then s.bellTail q v else s.bellHead q v

/-- Doorbells answer from the end of F5 (R408) and act after a release (R197). -/
def State.bell (s : State) (c : Instr) (kind q v : Nat) : State :=
  let s := s.quiet
  if !s.allServed then s
  else if s.frozen then s.modDbg (fun d => { d with held := d.held ++ [c] })
  else s.bellNow kind q v

def execSqTail (q v : Nat) (s : State) : Host.Outcome State Fault Refusal :=
  .next (s.bell (.sqTail q v) 1 q v)
def execCqHead (q v : Nat) (s : State) : Host.Outcome State Fault Refusal :=
  .next (s.bell (.cqHead q v) 2 q v)

/-! ### Completion records (R287, R295, R301, R303, R309) -/

/-- The operation of a SIGNAL_OP (R294) with its operand. -/
def signalOf : Nat → Option (Nat × Nat)
  | 1 => some (0x01, 0) | 2 => some (0x02, 0) | 3 => some (0x03, 1) | 4 => some (0x05, 1)
  | 5 => some (0x05, 2 ^ 64 - 1) | 6 => some (0x07, 0) | _ => none

/-- The signal of a finished command (R295). -/
def State.signalOn (s : State) (q : Nat) (f : Fin) : State :=
  match signalOf (cSigOp f.bytes) with
  | some (op, v) =>
    if f.sigOk && (signals f.status.code || cSigAlways f.bytes) then
      (s.syncOp (s.physObj (s.queue q).part.toNat (cSigSync f.bytes)) op v).collsGo
    else s
  | none => s

/-- The 32 bytes of a completion record (R303). -/
def recordBytes (tag code start stop slip digest snap flags count detail : Nat) : List Byte :=
  leBytes 2 tag ++ leBytes 2 code ++ leBytes 6 start ++ leBytes 6 stop ++ leBytes 4 slip ++ leBytes 4 digest ++
    leBytes 2 snap ++ leBytes 1 flags ++ leBytes 1 count ++ leBytes 4 detail

/-- Write a record at the completion tail, which advances; the phase inverts at the end of the ring. -/
def State.putRecord (s : State) (q : Nat) (bytes : Nat → List Byte) : State :=
  let w := s.queue q
  let a := w.cqBase.toNat * 4096 + w.cqTail.toNat * 32
  let bs := bytes (b01 w.phase)
  let s := if w.cqHbm then s.wrAt w.part.toNat a bs
           else { s with hostOut := { addr := a, bytes := bs, ep := false } :: s.hostOut }
  let wrap := w.cqTail.toNat + 1 == 2 ^ w.cqLog.toNat
  s.modQueue q (fun w => { w with
    cqTail := if wrap then 0 else BitVec.ofNat 16 (w.cqTail.toNat + 1), phase := if wrap then !w.phase else w.phase })

/-- The queue event record of a step (R309): the queue enters HALTED. -/
def State.stepRecord (s : State) (q tag : Nat) : State :=
  let m := s.mclk
  let s := s.putRecord q (fun ph => recordBytes tag stStepHalt m m 0 0 0xFFFF (ph + 2) 0 0)
  ((s.modQueue q (fun w => { w with st := 3 })).modQw q (fun x => { x with stepHalt := none })).raise (q + 1)

/-- The record of a finished command, after its snapshot and its signal, in the mclk after its last mclk of work at
the earliest: the snapshot samples the bank in mclk END + 1 (R444). -/
def State.finRecord (s : State) (q : Nat) (f : Fin) : State :=
  let s := s.untilMclk (f.stop + 1)
  let w := s.queue q
  let s := s.modQw q (fun x => { x with finished := x.finished.drop 1,
                                        fence := x.fence && cOp f.bytes != 2 })
  let (s, snap) := match f.bank with
    | some b => s.ringSnapshot w.bank.toNat b ((f.stop + 1) % 2 ^ 48) (cTag f.bytes) q
    | none => (s, 0xFFFF)
  let s := s.signalOn q f
  let s := s.putRecord q (fun ph => recordBytes (cTag f.bytes) f.status.code f.start f.stop f.slip f.digest snap ph
    f.status.count f.status.detail)
  let s := if cIrq f.bytes then s.raise (q + 1) else s
  if (s.queue q).st = 2 then s.modQw q (fun x => { x with stepHalt := some (cTag f.bytes) })
  else if (s.queue q).st = 1 && w.haltsAfter f then s.modQueue q (fun w => { w with st := 3 })
  else s

/-- The next record of a queue: that of its oldest finished command, then a step's event record, each only while two
records are free and the queue's core is sound (R407). -/
def State.nextRecord (s : State) (q : Nat) : State :=
  let room (s : State) : Bool := decide (2 ≤ (s.queue q).freeRecords)
  let bad := match (s.qw q).core with | some c => s.mod.badCores.contains c | none => false
  if bad || !(room s) then s
  else
    let s := match (s.qw q).finished with
      | f :: _ => if (s.qw q).stepHalt.isNone then s.finRecord q f else s
      | [] => s
    let s := match (s.qw q).stepHalt with
      | some tag => if room s then s.stepRecord q tag else s
      | none => s
    s.pump q

def execCompletionRecord (q : Nat) (s : State) : Host.Outcome State Fault Refusal :=
  .next (s.unlessFrozen (fun s => s.nextRecord q))

/-! ### QUIESCE (R191 to R194) -/

/-- A run meets its stop token (R192): no later body and no further plane; one not started ends. -/
def State.stopRun (s : State) (r : Run) : State :=
  if r.start.isSome then s.onRun r.id (fun x => { x with stopping := true })
  else
    let s := s.modWork (fun w => { w with runs := w.runs.filter (fun x => x.id != r.id) })
    if s.work.updates.any (fun u => u.id == r.owner) then s.onUpd r.owner (fun u => { u with run := 0 })
    else s.finish r.q r.owner [⟨stStopped, 0, 0⟩]

/-- An operator meets its stop token: takes return the end value; one not started ends. -/
def State.stopOp (s : State) (o : OpRun) : State :=
  if o.start.isSome then (s.onOp o.id (fun x => { x with stopping := true })).opCheck o.id else s.opEnd o stStopped

/-- A list of descriptors meets its stop token: those started complete, no further one starts. -/
def State.stopDmas (s : State) (owner q : Nat) (stage : Option Nat) : State :=
  let mine (d : Dma) := d.owner == owner && d.stage == stage
  let cut := s.work.dmas.any (fun d => mine d && !d.started)
  if !cut then s
  else
    let s := s.modWork (fun w => { w with dmas := w.dmas.filter (fun d => !(mine d && !d.started)) })
    let s := s.earnOn q owner ⟨stStopped, 0, 0⟩
    if s.work.dmas.any (fun d => mine d && !d.done) then s
    else
      let s := s.modWork (fun w => { w with dmas := w.dmas.filter (fun d => !mine d) })
      match stage with
      | some j => s.stageDone owner j s.mclk
      | none => s.finish q owner [⟨stDone, 0, 0⟩]

/-- Queues whose partition is `p`. -/
def State.queuesOf (s : State) (p : Nat) : List Nat :=
  (List.range 64).filter (fun q => (s.queue q).st != 0 && (s.queue q).part.toNat == p)

/-- Stop tokens at every source of work of a partition. -/
def State.placeTokens (s : State) (p : Nat) : State :=
  let s := s.modPart p (fun x => { x with quiescing := true })
  let s := (s.queuesOf p).foldl (fun s q => s.modQw q (fun x => { x with stopToken := true })) s
  let s := s.modWork (fun w => { w with
    fused := updWhere (fun f => f.part == p) (fun f => { f with stopping := true }) w.fused,
    updates := updWhere (fun u => u.part == p) (fun u => { u with stopping := true }) w.updates })
  let s := (s.work.runs.filter (fun r => r.part == p)).foldl State.stopRun s
  let s := (s.work.ops.filter (fun o => o.part == p)).foldl State.stopOp s
  let lists := ((s.work.dmas.filter (fun d => d.part == p)).map (fun d => (d.owner, d.q, d.stage))).eraseDups
  let s := lists.foldl (fun s (o, q, st) => s.stopDmas o q st) s
  let s := (s.work.colls.filter (fun c => c.part == p)).foldl (fun s c => s.collFail c ⟨stStopped, 0, 0⟩ none) s
  let s := (s.work.fused.filter (fun f => f.part == p)).foldl (fun s f => s.fusedGo f.id) s
  (s.work.updates.filter (fun u => u.part == p)).foldl (fun s u => s.updateCheck u.id) s

/-- QUIESCE: in QUIESCED it completes at once (R299). -/
def State.quiesceBody (s : State) (q id : Nat) : State :=
  let p := (s.queue q).part.toNat
  if (s.part p).st = 3 then s.atOnce q id
  else (s.startAt q id s.mclk).placeTokens p

def execQuiesce (q : Nat) (s : State) : Host.Outcome State Fault Refusal :=
  .next (s.dispatch q 0x7E (fun s id _ => .ok (s.quiesceBody q id)))

/-- Every unit of a partition has halted: no work in progress, every sent frame acknowledged. -/
def State.halted (s : State) (p : Nat) : Bool :=
  let w := s.work
  !(w.runs.any (fun r => r.part == p) || w.loads.any (fun l => l.part == p) || w.ops.any (fun o => o.part == p) ||
    w.dmas.any (fun d => d.part == p) || w.updates.any (fun u => u.part == p) || w.colls.any (fun c => c.part == p) ||
    w.fused.any (fun f => f.part == p)) &&
  (s.portsOf p).all (fun i => (s.link i).unacked.isEmpty)

/-- The partition enters QUIESCED: its queues in RUN or STEP halt (R302), the tokens are gone, vector 0 is raised. -/
def State.quiesced (s : State) (p : Nat) : State :=
  if (s.part p).quiescing && s.halted p then
    let s := s.finishOp p 0x7E [⟨stDone, 0, 0⟩]
    let s := (s.queuesOf p).foldl (fun s q =>
      (s.modQueue q (fun w => { w with st := 3 })).modQw q (fun x => { x with stopToken := false })) s
    ((s.modPart p (fun x => { x with st := 3, quiescing := false })).event 4).event 1
  else s

def execQuiesced (p : Nat) (s : State) : Host.Outcome State Fault Refusal :=
  .next (s.unlessFrozen (fun s => s.quiesced p))

/-! ### Time-outs (R286, R296, R297) -/

/-- The rest of a split command has not come: BAD_LENGTH, the head moves to the tail, the queue halts. -/
def State.partialOut (s : State) (q since : Nat) : State :=
  let w := s.queue q
  let s := s.untilLive (since + usRoot (w.timeouts.getD 0 0).toNat)
  let b := if w.sqHbm then (s.ringBytes q w.head.toNat 1).1 else (s.qw q).fetched
  let (id, s) := s.fresh
  let f : Fin := { id := id, bytes := b, status := ⟨stBadLength, fieldAt 0 2, 0⟩, start := s.mclk, stop := s.mclk,
                   bank := some (s.bank w.bank.toNat), sigOk := s.sigFieldsOk w.part.toNat b, halt := true }
  let s := s.modQueue q (fun w => w.advance w.avail)
  s.modQw q (fun x => { x with finished := x.finished ++ [f], partialAt := none, fetched := [] })

def execPartialCommandTimeout (q : Nat) (s : State) : Host.Outcome State Fault Refusal :=
  .next (s.unlessFrozen (fun s =>
    match (s.qw q).partialAt with
    | some t => s.partialOut q t
    | none => s))

/-- WAIT_TIMEOUT with the code of the wait, or a code the table does not give: a free value (R305). -/
def outAs (kind : Nat) : Earned := ⟨stWaitTimeout, kind, 0⟩
def State.outFree (s : State) : Earned × State := let (v, s) := s.free; (outAs (v.toNat % 16), s)

/-- A run that has not started leaves; one held on a HOST or LOCAL input stops (R297). -/
def State.runOut (s : State) (r : Run) : State :=
  match r.start, r.hold with
  | none, _ =>
    let busy := s.work.runs.any (fun x => x.start.isSome && x.tiles.any r.tiles.contains)
    let (e, s) := if busy then (outAs 3, s) else if s.cellsHeld r then (outAs 4, s) else s.outFree
    let s := s.modWork (fun w => { w with runs := w.runs.filter (fun x => x.id != r.id) })
    if s.work.updates.any (fun u => u.id == r.owner) then
      ((s.earnOn r.q r.owner e).onUpd r.owner (fun u => { u with run := 0, aborted := true })).updateCheck r.owner
    else s.finish r.q r.owner [e]
  | some _, some h => if 3 ≤ h.cause ∧ (h.cls = 1 ∨ h.cls = 2) then s.abandonRun r ⟨stWaitTimeout, 6 + h.input % 65536 * 65536, 0⟩ else s
  | some _, none => s

/-- The wait of an operator: its tiles, or a grant memory of its counter's die (R252). -/
def State.opOut (s : State) (o : OpRun) : State :=
  let full := decide (8 ≤ (s.work.ops.filter (fun x => x.holds && x.obj / 32768 == o.obj / 32768)).length)
  let e := outAs (if full then 5 else 2)
  match o.stage with
  | none => s.dropOp o e
  | some j =>
    let s := s.modWork (fun w => { w with ops := w.ops.filter (fun x => x.id != o.id) })
    let s := s.onFused o.owner (fun f => { f with stopping := true })
    (s.earnOn o.q o.owner e).stageDone o.owner j s.mclk

/-- When the time-out of an executing command has run from: a held run's from the start of its hold. -/
def State.outSince (s : State) (e : Exec) : Nat :=
  match (s.work.runs.find? (fun r => r.owner == e.id)) with
  | some r => match r.start, r.hold with | some _, some h => h.live | _, _ => e.since
  | none => e.since

/-- An executing command waits on something that R296 or R297 ends. -/
def State.outDue (s : State) (e : Exec) : Bool :=
  let w := s.work
  match w.runs.find? (fun r => r.owner == e.id) with
  | some r =>
    match r.start, r.hold with
    | none, _ => true
    | some _, some h => decide (3 ≤ h.cause) && (h.cls == 1 || h.cls == 2)
    | some _, none => false
  | none =>
    w.ops.any (fun o => o.owner == e.id && o.start.isNone) ||
    match cOp e.bytes with
    | 0x04 | 0x7E | 0x60 | 0x61 => true
    | 0x10 => w.loads.any (fun l => l.id == e.id && l.endsAt == 0)
    | 0x50 | 0x51 | 0x52 => w.colls.any (fun c => c.id == e.id && !c.started)
    | 0x30 | 0x31 => e.start.isNone
    | _ => false

/-- The end of an executing command by its time-out, while it waits on what R296 lists. -/
def State.execOut (s : State) (q : Nat) (e : Exec) : State :=
  let w := s.work
  let p := (s.queue q).part.toNat
  match w.runs.find? (fun r => r.owner == e.id), w.ops.find? (fun o => o.owner == e.id && o.start.isNone) with
  | some r, _ => s.runOut r
  | none, some o => s.opOut o
  | none, none =>
    match cOp e.bytes with
    | 0x04 =>
      (s.modWork (fun w => { w with waiters := w.waiters.filter (fun x => x.id != e.id) })).finish q e.id [outAs 1]
    | 0x10 =>
      match w.loads.find? (fun l => l.id == e.id && l.endsAt == 0) with
      | some l =>
        let s := s.setCtxs l.tiles (l.planes.map Prod.snd) (fun _ => {})
        (s.modWork (fun w => { w with loads := w.loads.filter (fun x => x.id != l.id) })).finish q e.id [outAs 2]
      | none => s
    | 0x50 | 0x51 | 0x52 =>
      match w.colls.find? (fun c => c.id == e.id && !c.started) with
      | some c => let (r, s) := s.outFree; s.collLeave c [r]
      | none => s
    | 0x30 | 0x31 =>
      if e.start.isNone then
        let (r, s) := s.outFree
        (s.modWork (fun w => { w with dmas := w.dmas.filter (fun d => d.owner != e.id) })).finish q e.id [r]
      else s
    | 0x7E => s.finish q e.id [outAs 7]
    | 0x60 =>
      let (r, s) := s.outFree
      (s.onPair p (fun y => { y with st := y.before })).finish q e.id [r]
    | 0x61 => let (r, s) := s.outFree; s.finish q e.id [r]
    | _ => s

/-- The waiting command of a queue times out before its dispatch: code 0 while its header wait holds it. -/
def State.waitingOut (s : State) (q : Nat) (c : Waiting) : State :=
  let s := s.untilLive (c.since + s.waitLimit q c.bytes)
  let (r, s) := if c.waitOk then s.outFree else (outAs 0, s)
  (s.endWaiting q r).pump q

def execWaitTimeout (q id : Nat) (s : State) : Host.Outcome State Fault Refusal :=
  .next (s.unlessFrozen (fun s =>
    if id = 0 then
      match (s.qw q).waiting with
      -- a command whose waits all hold does not time out (R296)
      | some c => if (s.mayDispatch q (cOp c.bytes)).isSome then s else s.waitingOut q c
      | none => s
    else
      match (s.qw q).executing.find? (fun e => e.id == id) with
      | some e => if s.outDue e then (s.untilLive (s.outSince e + s.waitLimit q e.bytes)).execOut q e else s
      | none => s))

end Sys2Proof.Machine
end

