-- ==== Sys2Proof/Machine/Debug.lean ====
section
/-!
DEFINITION. The freeze (07 R195 to R200, 06 R167), the break (19 R451), and the counter rows COUNTER_RESET and SAMPLE
(R439 to R441).
-/
namespace Sys2Proof.Machine

/-! ### Sources and messages -/

/-- Put a FREEZE (kind 0) or RELEASE (kind 1) message in the control slots of the ports of the fan-out mask: it takes the
place of the other kind of the same message (R199, R338). -/
def State.fanOut (s : State) (kind : Nat) (key : Nat → Nat) : State :=
  (maskPorts s.dbg.fanout.toNat).foldl (fun s i => s.modLink i (fun l =>
    let k := key i
    { l with ctl := l.ctl.filter (fun c => !((c.1 == 0 || c.1 == 1) && c.2.1 == k / 65536 && c.2.2 == k % 65536)) ++
                    [(kind, k / 65536, k % 65536)] })) s

/-- The key of the module's own message on a port: node identifier and sequence. -/
def State.ownKey (s : State) (i : Nat) : Nat := (s.part (s.partOfPort i)).node.toNat * 65536 + s.dbg.seq % 65536

/-- Every trace source records a class 6 event. -/
def State.traceAll (s : State) (ev payload : Nat) : State :=
  (List.range s.nParts).foldl (fun s p => (s.traceSources p).foldl (fun s src => s.traceEv src 0 ev 6 payload) s) s

/-- The freeze takes hold once a source is present and the module runs (R196): one stamp for every unit. -/
def State.freezeNow (s : State) : State :=
  if s.frozen || !s.mod.done || s.frzSources == 0 then s
  else
    let s := s.modDbg (fun d => { d with
      frozenAt := some s.clk.root, releasedAt := none, stampN := BitVec.ofNat 48 s.nclk, stampM := BitVec.ofNat 48 s.mclk })
    s.traceAll 0x0C s.nclk

/-- After a change of sources: the module freezes, stays frozen, or has its release noted (R195, R200). -/
def State.sourcesChanged (s : State) : State :=
  if s.frzSources ≠ 0 then (s.modDbg (fun d => { d with releasedAt := none })).freezeNow
  else if s.frozen then s.modDbg (fun d => { d with releasedAt := some s.clk.root })
  else s

/-- A change of the module's own sources, the pin and DEBUG: with the first of them it sends FREEZE, with the last
RELEASE (R199). -/
def State.ownSource (s : State) (f : State → State) : State :=
  let own (s : State) : Bool := s.frzSources % 4 != 0
  let before := own s
  let s := f s
  let s :=
    if own s && !before then
      let s := s.modDbg (fun d => { d with seq := d.seq + 1 })
      let s := s.modDbg (fun d => { d with seen := (maskPorts d.fanout.toNat).foldl (fun l i => setIns l (s.ownKey i)) d.seen })
      s.fanOut 0 s.ownKey
    else if before && !(own s) then s.fanOut 1 s.ownKey
    else s
  s.sourcesChanged

/-- A level of HALT_N that has passed its filter (R195). -/
def execHaltN (low : Bool) (s : State) : Host.Outcome State Fault Refusal :=
  .next (s.ownSource (fun s => s.modPins (fun p => { p with haltN := !low })))

/-- A value written to DEBUG.DBG_CTRL. -/
def State.writeDbgCtrl (s : State) (v : Nat) : State :=
  let s := s.modDbg (fun d => { d with fanout := BitVec.ofNat 18 (bits v 8 18) })
  s.ownSource (fun s => s.modDbg (fun d => { d with freezeReq := bit v 0 }))

def execFreezeReq (v : Nat) (s : State) : Host.Outcome State Fault Refusal :=
  .next (if s.allServed then s.writeDbgCtrl v else s)

/-- A FREEZE message not seen before: the peer source is present, and the message goes on (R195, R199). Every port carries
control slots, whatever its state (R355). -/
def execFreeze (port node seq : Nat) (s : State) : Host.Outcome State Fault Refusal :=
  .next (
    let k := node * 65536 + seq % 65536
    let s := s.modLink port (fun l => { l with heard := true })
    if s.dbg.seen.contains k then s
    else
      let s := s.modDbg (fun d => { d with seen := setIns d.seen k, peers := setIns d.peers k })
      (s.fanOut 0 (fun _ => k)).sourcesChanged)

/-- A RELEASE message of a freeze that is held: the source is gone, and the message goes on. -/
def execRelease (port node seq : Nat) (s : State) : Host.Outcome State Fault Refusal :=
  .next (
    let k := node * 65536 + seq % 65536
    let s := s.modLink port (fun l => { l with heard := true })
    if !(s.dbg.peers.contains k) then s
    else
      let s := s.modDbg (fun d => { d with peers := setDel d.peers k })
      (s.fanOut 1 (fun _ => k)).sourcesChanged)

/-! ### Resume (R200, R167) -/

/-- H in root cycles: whole memory frames, nclk and mclk, at least one frame, at least from the stop to the release. -/
def freezeLength (div stop release : Nat) : Nat :=
  let step := frameRoot * (div / Nat.gcd frameRoot div)
  max step (roundUp (release - stop) step)

/-- The run is held under a cause that stands before `cause` in R166: its hold's own count covers the stop. -/
def Run.heldBefore (r : Run) (cause : Nat) : Bool := match r.hold with | some h => decide (h.cause < cause) | none => false

/-- Every stamp of units and runs moves on by `h` mclk; a started run counts it as slip under `cause` (R166, R167). -/
def State.shiftUnits (s : State) (stop h cause : Nat) : State :=
  let s := { s with
    tiles := Tbl.mapV {} (fun (t : Tile) => t.shift stop h) s.tiles,
    hbmStacks := Tbl.mapV {} (fun (k : Stack) => { k with vec := k.vec.shift stop h }) s.hbmStacks }
  let s := s.modWork (fun w => { w with
    fused := w.fused.map (fun f => { f with
      swapped := f.swapped.map (fun x => shiftBy stop h x 0)
      doneAt := f.doneAt.map (fun x => shiftBy stop h x 0) }),
    dmas := w.dmas.map (fun d => { d with endAt := shiftBy stop h d.endAt 0 }),
    dmaFree := Tbl.mapV 0 (fun x => shiftBy stop h x 0) w.dmaFree,
    ops := w.ops.map (fun o => if o.start.isSome then
      { o with paused := o.paused + h, finish := Tbl.mapV 0 (· + h) o.finish } else o) })
  (s.work.runs.filter (fun r => r.start.isSome && !r.heldBefore cause)).foldl (fun s r =>
    (s.addSlip r cause h).onRun r.id (fun r => { r with
      hold := r.hold.map (fun x => { x with since := x.since + h }), movesTo := shiftBy stop h r.movesTo 0,
      leaving := r.leaving.map (fun (c, m) => (c, shiftBy stop h m 0)),
      waits := r.waits.map (fun w => { w with since := w.since + h }) })) s

/-- What was accepted while the module was frozen acts, in order of arrival (R197). -/
def State.actHeld (s : State) (c : Instr) : State :=
  match c with
  | .sqTail q v => s.bellNow 1 q v
  | .cqHead q v => s.bellNow 2 q v
  | .bar2Write a bs ep => s.bar2Do a bs ep
  | .hostReadCompletion tag ok bs =>
    match s.work.hostReads.find? (fun r => r.tag == tag) with
    | some r => s.hostAnswer r ok bs
    | none => s
  | _ => s

/-- Every unit resumes H after its stop. -/
def State.freezeResume (s : State) (stop release : Nat) : State :=
  let root := freezeLength s.clk.div stop release
  let m := s.dbg.stampM.toNat
  let s := s.untilRoot (stop + root)
  let h := root / s.clk.div
  let held := s.dbg.held
  let s := s.modDbg (fun d => { d with frozenAt := none, releasedAt := none, held := [] })
  let s := s.shiftUnits m h 1
  let s := s.modPwr (fun p => { p with paused := p.paused.map (· + root), pausedMclk := p.pausedMclk + h })
  let s := s.modWork (fun w => { w with
    waiters := w.waiters.map (fun x => { x with polled := x.polled + root / 3 }),
    loads := w.loads.map (fun l => if l.endsAt = 0 then l else { l with endsAt := l.endsAt + root }),
    loaders := Tbl.mapV 0 (fun t => if stop < t then t + root else t) w.loaders })
  let s := s.traceAll 0x0D s.nclk
  let s := held.foldl State.actHeld s
  let s := if s.pins.pairFailN then s else (List.range s.nParts).foldl (fun s p => s.failover p 4) s
  ((List.range 18).foldl State.drainRx s).pumpAll

def execFreezeResume (s : State) : Host.Outcome State Fault Refusal :=
  .next (
    match s.dbg.frozenAt, s.dbg.releasedAt with
    | some stop, some release => s.freezeResume stop release
    | _, _ => s)

/-! ### The break (R451) -/

/-- A value written to DEBUG.BREAK: CONTINUE ends the break hold, and the break disarms itself. While frozen the hold ends
after the release. -/
def State.writeBreak (s : State) (v : Nat) : State :=
  let s := s.modDbg (fun d => { d with
    brkEnable := bit v 0, brkPlane := BitVec.ofNat 2 (bits v 3 2), brkMb := BitVec.ofNat 16 (bits v 8 16) })
  if bit v 2 && s.dbg.brkHit then
    let s := s.modDbg (fun d => { d with brkHit := false, brkEnable := false })
    if s.frozen || s.pwr.paused.isSome then s
    else
      match s.work.runs.find? (fun r => match r.hold with | some h => h.cause == 1 | none => false) with
      | some r => match r.hold with | some h => s.endHold r h | none => s
      | none => s
  else s

def execContinueBreak (v : Nat) (s : State) : Host.Outcome State Fault Refusal :=
  .next (if s.allServed then s.writeBreak v else s)

/-! ### Counters -/

/-- CNT_CTRL: the selected bank is reset (R439). -/
def State.writeCntCtrl (s : State) (v : Nat) : State :=
  if bit v 0 then s.resetBank s.sel.cnt.toNat else s

def execCounterReset (v : Nat) (s : State) : Host.Outcome State Fault Refusal :=
  .next (if s.allServed then s.writeCntCtrl v else s)

/-- The 128 bytes that a sample returns: an engine record, or snapshot header bytes 64 to 191 (R441). -/
def Bank.sampled (b : Bank) (e : Nat) : List Byte := if e = 0xFFFFFFFF then slice b.sums 0 128 else b.record e

/-- A bank's sample in mclk `m`, with the ambient counts of engine `e` alone. -/
def State.sampleOne (s : State) (b e m : Nat) : Bank :=
  if (s.bank b).resetAt = m + 1 then Tbl.get {} s.work.preReset b
  else (s.ambientParts b).foldl (fun x p => s.ambientOf p ((s.partEngines p).filter (· == e)) x) (s.bank b)

/-- SAMPLE.GO (R440, R441). -/
def State.writeSample (s : State) (v : Nat) : State :=
  if bit v 0 then
    let s := s.tally s.sel.cnt.toNat
    let e := s.sel.eng.toNat
    let b := s.sampleOne s.sel.cnt.toNat e s.mclk
    let bs := b.sampled e
    { s with sel := { s.sel with
      sampleDone := true, sampleEpoch := b.epoch,
      sampleData := (List.range 16).map (fun i => BitVec.ofNat 64 (fld bs (8 * i) 8)) } }
  else s

def execSample (v : Nat) (s : State) : Host.Outcome State Fault Refusal :=
  .next (if s.allServed then s.writeSample v else s)

end Sys2Proof.Machine
end

