-- ==== Sys2Proof/Machine/Security.lean ====
section
/-!
DEFINITION. Identity and security (17 R405, R411 to R417, R467): measurements, anti-rollback, firmware update, the flash
record, debug unlock, SPDM, and PCIe configuration requests (R397, R408).
-/
namespace Sys2Proof.Machine

/-! ### Measurements (R414) -/

/-- The 48 bytes of SHA-384 over bytes. -/
def hash384 (b : List Byte) : List Byte := (List.range 48).map (Config.sha384 b)

/-- Log a measurement with the stage it was taken in; the log has 64 entries. -/
def State.measureAs (s : State) (i : Nat) (digest : List Byte) : State :=
  s.modSec (fun x => { x with meas := (x.meas ++ [(i, s.mod.stage.toNat, slice digest 0 48)]).take 64 })

/-- Measurement 4: anti-rollback level, debug state, active slot, ordering code, retirement fuse count. -/
def State.measureState (s : State) (unlocked : BitVec 2) : State :=
  s.measureAs 4 (hash384 (leBytes 1 s.fuse.rollback.toNat ++ leBytes 1 unlocked.toNat ++ leBytes 1 (b01 s.sec.active) ++
    leBytes 1 s.fuse.ordering.toNat ++ leBytes 1 s.fuse.retired.length))

/-- The present value of a measurement: the last of the log. -/
def State.measured (s : State) (i : Nat) : Option (List Byte) :=
  (s.sec.meas.reverse.find? (fun m => m.1 == i)).map (fun m => m.2.2)

/-! ### Anti-rollback (R416) -/

def State.rollbackCommit (s : State) : State :=
  if s.fuse.rollback.toNat < s.sec.runningSvn.toNat then
    let l := min 64 s.sec.runningSvn.toNat
    let s := { s with fuse := { s.fuse with rollback := BitVec.ofNat 7 l } }
    s.measureState s.sec.unlocked
  else s

def execRollbackCommit (v : Nat) (s : State) : Host.Outcome State Fault Refusal :=
  .next (if s.secServed && bit v 8 then s.rollbackCommit else s)

/-! ### Firmware update (R415) -/

/-- The slot that is not active takes an image's bytes, its state, its version numbers. -/
def State.onSlot (s : State) (slot : Bool) (valid empty : Bool) (image : List Byte) : State :=
  let k := b01 slot
  let f := s.flash
  let f := { f with valid := BitVec.ofNat 2 (setBits f.valid.toNat k 1 (b01 valid)),
                    empty := BitVec.ofNat 2 (setBits f.empty.toNat k 1 (b01 empty)) }
  { s with flash := if slot then { f with image1 := image } else { f with image0 := image } }

/-- One image block: in ascending order from 0; with the last the image must verify, and the slot becomes preferred. -/
def State.imageBlock (s : State) (block : Nat) (last verifies : Bool) (svn version : Nat) : State :=
  let slot := !s.sec.active
  let old := if block = 0 then [] else if slot then s.flash.image1 else s.flash.image0
  let image := old ++ slice s.sec.mailbox 0 4096
  let done (s : State) (st next : Nat) : State :=
    s.modSec (fun x => { x with mbStatus := BitVec.ofNat 2 st, mbNext := next })
  if block ≠ s.sec.mbNext then done (s.onSlot slot false true []) 3 0
  else if last && !verifies then done (s.onSlot slot false true []) 3 0
  else if last then
    let s := s.onSlot slot true false image
    let f := s.flash
    let f := if slot then { f with svn1 := svn, version1 := version } else { f with svn0 := svn, version0 := version }
    done { s with flash := { f with preferred := slot } } 2 0
  else done (s.onSlot slot false false image) 2 (block + 1)

/-- BLOCK and LAST of FW_MB_CTRL. -/
def State.writeMbCtrl (s : State) (v : Nat) : State :=
  s.modSec (fun x => { x with mbBlock := BitVec.ofNat 24 (bits v 0 24), mbLast := bit v 24 })

/-- GO is ignored while STATUS reads busy (R467). -/
def execFwMbCtrlGo (v : Nat) (verifies : Bool) (svn version : Nat) (s : State) : Host.Outcome State Fault Refusal :=
  .next (
    if !s.mailServed then s
    else
      let s := s.writeMbCtrl v
      if bit v 25 && s.sec.mbStatus != 1 then s.imageBlock (bits v 0 24) (bit v 24) verifies svn version else s)

/-! ### The flash configuration record (R405) -/

/-- FORMAT, reserved bits and CRC of a record. -/
def recordOk (b : List Byte) : Bool :=
  b.length == 256 && fld b 0 2 == 1 && fld b 2 2 == 0 && bits (fld b 4 4) 18 14 == 0 && bits (fld b 8 4) 18 14 == 0 &&
  bits (fld b 12 4) 18 14 == 0 && bits (fld b 16 8) 54 10 == 0 && bits (fld b 24 2) 12 4 == 0 && fld b 26 226 == 0 &&
  crc32c (b.take 252) == fld b 252 4

def State.commitRecord (s : State) : State :=
  let b := slice s.sec.cfgRecord 0 256
  if recordOk b then
    let s := s.modSec (fun x => { x with cfgStatus := 2, cfgShown := b })
    { s with flash := { s.flash with cfg := b } }
  else s.modSec (fun x => { x with cfgStatus := 3 })

/-- The host replaces the record at any time after F5. -/
def execCfgCtrlCommit (v : Nat) (s : State) : Host.Outcome State Fault Refusal :=
  .next (if s.allServed && bit v 0 then s.commitRecord else s)

/-! ### Debug unlock (R417) -/

/-- A challenge: a nonce of 48 bytes, the serial number, the level requested; none after 8 failures. -/
def State.drawNonce (s : State) : State :=
  if 8 ≤ s.sec.failures.toNat then s.modSec (fun x => { x with challenge := none })
  else
    let (n, s) := s.freeBytes 48
    s.modSec (fun x => { x with
      challenge := some (n ++ leBytes 8 Config.serial.toNat ++ leBytes 1 x.dbgReq.toNat) })

/-- What DBG_CHALLENGE reads. -/
def Security.challengeBytes (x : Security) : List Byte := x.challenge.getD []

/-- A read of the challenge's first bytes: a new nonce, and its first `size` bytes. -/
def execDbgChallenge (size : Nat) (s : State) : Host.Outcome State Fault Refusal :=
  .next (
    if !s.secServed then s.reply { kind := 1, value := 0 }
    else
      let s := s.drawNonce
      s.reply { kind := 1, value := leNat (slice s.sec.challengeBytes 0 size) })

/-- A failed response: the challenge is cleared, the failure counted. -/
def State.failResponse (s : State) : State :=
  s.modSec (fun x => { x with challenge := none, failures := BitVec.ofNat 4 (min 8 (x.failures.toNat + 1)) })

/-- Write bytes into a register array of `n` bytes. -/
def setBytes (l : List Byte) (n o : Nat) (bs : List Byte) : List Byte :=
  let l := slice l 0 n
  l.take o ++ bs ++ l.drop (o + bs.length)

/-- The last word of the signature: verified against the last challenge drawn; measurement 4 changes before the unlock
takes effect. -/
def execDbgResponse (v : Nat) (verifies : Bool) (s : State) : Host.Outcome State Fault Refusal :=
  .next (
    if !s.secServed then s
    else
      let s := s.modSec (fun x => { x with response := setBytes x.response 96 88 (leBytes 8 v) })
      match s.sec.challenge with
      | some c =>
        if verifies then
          let l := BitVec.ofNat 2 (fld c 56 1)
          (s.measureState l).modSec (fun x => { x with unlocked := l })
        else s.failResponse
      | none => s.failResponse)

/-! ### SPDM (R411 to R414) -/

def State.spdm (s : State) (t : Nat) : Spdm := if t = 0 then s.doe else s.mctp
def State.modSpdm (s : State) (t : Nat) (f : Spdm → Spdm) : State :=
  if t = 0 then { s with doe := f s.doe } else { s with mctp := f s.mctp }

/-- An answer to a request: kind 16 and above, one per request in the order of the table; 15 is SPDM's ERROR with its
code (log 40). -/
def State.spdmReply (s : State) (kind : Nat) (bs : List Byte) (value : Nat := 0) : State :=
  s.reply { kind := 16 + kind, bytes := bs, value := value }
def State.spdmError (s : State) (code : Nat) : State := s.reply { kind := 15, value := code }

/-- A request is served from the end of F1; `ready`: what the connection must have settled. -/
def State.spdmServe (s : State) (t : Nat) (ready : Spdm → Bool) (f : State → State) : State :=
  if !s.secServed then s
  else if ready (s.spdm t) then f s
  else s.spdmError 4

def Spdm.settled (x : Spdm) : Bool := x.version != 0 && x.caps && x.algs

/-- A signature by the device identity key: 96 bytes that no rule of the model can know. -/
def State.signed (s : State) : List Byte × State := s.freeBytes 96

/-- The certificate chain of a slot. -/
def State.certChain (s : State) : Nat → Option (List Byte)
  | 0 => some ((List.range Config.chain0Len.toNat).map Config.chain0)
  | 1 => if s.flash.owner.isEmpty then none else some s.flash.owner
  | _ => none

def execGetVersion (transport : Nat) (s : State) : Host.Outcome State Fault Refusal :=
  .next (s.spdmServe transport (fun _ => true) (fun s =>
    (s.modSpdm transport (fun _ => { version := 0x12 })).spdmReply 0 [0x11, 0x12]))

/-- DataTransferSize, MaxSPDMmsgSize and the eight capabilities of R413, bit by bit in its order. -/
def execGetCapabilities (transport version : Nat) (s : State) : Host.Outcome State Fault Refusal :=
  .next (s.spdmServe transport (fun x => x.version != 0) (fun s =>
    if version = 0x11 ∨ version = 0x12 then
      (s.modSpdm transport (fun x => { x with version := version, caps := true })).spdmReply 1
        (leBytes 4 4096 ++ leBytes 4 65536) 0xFF
    else s.spdmError 0x41))

/-- The offers must hold ECDSA P-384 and SHA-384. -/
def execNegotiateAlgorithms (transport base hash : Nat) (s : State) : Host.Outcome State Fault Refusal :=
  .next (s.spdmServe transport (fun x => x.version != 0 && x.caps) (fun s =>
    if bit base 7 && bit hash 1 then
      (s.modSpdm transport (fun x => { x with algs := true })).spdmReply 2 (leBytes 4 0x80 ++ leBytes 4 0x02)
    else s.spdmError 1))

def execGetDigests (transport : Nat) (s : State) : Host.Outcome State Fault Refusal :=
  .next (s.spdmServe transport Spdm.settled (fun s =>
    let ds := [0, 1].filterMap (fun k => (s.certChain k).map hash384)
    s.spdmReply 3 ds.flatten (1 + 2 * b01 (!s.flash.owner.isEmpty))))

def execGetCertificate (transport slot off len : Nat) (s : State) : Host.Outcome State Fault Refusal :=
  .next (s.spdmServe transport Spdm.settled (fun s =>
    match s.certChain slot with
    | some c => s.spdmReply 4 ((c.drop off).take len) (c.length - off - len)
    | none => s.spdmError 1))

/-- Slot 1 takes an owner chain whose leaf certifies the device identity key, inside a secured session only. -/
def execSetCertificate (transport slot : Nat) (chain : List Byte) (leafOk : Bool) (s : State) : Host.Outcome State Fault Refusal :=
  .next (s.spdmServe transport Spdm.settled (fun s =>
    if (s.spdm transport).sessions.isEmpty then s.spdmError 6
    else if slot = 1 ∧ leafOk then ({ s with flash := { s.flash with owner := chain } }).spdmReply 5 [] 1
    else s.spdmError 1))

def execChallenge (transport slot : Nat) (nonce : List Byte) (s : State) : Host.Outcome State Fault Refusal :=
  .next (s.spdmServe transport Spdm.settled (fun s =>
    match s.certChain slot with
    | some c =>
      let (sg, s) := s.signed
      s.spdmReply 6 (hash384 c ++ nonce ++ sg) slot
    | none => s.spdmError 1))

/-- Index 0 asks for their number, 0xFF for all of them. -/
def execGetMeasurements (transport index : Nat) (sign : Bool) (nonce : List Byte) (s : State) : Host.Outcome State Fault Refusal :=
  .next (s.spdmServe transport Spdm.settled (fun s =>
    let ask := if index = 0 then [] else if index = 0xFF then [1, 2, 3, 4, 5] else [index]
    if ask.any (fun i => i == 0 || decide (5 < i)) then s.spdmError 1
    else
      let blocks := ask.filterMap (fun i => (s.measured i).map (fun d => leBytes 1 i ++ d))
      let (sg, s) := if sign then s.signed else ([], s)
      s.spdmReply 7 (blocks.flatten ++ (if sign then nonce else []) ++ sg) (if index = 0 then 5 else blocks.length)))

/-- A session opens while fewer than four are open on the module. -/
def execKeyExchange (transport : Nat) (point : List Byte) (s : State) : Host.Outcome State Fault Refusal :=
  .next (s.spdmServe transport Spdm.settled (fun s =>
    if 4 ≤ s.doe.sessions.length + s.mctp.sessions.length then s.spdmError 0x0A
    else
      let _ := point
      let (id, s) := s.fresh
      let (sg, s) := s.signed
      (s.modSpdm transport (fun x => { x with sessions := x.sessions ++ [id] })).spdmReply 8 sg id))

/-! ### Configuration space (R397, R408) -/

/-- A dword of configuration space that the spec gives, at its place in a PCIe header (log 40): identity, revision and
class, the 64-bit BARs of 64 MiB and, prefetchable, 64 GiB, subsystem (R397, R399). -/
def State.configDword (s : State) : Nat → Option Nat
  | 0x00 => some 0x20481F3C
  | 0x08 => some (0x12000000 + Config.stepping.toNat)
  | 0x10 => some (s.pins.bar0.toNat % 2 ^ 32 + 0x4)
  | 0x14 => some (s.pins.bar0.toNat / 2 ^ 32)
  | 0x18 => some (s.pins.bar2.toNat % 2 ^ 32 + 0xC)
  | 0x1C => some (s.pins.bar2.toNat / 2 ^ 32)
  | 0x2C => some 0x00011F3C
  | _ => none

/-- A base address with one half written, aligned to its size. -/
def barPut (old : BitVec 64) (size half v : Nat) : BitVec 64 :=
  BitVec.ofNat 64 (setBits old.toNat (32 * half) 32 v / size * size)

/-- The registers of configuration space that a write changes: base addresses and the power state. -/
def State.configWrite (s : State) (r v : Nat) : State :=
  s.modPins (fun p =>
    match r with
    | 0x10 => { p with bar0 := barPut p.bar0 (2 ^ 26) 0 v }
    | 0x14 => { p with bar0 := barPut p.bar0 (2 ^ 26) 1 v }
    | 0x18 => { p with bar2 := barPut p.bar2 (2 ^ 36) 0 v }
    | 0x1C => { p with bar2 := barPut p.bar2 (2 ^ 36) 1 v }
    | _ => if r / 4 = Config.pmcsr.toNat / 4 then { p with d3hot := bits v 0 2 == 3 } else p)

/-- Before the link has trained: Request Retry Status (kind 4). Registers that the spec does not lay out read as free values;
the PowerState field moves the function between D0 and D3hot. -/
def execConfigRequest (write : Bool) (reg v : Nat) (s : State) : Host.Outcome State Fault Refusal :=
  .next (
    if !s.pins.linkUp then s.reply { kind := 4 }
    else if write then
      (s.configWrite (reg / 4 * 4) v).reply { kind := 5 }
    else
      match s.configDword (reg / 4 * 4) with
      | some x => s.reply { kind := 6, value := x }
      | none => let (x, s) := s.free; s.reply { kind := 6, value := x.toNat % 2 ^ 32 })

end Sys2Proof.Machine
end

