-- ==== Sys2Proof/Machine/Boot.lean ====
section
/-!
DEFINITION. Resets, faults and the fiddlehead sequence (17 R403 to R410, 21 R476 to R481, 01 R27 to R29).
-/
namespace Sys2Proof.Machine

/-! ### Pins the module drives (R394, R477) -/

/-- ALERT_N is released (high) while none of fault, failover, thermal, voltage and sensor events is set, and without
VAUX_3V3 (R477, R481). -/
def State.alertN (s : State) : Bool := !s.pins.vaux || [2, 5, 9, 10, 11].all (fun b => !bit s.mod.event.toNat b)
/-- WAKE_N is driven low in D3hot with any event set. -/
def State.wakeN (s : State) : Bool := !(s.pins.vaux && s.pins.d3hot && s.mod.event != 0)
/-- PAIR_FAIL_N is held low by this member. -/
def State.pairFailHeld (s : State) : Bool :=
  s.pins.vaux && (!s.pins.pwrGood || s.mod.fault || (List.range s.nParts).any (fun p => (s.part p).st == 5))

/-! ### Clearing (R25, R403) -/

/-- SRAM reads zero again, unmarked: the tile and staging regions of every die. -/
def State.clearSram (s : State) : State :=
  { s with mem := Tbl.keep (fun k => decide (k < tileRegion)) s.mem, scratch := [],
           poison := s.poison.filter (fun u => decide (u * 64 < tileRegion)) }

/-- HBM contents are lost. -/
def State.loseHbm (s : State) : State :=
  { s with mem := Tbl.keep (fun k => decide (tileRegion ≤ k)) s.mem,
           poison := s.poison.filter (fun u => decide (tileRegion ≤ u * 64)) }

/-- Every register, queue, object and work list takes its reset value; fuses, flash, time, supplies and what the host has
been sent stay (R403). `link`: the PCIe link and configuration space stay; `msix`: so does the MSI-X table. -/
def State.wipe (s : State) (link : Bool) : State :=
  let r : State := {}
  { r with
    pending := s.pending, freeN := s.freeN, uid := s.uid,
    clk := { root := s.clk.root, live := s.clk.live },
    pins := { s.pins with linkUp := link && s.pins.linkUp, d3hot := link && s.pins.d3hot,
                          bar0 := if link then s.pins.bar0 else 0, bar2 := if link then s.pins.bar2 else 0 },
    mod := { linkRate := if link then s.mod.linkRate else 0, linkWidth := if link then s.mod.linkWidth else 0,
             resetCause := s.mod.resetCause, keepHbm := s.mod.keepHbm },
    fuse := { s.fuse with locked := false, leftOut := [],
                          banks := Tbl.mapV {} (fun (b : BankRepair) => { b with bist := 0, fail := false }) s.fuse.banks },
    flash := s.flash, msix := if link then s.msix else [], msixPend := if link then s.msixPend else [],
    msixSent := s.msixSent, mem := s.mem, scratch := s.scratch, poison := s.poison, hostOut := s.hostOut, out := s.out }

/-- A reset of a kind (R403): what stands is cleared; HBM is kept in self-refresh by kinds 3 and 4 with KEEP_HBM. -/
def State.resetAs (s : State) (kind stage : Nat) : State :=
  let keep := (kind == 3 || kind == 4) && s.mod.keepHbm
  let s := (s.wipe (kind == 4)).clearSram
  let s := if keep then s else s.loseHbm
  let s := s.modMod (fun m => { m with
    stage := BitVec.ofNat 3 stage, resetCause := BitVec.ofNat 8 kind, hbmKept := keep, stageAt := s.clk.root,
    keepHbm := m.keepHbm && (kind == 3 || kind == 4) })
  if keep then (List.range 32).foldl (fun s k => s.modStack k (fun x => { x with selfRefresh := true })) s else s

/-- Supplies are valid and no pin holds the module in reset. -/
def State.powered (s : State) : Bool := s.pins.vin && s.pins.vaux

/-- VIN and VAUX_3V3 first valid: F0 begins; SCLK_TIME counts from here (R419). -/
def execColdReset (s : State) : Host.Outcome State Fault Refusal :=
  .next (
    let s := { s with clk := { root := 0 } }
    let s := s.modPins (fun p => { p with vin := true, vaux := true, pwrGood := false, linkUp := false, thermTripN := true,
                                          inReset := !p.perstN })
    s.resetAs 1 0)

/-- PERST_N low abandons any stage; the module stays in reset until it returns high. -/
def execFundamentalReset (s : State) : Host.Outcome State Fault Refusal :=
  .next (
    let s := s.modPins (fun p => { p with perstN := false })
    if s.powered then (s.resetAs 2 0).modPins (fun p => { p with inReset := true }) else s)

/-- PERST_N high (R480). -/
def execPerstNHigh (s : State) : Host.Outcome State Fault Refusal :=
  .next (
    let s := s.modPins (fun p => { p with perstN := true })
    if s.powered && s.pins.inReset && s.pins.thermTripN then
      (s.modPins (fun p => { p with inReset := false })).modMod (fun m => { m with stageAt := s.clk.root })
    else s)

/-- Past F0, and in no other reset: where a function or module reset acts. -/
def State.started (s : State) : Bool := s.powered && !s.pins.inReset && s.mod.stage != 0

/-- FLR, hot reset or link disable: the link retrains, at a rate and width that the spec does not fix. -/
def execFunctionReset (s : State) : Host.Outcome State Fault Refusal :=
  .next (
    if !s.started then s
    else
      let (v, s) := s.free
      let s := s.resetAs 3 1
      let s := s.modPins (fun p => { p with linkUp := true })
      s.modMod (fun m => { m with linkRate := BitVec.ofNat 4 (4 + v.toNat % 3),
                                  linkWidth := BitVec.ofNat 5 (4 * 2 ^ (v.toNat / 4 % 3)) }))

/-- MOD_RESET_N low: with PERST_N low as well the reset is fundamental (R478). -/
def execModuleReset (s : State) : Host.Outcome State Fault Refusal :=
  .next (if s.started then s.resetAs 4 1 else s)

/-- MODULE.RESET_CTRL: KEEP_HBM, then SOFT_RESET. -/
def State.writeResetCtrl (s : State) (v : Nat) : State :=
  let s := s.modMod (fun m => { m with keepHbm := bit v 1 })
  if bit v 0 && s.started then s.resetAs 4 1 else s

def execSoftReset (v : Nat) (s : State) : Host.Outcome State Fault Refusal :=
  .next (if s.modServed then s.writeResetCtrl v else s)

/-! ### Faults (R407) -/

/-- FAIL_CODE and FAIL_INDEX keep the first fault since the last reset. -/
def State.firstFault (s : State) (code index : Nat) : State :=
  (s.modMod (fun m => if m.failCode = 0 then
    { m with failCode := BitVec.ofNat 8 code, failIndex := BitVec.ofNat 16 index } else m)).event 2

/-- A module fault: every partition is FAULTED. -/
def State.faultModule (s : State) (code index : Nat) : State :=
  let s := (s.firstFault code index).modMod (fun m => { m with fault := true })
  ((List.range s.nParts).foldl (fun s p => s.modPart p (fun x => { x with st := 5 })) s).event 1

/-- A partition fault: executing commands complete STOPPED, the queues halt. -/
def State.faultPart (s : State) (p code index : Nat) : State :=
  let s := s.firstFault code index
  let qs := s.queuesOf p
  let ids := qs.flatMap (fun q => (s.qw q).executing.map (fun e => e.id))
  let s := qs.foldl (fun s q => (s.qw q).executing.foldl (fun s e => s.finish q e.id [⟨stStopped, 0, 0⟩]) s) s
  let s := s.modWork (fun w => { w with
    runs := w.runs.filter (fun x => x.part != p), loads := w.loads.filter (fun x => x.part != p),
    ops := w.ops.filter (fun x => x.part != p), dmas := w.dmas.filter (fun x => x.part != p),
    updates := w.updates.filter (fun x => x.part != p), colls := w.colls.filter (fun x => x.part != p),
    fused := w.fused.filter (fun x => x.part != p), remotes := w.remotes.filter (fun x => x.part != p),
    waiters := w.waiters.filter (fun x => !(ids.contains x.id)) })
  let s := qs.foldl (fun s q => s.modQueue q (fun w => { w with st := 3 })) s
  (s.modPart p (fun x => { x with st := 5, quiescing := false })).event 1

/-- The main rails go down: everything volatile is lost, the module stands faulted and out of reach (R481). -/
def State.powerLost (s : State) (code index : Nat) : State :=
  let s := ((s.wipe false).clearSram.loseHbm).modPins (fun p => { p with pwrGood := false, inReset := true })
  s.faultModule code index

/-- VIN out of range for 10 µs: 0x42 while running; in F0, an input out of range, 0x01. -/
def execVinTrip (s : State) : Host.Outcome State Fault Refusal :=
  .next (
    if !s.pins.vin then s
    else
      let f0 := s.mod.stage == 0
      let (v, s) := s.free
      (s.modPins (fun p => { p with vin := false })).powerLost (if f0 then 0x01 else 0x42) (if f0 then v.toNat % 2 ^ 16 else 0))

def execRegulatorFault (reg : Nat) (s : State) : Host.Outcome State Fault Refusal :=
  .next (if s.powered then s.powerLost 0x01 reg else s)

/-- VAUX_3V3 out of range: as if VIN had also tripped. -/
def execVauxFault (s : State) : Host.Outcome State Fault Refusal :=
  .next (
    if !s.pins.vaux then s
    else (s.modPins (fun p => { p with vin := false, vaux := false })).powerLost 0x42 0)

/-- THERM_TRIP_N low: reset 0x05 with fault 0x40; the module stays in reset until it has cooled. -/
def State.thermalTrip (s : State) : State :=
  if !s.powered then s
  else
    let s := (s.resetAs 5 0).modPins (fun p => { p with thermTripN := false, inReset := true })
    s.faultModule 0x40 0

def execThermalReset (s : State) : Host.Outcome State Fault Refusal := .next s.thermalTrip

/-- The temperature is below 105 °C: F0 restarts; FAIL_CODE still shows 0x40. -/
def execThermalRecovery (s : State) : Host.Outcome State Fault Refusal :=
  .next (
    if s.pins.thermTripN then s
    else
      let s := s.modPins (fun p => { p with thermTripN := true, inReset := !p.perstN })
      let s := s.modMod (fun m => { m with fault := false, stageAt := s.clk.root })
      s.modPart 0 (fun x => { x with st := 0 }))

/-- A control core fails: its partition faults, its records are written no more. -/
def State.coreFails (s : State) (core : Nat) : State :=
  if !s.started then s
  else (s.modMod (fun m => { m with badCores := setIns m.badCores core })).faultPart (s.partOfDie (core / 4)) 0x43 core

def execControlCoreWatchdog (core : Nat) (s : State) : Host.Outcome State Fault Refusal := .next (s.coreFails core)

def execControlCoreMemoryError (core : Nat) (s : State) : Host.Outcome State Fault Refusal :=
  .next (s.coreFails core)

def execRootCoreMemoryError (s : State) : Host.Outcome State Fault Refusal :=
  .next (if s.started then (s.faultModule 0x41 0).modMod (fun m => { m with rootDead := true }) else s)

/-- The dies on the two sides of a boundary, in the order of R14. -/
def boundaryDies (b : Nat) : Nat × Nat :=
  if b < 3 then (b, b + 1) else if b < 6 then (b + 1, b + 2) else (b - 6, b - 2)

def execRhizomeBoundaryLost (boundary : Nat) (s : State) : Host.Outcome State Fault Refusal :=
  .next (
    if !s.mod.done then s
    else
      let (a, b) := boundaryDies boundary
      if s.partOfDie a = s.partOfDie b then s.faultPart (s.partOfDie a) 0x44 boundary
      else s.modLog (fun l => { l with log := (0x44, boundary) :: l.log }))

/-! ### The Size Table (R27, R28, R458) -/

/-- The table of partition `p` as it stands now. -/
def State.sizeNow (s : State) (p generation : Nat) : SizeTable :=
  let dies := (List.range s.nDies).map (fun d => s.firstDie p + d)
  let ports := (s.portsOf p).map (fun i =>
    (i, if (s.port i).up then ((List.range 8).filter (fun j => bit (s.port i).goodLanes.toNat j)).length else 0))
  { generation := generation, count := s.nParts, index := p, ordering := s.fuse.ordering.toNat, dies := dies,
    tiles := dies.flatMap (fun d => ((List.range 144).map (fun t => d * 144 + t)).filter (fun t => !(s.absent t))),
    latency := (List.range s.nStacks).map (fun k => (s.stack (p * s.nStacks + k)).latency.toNat), ports := ports,
    queueMap := ((List.range 64).filter (fun q => (s.queue q).st != 0 && (s.queue q).part.toNat == p)).foldl
      (fun a q => a + 2 ^ q) 0,
    fwVersion := s.sec.runningVersion.toNat, fwLevel := s.sec.runningSvn.toNat }

/-- A publication: Generation advances by one at its start and again at its end. -/
def State.publish (s : State) : State :=
  (List.range s.nParts).foldl (fun s p =>
    { s with sizes := Tbl.put s.sizes p (s.sizeNow p (((s.size p).generation + 2) % 2 ^ 32)) }) s

/-- Measurement 5: partition layout and Size Tables. -/
def State.measureLayout (s : State) : State :=
  let t := (List.range s.nParts).flatMap (fun p =>
    let z := s.size p
    leBytes 4 z.generation ++ leBytes 1 z.count ++ leBytes 1 z.index ++ z.dies.flatMap (leBytes 1) ++ z.tiles.flatMap (leBytes 2) ++
      z.latency.flatMap (leBytes 1) ++ z.ports.flatMap (fun x => leBytes 1 x.1 ++ leBytes 1 x.2) ++ leBytes 8 z.queueMap)
  s.measureAs 5 (hash384 (leBytes 1 s.nParts ++ leBytes 1 s.mod.dieLocal.toNat ++ t))

/-! ### The stages (R404) -/

/-- Stage `k` is in progress. -/
def State.inStage (s : State) (k : Nat) : Bool :=
  s.powered && !s.pins.inReset && !s.mod.fault && !s.mod.done && s.mod.stage.toNat == k

/-- A stage ends: the next is in progress. -/
def State.toStage (s : State) (k : Nat) : State :=
  (s.modMod (fun m => { m with stage := BitVec.ofNat 3 k, stageAt := s.clk.root })).event 0

/-- F0: rails in regulation, PWR_GOOD, PERST_N high, link trained. -/
def execStageF0 (rate width : Nat) (s : State) : Host.Outcome State Fault Refusal :=
  .next (
    if !s.inStage 0 || !s.pins.perstN then s
    else
      let s := s.modPins (fun p => { p with pwrGood := true, linkUp := true })
      (s.modMod (fun m => { m with linkRate := BitVec.ofNat 4 rate, linkWidth := BitVec.ofNat 5 width })).toStage 1)

/-- F1 starts the image of a slot (R415). -/
def State.startImage (s : State) (slot : Bool) (digests : List (List Byte)) : State :=
  let f := s.flash
  let svn := if slot then f.svn1 else f.svn0
  let ver := if slot then f.version1 else f.version0
  let s := s.modSec (fun x => { x with active := slot, runningSvn := BitVec.ofNat 8 svn, runningVersion := BitVec.ofNat 32 ver })
  let s := s.modMod (fun m => { m with fwFallback := slot != f.preferred })
  let s := (s.measureAs 1 (digests.getD 0 [])).measureAs 2 (digests.getD 1 [])
  s.toStage 2

/-- F1: the preferred slot first, then the other; the first whose signature verifies and whose security version is not
below the anti-rollback level. -/
def execStageF1 (b : BootImages) (s : State) : Host.Outcome State Fault Refusal :=
  .next (
    if !s.inStage 1 then s
    else if !b.readable then (s.faultModule 0x12 0).modMod (fun m => { m with recovery := true })
    else
      let f := s.flash
      let sound (k : Bool) : Bool := (if k then b.ok1 else b.ok0) && !bit f.empty.toNat (b01 k)
      let allowed (k : Bool) : Bool := sound k && decide (f_svn f k ≥ s.fuse.rollback.toNat)
      let s := { s with flash := { f with valid := BitVec.ofNat 2 (b01 (sound false) + 2 * b01 (sound true)) } }
      match [f.preferred, !f.preferred].find? allowed with
      | some k => (s.startImage k b.digests).measureState 0
      | none =>
        (s.faultModule (if sound false || sound true then 0x11 else 0x10) 0).modMod (fun m => { m with recovery := true }))
where
  /-- security version number of a slot -/
  f_svn (f : Flash) (k : Bool) : Nat := if k then f.svn1 else f.svn0

/-- Mark a tile for retirement: the flash record, then the event (R409). -/
def State.markRetire (s : State) (t : Nat) : State :=
  if s.flash.marks.contains t then s
  else ({ s with flash := { s.flash with marks := setIns s.flash.marks t } }).event 8

/-- Pending retirements are fused and the record cleared (R410). -/
def State.fuseMarks (s : State) : State :=
  { s with fuse := { s.fuse with retired := s.flash.marks.foldl setIns s.fuse.retired }, flash := { s.flash with marks := [] } }

/-- A bank that needs `n` spares beyond those fused: up to two from BIST; with more, its tile is left out and marked. -/
def State.bistBank (s : State) (key n : Nat) : State :=
  let t := key / 32
  if n = 0 ∨ 1152 ≤ t ∨ s.fuse.fusedOff.contains t ∨ s.fuse.retired.contains t then s
  else
    let b := Tbl.get {} s.fuse.banks key
    let b := { b with bist := if n = 1 then 1 else 3, fail := decide (2 < n) }
    let s := { s with fuse := { s.fuse with banks := Tbl.set {} s.fuse.banks key b } }
    if 2 < n then ({ s with fuse := { s.fuse with leftOut := setIns s.fuse.leftOut t } }).markRetire t else s

/-- Tiles of a die that are enabled. -/
def State.enabledOn (s : State) (d : Nat) : Nat := ((List.range 144).filter (fun t => !(s.absent (d * 144 + t)))).length

/-- BELOW_CODE (R406). -/
def State.belowOrdering (s : State) : Bool :=
  let n := (List.range 8).map s.enabledOn
  if s.fuse.ordering = 0x42 then decide (n.foldl (· + ·) 0 < 1104) || n.any (fun x => decide (x < 138))
  else decide (n.foldl (· + ·) 0 < 1152)

/-- F2: fuses, retirement, BIST with column repair, rhizome training. -/
def execStageF2 (b : BistReport) (s : State) : Host.Outcome State Fault Refusal :=
  .next (
    if !s.inStage 2 then s
    else
      let s := s.measureAs 3 b.digest
      if !b.fusesOk then s.faultModule 0x20 0
      else
        let s := b.banks.foldl (fun s (k, n) => s.bistBank k n) s.fuseMarks
        match b.badDie.orElse (fun _ => (List.range 8).find? (fun d => s.enabledOn d == 0)) with
        | some d => s.faultModule 0x21 d
        | none =>
          match b.badBoundary with
          | some x => s.faultModule 0x22 x
          | none =>
            let s := { s with fuse := { s.fuse with locked := true } }
            (s.modMod (fun m => { m with belowCode := s.belowOrdering })).toStage 3)

/-- λ of a measured latency (R278). -/
def lambdaOf (m : Nat) : Nat := max 64 (roundUp (m + 8) 8)

/-- F4 begins: the flash configuration record is loaded, ports enabled start training (R404, R405). -/
def State.loadRecord (s : State) : State :=
  let b := s.flash.cfg
  if !recordOk b then
    let s := (List.range 18).foldl (fun s i => s.modPort i (fun _ => {})) s
    s.modSec (fun x => { x with cfgStatus := 3 })
  else
    let s := s.modSec (fun x => { x with cfgShown := b })
    let s := s.modPart 0 (fun x => { x with node := BitVec.ofNat 12 (fld b 24 2) })
    (List.range 18).foldl (fun s i =>
      let on := bit (fld b 4 4) i
      let s := s.modPort i (fun x => { x with
        enable := on, reach := bit (fld b 8 4) i, autoRetrain := bit (fld b 12 4) i, dir := BitVec.ofNat 3 (bits (fld b 16 8) (3 * i) 3) })
      if on then s.toTraining i else s) s

/-- F3: every stack trains within 248 hclk; the first memory frame starts on an sclk edge (R419); F4 begins. -/
def execStageF3 (measured : List (Option Nat)) (s : State) : Host.Outcome State Fault Refusal :=
  .next (
    if !s.inStage 3 then s
    else
      let idx := (List.range 32).map (fun k => (k, measured.getD k none))
      match idx.find? (fun x => x.2.isNone), idx.find? (fun x => match x.2 with | some m => decide (248 < lambdaOf m) | none => false) with
      | some (k, _), _ => s.faultModule 0x30 k
      | none, some (k, _) => s.faultModule 0x31 k
      | none, none =>
        let s := idx.foldl (fun s (k, m) =>
          s.modStack k (fun x => { x with latency := BitVec.ofNat 8 (lambdaOf (m.getD 0)), selfRefresh := false, calFrame := 0 })) s
        let s := s.untilRoot (roundUp s.clk.root 60)
        let s := s.modClk (fun c => { c with frameOrigin := some c.root })
        let s := s.modMod (fun m => { m with keptHbm := m.hbmKept })
        (s.toStage 4).loadRecord)

/-- F4 ends when its window of 200 ms closes. -/
def execStageF4 (s : State) : Host.Outcome State Fault Refusal :=
  .next (if s.inStage 4 then (s.untilRoot (s.mod.stageAt + usRoot 200000)).toStage 5 else s)

/-- The first hyperframe start from a root cycle on (R420). -/
def State.hyperframe (s : State) (r : Nat) : Nat :=
  let o := s.clk.frameOrigin.getD 0
  o + roundUp (r - o) 122880

/-- F5: the time bases start at the first hyperframe start of the stage, Size Tables are published, the module is READY, or
FROZEN if a freeze source holds (R478). -/
def execStageF5 (s : State) : Host.Outcome State Fault Refusal :=
  .next (
    if !s.inStage 5 then s
    else
      let o := s.hyperframe s.mod.stageAt
      let s := s.untilRoot o
      let s := s.modClk (fun c => { c with origin := some o, markRoot := o, markMclk := 0 })
      let s := s.publish.measureLayout
      let s := (List.range s.nParts).foldl (fun s p => s.modPart p (fun x => { x with st := 1 })) s
      let s := s.modMod (fun m => { m with done := true })
      ((s.event 0).event 1).freezeNow)

/-- Limits of F0 to F5 in µs; F4's window is fixed. -/
def stageLimitUs : Nat → Option Nat
  | 0 => some 500000 | 1 => some 1000000 | 2 => some 5000000 | 3 => some 1000000 | 5 => some 200000 | _ => none

def execStageLimit (s : State) : Host.Outcome State Fault Refusal :=
  .next (
    let k := s.mod.stage.toNat
    match stageLimitUs k with
    | some us => if s.inStage k then (s.untilRoot (s.mod.stageAt + usRoot us)).faultModule 0x02 k else s
    | none => s)

end Sys2Proof.Machine
end

