-- ==== Sys2Proof/Machine/Power.lean ====
section
/-!
DEFINITION. Clock divider, power states, power cap, temperature, calibration (18 R418 to R434), refresh and HBM calibration
slots (11 R275, R277), patrol scrub and poison write-back (11 R266, R267, R279, R280).
-/
namespace Sys2Proof.Machine

/-! ### The mclk divider (R419, R420, R429) -/

/-- A divider takes effect now: the marks take this edge; the averages of R429 are watched afresh (log 47). -/
def State.setDiv (s : State) (d : Nat) : State :=
  let m := s.mclk
  (s.modClk (fun c => { c with div := d, pendingDiv := none, markRoot := c.root, markMclk := m })).modPwr
    (fun p => { p with voltReq := false, overFor := 0, underFor := 0 })

/-- At the next hyperframe start, unless a run executes or a freeze holds the module there. -/
def execMclkDividerChange (s : State) : Host.Outcome State Fault Refusal :=
  .next (
    match s.clk.pendingDiv with
    | some d =>
      if s.clk.origin.isNone || s.frozen || s.work.runs.any (fun r => r.start.isSome) then s
      else (s.untilRoot (s.hyperframe s.clk.root)).setDiv d
    | none => s)

/-! ### Power cap (R429, R430) -/

/-- LIMIT_W less the derating of R431. -/
def Power.limit (p : Power) : Nat := p.limitW.toNat - p.derateW

/-- The average of the newest `n` samples exceeds, or lies below, a level in W; of those there are before `n` (log 47). -/
def Power.avgAbove (p : Power) (n level : Nat) : Bool :=
  let l := p.samples.take n
  decide (level * l.length < l.foldl (· + ·) 0)
def Power.avgBelow (p : Power) (n level : Nat) : Bool :=
  let l := p.samples.take n
  decide (l.foldl (· + ·) 0 < level * l.length)

/-- The condition of a pause holds: P_1ms over the limit for 1 ms with no step taken, current, or temperature. -/
def Power.wantsPause (p : Power) : Bool := decide (1000 ≤ p.overFor) || p.fast || p.thermHold

/-- The divider change that the averages and the voltage monitors ask for. -/
def State.wantedDiv (s : State) : Option Nat :=
  let p := s.pwr
  let slower := (p.avgAbove 1000 p.limit && !p.samples.isEmpty) || p.voltReq
  if slower then (if s.clk.div < 6 then some (s.clk.div + 1) else none)
  else if 10000 ≤ p.underFor ∧ 4 < s.clk.div then some (s.clk.div - 1)
  else none

/-- The 1 µs sample at VIN. -/
def State.powerSample (s : State) (watts amps : Nat) : State :=
  let s := s.modPwr (fun p => { p with samples := (watts :: p.samples).take 10000, fast := decide (p.iFast.toNat < amps) })
  let s := s.modPwr (fun p => { p with
    overFor := if p.avgAbove 1000 p.limit then p.overFor + 1 else 0,
    underFor := if p.avgBelow 10000 (p.limit - p.hystW.toNat) then p.underFor + 1 else 0 })
  let s := s.modClk (fun c => { c with pendingDiv := s.wantedDiv })
  s.modPwr (fun p => { p with pauseDue := p.pauseDue || (p.paused.isNone && p.wantsPause) })

def execPowerSample (watts amps : Nat) (s : State) : Host.Outcome State Fault Refusal :=
  .next (if s.powered then s.powerSample watts amps else s)

/-- A pause ordered begins: from this mclk no mclk-domain unit issues. -/
def execPowerPause (s : State) : Host.Outcome State Fault Refusal :=
  .next (s.unlessHalted (fun s =>
    if s.pwr.pauseDue then
      let m := s.mclk
      s.modPwr (fun p => { p with
        pauseDue := false, paused := some s.clk.root, pausedMclk := m, pauseCount := BitVec.ofNat 16 (satAdd 16 p.pauseCount.toNat 1) })
    else s))

/-- The end of a pause: whole memory frames and whole mclk; held mclk of runs are SLIP_POWER_CAP; repeated, and counted
again, while its condition holds. -/
def State.pauseEnd (s : State) (began : Nat) : State :=
  let s := s.untilRoot (began + wholeHold frameRoot s.clk.div 1 * s.clk.div)
  let m := s.mclk
  let s := s.shiftUnits s.pwr.pausedMclk (m - s.pwr.pausedMclk) 2
  if s.pwr.wantsPause then
    s.modPwr (fun p => { p with
      pauseDue := false, paused := some s.clk.root, pausedMclk := m, pauseCount := BitVec.ofNat 16 (satAdd 16 p.pauseCount.toNat 1) })
  else s.modPwr (fun p => { p with paused := none, pauseDue := false })

def execPowerPauseEnd (s : State) : Host.Outcome State Fault Refusal :=
  .next (s.unlessFrozen (fun s => match s.pwr.paused with | some r => s.pauseEnd r | none => s))

/-! ### Power states (R421 to R427) -/

/-- Break-evens in sclk (R421). -/
def breakEven : Nat → Nat
  | 1 => 7 | 2 => 2000 | 3 => 200000 | 4 => 20000000 | _ => 0

/-- A run holds the tile, an operator uses it, or an invocation, drain or transfer of its runs works on it (R425). -/
def State.tileWorks (s : State) (t : Nat) : Bool :=
  let x := s.tile t
  x.op.isSome || s.work.runs.any (fun r => r.tiles.contains t) || decide (s.mclk < x.ve.busyUntil) ||
  decide (s.mclk < x.ma0.drainUntil) || decide (s.mclk < x.ma1.drainUntil) || s.work.loads.any (fun l => l.tiles.contains t) ||
  s.work.dmas.any (fun d => d.started && !d.done && s.dmaTouches d t)

/-- Dynamic requests of a die's stacks may be pending: transfers, loads, updates and host reads of its partition. -/
def State.dieDynamic (s : State) (d : Nat) : Bool :=
  let p := s.partOfDie d
  s.work.dmas.any (fun x => x.part == p && x.started && !x.done) || s.work.loads.any (fun x => x.part == p) ||
  s.work.updates.any (fun x => x.part == p) || s.work.ops.any (fun x => x.part == p && x.start.isSome) ||
  s.work.runs.any (fun r => r.part == p && r.start.isSome && r.planes.any (fun x => x.usesHbm))

/-- scope_allows (R425). -/
def State.allowsRetain (s : State) (t : Nat) : Bool := !s.tileWorks t
def State.allowsNap (s : State) (d : Nat) : Bool := (s.dieTiles d).all s.allowsRetain && !s.dieDynamic d
def State.scopeAllows (s : State) (sc : Scope) (state : Nat) : Bool :=
  match sc, state with
  | .tile t, 2 => s.allowsRetain t
  | .die d, 3 => s.allowsNap d
  | .module, 3 => (List.range 8).all s.allowsNap
  | .module, 4 => (List.range 8).all s.allowsNap && (List.range s.nParts).all (fun p =>
      s.partState p == 1 || s.partState p == 3)
  | _, _ => false

/-- Work to issue now. -/
def State.scopeWorks (s : State) : Scope → Bool
  | .tile t => s.tileWorks t
  | .die d => (s.dieTiles d).any s.tileWorks || s.dieDynamic d
  | .module => (List.range 8).any (fun d => (s.dieTiles d).any s.tileWorks || s.dieDynamic d)

/-- The queues whose work a scope may serve: those of its partition, of the module all. -/
def State.scopeQueues (s : State) (sc : Scope) : List (Nat × QueueWork) :=
  match sc with
  | .tile t => s.qwork.filter (fun (q, _) => (s.queue q).part.toNat == s.partOfTile t)
  | .die d => s.qwork.filter (fun (q, _) => (s.queue q).part.toNat == s.partOfDie d)
  | .module => s.qwork

/-- The known event of an executing command in sclk, if it declares one: NOT_BEFORE of a time-only WAIT, dispatch +
ARRIVAL_US of a COLLECTIVE or KV_RING (R423). -/
def State.declared (s : State) (b : List Byte) (since id : Nat) : Option Nat :=
  let at_ (us : Nat) : Option Nat :=
    if us = 0 then none else some ((s.clk.root - (s.clk.live - since) + usRoot us) / 60)
  match s.work.colls.find? (fun c => c.id == id) with
  | some c => if c.op = 0x50 then at_ (fld c.desc 88 4) else if c.op = 0x52 then at_ (fld c.desc 24 4) else none
  | none => if cOp b = 4 ∧ fld b 20 1 = 0 then some (fld b 32 8) else none

/-- HOST_QUIET_UNTIL bears on dies and the module. -/
def isTile : Scope → Bool
  | .tile _ => true
  | _ => false

/-- The command is a RUN_FROND whose run has started: it executes by its frond's schedule (R423). -/
def State.inSchedule (s : State) (id : Nat) : Bool := s.work.runs.any (fun r => r.id == id && r.start.isSome)

/-- An unknown event (R423). -/
def State.unknownEvent (s : State) (sc : Scope) : Bool :=
  (s.scopeQueues sc).any (fun (q, x) =>
    x.executing.any (fun e => (s.declared e.bytes e.since e.id).isNone && !s.inSchedule e.id) ||
    (match x.waiting with | some w => !w.waitOk | none => false) ||
    ((s.queue q).st == 1 && x.waiting.isNone && decide (0 < (s.queue q).avail))) ||
  (!isTile sc && decide (s.pwr.hostQuiet.toNat ≤ s.sclk))

/-- The earliest known event in sclk, not before now. -/
def State.earliest (s : State) (sc : Scope) : Option Nat :=
  let evs := (s.scopeQueues sc).flatMap (fun (_, x) =>
    x.executing.filterMap (fun e => s.declared e.bytes e.since e.id) ++
    (match x.waiting with
     | some w => if cOp w.bytes = 4 then [fld w.bytes 32 8] else []
     | none => []))
  let evs := if isTile sc then evs else s.pwr.hostQuiet.toNat :: evs
  evs.foldl (fun a e => match a with | none => some (max e s.sclk) | some x => some (min x (max e s.sclk))) none

/-- The state that R424 chooses, and its wake time. -/
def State.chooseState (s : State) (sc : Scope) : Nat × Option Nat :=
  let max_ := s.pwr.maxState.toNat
  if max_ = 0 ∨ s.scopeWorks sc then (0, none)
  else if s.unknownEvent sc then (1, none)
  else
    let margin := s.pwr.pmMargin.toNat * 100
    let e := s.earliest sc
    let fits (k : Nat) : Bool :=
      decide (k ≤ max_) && s.scopeAllows sc k &&
      match e with | none => true | some t => decide (s.sclk + margin + max (exitSclk k) (breakEven k) ≤ t)
    let k := if fits 4 then 4 else if fits 3 then 3 else if fits 2 then 2 else 1
    (k, e.map (fun t => t - margin - exitSclk k))

/-- The stays of the scopes inside a scope end as the deeper state takes them in. -/
def State.absorb (s : State) (sc : Scope) : State :=
  let inner : List Scope := match sc with
    | .tile _ => []
    | .die d => (s.dieTiles d).map .tile
    | .module => (List.range 8).map .die ++ ((List.range 8).flatMap s.dieTiles).map .tile
  inner.foldl (fun s i => (s.countStay i (s.scope (Scope.key i))).setScope (Scope.key i) {}) s

/-- A scope takes a state. -/
def State.enterState (s : State) (sc : Scope) (code : Nat) (wake : Option Nat) : State :=
  let v := s.scope (Scope.key sc)
  if code = v.code then s.setScope (Scope.key sc) { v with wakeAt := wake }
  else
    let s := if 3 ≤ code then (s.absorb sc).napStacks sc true else s
    (s.setScope (Scope.key sc) { code := code, since := s.mclk, wakeAt := wake }).tracePower sc v.code code

/-- A change of the scope's work or known events (R424). A transition under way completes; nothing goes deeper while
frozen; a state of P_RETAIN or deeper is left by a wake only. -/
def State.evaluate (s : State) (sc : Scope) : State :=
  let v := s.scope (Scope.key sc)
  let (code, wake) := s.chooseState sc
  if !s.mod.done || v.exitAt.isSome then s
  else if code < v.code ∧ 2 ≤ v.code then s.setScope (Scope.key sc) { v with wakeAt := some s.sclk }
  else if s.frozen ∧ v.code < code then s
  else s.enterState sc code wake

def execPowerStateEvaluate (sc : Scope) (s : State) : Host.Outcome State Fault Refusal := .next (s.evaluate sc)

/-- At wake_at. -/
def execPowerWake (sc : Scope) (s : State) : Host.Outcome State Fault Refusal :=
  .next (
    let v := s.scope (Scope.key sc)
    match v.wakeAt with
    | some t => if v.code = 0 ∨ v.exitAt.isSome then s else (s.untilRoot (60 * t)).beginExit sc
    | none => s)

/-- An access or message reaches a scope that is not awake. -/
def execEarlyWake (sc : Scope) (s : State) : Host.Outcome State Fault Refusal :=
  .next (
    let v := s.scope (Scope.key sc)
    if v.code = 0 then s
    else
      let s := s.modPwr (fun p => { p with earlyWake := BitVec.ofNat 32 (satAdd 32 p.earlyWake.toNat 1) })
      if v.exitAt.isSome then s else s.beginExit sc)

def execWakeComplete (sc : Scope) (s : State) : Host.Outcome State Fault Refusal := .next (s.wakeComplete sc)

/-- Every die wakes, from the deepest state in force: before a partition change (R427). -/
def State.wakeAll (s : State) : State :=
  let deep := s.pwr.scopes.foldl (fun a (_, x) => max a x.code) 0
  let s := s.advance (60 * exitSclk deep)
  let scopes : List Scope := .module :: (List.range 8).map .die
  let s := scopes.foldl (fun s sc =>
    let v := s.scope (Scope.key sc)
    if v.code = 0 then s else if 3 ≤ v.code then (s.countStay sc v).napStacks sc false else s.countStay sc v) s
  let s := s.pwr.scopes.foldl (fun s (k, v) => if k < 1152 then s.countStay (.tile k) v else s) s
  s.modPwr (fun p => { p with scopes := [] })

/-! ### Temperature and sensors (R431, R434) -/

def State.sensor (s : State) (i : Nat) : Sensor := Tbl.get {} s.pwr.sensors i

/-- Trimmed readings of a die's valid sensors, in quarter degrees. -/
def State.dieReadings (s : State) (rs : List Nat) (d : Nat) : List Int :=
  (List.range 16).filterMap (fun i =>
    let x := s.sensor (16 * d + i)
    if x.invalid then none else some ((rs.getD (16 * d + i) 0 : Int) + x.offset))

def maxInt : List Int → Option Int
  | [] => none
  | x :: t => some (t.foldl max x)

/-- T: the hottest valid reading; the die's hottest remaining one plus 2 °C stands in for an invalid sensor. -/
def State.hottest (s : State) (rs : List Nat) : Option Int :=
  maxInt ((List.range 8).filterMap (fun d =>
    let l := s.dieReadings rs d
    (maxInt l).map (fun t => if l.length < 16 then t + 8 else t)))

/-- The response to T in quarter degrees. -/
def State.heat (s : State) (t : Int) : State :=
  let c := (t / 4).toNat
  let s := s.modPwr (fun p => { p with
    tHot := BitVec.ofNat 8 (min 255 c), derateW := 500 * (c - 100),
    thermHold := if 420 ≤ t then true else if t ≤ 412 then false else p.thermHold })
  let s := if (4 * s.pwr.warnC.toNat : Int) ≤ t then s.event 9 else s
  let s := s.modPwr (fun p => { p with pauseDue := p.pauseDue || (p.paused.isNone && p.thermHold) })
  if 460 ≤ t then s.thermalTrip else s

def execThermalSample (readings : List Nat) (s : State) : Host.Outcome State Fault Refusal :=
  .next (if s.powered then (match s.hottest readings with | some t => s.heat t | none => s) else s)

/-- One sensor against its estimate: a trim of at most 0.25 °C, at most 3 °C in total, or invalid beyond 5 °C. -/
def State.compareSensor (s : State) (i : Nat) (estimate reading : Nat) : State :=
  let x := s.sensor i
  let diff : Int := (estimate : Int) - ((reading : Int) + x.offset)
  let put (s : State) (v : Sensor) : State := s.modPwr (fun p => { p with sensors := Tbl.set {} p.sensors i v })
  if x.invalid then s
  else if 20 < diff.natAbs then
    let first := s.pwr.sensorFail == 0
    let s := (put s { x with invalid := true }).modPwr (fun p => { p with
      sensorFail := BitVec.ofNat 8 (satAdd 8 p.sensorFail.toNat 1),
      firstFail := if first then BitVec.ofNat 7 i else p.firstFail })
    s.event 11
  else put s { x with offset := max (-12) (min 12 (x.offset + max (-1) (min 1 diff))) }

def execSensorComparison (estimates readings : List Nat) (s : State) : Host.Outcome State Fault Refusal :=
  .next (if s.powered then (List.range 128).foldl (fun s i => s.compareSensor i (estimates.getD i 0) (readings.getD i 0)) s
         else s)

/-- One trim step of a die's setpoint (R433), within −40 mV and +20 mV in steps of 2.5 mV. -/
def State.trimDie (s : State) (d margin : Nat) : State :=
  let t := Tbl.get 0 s.pwr.dieTrim d
  -- at most one step per 100 µs
  let put (v : Int) : State :=
    if s.clk.root + 1 < Tbl.get 0 s.pwr.trimAt d + usRoot 100 then s
    else s.modPwr (fun p => { p with dieTrim := Tbl.set 0 p.dieTrim d v, trimAt := Tbl.put p.trimAt d (s.clk.root + 1) })
  if margin = 0 then
    if t < 8 then put (t + 1)
    else
      let s := (s.event 10).modPwr (fun p => { p with voltReq := p.voltReq || decide (s.clk.div < 6) })
      s.modClk (fun c => { c with pendingDiv := s.wantedDiv })
  else if margin = 2 ∧ -16 < t then put (t - 1)
  else s

def execVoltageTrim (die margin : Nat) (s : State) : Host.Outcome State Fault Refusal :=
  .next (if s.powered then s.trimDie die margin else s)

/-! ### Calibration and refresh (R275, R277, R432) -/

/-- A run holds cells of a stack: by its bindings, or, where it states none, by USES_HBM (R165, R276). -/
def State.holdsStack (s : State) (r : Run) (k : Nat) : Bool :=
  let cs := s.runCells r
  r.start.isSome && r.plane.usesHbm && (cs.isEmpty || cs.any (fun c => c.1 == k))

/-- An activity has outlasted its cells: counted, and the run whose cell follows is held (log 48). -/
def State.overrun (s : State) (k late : Nat) : State :=
  if late = 0 then s
  else
    let s := s.modStack k (fun x => { x with overrun := BitVec.ofNat 32 (satAdd 32 x.overrun.toNat 1) })
    if s.frozen || s.pwr.paused.isSome then s
    else
      match s.work.runs.find? (fun r => r.part == s.partOfStack k && !r.issueEnded && s.holdsStack r k) with
      | some r => s.lateInput r 0 3 3
      | none => s

/-- The stack's controller runs its memory frame: since F3, and not in self-refresh. -/
def State.framing (s : State) (k : Nat) : Bool := s.clk.frameOrigin.isSome && !(s.stack k).selfRefresh

/-- The frame's calibration slot: the next activity of the cycle of 130 frames. It runs while the module is frozen (R197). -/
def execCalibrationSlot (k late : Nat) (s : State) : Host.Outcome State Fault Refusal :=
  .next (
    if s.framing k then
      (s.modStack k (fun x => { x with calFrame := BitVec.ofNat 7 ((x.calFrame.toNat + 1) % 130) })).overrun k late
    else s)

/-- The refresh cells of a frame. -/
def execRefresh (k late : Nat) (s : State) : Host.Outcome State Fault Refusal :=
  .next (
    if s.framing k then (s.modStack k (fun x => { x with refreshes := x.refreshes + 1 })).overrun k late else s)

/-! ### Scrub and poison (R266, R267, R279, R280) -/

/-- Offset of a bank's word: consecutive 64-byte words lie in consecutive banks (R264). -/
def scrubOff (bank row : Nat) : Nat := (row * 32 + bank) * 64

/-- A scrubbed word: a correctable error is counted and written back corrected, unless a master wrote the word since; an
uncorrectable one marks it. The bytes a read returns are corrected either way. -/
def State.scrub (s : State) (t bank row err : Nat) (_touched : Bool) : State :=
  match err with
  | 0 => s
  | e => s.eccError t (scrubOff bank row) (e != 1)

def execPatrolScrub (tile bank row err : Nat) (touched : Bool) (s : State) : Host.Outcome State Fault Refusal :=
  .next (s.unlessHalted (fun s => if s.listed tile && s.bankIdle tile bank then s.scrub tile bank row err touched else s))

/-- A read found an error in a block: a correctable one is counted; an uncorrectable one is counted, and its mark written
in a dynamic cell (R279). -/
def execPoisonWriteback (k : Nat) (block : BlockError) (s : State) : Host.Outcome State Fault Refusal :=
  .next (s.unlessFrozen (fun s =>
    if !s.framing k then s
    else if block.corrected then
      s.modStack k (fun x => { x with ce := BitVec.ofNat 32 (satAdd 32 x.ce.toNat 1) })
    else
      (s.setMark (k * 2 ^ 30 + block.block) true).modStack k
        (fun x => { x with ue := BitVec.ofNat 32 (satAdd 32 x.ue.toNat 1) })))

end Sys2Proof.Machine
end

