-- ==== Sys2Proof/Machine/Partition.lean ====
section
/-!
DEFINITION. Partition changes (01 R20 to R29), PART_CTRL.RESUME (12 R298), BAR2_WINDOW (17 R400), half-pair registers (11
R269), tile retirement (17 R409, R410).
-/
namespace Sys2Proof.Machine

/-- The module is READY, every queue IDLE, every context EMPTY (R24). -/
def State.mayChange (s : State) : Bool :=
  s.mod.done && !s.mod.fault && !s.frozen && !s.mod.changeBusy &&
  (List.range s.nParts).all (fun p => (s.part p).st == 1 && !s.busyPart p) &&
  s.queues.all (fun (_, w) => w.st == 0) && s.tiles.all (fun (_, t) => !t.claimed)

/-- A write to PART_LAYOUT is a request: accepted, or refused with CAUSE bit 7 (R24, R457). -/
def State.layoutRequest (s : State) (v : Nat) : State :=
  let n := bits v 0 4
  let z := bits v 4 7
  if s.mayChange && [1, 2, 4, 8].contains n && decide (z ≤ 64) then
    s.modMod (fun m => { m with changeBusy := true, changeRefused := false, changeTo := some (n, z) })
  else (s.modMod (fun m => { m with changeRefused := true })).event 7

def execPartLayout (v : Nat) (s : State) : Host.Outcome State Fault Refusal :=
  .next (if s.modServed then s.layoutRequest v else s)

/-- Every pair ends as PAIR_CONFIG with MODE 0 ends it; its ports show it (R26). -/
def State.endPairs (s : State) : State :=
  (List.range s.nParts).foldl (fun s p =>
    if (s.part p).pair.st = 0 then s
    else (s.onPair p (fun y => { y with st := 0, mode := 0, landed := [], unacked := [] })).heartbeat p) s

/-- What a write held by the change does after it. -/
def State.actChange (s : State) (w : Nat × Nat × Nat) : State :=
  let (kind, q, v) := w
  if kind = 0 then s.writeQCtrl q v else s.bellNow kind q v

/-- The change (R25, R26, R271, R313): napping dies are awake first; SRAM and objects are cleared, pairs disabled,
partition registers at reset, tables published; then what was held acts. -/
def State.changeNow (s : State) (n z : Nat) : State :=
  let s := s.wakeAll
  let s := s.endPairs
  let held := s.mod.changeHeld
  let s := s.modMod (fun m => { m with
    partCount := BitVec.ofNat 4 n, dieLocal := BitVec.ofNat 7 z, changeBusy := false, changeTo := none, changeHeld := [] })
  let s := s.clearSram
  let s := { s with
    parts := (List.range n).map (fun p => (p, ({ st := 1, nodeHeld := true } : Part))), objs := [], qwork := [], sizes := s.sizes,
    tiles := Tbl.mapV {} (fun (t : Tile) => { t with
      pairs := Tbl.mapV {} (fun (h : HalfPair) => { h with enable := false }) t.pairs, ve := { t.ve with popcnt := 0 } }) s.tiles,
    hbmStacks := Tbl.mapV {} (fun (k : Stack) => { k with vec := { k.vec with popcnt := 0 } }) s.hbmStacks,
    trace := Tbl.mapV {} (fun (b : TraceBuf) => { b with recording := false }) s.trace }
  let s := s.publish.measureLayout
  let s := (s.event 6)
  held.foldl State.actChange s

/-- Within 2 ms of the request. -/
def execPartitionChange (s : State) : Host.Outcome State Fault Refusal :=
  .next (s.unlessFrozen (fun s =>
    match s.mod.changeTo with
    | some (n, z) => s.changeNow n z
    | none => s))

/-- Bit p resumes a QUIESCED partition (R298): READY, or PAIR_FAILOVER for the survivor of a pair. -/
def State.resumeParts (s : State) (mask : Nat) : State :=
  ((List.range s.nParts).filter (fun p => bit mask p)).foldl (fun s p =>
    if (s.part p).st = 3 then
      ((s.modPart p (fun x => { x with st := if x.pair.st = 4 then 6 else 1 })).event 1)
    else s) s

def execPartResume (v : Nat) (s : State) : Host.Outcome State Fault Refusal :=
  .next (if s.modServed then s.resumeParts (bits v 0 8) else s)

def execBar2Window (v : Nat) (s : State) : Host.Outcome State Fault Refusal :=
  .next (if s.modServed then s.modMod (fun m => { m with bar2 := BitVec.ofNat 16 v }) else s)

/-! ### Half pairs (R269) -/

/-- SIZE and BASE_4K lie in their ranges. -/
def pairRangeOk (size base : Nat) : Bool :=
  decide (size ≤ 9) && decide (base % (2 ^ (size + 1)) = 0) && decide (base * 4096 + 2 * 4096 * 2 ^ size ≤ 0x600000)

/-- The range overlaps another enabled pair of the tile. -/
def Tile.pairClash (t : Tile) (n size base : Nat) : Bool :=
  t.pairs.any (fun (k, h) => k != n && h.enable && decide (h.base < base * 4096 + 2 * 4096 * 2 ^ size) &&
    decide (base * 4096 < h.base + 2 * h.z))

/-- A value written to HALF_PAIR_n of a tile: an enable takes effect whole or is refused and logged. -/
def State.writePair (s : State) (t n v : Nat) : State :=
  let size := bits v 2 4
  let base := bits v 8 11
  let put (s : State) (en : Bool) (size base : Nat) : State :=
    s.modPair t n (fun h => { h with
      enable := en, size := BitVec.ofNat 4 size, base4k := BitVec.ofNat 11 base, syncEn := bit v 19,
      swapSync := BitVec.ofNat 18 (bits v 20 18), role := if en then false else h.role,
      generation := if en then 0 else h.generation })
  if bit v 0 then
    if pairRangeOk size base && !(s.tile t).pairClash n size base then put s true size base
    else s.modTile t (fun x => { x with pairRefused := true, refusedPair := BitVec.ofNat 4 n })
  else if pairRangeOk size base then put s false size base
  else
    let h := s.pair t n
    (put s false h.size.toNat h.base4k.toNat).hostErrOpen 4

/-- The selected tile exists (R455). -/
def State.tileValid (s : State) : Bool := decide (s.sel.tile.toNat < 1152) && s.listed s.sel.tile.toNat

/-- A write to a register that TILE_SEL governs. -/
def State.onTile (s : State) (f : State → Nat → State) : State :=
  if !s.laneServed then s else if s.tileValid then f s s.sel.tile.toNat else s.hostErrOpen 3

def execHalfPairWrite (n v : Nat) (s : State) : Host.Outcome State Fault Refusal :=
  .next (s.onTile (fun s t => s.writePair t n v))

/-! ### Retirement (R409, R410) -/

def execTileRetire (v : Nat) (s : State) : Host.Outcome State Fault Refusal :=
  .next (s.onTile (fun s t => if bit v 0 then s.markRetire t else s))

/-- A pending mark is withdrawn. -/
def State.withdraw (s : State) (t : Nat) : State := { s with flash := { s.flash with marks := setDel s.flash.marks t } }

def execRetireWithdraw (v : Nat) (s : State) : Host.Outcome State Fault Refusal :=
  .next (s.onTile (fun s t => if bit v 0 then s.withdraw t else s))

/-- More uncorrectable errors of the tile store, or of the accumulators, within one hour of sclk than UE_RETIRE_LIMIT. -/
def execAutoRetireMark (tile : Nat) (s : State) : Host.Outcome State Fault Refusal :=
  .next (
    let x := s.tile tile
    let exceeded (l : List Nat) : Bool := decide (x.retireLimit.toNat < (l.filter (fun t => decide (s.sclk < t + 360000000000))).length)
    if exceeded x.ueTimes || exceeded x.accUeTimes then s.markRetire tile else s)

end Sys2Proof.Machine
end

