-- ==== Sys2Proof/Machine/Registers.lean ====
section
/-!
DEFINITION. BAR0 (17 R399, R408; 20 R453 to R470; 18 R428, R487; 19 R452): what every register reads, what a write does
under each field's access code, and the read that clears. Rows of the command table that write one field of a register
and these definitions share the operation that acts on it.
-/
namespace Sys2Proof.Machine

/-! ### Fields -/

/-- A 64-bit value from its fields: bit position and value. -/
def pack (l : List (Nat × Nat)) : Nat := l.foldl (fun a (lo, x) => a + x * 2 ^ lo) 0

/-- A write to one 64-bit register: value and the mask of the bits the access reaches. -/
structure RegW where
  v : Nat
  m : Nat
  deriving DecidableEq, Repr

/-- The access reaches bit `lo`. -/
def RegW.hit (w : RegW) (lo : Nat) : Bool := bit w.m lo

/-- Ones written to `n` bits from `lo`: what W1C and W1S fields act on. -/
def RegW.ones (w : RegW) (lo n : Nat) : Nat := bits (w.v &&& w.m) lo n

/-- An RW field of `n` bits from `lo` after the write. -/
def RegW.new (w : RegW) (old lo n : Nat) : Nat :=
  let m := bits w.m lo n
  (bits w.v lo n &&& m) ||| (old ^^^ (old &&& m))

/-- The whole register after the write, from what its RW fields hold. -/
def RegW.over (w : RegW) (old : Nat) : Nat := w.new old 0 64

/-- An aligned access of 4 or 8 bytes as one register's write or read mask (R399). -/
def regAccess (off size v : Nat) : RegW :=
  if size = 4 then
    if off % 8 = 4 then { v := v % 2 ^ 32 * 2 ^ 32, m := 0xFFFFFFFF00000000 } else { v := v % 2 ^ 32, m := 0xFFFFFFFF }
  else { v := v % 2 ^ 64, m := 0xFFFFFFFFFFFFFFFF }

/-- A select register (R454): its index, and VALID. -/
def selectWord (index : Nat) (valid : Bool) : Nat := pack [(0, index), (63, b01 valid)]

/-! ### Which instances exist (R455) -/

def State.portValid (s : State) : Bool := decide (s.sel.port.toNat < 18)
def State.laneValid (s : State) : Bool := decide (s.sel.lane.toNat < 144)

/-- A source code of R446 names a source: a listed tile, an update engine, a port. -/
def State.srcValid (s : State) : Bool :=
  let x := s.sel.src.toNat
  let i := x % 0x2000
  match x / 0x2000 with
  | 0 => decide (i < 1152) && s.listed i
  | 1 => decide (i < 32)
  | 2 => decide (i < 18)
  | _ => false

/-- An engine identifier of R442, or KIND 4 with a die, names a unit (R452). -/
def State.unitValid (s : State) : Bool :=
  let e := s.dbg.frzSel.toNat
  let u := bits e 4 4
  let i := bits e 8 16
  bits e 24 8 == 0 &&
  match bits e 0 4 with
  | 0 => decide (u < 8) && decide (i < 1152) && s.listed i
  | 1 => u == 0 && decide (i < 32)
  | 2 => u == 0 && decide (i < 128)
  | 3 => u == 0 && decide (i < 18)
  | 4 => u == 0 && decide (i < 8)
  | _ => false

/-! ### MODULE (R401, R406, R457) -/

/-- MOD_STATE (R406). -/
def State.modState (s : State) : Nat :=
  let m := s.mod
  let faulted := m.fault || (List.range s.nParts).any (fun p => (s.part p).st == 5)
  pack [(0, m.stage.toNat), (3, b01 m.done), (4, b01 faulted), (8, m.failCode.toNat), (16, m.failIndex.toNat),
        (32, b01 m.belowCode), (33, b01 m.fwFallback), (34, b01 m.keptHbm), (40, m.resetCause.toNat)]

/-- The epoch of the job that JOB_SEL names, and whether it has an entry. -/
def State.jobWord (s : State) : Nat :=
  match (s.part s.log.jobPart.toNat).jobs.find? (fun j => j.id == s.log.jobSel.toNat) with
  | some j => pack [(0, j.epoch), (32, 1)]
  | none => 0

/-- MSI-X table and pending bits (R401). -/
def State.msixWord (s : State) (o : Nat) : Nat :=
  if o < 0x9000 then
    let e := s.msix1 ((o - 0x8000) / 16)
    if 65 ≤ (o - 0x8000) / 16 then 0
    else if o % 16 = 0 then e.addr.toNat else pack [(0, e.data.toNat), (32, b01 e.mask)]
  else if o < 0x9010 then
    (s.msixPend.filter (fun v => v / 64 == (o - 0x9000) / 8)).foldl (fun a v => a + 2 ^ (v % 64)) 0
  else 0

def State.readModule (s : State) (o : Nat) : Nat :=
  let m := s.mod
  let l := s.log
  match o with
  | 0x0000 => pack [(0, 0x1F3C), (16, 0x2048), (32, Config.stepping.toNat), (40, s.fuse.ordering.toNat)]
  | 0x0008 => Config.serial.toNat
  | 0x0040 => s.modState
  | 0x0048 => s.mclk
  | 0x0050 => m.event.toNat
  | 0x0058 => pack [(1, b01 m.keepHbm)]
  | 0x0060 => pack [(8, b01 m.changeBusy), (9, b01 m.changeRefused)]
  | 0x0068 => pack [(0, m.partCount.toNat), (4, m.dieLocal.toNat)]
  | 0x0070 => (List.range 8).foldl (fun a p => a + s.partState p * 2 ^ (3 * p)) 0
  | 0x0078 => m.bar2.toNat
  | 0x0080 => pack [(0, m.cplTimeout.toNat), (12, m.linkRate.toNat), (16, m.linkWidth.toNat)]
  | 0x0088 => pack [(0, l.errKind.toNat), (4, l.errQueue.toNat), (10, l.errSlot.toNat), (32, l.errCount.toNat)]
  | 0x0090 => l.errAddr.toNat
  | 0x0098 => pack [(0, l.jobSel.toNat), (32, l.jobPart.toNat)]
  | 0x00A0 => s.jobWord
  | 0x00A8 => m.collTimeout.toNat
  | 0x00B0 => m.collDup.toNat
  | 0x00B8 => pack [(0, m.staleCount.toNat), (32, m.staleEpoch.toNat)]
  | 0x00C0 => pack [(0, l.nfTensor.toNat), (32, l.nfPart.toNat), (35, b01 l.nfValid)]
  | 0x00C8 => pack [(0, l.nfNan.toNat), (32, l.nfInf.toNat)]
  | _ => if 0x8000 ≤ o then s.msixWord o else 0

/-- A write to the MSI-X table: a vector unmasked with its pending bit set sends its message (R401). -/
def State.writeMsix (s : State) (o : Nat) (w : RegW) : State :=
  let v := (o - 0x8000) / 16
  if o < 0x8000 ∨ 65 ≤ v then s
  else
    let e := s.msix1 v
    let e := if o % 16 = 0 then { e with addr := BitVec.ofNat 64 (w.over e.addr.toNat) }
      else { e with data := BitVec.ofNat 32 (w.new e.data.toNat 0 32), mask := w.new (b01 e.mask) 32 1 == 1 }
    let s := { s with msix := Tbl.set {} s.msix v e }
    if !e.mask && s.msixPend.contains v then
      { s with msixPend := setDel s.msixPend v, msixSent := v :: s.msixSent }
    else s

def State.writeModule (s : State) (o : Nat) (w : RegW) : State :=
  match o with
  | 0x0050 => s.modMod (fun m => { m with event := m.event &&& ~~~(BitVec.ofNat 12 (w.ones 0 12)) })
  | 0x0058 => s.writeResetCtrl (w.over (pack [(1, b01 s.mod.keepHbm)]))
  | 0x0060 => s.resumeParts (w.ones 0 8)
  | 0x0068 => if w.hit 0 then s.layoutRequest w.v else s
  | 0x0078 => s.modMod (fun m => { m with bar2 := BitVec.ofNat 16 (w.new m.bar2.toNat 0 16) })
  | 0x0080 => s.modMod (fun m => { m with
      cplTimeout := BitVec.ofNat 12 (min 4000 (max 1 (w.new m.cplTimeout.toNat 0 12))) })
  | 0x0098 => s.modLog (fun l => { l with
      jobSel := BitVec.ofNat 32 (w.new l.jobSel.toNat 0 32), jobPart := BitVec.ofNat 3 (w.new l.jobPart.toNat 32 3) })
  | 0x00A0 => if w.hit 0 then s.writeJobEpoch (w.v % 2 ^ 32) else s
  | 0x00A8 => s.modMod (fun m => { m with collTimeout := BitVec.ofNat 32 (max 1000 (w.new m.collTimeout.toNat 0 32)) })
  | 0x00C0 => if w.ones 35 1 = 1 then s.modLog (fun l => { l with nfValid := false }) else s
  | _ => s.writeMsix o w

/-- RC fields of MODULE that a read covers (R456, R457). -/
def State.clearModule (s : State) (o : Nat) (r : RegW) : State :=
  let low := r.hit 0
  let high := r.hit 32
  match o with
  | 0x0088 => s.modLog (fun l => { l with
      errKind := if low then 0 else l.errKind, errQueue := if low then 0 else l.errQueue,
      errSlot := if low then 0 else l.errSlot, errCount := if high then 0 else l.errCount })
  | 0x0090 => if low && high then s.modLog (fun l => { l with errAddr := 0 }) else s
  | 0x00B0 => if low then s.modMod (fun m => { m with collDup := 0 }) else s
  | 0x00B8 => if low then s.modMod (fun m => { m with staleCount := 0 }) else s
  | _ => s

/-! ### SIZE_TABLE (R27, R458) -/

/-- A word of a published table of a partition with `nStk` stacks. -/
def SizeTable.word (t : SizeTable) (nStk o : Nat) : Nat :=
  if t.generation = 0 then 0
  else if 0x20 ≤ o ∧ o < 0xE0 then
    match t.dies[(o - 0x20) / 0x18]? with
    | some d =>
      let map := (t.tiles.filter (fun x => x / 144 == d)).foldl (fun a x => a + 2 ^ (x % 144)) 0
      bits map (64 * ((o - 0x20) % 0x18 / 8)) 64
    | none => 0
  else if 0xF0 ≤ o ∧ o < 0x110 then leNat ((t.latency.drop (o - 0xF0)).take 8 |>.map (BitVec.ofNat 8))
  else if 0x120 ≤ o ∧ o < 0x148 then
    leNat (slice (t.ports.flatMap (fun x => leBytes 2 (x.1 + x.2 * 256))) (o - 0x120) 8)
  else match o with
    | 0x000 => t.generation
    | 0x008 => pack [(0, 0x0001), (16, t.ordering), (24, t.count), (28, t.index)]
    | 0x010 => pack ((0, t.dies.length) :: (List.range t.dies.length).map (fun d => (3 * d + 8, t.dies.getD d 0)))
    | 0x018 => t.tiles.length
    | 0x0E0 => pack [(0, 2), (8, 6), (16, 256), (32, 128), (48, 4)]
    | 0x0E8 => pack [(0, nStk), (8, 64), (16, 3776)]
    | 0x110 => pack [(0, nStk), (8, 8)]
    | 0x118 => t.ports.length
    | 0x148 => 32768 * t.dies.length
    | 0x150 => t.queueMap
    | 0x158 => pack [(0, 1500), (16, 2000), (32, 1000)]
    | 0x160 => pack [(0, t.fwVersion), (32, t.fwLevel)]
    | _ => 0

def State.readSizes (s : State) (o : Nat) : Nat :=
  let p := o / 0x1000
  if p < s.nParts then (s.size p).word s.nStacks (o % 0x1000) else 0

/-! ### CLOCK_POWER (R428, R459, R487) -/

def State.readClocks (s : State) (o : Nat) : Nat :=
  let w := s.pwr
  match o with
  | 0x0000 => s.sclk
  | 0x0008 => pack [(0, s.clk.div), (3, b01 s.clk.pendingDiv.isSome)]
  | 0x0010 => pack [(0, w.maxState.toNat), (8, w.pmMargin.toNat)]
  | 0x0018 => w.hostQuiet.toNat
  | 0x0020 => pack [(0, w.earlyWake.toNat), (32, w.quietBroken.toNat)]
  | 0x0028 => pack [(0, w.limitW.toNat), (16, w.hystW.toNat), (32, w.iFast.toNat), (48, w.pauseCount.toNat)]
  | 0x0030 => pack [(0, w.warnC.toNat), (8, w.tHot.toNat), (16, w.sensorFail.toNat), (24, w.firstFail.toNat)]
  | 0x0038 => (s.clk.origin.getD 0) / 60
  | 0x0040 => s.clk.markRoot / 60
  | 0x0048 => s.clk.markMclk
  | _ => 0

def State.writeClocks (s : State) (o : Nat) (w : RegW) : State :=
  match o with
  | 0x0010 =>
    let v := w.new s.pwr.maxState.toNat 0 3
    let s := s.modPwr (fun p => { p with pmMargin := BitVec.ofNat 16 (max 1 (w.new p.pmMargin.toNat 8 16)) })
    if 4 < v then s.hostErrOpen 4 else s.modPwr (fun p => { p with maxState := BitVec.ofNat 3 v })
  | 0x0018 => s.modPwr (fun p => { p with hostQuiet := BitVec.ofNat 64 (w.over p.hostQuiet.toNat) })
  | 0x0028 => s.modPwr (fun p => { p with
      limitW := BitVec.ofNat 16 (min 10500 (w.new p.limitW.toNat 0 16)),
      hystW := BitVec.ofNat 16 (w.new p.hystW.toNat 16 16),
      iFast := BitVec.ofNat 16 (min 300 (w.new p.iFast.toNat 32 16)) })
  | 0x0030 => s.modPwr (fun p => { p with warnC := BitVec.ofNat 8 (w.new p.warnC.toNat 0 8) })
  | _ => s

def State.clearClocks (s : State) (o : Nat) (r : RegW) : State :=
  match o with
  | 0x0020 => s.modPwr (fun p => { p with
      earlyWake := if r.hit 0 then 0 else p.earlyWake, quietBroken := if r.hit 32 then 0 else p.quietBroken })
  | 0x0028 => if r.hit 48 then s.modPwr (fun p => { p with pauseCount := 0 }) else s
  | _ => s

/-! ### QUEUE (R281, R460) -/

def Queue.ctrl (w : Queue) : Nat :=
  pack [(0, b01 w.enable), (1, b01 w.stepMode), (2, b01 w.stopOnReject), (4, b01 w.sqHbm), (5, b01 w.cqHbm)]

def State.readQueue (s : State) (o : Nat) : Nat :=
  let q := s.sel.queue.toNat
  let w := s.queue q
  let x := s.qw q
  match o with
  | 0x0000 => selectWord q true
  | 0x0008 => pack [(0, w.ctrl), (8, w.st.toNat)]
  | 0x0010 => w.sqBase.toNat * 4096
  | 0x0018 => w.sqLog.toNat
  | 0x0020 => w.cqBase.toNat * 4096
  | 0x0028 => w.cqLog.toNat
  | 0x0030 => w.part.toNat
  | 0x0038 => w.winBase.toNat
  | 0x0040 => w.winLimit.toNat
  | 0x0048 => w.seed.toNat
  | 0x0070 => pack [(0, w.bank.toNat), (4, b01 w.resetOnStart)]
  | 0x0078 => w.head.toNat
  | 0x0080 => pack [(0, w.cqTail.toNat), (16, b01 w.phase)]
  | 0x0088 => pack [(0, w.refWrites.toNat), (16, w.refEnables.toNat), (32, w.ignDoor.toNat)]
  | 0x0090 => pack [(0, x.executing.length), (6, b01 x.waiting.isSome),
                    (16, match x.waiting with | some c => cTag c.bytes | none => 0)]
  | _ => if 0x0050 ≤ o ∧ o < 0x0070 then (w.timeouts.getD ((o - 0x0050) / 8) 0).toNat else 0

/-- A write to a register marked IDLE only (R281). -/
def State.idleOnly (s : State) (q : Nat) (f : Queue → Queue) : State :=
  if (s.queue q).st = 0 then s.modQueue q f else s.refuseWrite q

def State.writeQueue (s : State) (o : Nat) (w : RegW) : State :=
  let q := s.sel.queue.toNat
  match o with
  | 0x0000 => { s with sel := { s.sel with queue := BitVec.ofNat 6 (w.new q 0 6) } }
  | 0x0008 => if w.hit 0 then s.qCtrl (w.over (s.queue q).ctrl) else s
  | 0x0010 => s.idleOnly q (fun x => { x with sqBase := BitVec.ofNat 52 (w.new x.sqBase.toNat 12 52) })
  | 0x0018 => s.idleOnly q (fun x => { x with sqLog := BitVec.ofNat 5 (w.new x.sqLog.toNat 0 5) })
  | 0x0020 => s.idleOnly q (fun x => { x with cqBase := BitVec.ofNat 52 (w.new x.cqBase.toNat 12 52) })
  | 0x0028 => s.idleOnly q (fun x => { x with cqLog := BitVec.ofNat 5 (w.new x.cqLog.toNat 0 5) })
  | 0x0030 => s.idleOnly q (fun x => { x with part := BitVec.ofNat 3 (w.new x.part.toNat 0 3) })
  | 0x0038 => s.idleOnly q (fun x => { x with winBase := BitVec.ofNat 29 (w.new x.winBase.toNat 0 29) })
  | 0x0040 => s.idleOnly q (fun x => { x with winLimit := BitVec.ofNat 29 (w.new x.winLimit.toNat 0 29) })
  | 0x0048 => s.idleOnly q (fun x => { x with seed := BitVec.ofNat 64 (w.over x.seed.toNat) })
  | 0x0070 => s.idleOnly q (fun x => { x with
      bank := BitVec.ofNat 4 (w.new x.bank.toNat 0 4), resetOnStart := w.new (b01 x.resetOnStart) 4 1 == 1 })
  | _ =>
    if 0x0050 ≤ o ∧ o < 0x0070 then
      let i := (o - 0x0050) / 8
      s.modQueue q (fun x => { x with timeouts := x.timeouts.set i (BitVec.ofNat 32 (w.new (x.timeouts.getD i 0).toNat 0 32)) })
    else s

/-- Q_STATUS clears field by field. -/
def State.clearQueue (s : State) (o : Nat) (r : RegW) : State :=
  if o = 0x0088 then
    s.modQueue s.sel.queue.toNat (fun w => { w with
      refWrites := if r.hit 0 then 0 else w.refWrites, refEnables := if r.hit 16 then 0 else w.refEnables,
      ignDoor := if r.hit 32 then 0 else w.ignDoor })
  else s

/-! ### TILE (R461) -/

/-- The state code of a tile: in a napping die or a standing-by module it is in P_RETAIN (R421). -/
def State.tilePower (s : State) (t : Nat) : Nat :=
  if 3 ≤ (s.scope (2048 + t / 144)).code ∨ 3 ≤ (s.scope 4096).code then 2 else (s.scope t).code

def HalfPair.word (h : HalfPair) : Nat :=
  pack [(0, b01 h.enable), (1, b01 h.role), (2, h.size.toNat), (8, h.base4k.toNat), (19, b01 h.syncEn),
        (20, h.swapSync.toNat), (48, h.generation.toNat)]

/-- The registers that TILE_SEL governs. -/
def tileReg (o : Nat) : Bool := (decide (0x0008 ≤ o) && decide (o ≤ 0x0070)) || (decide (0x0100 ≤ o) && decide (o < 0x0180))

def State.readTile (s : State) (o : Nat) : Nat :=
  let t := s.sel.tile.toNat
  let x := s.tile t
  if o = 0 then selectWord t s.tileValid
  else if !s.tileValid then 0
  else if 0x0100 ≤ o ∧ o < 0x0180 then (s.pair t ((o - 0x0100) / 8)).word
  else match o with
    | 0x0008 =>
      let x := s.settle.tile t
      pack ((List.range 4).flatMap (fun c => [(3 * c, (x.ctx c).st.toNat), (2 * c + 12, (x.ctx c).plane.toNat)]) ++
        [(20, b01 x.claimed), (21, b01 x.op.isSome), (22, s.tilePower t)])
    | 0x0010 => x.c0.digest.toNat
    | 0x0018 => x.c1.digest.toNat
    | 0x0020 => x.c2.digest.toNat
    | 0x0028 => x.c3.digest.toNat
    | 0x0030 => pack [(0, x.winSlot.toNat), (2, x.winWord.toNat)]
    | 0x0038 =>
      let c := x.ctx x.winSlot.toNat
      if c.st = 0 ∨ c.st = 1 then 0 else leNat (slice c.bytes (8 * x.winWord.toNat) 8)
    | 0x0040 => x.ve.popcnt.toNat
    | 0x0048 => pack [(0, x.tsCe.toNat), (32, x.tsUe.toNat)]
    | 0x0050 => pack [(0, x.accCe.toNat), (32, x.accUe.toNat)]
    | 0x0058 => pack [(8, x.retireLimit.toNat)]
    | 0x0060 => pack [(0, b01 (s.flash.marks.contains t)), (1, b01 x.pairRefused), (4, x.refusedPair.toNat)]
    | 0x0068 => (x.queues.map (fun (_, q) => q.beats.length)).foldl (· + ·) 0
    | 0x0070 => pack ((List.range 4).flatMap (fun u =>
        let y := Tbl.get {} x.steer u
        [(6 * u, y.tokens.length),
         (10 * u + 24, y.data0.length + y.data1.length + y.data2.length + y.data3.length)]))
    | _ => 0

def State.writeTile (s : State) (o : Nat) (w : RegW) : State :=
  if o = 0 then { s with sel := { s.sel with tile := BitVec.ofNat 11 (w.new s.sel.tile.toNat 0 11) } }
  else if !tileReg o then s
  else s.onTile (fun s t =>
    if 0x0100 ≤ o then
      let n := (o - 0x0100) / 8
      let h := s.pair t n
      s.writePair t n (w.over ({ h with role := false, generation := 0 } : HalfPair).word)
    else match o with
      | 0x0030 => s.modTile t (fun x => { x with
          winSlot := BitVec.ofNat 2 (w.new x.winSlot.toNat 0 2), winWord := BitVec.ofNat 11 (w.new x.winWord.toNat 2 11) })
      | 0x0058 =>
        let s := s.modTile t (fun x => { x with retireLimit := BitVec.ofNat 8 (w.new x.retireLimit.toNat 8 8) })
        if w.ones 0 1 = 1 then s.markRetire t else s
      | 0x0060 =>
        let s := if w.ones 0 1 = 1 then s.withdraw t else s
        if w.ones 1 1 = 1 then s.modTile t (fun x => { x with pairRefused := false }) else s
      | _ => s)

/-! ### STACK (R462) -/

def State.readStack (s : State) (o : Nat) : Nat :=
  let k := s.sel.stack.toNat
  let x := s.stack k
  match o with
  | 0x0000 => selectWord k true
  | 0x0008 => pack [(0, x.latency.toNat), (8, b01 x.selfRefresh), (9, x.calFrame.toNat)]
  | 0x0010 => x.overrun.toNat
  | 0x0018 => pack [(0, x.ce.toNat), (32, x.ue.toNat)]
  | 0x0020 => x.vec.popcnt.toNat
  | 0x0028 => pack [(0, b01 x.ueBusy), (16, x.ueGroup.toNat)]
  | _ => 0

def State.writeStack (s : State) (o : Nat) (w : RegW) : State :=
  if o = 0 then { s with sel := { s.sel with stack := BitVec.ofNat 5 (w.new s.sel.stack.toNat 0 5) } } else s

/-! ### PORT (R347, R463) -/

def State.readPort (s : State) (o : Nat) : Nat :=
  let i := s.sel.port.toNat
  let x := s.port i
  let p := s.partOfPort i
  let y := s.part p
  if o = 0 then selectWord i s.portValid
  else if !s.portValid then 0
  else match o with
    | 0x0008 => pack [(0, b01 x.enable), (1, b01 x.autoRetrain), (2, b01 x.reach), (3, x.dir.toNat),
                      (16, x.ackTimeout.toNat), (32, x.retrainInterval.toNat)]
    | 0x0010 => pack [(0, x.st.toNat), (3, x.goodLanes.toNat), (12, x.peerNode.toNat), (24, x.peerPort.toNat),
                      (29, b01 x.peerValid)]
    | 0x0018 => pack [(0, x.retry.toNat), (16, x.badType.toNat), (32, x.noRoute.toNat), (48, x.hopLimit.toNat)]
    | 0x0020 => pack ((List.range 4).map (fun w => (8 * w, (x.weights.getD w 0).toNat)))
    | 0x0030 => y.node.toNat
    | 0x0038 => pack [(0, y.rxBase.toNat), (32, y.rxLimit.toNat)]
    | 0x0040 => pack [(0, b01 y.tableMode), (1, b01 (s.routeError p))]
    | 0x0048 => pack [(0, y.dimX.toNat), (8, y.dimY.toNat), (16, y.dimZ.toNat)]
    | 0x0050 => y.routeIndex.toNat
    | 0x0058 => Tbl.get 0 y.routes y.routeIndex.toNat
    | _ => 0

/-- P_CFG: a DIR of 7 or a RETRAIN_INTERVAL of 0 lies outside its range. -/
def State.writePortCfg (s : State) (i : Nat) (w : RegW) : State :=
  let x := s.port i
  let dir := w.new x.dir.toNat 3 3
  let interval := w.new x.retrainInterval.toNat 32 16
  let s := s.modPort i (fun x => { x with
    autoRetrain := w.new (b01 x.autoRetrain) 1 1 == 1, reach := w.new (b01 x.reach) 2 1 == 1,
    ackTimeout := BitVec.ofNat 16 (min 200 (max 5 (w.new x.ackTimeout.toNat 16 16))),
    dir := if dir < 7 then BitVec.ofNat 3 dir else x.dir,
    retrainInterval := if 0 < interval then BitVec.ofNat 16 interval else x.retrainInterval })
  let s := if dir < 7 then s else s.hostErrOpen 4
  let s := if 0 < interval then s else s.hostErrOpen 4
  s.portSetEnable i (w.new (b01 x.enable) 0 1 == 1)

/-- NODE_ID: once written after a partition change, the partition's ports deliver again (R26, R347). -/
def State.writeNode (s : State) (p : Nat) (w : RegW) : State :=
  let s := s.modPart p (fun y => { y with node := BitVec.ofNat 12 (w.new y.node.toNat 0 12), nodeHeld := false })
  ((s.portsOf p).foldl State.drainRx s).pumpAll

def State.writePort (s : State) (o : Nat) (w : RegW) : State :=
  let i := s.sel.port.toNat
  let p := s.partOfPort i
  let dim (d : BitVec 5) (lo : Nat) : BitVec 5 := BitVec.ofNat 5 (min 16 (max 1 (w.new d.toNat lo 5)))
  if o = 0 then { s with sel := { s.sel with port := BitVec.ofNat 5 (w.new i 0 5) } }
  else if o = 0x0028 ∨ 0x0058 < o then s
  else if !s.portValid then s.hostErrOpen 3
  else match o with
    | 0x0008 => s.writePortCfg i w
    | 0x0020 => s.modPort i (fun x => { x with
        weights := (List.range 4).map (fun k => BitVec.ofNat 8 (max 1 (w.new (x.weights.getD k 0).toNat (8 * k) 8))) })
    | 0x0030 => if w.hit 0 then s.writeNode p w else s
    | 0x0038 => s.modPart p (fun y => { y with
        rxBase := BitVec.ofNat 29 (w.new y.rxBase.toNat 0 29), rxLimit := BitVec.ofNat 29 (w.new y.rxLimit.toNat 32 29) })
    | 0x0040 => s.modPart p (fun y => { y with tableMode := w.new (b01 y.tableMode) 0 1 == 1 })
    | 0x0048 => s.modPart p (fun y => { y with dimX := dim y.dimX 0, dimY := dim y.dimY 8, dimZ := dim y.dimZ 16 })
    | 0x0050 => s.modPart p (fun y => { y with routeIndex := BitVec.ofNat 12 (w.new y.routeIndex.toNat 0 12) })
    | 0x0058 => s.modPart p (fun y =>
        let k := y.routeIndex.toNat
        { y with routes := Tbl.set 0 y.routes k (w.over (Tbl.get 0 y.routes k) &&& 0x013F3F3F) })
    | _ => s

def State.clearPort (s : State) (o : Nat) (r : RegW) : State :=
  if o = 0x0018 ∧ s.portValid then
    s.modPort s.sel.port.toNat (fun x => { x with
      retry := if r.hit 0 then 0 else x.retry, badType := if r.hit 16 then 0 else x.badType,
      noRoute := if r.hit 32 then 0 else x.noRoute, hopLimit := if r.hit 48 then 0 else x.hopLimit })
  else s

/-! ### LANE (R464) -/

def State.readLane (s : State) (o : Nat) : Nat :=
  let i := s.sel.lane.toNat
  let x := s.lane i
  if o = 0 then selectWord i s.laneValid
  else if !s.laneValid then 0
  else match o with
    | 0x0008 => pack [(0, x.st.toNat), (8, x.margin.toNat)]
    | 0x0018 => pack [(0, x.serLimit.toNat), (8, x.uncorrLimit.toNat), (24, x.marginLimit.toNat)]
    | 0x0020 => pack [(0, x.corr.toNat), (48, x.uncorr.toNat)]
    | _ => 0

def State.writeLane (s : State) (o : Nat) (w : RegW) : State :=
  let i := s.sel.lane.toNat
  if o = 0 then { s with sel := { s.sel with lane := BitVec.ofNat 8 (w.new i 0 8) } }
  else if 0x0020 < o then s
  else if !s.laneValid then s.hostErrOpen 3
  else match o with
    | 0x0010 => if w.ones 0 1 = 1 then s.retireLane i true else s
    | 0x0018 => s.modLane i (fun x => { x with
        serLimit := BitVec.ofNat 8 (w.new x.serLimit.toNat 0 8), uncorrLimit := BitVec.ofNat 16 (w.new x.uncorrLimit.toNat 8 16),
        marginLimit := BitVec.ofNat 8 (w.new x.marginLimit.toNat 24 8) })
    | _ => s

/-- CORR_SYMBOLS spans both halves: only a 64-bit read clears it (R456). -/
def State.clearLane (s : State) (o : Nat) (r : RegW) : State :=
  if o = 0x0020 ∧ s.laneValid then
    s.modLane s.sel.lane.toNat (fun x => { x with
      corr := if r.hit 0 && r.hit 32 then 0 else x.corr, uncorr := if r.hit 48 then 0 else x.uncorr })
  else s

/-! ### SYNC (R465) -/

def State.readSync (s : State) (o : Nat) : Nat :=
  let k := s.sel.sync.toNat
  let here (r : Bool) : Nat := (s.work.waiters.filter (fun w => w.obj == k && w.registered == r)).length
  match o with
  | 0x0000 => selectWord k true
  | 0x0008 => (s.obj k).type.toNat
  | 0x0010 => (s.obj k).value.toNat
  | 0x0018 => pack [(0, here true), (16, here false)]
  | 0x0020 => pack [(0, (Tbl.get 0 s.mismatch (k / 32768)).toNat), (32, s.slotsUsed (k / 32768))]
  | _ => 0

def State.writeSync (s : State) (o : Nat) (w : RegW) : State :=
  if o = 0 then { s with sel := { s.sel with sync := BitVec.ofNat 18 (w.new s.sel.sync.toNat 0 18) } } else s

def State.clearSync (s : State) (o : Nat) (r : RegW) : State :=
  if o = 0x0020 ∧ r.hit 0 then { s with mismatch := Tbl.set 0 s.mismatch (s.sel.sync.toNat / 32768) 0 } else s

/-! ### COUNTER (R441, R452, R466) -/

def State.readCounter (s : State) (o : Nat) : Nat :=
  let b := s.bank s.sel.cnt.toNat
  match o with
  | 0x0000 => selectWord s.sel.cnt.toNat true
  | 0x0010 => b.epoch.toNat
  | 0x0018 => s.sel.ambient.toNat
  | 0x0020 => s.sel.eng.toNat
  | 0x0028 => pack [(1, b01 s.sel.sampleDone)]
  | 0x0030 => s.sel.sampleEpoch.toNat
  | 0x0038 => b.snapBase.toNat
  | 0x0040 => pack [(0, b.slotSize.toNat), (16, b.snapCount.toNat), (32, b.nextIndex.toNat)]
  | _ => if 0x0080 ≤ o ∧ o < 0x0100 then (s.sel.sampleData.getD ((o - 0x0080) / 8) 0).toNat else 0

def State.writeCounter (s : State) (o : Nat) (w : RegW) : State :=
  let k := s.sel.cnt.toNat
  match o with
  | 0x0000 => { s with sel := { s.sel with cnt := BitVec.ofNat 4 (w.new k 0 4) } }
  | 0x0008 => s.writeCntCtrl (w.ones 0 1)
  | 0x0018 => s.setAmbient (BitVec.ofNat 32 (w.new s.sel.ambient.toNat 0 32))
  | 0x0020 => { s with sel := { s.sel with eng := BitVec.ofNat 32 (w.new s.sel.eng.toNat 0 32) } }
  | 0x0028 => s.writeSample (w.ones 0 1)
  | 0x0038 =>
    let a := w.new (s.bank k).snapBase.toNat 0 52
    if a % 4096 = 0 then s.modBank k (fun b => { b with snapBase := BitVec.ofNat 52 a }) else s.hostErrOpen 4
  | 0x0040 =>
    let z := w.new (s.bank k).slotSize.toNat 0 4
    let s := s.modBank k (fun b => { b with snapCount := BitVec.ofNat 16 (w.new b.snapCount.toNat 16 16) })
    if 9 < z then s.hostErrOpen 4 else s.modBank k (fun b => { b with slotSize := BitVec.ofNat 4 z })
  | _ => s

/-! ### TRACE (R446, R452, R466) -/

/-- BUF_DATA: the full half's records, then those of the half in use (log 46). -/
def TraceBuf.word (b : TraceBuf) (o : Nat) : Nat :=
  bits ((b.full ++ b.half).getD (o / 16) 0) (64 * (o % 16 / 8)) 64

def State.readTrace (s : State) (o : Nat) : Nat :=
  let x := s.sel.src.toNat
  if o = 0 then selectWord x s.srcValid
  else if !s.srcValid then 0
  else if o = 0x0008 then (s.traceBuf x).mask.toNat
  else if 0x4000 ≤ o ∧ o < 0x8000 then (s.traceBuf x).word (o - 0x4000)
  else 0

def State.writeTrace (s : State) (o : Nat) (w : RegW) : State :=
  let x := s.sel.src.toNat
  if o = 0 then { s with sel := { s.sel with src := BitVec.ofNat 16 (w.new x 0 16) } }
  else if o = 0x0008 ∨ (0x4000 ≤ o ∧ o < 0x8000) then
    if !s.srcValid then s.hostErrOpen 3
    else if o = 0x0008 then s.modTrace x (fun b => { b with mask := BitVec.ofNat 16 (w.new b.mask.toNat 0 16) })
    else s
  else s

/-! ### DEBUG (R451, R452, R466) -/

def State.readDebug (s : State) (o : Nat) : Nat :=
  let d := s.dbg
  match o with
  | 0x0000 => selectWord d.frzSel.toNat s.unitValid
  | 0x0008 => pack [(0, b01 d.freezeReq), (8, d.fanout.toNat)]
  | 0x0010 => pack [(0, b01 d.brkEnable), (1, b01 d.brkHit), (3, d.brkPlane.toNat), (8, d.brkMb.toNat)]
  | 0x0018 => if s.unitValid then d.stampN.toNat else 0
  | 0x0020 => if s.unitValid then d.stampM.toNat else 0
  | 0x0028 => s.frzSources
  | 0x0030 => d.noProgress.toNat
  | _ => 0

def State.writeDebug (s : State) (o : Nat) (w : RegW) : State :=
  match o with
  | 0x0000 => s.modDbg (fun d => { d with frzSel := BitVec.ofNat 32 (w.new d.frzSel.toNat 0 32) })
  | 0x0008 => if w.hit 0 then s.writeDbgCtrl w.v else s
  | 0x0010 => if w.hit 0 then s.writeBreak w.v else s
  | 0x0018 => if s.unitValid then s else s.hostErrOpen 3
  | 0x0020 => if s.unitValid then s else s.hostErrOpen 3
  | 0x0030 => s.modDbg (fun d => { d with
      noProgress := BitVec.ofNat 32 (max 1024 (w.new d.noProgress.toNat 0 32)),
      noProgWas := if s.mclk < d.noProgFrom then d.noProgWas else d.noProgress.toNat, noProgFrom := s.mclk + 1 })
  | _ => s

/-! ### SECURITY (R467) -/

/-- An entry of MEAS_LOG: index, stage, and the digest at byte 16 (log 46). -/
def measEntry (m : Nat × Nat × List Byte) : List Byte := leBytes 1 m.1 ++ leBytes 1 m.2.1 ++ leBytes 14 0 ++ slice m.2.2 0 48

def State.readSecurity (s : State) (o : Nat) : Nat :=
  let x := s.sec
  let f := s.flash
  if 0x0040 ≤ o ∧ o < 0x00C0 then leNat (slice x.challengeBytes (o - 0x0040) 8)
  else if 0x1000 ≤ o ∧ o < 0x2000 then
    match x.meas[(o - 0x1000) / 64]? with
    | some m => leNat (slice (measEntry m) (o % 64) 8)
    | none => 0
  else if 0x3000 ≤ o ∧ o < 0x3100 then leNat (slice x.cfgShown (o - 0x3000) 8)
  else match o with
    | 0x0008 => pack [(0, b01 f.preferred), (1, b01 x.active), (2, f.valid.toNat)]
    | 0x0010 => pack [(0, s.fuse.rollback.toNat), (16, x.runningSvn.toNat)]
    | 0x0020 => pack [(0, x.mbBlock.toNat), (24, b01 x.mbLast), (26, x.mbStatus.toNat)]
    | 0x0028 => x.dbgReq.toNat
    | 0x0030 => pack [(0, x.unlocked.toNat), (2, x.failures.toNat)]
    | 0x0038 => x.meas.length
    | 0x0180 => pack [(1, x.cfgStatus.toNat)]
    | _ => 0

/-- Bytes that a write puts into a byte array of `n` bytes at offset `o`. -/
def RegW.into (w : RegW) (l : List Byte) (n o : Nat) : List Byte :=
  let old := leNat (slice l o 8)
  setBytes l n o (leBytes 8 (w.over old))

/-- GO and the response's verification have rows of their own with the outcome of the check: here the bytes are stored
(log 8). -/
def State.writeSecurity (s : State) (o : Nat) (w : RegW) : State :=
  if 0x2000 ≤ o ∧ o < 0x3000 then s.modSec (fun x => { x with mailbox := w.into x.mailbox 4096 (o - 0x2000) })
  else if o = 0x0020 then s.writeMbCtrl (w.over (pack [(0, s.sec.mbBlock.toNat), (24, b01 s.sec.mbLast)]))
  else if !s.secServed then s
  else if 0x0100 ≤ o ∧ o < 0x0160 then s.modSec (fun x => { x with response := w.into x.response 96 (o - 0x0100) })
  else if 0x3000 ≤ o ∧ o < 0x3100 then s.modSec (fun x => { x with cfgRecord := w.into x.cfgRecord 256 (o - 0x3000) })
  else match o with
    | 0x0008 => { s with flash := { s.flash with preferred := w.new (b01 s.flash.preferred) 0 1 == 1 } }
    | 0x0010 => if w.ones 8 1 = 1 then s.rollbackCommit else s
    | 0x0028 =>
      let l := w.new s.sec.dbgReq.toNat 0 2
      if l = 3 then s.hostErrOpen 4 else s.modSec (fun x => { x with dbgReq := BitVec.ofNat 2 l })
    | 0x0180 => if w.ones 0 1 = 1 ∧ s.allServed then s.commitRecord else s
    | _ => s

/-! ### PAIR and FUSE_REPAIR (R468, R469) -/

def State.readPair (s : State) (o : Nat) : Nat :=
  let p := o / 0x100
  let y := (s.part p).pair
  if s.nParts ≤ p then 0
  else match o % 0x100 with
    | 0x00 => pack [(0, y.landingMib.toNat), (32, y.hbTimeout.toNat)]
    | 0x08 => pack [(0, y.st.toNat), (3, y.failCause.toNat), (32, y.epoch.toNat)]
    | 0x10 => y.commitStep.toNat
    | 0x18 => y.tx.toNat
    | 0x20 => y.rx.toNat
    | _ => 0

/-- The set of a partition that does not exist is an absent instance. -/
def State.writePairReg (s : State) (o : Nat) (w : RegW) : State :=
  let p := o / 0x100
  if 8 ≤ p ∨ 0x20 < o % 0x100 then s
  else if s.nParts ≤ p then s.hostErrOpen 3
  else if o % 0x100 = 0 then
    s.modPart p (fun x => { x with pair := { x.pair with
      landingMib := BitVec.ofNat 16 (w.new x.pair.landingMib.toNat 0 16),
      hbTimeout := BitVec.ofNat 16 (max 400 (w.new x.pair.hbTimeout.toNat 32 16)) } })
  else s

/-- The per-tile part reads for every TILE_SEL below 1,152 (R455). -/
def State.readFuse (s : State) (o : Nat) : Nat :=
  let f := s.fuse
  let t := s.sel.tile.toNat
  if o = 0x0000 then b01 f.locked
  else if o = 0x0008 then
    pack [(0, f.ordering.toNat), (8, ((List.range 1152).filter s.absent).length), (24, f.retired.length)]
  else if 1152 ≤ t then 0
  else if o = 0x0010 then
    pack [(0, b01 (f.fusedOff.contains t)), (1, b01 (f.retired.contains t)), (2, b01 (s.flash.marks.contains t)),
          (3, b01 (f.leftOut.contains t))]
  else if 0x0100 ≤ o ∧ o < 0x0200 then
    let b := Tbl.get {} f.banks (t * 32 + (o - 0x0100) / 8)
    pack [(0, b.fused.toNat), (8, b.bist.toNat), (10, b01 b.fail)]
  else 0

/-! ### The whole of BAR0 (R453) -/

/-- What the register at an 8-aligned offset reads (R408: a block out of reach reads 0). -/
def State.readReg (s : State) (o : Nat) : Nat :=
  let b := o / 0x10000
  let r := o % 0x10000
  if b = 0 then (if s.modServed then s.readModule r else 0)
  else if b = 0xD then (if s.secServed then s.readSecurity r else if s.mailServed ∧ r = 0x0020 then s.readSecurity r else 0)
  else if b = 5 ∨ b = 7 ∨ b = 8 ∨ b = 0xF then
    if !s.laneServed then 0
    else if b = 5 then s.readTile r else if b = 7 then s.readPort r else if b = 8 then s.readLane r else s.readFuse r
  else if !s.allServed then 0
  else if 0x100000 ≤ o ∧ o < 0x140000 then
    let w := s.queue ((o - 0x100000) / 0x1000)
    if o % 0x1000 = 0 then w.sqTail.toNat else if o % 0x1000 = 8 then w.cqHead.toNat else 0
  else match b with
    | 1 => s.readSizes r
    | 2 => s.readClocks r
    | 3 => s.readQueue r
    | 6 => s.readStack r
    | 9 => s.readSync r
    | 0xA => s.readCounter r
    | 0xB => s.readTrace r
    | 0xC => s.readDebug r
    | 0xE => s.readPair r
    | _ => 0

/-- A doorbell page's write (R284, R287). -/
def State.writeBell (s : State) (o : Nat) (w : RegW) : State :=
  let q := (o - 0x100000) / 0x1000
  let v := w.v % 2 ^ 16
  if !w.hit 0 then s
  else if o % 0x1000 = 0 then s.bell (.sqTail q v) 1 q v
  else if o % 0x1000 = 8 then s.bell (.cqHead q v) 2 q v
  else s

/-- A write to the register at an 8-aligned offset. -/
def State.writeReg (s : State) (o : Nat) (w : RegW) : State :=
  let b := o / 0x10000
  let r := o % 0x10000
  if b = 0 then (if s.modServed then s.writeModule r w else s)
  else if b = 0xD then (if s.mailServed then s.writeSecurity r w else s)
  else if b = 5 ∨ b = 7 ∨ b = 8 ∨ b = 0xF then
    if !s.laneServed then s
    else if b = 5 then s.writeTile r w else if b = 7 then s.writePort r w else if b = 8 then s.writeLane r w else s
  else if 0x100000 ≤ o ∧ o < 0x140000 then s.writeBell o w
  else if !s.allServed then s
  else match b with
    | 2 => s.writeClocks r w
    | 3 => s.writeQueue r w
    | 6 => s.writeStack r w
    | 9 => s.writeSync r w
    | 0xA => s.writeCounter r w
    | 0xB => s.writeTrace r w
    | 0xC => s.writeDebug r w
    | 0xE => s.writePairReg r w
    | _ => s

/-- What a read clears (R456), and the nonce that a read of DBG_CHALLENGE's first bytes draws. -/
def State.clearReg (s : State) (o : Nat) (r : RegW) : State :=
  let b := o / 0x10000
  let k := o % 0x10000
  if b = 0 then (if s.modServed then s.clearModule k r else s)
  else if b = 7 then (if s.laneServed then s.clearPort k r else s)
  else if b = 8 then (if s.laneServed then s.clearLane k r else s)
  else if !s.allServed then s
  else match b with
    | 2 => s.clearClocks k r
    | 3 => s.clearQueue k r
    | 9 => s.clearSync k r
    | _ => s

/-- The value an access of `size` bytes returns. -/
def State.bar0Value (s : State) (off size : Nat) : Nat :=
  bits (s.readReg (off - off % 8)) (if size = 4 then off % 8 * 8 else 0) (8 * size)

/-- A host write of 4 or 8 bytes to BAR0. -/
def execRegisterWrite (off size v : Nat) (s : State) : Host.Outcome State Fault Refusal :=
  .next (s.writeReg (off - off % 8) (regAccess off size v))

/-- A host read of 4 or 8 bytes of BAR0: the value, then the clearing. -/
def execReadClear (off size : Nat) (s : State) : Host.Outcome State Fault Refusal :=
  .next (
    let s := if off = 0xD0040 ∧ s.secServed then s.drawNonce else s
    (s.clearReg (off - off % 8) (regAccess off size 0)).reply { kind := 1, value := s.bar0Value off size })

end Sys2Proof.Machine
end

