-- ==== Sys2Proof/Machine/TileRows.lean ====
section
/-!
DEFINITION. The rows of a tile's units: STREAMING_ROW_ISSUE, SLOT_ROW_LOAD, DRAIN, FILL and INVOCATION, with what ECC finds in
the words they read, and the sync port's entries that they let issue.
-/
namespace Sys2Proof.Machine

/-- A row of a unit of tile `t` for work `id`; `entry`: it reads an entry of the run's context. -/
def State.unitRow (s : State) (id t : Nat) (entry : Bool) (e : EccFound) (f : State → State) : State :=
  s.unlessHalted (fun s =>
    if entry && e.ctx then s.contextError id t else (f (s.eccFound t e)).syncPorts id)

def execStreamingRowIssue (r : Reading RowRef) (s : State) : Host.Outcome State Fault Refusal :=
  .next (match r.row with
    | .frond id t _ _ => s.unitRow id t true r.ecc (fun s => s.streamRow r.row)
    | .direct x => s.unitRow x.work x.tile false r.ecc (fun s => s.streamRow r.row))

def execSlotRowLoad (r : Reading SlotRef) (s : State) : Host.Outcome State Fault Refusal :=
  .next (match r.row with
    | .frond id t _ => s.unitRow id t true r.ecc (fun s => s.slotRow r.row)
    | .direct x => s.unitRow x.work x.tile false r.ecc (fun s => s.slotRow r.row))

/-- The reference is to an entry of a run's context. -/
def refEntry : WorkRef → Bool
  | .frond _ _ _ => true
  | .direct _ _ _ _ _ _ => false

def execDrain (w : Reading WorkRef) (s : State) : Host.Outcome State Fault Refusal :=
  .next (s.unitRow (refId w.row) (refTile w.row) (refEntry w.row) w.ecc (fun s => s.drainRef w.row false))

def execFill (w : Reading WorkRef) (s : State) : Host.Outcome State Fault Refusal :=
  .next (s.unitRow (refId w.row) (refTile w.row) (refEntry w.row) w.ecc (fun s => s.drainRef w.row true))

def execInvocation (w : Reading WorkRef) (s : State) : Host.Outcome State Fault Refusal :=
  .next (s.unitRow (refId w.row) (refTile w.row) (refEntry w.row) w.ecc (fun s => s.invocationRow w.row))

end Sys2Proof.Machine
end

