-- ==== Sys2Proof/Machine/Dispatch.lean ====
section
/-!
DEFINITION. One arm for each command: its meaning, on everything but the queue of commands.
-/
namespace Sys2Proof.Machine

def exec (i : Instr) (s : State) : Host.Outcome State Fault Refusal :=
  match i with
  | .nop q => Sys2Proof.Machine.execNop q s
  | .fence q => Sys2Proof.Machine.execFence q s
  | .signal q => Sys2Proof.Machine.execSignal q s
  | .wait q => Sys2Proof.Machine.execWait q s
  | .loadFrond q => Sys2Proof.Machine.execLoadFrond q s
  | .runFrond q => Sys2Proof.Machine.execRunFrond q s
  | .unloadFrond q => Sys2Proof.Machine.execUnloadFrond q s
  | .op q => Sys2Proof.Machine.execOp q s
  | .copy q => Sys2Proof.Machine.execCopy q s
  | .copyNd q => Sys2Proof.Machine.execCopyNd q s
  | .fusedChain q => Sys2Proof.Machine.execFusedChain q s
  | .halfSwap q => Sys2Proof.Machine.execHalfSwap q s
  | .updateStep q => Sys2Proof.Machine.execUpdateStep q s
  | .rootRefresh q => Sys2Proof.Machine.execRootRefresh q s
  | .groupWrite q => Sys2Proof.Machine.execGroupWrite q s
  | .collective q => Sys2Proof.Machine.execCollective q s
  | .reshard q => Sys2Proof.Machine.execReshard q s
  | .kvRing q => Sys2Proof.Machine.execKvRing q s
  | .pairConfig q => Sys2Proof.Machine.execPairConfig q s
  | .pairCommit q => Sys2Proof.Machine.execPairCommit q s
  | .perfSnapshot q => Sys2Proof.Machine.execPerfSnapshot q s
  | .traceCtl q => Sys2Proof.Machine.execTraceCtl q s
  | .quiesce q => Sys2Proof.Machine.execQuiesce q s
  | .quiesced p => Sys2Proof.Machine.execQuiesced p s
  | .partialCommandTimeout q => Sys2Proof.Machine.execPartialCommandTimeout q s
  | .waitTimeout q id => Sys2Proof.Machine.execWaitTimeout q id s
  | .completionRecord q => Sys2Proof.Machine.execCompletionRecord q s
  | .queueEnable v => Sys2Proof.Machine.execQueueEnable v s
  | .queueDisable v => Sys2Proof.Machine.execQueueDisable v s
  | .resume v => Sys2Proof.Machine.execResume v s
  | .sqTail q v => Sys2Proof.Machine.execSqTail q v s
  | .cqHead q v => Sys2Proof.Machine.execCqHead q v s
  | .eventSet obj => Sys2Proof.Machine.execEventSet obj s
  | .eventClear obj => Sys2Proof.Machine.execEventClear obj s
  | .semPost obj n => Sys2Proof.Machine.execSemPost obj n s
  | .semTry obj => Sys2Proof.Machine.execSemTry obj s
  | .counterAdd obj v => Sys2Proof.Machine.execCounterAdd obj v s
  | .counterSet obj v => Sys2Proof.Machine.execCounterSet obj v s
  | .barrierArrive obj => Sys2Proof.Machine.execBarrierArrive obj s
  | .initCounter obj v => Sys2Proof.Machine.execInitCounter obj v s
  | .initSemaphore obj v => Sys2Proof.Machine.execInitSemaphore obj v s
  | .initBarrier obj v => Sys2Proof.Machine.execInitBarrier obj v s
  | .initEvent obj v => Sys2Proof.Machine.execInitEvent obj v s
  | .waiterPoll w => Sys2Proof.Machine.execWaiterPoll w s
  | .swapNotice tile => Sys2Proof.Machine.execSwapNotice tile s
  | .handoverSwap id stage => Sys2Proof.Machine.execHandoverSwap id stage s
  | .dmaDescriptor id => Sys2Proof.Machine.execDmaDescriptor id s
  | .contextLoad die => Sys2Proof.Machine.execContextLoad die s
  | .contextLoadComplete id => Sys2Proof.Machine.execContextLoadComplete id s
  | .runStart id => Sys2Proof.Machine.execRunStart id s
  | .bodyStart id => Sys2Proof.Machine.execBodyStart id s
  | .planeSwitch id => Sys2Proof.Machine.execPlaneSwitch id s
  | .issueEnd id => Sys2Proof.Machine.execIssueEnd id s
  | .runComplete id => Sys2Proof.Machine.execRunComplete id s
  | .timedInputLate id input cls cause => Sys2Proof.Machine.execTimedInputLate id input cls cause s
  | .holdEnd id => Sys2Proof.Machine.execHoldEnd id s
  | .joinStarve id => Sys2Proof.Machine.execJoinStarve id s
  | .streamingRowIssue r => Sys2Proof.Machine.execStreamingRowIssue r s
  | .slotRowLoad r => Sys2Proof.Machine.execSlotRowLoad r s
  | .drain w => Sys2Proof.Machine.execDrain w s
  | .fill w => Sys2Proof.Machine.execFill w s
  | .invocation w => Sys2Proof.Machine.execInvocation w s
  | .streamBeat tile stream => Sys2Proof.Machine.execStreamBeat tile stream s
  | .creditReturn tile stream dest => Sys2Proof.Machine.execCreditReturn tile stream dest s
  | .switchItem tile unit => Sys2Proof.Machine.execSwitchItem tile unit s
  | .mergeItem tile unit => Sys2Proof.Machine.execMergeItem tile unit s
  | .operatorStart id => Sys2Proof.Machine.execOperatorStart id s
  | .workCounterTake obj requester seq => Sys2Proof.Machine.execWorkCounterTake obj requester seq s
  | .outputTileComplete id tile index => Sys2Proof.Machine.execOutputTileComplete id tile index s
  | .momentumPhase id block => Sys2Proof.Machine.execMomentumPhase id block s
  | .weightPhase id block => Sys2Proof.Machine.execWeightPhase id block s
  | .write p => Sys2Proof.Machine.execWrite p s
  | .writeRsp p => Sys2Proof.Machine.execWriteRsp p s
  | .syncReq p => Sys2Proof.Machine.execSyncReq p s
  | .syncRsp p => Sys2Proof.Machine.execSyncRsp p s
  | .collSeg p => Sys2Proof.Machine.execCollSeg p s
  | .clear p => Sys2Proof.Machine.execClear p s
  | .abort p => Sys2Proof.Machine.execAbort p s
  | .stale p => Sys2Proof.Machine.execStale p s
  | .busy p => Sys2Proof.Machine.execBusy p s
  | .clearResend id member => Sys2Proof.Machine.execClearResend id member s
  | .arrive p => Sys2Proof.Machine.execArrive p s
  | .flags p => Sys2Proof.Machine.execFlags p s
  | .collTimeout id member => Sys2Proof.Machine.execCollTimeout id member s
  | .mirrorData p => Sys2Proof.Machine.execMirrorData p s
  | .groupEnd p => Sys2Proof.Machine.execGroupEnd p s
  | .scaleRecordEnd p => Sys2Proof.Machine.execScaleRecordEnd p s
  | .mirrorAck p => Sys2Proof.Machine.execMirrorAck p s
  | .form p => Sys2Proof.Machine.execForm p s
  | .commit p => Sys2Proof.Machine.execCommit p s
  | .resyncBytes p => Sys2Proof.Machine.execResyncBytes p s
  | .pairHeartbeat port node epoch frozen faulted ended => Sys2Proof.Machine.execPairHeartbeat port node epoch frozen faulted ended s
  | .heartbeatSend p => Sys2Proof.Machine.execHeartbeatSend p s
  | .heartbeatTimeout p => Sys2Proof.Machine.execHeartbeatTimeout p s
  | .pairFailN low => Sys2Proof.Machine.execPairFailN low s
  | .dataFrame port bytes => Sys2Proof.Machine.execDataFrame port bytes s
  | .controlSlot port b => Sys2Proof.Machine.execControlSlot port b s
  | .frameTransmit port => Sys2Proof.Machine.execFrameTransmit port s
  | .ackTimeout port => Sys2Proof.Machine.execAckTimeout port s
  | .freeze port node seq => Sys2Proof.Machine.execFreeze port node seq s
  | .release port node seq => Sys2Proof.Machine.execRelease port node seq s
  | .widthChange port lane codeword => Sys2Proof.Machine.execWidthChange port lane codeword s
  | .equaliserRequest lane tap up => Sys2Proof.Machine.execEqualiserRequest lane tap up s
  | .alignmentCodeword lane node peerPort dir mask => Sys2Proof.Machine.execAlignmentCodeword lane node peerPort dir mask s
  | .portTraining port mask => Sys2Proof.Machine.execPortTraining port mask s
  | .retrainInterval port => Sys2Proof.Machine.execRetrainInterval port s
  | .laneErrorWindow lane errors symbols uncorr margin => Sys2Proof.Machine.execLaneErrorWindow lane errors symbols uncorr margin s
  | .lockLoss lane => Sys2Proof.Machine.execLockLoss lane s
  | .laneRetire v => Sys2Proof.Machine.execLaneRetire v s
  | .portEnable v => Sys2Proof.Machine.execPortEnable v s
  | .haltN low => Sys2Proof.Machine.execHaltN low s
  | .freezeReq v => Sys2Proof.Machine.execFreezeReq v s
  | .freezeResume => Sys2Proof.Machine.execFreezeResume s
  | .continueBreak v => Sys2Proof.Machine.execContinueBreak v s
  | .counterReset v => Sys2Proof.Machine.execCounterReset v s
  | .sample v => Sys2Proof.Machine.execSample v s
  | .traceBlockWrite source => Sys2Proof.Machine.execTraceBlockWrite source s
  | .partLayout v => Sys2Proof.Machine.execPartLayout v s
  | .partitionChange => Sys2Proof.Machine.execPartitionChange s
  | .partResume v => Sys2Proof.Machine.execPartResume v s
  | .jobEpoch v => Sys2Proof.Machine.execJobEpoch v s
  | .bar2Window v => Sys2Proof.Machine.execBar2Window v s
  | .halfPairWrite n v => Sys2Proof.Machine.execHalfPairWrite n v s
  | .tileRetire v => Sys2Proof.Machine.execTileRetire v s
  | .retireWithdraw v => Sys2Proof.Machine.execRetireWithdraw v s
  | .autoRetireMark tile => Sys2Proof.Machine.execAutoRetireMark tile s
  | .softReset v => Sys2Proof.Machine.execSoftReset v s
  | .rollbackCommit v => Sys2Proof.Machine.execRollbackCommit v s
  | .fwMbCtrlGo v verifies svn version => Sys2Proof.Machine.execFwMbCtrlGo v verifies svn version s
  | .cfgCtrlCommit v => Sys2Proof.Machine.execCfgCtrlCommit v s
  | .dbgChallenge size => Sys2Proof.Machine.execDbgChallenge size s
  | .dbgResponse v verifies => Sys2Proof.Machine.execDbgResponse v verifies s
  | .registerWrite off size v => Sys2Proof.Machine.execRegisterWrite off size v s
  | .readClear off size => Sys2Proof.Machine.execReadClear off size s
  | .bar2Read off n => Sys2Proof.Machine.execBar2Read off n s
  | .bar2Write off bytes ep => Sys2Proof.Machine.execBar2Write off bytes ep s
  | .heldAccumulatorAccess => Sys2Proof.Machine.execHeldAccumulatorAccess s
  | .hostReadCompletion tag ok bytes => Sys2Proof.Machine.execHostReadCompletion tag ok bytes s
  | .cplTimeout tag => Sys2Proof.Machine.execCplTimeout tag s
  | .configRequest write reg v => Sys2Proof.Machine.execConfigRequest write reg v s
  | .getVersion transport => Sys2Proof.Machine.execGetVersion transport s
  | .getCapabilities transport version => Sys2Proof.Machine.execGetCapabilities transport version s
  | .negotiateAlgorithms transport base hash => Sys2Proof.Machine.execNegotiateAlgorithms transport base hash s
  | .getDigests transport => Sys2Proof.Machine.execGetDigests transport s
  | .getCertificate transport slot off len => Sys2Proof.Machine.execGetCertificate transport slot off len s
  | .setCertificate transport slot chain leafOk => Sys2Proof.Machine.execSetCertificate transport slot chain leafOk s
  | .challenge transport slot nonce => Sys2Proof.Machine.execChallenge transport slot nonce s
  | .getMeasurements transport index sign nonce => Sys2Proof.Machine.execGetMeasurements transport index sign nonce s
  | .keyExchange transport point => Sys2Proof.Machine.execKeyExchange transport point s
  | .coldReset => Sys2Proof.Machine.execColdReset s
  | .fundamentalReset => Sys2Proof.Machine.execFundamentalReset s
  | .perstNHigh => Sys2Proof.Machine.execPerstNHigh s
  | .functionReset => Sys2Proof.Machine.execFunctionReset s
  | .moduleReset => Sys2Proof.Machine.execModuleReset s
  | .thermalReset => Sys2Proof.Machine.execThermalReset s
  | .thermalRecovery => Sys2Proof.Machine.execThermalRecovery s
  | .vinTrip => Sys2Proof.Machine.execVinTrip s
  | .regulatorFault reg => Sys2Proof.Machine.execRegulatorFault reg s
  | .vauxFault => Sys2Proof.Machine.execVauxFault s
  | .stageF0 rate width => Sys2Proof.Machine.execStageF0 rate width s
  | .stageF1 b => Sys2Proof.Machine.execStageF1 b s
  | .stageF2 b => Sys2Proof.Machine.execStageF2 b s
  | .stageF3 measured => Sys2Proof.Machine.execStageF3 measured s
  | .stageF4 => Sys2Proof.Machine.execStageF4 s
  | .stageF5 => Sys2Proof.Machine.execStageF5 s
  | .stageLimit => Sys2Proof.Machine.execStageLimit s
  | .controlCoreWatchdog core => Sys2Proof.Machine.execControlCoreWatchdog core s
  | .controlCoreMemoryError core => Sys2Proof.Machine.execControlCoreMemoryError core s
  | .rootCoreMemoryError => Sys2Proof.Machine.execRootCoreMemoryError s
  | .rhizomeBoundaryLost boundary => Sys2Proof.Machine.execRhizomeBoundaryLost boundary s
  | .mclkDividerChange => Sys2Proof.Machine.execMclkDividerChange s
  | .powerSample watts amps => Sys2Proof.Machine.execPowerSample watts amps s
  | .powerPause => Sys2Proof.Machine.execPowerPause s
  | .powerPauseEnd => Sys2Proof.Machine.execPowerPauseEnd s
  | .powerStateEvaluate xs => Sys2Proof.Machine.execPowerStateEvaluate xs s
  | .powerWake xs => Sys2Proof.Machine.execPowerWake xs s
  | .earlyWake xs => Sys2Proof.Machine.execEarlyWake xs s
  | .wakeComplete xs => Sys2Proof.Machine.execWakeComplete xs s
  | .thermalSample readings => Sys2Proof.Machine.execThermalSample readings s
  | .voltageTrim die margin => Sys2Proof.Machine.execVoltageTrim die margin s
  | .sensorComparison estimates readings => Sys2Proof.Machine.execSensorComparison estimates readings s
  | .calibrationSlot k late => Sys2Proof.Machine.execCalibrationSlot k late s
  | .refresh k late => Sys2Proof.Machine.execRefresh k late s
  | .patrolScrub tile bank row err touched => Sys2Proof.Machine.execPatrolScrub tile bank row err touched s
  | .poisonWriteback k block => Sys2Proof.Machine.execPoisonWriteback k block s
  | .notBeforeReached q id => Sys2Proof.Machine.execNotBeforeReached q id s
  | .remoteSignalTimeout id => Sys2Proof.Machine.execRemoteSignalTimeout id s
  | .peerInputTimeout id => Sys2Proof.Machine.execPeerInputTimeout id s

end Sys2Proof.Machine
end

