-- ==== Sys2Proof/Machine/Tick.lean ====
section
/-!
DEFINITION. The tick: one root-PLL cycle, 1/6 ns (R418).
-/
namespace Sys2Proof.Machine

/-- One root cycle passes. -/
def tick (s : State) : State := s.advance 1

end Sys2Proof.Machine
end

