-- ==== Sys2Proof/Safety.lean ====
section
/-!
DEFINITION. What a well-kept state of the module is, in the terms the statements use: the byte memory and the poison
marks in canonical form.
-/
namespace Sys2Proof.Machine

/-- The byte memory is in canonical form: addresses strictly rising, no entry of the value an unlisted byte reads as. -/
def Memory.wf (s : State) : Bool := Tbl.wfBy (blank s.scratch) none s.mem

/-- The poison marks are a strictly rising list. -/
def Poison.wf (s : State) : Bool := setWf s.poison

end Sys2Proof.Machine
end

