-- ==== Sys2Proof/Certificates/Slice0/Obligations.lean ====
section
/-!
DEFINITION. The statements for the provers. A statement about a command says which next state `exec` answers, as an
equation, so that it gives the command's effect, its frame and that it completes in one; what a clause supposes is only
about the state and the operands. `Claims` holds the words that the statements share.
-/
namespace Sys2Proof.Claims
open Sys2Proof.Machine

/-! ### What the statements share -/

/-- The waiting command of queue `q` is `w`, has opcode `op`, and is dispatched now: R289's conditions hold, and R299
makes the opcode legal in the state of the queue's partition. -/
def Dispatches (s : State) (q op : Nat) (w : Waiting) : Prop :=
  s.mayDispatch q op = some w ∧ legal op (s.partSt (s.queue q).part.toNat) = true

/-- `s` once the waiting command `w` of queue `q` executes. -/
def begun (s : State) (q : Nat) (w : Waiting) : State :=
  s.modQw q (fun x => { x with
    waiting := none, executing := x.executing ++ [{ id := w.id, bytes := w.bytes, since := w.since }] })

/-- The same, its START taken in the present mclk (R304). -/
def started (s : State) (q : Nat) (w : Waiting) : State := (begun s q w).startAt q w.id s.mclk

/-- The partition of a queue. -/
def partOf (s : State) (q : Nat) : Nat := (s.queue q).part.toNat

/-- The transaction at the head of partition `p`'s inbox of virtual channel `vc` is `a`, with `rest` behind it; the module
is neither frozen nor changing its partitions, the partition's NODE_ID is written and its dies are awake (R26, R197,
R426). -/
def Head (s : State) (p vc : Nat) (a : Arrived) (rest : List Arrived) : Prop :=
  s.frozen = false ∧ s.mod.changeBusy = false ∧ (s.part p).nodeHeld = false ∧ s.partAwake p = true ∧
    (s.part p).inbox vc = a :: rest

/-- `s` once that transaction has left the inbox: its receive buffer counts as freed on its port (R341). -/
def taken (s : State) (p vc : Nat) (a : Arrived) (rest : List Arrived) : State :=
  (s.modPart p (fun x => x.setInbox vc rest)).modLink a.port (fun l => { l with
    freed := Tbl.set 0 l.freed (vc * 2 + a.cls) ((Tbl.get 0 l.freed (vc * 2 + a.cls) + 1) % 4096) })

end Sys2Proof.Claims

open Sys2Proof Sys2Proof.Machine Sys2Proof.Claims

/-! ### The block -/

/-- A step takes the command at the front of the queue and is `exec` of it on the state with the queue's rest. Some of
its clauses rest on the model's choices in log 11. -/
def Obligations.StepRunsFrontCommand : Prop :=
  ∀ (c : Instr) (rest : List Instr) (s : State),
    step { s with pending := c :: rest } = exec c { s with pending := rest }

/-- On an empty queue one root-PLL cycle passes (log 3). In a freeze only the root count advances. Outside one,
SCLK_TIME's base and the live time advance by one, and the mclk whose edge falls in the cycle counts for every partition
and port under the idle cause in force (R384); every started run that is not held counts it without progress, but not
in a pause of the clock; nothing else changes. Some of its clauses rest on the model's choices in logs 3 and 97. -/
def Obligations.EmptyQueueTicks : Prop :=
  ∀ s : State, s.pending = [] →
    let k := s.edges 1
    let c := { s.clk with root := s.clk.root + 1, live := s.clk.live + 1 }
    (s.frozen = true → step s = .next { s with clk := { s.clk with root := s.clk.root + 1 } }) ∧
    (s.frozen = false → k = 0 → step s = .next { s with clk := c }) ∧
    (s.frozen = false → k ≠ 0 → s.pwr.paused.isSome = true →
      step s = .next { s with clk := { c with idle := s.idleOn k } }) ∧
    (s.frozen = false → k ≠ 0 → s.pwr.paused = none →
      step s = .next { s with
        clk := { c with idle := s.idleOn k }
        work := { s.work with runs := s.work.runs.map (fun r =>
          if r.start.isSome = true ∧ r.hold = none then
            (if s.mclk < r.movesTo then { r with noProg := k - (r.movesTo - s.mclk) } else { r with noProg := r.noProg + k })
          else r) } })

/-- Every command of the table answers a next state, and none touches the commands that wait behind it. -/
def Obligations.EveryCommandAnswersAndKeepsTheQueue : Prop :=
  ∀ (c : Instr) (s : State), ∃ t, exec c s = .next t ∧ t.pending = s.pending

/-- The memory and the poison marks keep their canonical form at every step, of a command or of an empty queue. -/
def Obligations.StepKeepsMemoryCanonical : Prop :=
  ∀ s t : State, step s = .next t → Memory.wf s = true → Poison.wf s = true →
    Memory.wf t = true ∧ Poison.wf t = true

/-- The reset state has that form. Some of its clauses rest on the model's choices in log 1. -/
def Obligations.ResetMemoryCanonical : Prop :=
  Memory.wf State.reset = true ∧ Poison.wf State.reset = true

/-! ### Synchronisation objects (13) -/

namespace Sys2Proof.Claims

/-- `s` once an operation has sent the swap notices of object `o` (R328). -/
def noticed (s : State) (o : Nat) (yes : Prop) [Decidable yes] : State :=
  if yes then s.modWork (fun w => { w with notices := w.notices ++ (s.boundTiles o).map (fun t => (t, o)) }) else s

/-- The rows that perform an operation of R314, with the object type the operation needs; INIT operations need none. -/
def syncRows (o v : Nat) : List (Instr × BitVec 2) :=
  [(.eventSet o, 3), (.eventClear o, 3), (.semPost o v, 1), (.semTry o, 1), (.counterAdd o v, 0), (.counterSet o v, 0),
   (.barrierArrive o, 2)]

end Sys2Proof.Claims

/-- The operations that send no swap notice, at the object's home: EVENT_CLEAR, SEM_TRY (which takes only from a count
above 0 with no taker registered), COUNTER_SET and the four INIT operations; then the registered waiters are tested. -/
def Obligations.SyncOperationsWithoutNotice : Prop :=
  ∀ (s : State) (o v : Nat), s.frozen = false →
    ((s.obj o).type = 3 → exec (.eventClear o) s = .next ((s.setObj o ⟨3, 0⟩).testWaiters o)) ∧
    ((s.obj o).type = 1 → exec (.semTry o) s = .next ((s.setObj o ⟨1,
      if 0 < (s.obj o).value.toNat ∧ s.takers o = false then BitVec.ofNat 64 ((s.obj o).value.toNat - 1)
      else (s.obj o).value⟩).testWaiters o)) ∧
    ((s.obj o).type = 0 →
      exec (.counterSet o v) s = .next ((s.setObj o ⟨0, BitVec.ofNat 64 v⟩).testWaiters o).collsGo) ∧
    exec (.initCounter o v) s = .next ((s.setObj o ⟨0, BitVec.ofNat 64 v⟩).testWaiters o).collsGo ∧
    exec (.initSemaphore o v) s = .next ((s.setObj o ⟨1, BitVec.ofNat 64 (v % 2 ^ 32)⟩).testWaiters o) ∧
    exec (.initBarrier o v) s = .next ((s.setObj o ⟨2, BitVec.ofNat 64 (v % 2 ^ 16 * 2 ^ 48)⟩).testWaiters o) ∧
    exec (.initEvent o v) s = .next ((s.setObj o ⟨3, BitVec.ofNat 64 (v % 2)⟩).testWaiters o)

/-- The operations that swap bound half pairs (R328): EVENT_SET of a clear event, SEM_POST, COUNTER_ADD of a positive
operand, and a BARRIER_ARRIVE that completes its generation, send a notice to every bound tile. -/
def Obligations.SyncOperationsWithNotice : Prop :=
  ∀ (s : State) (o v : Nat), s.frozen = false →
    ((s.obj o).type = 3 → exec (.eventSet o) s =
      .next ((noticed (s.setObj o ⟨3, 1⟩) o (bit (s.obj o).value.toNat 0 = false)).testWaiters o)) ∧
    ((s.obj o).type = 1 → exec (.semPost o v) s =
      .next ((noticed (s.setObj o ⟨1, BitVec.ofNat 64 (min (bits (s.obj o).value.toNat 0 32 + v % 2 ^ 32) (2 ^ 32 - 1))⟩)
        o True).testWaiters o)) ∧
    ((s.obj o).type = 0 → exec (.counterAdd o v) s =
      .next ((noticed (s.setObj o ⟨0, (s.obj o).value + BitVec.ofNat 64 v⟩) o (0 < signed 64 v)).testWaiters o).collsGo) ∧
    ((s.obj o).type = 2 →
      let gen := bits (s.obj o).value.toNat 0 32
      let arrivals := bits (s.obj o).value.toNat 32 16 + 1
      let expected := bits (s.obj o).value.toNat 48 16
      exec (.barrierArrive o) s = .next ((noticed (s.setObj o ⟨2, BitVec.ofNat 64
        (if arrivals = expected then (gen + 1) % 2 ^ 32 + expected * 2 ^ 48
         else gen + arrivals % 2 ^ 16 * 2 ^ 32 + expected * 2 ^ 48)⟩) o (arrivals = expected)).testWaiters o))

/-- An operation that finds another type at the object has no effect but to count TYPE_MISMATCH on the object's die. -/
def Obligations.TypeMismatchHasNoEffect : Prop :=
  ∀ (s : State) (o v : Nat) (c : Instr) (ty : BitVec 2), (c, ty) ∈ syncRows o v → s.frozen = false →
    (s.obj o).type ≠ ty → s.work.colls = [] →
    exec c s = .next { s with mismatch := Tbl.set 0 s.mismatch (o / 32768) (BitVec.ofNat 32
      (min ((Tbl.get 0 s.mismatch (o / 32768)).toNat + 1) (2 ^ 32 - 1))) }

/-- A swap notice swaps every enabled SYNC_EN pair of its tile that is bound to the object. -/
def Obligations.SwapNoticeSwapsBoundPairs : Prop :=
  ∀ (s : State) (tile o : Nat) (rest : List (Nat × Nat)), s.frozen = false →
    takeFirst (fun x => x.1 == tile) s.work.notices = some ((tile, o), rest) →
    exec (.swapNotice tile) s = .next ((s.modWork (fun w => { w with notices := rest })).modTile tile (fun t => { t with
      pairs := t.pairs.map (fun x => (x.1,
        if x.2.enable ∧ x.2.syncEn ∧ x.2.swapSync.toNat + s.firstDie (s.partOfTile tile) * 32768 = o
        then { x.2 with role := !x.2.role, generation := x.2.generation + 1 } else x.2)) })).collsGo

/-- An EVENT_SET on which several header waits with the clearing condition (WAIT_COND 2) are registered satisfies the
first in registration order, which clears the event; the later ones stay registered. A polling waiter looks again 256
nclk after its last poll: satisfied if its condition holds then (a SEMAPHORE take only while no taker is registered),
else it registers if one of the die's 8,192 slots is free and polls on if not. A
WAIT command whose NOT_BEFORE is reached completes DONE if it waited for the time only. -/
def Obligations.WaitersAndPolls : Prop :=
  (∀ (s : State) (o q : Nat) (w : Waiter) (ws : List Waiter), s.frozen = false → (s.obj o).type = 3 →
    s.work.waiters.filter (fun x => x.registered && x.obj == o) = w :: ws → w.who = .header q →
    (∀ x ∈ w :: ws, x.cond = .code 2) → (∀ x ∈ ws, ∃ k, x.who = .header k) →
    ∃ t, exec (.eventSet o) s = .next t ∧ t.obj o = ⟨3, 0⟩ ∧
      t.work.waiters = s.work.waiters.filter (fun x => x.id != w.id) ∧
      (t.qw q).waiting = (s.qw q).waiting.map (fun c => if c.id = w.id then { c with waitOk := true } else c) ∧
      ∀ k, k ≠ q → t.qw k = s.qw k) ∧
  ((∀ (s : State) (w : Nat) (x : Waiter), s.frozen = false →
    s.work.waiters.find? (fun x => x.id == w && !x.registered) = some x →
    let u := s.advance (3 * (x.polled + 256 - s.nclk))
    let holds := condHolds (u.obj x.obj) x.cond x.gen = true ∧ u.timePast x = true ∧
      ¬(x.cond = .code 3 ∧ u.takers x.obj = true)
    (holds → exec (.waiterPoll w) s = .next ((u.setObj x.obj (condAct (u.obj x.obj) x.cond)).satisfy x)) ∧
    (¬holds → exec (.waiterPoll w) s = .next (u.modWork (fun k => { k with
      waiters := k.waiters.filter (fun y => y.id != x.id) ++
        [{ x with registered := decide (u.slotsUsed (x.obj / 32768) < 8192), polled := u.nclk }] })))) ∧
  (∀ (s : State) (q id : Nat) (e : Exec), s.frozen = false →
    (s.qw q).executing.find? (fun e => e.id == id && cOp e.bytes == 4) = some e → fld e.bytes 20 1 = 0 →
    exec (.notBeforeReached q id) s =
      .next ((s.untilRoot (60 * fld e.bytes 32 8)).finish q id [⟨stDone, 0, 0⟩])))

/-! ### Queues and their records (12) -/

/-- A doorbell write of SQ_TAIL (R284), the queue's control core awake: ignored and counted on an IDLE queue or with a
value not below the ring size; otherwise the tail is recorded and the queue fetches, but a HALTED queue fetches nothing.
The published slots are those from Q_HEAD to SQ_TAIL − 1, modulo the ring size. -/
def Obligations.TailDoorbell : Prop :=
  ∀ (s : State) (q v : Nat), s.allServed = true → s.frozen = false → s.mod.changeBusy = false → s.quiet = s →
    s.coreAwake q = true →
    ((s.queue q).st = 0 ∨ 2 ^ (s.queue q).sqLog.toNat ≤ v →
      exec (.sqTail q v) s = .next (s.modQueue q (fun w => { w with
        ignDoor := BitVec.ofNat 16 (min (w.ignDoor.toNat + 1) (2 ^ 16 - 1)) }))) ∧
    ((s.queue q).st ≠ 0 → v < 2 ^ (s.queue q).sqLog.toNat →
      exec (.sqTail q v) s = .next ((s.modQueue q (fun w => { w with sqTail := BitVec.ofNat 16 v })).pump q)) ∧
    ((s.queue q).st = 3 → v < 2 ^ (s.queue q).sqLog.toNat →
      exec (.sqTail q v) s = .next (s.modQueue q (fun w => { w with sqTail := BitVec.ofNat 16 v }))) ∧
    (∀ w : Queue, w.head.toNat < 2 ^ w.sqLog.toNat → w.sqTail.toNat < 2 ^ w.sqLog.toNat →
      (w.head.toNat + w.avail) % 2 ^ w.sqLog.toNat = w.sqTail.toNat)

/-- Doorbell writes in every state. Each counts against HOST_QUIET_UNTIL; out of reach it has no effect; in a freeze and
in a partition change it is kept; otherwise it wakes the module and the die of the queue's control core, and then the tail
or the head is recorded, or the write is ignored and counted. Completion records are free from the completion tail up to
CQ_HEAD − 1, all of them where the two are equal. Some of its clauses rest on the model's choices in logs 14 and 96. -/
def Obligations.HeadDoorbell : Prop :=
  (∀ (s : State) (q v : Nat) (tail : Bool),
    let c := if tail then Instr.sqTail q v else .cqHead q v
    let kind := if tail then 1 else 2
    let u := s.quiet.wakeCore q
    let w := u.queue q
    let ignored := w.st = 0 ∨ 2 ^ (if tail then w.sqLog else w.cqLog).toNat ≤ v
    let open' := s.allServed = true ∧ s.frozen = false ∧ s.mod.changeBusy = false
    (s.allServed = false → exec c s = .next s.quiet) ∧
    (s.allServed = true → s.frozen = true → exec c s = .next (s.quiet.modDbg (fun d => { d with held := d.held ++ [c] }))) ∧
    (s.allServed = true → s.frozen = false → s.mod.changeBusy = true → exec c s = .next
      (s.quiet.modMod (fun m => { m with changeHeld := m.changeHeld ++ [(kind, q, v)] }))) ∧
    (open' → ignored → exec c s = .next (u.modQueue q (fun w => { w with
      ignDoor := BitVec.ofNat 16 (min (w.ignDoor.toNat + 1) (2 ^ 16 - 1)) }))) ∧
    (open' → ¬ignored → tail = true →
      exec c s = .next ((u.modQueue q (fun w => { w with sqTail := BitVec.ofNat 16 v })).pump q)) ∧
    (open' → ¬ignored → tail = false →
      exec c s = .next (u.modQueue q (fun w => { w with cqHead := BitVec.ofNat 16 v })))) ∧
  (∀ w : Queue, w.cqTail.toNat < 2 ^ w.cqLog.toNat → w.cqHead.toNat < 2 ^ w.cqLog.toNat →
    1 ≤ w.freeRecords ∧ w.freeRecords ≤ 2 ^ w.cqLog.toNat ∧
    (w.cqTail.toNat + w.freeRecords) % 2 ^ w.cqLog.toNat = w.cqHead.toNat)

/-- Q_CTRL of an IDLE queue with ENABLE: its own bits are taken; the enable takes effect where R282's conditions hold
(head, tails and CQ_HEAD 0, phase 1, RUN or STEP, bound to a control core), otherwise it is refused and counted.
Q_CTRL of a queue that is not IDLE, its ring places as they stand. ENABLE 0: the queue becomes IDLE and its binding is
released where no fetched command of it waits, executes or lacks its record, otherwise the disable is refused and
counted. RESUME 1: a HALTED queue returns to RUN, or STEP with STEP_MODE; any other state ignores it. Some of its
clauses rest on the model's choices in log 14. -/
def Obligations.QueueControlWrites : Prop :=
  (∀ (s : State) (v : Nat), s.allServed = true → s.mod.changeBusy = false → bit v 3 = false →
    (s.queue s.sel.queue.toNat).st = 0 →
    let q := s.sel.queue.toNat
    let u := (s.modQueue q (fun w => { w with sqHbm := bit v 4, cqHbm := bit v 5 })).modQueue q (fun w => { w with
      stepMode := bit v 1, stopOnReject := bit v 2 })
    (u.enableOk (u.queue q) = true → exec (.queueEnable v) s = .next
      (((u.modQueue q (fun w => { w with
          enable := true, st := if w.stepMode then 2 else 1, head := 0, sqTail := 0, cqTail := 0, cqHead := 0,
          phase := true })).modQw q (fun _ => { core := some (u.leastCore (u.queue q).part.toNat),
                                                  stopToken := (u.part (u.queue q).part.toNat).quiescing })).pump q)) ∧
    (u.enableOk (u.queue q) = false → exec (.queueEnable v) s = .next (u.modQueue q (fun w => { w with
      refEnables := BitVec.ofNat 16 (min (w.refEnables.toNat + 1) (2 ^ 16 - 1)) })))) ∧
  (∀ (s : State) (v : Nat), s.allServed = true → s.mod.changeBusy = false →
    (s.queue s.sel.queue.toNat).st ≠ 0 → (s.queue s.sel.queue.toNat).sqHbm = bit v 4 →
    (s.queue s.sel.queue.toNat).cqHbm = bit v 5 →
    let q := s.sel.queue.toNat
    let u := s.modQueue q (fun w => { w with stepMode := bit v 1, stopOnReject := bit v 2 })
    (bit v 3 = false → (s.qw q).waiting = none → (s.qw q).executing = [] → (s.qw q).finished = [] →
      (s.qw q).stepHalt = none → exec (.queueDisable v) s = .next
        (((u.modWork (fun w => { w with hostReads := w.hostReads.filter (fun r =>
          match r.use with | .slot k _ => k != q | .dma _ => true) })).modQueue q (fun w => { w with
            enable := false, st := 0 })).modQw q (fun _ => {}))) ∧
    (bit v 3 = false → (s.qw q).waiting.isSome ∨ (s.qw q).executing ≠ [] ∨ (s.qw q).finished ≠ [] →
      exec (.queueDisable v) s = .next (u.modQueue q (fun w => { w with
        refEnables := BitVec.ofNat 16 (min (w.refEnables.toNat + 1) (2 ^ 16 - 1)) }))) ∧
    (bit v 0 = true → (s.queue q).st = 3 → exec (.resume v) s = .next
      ((u.modQueue q (fun w => { w with st := if bit v 1 then 2 else 1 })).pump q)) ∧
    (bit v 0 = true → (s.queue q).st ≠ 3 → exec (.resume v) s = .next u))

/-- The completion record's layout (R303): 32 bytes, each field little-endian in its place. -/
def Obligations.RecordLayout : Prop :=
  ∀ tag code start stop slip digest snap flags count detail : Nat, tag < 2 ^ 16 → code < 2 ^ 16 → start < 2 ^ 48 →
    stop < 2 ^ 48 → slip < 2 ^ 32 → digest < 2 ^ 32 → snap < 2 ^ 16 → flags < 2 ^ 8 → count < 2 ^ 8 →
    detail < 2 ^ 32 →
    let r := recordBytes tag code start stop slip digest snap flags count detail
    r.length = 32 ∧ fld r 0 2 = tag ∧ fld r 2 2 = code ∧ fld r 4 6 = start ∧ fld r 10 6 = stop ∧ fld r 16 4 = slip ∧
    fld r 20 4 = digest ∧ fld r 24 2 = snap ∧ fld r 26 1 = flags ∧ fld r 27 1 = count ∧ fld r 28 4 = detail

/-- Records go out in completion order while two records are free and the queue's core is sound: COMPLETION_RECORD
writes the record of the oldest finished command and, where that ends a step, the queue event record, then the queue
fetches. A record enters the ring at the completion tail, which advances and inverts the phase at the end of the ring;
a record in host memory leaves as a write of its 32 bytes. The event record halts the queue and raises vector q + 1.
Some of its clauses rest on the model's choices in logs 39 and 58. -/
def Obligations.CompletionRecords : Prop :=
  (∀ (s : State) (q c : Nat) (f : Fin) (rest : List Fin), s.frozen = false → (s.qw q).core = some c →
    s.mod.badCores.contains c = false → 2 ≤ (s.queue q).freeRecords → (s.qw q).finished = f :: rest →
    (s.qw q).stepHalt = none →
    let u := s.finRecord q f
    ((u.qw q).stepHalt = none → exec (.completionRecord q) s = .next (u.pump q)) ∧
    (∀ tag, (u.qw q).stepHalt = some tag → 2 ≤ (u.queue q).freeRecords →
      exec (.completionRecord q) s = .next ((u.stepRecord q tag).pump q))) ∧
  (∀ (s : State) (q : Nat) (bytes : Nat → List Byte), (s.queue q).cqHbm = false →
    let w := s.queue q
    let wrap := w.cqTail.toNat + 1 = 2 ^ w.cqLog.toNat
    s.putRecord q bytes =
      ({ s with hostOut := ⟨w.cqBase.toNat * 4096 + w.cqTail.toNat * 32, bytes (b01 w.phase), false⟩ :: s.hostOut } :
        State).modQueue q (fun w => { w with
          cqTail := if wrap then 0 else BitVec.ofNat 16 (w.cqTail.toNat + 1),
          phase := if wrap then !w.phase else w.phase })) ∧
  (∀ (s : State) (q tag : Nat), s.stepRecord q tag =
    ((((s.putRecord q (fun ph => recordBytes tag 0x0602 s.mclk s.mclk 0 0 0xFFFF (ph + 2) 0 0)).modQueue q (fun w => { w with
      st := 3 })).modQw q (fun x => { x with stepHalt := none })).raise (q + 1)))

/-- Time-outs. A split command whose rest has not come by Q_TIMEOUT_0 completes BAD_LENGTH, Q_HEAD moves to SQ_TAIL
and the queue will halt whatever STOP_ON_REJECT holds. A command whose header wait outlasts the time-out it selects
completes WAIT_TIMEOUT with code 0; an executing WAIT completes so with code 1, its waiter gone. A remote SIGNAL
without its response within COLL_TIMEOUT completes PEER_TIMEOUT with the node. Some of its clauses rest on the model's
choices in logs 3 and 20. -/
def Obligations.TimeOuts : Prop :=
  (∀ (s : State) (q since : Nat), s.frozen = false → (s.qw q).partialAt = some since →
    ∃ t f, exec (.partialCommandTimeout q) s = .next t ∧ (t.qw q).finished = (s.qw q).finished ++ [f] ∧
      f.status = ⟨0x0102, 2, 0⟩ ∧ f.halt = true ∧ (t.qw q).partialAt = none ∧
      (t.queue q).head.toNat = ((s.queue q).head.toNat + (s.queue q).avail) % 2 ^ (s.queue q).sqLog.toNat % 2 ^ 16) ∧
  (∀ (s : State) (q : Nat) (c : Waiting), s.frozen = false → (s.qw q).waiting = some c → c.waitOk = false →
    exec (.waitTimeout q 0) s = .next
      (((s.untilLive (c.since + s.waitLimit q c.bytes)).endWaiting q ⟨0x0701, 0, 0⟩).pump q)) ∧
  (∀ (s : State) (q : Nat) (e : Exec), s.frozen = false → e.id ≠ 0 →
    (s.qw q).executing.find? (fun x => x.id == e.id) = some e → cOp e.bytes = 0x04 →
    s.work.runs.find? (fun r => r.owner == e.id) = none →
    s.work.ops.find? (fun o => o.owner == e.id && o.start.isNone) = none →
    exec (.waitTimeout q e.id) s = .next (((s.untilLive (e.since + s.waitLimit q e.bytes)).modWork (fun w => { w with
      waiters := w.waiters.filter (fun x => x.id != e.id) })).finish q e.id [⟨0x0701, 1, 0⟩])) ∧
  (∀ (s : State) (r : Remote) (rest : List Remote), s.frozen = false →
    takeFirst (fun x => x.id == r.id) s.work.remotes = some (r, rest) →
    exec (.remoteSignalTimeout r.id) s = .next
      (((s.untilLive (r.since + s.mod.collTimeout.toNat * 6000)).modWork (fun w => { w with remotes := rest })).finish r.q
        r.id [⟨0x0502, r.node, 0⟩]))

/-! ### Commands of the queues (12, 13) -/

/-- NOP, FENCE, a SIGNAL of a local object and a WAIT for a time that has passed start in the mclk of their dispatch
and complete DONE in it; FENCE stops the fetching of later commands, SIGNAL performs its operation. A WAIT for a later
time executes on; a WAIT on an object waits for its condition and its time. Some of its clauses rest on the model's
choices in log 39. -/
def Obligations.CommandsDoneAtDispatch : Prop :=
  ∀ (s : State) (q : Nat) (w : Waiting),
    (Dispatches s q 0x01 w → exec (.nop q) s = .next (((started s q w).finish q w.id [⟨0, 0, 0⟩]).pump q)) ∧
    (Dispatches s q 0x02 w → exec (.fence q) s = .next (((((begun s q w).modQw q (fun x => { x with
      fence := true })).startAt q w.id s.mclk).finish q w.id [⟨0, 0, 0⟩]).pump q)) ∧
    (Dispatches s q 0x03 w → bit (fld w.bytes 22 2) 15 = false → exec (.signal q) s = .next
      ((((started s q w).syncOp (bits (fld w.bytes 16 4) 0 18 + s.firstDie (partOf s q) * 32768) (fld w.bytes 20 1)
        (fld w.bytes 24 8)).finish q w.id [⟨0, 0, 0⟩]).pump q).collsGo) ∧
    (Dispatches s q 0x04 w → fld w.bytes 20 1 = 0 → fld w.bytes 32 8 ≤ s.sclk →
      exec (.wait q) s = .next (((started s q w).finish q w.id [⟨0, 0, 0⟩]).pump q)) ∧
    (Dispatches s q 0x04 w → fld w.bytes 20 1 = 0 → s.sclk < fld w.bytes 32 8 →
      exec (.wait q) s = .next ((started s q w).pump q)) ∧
    (Dispatches s q 0x04 w → fld w.bytes 20 1 ≠ 0 → exec (.wait q) s = .next
      (((started s q w).beginWait w.id (bits (fld w.bytes 16 4) 0 18 + s.firstDie (partOf s q) * 32768)
        (.command q w.id) (.cond (fld w.bytes 20 1) (fld w.bytes 24 8))).pump q))

/-- FENCE is dispatched only when every earlier command of its queue has completed and has its record, and from its
dispatch the queue fetches nothing: Q_HEAD stays. -/
def Obligations.FenceOrdersTheQueue : Prop :=
  (∀ (s : State) (q : Nat) (w : Waiting), s.mayDispatch q 0x02 = some w →
    (s.qw q).executing = [] ∧ (s.qw q).finished = []) ∧
  (∀ (s : State) (q : Nat), (s.qw q).fence = true → s.mayFetch q = false) ∧
  (∀ (s : State) (q : Nat) (w : Waiting), Dispatches s q 0x02 w →
    ∃ t, exec (.fence q) s = .next t ∧ (t.qw q).fence = true ∧ (t.queue q).head = (s.queue q).head)

/-- HALF_SWAP (R327): with a pair of PAIR_MASK that is not enabled, has SYNC_EN set or belongs to a running FUSED_CHAIN it
completes with STATE_CONFLICT, kind 4, and swaps nothing; otherwise every pair of the mask on the named tile swaps
(R271: ROLE inverts, GENERATION advances), and the command ends in the mclk in which the swaps take effect. -/
def Obligations.HalfSwapCommand : Prop :=
  ∀ (s : State) (q : Nat) (w : Waiting), Dispatches s q 0x33 w →
    let l := bits (fld w.bytes 16 2) 0 11
    let t := s.firstDie (partOf s q) * 144 + l
    let ns := (List.range 16).filter (fun n => bit (fld w.bytes 20 2) n)
    let bad := ∃ n ∈ ns, (s.pair t n).enable = false ∨ (s.pair t n).syncEn = true ∨ s.pairInChain t n = true
    (bad → exec (.halfSwap q) s = .next ((s.endWaiting q ⟨0x0104, 4 + l * 65536, 0⟩).pump q)) ∧
    (¬bad → exec (.halfSwap q) s = .next (((ns.foldl (fun s n => s.modPair t n (fun h => { h with
      role := !h.role, generation := h.generation + 1 })) (started s q w)).finishAt q w.id (s.mclk + 1)
        [⟨0, 0, 0⟩]).pump q))

/-- COPY puts one descriptor on the DMA engines' list and COPY_ND its list of them, after the list's checks;
FUSED_CHAIN, its stage records and the objects they name checked, starts its first iterations. Some of its clauses
rest on the model's choices in log 57. -/
def Obligations.TransfersDispatched : Prop :=
  ∀ (s : State) (q : Nat) (w : Waiting),
    let u := begun s q w
    let p := partOf s q
    (Dispatches s q 0x30 w → exec (.copy q) s = .next ((({ u with uid := s.uid + 1 } : State).modWork (fun k => { k with
      dmas := k.dmas ++ [{ id := s.uid, owner := w.id, q := q, part := p, bytes := copyDesc w.bytes,
                           len := fld w.bytes 32 8 }] })).pump q)) ∧
    (Dispatches s q 0x31 w →
      let ds := u.descList p (cAddr w.bytes 16) (fld w.bytes 24 2)
      (∀ e, u.descsBad q ds = some e → exec (.copyNd q) s = .next ((s.endWaiting q e).pump q)) ∧
      (u.descsBad q ds = none →
        exec (.copyNd q) s = .next ((u.addDmas w.id q p none (ds.map (fun d => (d, 0)))).pump q))) ∧
    (Dispatches s q 0x32 w →
      let n := fld w.bytes 16 1
      let ks := (List.range n).map (fun j => slice w.bytes (32 + 32 * j) 32)
      let z := List.replicate n 0
      u.chainBad q ks = none → u.stagesBad q ks = none →
        exec (.fusedChain q) s = .next ((((started s q w).modWork (fun k => { k with
          fused := k.fused ++ [{ id := w.id, q := q, part := p, stages := ks, started := z, completed := z, handed := z,
                                 swapped := z, doneAt := z }] })).fusedGo w.id).pump q))

/-- LOAD_FROND: with every target slot EMPTY on every tile and the digest in no other slot of them, the targets become
LOADING and the context loaders of the tiles' dies have the load to do. RUN_FROND: with the planes LOADED, a run is
arranged, unless MB_COUNT exceeds MB_MAX. UNLOAD_FROND: the named slots that hold the digest become EMPTY, unless one
of a tile's named slots is LOADING, ACTIVE or DRAINING. Some of its clauses rest on the model's choices in log 52. -/
def Obligations.FrondCommands : Prop :=
  ∀ (s : State) (q : Nat) (w : Waiting),
    let u := begun s q w
    let p := partOf s q
    (Dispatches s q 0x10 w →
      let image := cAddr w.bytes 16
      let planes := ([0, 1, 2, 3].filter (fun i => bit (fld w.bytes 24 1) i)).map (fun i => (i, bits (fld w.bytes 26 2) (2 * i) 2))
      let h := u.rdAt p image 256
      let ts := (((iTiles h).filter (fun t => decide (t / 144 < u.nDies))).map (u.physTile p)).filter u.listed
      u.inWindow q image (fld h 8 4) = true →
      (∀ t ∈ ts, (∀ c ∈ planes.map Prod.snd, ((u.tile t).ctx c).st = 0) ∧
        ∀ c ∈ [0, 1, 2, 3], c ∉ planes.map Prod.snd →
          ((u.tile t).ctx c).st = 0 ∨ ((u.tile t).ctx c).digest.toNat ≠ fld h 4 4) →
      exec (.loadFrond q) s = .next (((planes.foldl (fun x (pl, c) => x.setCtxs ts [c] (fun _ =>
          { st := 1, plane := BitVec.ofNat 2 pl, digest := BitVec.ofNat 32 (fld h 4 4), bytes := [] })) u).modWork (fun k =>
        { k with
          loads := k.loads ++ [{ id := w.id, q := q, part := p, image := image, planes := planes, tiles := ts,
                                 digest := fld h 4 4, waiting := (ts.map (fun t => t / 144)).eraseDups }] })).pump q)) ∧
    (Dispatches s q 0x11 w → ∀ (mbMax : Nat) (ts : List Nat) (ps : List PlaneInfo),
      let d := fld w.bytes 32 4
      let z := u.settle
      Tbl.find (z.part p).fronds d = some (mbMax, ts) → z.runPlanes ts (bits (fld w.bytes 16 1) 0 2) d = .ok ps →
      (mbMax < fld w.bytes 18 2 → exec (.runFrond q) s = .next ((s.endWaiting q ⟨0x0103, 18, 0⟩).pump q)) ∧
      (fld w.bytes 18 2 ≤ mbMax → exec (.runFrond q) s = .next
        ((({ z.modQw q (fun x => x.onExec w.id (fun e => { e with digest := d })) with uid := z.uid + 1 } : State).modWork
          (fun k => { k with
            runs := k.runs ++ [{ id := z.uid, owner := w.id, q := q, part := p, digest := d, tiles := ts, planes := ps,
                                 n := fld w.bytes 18 2, mbBase := fld w.bytes 20 2, step := fld w.bytes 24 8 }] })).pump q))) ∧
    (Dispatches s q 0x12 w →
      let d := fld w.bytes 20 4
      let cs := [0, 1, 2, 3].filter (fun c => bit (fld w.bytes 16 1) c)
      let has (s : State) (t c : Nat) : Bool := ((s.tile t).ctx c).st != 0 && ((s.tile t).ctx c).digest.toNat == d
      let z := u.settle
      let ts := (z.size p).tiles.filter (fun t => cs.any (has z t))
      (∀ t ∈ ts, ∀ c ∈ cs, ((z.tile t).ctx c).st = 0 ∨ ((z.tile t).ctx c).st = 2) →
      let v := (z.modQw q (fun x => x.onExec w.id (fun e => { e with digest := d }))).setCtxs ts cs (fun x =>
        if x.digest.toNat == d then {} else x)
      exec (.unloadFrond q) s = .next (((if (v.size p).tiles.any (fun t => [0, 1, 2, 3].any (has v t)) then v
        else v.modPart p (fun x => { x with fronds := Tbl.del x.fronds d })).atOnce q w.id).pump q))

/-- OP: with its argument block in order and no open grant memory on its counter, an operator is on the list;
otherwise STATE_CONFLICT, kind 5, naming the counter. Some of its clauses rest on the model's choices in log 54. -/
def Obligations.OperatorCommand : Prop :=
  ∀ (s : State) (q : Nat) (w : Waiting), Dispatches s q 0x20 w →
    let u := begun s q w
    let p := partOf s q
    let a := u.rdAt p (cAddr w.bytes 16) 256
    let o := aCounter a + s.firstDie p * 32768
    (∀ e, u.opBad q a = some e → exec (.op q) s = .next ((s.endWaiting q e).pump q)) ∧
    (u.opBad q a = none → (∃ x ∈ s.work.ops, x.obj = o ∧ x.start.isSome = true ∧ x.ended.length < x.tiles.length) →
      exec (.op q) s = .next ((s.endWaiting q ⟨0x0104, 5 + aCounter a % 65536 * 65536, 0⟩).pump q)) ∧
    (u.opBad q a = none → (∀ x ∈ s.work.ops, x.obj = o → x.start.isSome = true → x.tiles.length ≤ x.ended.length) →
      exec (.op q) s = .next ((({ u with uid := s.uid + 1 } : State).modWork (fun k => { k with
        ops := k.ops ++ [{ id := s.uid, owner := w.id, q := q, part := p, arg := a, obj := o, items := itemsOf a,
                           want := 0 }] })).pump q))

/-- The commands on parameter groups, their lists and records admitted: while the pair is PAIRED and another of them
executes they wait; UPDATE_STEP gives every group its class and closes the groups that are not applied; ROOT_REFRESH
marks the groups that are due; GROUP_WRITE writes the masked fields in one record write. Some of its clauses rest on
the model's choices in log 55. -/
def Obligations.GroupCommands : Prop :=
  ∀ (s : State) (q : Nat) (w : Waiting),
    let u := begun s q w
    let p := partOf s q
    let b := w.bytes
    (∀ c ∈ [Instr.updateStep q, .rootRefresh q, .groupWrite q], s.pairWaits q = true → exec c s = .next s) ∧
    (Dispatches s q 0x40 w → s.pairWaits q = false →
      let table := cAddr b 24
      let xs := u.groupList p (cAddr b 32) (fld b 40 4)
      let sr := cAddr b 48
      ∀ (run : Nat) (v : State), u.admitBad q p 0 table (cAddr b 32) xs = none → u.markAt p sr 64 = false →
      scaleBad (u.rdAt p sr 64) = none → ¬(u.mirrorMode p = 2 ∧ (u.part p).pair.bytes < sr + 64) →
      u.planeRun w.id q p (bits (fld b 44 1) 0 2) (fld b 16 8) = .ok (run, v) →
      let gs := xs.map (v.classOf p table (v.anyNonfinite p table xs))
      let k : Update := { id := w.id, q := q, part := p, kind := 0, step := fld b 16 8, table := table, record := sr,
                          inv := fld (u.rdAt p sr 64) 4 4, skip := v.anyNonfinite p table xs, groups := gs, run := run,
                          coverAt := v.counted p }
      exec (.updateStep q) s = .next (((gs.foldl (fun x g =>
        if g.cls = 2 ∨ g.cls = 3 ∨ g.cls = 4 then x.closeGroup k g (idleRecord (x.rdAt p (k.recAt g.index) 256) g) else x)
        (((v.startAt q w.id v.mclk).modWork (fun y => { y with
          updates := y.updates ++ [k] })).traceCmd q w.id (v.ueSources p) 0x01 0)).emptyGroups w.id gs.length).pump q)) ∧
    (Dispatches s q 0x41 w → s.pairWaits q = false →
      let table := cAddr b 16
      let xs := u.groupList p (cAddr b 24) (fld b 32 4)
      ∀ (run : Nat) (v : State), u.admitBad q p 1 table (cAddr b 24) xs = none →
      u.planeRun w.id q p (bits (fld b 36 1) 0 2) 0 = .ok (run, v) →
      let due (x : Nat) : Bool := rootDue (v.rdAt p (table + 256 * x) 256) (bit (fld b 37 1) 0)
      exec (.rootRefresh q) s = .next ((((v.startAt q w.id v.mclk).modWork (fun y => { y with
        updates := y.updates ++ [{ id := w.id, q := q, part := p, kind := 1, table := table,
                                   groups := xs.map (fun x => { index := x, cls := if due x then 6 else 7, written := !due x }),
                                   run := run, coverAt := v.counted p }] })).traceCmd q w.id (v.ueSources p) 0x01 0).pump
          q)) ∧
    (Dispatches s q 0x42 w → s.pairWaits q = false →
      let table := cAddr b 16
      let x := fld b 24 2
      (u.groupBusy p (table + 256 * x) = true →
        exec (.groupWrite q) s = .next ((s.endWaiting q ⟨0x0104, 3 + x % 65536 * 65536, 0⟩).pump q)) ∧
      (u.groupBusy p (table + 256 * x) = false →
        let new := ((List.range 32).map (fun i => if bit (fld b 28 4) i then slice b (32 + 8 * i) 8
          else slice (u.rdAt p (table + 256 * x) 256) (8 * i) 8)).flatten
        let g : GroupWork := { index := x, cls := 8, mask := fld b 28 4 }
        let k : Update := { id := w.id, q := q, part := p, kind := 2, table := table, groups := [g] }
        exec (.groupWrite q) s = .next (((((started s q w).modWork (fun y => { y with
          updates := y.updates ++ [k] })).closeGroup k g new).updateCheck w.id).pump q)))

namespace Sys2Proof.Claims

/-- The rows that dispatch a command of queue `q`, with the opcode of each. -/
def queueRows (q : Nat) : List (Instr × Nat) :=
  [(.nop q, 0x01), (.fence q, 0x02), (.wait q, 0x04), (.loadFrond q, 0x10), (.runFrond q, 0x11), (.unloadFrond q, 0x12),
   (.op q, 0x20), (.copy q, 0x30), (.copyNd q, 0x31), (.fusedChain q, 0x32), (.halfSwap q, 0x33), (.pairConfig q, 0x60),
   (.pairCommit q, 0x61), (.perfSnapshot q, 0x70), (.traceCtl q, 0x71), (.quiesce q, 0x7E)]

/-- The same for the rows after which the collectives look again. -/
def collRows (q : Nat) : List (Instr × Nat) :=
  [(.signal q, 0x03), (.collective q, 0x50), (.reshard q, 0x51), (.kvRing q, 0x52)]

end Sys2Proof.Claims

/-- R299's table: what is legal in each state of the partition; a command that is not completes with STATE_CONFLICT, kind
1, and has no effect. A row whose command may not be dispatched now does nothing. -/
def Obligations.PartitionStateRules : Prop :=
  (∀ op : Nat, legal op 1 = true ∧ legal op 0 = false ∧
    (legal op 3 = true ↔ op ∈ [0x01, 0x02, 0x70, 0x71, 0x03, 0x04, 0x7E, 0x12, 0x30, 0x31, 0x33, 0x42]) ∧
    (legal op 6 = false ↔ op = 0x51 ∨ op = 0x61) ∧ (legal op 5 = true ↔ op ∈ [0x01, 0x02, 0x70, 0x71])) ∧
  (∀ (s : State) (q op : Nat) (w : Waiting) (c : Instr), s.mayDispatch q op = some w →
    legal op (s.partSt (partOf s q)) = false →
    ((c, op) ∈ queueRows q → exec c s = .next ((s.endWaiting q ⟨0x0104, 1, 0⟩).pump q)) ∧
    ((c, op) ∈ collRows q → exec c s = .next ((s.endWaiting q ⟨0x0104, 1, 0⟩).pump q).collsGo) ∧
    ((c, op) ∈ [(Instr.updateStep q, 0x40), (.rootRefresh q, 0x41), (.groupWrite q, 0x42)] → s.pairWaits q = false →
      exec c s = .next ((s.endWaiting q ⟨0x0104, 1, 0⟩).pump q))) ∧
  (∀ (s : State) (q op : Nat) (c : Instr), s.mayDispatch q op = none → (c, op) ∈ queueRows q → exec c s = .next s)

/-- COLLECTIVE, RESHARD and KV_RING, their descriptors checked: a collective of the same job and COLL_ID is a
STATE_CONFLICT; otherwise it joins the partition's list, and the collectives that may start do. A RESHARD must name
the job's next epoch. The collective's own rows. A CLEAR put off by BUSY goes again when its time comes; a member
awaited past COLL_TIMEOUT ends the collective PEER_TIMEOUT, naming its node, and every other member is told; EPOCH is
written for the job that JOB_SEL names unless it is reserved or the job has a collective in progress (KIND 6), or the
partition does not exist (KIND 4). Some of its clauses rest on the model's choices in logs 21 and 42. -/
def Obligations.CollectiveRows : Prop :=
  (∀ (s : State) (q : Nat) (w : Waiting),
    let u := begun s q w
    let p := partOf s q
    let a := cAddr w.bytes 16
    (Dispatches s q 0x50 w → ∀ (b : List Byte) (cache : Option (Nat × Nat)), u.collDesc q a = .ok (b, cache) →
      ((u.collOf p (cdJob b) (cdColl b)).isSome = true →
        exec (.collective q) s = .next ((s.endWaiting q ⟨0x0104, 1, 0⟩).pump q).collsGo) ∧
      (u.collOf p (cdJob b) (cdColl b) = none → ∀ v,
        u.addColl q w.id 0x50 b (nodesAt b 96 (cdCount b)) (cdJob b) (cdColl b) 0 cache = .ok v →
        exec (.collective q) s = .next (v.pump q).collsGo)) ∧
    (Dispatches s q 0x51 w → ∀ (b : List Byte) (cache : Option (Nat × Nat)), u.collDesc q a = .ok (b, cache) →
      cdKind b = 5 →
      (fld w.bytes 24 4 ≠ (u.jobEpoch p (cdJob b) + 1) % 2 ^ 32 →
        exec (.reshard q) s = .next ((s.endWaiting q ⟨0x0103, 24, 0⟩).pump q).collsGo) ∧
      (fld w.bytes 24 4 = (u.jobEpoch p (cdJob b) + 1) % 2 ^ 32 → fld w.bytes 24 4 ≠ 0xFFFFFFFF → ∀ v,
        u.addColl q w.id 0x51 b (nodesAt b 96 (cdCount b)) (cdJob b) (cdColl b) (fld w.bytes 24 4) none = .ok v →
        exec (.reshard q) s = .next (v.pump q).collsGo)) ∧
    (Dispatches s q 0x52 w → ∀ b : List Byte, u.kvDesc q a = .ok b → u.collOf p (fld b 0 4) (fld b 4 4) = none → ∀ v,
      u.addColl q w.id 0x52 b (nodesAt b 64 (fld b 8 2)) (fld b 0 4) (fld b 4 4) 0 none = .ok v →
      exec (.kvRing q) s = .next (v.pump q).collsGo) ∧
    (∀ (op : Nat) (b : List Byte) (ns : List Nat) (job coll epoch : Nat) (cache : Option (Nat × Nat)),
      (u.job p job).isSome = true →
      ∃ c : Coll, u.addColl q w.id op b ns job coll epoch cache = .ok (u.modWork (fun k => { k with
          colls := k.colls ++ [c] })) ∧
        c.id = w.id ∧ c.q = q ∧ c.part = p ∧ c.op = op ∧ c.members = ns ∧ c.job = job ∧ c.collId = coll ∧
        c.rank = ns.findIdx (fun x => x == (u.part p).node.toNat) ∧ c.started = false)) ∧
  ((∀ (s : State) (c : Coll) (m due : Nat) (l : List (Nat × Nat)), s.frozen = false → s.coll c.id = some c →
    takeFirst (fun (r, _) => r == m) c.busy = some ((m, due), l) →
    exec (.clearResend c.id m) s = .next
      ((((((s.untilRoot due).onColl c.id (fun c => { c with busy := l })).sendColl c m (c.clearFor m)).collDown c.id)).collsGo)) ∧
  (∀ (s : State) (c : Coll) (m : Nat), s.frozen = false → s.coll c.id = some c →
    (Tbl.find c.timers m = none → exec (.collTimeout c.id m) s = .next s) ∧
    (∀ since, Tbl.find c.timers m = some since → exec (.collTimeout c.id m) s = .next
      (((s.untilLive (since + s.mod.collTimeout.toNat * 6000)).collFail c ⟨0x0502, c.node m, 0⟩
        (some (0x0502, c.node m))).collsGo))) ∧
  (∀ (s : State) (v : Nat),
    let p := s.log.jobPart.toNat
    let j := s.log.jobSel.toNat
    let busy := ∃ c ∈ s.work.colls, c.part = p ∧ c.job = j
    (s.modServed = false → exec (.jobEpoch v) s = .next s) ∧
    (s.modServed = true →
      (v % 2 ^ 32 = 0xFFFFFFFF ∨ busy → exec (.jobEpoch v) s = .next (s.hostErrOpen 6)) ∧
      (v % 2 ^ 32 ≠ 0xFFFFFFFF → ¬busy → s.nParts ≤ p → exec (.jobEpoch v) s = .next (s.hostErrOpen 4)) ∧
      (v % 2 ^ 32 ≠ 0xFFFFFFFF → ¬busy → p < s.nParts → ∀ t, s.withJob p j = some t →
        exec (.jobEpoch v) s = .next (t.onJob p j (fun x => { x with epoch := v % 2 ^ 32 }))))))

/-- PAIR_CONFIG with MODE 0 ends pairing: UNPAIRED, and a survivor's partition is READY again. With another mode, its
fields in order, the member is FORMING and sends FORM. PAIR_COMMIT outside PAIRED, or for a step below COMMIT_STEP, is
a STATE_CONFLICT, kind 6; for COMMIT_STEP itself it completes DONE at once; for a later step it sends COMMIT. Some of
its clauses rest on the model's choices in logs 25 and 43. -/
def Obligations.PairCommands : Prop :=
  ∀ (s : State) (q : Nat) (w : Waiting),
    let p := partOf s q
    let x := (s.part p).pair
    (Dispatches s q 0x60 w → fld w.bytes 16 1 = 0 →
      let v := (started s q w).modPart p (fun y => { y with
        st := if y.st = 6 then 1 else y.st
        pair := { y.pair with st := 0, mode := 0, landed := [], unacked := [], partnerForm := none, partnerCommit := none } })
      exec (.pairConfig q) s = .next (((((if (s.part p).st == 6 then v.event 1 else v).ackAll p).finish q w.id
        [⟨0, 0, 0⟩]).pump q))) ∧
    (Dispatches s q 0x60 w → fld w.bytes 16 1 ≠ 0 → (begun s q w).pairFieldsBad q w.bytes = none →
      let v := (started s q w).onPair p (fun y => { y with
        before := if y.st = 1 ∨ y.st = 3 then y.before else y.st, st := 1, mode := fld w.bytes 16 1,
        ports := fld w.bytes 20 4, base := cAddr w.bytes 24, bytes := fld w.bytes 32 8,
        partner := (s.port ((maskPorts (fld w.bytes 20 4)).getD 0 0)).peerNode.toNat })
      ∀ t, v.sendPair p 3 (pairData (fld w.bytes 16 1) (fld w.bytes 32 8) x.commitStep.toNat x.epoch.toNat (x.st == 4)) =
        .ok t → exec (.pairConfig q) s = .next ((t.formMatch p).pump q)) ∧
    (Dispatches s q 0x61 w → x.st ≠ 2 ∨ fld w.bytes 16 8 < x.commitStep.toNat →
      exec (.pairCommit q) s = .next ((s.endWaiting q ⟨0x0104, 6, 0⟩).pump q)) ∧
    (Dispatches s q 0x61 w → x.st = 2 → fld w.bytes 16 8 = x.commitStep.toNat →
      exec (.pairCommit q) s = .next (((started s q w).finish q w.id [⟨0, 0, 0⟩]).pump q)) ∧
    (Dispatches s q 0x61 w → x.st = 2 → x.commitStep.toNat < fld w.bytes 16 8 → ∀ t,
      (started s q w).sendPair p 4 (pairData x.mode x.bytes (fld w.bytes 16 8) x.epoch.toNat false) = .ok t →
      exec (.pairCommit q) s = .next (((t.onPair p (fun y => { y with
        unacked := t.outstanding p })).commitCheck p).pump q))

/-- PERF_SNAPSHOT writes the sample of its bank, taken before any reset, to DST and then resets the bank if told to.
TRACE_CTL stop flushes the ring and ends it. QUIESCE in QUIESCED completes at once; otherwise every source of the
partition's work takes a stop token. QUIESCED: with every unit halted, the command completes, the partition's queues
halt, the state is QUIESCED, events 4 and 1 are set. Some of its clauses rest on the model's choices in log 19. -/
def Obligations.SnapshotTraceQuiesce : Prop :=
  (∀ (s : State) (q : Nat) (w : Waiting),
    let p := partOf s q
    let k := fld w.bytes 16 1
    (Dispatches s q 0x70 w →
      let u := (begun s q w).tally k
      let v := (u.startAt q w.id u.mclk).wrAt p (cAddr w.bytes 24)
        ((u.sampleOf k u.mclk).snapshot k 0xFFFF u.mclk (fld w.bytes 4 2) q 2 1203712)
      exec (.perfSnapshot q) s = .next (((if bit (fld w.bytes 17 1) 0 = true then v.resetBank k else v).finish q
        w.id [⟨0, 0, 0⟩]).pump q)) ∧
    (Dispatches s q 0x71 w → fld w.bytes 16 1 = 0 →
      let v := (started s q w).traceFlush p
      (v.part p).trace.running = true →
      exec (.traceCtl q) s = .next ((((v.traceRecord p false).modRing p (fun r => { r with
        running := false })).finish q w.id [⟨0, 0, 0⟩]).pump q)) ∧
    (Dispatches s q 0x71 w → fld w.bytes 16 1 = 1 →
      let v := ((((started s q w).traceFlush p).modRing p (fun _ =>
        { running := true, base := cAddr w.bytes 24, bytes := fld w.bytes 32 8, wrap := fld w.bytes 17 1 == 1 })).wrAt p
          (cAddr w.bytes 24) (List.replicate 4096 0)).traceHeader p
      exec (.traceCtl q) s = .next (((v.traceRecord p true).finish q w.id [⟨0, 0, 0⟩]).pump q)) ∧
    (Dispatches s q 0x7E w → (s.part p).st = 3 →
      exec (.quiesce q) s = .next (((started s q w).finish q w.id [⟨0, 0, 0⟩]).pump q)) ∧
    (Dispatches s q 0x7E w → (s.part p).st ≠ 3 →
      exec (.quiesce q) s = .next (((started s q w).placeTokens p).pump q))) ∧
  (∀ (s : State) (p : Nat), s.frozen = false → (s.part p).quiescing = true → s.halted p = true →
    exec (.quiesced p) s = .next (((((s.queuesOf p).foldl (fun x q => (x.modQueue q (fun w => { w with
      st := 3 })).modQw q (fun y => { y with stopToken := false })) (s.finishOp p 0x7E [⟨0, 0, 0⟩])).modPart p (fun y =>
        { y with st := 3, quiescing := false })).event 4).event 1))

namespace Sys2Proof.Claims

/-- The rows that never store to memory and never change a poison mark: every row but those that write bytes, mark units,
or clear memory with a reset. -/
def storesNothing : Instr → Bool
  | .nop _ | .fence _ | .wait _ | .loadFrond _ | .runFrond _ | .unloadFrond _ | .op _ | .copy _ | .copyNd _
  | .fusedChain _ | .halfSwap _ | .rootRefresh _ | .pairCommit _ | .quiesced _ | .partialCommandTimeout _
  | .queueEnable _ | .queueDisable _ | .resume _ | .sqTail _ _ | .cqHead _ _ | .eventSet _ | .eventClear _ | .semPost _ _
  | .semTry _ | .barrierArrive _ | .initSemaphore _ _ | .initBarrier _ _ | .initEvent _ _ | .waiterPoll _
  | .handoverSwap _ _ | .contextLoad _ | .contextLoadComplete _
  | .timedInputLate _ _ _ _ | .streamBeat _ _ | .creditReturn _ _ _
  | .switchItem _ _ | .mergeItem _ _ | .workCounterTake _ _ _ | .writeRsp _ | .syncRsp _ | .busy _ | .mirrorData _
  | .commit _ | .heartbeatSend _ | .frameTransmit _ | .freeze _ _ _ | .release _ _ _ | .equaliserRequest _ _ _
  | .retrainInterval _ | .haltN _ | .freezeReq _ | .counterReset _ | .sample _ | .partLayout _
  | .partResume _ | .jobEpoch _ | .bar2Window _ | .halfPairWrite _ _ | .tileRetire _ | .retireWithdraw _
  | .autoRetireMark _ | .rollbackCommit _ | .fwMbCtrlGo _ _ _ _ | .cfgCtrlCommit _ | .dbgChallenge _
  | .dbgResponse _ _ | .readClear _ _ | .bar2Read _ _ | .configRequest _ _ _ | .getVersion _ | .getCapabilities _ _
  | .negotiateAlgorithms _ _ _ | .getDigests _ | .getCertificate _ _ _ _ | .setCertificate _ _ _ _ | .challenge _ _ _
  | .getMeasurements _ _ _ _ | .keyExchange _ _ | .perstNHigh | .thermalRecovery | .stageF0 _ _ | .stageF1 _
  | .stageF2 _ | .stageF3 _ | .stageF4 | .stageF5 | .stageLimit | .controlCoreWatchdog _ | .controlCoreMemoryError _
  | .rootCoreMemoryError | .rhizomeBoundaryLost _ | .mclkDividerChange | .powerSample _ _ | .powerPause
  | .powerPauseEnd | .powerStateEvaluate _ | .powerWake _ | .earlyWake _ | .wakeComplete _ | .voltageTrim _ _
  | .sensorComparison _ _ | .calibrationSlot _ _ | .refresh _ _ | .notBeforeReached _ _ | .remoteSignalTimeout _ => true
  | _ => false

end Sys2Proof.Claims

/-! ### Memory -/

/-- The frame of the 105 rows that store nothing: every byte of memory reads as before, every poison mark stands as
before. -/
def Obligations.RowsThatStoreNothing : Prop :=
  ∀ (c : Instr) (s t : State), storesNothing c = true → exec c s = .next t →
    (∀ k, t.rd k = s.rd k) ∧ t.poison = s.poison

/-! ### Context loads, DMA, chains (06, 13) -/

/-- The pair of a chain's stage swaps once its producer has completed iteration i and its consumer iteration i − 1, in
the mclk after the later of the two; then the stages that are ready start. The next descriptor of a command goes to the
engine of its die that holds the fewest, unless it waits for earlier ones (AFTER), its engine sleeps, or 512 are in
flight on its die, where STALL_CREDIT counts; it latches the roles of every tile's pairs, and its rows are copied, asked
of the host, or held by an array in use. Some of its clauses rest on the model's choices in log 57. -/
def Obligations.HandoverAndDma : Prop :=
  (∀ (s : State) (f : Fused) (j n t : Nat), s.frozen = false → s.work.fused.find? (fun x => x.id == f.id) = some f →
    fPair (f.stages.getD j []) = some (n, t) →
    let i := f.handed.getD j 0
    let last := j + 1 = f.stages.length
    (i < f.completed.getD j 0 → last ∨ i ≤ f.completed.getD (j + 1) 0 →
      let m := max (f.doneAt.getD j 0) (if last ∨ i = 0 then 0 else f.doneAt.getD (j + 1) 0) + 1
      exec (.handoverSwap f.id j) s = .next
        ((((s.untilMclk m).modPair (s.firstDie f.part * 144 + t) n (fun h => { h with
          role := !h.role, generation := h.generation + 1 })).modWork (fun k => { k with
            fused := updWhere (fun x => x.id == f.id) (fun x => { x with
              handed := x.handed.set j (i + 1), swapped := x.swapped.set j m }) k.fused })).fusedGo f.id)) ∧
    (f.completed.getD j 0 ≤ i → exec (.handoverSwap f.id j) s = .next s)) ∧
  (∀ (s : State) (id : Nat) (d : Dma), s.frozen = false →
    s.work.dmas.find? (fun x => x.owner == id && !x.started) = some d →
    let die := ((s.qw d.q).core.getD 0) / 4
    let flying := s.work.dmas.filter (fun x => x.started && !x.done && ((s.qw x.q).core.getD 0) / 4 == die)
    let held (k : Nat) := (flying.filter (fun x => x.eng == k)).length
    let mine := s.work.dmas.filter (fun x => x.owner == id && x.stage == d.stage && decide (x.id < d.id))
    let waits := d.after = true ∧ ∃ x ∈ mine, x.done = false
    (waits → exec (.dmaDescriptor id) s = .next s) ∧
    (s.dmaAwake d die = false → exec (.dmaDescriptor id) s = .next s) ∧
    (¬waits → s.dmaAwake d die = true → 512 ≤ flying.length → exec (.dmaDescriptor id) s = .next
      (s.count (s.bankOf d.q) (engDma (16 * die)) 6 1)) ∧
    (¬waits → s.dmaAwake d die = true → flying.length < 512 → d.stage = none →
      ∀ eng : Nat, eng < 16 → (∀ k < 16, held eng ≤ held k) → (∀ k < eng, held eng < held k) →
      let u := if d.after = true then s.untilMclk (mine.foldl (fun m x => max m (x.endAt + 1)) 0) else s
      let latch := s.tiles.filterMap (fun (t, x) => if x.roles = 0 then none else some (t, x.roles))
      let v := u.startAt d.q id u.mclk
      let e := { d with started := true, latch := latch, eng := eng, startedAt := v.mclk, endAt := v.mclk }
      let w := v.modWork (fun k => { k with dmas := updWhere (fun x => x.id == d.id) (fun _ => e) k.dmas })
      (w.dmaHeld e = true → exec (.dmaDescriptor id) s = .next (w.modWork (fun k => { k with
        held := k.held ++ [.dma d.id] }))) ∧
      (w.dmaHeld e = false → e.srcHost = false →
        exec (.dmaDescriptor id) s = .next (((w.moveBytes e).copyRows e e.rolesOf).dmaDone e)) ∧
      (w.dmaHeld e = false → e.srcHost = true →
        let tag := w.work.nextTag
        exec (.dmaDescriptor id) s = .next (w.modWork (fun k => { k with
          nextTag := tag + 1
          hostReads := k.hostReads ++ [⟨tag, fld d.bytes 0 8,
            e.rowLen * dCount d.bytes 0 * dCount d.bytes 1 * dCount d.bytes 2, w.clk.root, .dma d.id⟩]
          dmas := updWhere (fun x => x.id == d.id) (fun x => { x with tag := some tag }) k.dmas })))))

/-- A die's context loader writes its part of the oldest load that waits for it, once it has written what it wrote
before, unless an operator holds one of the load's tiles; it is then busy for the part's time t_d = 1 µs and 6 root
cycles for each 224 bytes. Once every die has written its part, the load's checks decide at the end of the slowest: the
targets become LOADED with the digest known to the partition, or EMPTY with the status found. Some of its clauses rest
on the model's choices in log 52. -/
def Obligations.ContextLoadRows : Prop :=
  (∀ (s : State) (die : Nat) (l : Load), s.frozen = false →
    s.work.loads.find? (fun x => x.waiting.contains die) = some l →
    ((∃ t ∈ l.tiles, (s.tile t).op.isSome = true) → exec (.contextLoad die) s = .next s) ∧
    ((∀ t ∈ l.tiles, (s.tile t).op = none) →
      let u := s.untilRoot (Tbl.get 0 s.work.loaders die)
      let h := u.rdAt l.part l.image 256
      let v := (u.startAt l.q l.id u.mclk).modQw l.q (fun x => x.onExec l.id (fun e => { e with digest := l.digest }))
      let z := (((List.range l.tiles.length).zip l.tiles).filter (fun (_, t) => t / 144 == die)).foldl (fun x (i, t) =>
        l.planes.foldl (fun y (pl, c) =>
          let (o, n) := y.blockAt l.part l.image (iPlanes h) (iTiles h).length pl i
          let bs := y.rdAt l.part (l.image + o) (min n 16384)
          y.modCtx t c (fun z => { z with bytes := bs })) x) v
      let bytes := (l.tiles.filter (fun t => t / 144 == die)).foldl (fun a t =>
        l.planes.foldl (fun a (_, c) => a + ((z.tile t).ctx c).bytes.length) a) 0
      let done := z.clk.root + (6000 + ceilDiv (6 * bytes) 224)
      exec (.contextLoad die) s = .next ((z.modWork (fun k => { k with
        loaders := Tbl.set 0 k.loaders die done })).onLoad l.id (fun x => { x with
          waiting := setDel x.waiting die, written := setIns x.written die, endsAt := max x.endsAt done })))) ∧
  (∀ (s : State) (l : Load), s.frozen = false → s.work.loads.find? (fun x => x.id == l.id) = some l →
    (l.waiting ≠ [] → exec (.contextLoadComplete l.id) s = .next s) ∧
    (l.waiting = [] →
      let v := (s.startAt l.q l.id s.mclk).untilRoot l.endsAt
      let w := v.modWork (fun k => { k with loads := k.loads.filter (fun x => x.id != l.id) })
      let cs := l.planes.map Prod.snd
      (∀ e, v.loadVerdict l = some e →
        exec (.contextLoadComplete l.id) s = .next ((w.setCtxs l.tiles cs (fun _ => {})).finish l.q l.id [e])) ∧
      (v.loadVerdict l = none →
        exec (.contextLoadComplete l.id) s = .next
          ((l.tiles.foldl (fun x t => x.modVec t (fun y => { y with popcnt := 0 }))
            ((w.setCtxs l.tiles cs (fun x => { x with st := 2 })).modPart l.part (fun x => { x with
              fronds := Tbl.put x.fronds l.digest (leNat (w.rdAt l.part (l.image + 18) 2), l.tiles) }))).finish l.q l.id
            [⟨0, 0, 0⟩]))))

/-! ### Frond runs (06, 07) -/

/-- A run starts once no other run holds its tiles, no run holds a cell of a stack that it binds, no divider change is
pending and its tiles are awake, at the next mclk that begins its frame: START is that mclk, its first plane is ACTIVE,
its stream sources hold full credits, CMD_START is recorded at its tiles, its counts in its bank begin, and its sync
ports' first entries issue. Body k of a plane starts FILL + k · II mclk after the plane's beginning; at the armed break
the run is held there instead and the break is hit. Some of its clauses rest on the model's choices in logs 3, 51 and
97. -/
def Obligations.RunAndBodyStart : Prop :=
  (∀ (s : State) (r : Run), s.frozen = false → s.pwr.paused = none → s.run r.id = some r →
    let z := s.settle
    let busy := ∃ t ∈ r.tiles, ∃ c ∈ [0, 1, 2, 3], ((z.tile t).ctx c).st = 3 ∨ ((z.tile t).ctx c).st = 4
    (busy ∨ z.cellsHeld r = true → exec (.runStart r.id) s = .next z) ∧
    (r.start = none → r.stopping = false → ¬busy → z.cellsHeld r = false → z.clk.pendingDiv = none →
      z.clk.origin.isSome = true → (∀ t ∈ r.tiles, z.tileAwake t = true) →
      let u := z.untilRoot (z.nextEdge r.unit)
      let v := (u.startAt r.q r.owner u.mclk).setCtxs r.tiles [r.plane.slot] (fun x => { x with st := 3 })
      let w := v.freshCredits r.tiles
      (∀ k ∈ w.work.updates, k.id ≠ r.owner) →
      exec (.runStart r.id) s = .next (((w.onRun r.id (fun x => { x with
        start := some u.mclk
        coverAt := w.counted r.part
        base := (v.bank (v.bankOf r.q)).totals (tileEngines x.tiles)
        baseAt := 0
        baseBy := w.causeBy r.part })).traceCmd r.q r.owner (r.tiles.map srcTile) 0x01 0).syncPorts r.id))) ∧
  (∀ (s : State) (r : Run), s.frozen = false → s.pwr.paused = none → s.run r.id = some r →
    r.start.isSome = true → r.hold = none → r.issueEnded = false → r.stopping = false → r.bodies < r.n →
    let k := r.bodies
    let u := s.untilMclk (r.start.getD 0 + r.slips + (r.ap + r.plane.fill + k * r.plane.ii))
    let mb := r.mbBase + (if r.plane.desc then r.n - 1 - k else k)
    let brk := u.dbg.brkEnable = true ∧ u.dbg.brkHit = false ∧ u.dbg.brkPlane.toNat = r.plane.plane ∧ u.dbg.brkMb.toNat = mb
    (¬brk → exec (.bodyStart r.id) s = .next (r.tiles.foldl (fun x t =>
      x.traceEv (srcTile t) 0 0x03 1 (mb % 2 ^ 16 + r.plane.plane * 2 ^ 16))
      ((u.onRun r.id (fun x => { x with bodies := k + 1 })).syncPorts r.id))) ∧
    (brk → exec (.bodyStart r.id) s = .next (r.tiles.foldl (fun x t => x.traceEv (srcTile t) 0 0x06 3 1)
      ((u.modDbg (fun d => { d with brkHit := true })).onRun r.id (fun x => { x with
        hold := some { cause := 1, since := u.mclk, live := u.clk.live } })))))

/-- Every tile of a frond switches planes in the same mclk, SPAN_p after the plane's beginning, with STEER_ORPHAN
earned for unissued entries and for what its steering queues still hold, which is discarded: the plane's contexts drain,
the next plane's are ACTIVE, an earlier plane's are LOADED. The end of issue of the last plane leaves its contexts
DRAINING. A run of which no stream holds work part way completes END mclk after its end of issue: STEER_ORPHAN is earned
for what is left in steering and chain queues, these are emptied, and the run leaves, its last mclk of work the one
before. Some of its clauses rest on the model's choices in logs 51 and 81. -/
def Obligations.RunIssueEnds : Prop :=
  (∀ (s : State) (r : Run), s.frozen = false → s.pwr.paused = none → s.run r.id = some r → r.start.isSome = true →
    r.hold = none → r.issueEnded = false → r.stopping = false → r.bodies = r.n →
    let p := r.plane
    let a := r.ap + (p.fill + r.n * p.ii + p.drain)
    let u := (s.untilMclk (r.start.getD 0 + r.slips + a)).syncPorts r.id
    (p.last = false →
      let next := (r.planes.getD (r.cur + 1) p).slot
      let v := u.settle.onEnded r.id (fun x y => x.orphans r.id (x.unissued y))
      let w := ((v.orphans r.id (v.steerLeft r)).emptySteer r.tiles).setCtxs r.tiles (r.planes.map (fun y => y.slot))
        (fun x => if x.st == 4 then { x with st := 2 } else x)
      let z := ((w.setCtxs r.tiles [p.slot] (fun x => { x with st := 4 })).setCtxs r.tiles [next] (fun x =>
        { x with st := 3 })).freshCredits r.tiles
      exec (.planeSwitch r.id) s = .next ((r.tiles.foldl (fun x t =>
        x.traceEv (srcTile t) 0 0x04 1 (p.slot + 4 * next)) (z.onRun r.id (fun x => { x with
          cur := x.cur + 1, bodies := 0, ap := a, unitOps := [], leaving := some (p.slot, z.workEnd r.tiles) }))).syncPorts
            r.id)) ∧
    (p.last = true →
      let v := u.onEnded r.id (fun x y => x.orphans r.id (x.unissued y))
      exec (.issueEnd r.id) s = .next ((v.setCtxs r.tiles [p.slot] (fun x => { x with st := 4 })).onRun r.id
        (fun x => { x with issueEnded := true })))) ∧
  (∀ (s : State) (r : Run), s.frozen = false → s.pwr.paused = none → s.run r.id = some r → r.issueEnded = true →
    r.hold = none →
    (s.opHeld r = true → exec (.runComplete r.id) s = .next s) ∧
    (s.opHeld r = false → r.stopping = false →
      let e := r.start.getD 0 + r.slips + (r.ap + (r.plane.fill + r.n * r.plane.ii + r.plane.drain) + r.plane.endc)
      let u := s.untilMclk e
      let v := (u.orphans r.id (u.leftovers r)).emptyQueues r.tiles false
      ∀ x, v.run r.id = some x → exec (.runComplete r.id) s = .next (v.leaveRun x (e - 1) [])))

/-- Holds. A timed input late at its presentation mclk, for a cause that its source class can have, holds the run from
that mclk on; a hold already there gives way to an earlier cause of the same mclk. A hold ends after the smallest whole
number of frames and of mclk that reaches now: its mclks are slip under its cause, and the stamps of the run's work and
tiles move on by it; the break's hold ends only once CONTINUE has been written. A run whose no-progress counter reaches
the limit ends JOIN_STARVE at its earliest waiting point; one held on an input of class PEER for COLL_TIMEOUT ends
PEER_TIMEOUT, naming the silent node. Some of its clauses rest on the model's choices in logs 48 and 95. -/
def Obligations.RunHolds : Prop :=
  (∀ (s : State) (r : Run) (input cls cause : Nat), s.frozen = false → s.pwr.paused = none → s.run r.id = some r →
    r.start.isSome = true → r.issueEnded = false →
    (lateOk cls cause = true ↔ (cause = 3 ∧ cls = 3) ∨ ((cause = 4 ∨ cause = 5) ∧ cls = 0) ∨
      (cause = 6 ∧ (cls = 1 ∨ cls = 2))) ∧
    (lateOk cls cause = false → exec (.timedInputLate r.id input cls cause) s = .next s) ∧
    (lateOk cls cause = true → r.hold = none → exec (.timedInputLate r.id input cls cause) s = .next
      (r.tiles.foldl (fun x t => x.traceEv (srcTile t) 0 0x06 3 cause) (s.onRun r.id (fun x => { x with
        hold := some { cause := cause, since := s.mclk, cls := cls, input := input, live := s.clk.live } })))) ∧
    (lateOk cls cause = true → ∀ h, r.hold = some h → h.since = s.mclk → cause < h.cause →
      exec (.timedInputLate r.id input cls cause) s = .next
        (s.onRun r.id (fun x => { x with hold := some { h with cause := cause, cls := cls, input := input } })))) ∧
  (∀ (s : State) (r : Run) (h : Hold), s.frozen = false → s.pwr.paused = none → s.run r.id = some r → r.hold = some h →
    (h.cause = 1 → s.dbg.brkHit = true → exec (.holdEnd r.id) s = .next s) ∧
    (h.cause ≠ 1 ∨ s.dbg.brkHit = false →
      let len := wholeHold r.unit s.clk.div (s.mclk - h.since)
      exec (.holdEnd r.id) s = .next ((r.tiles.foldl (fun x t => x.traceEv (srcTile t) 0 0x07 3 (h.cause + len * 8))
        ((((s.untilMclk (h.since + len)).addSlip r h.cause len).onRun r.id (fun x => { x with
          hold := none
          waits := x.waits.map (fun w => { w with since := w.since + len })
          movesTo := shiftBy h.since len x.movesTo 0
          leaving := x.leaving.map (fun (c, m) => (c, shiftBy h.since len m 0)) })).shiftTiles r.tiles h.since
            len)).syncPorts r.id))) ∧
  (∀ (s : State) (r : Run), s.frozen = false → s.pwr.paused = none → s.run r.id = some r → r.start.isSome = true →
    r.hold = none → s.dbg.noProgFrom ≤ s.mclk →
    let u := s.untilMclk (max s.mclk r.movesTo +
      (s.dbg.noProgress.toNat - (if s.mclk < r.movesTo then 0 else r.noProg)))
    exec (.joinStarve r.id) s = .next (u.abandonRun r ⟨0x0302, r.starvePoint u, 0⟩)) ∧
  (∀ (s : State) (r : Run) (h : Hold), s.frozen = false → s.run r.id = some r → r.hold = some h → h.cls = 0 →
    let u := s.untilLive (h.live + s.mod.collTimeout.toNat * 6000)
    exec (.peerInputTimeout r.id) s = .next (u.abandonRun r ⟨0x0502, u.silentPeer r h.input, 0⟩))

/-- A hold's length (R165, R430) is a whole number of frames of `unit` root cycles and of mclk, at least one of each and at
least the time asked for, and no shorter length is. -/
def Obligations.HoldLength : Prop :=
  ∀ unit div len : Nat, 0 < unit → 0 < div →
    let h := wholeHold unit div len
    0 < h ∧ len ≤ h ∧ unit ∣ h * div ∧ ∀ k, 0 < k → len ≤ k → unit ∣ k * div → h ≤ k

namespace Sys2Proof.Claims

/-- Nothing stops the tiles: the module is neither frozen nor in a power pause (R198, R425). -/
def Live (s : State) : Prop := s.frozen = false ∧ s.pwr.paused = none

/-- The reference names the row `r` now: the next one of a pinnule's list in a run, or one given outright for work that
has no list; `ahead`: a drain before its pass in the list has not begun. -/
def NamesRow (s : State) (ref : RowRef) (r : RowIssue) (ahead : Bool) : Prop :=
  match ref with
  | .frond id tile array pn => s.nextRow id tile array pn = some (r, ahead)
  | .direct x => x = r ∧ s.run x.work = none ∧ ahead = false

/-- The work and tile of such a reference, and whether it reads an entry of a run's context. -/
def rowWork : RowRef → Nat × Nat × Bool
  | .frond id tile _ _ => (id, tile, true)
  | .direct x => (x.work, x.tile, false)

/-- The same of a slot-row; `fresh`: an unfinished set of an ended plane stands in the shadow. -/
def NamesSlot (s : State) (ref : SlotRef) (r : SlotRow) (fresh : Bool) : Prop :=
  match ref with
  | .frond id tile array => s.nextSlot id tile array = some (r, fresh)
  | .direct x => x = r ∧ s.run x.work = none ∧ fresh = false

/-- A load of a run notes, after each attempt, whose set stands in the shadow. -/
def slotNoted (u : State) (ref : SlotRef) (cur : Nat) : State :=
  match ref with
  | .frond id tile array => u.modArr tile array (fun x => { x with loadRun := id, loadPlane := cur })
  | .direct _ => u

def slotWork : SlotRef → Nat × Nat × Bool
  | .frond id tile _ => (id, tile, true)
  | .direct x => (x.work, x.tile, false)

end Sys2Proof.Claims

/-! ### Arrays, drains, vector unit (03, 04, 05) -/

/-- One issue attempt of a streaming row of a piece of work that issues, legal for its pinnule and chain (R58, R74, R91),
after what ECC finds in the words it reads is counted and marked (R84, R266); an uncorrectable error in the context ends
the run instead (R154). Without a marker the active set's shape and class must be the row's, or nothing happens. The
feeder holds the row, and counts the mclk, while a marked row's shadow set is not there (cause 2), while mode 2 finds no
CHAIN_IN row or the streams lack beats (cause 1), while the downstream chain queue holds 16 rows (cause 4), and while a
drain before the pass has not begun (cause 3). Otherwise it waits for the pinnule's slot, the drain fence, the row of
another shape ten mclk past (R76) and the chain's notice (R92, R104), and asks for its banks (R265): with them the row
issues, without them it is held (cause 1, or 6 at the bound of outstanding requests). Some of its clauses rest on the
model's choices in logs 50, 63, 74 and 93. -/
def Obligations.StreamingRowAttempt : Prop :=
  ∀ (s : State) (ref : RowRef) (e : EccFound), Live s →
    let id := (rowWork ref).1
    let z := s.eccFound (rowWork ref).2.1 e
    let ends (u : State) : Prop := exec (.streamingRowIssue ⟨ref, e⟩) s = .next (u.syncPorts id)
    ((rowWork ref).2.2 = true → e.ctx = true →
      exec (.streamingRowIssue ⟨ref, e⟩) s = .next (s.contextError id (rowWork ref).2.1)) ∧
    ((rowWork ref).2.2 = false ∨ e.ctx = false →
      ∀ (r : RowIssue) (ahead : Bool) (i : Issuer) (cls : Nat), NamesRow z ref r ahead → z.issuer r.work = some i →
      i.live = true → arrClass r.fmtA = some cls → rowLegal r = true →
      (r.chainOut = true → chainLink r.tile r.array r.chainTo = true) →
      let a := (z.tile r.tile).arr r.array
      let fits := (a.pin r.pn).active.shape = r.shape ∧ (a.pin r.pn).active.cls = cls
      let noSet := r.marker = true ∧ z.markerReady r cls = false
      let chained := (if r.fmtA = 0x0F ∧ r.sub ≠ 0 then 1 else r.mode) = 2
      let noChain := chained ∧ a.chainQ = []
      let lacks := ∃ x ∈ rowStreams r, ((z.tile r.tile).queue x.1 r.array).beats.length < x.2
      let full := r.chainOut = true ∧ 16 ≤ ((z.tile (r.chainTo / 2)).arr (r.chainTo % 2)).chainQ.length
      (¬fits → r.marker = false → ends z) ∧
      (fits ∨ r.marker = true →
        (noSet → ends (z.rowHold r i 2 true)) ∧
        (¬noSet → noChain → ends (z.rowHold r i 1 true)) ∧
        (¬noSet → ¬noChain → lacks → ends (z.rowHold r i 1 (decide (1 < (rowStreams r).length)))) ∧
        (¬noSet → ¬noChain → ¬lacks → full → ends (z.rowHold r i 4 false)) ∧
        (¬noSet → ¬noChain → ¬lacks → ¬full → ahead = true → ends (z.rowHold r i 3 false)) ∧
        (¬noSet → ¬noChain → ¬lacks → ¬full → ahead = false →
          let u := if r.marker = true then z.completeSet r else z
          (r.marker = true → (u.pin r.tile r.array r.pn).shadow.lacks = some 0) →
          let v := u.untilMclk (u.rowSlot r cls)
          let n := v.rowNotBefore r cls
          let w := if v.mclk < n.1 then (v.arrStall i r.tile r.array r.pn n.2 (n.1 - v.mclk)).untilMclk n.1 else v
          let g := w.askBanks r.tile (reqKey r.array r.pn) (rowWords r)
          (g.1 = .granted → ends (g.2.rowGo r i cls)) ∧
          (g.1 = .refused → ends (g.2.rowHold r i 1 false)) ∧
          (g.1 = .bound → ends (g.2.rowHold r i 6 false)))))

/-- One slot-row of a stationary load, after what ECC finds in the words it reads. A complete set not yet swapped holds
the load (cause 6), streams short of the beats the slot-row reaches into hold it (cause 1), and so do banks it is not
granted. Otherwise the slot-row's elements enter the shadow set, which a load's first slot-row begins anew and whose
half-pair roles it latches; poison of any element, scale or beat marks the set; whole beats are consumed and their
credits return; the mclk counts as busy and, with the last slot-row, the operation counts as issued. Some of its clauses
rest on the model's choices in logs 63, 74, 77 and 93. -/
def Obligations.SlotRowEntersShadowSet : Prop :=
  (∀ (s : State) (ref : SlotRef) (e : EccFound), Live s →
    let id := (slotWork ref).1
    let z := s.eccFound (slotWork ref).2.1 e
    ((slotWork ref).2.2 = true → e.ctx = true →
      exec (.slotRowLoad ⟨ref, e⟩) s = .next (s.contextError id (slotWork ref).2.1)) ∧
    ((slotWork ref).2.2 = false ∨ e.ctx = false →
      ∀ (r : SlotRow) (fresh : Bool) (i : Issuer) (cls : Nat), NamesSlot z ref r fresh → z.issuer r.work = some i →
      i.live = true → arrClass r.fmt = some cls → r.pn < shapePins r.shape →
      (r.transpose = true → r.shape ≠ 1 ∧ ((Fmt.ofCode r.fmt).getD .fp32).isBlock = false) →
      let ends (u : State) : Prop :=
        exec (.slotRowLoad ⟨ref, e⟩) s = .next ((slotNoted u ref (((z.run id).map (fun x => x.cur)).getD 0)).syncPorts id)
      let unit := 2 + r.array
      let sh := (z.pin r.tile r.array r.pn).shadow
      let k := shapeK r.shape * shapeN r.shape
      let set0 : StatSet := if sh.need = 0 ∨ fresh = true then
          { shape := r.shape, cls := cls, part := if cls = 3 then r.part else 0, need := k / slotElems cls,
            latch := (z.tile r.tile).roles, cells := if sh.cells.length = k then sh.cells else List.replicate k Val.zero }
        else sh
      let want := slotStreams r cls set0.rows
      let complete := 0 < sh.need ∧ sh.rows = sh.need
      let lacks := ∃ x ∈ want, ((z.tile r.tile).queue x.1 unit).beats.length < x.2
      let g := z.askBanks r.tile (reqKey unit 0) (slotWords r cls set0.rows)
      (complete → ends (z.stall i r.tile unit 6 1)) ∧
      (¬complete → lacks →
        ends ((z.stall i r.tile unit 1 1).waitAt r.work r.tile unit ((want.map Prod.fst).headD 0))) ∧
      (¬complete → ¬lacks →
        (g.1 = .granted → ends (g.2.slotWrite r i cls set0)) ∧
        (g.1 = .refused → ends (g.2.stall i r.tile unit 1 1)) ∧
        (g.1 = .bound → ends (g.2.stall i r.tile unit 6 1))))) ∧
  (∀ (s : State) (r : SlotRow) (i : Issuer) (cls : Nat) (sh : StatSet), (∀ n, r.src ≠ .stream n) →
    (((Fmt.ofCode r.fmt).getD .fp32).isBlock = true → r.scaleStream = false) →
    let x := s.slotValues r cls sh.rows sh.latch 0 (fun _ => false) nullBeat
    let new := { sh with
      rows := sh.rows + 1
      poison := sh.poison || x.2
      cells := x.1.foldl (fun c (y : Nat × Val) => c.set y.1 y.2) sh.cells }
    x.2 = false →
    let v := (s.modPin r.tile r.array r.pn (fun q => { q with shadow := new })).stall i r.tile (2 + r.array) 0 1
    s.slotWrite r i cls sh = (if sh.rows + 1 = sh.need then v.issuedOp r.work r.tile (2 + r.array) else v).moved r.work
      r.tile (2 + r.array))

/-- DRAIN and FILL, after what ECC finds in the words they read: each takes a descriptor of its own kind, in order and
inside the pinnule's rows, once the passes before it in the list have issued their rows of its region. The unit, free of
the one before and of rows in flight, works through its rows in ascending order and is busy for the descriptor's length;
the entry counts as issued. A drain whose destination stream cannot take a row is held at that row, and a later attempt
goes on from there, the mclk in between counted under the stream's cause. Some of its clauses rest on the model's choices
in logs 74, 78 and 79. -/
def Obligations.DrainAndFillRows : Prop :=
  (∀ (s : State) (w : WorkRef) (e : EccFound) (f : Bool), Live s → refEntry w = false ∨ e.ctx = false →
    let z := s.eccFound (refTile w) e
    let c := if f = true then Instr.fill ⟨w, e⟩ else Instr.drain ⟨w, e⟩
    (∀ (o : OpRef) (p : Option OpPlace) (i : Issuer), (z.tile (refTile w)).ma0.drain = none →
      (z.tile (refTile w)).ma1.drain = none → z.resolve w 0 = some (o, p) → z.issuer o.id = some i → i.live = true →
      drainBad o.desc = false →
      let a := dArray o.desc
      let u := z.untilMclk (max ((z.tile o.tile).arr a).drainUntil (z.flightEnd o.tile a o.desc))
      (dFill o.desc ≠ f → exec c s = .next (z.syncPorts (refId w))) ∧
      (drainOver ((z.tile o.tile).arr a).shape o.desc = true ∨ z.drainWaits o p = true →
        exec c s = .next (z.syncPorts (refId w))) ∧
      (dFill o.desc = f → drainOver ((z.tile o.tile).arr a).shape o.desc = false → z.drainWaits o p = false →
        ((z.tile o.tile).arr a).drain = none →
        exec c s = .next (((u.issueEntry o (4 + a)).drainOn { op := o, start := u.mclk, roles := (u.tile o.tile).roles }
          i).syncPorts (refId w)))) ∧
    (∀ (d : DrainRun) (i : Issuer), (z.tile (refTile w)).ma0.drain = some d → refNames w d.op = true →
      dFill d.op.desc = f → z.goesOn d.op.id = some i → exec c s = .next ((z.drainOn d i).syncPorts (refId w)))) ∧
  (∀ (s : State) (d : DrainRun) (i : Issuer),
    let o := d.op
    let b := o.desc
    let a := dArray b
    let y := s.drainRows o i d.roles (dRows b - d.row) d.row
    let late := s.mclk - (d.start + d.row)
    let held := (if late = 0 then y.2 else y.2.stall i o.tile (4 + a) (s.holdCause o.tile (dw b 64 16)) late).stall i
      o.tile (4 + a) 0 (y.1 - d.row)
    let stamps (x : MatArray) (k : Option DrainRun) : MatArray := { x with
      drainFrom := d.start + late, drainUntil := d.start + late + drainLen b, drainBase := dRowBase b,
      drainRows := dRows b, drainCol := dCol b, drainCols := dCols b, drainLag := if dFill b then 4 else 2, drain := k }
    0 < d.row →
    (d.row < dRows b → y.1 = dRows b → s.drainOn d i =
      ((((held.moved o.id o.tile (4 + a)).modArr o.tile a (fun x => stamps x none)).stall i o.tile (4 + a) 0
        (drainLen b - dRows b)).movesTo o.id (d.start + late + drainLen b))) ∧
    (d.row < y.1 → y.1 < dRows b → s.drainOn d i =
      (((held.moved o.id o.tile (4 + a)).modArr o.tile a (fun x =>
        stamps x (some { d with start := d.start + late, row := y.1 }))).movesTo o.id (d.start + late + y.1))) ∧
    (y.1 = d.row → y.1 < dRows b → s.drainOn d i =
      ((held.modArr o.tile a (fun x => stamps x (some { d with start := d.start + late }))).movesTo o.id
        (d.start + late + d.row)))) ∧
  (∀ (s : State) (o : OpRef) (i : Issuer) (roles n row : Nat),
    let full := dDest o.desc = 1 ∧ s.sourceFull o.tile (dw o.desc 64 16) (drainBeats o.desc) = true
    (full → s.drainRows o i roles n row = (row, s)) ∧
    (¬full → s.drainRows o i roles (n + 1) row =
      (if dFill o.desc = true then s.fillOne o roles row else s.drainOne o i roles row).drainRows o i roles n (row + 1)))

/-- INVOCATION, after what ECC finds in the words it reads. A chain that R110 accepts, of work that issues, is invoked
from the mclk after the one before has ended: its LUT stages copy their tables, the entry counts as issued, and the chain
goes on mclk by mclk until its end, or until a LOAD's stream lacks beats or a STORE's stream is full, where the engine
counts the hold and a later attempt goes on. The VECTOR stage of a FUSED_CHAIN that is due on the tile runs its own block
at its iteration's LOGICAL_BASE; the stage is done in the invocation's last mclk. Some of its clauses rest on the model's
choices in logs 53 and 73. -/
def Obligations.InvocationRow : Prop :=
  (∀ (s : State) (w : WorkRef) (e : EccFound) (o : OpRef) (p : Option OpPlace) (i : Issuer), Live s →
    refEntry w = false ∨ e.ctx = false →
    let z := s.eccFound (refTile w) e
    (∀ id t d x k l, w = .direct id t d x k l → z.work.fused.find? (fun f => f.id == id) = none) →
    (z.vec (refTile w)).run = none → z.resolve w 1 = some (o, p) → o.tile = refTile w → z.issuer o.id = some i →
    i.live = true →
    let b := slice o.desc 0 256
    let r := slice o.record 0 16
    chainBadAt b (isUe o.tile) = none → recordBad b r = none →
    let n := vWidth o.tile b
    let u := z.untilMclk (z.vec o.tile).busyUntil
    let v := (u.copyTables o.tile (u.chainEnv o i b r n).cacheKey b).issueEntry o 6
    exec (.invocation ⟨w, e⟩) s = .next ((v.invokeOn { op := o, start := v.mclk, prog := {} } i b
      (v.chainEnv o i b r n)).syncPorts (refId w))) ∧
  (∀ (s : State) (w : WorkRef) (e : EccFound) (g : VRun) (i : Issuer), Live s → refEntry w = false ∨ e.ctx = false →
    let z := s.eccFound (refTile w) e
    (∀ id t d x k l, w = .direct id t d x k l → z.work.fused.find? (fun f => f.id == id) = none) →
    (z.vec (refTile w)).run = some g → refNames w g.op = true → z.goesOn g.op.id = some i →
    let b := slice g.op.desc 0 256
    exec (.invocation ⟨w, e⟩) s = .next ((z.invokeOn g i b (z.chainEnv g.op i b (slice g.op.record 0 16)
      (vWidth g.op.tile b))).syncPorts (refId w))) ∧
  (∀ (s : State) (o : OpRef) (i : Issuer) (b : List Byte) (env : ChainEnv),
    let t := o.tile
    let g : VRun := { op := o, start := s.mclk, prog := {} }
    let y := ChainRun.go s t env b (vDepths b) (vSpan env b) { toVProg := {}, s := s }
    (∀ v, y = (v, none) → (v.flush env b).taint = none →
      let v := v.flush env b
      let last := s.mclk + vLength b env.slots + v.conflicts + v.held
      let z := (v.s.health (s.bankOf i.q) v.health).modVec t (fun x => { x with
        run := none, busyUntil := last, popcnt := if (vCompress b).isSome then BitVec.ofNat 32 v.kept else x.popcnt })
      let z := if v.poisoned then z.poisonOn i.q i.owner (if isUe t then t - 1152 else z.localTile t) else z
      s.invokeOn g i b env = (((z.vecCount i t 0 (vLength b env.slots)).vecCount i t 1 v.conflicts).movesTo o.id last)) ∧
    (∀ v c, y = (v, some c) → 0 < v.mclk → c ≠ 1 ∨ (streamLoads env b).length ≤ 1 →
      let z := (((v.s.vecCount i t 0 (busySoFar env b v.mclk)).vecCount i t 1 v.conflicts).modVec t (fun x => { x with
        run := some { g with prog := v.toVProg, cause := c }
        busyUntil := s.mclk + vLength b env.slots + v.conflicts + v.held }))
      s.invokeOn g i b env =
        (z.moved o.id t 6).movesTo o.id (s.mclk + vSetup b + v.mclk + v.conflicts + v.held))) ∧
  (∀ (s : State) (f : Fused) (tile j step : Nat) (w : Issuer) (d x d0 x0 : List Byte) (l : List (Nat × Nat)), Live s →
    s.work.fused.find? (fun y => y.id == f.id) = some f → s.dueStage f tile = some j →
    s.vectorBlock f.part (f.stages.getD j []) = (d, x) → chainBadAt d false = none → recordBad d x = none →
    let st := f.stages.getD j []
    let v := s.untilMclk (f.goAt j)
    v.issuer f.id = some w → (v.vec tile).run = none →
    let o : OpRef := { id := f.id, tile := tile, desc := d, record := x,
                       logical := fld st 28 4 * (Fused.nth f.started j - 1) % 2 ^ 48, addr := 0, seq := 0, step := step,
                       entry := none }
    let u := v.invoke o w d x
    let last := (u.vec tile).busyUntil - 1
    ((u.vec tile).run = none → exec (.invocation ⟨.direct f.id tile d0 x0 step l, {}⟩) s = .next
      (((u.untilMclk last).stageDone f.id j last).syncPorts f.id)) ∧
    ((u.vec tile).run.isSome = true →
      exec (.invocation ⟨.direct f.id tile d0 x0 step l, {}⟩) s = .next (u.syncPorts f.id)))

/-! ### Streams (07) -/

/-- A beat of a source leaves in the stream's next slot for every destination at once, or waits for the missing credit,
and nothing leaves: its unit counts the mclk. A returned credit lowers what its source has spent at that destination.
SWITCH sends its item to the output that the token names and null beats to the others; a poisoned token sends the item,
marked, to every output. MERGE consumes an item of every input and passes on that of the input named; a poisoned token
passes input 0's, marked; a token past the ways passes null beats. Short of beats or of room the unit waits. Some of its
clauses rest on the model's choices in logs 53 and 84. -/
def Obligations.StreamRows : Prop :=
  (∀ (s : State) (t n : Nat) (r : Run), Live s → s.movable t = some r →
    (∀ b rest k, (s.source t n).buf = b :: rest → s.nextSlotAt t n = some k →
      let ds := s.destsOf t n
      let at' := s.clk.frameOrigin.getD 0 + 3 * k
      let u := (s.modSource t n (fun c => { c with buf := c.buf.drop 1, sent := c.sent + 1 })).untilRoot at'
      let open' := ds ≠ [] ∧ ∀ d ∈ ds, u.roomAt t n d 1 (beatTokens b).length = true
      (¬open' → exec (.streamBeat t n) s = .next ((s.untilRoot at').sourceHeld r t n)) ∧
      (open' → exec (.streamBeat t n) s = .next (ds.foldl (fun x d => x.steerWaits r.id d)
        ((ds.foldl (fun x d => x.land t n d b) (u.modSource t n (fun c => { c with slotAt := k + 1 }))).onRun r.id
          (fun x => { x with noProg := 0 }))))) ∧
    (s.nextSlotAt t n = none → exec (.streamBeat t n) s = .next s) ∧
    (∀ d pre k post, (s.source t n).returning = pre ++ k :: post → k / 8 = d → (∀ x ∈ pre, x / 8 ≠ d) →
      exec (.creditReturn t n d) s = .next
        ((s.modSource t n (fun c => { c with
          returning := pre ++ post, spent := Tbl.set 0 c.spent k (Tbl.get 0 c.spent k - 1) })).onRun r.id
            (fun x => { x with noProg := 0 })))) ∧
  (∀ (s : State) (t u : Nat) (r : Run) (v : Nat) (bad : Bool) (rest : List (Nat × Bool)), Live s → s.movable t = some r →
    (s.steer t u).tokens = (v, bad) :: rest →
    let x := steerEntry (s.tile t).active u
    let y := s.steer t u
    let n := sBeats x
    let ways := List.range (sWays x)
    let marked (bs : List Beat) : List Beat := bs.map (fun b => { b with poison := true })
    (sKind x = 1 →
      let item := if bad then marked (y.data0.take n) else y.data0.take n
      let out (w : Nat) : List Beat := if bad = true ∨ w = v then item else List.replicate n nullBeat
      let room := ∀ w ∈ ways, s.itemRoom t (sWay x w) n (itemTokens (out w)) = true
      (y.data0.length < n → exec (.switchItem t u) s = .next (s.waitAt r.id t (8 + u) (sData x))) ∧
      (n ≤ y.data0.length → ¬room → exec (.switchItem t u) s = .next (s.waitAt r.id t (8 + u) (sData x))) ∧
      (n ≤ y.data0.length → room → exec (.switchItem t u) s = .next
        ((ways.foldl (fun z w => z.sendItem t (sWay x w) (out w)) (s.modSteer t u (fun k => { k with
          tokens := rest, data0 := k.data0.drop n }))).steered r t u))) ∧
    (sKind x = 2 →
      let item := if bad then marked ((y.data 0).take n)
        else if v < sWays x then (y.data v).take n else List.replicate n nullBeat
      let room := s.itemRoom t (sData x) n (itemTokens item) = true
      (∀ w, ways.find? (fun w => decide ((y.data w).length < n)) = some w →
        exec (.mergeItem t u) s = .next (s.waitAt r.id t (8 + u) (sWay x w))) ∧
      ((∀ w ∈ ways, n ≤ (y.data w).length) → ¬room → exec (.mergeItem t u) s = .next (s.waitAt r.id t (8 + u) (sData x))) ∧
      ((∀ w ∈ ways, n ≤ (y.data w).length) → room → exec (.mergeItem t u) s = .next
        (((s.modSteer t u (fun k => ways.foldl (fun k w => k.setData w ((k.data w).drop n)) { k with
          tokens := rest })).sendItem t (sData x) item).steered r t u))))

/-! ### Operators and updates (09, 10) -/

/-- OPERATOR_START of the partition's oldest operator that has not started, its tiles awake: it selects tiles free of
claims, round-robin over the dies and at most as many as it has items and MAX_TILES allows, zeroes its counter, starts,
and each tile takes its first item, in ascending order. WORK_COUNTER_TAKE answers a repeated SEQ with the value kept and
changes nothing else; a new one draws the counter and advances it by one, or, once the operator stops or its object is
no counter, takes the number of items, and its tile has ended. OUTPUT_TILE_COMPLETE: an index already reported, or not
granted to the tile, counts as a duplicate and writes nothing; otherwise, at the output tile's cost, its counts go to the
bank and the output tile is formed and written, and the index is done; either way the operator is checked for its end.
Some of its clauses rest on the model's choices in logs 54 and 90. -/
def Obligations.OperatorRows : Prop :=
  ((∀ (s : State) (o : OpRun), Live s → s.work.ops.find? (fun x => x.id == o.id) = some o →
    s.work.ops.find? (fun x => x.part == o.part && x.start.isNone) = some o → o.stopping = false → s.clk.origin.isSome = true →
    let n := (s.work.ops.filter (fun x => x.holds && x.obj / 32768 == o.obj / 32768)).length
    let open' := ∃ x ∈ s.work.ops, x.holds = true ∧ x.obj = o.obj
    let free := s.freeTiles o.part
    let items := itemsOf o.arg
    let want := min (min free.length items) (if aMax o.arg = 0 then free.length else aMax o.arg)
    let ts := ((roundRobin ((List.range s.nDies).map (fun d => s.firstDie o.part + d)) free.length free).take want).foldl setIns []
    (open' → exec (.operatorStart o.id) s = .next (s.dropOp o ⟨0x0104, 5 + aCounter o.arg % 65536 * 65536, 0⟩)) ∧
    (¬open' → 8 ≤ n ∨ free = [] ∨ (∃ t ∈ ts, s.tileAwake t = false) → exec (.operatorStart o.id) s = .next s) ∧
    (¬open' → n < 8 → free ≠ [] → (∀ t ∈ ts, s.tileAwake t = true) →
      let u := ts.foldl (fun x t => (x.modTile t (fun y => { y with op := some o.id })).loseScratch t) (s.syncOp o.obj 6 0)
      let v := u.onOp o.id (fun x => { x with
        start := some u.mclk
        tiles := ts
        items := items
        want := ts.length
        base := (u.bank (u.bankOf o.q)).totals (tileEngines ts)
        baseBy := u.causeBy o.part
        coverAt := u.counted o.part
        finish := ts.foldl (fun f t => Tbl.put f t u.mclk) [] })
      exec (.operatorStart o.id) s = .next (ts.foldl (fun x t =>
        match x.work.ops.find? (fun y => y.id == o.id) with
        | some y => (x.take1 y (x.localTile t) 0).2
        | none => x) ((if o.stage = none then v.startAt o.q o.owner u.mclk else v).traceCmd o.q o.owner (ts.map srcTile)
          0x01 0)))) ∧
  (∀ (s : State) (o : OpRun) (obj req seq : Nat), Live s →
    s.work.ops.find? (fun x => x.holds && x.obj == obj) = some o → s.physTile o.part req ∈ o.tiles → seq < 65536 →
    (∀ v, Tbl.find o.kept req = some (seq, v) → exec (.workCounterTake obj req seq) s = .next
      ((s.onOp o.id (fun x => { x with kept := Tbl.put x.kept req (seq, v) })).reply { kind := 3, value := v })) ∧
    ((∀ v, Tbl.find o.kept req ≠ some (seq, v)) → o.stopping = false → (s.obj o.obj).type = 0 →
      let v := (s.obj o.obj).value.toNat
      let u := s.syncOp o.obj 5 1
      exec (.workCounterTake obj req seq) s = .next ((u.onOp o.id (fun x =>
        let y := { x with kept := Tbl.put x.kept req (seq, v) }
        if v < x.items then { y with grants := y.grants ++ [(v, req)] }
        else { y with ended := setIns y.ended (u.physTile o.part req) })).reply { kind := 3, value := v })) ∧
    ((∀ v, Tbl.find o.kept req ≠ some (seq, v)) → (o.stopping = true ∨ (s.obj o.obj).type ≠ 0) →
      exec (.workCounterTake obj req seq) s = .next ((s.onOp o.id (fun x =>
        let y := { x with kept := Tbl.put x.kept req (seq, o.items) }
        if o.items < x.items then { y with grants := y.grants ++ [(o.items, req)] }
        else { y with ended := setIns y.ended (s.physTile o.part req) })).reply { kind := 3, value := o.items })))) ∧
  (∀ (s : State) (o : OpRun) (tile index : Nat), Live s → s.work.ops.find? (fun x => x.id == o.id) = some o →
    o.start.isSome = true → tile ∈ o.tiles →
    let again := index ∈ o.done ∨ (index, s.localTile tile) ∉ o.grants
    (again → exec (.outputTileComplete o.id tile index) s = .next
      ((s.modBank (s.bankOf o.q) (fun b => { b with dup := satAdd 48 b.dup 1 })).opCheck o.id)) ∧
    (¬again →
      let stop := Tbl.get 0 o.finish tile + tileCost o.arg index
      let u := s.untilMclk (stop - 1)
      let v := u.tileCounts (u.bankOf o.q) tile o.arg index (if 2 < aOp o.arg then 0 else u.mclk + 1 - stop)
      let w := v.outputTile { part := o.part, q := o.q, owner := o.owner, arg := o.arg,
                              seed := (v.queue o.q).seed.toNat, done := o.done } tile index
      exec (.outputTileComplete o.id tile index) s = .next ((w.onOp o.id (fun x => { x with
        done := setIns x.done index, finish := Tbl.put x.finish tile (w.mclk + 1) })).opCheck o.id)))

/-- Phase A of the current group's block b runs once A has done b blocks and B at least b − 1; phase B of block b once
A has done block b + 1 or the group's last. Each puts the block's elements into its half of the staging area (R230). A
keeps M' for B; B drops it, and with the last block the group is applied. Some of its clauses rest on the model's choices
in logs 55, 86 and 87. -/
def Obligations.UpdatePhases : Prop :=
  ∀ (s : State) (u : Update) (g : GroupWork) (b : Nat), Live s → s.upd u.id = some u → u.current = some g → g.cls = 5 →
    s.planeServes u = true → b < g.blocks → gAddr (s.groupCtx u g).r oRule = 0 →
    let c := s.groupCtx u g
    (g.aDone = b → b ≤ g.bDone + 1 → (u.stopping = true → 0 < b) →
      let v := if b = 0 then s.showGroup u.part (some g.index) else s
      let ks := v.phaseA c b
      let x := ks.foldl (fun (o, l) k => ((o.u1 v c k).1, l ++ (o.u1 v c k).2))
        (({ s := v } : PhaseOut).stage c b ks [gAddr c.r oM] (some (gAddr c.r oMScale)), ([] : List (Nat × Nat)))
      let y := State.takePhase u g (x.1.stamps c b) false
      exec (.momentumPhase u.id b) s = .next (y.1.onGroup u.id g.index (fun _ => { y.2 with
        aDone := b + 1, pend := x.2.foldl (fun t (k, m) => Tbl.put t k m) y.2.pend }))) ∧
    (g.bDone = b → min (b + 2) g.blocks ≤ g.aDone →
      let xs := s.blockElems c b
      let es := s.direction c b xs g.pend
      let o := ({ s := s } : PhaseOut).stage c b (xs.foldl (fun l x => setIns l (x / 32)) [])
        (if gMaster c.r then [gAddr c.r oHi, gAddr c.r oLo] else [gAddr c.r oW]) none
      let y := State.takePhase u g (o.weights c xs es.1 es.2) true
      let h := { y.2 with bDone := b + 1, pend := y.2.pend.filter (fun k => !(xs.contains k.1)) }
      let v := y.1.onGroup u.id g.index (fun _ => h)
      exec (.weightPhase u.id b) s = .next (if h.bDone = h.blocks then
        ((v.applyGroup u h).emptyGroups u.id u.groups.length).updateCheck u.id else v))

namespace Sys2Proof.Claims

/-- The epoch of a collective frame is not older than the job's, and its collective is not one the job has completed. -/
def Current (s : State) (p : Nat) (h : CollHdr) : Prop :=
  s.jobEpoch p h.job ≤ h.epoch ∧ ∀ j, s.job p h.job = some j → h.coll ∉ j.done

/-- The started collective of partition `p` that a header names. -/
def named (s : State) (p : Nat) (h : CollHdr) : Option Coll :=
  s.work.colls.find? (fun c => c.part == p && c.job == h.job && c.collId == h.coll && c.started && c.epoch == h.epoch)

/-- `u` once a frame of transaction `t` has been noted by collective `c`: its identity is known, its sender's timer restarts. -/
def noted (u : State) (t : Txn) (c : Coll) (h : CollHdr) : State :=
  u.onColl c.id (fun c' => { c' with
    seen := h.ident (t.type == 5) (c.op == 0x52) :: c'.seen
    timers := Tbl.put c'.timers (c.members.findIdx (fun x => x == t.src)) u.clk.live })

end Sys2Proof.Claims

/-! ### Gwynlink: transactions (13, 14) -/

/-- WRITE stores every byte, its poison marks with it, where the whole range lies in the remote-write window and in an
enabled tile or HBM, and nothing otherwise; either way WRITE_RSP answers. SYNC_REQ performs its operation once per
sequence and keeps what it answers: a repeat is answered again from there. SYNC_RSP completes the SIGNAL that waits
for it. None of this happens while the module is frozen or changes its partitions, or while the partition's NODE_ID is
unwritten or one of its dies sleeps. Some of its clauses
rest on the model's choices in logs 44 and 58. -/
def Obligations.RemoteTransactions : Prop :=
  ∀ (s : State) (p : Nat) (a : Arrived) (rest : List Arrived),
    let t := a.txn
    (∀ c ∈ [Instr.write p, .writeRsp p, .syncReq p, .syncRsp p], s.frozen = true ∨ s.mod.changeBusy = true ∨
      (s.part p).nodeHeld = true ∨ s.partAwake p = false → exec c s = .next s) ∧
    (Head s p 0 a rest → t.type = 1 →
      let u := taken s p 0 a rest
      let d := bits t.addr 0 52
      let n := t.data.length
      let ok := (u.part p).rxBase.toNat ≤ (u.part p).rxLimit.toNat ∧ (u.part p).rxBase.toNat * 4096 ≤ d ∧
        d + n ≤ ((u.part p).rxLimit.toNat + 1) * 4096 ∧ d < stagingRegion ∧ ∀ i < n, (u.addrKey p (d + i)).isSome = true
      (ok → exec (.write p) s = .next (((List.range (ceilDiv n 32)).foldl (fun x k =>
        x.wrAt p (d + 32 * k) ((t.data.drop (32 * k)).take 32) (bit t.poison k)) u).sendOr p
          { type := 2, dest := t.src, status := 0, tseq := t.tseq })) ∧
      (¬ok → exec (.write p) s = .next (u.sendOr p { type := 2, dest := t.src, status := 1, tseq := t.tseq }))) ∧
    (Head s p 1 a rest → t.type = 2 → exec (.writeRsp p) s = .next (taken s p 1 a rest)) ∧
    (Head s p 0 a rest → t.type = 3 →
      let u := taken s p 0 a rest
      let k := bits t.addr 15 3 * 4096 + t.src
      let id := bits t.addr 0 18
      let op := bits t.addr 18 8
      let v := leNat (t.data.take 8)
      let answer (x : State) (st r : Nat) : State :=
        (x.sendOr p { type := 4, dest := t.src, status := st, tseq := t.tseq, data := leBytes 8 r }).collsGo
      let keep (x : State) (st r : Nat) : State := x.modPart p (fun y => { y with rxSeq := Tbl.put y.rxSeq k (t.tseq, st + 4 * r) })
      let f := u.free
      (∀ x, Tbl.find (u.part p).rxSeq k = some (t.tseq, x) → exec (.syncReq p) s = .next (answer u (x % 4) (x / 4))) ∧
      ((∀ x, Tbl.find (u.part p).rxSeq k ≠ some (t.tseq, x)) →
        (f.2.objOk id = false → exec (.syncReq p) s = .next (answer (keep f.2 1 f.1.toNat) 1 f.1.toNat)) ∧
        (f.2.objOk id = true → (opListed op = false ∨ operandBad op v = true ∨ f.2.typeBad p id (opType op) = true) →
          exec (.syncReq p) s = .next (answer (keep f.2 2 f.1.toNat) 2 f.1.toNat)) ∧
        (f.2.objOk id = true → opListed op = true → operandBad op v = false → f.2.typeBad p id (opType op) = false →
          exec (.syncReq p) s = .next (answer (keep (f.2.syncOp (f.2.physObj p id) op v) 0 f.1.toNat) 0 f.1.toNat)))) ∧
    (Head s p 1 a rest → t.type = 4 →
      let u := taken s p 1 a rest
      ∀ r l, takeFirst (fun r => r.part == p && r.node == t.src && r.tseq == t.tseq) u.work.remotes = some (r, l) →
        exec (.syncRsp p) s = .next ((u.modWork (fun k => { k with remotes := l })).finish r.q r.id
          [if t.status = 0 then ⟨0, 0, 0⟩ else if t.status = 1 then ⟨0x0105, 16, 0⟩ else ⟨0x0103, 20, 0⟩]))

/-- Frames of collectives. One of an older epoch is counted, and answered STALE unless it is an ABORT or STALE; one of
a completed collective is counted as a duplicate; so is a repeat for an executing one. Otherwise it acts: a segment
lands or is stored for its turn, ABORT ends the collective with the status it carries, ARRIVE and the flags exchange
are noted, CLEAR is taken by its collective, or held pending, up to 8,192, past which BUSY answers. STALE completes
EPOCH_STALE, BUSY sends the CLEAR again 10 µs later. Some of its clauses rest on the model's choices in logs 21 and
42. -/
def Obligations.CollectiveFrames : Prop :=
  ∀ (s : State) (p : Nat) (a : Arrived) (rest : List Arrived), Head s p 2 a rest →
    let t := a.txn
    let h := decodeColl t.data
    let u := taken s p 2 a rest
    let row := fun (c : Instr) => (c = .collSeg p ∧ t.type = 5) ∨ (t.type = 6 ∧
      ((c = .clear p ∧ h.op = 1) ∨ (c = .abort p ∧ h.op = 2) ∨ (c = .arrive p ∧ h.op = 5) ∨ (c = .flags p ∧ h.op = 6)))
    (∀ c, row c → h.epoch < u.jobEpoch p h.job →
      exec c s = .next (if c = .abort p then u.countStale h.epoch
        else (u.countStale h.epoch).answerColl p t h 3 (u.jobEpoch p h.job))) ∧
    (∀ c, row c → u.jobEpoch p h.job ≤ h.epoch → (∃ j, u.job p h.job = some j ∧ h.coll ∈ j.done) →
      exec c s = .next (u.modMod (fun m => { m with collDup := BitVec.ofNat 32 (satAdd 32 m.collDup.toNat 1) }))) ∧
    (∀ c k, row c → Current u p h → named u p h = some k → h.ident (t.type == 5) (k.op == 0x52) ∈ k.seen →
      exec c s = .next (u.modMod (fun m => { m with collDup := BitVec.ofNat 32 (satAdd 32 m.collDup.toNat 1) }))) ∧
    (∀ k d, Current u p h → named u p h = some k → h.ident (t.type == 5) (k.op == 0x52) ∉ k.seen →
      let v := noted u t k h
      v.coll k.id = some d →
      (t.type = 5 → d.op ≠ 0x52 → d.kind = 5 → h.seq + h.scales * 2 ^ 32 + h.contrib ≤ cdDstScale d.desc →
        let o := h.seq + h.scales * 2 ^ 32
        exec (.collSeg p) s = .next (((((List.range (ceilDiv h.contrib 32)).foldl (fun x n =>
          x.wrAt d.part (cdDst d.desc + o + 32 * n) ((t.data.drop (32 + 32 * n)).take (min 32 (h.contrib - 32 * n)))
            (bit t.poison (n + 1))) v).onColl d.id (fun c => { c with
              bytesIn := c.bytesIn + h.contrib, flags := c.flags ||| h.flags % 4 })).collGo d.id).collsGo)) ∧
      (t.type = 5 → d.op = 0x52 → h.rank = d.pred → h.contrib = d.swaps + 1 → h.seq < kvTiles d.desc * kvSegs d.desc →
        exec (.collSeg p) s = .next (((v.kvLand d h.seq (t.data.drop 32) t.poison).onColl d.id (fun c => { c with
          bytesIn := c.bytesIn + 1 })).collsGo)) ∧
      (t.type = 5 → d.op ≠ 0x52 → d.kind ≠ 5 → ∀ i n, segOf (v.planFor d d.rank) h.rank h.seq = some (i, n) →
        exec (.collSeg p) s = .next (((v.onColl d.id (fun c => { c with
          raw := c.raw ++ [(i, n, segUnits t h 3)] })).collGo d.id).collsGo)) ∧
      (t.type = 6 → h.op = 1 → exec (.clear p) s = .next (((v.takeClear d.id h).rendezvous d.id).collsGo)) ∧
      (t.type = 6 → h.op = 2 → exec (.abort p) s = .next ((v.collFail d (abortStatus h.arg t.src) none).collsGo)) ∧
      (t.type = 6 → h.op = 5 → exec (.arrive p) s = .next (((v.onColl d.id (fun c => { c with
        arrived := setIns c.arrived h.rank })).collGo d.id).collsGo)) ∧
      (t.type = 6 → h.op = 6 → exec (.flags p) s = .next (((v.onColl d.id (fun c => { c with
        flagsIn := Tbl.put c.flagsIn h.seq h.flags })).collGo d.id).collsGo))) ∧
    (t.type = 6 → h.op = 1 → Current u p h → named u p h = none →
      ((u.part p).clears.length < 8192 → exec (.clear p) s = .next (u.modPart p (fun x => { x with
        clears := x.clears ++ [t] }))) ∧
      (8192 ≤ (u.part p).clears.length → exec (.clear p) s = .next (u.answerColl p t h 4 h.epoch))) ∧
    (t.type = 6 → h.op = 0 ∨ 6 < h.op → exec (.clear p) s = .next u) ∧
    (∀ k, t.type = 6 → Current u p h →
      u.work.colls.find? (fun c => c.part == p && c.job == h.job && c.collId == h.coll && c.started) = some k →
      (h.op = 3 → exec (.stale p) s = .next ((u.collFail k ⟨0x0403, k.epoch, 1⟩ none).collsGo)) ∧
      (h.op = 4 →
        let r := k.members.findIdx (fun x => x == t.src)
        exec (.busy p) s = .next (u.onColl k.id (fun c => { c with
          busy := c.busy ++ [(r, u.clk.root + usRoot 10)], timers := Tbl.put c.timers r u.clk.live }))))

/-- Mirror transactions and heartbeats. From the partner of a PAIRED member, data wait for the end of their group or
record, which applies them; COMMIT is kept and compared. FORM is kept until the member's own PAIR_CONFIG. A heartbeat
on a port of the mask restarts the time-out and, unless frozen, one that shows FAULTED or the end of pairing starts
failover, as do HEARTBEAT_TIMEOUT and PAIR_FAIL_N low. Some of its clauses rest on the model's choices in logs 24, 25,
26 and 43. -/
def Obligations.PairFrames : Prop :=
  (∀ (s : State) (p : Nat) (a : Arrived) (rest : List Arrived), Head s p 3 a rest →
    let t := a.txn
    let kind := bits t.addr 52 4
    let u := taken s p 3 a rest
    let mine := (u.part p).pair.st = 2 ∧ t.src = (u.part p).pair.partner
    (t.type = 7 → mine →
      (kind = 0 → exec (.mirrorData p) s = .next (u.onPair p (fun y => { y with
        landed := y.landed ++ [(t.tseq, bits t.addr 0 52, t.data, t.poison)] }))) ∧
      (kind = 1 → exec (.groupEnd p) s = .next (u.applyLanded p t 1)) ∧
      (kind = 2 → exec (.scaleRecordEnd p) s = .next (u.applyLanded p t 2)) ∧
      (kind = 4 → exec (.commit p) s = .next ((u.onPair p (fun y => { y with
        partnerCommit := some (fld t.data 16 8) })).commitCheck p))) ∧
    (t.type = 7 → ¬mine →
      (kind = 0 → exec (.mirrorData p) s = .next u) ∧ (kind = 1 → exec (.groupEnd p) s = .next u) ∧
      (kind = 2 → exec (.scaleRecordEnd p) s = .next u) ∧ (kind = 4 → exec (.commit p) s = .next u)) ∧
    (t.type = 7 → 5 < kind → exec (.mirrorData p) s = .next u) ∧
    (t.type = 8 → (t.src = (u.part p).pair.partner → exec (.mirrorAck p) s = .next (u.mirrorAck p t)) ∧
      (t.src ≠ (u.part p).pair.partner → exec (.mirrorAck p) s = .next u)) ∧
    (t.type = 7 → kind = 3 → ((u.part p).pair.st = 1 → t.src = (u.part p).pair.partner) →
      exec (.form p) s = .next ((u.onPair p (fun y => { y with
        partnerForm := some (fld t.data 0 8, fld t.data 8 8, fld t.data 16 8, fld t.data 24 8) })).formMatch p)) ∧
    (t.type = 7 → kind = 5 → exec (.resyncBytes p) s = .next (u.resyncBytes p t))) ∧
  (∀ (s : State) (port node epoch : Nat) (frozen faulted ended : Bool),
    let p := s.partOfPort port
    let x := (s.part p).pair
    let u := s.onPair p (fun y => { y with lastHb := s.clk.live })
    (bit x.ports port = false ∨ node ≠ x.partner → exec (.pairHeartbeat port node epoch frozen faulted ended) s = .next s) ∧
    (bit x.ports port = true → node = x.partner →
      (u.frozen = true → exec (.pairHeartbeat port node epoch frozen faulted ended) s = .next u) ∧
      (u.frozen = false → exec (.pairHeartbeat port node epoch frozen faulted ended) s = .next
        (if faulted then u.failover p 2 else if ended then u.failover p 3 else u)))) ∧
  (∀ (s : State) (p : Nat),
    let x := (s.part p).pair
    let v := s.untilRoot (x.sentHb + 1200000)
    (x.ports ≠ 0 → exec (.heartbeatSend p) s = .next ((v.heartbeat p).onPair p (fun y => { y with
      sentHb := v.clk.root }))) ∧
    (s.frozen = false → x.st = 2 → exec (.heartbeatTimeout p) s = .next
      ((s.untilLive (x.lastHb + x.hbTimeout.toNat * 6000)).failover p 1)) ∧
    (s.frozen = false → x.st ≠ 2 → exec (.heartbeatTimeout p) s = .next s)) ∧
  (∀ (s : State) (low : Bool),
    let u := s.modPins (fun x => { x with pairFailN := !low })
    exec (.pairFailN low) s = .next (if low = true ∧ u.frozen = false then
      (List.range u.nParts).foldl (fun x p => x.failover p 4) u else u))

/-! ### Gwynlink: links, ports, lanes (14) -/

/-- A data slot. A port that is not UP or DEGRADED takes nothing, and a codeword with more symbol errors than the FEC
corrects is no frame. A frame whose CRC fails, whose KIND is reserved, or whose sequence is not the next earns one NAK;
every frame with a good CRC acknowledges; the next frame in sequence is taken and routed on. A control slot with a good
CRC updates the freed-buffer counts, ends the port's repetition of a FREEZE or RELEASE that it says was heard, and
acknowledges. ACK_TIMEOUT replays what is unacknowledged. Sending, the lanes' slots pass up to the next that is no
control slot, each control slot with the port's own state and each alignment codeword with its lane's; of a partition
whose NODE_ID is unwritten only those go. In the data slot a replay goes before everything; then, unless something holds
new frames back, the weighted round-robin's frame with the next sequence, and otherwise an idle frame. Some of its
clauses rest on the model's choices in logs 27, 44 and 94. -/
def Obligations.LinkSlots : Prop :=
  (∀ (s : State) (i errs : Nat) (bytes : List Byte),
    let nak (x : State) : State := x.modLink i (fun l => { l with nakDue := l.nakDue || !l.nakSent, nakSent := true })
    ((s.port i).up = false ∨ 15 < errs → exec (.dataFrame i ⟨bytes, errs⟩) s = .next s) ∧
    ((s.port i).up = true → errs ≤ 15 → frameCrcOk bytes = false → exec (.dataFrame i ⟨bytes, errs⟩) s = .next (nak s)) ∧
    ((s.port i).up = true → errs ≤ 15 → frameCrcOk bytes = true → ∀ (kind ack : Nat) (n : Bool) (f : Frame),
      decodeFrame bytes = (kind, ack, n, f) →
      let u := s.acked i ack n
      (1 < kind → exec (.dataFrame i ⟨bytes, errs⟩) s = .next (nak s)) ∧
      (kind = 1 → exec (.dataFrame i ⟨bytes, errs⟩) s = .next u) ∧
      (kind = 0 → f.seq ≠ (u.link i).rxNext.toNat → exec (.dataFrame i ⟨bytes, errs⟩) s = .next (nak u)) ∧
      (kind = 0 → f.seq = (u.link i).rxNext.toNat →
        exec (.dataFrame i ⟨bytes, errs⟩) s = .next ((u.modLink i (fun l => { l with
          rxNext := l.rxNext + 1, nakSent := false, nakDue := false, rxq := l.rxq ++ [f] })).drainRx i)))) ∧
  (∀ (s : State) (i : Nat) (b : SlotBody),
    let u := s.modLink i (fun l => { l with
      peerFreed := (List.range 8).foldl (fun t k => Tbl.set 0 t k (b.freed.getD k 0 % 4096)) l.peerFreed })
    let v := if b.heard then u.modLink i (fun l => { l with ctl := l.ctl.filter (fun c => c.1 != 0 && c.1 != 1) }) else u
    (b.crcOk = false → exec (.controlSlot i b) s = .next s) ∧
    (b.crcOk = true → (v.port i).up = true → exec (.controlSlot i b) s = .next (v.acked i b.ack b.nak)) ∧
    (b.crcOk = true → (v.port i).up = false → exec (.controlSlot i b) s = .next v)) ∧
  (∀ (s : State) (i : Nat), (s.port i).up = true → (s.link i).unacked ≠ [] → exec (.ackTimeout i) s = .next
    ((s.untilRoot ((s.link i).timer + (s.port i).ackTimeout.toNat * 6000)).beginReplay i)) ∧
  (∀ (s : State) (i n : Nat),
    (s.nextLane i = none → s.passSlots i (n + 1) = s) ∧
    (∀ j, s.nextLane i = some j →
      let l := 8 * i + j
      let k := (s.lane l).slot
      let u := if alignBefore k then s.reply { kind := 7, value := l, bytes := s.alignBody i j } else s
      let v := (u.modLane l (fun x => { x with slot := k + 1 })).modLink i (fun x => { x with
        lane := j, slots := x.slots + 1 })
      s.passSlots i (n + 1) = if k % 21 = 21 * j / 8 % 21
        then (v.reply { kind := 6, value := l, bytes := v.controlBody i }).passSlots i n else v)) ∧
  (∀ (z : State) (i : Nat),
    let s := z.passSlots i 16
    let l := s.link i
    let p := s.partOfPort i
    let idle : Frame := { seq := 0, vc := 0, cls := 0, hops := 0, txn := { type := 0 } }
    let stopped := s.frozen = true ∨ l.held = true ∨ (s.part p).quiescing = true
    let wait (c : Nat) : State := s.count (s.ambient p) (engPort i) c (s.slotMclk i)
    ((s.port i).up = false ∨ (s.part p).nodeHeld = true → exec (.frameTransmit i) z = .next s) ∧
    ((s.port i).up = true → (s.part p).nodeHeld = false →
      (∀ f fs, l.replay = f :: fs → exec (.frameTransmit i) z = .next
        (((wait 9).emit i f 0).modLink i (fun l => { l with replay := fs }))) ∧
      (l.replay = [] → stopped → exec (.frameTransmit i) z = .next (s.emit i idle 1)) ∧
      (l.replay = [] → ¬stopped → l.choose (s.port i).weights = none → exec (.frameTransmit i) z = .next
        ((if l.txq = [] then s else wait (if 512 ≤ l.unacked.length ∨ s.clk.root < l.widthUntil then 9 else 6)).emit i idle
          1)) ∧
      (l.replay = [] → ¬stopped → ∀ f turn left, l.choose (s.port i).weights = some (f, turn, left) →
        let sent := { f with seq := l.txSeq.toNat, inBuf := none }
        let u := match f.inBuf with | some (j, k) => s.freeBuf j k | none => s
        let z' := u.modLink i (fun l => { l with
          txq := l.txq.erase f, txSeq := l.txSeq + 1
          sent := Tbl.set 0 l.sent f.buf ((Tbl.get 0 l.sent f.buf + 1) % 4096)
          timer := if l.unacked.isEmpty then u.clk.root else l.timer, unacked := l.unacked ++ [sent]
          turn := turn, left := left })
        exec (.frameTransmit i) z = .next ((z'.count (z'.ambient p) (engPort i) 0 (s.slotMclk i)).emit i sent 0))))

/-- Lanes and ports. A lane leaves service, both directions, and a port that is UP takes the width of the lanes left:
told by the peer (WIDTH_CHANGE, alignment), for its error rate, uncorrectable codewords or margin, for lost lock, or
by LANE_RETIRE; the peer's lane numbers count backwards where the lanes are wired in reverse, as an alignment codeword
met in training shows. A window's errors are counted, with its highest margin. An equaliser request moves one coefficient
by one, on a lane in service at most once a microsecond. Training ends with the lanes that trained in service, the
inverted ones corrected, MISWIRED where the peer is not the neighbour that DIR implies. A DOWN port trains again after
RETRAIN_INTERVAL; ENABLE starts training, and clearing it stops the port. Some of its clauses rest on the model's
choices in logs 27, 44 and 94. -/
def Obligations.PortsAndLanes : Prop :=
  (∀ (s : State) (port lane codeword : Nat), exec (.widthChange port lane codeword) s = .next
    (s.retireLane (8 * port + (if (s.link port).reversed then 7 - lane else lane)) false)) ∧
  (∀ (s : State) (lane tap : Nat) (up : Bool),
    let last := Tbl.get 0 (s.lane lane).eqAt tap
    ((s.lane lane).st = 0 → 0 < last → s.clk.root + 1 < last + 6000 →
      exec (.equaliserRequest lane tap up) s = .next s) ∧
    ((s.lane lane).st ≠ 0 ∨ last = 0 ∨ last + 6000 ≤ s.clk.root + 1 →
      (tap < 5 → exec (.equaliserRequest lane tap up) s = .next (s.modLane lane (fun x => { x with
        ffe := x.ffe.set tap (x.ffe.getD tap 0 + (if up then 1 else -1))
        eqAt := Tbl.set 0 x.eqAt tap (s.clk.root + 1) }))) ∧
      (tap = 5 → exec (.equaliserRequest lane tap up) s = .next (s.modLane lane (fun x => { x with
        ctle := x.ctle + (if up then 1 else -1), eqAt := Tbl.set 0 x.eqAt tap (s.clk.root + 1) }))) ∧
      (6 ≤ tap → tap < 22 → exec (.equaliserRequest lane tap up) s = .next (s.modLane lane (fun x => { x with
        rxFfe := x.rxFfe.set (tap - 6) (x.rxFfe.getD (tap - 6) 0 + (if up then 1 else -1))
        eqAt := Tbl.set 0 x.eqAt tap (s.clk.root + 1) }))) ∧
      (22 ≤ tap → exec (.equaliserRequest lane tap up) s = .next (s.modLane lane (fun x => { x with
        dfe := x.dfe + (if up then 1 else -1), eqAt := Tbl.set 0 x.eqAt tap (s.clk.root + 1) }))))) ∧
  (∀ (s : State) (lane index node peer dir mask : Nat),
    let i := lane / 8
    let y := s.port i
    let same := y.peerNode.toNat = node ∧ y.peerPort.toNat = peer ∧ y.peerDir.toNat = dir
    let u := s.modPort i (fun x => { x with
      peerNode := BitVec.ofNat 12 node, peerPort := BitVec.ofNat 5 peer, peerDir := BitVec.ofNat 3 dir, peerValid := true })
    let own (x : State) (j : Nat) : Nat := 8 * i + (if (x.link i).reversed then 7 - j else j)
    let c := Instr.alignmentCodeword ⟨lane, index⟩ node peer dir mask
    (y.st = 5 → exec c s = .next (if same then u else u.toTraining i)) ∧
    (y.st = 1 → exec c s = .next (u.modLink i (fun l => { l with reversed := index == 7 - lane % 8 }))) ∧
    (y.st ≠ 5 → y.st ≠ 1 → y.up = false → exec c s = .next u) ∧
    (y.up = true → exec c s = .next (if u.miswired i then u.portDown i 5 (u.laneMask i)
      else (List.range 8).foldl (fun x j =>
        if (x.lane (own x j)).st = 0 ∧ bit mask j = false then x.retireLane (own x j) false else x) u))) ∧
  (∀ (s : State) (i mask inverted : Nat),
    ((s.port i).st ≠ 1 → exec (.portTraining i ⟨mask, inverted⟩) s = .next s) ∧
    ((s.port i).st = 1 →
      let u := (List.range 8).foldl (fun x j => x.modLane (8 * i + j) (fun y =>
        if y.st = 2 ∧ bit mask j then { y with st := 0, inverted := bit inverted j, slot := 0 } else y)) s
      exec (.portTraining i ⟨mask, inverted⟩) s = .next (if u.miswired i then u.portTo i 5 (u.laneMask i)
        else u.setWidth i (u.laneMask i)))) ∧
  (∀ (s : State) (i : Nat), (s.port i).st = 4 → (s.port i).autoRetrain = true → exec (.retrainInterval i) s = .next
    ((s.untilRoot ((s.port i).since + 1000 * (s.port i).retrainInterval.toNat * 6000)).toTraining i)) ∧
  (∀ (s : State) (lane errors symbols uncorr margin : Nat),
    let x := s.lane lane
    let u := s.modLane lane (fun x => { x with
      corr := BitVec.ofNat 48 (satAdd 48 x.corr.toNat errors), uncorr := BitVec.ofNat 16 (satAdd 16 x.uncorr.toNat uncorr)
      margin := BitVec.ofNat 8 (min 255 margin) })
    let bad := symbols < errors * 2 ^ x.serLimit.toNat ∨ x.uncorrLimit.toNat < uncorr ∨ margin < x.marginLimit.toNat
    (x.st = 0 → bad → exec (.laneErrorWindow lane errors symbols uncorr margin) s = .next (u.retireLane lane true)) ∧
    (x.st ≠ 0 ∨ ¬bad → exec (.laneErrorWindow lane errors symbols uncorr margin) s = .next u)) ∧
  (∀ (s : State) (lane : Nat), ((s.lane lane).st = 0 → exec (.lockLoss lane) s = .next (s.retireLane lane true)) ∧
    ((s.lane lane).st ≠ 0 → exec (.lockLoss lane) s = .next s)) ∧
  (∀ (s : State) (v : Nat), s.laneServed = true →
    let l := s.sel.lane.toNat
    let i := s.sel.port.toNat
    (l < 144 → bit v 0 = true → exec (.laneRetire v) s = .next (s.retireLane l true)) ∧
    (l < 144 → bit v 0 = false → exec (.laneRetire v) s = .next s) ∧
    (144 ≤ l → exec (.laneRetire v) s = .next (s.hostErrOpen 3)) ∧
    (i < 18 → bit v 0 = true → (s.port i).enable = false → exec (.portEnable v) s = .next
      ((s.modPort i (fun x => { x with enable := true })).toTraining i)) ∧
    (i < 18 → bit v 0 = false → (s.port i).enable = true → exec (.portEnable v) s = .next
      ((s.modPort i (fun x => { x with enable := false })).portDown i 0 0)) ∧
    (i < 18 → bit v 0 = (s.port i).enable → exec (.portEnable v) s = .next
      (s.modPort i (fun x => { x with enable := bit v 0 }))) ∧
    (18 ≤ i → exec (.portEnable v) s = .next (s.hostErrOpen 3))) ∧
  (∀ (s : State) (v : Nat), s.laneServed = false → exec (.laneRetire v) s = .next s ∧ exec (.portEnable v) s = .next s)

/-! ### Freeze, break, counters, trace (07, 19) -/

namespace Sys2Proof.Claims

/-- A first own source: the FREEZE, with the next sequence number, is marked as seen and goes out on the fan-out ports. -/
def frozenOut (u : State) : State :=
  let v := u.modDbg (fun d => { d with seq := d.seq + 1 })
  let w := v.modDbg (fun d => { d with seen := (maskPorts d.fanout.toNat).foldl (fun l i => setIns l (v.ownKey i)) d.seen })
  w.fanOut 0 w.ownKey

/-- `u` after a change of the freeze's sources: a source is present while HALT_N is low, FREEZE_REQ is set, or a peer's
FREEZE stands (R195). -/
def settled (u : State) : State :=
  if u.pins.haltN = false ∨ u.dbg.freezeReq = true ∨ u.dbg.peers ≠ [] then
    if u.frozen = true ∨ u.mod.done = false then u.modDbg (fun d => { d with releasedAt := none })
    else
      (u.modDbg (fun d => { d with
        frozenAt := some u.clk.root, releasedAt := none, stampN := BitVec.ofNat 48 u.nclk
        stampM := BitVec.ofNat 48 u.mclk })).traceAll 0x0C u.nclk
  else if u.frozen = true then u.modDbg (fun d => { d with releasedAt := some u.clk.root })
  else u

end Sys2Proof.Claims

/-- The freeze. HALT_N and DEBUG.DBG_CTRL are the module's own sources: a change that makes the first of them present
sends FREEZE, with the next sequence number, on the fan-out ports; one that withdraws the last sends RELEASE; another
sends nothing. A FREEZE not seen before is a source and goes on; its RELEASE withdraws it and goes on; a FREEZE seen
before, and a RELEASE of no source, are only heard. After a change, with a source present the module freezes, its two
times stamped and every trace source told, or stays frozen with no release noted; with none, the release is noted. Every
unit resumes after a whole number of frames and mclk, at least one, that reaches from the stop to the release: the
stamps of work in progress move on by it, and what was held while frozen acts. Some of its clauses rest on the model's
choices in log 28. -/
def Obligations.FreezeRows : Prop :=
  -- HALT_N
  (∀ (s : State) (low : Bool),
    let own := s.pins.haltN = false ∨ s.dbg.freezeReq = true
    let own' := low = true ∨ s.dbg.freezeReq = true
    let u := s.modPins (fun p => { p with haltN := !low })
    (¬own → own' → exec (.haltN low) s = .next (settled (frozenOut u))) ∧
    (own → ¬own' → exec (.haltN low) s = .next (settled (u.fanOut 1 u.ownKey))) ∧
    ((own ↔ own') → exec (.haltN low) s = .next (settled u))) ∧
  -- DBG_CTRL.FREEZE_REQ
  (∀ (s : State) (v : Nat),
    let w := s.modDbg (fun d => { d with fanout := BitVec.ofNat 18 (bits v 8 18) })
    let u := w.modDbg (fun d => { d with freezeReq := bit v 0 })
    let own := s.pins.haltN = false ∨ s.dbg.freezeReq = true
    let own' := s.pins.haltN = false ∨ bit v 0 = true
    (s.allServed = false → exec (.freezeReq v) s = .next s) ∧
    (s.allServed = true → ¬own → own' → exec (.freezeReq v) s = .next (settled (frozenOut u))) ∧
    (s.allServed = true → own → ¬own' → exec (.freezeReq v) s = .next (settled (u.fanOut 1 u.ownKey))) ∧
    (s.allServed = true → (own ↔ own') → exec (.freezeReq v) s = .next (settled u))) ∧
  -- FREEZE and RELEASE of a peer
  (∀ (s : State) (port node seq : Nat),
    let k := node * 65536 + seq % 65536
    let u := s.modLink port (fun l => { l with heard := true })
    (k ∈ s.dbg.seen → exec (.freeze port node seq) s = .next u) ∧
    (k ∉ s.dbg.seen → exec (.freeze port node seq) s = .next (settled ((u.modDbg (fun d => { d with
      seen := setIns d.seen k, peers := setIns d.peers k })).fanOut 0 (fun _ => k)))) ∧
    (k ∉ s.dbg.peers → exec (.release port node seq) s = .next u) ∧
    (k ∈ s.dbg.peers → exec (.release port node seq) s = .next (settled ((u.modDbg (fun d => { d with
      peers := setDel d.peers k })).fanOut 1 (fun _ => k))))) ∧
  -- the resume
  (∀ s : State, s.dbg.frozenAt = none ∨ s.dbg.releasedAt = none → exec .freezeResume s = .next s) ∧
  (∀ (s : State) (stop release : Nat), s.dbg.frozenAt = some stop → s.dbg.releasedAt = some release →
    let n := freezeLength s.clk.div stop release
    let h := n / s.clk.div
    let u := ((s.untilRoot (stop + n)).modDbg (fun d => { d with
      frozenAt := none, releasedAt := none, held := [] })).shiftUnits s.dbg.stampM.toNat h 1
    let v := (u.modPwr (fun p => { p with
      paused := p.paused.map (· + n), pausedMclk := p.pausedMclk + h })).modWork (fun w => { w with
        waiters := w.waiters.map (fun x => { x with polled := x.polled + n / 3 })
        loads := w.loads.map (fun l => if l.endsAt = 0 then l else { l with endsAt := l.endsAt + n })
        loaders := Tbl.mapV 0 (fun t => if stop < t then t + n else t) w.loaders })
    let x := s.dbg.held.foldl State.actHeld (v.traceAll 0x0D v.nclk)
    let y := if x.pins.pairFailN then x else (List.range x.nParts).foldl (fun y p => y.failover p 4) x
    exec .freezeResume s = .next ((List.range 18).foldl State.drainRx y).pumpAll) ∧
  (∀ div stop release : Nat, 0 < div → let h := freezeLength div stop release
    0 < h ∧ frameRoot ∣ h ∧ div ∣ h ∧ release ≤ stop + h)

/-- The break, banks and sampling. BREAK takes its fields; CONTINUE with the break hit disarms it and ends its hold,
unless the module is frozen or paused, where that waits. CNT_CTRL resets the selected bank; SAMPLE.GO copies 128 bytes
of one engine's record, or the snapshot's header part, with the bank's epoch. A trace source that records drains one
block. Some of its clauses rest on the model's choices in logs 36 and 97. -/
def Obligations.BreakAndCounters : Prop :=
  (∀ (s : State) (v : Nat), s.allServed = true →
    let u := s.modDbg (fun d => { d with
      brkEnable := bit v 0, brkPlane := BitVec.ofNat 2 (bits v 3 2), brkMb := BitVec.ofNat 16 (bits v 8 16) })
    let w := u.modDbg (fun d => { d with brkHit := false, brkEnable := false })
    (bit v 2 = false ∨ s.dbg.brkHit = false → exec (.continueBreak v) s = .next u) ∧
    (bit v 2 = true → s.dbg.brkHit = true → (w.frozen = true ∨ w.pwr.paused.isSome = true) →
      exec (.continueBreak v) s = .next w) ∧
    (bit v 2 = true → s.dbg.brkHit = true → w.frozen = false → w.pwr.paused = none → ∀ r h, r.hold = some h →
      w.work.runs.find? (fun r => match r.hold with | some h => h.cause == 1 | none => false) = some r →
      exec (.continueBreak v) s = .next (w.endHold r h)) ∧
    (bit v 2 = true → s.dbg.brkHit = true → (∀ r ∈ w.work.runs, ∀ h, r.hold = some h → h.cause ≠ 1) →
      exec (.continueBreak v) s = .next w)) ∧
  (∀ (s : State) (v : Nat), s.allServed = true →
    (bit v 0 = true → exec (.counterReset v) s = .next (s.resetBank s.sel.cnt.toNat)) ∧
    (bit v 0 = false → exec (.counterReset v) s = .next s) ∧
    (bit v 0 = true →
      let u := s.tally s.sel.cnt.toNat
      let b := u.sampleOne u.sel.cnt.toNat s.sel.eng.toNat u.mclk
      let bs := b.sampled s.sel.eng.toNat
      exec (.sample v) s = .next { u with sel := { u.sel with
        sampleDone := true, sampleEpoch := b.epoch,
        sampleData := (List.range 16).map (fun i => BitVec.ofNat 64 (fld bs (8 * i) 8)) } }) ∧
    (bit v 0 = false → exec (.sample v) s = .next s)) ∧
  (∀ (s : State) (v : Nat), s.allServed = false → ∀ c ∈ [Instr.continueBreak v, .counterReset v, .sample v],
    exec c s = .next s) ∧
  (∀ (s : State) (src : Nat),
    let on := (s.part (s.partOfSrc src)).trace.running
    (s.frozen = true ∨ on = false → exec (.traceBlockWrite src) s = .next s) ∧
    (s.frozen = false → on = true → exec (.traceBlockWrite src) s = .next (s.traceDrain src)))

/-! ### Partitions and tiles (01, 11, 12, 17) -/

/-- PART_LAYOUT is accepted only in the state R24 asks for and with 1, 2, 4 or 8 partitions and at most 64 GiB kept
local, and refused with CAUSE bit 7 otherwise; PARTITION_CHANGE puts it into effect. RESUME takes QUIESCED partitions
to READY, or the survivor of a pair to PAIR_FAILOVER. An enable of a half pair takes effect whole, with role and
generation 0, or is refused; a retirement mark is set, or withdrawn, and sets itself when the uncorrectable
errors of the last hour in its tile store, or in its accumulators, pass their limit. Some of its clauses rest on the model's choices in logs 34 and 35. -/
def Obligations.PartitionRows : Prop :=
  (∀ (s : State) (v : Nat), s.modServed = true →
    let n := bits v 0 4
    let z := bits v 4 7
    let ok := s.mayChange = true ∧ n ∈ [1, 2, 4, 8] ∧ z ≤ 64
    (ok → exec (.partLayout v) s = .next (s.modMod (fun m => { m with
      changeBusy := true, changeRefused := false, changeTo := some (n, z) }))) ∧
    (¬ok → exec (.partLayout v) s = .next ((s.modMod (fun m => { m with changeRefused := true })).event 7)) ∧
    exec (.bar2Window v) s = .next (s.modMod (fun m => { m with bar2 := BitVec.ofNat 16 v })) ∧
    exec (.partResume v) s = .next (((List.range s.nParts).filter (fun p => bit (bits v 0 8) p)).foldl (fun x p =>
      if (x.part p).st = 3 then
        (x.modPart p (fun y => { y with st := if y.pair.st = 4 then 6 else 1 })).event 1 else x) s)) ∧
  (∀ (s : State) (v : Nat), s.modServed = false → ∀ c ∈ [Instr.partLayout v, .bar2Window v, .partResume v],
    exec c s = .next s) ∧
  (∀ (s : State) (n v : Nat), s.laneServed = false →
    ∀ c ∈ [Instr.halfPairWrite n v, .tileRetire v, .retireWithdraw v], exec c s = .next s) ∧
  (∀ (s : State), s.frozen = false → (s.mod.changeTo = none → exec .partitionChange s = .next s) ∧
    (∀ n z, s.mod.changeTo = some (n, z) → exec .partitionChange s = .next (s.changeNow n z))) ∧
  (∀ (s : State) (n v : Nat), s.laneServed = true →
    let t := s.sel.tile.toNat
    let there := t < 1152 ∧ s.listed t = true
    let size := bits v 2 4
    let base := bits v 8 11
    let fits := size ≤ 9 ∧ base % (2 ^ (size + 1)) = 0 ∧ base * 4096 + 2 * 4096 * 2 ^ size ≤ 0x600000
    (¬there → ∀ c ∈ [Instr.halfPairWrite n v, .tileRetire v, .retireWithdraw v], exec c s = .next (s.hostErrOpen 3)) ∧
    (there → bit v 0 = true → fits → (s.tile t).pairClash n size base = false →
      exec (.halfPairWrite n v) s = .next (s.modPair t n (fun h => { h with
        enable := true, size := BitVec.ofNat 4 size, base4k := BitVec.ofNat 11 base, syncEn := bit v 19
        swapSync := BitVec.ofNat 18 (bits v 20 18), role := false, generation := 0 }))) ∧
    (there → bit v 0 = true → ¬fits ∨ (s.tile t).pairClash n size base = true →
      exec (.halfPairWrite n v) s = .next (s.modTile t (fun x => { x with
        pairRefused := true, refusedPair := BitVec.ofNat 4 n }))) ∧
    (there → bit v 0 = false → fits → exec (.halfPairWrite n v) s = .next (s.modPair t n (fun h => { h with
        enable := false, size := BitVec.ofNat 4 size, base4k := BitVec.ofNat 11 base, syncEn := bit v 19
        swapSync := BitVec.ofNat 18 (bits v 20 18) }))) ∧
    (there → bit v 0 = false → ¬fits → exec (.halfPairWrite n v) s = .next ((s.modPair t n (fun h => { h with
        enable := false, size := (s.pair t n).size, base4k := (s.pair t n).base4k, syncEn := bit v 19
        swapSync := BitVec.ofNat 18 (bits v 20 18) })).hostErrOpen 4)) ∧
    (there → exec (.tileRetire v) s = .next (if bit v 0 then s.markRetire t else s)) ∧
    (there → exec (.retireWithdraw v) s = .next (if bit v 0 then
      { s with flash := { s.flash with marks := setDel s.flash.marks t } } else s))) ∧
  (∀ (s : State) (t : Nat), exec (.autoRetireMark t) s = .next
    (let recent (l : List Nat) : Nat := (l.filter (fun x => decide (s.sclk < x + 360000000000))).length
     if (s.tile t).retireLimit.toNat < recent (s.tile t).ueTimes ∨ (s.tile t).retireLimit.toNat < recent (s.tile t).accUeTimes
      then s.markRetire t else s))

/-! ### Security (17, 20) -/

/-- COMMIT raises the anti-rollback level to the running version, never past 64, never down, and logs measurement 4.
FW_MB GO takes one block, in ascending order from 0, into the slot that is not active; with the last the image must
verify, and the slot is preferred; a block out of order or a failed signature empties the slot. A flash record is
taken only whole. A debug challenge is a fresh nonce with the serial number and the level asked for, none after 8
failures; a response that verifies against the last one unlocks that level once measurement 4 has changed, any other
clears the challenge and counts. Some of its clauses rest on the model's choices in logs 32, 33 and 60. -/
def Obligations.SecurityRows : Prop :=
  (∀ (s : State) (v : Nat),
    let l := min 64 s.sec.runningSvn.toNat
    (s.secServed = true → bit v 8 = true → s.fuse.rollback.toNat < s.sec.runningSvn.toNat →
      exec (.rollbackCommit v) s = .next (({ s with fuse := { s.fuse with rollback := BitVec.ofNat 7 l } } : State).measureState
        s.sec.unlocked)) ∧
    (s.secServed = false ∨ bit v 8 = false ∨ s.sec.runningSvn.toNat ≤ s.fuse.rollback.toNat →
      exec (.rollbackCommit v) s = .next s)) ∧
  (∀ (s : State) (v svn version : Nat) (verifies : Bool),
    let u := s.modSec (fun x => { x with mbBlock := BitVec.ofNat 24 (bits v 0 24), mbLast := bit v 24 })
    let n := bits v 0 24
    let slot := !u.sec.active
    let image := (if n = 0 then [] else if slot then u.flash.image1 else u.flash.image0) ++ slice u.sec.mailbox 0 4096
    let done (x : State) (st next : Nat) : State := x.modSec (fun y => { y with mbStatus := BitVec.ofNat 2 st, mbNext := next })
    let go := s.mailServed = true ∧ bit v 25 = true ∧ u.sec.mbStatus ≠ 1
    let bad := n ≠ u.sec.mbNext ∨ (bit v 24 = true ∧ verifies = false)
    (s.mailServed = false → exec (.fwMbCtrlGo v verifies svn version) s = .next s) ∧
    (s.mailServed = true → ¬(bit v 25 = true ∧ u.sec.mbStatus ≠ 1) → exec (.fwMbCtrlGo v verifies svn version) s = .next u) ∧
    (go → bad → exec (.fwMbCtrlGo v verifies svn version) s = .next (done (u.onSlot slot false true []) 3 0)) ∧
    (go → ¬bad → bit v 24 = false → exec (.fwMbCtrlGo v verifies svn version) s = .next
      (done (u.onSlot slot false false image) 2 (n + 1))) ∧
    (go → ¬bad → bit v 24 = true → exec (.fwMbCtrlGo v verifies svn version) s = .next
      (let x := u.onSlot slot true false image
       done { x with flash := { (if slot then { x.flash with svn1 := svn, version1 := version }
         else { x.flash with svn0 := svn, version0 := version }) with preferred := slot } } 2 0))) ∧
  (∀ (s : State) (v : Nat),
    let b := slice s.sec.cfgRecord 0 256
    (s.allServed = true → bit v 0 = true → recordOk b = true → exec (.cfgCtrlCommit v) s = .next
      { s.modSec (fun x => { x with cfgStatus := 2, cfgShown := b }) with flash := { s.flash with cfg := b } }) ∧
    (s.allServed = true → bit v 0 = true → recordOk b = false → exec (.cfgCtrlCommit v) s = .next
      (s.modSec (fun x => { x with cfgStatus := 3 }))) ∧
    (s.allServed = false ∨ bit v 0 = false → exec (.cfgCtrlCommit v) s = .next s)) ∧
  (∀ (s : State) (size : Nat),
    let n := s.freeBytes 48
    let c := n.1 ++ leBytes 8 Config.serial.toNat ++ leBytes 1 s.sec.dbgReq.toNat
    (s.secServed = false → exec (.dbgChallenge size) s = .next (s.reply { kind := 1, value := 0 })) ∧
    (s.secServed = true → s.sec.failures.toNat < 8 → exec (.dbgChallenge size) s = .next
      ((n.2.modSec (fun x => { x with challenge := some c })).reply { kind := 1, value := leNat (slice c 0 size) })) ∧
    (s.secServed = true → 8 ≤ s.sec.failures.toNat → exec (.dbgChallenge size) s = .next
      ((s.modSec (fun x => { x with challenge := none })).reply { kind := 1, value := leNat (slice [] 0 size) }))) ∧
  (∀ (s : State) (v : Nat), s.secServed = true →
    let u := s.modSec (fun x => { x with response := setBytes x.response 96 88 (leBytes 8 v) })
    let fail := u.modSec (fun x => { x with challenge := none, failures := BitVec.ofNat 4 (min 8 (x.failures.toNat + 1)) })
    (∀ c, s.sec.challenge = some c → exec (.dbgResponse v true) s = .next
      ((u.measureState (BitVec.ofNat 2 (fld c 56 1))).modSec (fun x => { x with unlocked := BitVec.ofNat 2 (fld c 56 1) }))) ∧
    exec (.dbgResponse v false) s = .next fail ∧
    (s.sec.challenge = none → exec (.dbgResponse v true) s = .next fail))

/-- SPDM. Before the end of F1 nothing answers; a request whose connection has not settled what it needs answers
UnexpectedRequest. GET_VERSION starts the connection anew and answers 1.1 and 1.2; capabilities and algorithms settle
in turn; digests, certificate parts, the signed challenge and measurement blocks answer from the chains and the log
(the signatures are free bytes); SET_CERTIFICATE stores slot 1 inside a session only; at most four sessions are open.
Some of its clauses rest on the model's choices in logs 40 and 60. -/
def Obligations.SpdmRows : Prop :=
  ∀ (s : State) (t : Nat),
    let settled := s.secServed = true ∧ (s.spdm t).settled = true
    let rows := fun (c : Instr) => c = .getDigests t ∨ (∃ a b d, c = .getCertificate t a b d) ∨
      (∃ a b d, c = .setCertificate t a b d) ∨ (∃ a b, c = .challenge t a b) ∨ (∃ a b d, c = .getMeasurements t a b d) ∨
      ∃ a, c = .keyExchange t a
    (∀ c, rows c ∨ c = .getVersion t ∨ (∃ a, c = .getCapabilities t a) ∨ (∃ a b, c = .negotiateAlgorithms t a b) →
      s.secServed = false → exec c s = .next s) ∧
    (∀ c, rows c → s.secServed = true → (s.spdm t).settled = false → exec c s = .next (s.reply { kind := 15, value := 4 })) ∧
    (s.secServed = true → exec (.getVersion t) s = .next
      ((s.modSpdm t (fun _ => { version := 0x12 })).reply { kind := 16, bytes := [0x11, 0x12], value := 0 })) ∧
    (∀ v, s.secServed = true → (s.spdm t).version ≠ 0 →
      (v = 0x11 ∨ v = 0x12 → exec (.getCapabilities t v) s = .next ((s.modSpdm t (fun x => { x with
        version := v, caps := true })).reply { kind := 17, bytes := leBytes 4 4096 ++ leBytes 4 65536, value := 0xFF })) ∧
      (v ≠ 0x11 → v ≠ 0x12 → exec (.getCapabilities t v) s = .next (s.reply { kind := 15, value := 0x41 }))) ∧
    (∀ base hash, s.secServed = true → (s.spdm t).version ≠ 0 → (s.spdm t).caps = true →
      (bit base 7 = true → bit hash 1 = true → exec (.negotiateAlgorithms t base hash) s = .next ((s.modSpdm t (fun x => { x with
        algs := true })).reply { kind := 18, bytes := leBytes 4 0x80 ++ leBytes 4 0x02, value := 0 })) ∧
      (bit base 7 = false ∨ bit hash 1 = false → exec (.negotiateAlgorithms t base hash) s = .next
        (s.reply { kind := 15, value := 1 }))) ∧
    (settled → exec (.getDigests t) s = .next (s.reply { kind := 19
                                                         bytes := (([0, 1].filterMap (fun k => (s.certChain k).map hash384)).flatten)
                                                         value := 1 + 2 * b01 (!s.flash.owner.isEmpty) })) ∧
    (∀ slot off len, settled →
      (∀ c, s.certChain slot = some c → exec (.getCertificate t slot off len) s = .next
        (s.reply { kind := 20, bytes := (c.drop off).take len, value := c.length - off - len })) ∧
      (s.certChain slot = none → exec (.getCertificate t slot off len) s = .next (s.reply { kind := 15, value := 1 }))) ∧
    (∀ slot chain leafOk, settled →
      ((s.spdm t).sessions = [] → exec (.setCertificate t slot chain leafOk) s = .next (s.reply { kind := 15, value := 6 })) ∧
      ((s.spdm t).sessions ≠ [] → slot = 1 → leafOk = true → exec (.setCertificate t slot chain leafOk) s = .next
        (({ s with flash := { s.flash with owner := chain } } : State).reply { kind := 21, bytes := [], value := 1 })) ∧
      ((s.spdm t).sessions ≠ [] → slot ≠ 1 ∨ leafOk = false → exec (.setCertificate t slot chain leafOk) s = .next
        (s.reply { kind := 15, value := 1 }))) ∧
    (∀ slot nonce, settled →
      (∀ c, s.certChain slot = some c → exec (.challenge t slot nonce) s = .next
        ((s.freeBytes 96).2.reply { kind := 22, bytes := hash384 c ++ nonce ++ (s.freeBytes 96).1, value := slot })) ∧
      (s.certChain slot = none → exec (.challenge t slot nonce) s = .next (s.reply { kind := 15, value := 1 }))) ∧
    (∀ i nonce, settled →
      let blocks := fun (l : List Nat) => l.filterMap (fun i => (s.measured i).map (fun d => leBytes 1 i ++ d))
      (i = 0 → exec (.getMeasurements t i false nonce) s = .next (s.reply { kind := 23, bytes := [], value := 5 })) ∧
      (1 ≤ i → i ≤ 5 → exec (.getMeasurements t i false nonce) s = .next
        (s.reply { kind := 23, bytes := (blocks [i]).flatten, value := (blocks [i]).length })) ∧
      (i = 0xFF → exec (.getMeasurements t i true nonce) s = .next
        ((s.freeBytes 96).2.reply { kind := 23, value := (blocks [1, 2, 3, 4, 5]).length
                                    bytes := (blocks [1, 2, 3, 4, 5]).flatten ++ nonce ++ (s.freeBytes 96).1 })) ∧
      (5 < i → i ≠ 0xFF → ∀ sign, exec (.getMeasurements t i sign nonce) s = .next (s.reply { kind := 15, value := 1 }))) ∧
    (∀ point, settled →
      let n := s.doe.sessions.length + s.mctp.sessions.length
      (4 ≤ n → exec (.keyExchange t point) s = .next (s.reply { kind := 15, value := 0x0A })) ∧
      (n < 4 →
        let u : State := { s with uid := s.uid + 1 }
        exec (.keyExchange t point) s = .next (((u.freeBytes 96).2.modSpdm t (fun x => { x with
          sessions := x.sessions ++ [s.uid] })).reply { kind := 24, bytes := (u.freeBytes 96).1, value := s.uid })))

/-! ### The host's accesses (16, 17) -/

/-- BAR0. A block out of reach keeps its registers under a write and reads 0; a doorbell page's write is the
doorbell's row. A read answers the register's value, of the access's bytes, before it clears what it clears. BAR2,
held accesses, and the host's answers. Before F5 a read answers zeros and both log KIND 1; a range with a hole logs
KIND 2; an access wakes what it reaches; a range in an accumulator in use is held, and so is every access behind a
write that is, and served once it may be; otherwise every byte is read, EP for a mark, or written, every unit marked
under EP. While frozen a write is kept with the address its window gives it. A completion serves the read it answers,
its wait counted at the engine of a descriptor, or its time-out ends it as failed; neither acts while frozen. Some of its
clauses rest on the model's choices in logs 41, 49 and 58. -/
def Obligations.HostAccess : Prop :=
  ((∀ (s : State) (off size v : Nat), s.modServed = false → off < 0x100000 → exec (.registerWrite off size v) s = .next s) ∧
  (∀ (s : State) (q v : Nat), q < 64 →
    exec (.registerWrite (0x100000 + 0x1000 * q) 4 v) s = exec (.sqTail q (v % 2 ^ 16)) s ∧
    exec (.registerWrite (0x100008 + 0x1000 * q) 4 v) s = exec (.cqHead q (v % 2 ^ 16)) s) ∧
  (∀ (s : State) (v : Nat), s.allServed = true →
    exec (.registerWrite 0xC0000 8 v) s = .next (s.modDbg (fun d => { d with frzSel := BitVec.ofNat 32 v })) ∧
    exec (.registerWrite 0xC0008 8 v) s = exec (.freezeReq (v % 2 ^ 64)) s ∧
    exec (.registerWrite 0xC0010 8 v) s = exec (.continueBreak (v % 2 ^ 64)) s) ∧
  (∀ (s : State) (off size : Nat), off ≠ 0xD0040 → exec (.readClear off size) s = .next
    ((s.clearReg (off - off % 8) (regAccess off size 0)).reply { kind := 1, value := s.bar0Value off size })) ∧
  (∀ (s : State) (off size : Nat), s.modServed = false → off ≠ 0xD0040 → off < 0x100000 →
    exec (.readClear off size) s = .next (s.reply { kind := 1, value := 0 }))) ∧
  ((∀ (s : State) (off n : Nat),
    let u := s.quiet
    let a := u.mod.bar2.toNat * 2 ^ 36 + off
    let x := u.wakeAddr a
    let v := if x.physHole a n then x.hostErr 2 a else x
    (u.mod.done = false → exec (.bar2Read off n) s = .next
      ((u.hostErr 1 off).reply { kind := 2, value := off, bytes := List.replicate n 0 })) ∧
    (u.mod.done = true → v.physBusy a n = true ∨ v.writeHeldUp = true → exec (.bar2Read off n) s = .next
      (v.modWork (fun w => { w with held := w.held ++ [.read a n] }))) ∧
    (u.mod.done = true → v.physBusy a n = false → v.writeHeldUp = false → exec (.bar2Read off n) s = .next
      (v.reply { kind := 2, value := a, bytes := (v.physBytes a n).1, ep := (v.physBytes a n).2 }))) ∧
  (∀ (s : State) (off : Nat) (bs : List Byte) (ep : Bool),
    let u := s.quiet
    let a := u.mod.bar2.toNat * 2 ^ 36 + off
    let x := u.wakeAddr a
    let v := if x.physHole a bs.length then x.hostErr 2 a else x
    (u.mod.done = false → exec (.bar2Write off bs ep) s = .next (u.hostErr 1 off)) ∧
    (u.mod.done = true → u.frozen = true → exec (.bar2Write off bs ep) s = .next
      (u.modDbg (fun d => { d with held := d.held ++ [.bar2Write a bs ep] }))) ∧
    (u.mod.done = true → u.frozen = false → v.physBusy a bs.length = true ∨ v.writeHeldUp = true →
      exec (.bar2Write off bs ep) s = .next (v.modWork (fun w => { w with held := w.held ++ [.write a bs ep] }))) ∧
    (u.mod.done = true → u.frozen = false → v.physBusy a bs.length = false → v.writeHeldUp = false →
      exec (.bar2Write off bs ep) s = .next (v.wrPhys a bs ep))) ∧
  (∀ (s : State) (rest : List HeldAccess), s.frozen = false →
    let u := s.modWork (fun w => { w with held := rest })
    (s.work.held = [] → exec .heldAccumulatorAccess s = .next s) ∧
    (∀ a n, s.work.held = .read a n :: rest → exec .heldAccumulatorAccess s = .next (if s.physBusy a n then s else
      u.reply { kind := 2, value := a, bytes := (u.physBytes a n).1, ep := (u.physBytes a n).2 })) ∧
    (∀ a bs ep, s.work.held = .write a bs ep :: rest → exec .heldAccumulatorAccess s = .next
      (if s.physBusy a bs.length then s else u.wrPhys a bs ep)) ∧
    (∀ d, s.work.dmas.find? (fun x => x.id == d.id) = some d → s.work.held = .dma d.id :: rest →
      exec .heldAccumulatorAccess s = .next (if s.dmaHeld d then s else u.runDma d))) ∧
  (∀ (s : State) (r : HostRead) (ok : Bool) (bs : List Byte),
    s.work.hostReads.find? (fun x => x.tag == r.tag) = some r →
    let u := s.modWork (fun w => { w with hostReads := w.hostReads.filter (fun x => x.tag != r.tag) })
    let late := s.untilRoot (r.since + 1000 * s.mod.cplTimeout.toNat * 6000)
    (s.frozen = true → exec (.hostReadCompletion r.tag ok bs) s = .next
      (s.modDbg (fun d => { d with held := d.held ++ [.hostReadCompletion r.tag ok bs] }))) ∧
    (s.frozen = false → ∀ q slot, r.use = .slot q slot →
      exec (.hostReadCompletion r.tag ok bs) s = .next ((if ok then u.modQw q (fun x => { x with
        readTag := none, fetched := x.fetched ++ slice bs 0 r.bytes }) else u.slotFailed q slot r.addr).pump q)) ∧
    (s.frozen = false → ∀ d, r.use = .dma d.id → u.work.dmas.find? (fun x => x.id == d.id) = some d →
      let w := if ok then u else u.hostErr 7 r.addr d.q 0
      let v := (w.count (w.bankOf d.q) (engDma (16 * (((w.qw d.q).core.getD 0) / 4) + d.eng)) 1
        (w.mclk - d.startedAt)).moveBytes d
      exec (.hostReadCompletion r.tag ok bs) s = .next
        ((v.placeRows d d.rolesOf ((slice bs 0 r.bytes).map (fun b => (b, !ok)))).dmaDone d)) ∧
    (s.frozen = false → exec (.cplTimeout r.tag) s = .next (late.hostAnswer r false []))) ∧
  (∀ (s : State) (reg v : Nat),
    let r := reg / 4 * 4
    let bar (old : BitVec 64) (size half : Nat) : BitVec 64 :=
      BitVec.ofNat 64 (setBits old.toNat (32 * half) 32 v / size * size)
    let wrote (f : Pins → Pins) : Prop :=
      exec (.configRequest true reg v) s = .next ((s.modPins f).reply { kind := 5 })
    (s.pins.linkUp = false → ∀ w, exec (.configRequest w reg v) s = .next (s.reply { kind := 4 })) ∧
    (s.pins.linkUp = true →
      (∀ half < 2, r = 0x10 + 4 * half → wrote (fun p => { p with bar0 := bar p.bar0 (2 ^ 26) half })) ∧
      (∀ half < 2, r = 0x18 + 4 * half → wrote (fun p => { p with bar2 := bar p.bar2 (2 ^ 36) half })) ∧
      (r ∉ [0x10, 0x14, 0x18, 0x1C] → wrote (fun p =>
        if reg / 4 = Config.pmcsr.toNat / 4 then { p with d3hot := bits v 0 2 == 3 } else p)) ∧
      (∀ x, s.configDword r = some x →
        exec (.configRequest false reg v) s = .next (s.reply { kind := 6, value := x })) ∧
      (s.configDword r = none → exec (.configRequest false reg v) s = .next
        (s.free.2.reply { kind := 6, value := s.free.1.toNat % 2 ^ 32 })))))

/-! ### Resets and faults (17, 21) -/

namespace Sys2Proof.Claims

/-- What a reset of a kind leaves, the module in the stage named: queues, objects, contexts, links, counters, registers and
work lists at their reset values; tile and staging memory zero and unmarked; HBM as it was under `keep` and lost
otherwise (zero, by log 1); flash, fused bits and time as they were. -/
def leaves (s t : State) (kind stage : Nat) (keep : Bool) : Prop :=
  t.queues = [] ∧ t.qwork = [] ∧ t.objs = [] ∧ t.tiles = [] ∧ t.parts = [] ∧ t.ports = [] ∧ t.links = [] ∧ t.lanes = [] ∧
  t.banks = [] ∧ t.trace = [] ∧ t.work = {} ∧ t.sel = {} ∧ t.dbg = {} ∧ t.log = {} ∧ t.sec = {} ∧ t.pwr = {} ∧
  t.flash = s.flash ∧ t.fuse.retired = s.fuse.retired ∧ t.fuse.fusedOff = s.fuse.fusedOff ∧ t.fuse.rollback = s.fuse.rollback ∧
  t.clk.root = s.clk.root ∧ t.mod.stage.toNat = stage ∧ t.mod.resetCause.toNat = kind ∧ t.mod.done = false ∧
  (∀ k, tileRegion ≤ k → t.rd k = 0 ∧ t.marked k = false) ∧
  (keep = true → ∀ k, k < tileRegion → t.rd k = s.rd k ∧ t.marked k = s.marked k) ∧
  (keep = false → ∀ k, k < tileRegion → t.rd k = 0 ∧ t.marked k = false)

end Sys2Proof.Claims

/-- PERST_N low, a function reset, and a module or soft reset leave what a reset leaves, with RESET_CAUSE 2, 3 and 4;
KEEP_HBM keeps HBM under kinds 3 and 4. The module stays in reset until PERST_N is high; function and module resets go
on from F1. Some of its clauses rest on the model's choices in logs 1, 12 and 37. -/
def Obligations.ResetsLeave : Prop :=
  (∀ s : State, s.pins.vin = true → s.pins.vaux = true → ∃ t, exec .fundamentalReset s = .next t ∧ leaves s t 2 0 false ∧
    t.pins.inReset = true ∧ t.pins.perstN = false ∧ t.mod.keepHbm = false) ∧
  (∀ s : State, s.started = true →
    (∃ t, exec .functionReset s = .next t ∧ leaves s t 3 1 s.mod.keepHbm ∧ t.pins.linkUp = true) ∧
    (∃ t, exec .moduleReset s = .next t ∧ leaves s t 4 1 s.mod.keepHbm ∧ t.pins.linkUp = s.pins.linkUp) ∧
    ∀ v, s.modServed = true → bit v 0 = true →
      ∃ t, exec (.softReset v) s = .next t ∧ leaves s t 4 1 (bit v 1) ∧ t.mod.keepHbm = bit v 1) ∧
  (∀ s : State, s.started = false → exec .functionReset s = .next s ∧ exec .moduleReset s = .next s) ∧
  (∀ (s : State) (v : Nat), s.modServed = true → bit v 0 = false → exec (.softReset v) s = .next (s.modMod (fun m => { m with
    keepHbm := bit v 1 })))

/-- Power and pins. A cold reset starts the time anew with both supplies valid; PERST_N high lets F0 begin; a VIN,
VAUX or regulator fault takes the rails down with code 0x42 or 0x01; THERM_TRIP_N low resets with code 0x40 and holds
the module until it has cooled, when F0 restarts. Faults past F0. A control core's watchdog or memory error faults its
partition with code 0x43, the root core's the module with 0x41; a lost boundary faults the partition that both its
dies belong to, with 0x44, and is only logged where they belong to two. Some of its clauses rest on the model's
choices in logs 13 and 29. -/
def Obligations.FaultsAndPins : Prop :=
  ((∀ s : State, exec .coldReset s = .next ((({ s with clk := { root := 0 } } : State).modPins (fun p => { p with
    vin := true, vaux := true, pwrGood := false, linkUp := false, thermTripN := true, inReset := !p.perstN })).resetAs 1 0)) ∧
  (∀ s : State,
    let u := s.modPins (fun p => { p with perstN := true })
    let go := s.pins.vin = true ∧ s.pins.vaux = true ∧ s.pins.inReset = true ∧ s.pins.thermTripN = true
    (go → exec .perstNHigh s = .next ((u.modPins (fun p => { p with inReset := false })).modMod (fun m => { m with
      stageAt := s.clk.root }))) ∧
    (¬go → exec .perstNHigh s = .next u)) ∧
  (∀ s : State,
    (s.pins.vin = false → exec .vinTrip s = .next s) ∧
    (s.pins.vin = true → s.mod.stage ≠ 0 → exec .vinTrip s = .next
      ((s.free.2.modPins (fun p => { p with vin := false })).powerLost 0x42 0)) ∧
    (s.pins.vin = true → s.mod.stage = 0 → exec .vinTrip s = .next
      ((s.free.2.modPins (fun p => { p with vin := false })).powerLost 0x01 (s.free.1.toNat % 2 ^ 16))) ∧
    (s.pins.vaux = true → exec .vauxFault s = .next
      ((s.modPins (fun p => { p with vin := false, vaux := false })).powerLost 0x42 0)) ∧
    (s.pins.vaux = false → exec .vauxFault s = .next s)) ∧
  (∀ s : State, s.pins.vin = true → s.pins.vaux = true →
    (∀ r, exec (.regulatorFault r) s = .next (s.powerLost 0x01 r)) ∧
    exec .thermalReset s = .next (((s.resetAs 5 0).modPins (fun p => { p with
      thermTripN := false, inReset := true })).faultModule 0x40 0)) ∧
  (∀ s : State, s.pins.vin = false ∨ s.pins.vaux = false → (∀ r, exec (.regulatorFault r) s = .next s) ∧
    exec .thermalReset s = .next s) ∧
  (∀ s : State,
    (s.pins.thermTripN = true → exec .thermalRecovery s = .next s) ∧
    (s.pins.thermTripN = false → exec .thermalRecovery s = .next (((s.modPins (fun p => { p with
      thermTripN := true, inReset := !p.perstN })).modMod (fun m => { m with
        fault := false, stageAt := s.clk.root })).modPart 0 (fun x => { x with st := 0 }))))) ∧
  ((∀ (s : State) (core : Nat), s.started = true →
    let u := s.modMod (fun m => { m with badCores := setIns m.badCores core })
    exec (.controlCoreWatchdog core) s = .next (u.faultPart (u.partOfDie (core / 4)) 0x43 core) ∧
    exec (.controlCoreMemoryError core) s = .next (u.faultPart (u.partOfDie (core / 4)) 0x43 core) ∧
    exec .rootCoreMemoryError s = .next ((s.faultModule 0x41 0).modMod (fun m => { m with rootDead := true }))) ∧
  (∀ (s : State) (core : Nat), s.started = false → ∀ c ∈ [Instr.controlCoreWatchdog core, .controlCoreMemoryError core,
    .rootCoreMemoryError], exec c s = .next s) ∧
  (∀ (s : State) (n : Nat), s.mod.done = true →
    let d := boundaryDies n
    (s.partOfDie d.1 = s.partOfDie d.2 → exec (.rhizomeBoundaryLost n) s = .next (s.faultPart (s.partOfDie d.1) 0x44 n)) ∧
    (s.partOfDie d.1 ≠ s.partOfDie d.2 → exec (.rhizomeBoundaryLost n) s = .next (s.modLog (fun l => { l with
      log := (0x44, n) :: l.log })))) ∧
  (∀ s : State, s.mod.done = false → ∀ n, exec (.rhizomeBoundaryLost n) s = .next s) ∧
  boundaryDies 0 = (0, 1) ∧ boundaryDies 2 = (2, 3) ∧ boundaryDies 3 = (4, 5) ∧ boundaryDies 5 = (6, 7) ∧
  boundaryDies 6 = (0, 4) ∧ boundaryDies 9 = (3, 7))

/-! ### The fiddlehead sequence (17) -/

/-- A stage ends only while it is in progress. F0 ends with the link trained; F1 starts the first slot, preferred
first, whose image verifies and is not below the anti-rollback level, and otherwise faults 0x10, 0x11 or 0x12 and
stays in recovery; F2 repairs and counts, or faults 0x20, 0x21 or 0x22; F3 sets each stack's latency and starts the
memory frame, or faults 0x30 or 0x31; F4 ends 200 ms after it began; F5 starts the time bases at a hyperframe start
and ends the sequence, every partition READY. A stage past its limit faults 0x02. Some of its clauses rest on the
model's choices in logs 8 and 29. -/
def Obligations.StageRows : Prop :=
  ∀ s : State,
    (∀ c, (∃ a b, c = .stageF0 a b ∧ s.inStage 0 = false) ∨ (∃ b, c = .stageF1 b ∧ s.inStage 1 = false) ∨
      (∃ b, c = .stageF2 b ∧ s.inStage 2 = false) ∨ (∃ b, c = .stageF3 b ∧ s.inStage 3 = false) ∨
      (c = .stageF4 ∧ s.inStage 4 = false) ∨ (c = .stageF5 ∧ s.inStage 5 = false) → exec c s = .next s) ∧
    (∀ rate width, s.inStage 0 = true → s.pins.perstN = true → exec (.stageF0 rate width) s = .next
      (((s.modPins (fun p => { p with pwrGood := true, linkUp := true })).modMod (fun m => { m with
        linkRate := BitVec.ofNat 4 rate, linkWidth := BitVec.ofNat 5 width })).toStage 1)) ∧
    (∀ b : BootImages, s.inStage 1 = true →
      let sound (k : Bool) : Bool := (if k then b.ok1 else b.ok0) && !bit s.flash.empty.toNat (b01 k)
      let svn (k : Bool) : Nat := if k then s.flash.svn1 else s.flash.svn0
      let allowed (k : Bool) : Prop := sound k = true ∧ s.fuse.rollback.toNat ≤ svn k
      let u : State := { s with flash := { s.flash with valid := BitVec.ofNat 2 (b01 (sound false) + 2 * b01 (sound true)) } }
      let stay (x : State) (code : Nat) : State := (x.faultModule code 0).modMod (fun m => { m with recovery := true })
      (b.readable = false → exec (.stageF1 b) s = .next (stay s 0x12)) ∧
      (b.readable = true → allowed s.flash.preferred → exec (.stageF1 b) s = .next
        ((u.startImage s.flash.preferred b.digests).measureState 0)) ∧
      (b.readable = true → ¬allowed s.flash.preferred → allowed (!s.flash.preferred) → exec (.stageF1 b) s = .next
        ((u.startImage (!s.flash.preferred) b.digests).measureState 0)) ∧
      (b.readable = true → ¬allowed false → ¬allowed true → exec (.stageF1 b) s = .next
        (stay u (if sound false || sound true then 0x11 else 0x10)))) ∧
    (∀ b : BistReport, s.inStage 2 = true →
      let u := s.measureAs 3 b.digest
      let v := b.banks.foldl (fun x (k, n) => x.bistBank k n) u.fuseMarks
      let dead := b.badDie.orElse (fun _ => (List.range 8).find? (fun d => v.enabledOn d == 0))
      let w : State := { v with fuse := { v.fuse with locked := true } }
      (b.fusesOk = false → exec (.stageF2 b) s = .next (u.faultModule 0x20 0)) ∧
      (b.fusesOk = true → ∀ d, dead = some d → exec (.stageF2 b) s = .next (v.faultModule 0x21 d)) ∧
      (b.fusesOk = true → dead = none → ∀ x, b.badBoundary = some x → exec (.stageF2 b) s = .next (v.faultModule 0x22 x)) ∧
      (b.fusesOk = true → dead = none → b.badBoundary = none → exec (.stageF2 b) s = .next
        ((w.modMod (fun m => { m with belowCode := w.belowOrdering })).toStage 3))) ∧
    (∀ ms : List (Option Nat), s.inStage 3 = true →
      let idx := (List.range 32).map (fun k => (k, ms.getD k none))
      (∀ k m, idx.find? (fun x => x.2.isNone) = some (k, m) → exec (.stageF3 ms) s = .next (s.faultModule 0x30 k)) ∧
      (idx.find? (fun x => x.2.isNone) = none → ∀ k m,
        idx.find? (fun x => match x.2 with | some m => decide (248 < lambdaOf m) | none => false) = some (k, m) →
        exec (.stageF3 ms) s = .next (s.faultModule 0x31 k)) ∧
      ((∀ x ∈ idx, ∃ m, x.2 = some m ∧ lambdaOf m ≤ 248) →
        let u := idx.foldl (fun x (k, m) => x.modStack k (fun y => { y with
          latency := BitVec.ofNat 8 (lambdaOf (m.getD 0)), selfRefresh := false, calFrame := 0 })) s
        let v := (u.untilRoot (roundUp u.clk.root 60)).modClk (fun c => { c with frameOrigin := some c.root })
        exec (.stageF3 ms) s = .next (((v.modMod (fun m => { m with keptHbm := m.hbmKept })).toStage 4).loadRecord))) ∧
    (s.inStage 4 = true → exec .stageF4 s = .next ((s.untilRoot (s.mod.stageAt + 1200000000)).toStage 5)) ∧
    (s.inStage 5 = true →
      let o := s.hyperframe s.mod.stageAt
      let u := ((s.untilRoot o).modClk (fun c => { c with
        origin := some o, markRoot := o, markMclk := 0 })).publish.measureLayout
      exec .stageF5 s = .next (((((List.range u.nParts).foldl (fun x p => x.modPart p (fun y => { y with st := 1 })) u).modMod
        (fun m => { m with done := true })).event 0).event 1).freezeNow) ∧
    (let limit := fun (k us : Nat) => s.inStage k = true →
      exec .stageLimit s = .next ((s.untilRoot (s.mod.stageAt + us * 6000)).faultModule 0x02 k)
     limit 0 500000 ∧ limit 1 1000000 ∧ limit 2 5000000 ∧ limit 3 1000000 ∧ limit 5 200000)

/-! ### Power, clocks, temperature, memory service (11, 18) -/

/-- The divider, the cap and the pause. A pending divider takes effect at the next hyperframe start unless a run
executes; a sample moves the averages, the pending divider and the pause due; a pause stops the units at this mclk and
ends after whole memory frames and mclk, repeated and counted again while its condition holds. Some of its clauses
rest on the model's choices in log 47. -/
def Obligations.ClockAndCapRows : Prop :=
  (∀ (s : State) (d : Nat), s.clk.pendingDiv = some d →
    let stuck := s.clk.origin = none ∨ s.frozen = true ∨ ∃ r ∈ s.work.runs, r.start.isSome = true
    (stuck → exec .mclkDividerChange s = .next s) ∧
    (¬stuck →
      let u := s.untilRoot (s.hyperframe s.clk.root)
      exec .mclkDividerChange s = .next ((u.modClk (fun c => { c with
        div := d, pendingDiv := none, markRoot := c.root, markMclk := u.mclk })).modPwr (fun p => { p with
          voltReq := false, overFor := 0, underFor := 0 })))) ∧
  (∀ s : State, s.clk.pendingDiv = none → exec .mclkDividerChange s = .next s) ∧
  (∀ (s : State) (watts amps : Nat), s.pins.vin = true → s.pins.vaux = true →
    let u := s.modPwr (fun p => { p with samples := (watts :: p.samples).take 10000, fast := decide (p.iFast.toNat < amps) })
    let v := u.modPwr (fun p => { p with
      overFor := if p.avgAbove 1000 p.limit then p.overFor + 1 else 0
      underFor := if p.avgBelow 10000 (p.limit - p.hystW.toNat) then p.underFor + 1 else 0 })
    exec (.powerSample watts amps) s = .next ((v.modClk (fun c => { c with pendingDiv := v.wantedDiv })).modPwr (fun p => { p with
      pauseDue := p.pauseDue || (p.paused.isNone && p.wantsPause) }))) ∧
  (∀ s : State, Live s → (s.pwr.pauseDue = false → exec .powerPause s = .next s) ∧
    (s.pwr.pauseDue = true → exec .powerPause s = .next (s.modPwr (fun p => { p with
      pauseDue := false, paused := some s.clk.root, pausedMclk := s.mclk
      pauseCount := BitVec.ofNat 16 (satAdd 16 p.pauseCount.toNat 1) })))) ∧
  (∀ (s : State) (began : Nat), s.frozen = false → s.pwr.paused = some began →
    let u := s.untilRoot (began + wholeHold frameRoot s.clk.div 1 * s.clk.div)
    let v := u.shiftUnits u.pwr.pausedMclk (u.mclk - u.pwr.pausedMclk) 2
    (v.pwr.wantsPause = true → exec .powerPauseEnd s = .next (v.modPwr (fun p => { p with
      pauseDue := false, paused := some v.clk.root, pausedMclk := u.mclk
      pauseCount := BitVec.ofNat 16 (satAdd 16 p.pauseCount.toNat 1) }))) ∧
    (v.pwr.wantsPause = false → exec .powerPauseEnd s = .next (v.modPwr (fun p => { p with paused := none, pauseDue := false })))) ∧
  (∀ s : State, s.frozen = false → s.pwr.paused = none → exec .powerPauseEnd s = .next s)

/-- Power states. An evaluation takes the state R424 chooses, but leaves a state of P_RETAIN or deeper by a wake only
and goes no deeper while frozen. At wake_at the exit begins, and lasts the state's exit time; an access before it
counts as an early wake. A completed exit is P_RUN. Some of its clauses rest on the model's choices in logs 15 and 96. -/
def Obligations.PowerStateRows : Prop :=
  ∀ (s : State) (sc : Scope),
    let k := Scope.key sc
    let v := s.scope k
    let c := s.chooseState sc
    let exitTime (x : State) : Nat := if v.code = 1 then 4 * x.clk.div else 60 * exitSclk v.code
    (s.mod.done = false ∨ v.exitAt.isSome = true → exec (.powerStateEvaluate sc) s = .next s) ∧
    (s.mod.done = true → v.exitAt = none →
      (c.1 < v.code → 2 ≤ v.code → exec (.powerStateEvaluate sc) s = .next (s.setScope k { v with wakeAt := some s.sclk })) ∧
      (v.code < c.1 → s.frozen = true → exec (.powerStateEvaluate sc) s = .next s) ∧
      (v.code < c.1 → s.frozen = false → exec (.powerStateEvaluate sc) s = .next (s.enterState sc c.1 c.2)) ∧
      (c.1 = v.code → exec (.powerStateEvaluate sc) s = .next (s.setScope k { v with wakeAt := c.2 })) ∧
      (c.1 = 0 → v.code = 1 → exec (.powerStateEvaluate sc) s = .next
        ((s.setScope k { code := 0, since := s.mclk, wakeAt := c.2 }).tracePower sc 1 0))) ∧
    (v.wakeAt = none → exec (.powerWake sc) s = .next s) ∧
    (∀ t, v.wakeAt = some t → v.code ≠ 0 → v.exitAt = none →
      let u := s.untilRoot (60 * t)
      exec (.powerWake sc) s = .next (u.beginExit sc)) ∧
    (v.code = 0 → exec (.earlyWake sc) s = .next s) ∧
    (v.code ≠ 0 →
      let u := s.modPwr (fun p => { p with earlyWake := BitVec.ofNat 32 (satAdd 32 p.earlyWake.toNat 1) })
      (v.exitAt.isSome = true → exec (.earlyWake sc) s = .next u) ∧
      (v.exitAt = none → exec (.earlyWake sc) s = .next
        (u.setScope k { v with wakeAt := none, exitAt := some (u.clk.root + exitTime u) }))) ∧
    (v.exitAt = none → exec (.wakeComplete sc) s = .next s) ∧
    (∀ r, v.exitAt = some r →
      let u := (s.untilRoot r).countStay sc v
      exec (.wakeComplete sc) s = .next
        (((if 3 ≤ v.code then u.napStacks sc false else u).setScope k {}).tracePower sc v.code 0))

/-- Sensors, trim, and the memory's service. A sample answers to the hottest valid reading; a sensor more than 5 °C
from its estimate becomes invalid, any other is trimmed at most a quarter degree; a die's voltage moves one step
inside its range, and at the top with low margin asks for a slower clock. A calibration or refresh slot takes place
while the stack's frame runs, and counts what outlasts it. A scrub counts a correctable error and marks the unit of an
uncorrectable one; an HBM block found uncorrectable is counted and marked. Some of its clauses rest on the model's
choices in logs 16 and 17. -/
def Obligations.SensorAndMemoryService : Prop :=
  (∀ (s : State) (rs : List Nat), s.pins.vin = true → s.pins.vaux = true →
    (∀ t, s.hottest rs = some t → exec (.thermalSample rs) s = .next (s.heat t)) ∧
    (s.hottest rs = none → exec (.thermalSample rs) s = .next s) ∧
    ∀ es, exec (.sensorComparison es rs) s = .next
      ((List.range 128).foldl (fun x i => x.compareSensor i (es.getD i 0) (rs.getD i 0)) s)) ∧
  (∀ (s : State) (i e r : Nat),
    let x := s.sensor i
    let diff : Int := (e : Int) - ((r : Int) + x.offset)
    (x.invalid = true → s.compareSensor i e r = s) ∧
    (x.invalid = false → 20 < diff.natAbs → s.compareSensor i e r = ((s.modPwr (fun p => { p with
      sensors := Tbl.set {} p.sensors i { x with invalid := true } })).modPwr (fun p => { p with
        sensorFail := BitVec.ofNat 8 (satAdd 8 p.sensorFail.toNat 1)
        firstFail := if s.pwr.sensorFail = 0 then BitVec.ofNat 7 i else p.firstFail })).event 11) ∧
    (x.invalid = false → diff.natAbs ≤ 20 → s.compareSensor i e r = s.modPwr (fun p => { p with
      sensors := Tbl.set {} p.sensors i { x with offset := max (-12) (min 12 (x.offset + max (-1) (min 1 diff))) } }))) ∧
  (∀ (s : State) (d m : Nat), s.pins.vin = true → s.pins.vaux = true →
    let t := Tbl.get 0 s.pwr.dieTrim d
    let put (x : Int) : State := if s.clk.root + 1 < Tbl.get 0 s.pwr.trimAt d + 600000 then s else s.modPwr (fun p => { p with
      dieTrim := Tbl.set 0 p.dieTrim d x, trimAt := Tbl.put p.trimAt d (s.clk.root + 1) })
    let u := (s.event 10).modPwr (fun p => { p with voltReq := p.voltReq || decide (s.clk.div < 6) })
    (m = 0 → t < 8 → exec (.voltageTrim d m) s = .next (put (t + 1))) ∧
    (m = 0 → 8 ≤ t → exec (.voltageTrim d m) s = .next (u.modClk (fun c => { c with pendingDiv := u.wantedDiv }))) ∧
    (m = 2 → -16 < t → exec (.voltageTrim d m) s = .next (put (t - 1))) ∧
    (m ≠ 0 → m ≠ 2 ∨ t ≤ -16 → exec (.voltageTrim d m) s = .next s)) ∧
  (∀ (s : State) (k late : Nat),
    let on := s.clk.frameOrigin.isSome = true ∧ (s.stack k).selfRefresh = false
    (on → exec (.calibrationSlot k late) s = .next ((s.modStack k (fun x => { x with
      calFrame := BitVec.ofNat 7 ((x.calFrame.toNat + 1) % 130) })).overrun k late)) ∧
    (on → exec (.refresh k late) s = .next ((s.modStack k (fun x => { x with refreshes := x.refreshes + 1 })).overrun k late)) ∧
    (¬on → exec (.calibrationSlot k late) s = .next s ∧ exec (.refresh k late) s = .next s) ∧
    s.overrun k 0 = s) ∧
  (∀ (s : State) (t bank row : Nat) (touched : Bool), Live s → s.listed t = true → s.bankIdle t bank = true →
    bank < 32 → row < 3072 →
    exec (.patrolScrub t bank row 0 touched) s = .next s ∧
    exec (.patrolScrub t bank row 1 touched) s = .next (s.modTile t (fun x => { x with
      tsCe := BitVec.ofNat 32 (satAdd 32 x.tsCe.toNat 1) })) ∧
    exec (.patrolScrub t bank row 2 touched) s = .next
      ((s.setMark ((tileBase t + (row * 32 + bank) * 64) / 64) true).modTile t (fun x => { x with
        tsUe := BitVec.ofNat 32 (satAdd 32 x.tsUe.toNat 1), ueTimes := (s.sclk :: x.ueTimes).take 256 }))) ∧
  (∀ (s : State) (t bank row err : Nat) (touched : Bool), s.bankIdle t bank = false →
    exec (.patrolScrub t bank row err touched) s = .next s) ∧
  (∀ (s : State) (k block : Nat), s.frozen = false → s.framing k = true →
    exec (.poisonWriteback k ⟨block, true⟩) s = .next (s.modStack k (fun x => { x with
      ce := BitVec.ofNat 32 (satAdd 32 x.ce.toNat 1) })) ∧
    exec (.poisonWriteback k ⟨block, false⟩) s = .next ((s.setMark (k * 2 ^ 30 + block) true).modStack k (fun x => { x with
      ue := BitVec.ofNat 32 (satAdd 32 x.ue.toNat 1) })))


/-! ### Memory and formats (02, 11) -/

/-- A host write past F5, not frozen, to no accumulator in use and behind no held write, writes exactly its bytes, once
what it reaches is awake: a byte that exists reads as written (where two bytes of the range share a key, the later), every other byte of memory as before. -/
def Obligations.HostWriteReadsBack : Prop :=
  ∀ (s : State) (off : Nat) (bs : List Byte) (ep : Bool), s.mod.done = true → s.frozen = false →
    let a := s.mod.bar2.toNat * 2 ^ 36 + off
    let v := s.quiet.wakeAddr a
    v.physBusy a bs.length = false → v.writeHeldUp = false →
    ∃ t, exec (.bar2Write off bs ep) s = .next t ∧
      (∀ i k, i < bs.length → s.physKey (a + i) = some k →
        (∀ j, i < j → j < bs.length → s.physKey (a + j) ≠ some k) → t.rd k = bs.getD i 0) ∧
      (∀ k, (∀ i, i < bs.length → s.physKey (a + i) ≠ some k) → t.rd k = s.rd k)

/-- Every finite code of a floating-point layout converts back to itself, exactly and without a health count, in every
rounding mode, for every draw and with or without saturation; infinities and NaN of a layout that has them convert to its
infinity and its canonical NaN (R31, R32, R44 to R47). -/
def Obligations.FormatRoundTrip : Prop :=
  ∀ l ∈ [lay32, lay16, layBf, layE4m3, layE5m2, layE3m2, layE2m3, layE2m1],
    ∀ (w : Nat) (md : Rnd) (nonsat : Bool) (r : Nat), w < 2 ^ (1 + l.exp + l.man) →
      (∀ n m e, l.decode w = .fin n m e → l.convert md nonsat r (l.decode w) = (w, Health.zero)) ∧
      (∀ n, l.decode w = .inf n → l.convert md nonsat r (l.decode w) = (w, Health.zero)) ∧
      (l.decode w = .nan → (l.convert md nonsat r (l.decode w)).1 = l.nan.getD 0)
end

