-- ==== Sys2Proof/Laws/Table.lean ====
section
/-!
SUPPORT. The laws of the sparse tables: a read after a write gives what was written, a write leaves every other key
alone, and every operation keeps the canonical form.
-/
namespace Sys2Proof
open List

section
variable {α : Type}

/-! ### Reading after writing -/

@[simp] theorem Tbl.get_nil (d : α) (k : Nat) : Tbl.get d [] k = d := rfl

theorem Tbl.get_put_same (d : α) (t : Tbl α) (k : Nat) (v : α) : Tbl.get d (Tbl.put t k v) k = v := by
  induction t with
  | nil => simp [Tbl.put, Tbl.get]
  | cons x t ih =>
    obtain ⟨k', v'⟩ := x
    by_cases h : k < k'
    · simp [Tbl.put, Tbl.get, h]
    · by_cases e : k' = k
      · simp [Tbl.put, Tbl.get, e]
      · simp [Tbl.put, Tbl.get, h, e, ih]

theorem Tbl.get_put_other (d : α) (t : Tbl α) {k j : Nat} (v : α) (h : j ≠ k) :
    Tbl.get d (Tbl.put t k v) j = Tbl.get d t j := by
  induction t with
  | nil => simp [Tbl.put, Tbl.get, Ne.symm h]
  | cons x t ih =>
    obtain ⟨k', v'⟩ := x
    by_cases g : k < k'
    · simp [Tbl.put, Tbl.get, g, Ne.symm h]
    · by_cases e : k' = k
      · simp [Tbl.put, Tbl.get, e, Ne.symm h]
      · simp [Tbl.put, Tbl.get, g, e, ih]

theorem Tbl.get_del_same (d : α) (t : Tbl α) (k : Nat) : Tbl.get d (Tbl.del t k) k = d := by
  induction t with
  | nil => rfl
  | cons x t ih =>
    obtain ⟨k', v'⟩ := x
    by_cases e : k' = k <;> simp [Tbl.del, Tbl.get, e, ih]

theorem Tbl.get_del_other (d : α) (t : Tbl α) {k j : Nat} (h : j ≠ k) :
    Tbl.get d (Tbl.del t k) j = Tbl.get d t j := by
  induction t with
  | nil => rfl
  | cons x t ih =>
    obtain ⟨k', v'⟩ := x
    by_cases e : k' = k
    · subst e; simp [Tbl.del, Tbl.get, Ne.symm h, ih]
    · simp [Tbl.del, Tbl.get, e, ih]

/-- A read of the key just written gives the value. -/
@[simp] theorem Tbl.get_set_same [DecidableEq α] (d : α) (t : Tbl α) (k : Nat) (v : α) :
    Tbl.get d (Tbl.set d t k v) k = v := by
  unfold Tbl.set
  split
  · rename_i h; rw [Tbl.get_del_same, h]
  · exact Tbl.get_put_same d t k v

/-- A write leaves what every other key reads as, whatever the defaults. -/
theorem Tbl.get_set_other [DecidableEq α] (d e : α) (t : Tbl α) {k j : Nat} (v : α) (h : j ≠ k) :
    Tbl.get e (Tbl.set d t k v) j = Tbl.get e t j := by
  unfold Tbl.set
  split
  · exact Tbl.get_del_other e t h
  · exact Tbl.get_put_other e t v h

theorem Tbl.get_keep (d : α) (p : Nat → Bool) (t : Tbl α) (k : Nat) :
    Tbl.get d (Tbl.keep p t) k = if p k then Tbl.get d t k else d := by
  induction t with
  | nil => simp [Tbl.keep]
  | cons x t ih =>
    obtain ⟨k', v'⟩ := x
    by_cases e : k' = k
    · subst e; cases h : p k' <;> simp [Tbl.keep, Tbl.get, h, ih]
    · cases h : p k' <;> simp [Tbl.keep, Tbl.get, h, e, ih]

/-! ### The canonical form -/

/-- The keys of a well-formed table stand above its bound: a lower bound may be lowered. -/
theorem Tbl.wfBy_lower [DecidableEq α] {d : Nat → α} {t : Tbl α} {lo : Nat} (b : Option Nat)
    (hb : ∀ x, b = some x → x ≤ lo) (h : Tbl.wfBy d (some lo) t = true) : Tbl.wfBy d b t = true := by
  cases t with
  | nil => cases b <;> rfl
  | cons x t =>
    obtain ⟨k, v⟩ := x
    cases b with
    | none => simp [Tbl.wfBy] at h ⊢; exact ⟨h.1.2, h.2⟩
    | some y =>
      have := hb y rfl
      simp [Tbl.wfBy] at h ⊢
      exact ⟨⟨by omega, h.1.2⟩, h.2⟩

theorem Tbl.wfBy_tail [DecidableEq α] {d : Nat → α} {b : Option Nat} {k : Nat} {v : α} {t : Tbl α}
    (h : Tbl.wfBy d b ((k, v) :: t) = true) : Tbl.wfBy d b t = true := by
  cases b with
  | none => simp [Tbl.wfBy] at h; exact Tbl.wfBy_lower none (by simp) h.2
  | some lo =>
    simp [Tbl.wfBy] at h
    exact Tbl.wfBy_lower (some lo) (by simp; omega) h.2

theorem Tbl.wfBy_cons [DecidableEq α] {d : Nat → α} {b : Option Nat} {k : Nat} {v : α} {t : Tbl α} :
    Tbl.wfBy d b ((k, v) :: t) = true ↔ (∀ x, b = some x → x < k) ∧ v ≠ d k ∧ Tbl.wfBy d (some k) t = true := by
  cases b <;> simp [Tbl.wfBy, and_assoc]

theorem Tbl.wfBy_del [DecidableEq α] {d : Nat → α} {b : Option Nat} {t : Tbl α} (k : Nat)
    (h : Tbl.wfBy d b t = true) : Tbl.wfBy d b (Tbl.del t k) = true := by
  induction t generalizing b with
  | nil => exact h
  | cons x t ih =>
    obtain ⟨k', v'⟩ := x
    by_cases e : k' = k
    · simp only [Tbl.del, e, if_true]; exact ih (Tbl.wfBy_tail h)
    · simp only [Tbl.del, e, if_false]
      rw [Tbl.wfBy_cons] at h ⊢
      exact ⟨h.1, h.2.1, ih h.2.2⟩

theorem Tbl.wfBy_put [DecidableEq α] {d : Nat → α} {b : Option Nat} {t : Tbl α} {k : Nat} {v : α} (hv : v ≠ d k)
    (hb : ∀ x, b = some x → x < k) (h : Tbl.wfBy d b t = true) : Tbl.wfBy d b (Tbl.put t k v) = true := by
  induction t generalizing b with
  | nil => rw [Tbl.put, Tbl.wfBy_cons]; exact ⟨hb, hv, rfl⟩
  | cons x t ih =>
    obtain ⟨k', v'⟩ := x
    have g := Tbl.wfBy_cons.mp h
    by_cases l : k < k'
    · simp only [Tbl.put, l, if_true]
      exact Tbl.wfBy_cons.mpr ⟨hb, hv, Tbl.wfBy_cons.mpr ⟨by simpa using l, g.2⟩⟩
    · by_cases e : k' = k
      · subst e; simp only [Tbl.put, lt_irrefl, if_false, if_true]
        exact Tbl.wfBy_cons.mpr ⟨hb, hv, g.2.2⟩
      · simp only [Tbl.put, l, e, if_false]
        exact Tbl.wfBy_cons.mpr ⟨g.1, g.2.1, ih (by simp; omega) g.2.2⟩

/-- A write keeps the canonical form of a table whose key `k` reads as `d k` when unlisted. -/
theorem Tbl.wfBy_set [DecidableEq α] {d : Nat → α} {t : Tbl α} (k : Nat) (v : α)
    (h : Tbl.wfBy d none t = true) : Tbl.wfBy d none (Tbl.set (d k) t k v) = true := by
  unfold Tbl.set
  split
  · exact Tbl.wfBy_del k h
  · rename_i hv; exact Tbl.wfBy_put hv (by simp) h

/-- Keeping some keys keeps the canonical form, also under other defaults that agree on the keys kept. -/
theorem Tbl.wfBy_keep [DecidableEq α] {d e : Nat → α} {b : Option Nat} {t : Tbl α} {p : Nat → Bool}
    (he : ∀ k, p k = true → e k = d k) (h : Tbl.wfBy d b t = true) : Tbl.wfBy e b (Tbl.keep p t) = true := by
  induction t generalizing b with
  | nil => cases b <;> rfl
  | cons x t ih =>
    obtain ⟨k, v⟩ := x
    have g := Tbl.wfBy_cons.mp h
    cases hp : p k with
    | false => simp only [Tbl.keep, hp]; exact ih (Tbl.wfBy_tail h)
    | true =>
      simp only [Tbl.keep, hp, if_true]
      exact Tbl.wfBy_cons.mpr ⟨g.1, by rw [he k hp]; exact g.2.1, ih g.2.2⟩

end

/-! ### Sorted sets -/

theorem setWf_cons {x : Nat} {t : List Nat} : setWf (x :: t) = true ↔ (∀ y, t.head? = some y → x < y) ∧ setWf t = true := by
  cases t <;> simp [setWf]

theorem setWf_pairwise {t : List Nat} : setWf t = true ↔ t.Pairwise (· < ·) := by
  induction t with
  | nil => simp [setWf]
  | cons x t ih =>
    rw [setWf_cons, List.pairwise_cons, ih]
    constructor
    · rintro ⟨h, p⟩
      refine ⟨?_, p⟩
      cases t with
      | nil => simp
      | cons y t =>
        have hy := h y rfl
        intro z hz
        rcases List.mem_cons.mp hz with rfl | hz
        · exact hy
        · exact hy.trans ((List.pairwise_cons.mp p).1 z hz)
    · rintro ⟨h, p⟩
      exact ⟨fun y hy => h y (List.mem_of_mem_head? (by simp [hy])), p⟩

theorem mem_setIns {t : List Nat} {k x : Nat} : x ∈ setIns t k ↔ x = k ∨ x ∈ t := by
  induction t with
  | nil => simp [setIns]
  | cons y t ih =>
    unfold setIns
    split
    · simp
    · split
      · rename_i h; subst h; simp
      · simp [ih]; tauto

theorem mem_setDel {t : List Nat} {k x : Nat} : x ∈ setDel t k ↔ x ≠ k ∧ x ∈ t := by
  induction t with
  | nil => simp [setDel]
  | cons y t ih =>
    unfold setDel
    split
    · rename_i h; subst h; simp [ih]; tauto
    · rename_i h; simp [ih]; constructor
      · rintro (rfl | ⟨a, b⟩)
        · exact ⟨h, .inl rfl⟩
        · exact ⟨a, .inr b⟩
      · rintro ⟨a, rfl | b⟩
        · exact .inl rfl
        · exact .inr ⟨a, b⟩

/-- Insertion keeps a set strictly rising. -/
theorem setWf_ins {t : List Nat} (k : Nat) (h : setWf t = true) : setWf (setIns t k) = true := by
  rw [setWf_pairwise] at h ⊢
  induction t with
  | nil => simp [setIns]
  | cons y t ih =>
    have g := List.pairwise_cons.mp h
    unfold setIns
    split
    · rename_i l
      refine List.pairwise_cons.mpr ⟨fun z hz => ?_, h⟩
      rcases List.mem_cons.mp hz with rfl | hz
      · exact l
      · exact l.trans (g.1 z hz)
    · split
      · exact h
      · refine List.pairwise_cons.mpr ⟨fun z hz => ?_, ih g.2⟩
        rcases mem_setIns.mp hz with rfl | hz
        · omega
        · exact g.1 z hz

/-- Removal keeps a set strictly rising. -/
theorem setWf_del {t : List Nat} (k : Nat) (h : setWf t = true) : setWf (setDel t k) = true := by
  rw [setWf_pairwise] at h ⊢
  induction t with
  | nil => exact h
  | cons y t ih =>
    have g := List.pairwise_cons.mp h
    unfold setDel
    split
    · exact ih g.2
    · exact List.pairwise_cons.mpr ⟨fun z hz => g.1 z (mem_setDel.mp hz).2, ih g.2⟩

/-- A part of a strictly rising set is one. -/
theorem setWf_filter {t : List Nat} (p : Nat → Bool) (h : setWf t = true) : setWf (t.filter p) = true := by
  rw [setWf_pairwise] at h ⊢; exact h.filter p

end Sys2Proof
end

