-- ==== Sys2Proof/Laws/Keep.lean ====
section
/-!
SUPPORT. Two relations between the state before and the state after an operation, with what composes them: `Still`, the
queue of commands and the memory with its marks stand as they were; `Keeps`, the queue stands and the memory and its
marks stay in canonical form. The files Frame* say, for every operation of the model, which of the two holds.
-/
namespace Sys2Proof.Machine

/-- The queue of commands and the memory, with its marks, stand as they were. -/
structure Still (s t : State) : Prop where
  pending : t.pending = s.pending
  mem : t.mem = s.mem
  scratch : t.scratch = s.scratch
  poison : t.poison = s.poison

/-- The queue of commands stands, and the memory and its marks stay in canonical form. -/
structure Keeps (s t : State) : Prop where
  pending : t.pending = s.pending
  mem : Memory.wf s → Memory.wf t
  poison : Poison.wf s → Poison.wf t

theorem Still.refl (s : State) : Still s s := ⟨rfl, rfl, rfl, rfl⟩
theorem Keeps.refl (s : State) : Keeps s s := ⟨rfl, id, id⟩
theorem Still.trans {a b c : State} (h : Still a b) (k : Still b c) : Still a c :=
  ⟨k.1.trans h.1, k.2.trans h.2, k.3.trans h.3, k.4.trans h.4⟩
theorem Keeps.trans {a b c : State} (h : Keeps a b) (k : Keeps b c) : Keeps a c :=
  ⟨k.1.trans h.1, fun x => k.2 (h.2 x), fun x => k.3 (h.3 x)⟩
theorem Still.keeps {a b : State} (h : Still a b) : Keeps a b :=
  ⟨h.1, fun x => by unfold Memory.wf at *; rw [h.2, h.3]; exact x, fun x => by unfold Poison.wf at *; rw [h.4]; exact x⟩
theorem Keeps.still {a b c : State} (h : Keeps a b) (k : Still b c) : Keeps a c := h.trans k.keeps

/-! What a relation to a starting state says of a result that holds a state. -/
def OkP {ε : Type} (P : State → Prop) : Except ε State → Prop
  | .ok t => P t
  | .error _ => True
def OkP2 {ε α : Type} (P : State → Prop) : Except ε (α × State) → Prop
  | .ok (_, t) => P t
  | .error _ => True
def SomeP (P : State → Prop) : Option State → Prop
  | some t => P t
  | none => True
def SomeP2 {α : Type} (P : State → Prop) : Option (α × State) → Prop
  | some (_, t) => P t
  | none => True
def NextP (P : State → Prop) : Host.Outcome State Fault Refusal → Prop
  | .next t => P t
  | _ => True

theorem OkP.mono {ε : Type} {P Q : State → Prop} {r : Except ε State} (m : ∀ t, P t → Q t) (h : OkP P r) : OkP Q r := by
  cases r <;> simp_all [OkP]
theorem OkP2.mono {ε α : Type} {P Q : State → Prop} {r : Except ε (α × State)} (m : ∀ t, P t → Q t) (h : OkP2 P r) :
    OkP2 Q r := by rcases r with _ | ⟨_, _⟩ <;> simp_all [OkP2]
theorem SomeP.mono {P Q : State → Prop} {r : Option State} (m : ∀ t, P t → Q t) (h : SomeP P r) : SomeP Q r := by
  cases r <;> simp_all [SomeP]
theorem SomeP2.mono {α : Type} {P Q : State → Prop} {r : Option (α × State)} (m : ∀ t, P t → Q t) (h : SomeP2 P r) :
    SomeP2 Q r := by rcases r with _ | ⟨_, _⟩ <;> simp_all [SomeP2]

section
variable {s0 : State}
theorem Keeps.okS {ε : Type} {s : State} {r : Except ε State} (h : Keeps s0 s) (k : OkP (Still s) r) : OkP (Keeps s0) r :=
  k.mono fun _ x => h.still x
theorem Keeps.ok2S {ε α : Type} {s : State} {r : Except ε (α × State)} (h : Keeps s0 s) (k : OkP2 (Still s) r) :
    OkP2 (Keeps s0) r := k.mono fun _ x => h.still x
theorem Keeps.someS {s : State} {r : Option State} (h : Keeps s0 s) (k : SomeP (Still s) r) : SomeP (Keeps s0) r :=
  k.mono fun _ x => h.still x
theorem Keeps.some2S {α : Type} {s : State} {r : Option (α × State)} (h : Keeps s0 s) (k : SomeP2 (Still s) r) :
    SomeP2 (Keeps s0) r := k.mono fun _ x => h.still x
end


section
variable {s0 : State}
theorem Still.pairR {α : Type} {r : α × State} {a : α} {t : State} (e : r = (a, t)) (h : Still s0 r.2) : Still s0 t := by
  subst e; exact h
theorem Still.pairL {α : Type} {r : State × α} {a : α} {t : State} (e : r = (t, a)) (h : Still s0 r.1) : Still s0 t := by
  subst e; exact h
theorem Still.pair3 {α β : Type} {r : α × β × State} {a : α} {b : β} {t : State} (e : r = (a, b, t))
    (h : Still s0 r.2.2) : Still s0 t := by subst e; exact h
theorem Still.pairC {α : Type} {r : ChainRun × α} {a : α} {v : ChainRun} (e : r = (v, a)) (h : Still s0 r.1.s) :
    Still s0 v.s := by subst e; exact h
theorem Still.fold {α : Type} {f : State → α → State} {l : List α} {s : State} (h : Still s0 s)
    (hf : ∀ t a, Still s0 t → Still s0 (f t a)) : Still s0 (l.foldl f s) := by
  induction l generalizing s with
  | nil => exact h
  | cons a l ih => exact ih (hf s a h)
theorem Still.foldR {α β : Type} {f : β × State → α → β × State} {l : List α} {s : β × State} (h : Still s0 s.2)
    (hf : ∀ t a, Still s0 t.2 → Still s0 (f t a).2) : Still s0 (l.foldl f s).2 := by
  induction l generalizing s with
  | nil => exact h
  | cons a l ih => exact ih (hf s a h)
theorem Still.foldL {α β : Type} {f : State × β → α → State × β} {l : List α} {s : State × β} (h : Still s0 s.1)
    (hf : ∀ t a, Still s0 t.1 → Still s0 (f t a).1) : Still s0 (l.foldl f s).1 := by
  induction l generalizing s with
  | nil => exact h
  | cons a l ih => exact ih (hf s a h)
theorem Still.foldRun {α : Type} {f : ChainRun → α → ChainRun} {l : List α} {o : ChainRun} (h : Still s0 o.s)
    (hf : ∀ t a, Still s0 t.s → Still s0 (f t a).s) : Still s0 (l.foldl f o).s := by
  induction l generalizing o with
  | nil => exact h
  | cons a l ih => exact ih (hf o a h)
theorem Still.foldOut {α : Type} {f : PhaseOut → α → PhaseOut} {l : List α} {o : PhaseOut} (h : Still s0 o.s)
    (hf : ∀ t a, Still s0 t.s → Still s0 (f t a).s) : Still s0 (l.foldl f o).s := by
  induction l generalizing o with
  | nil => exact h
  | cons a l ih => exact ih (hf o a h)
theorem Still.foldPre {α β : Type} {f : PhaseOut × β → α → PhaseOut × β} {l : List α} {o : PhaseOut × β}
    (h : Still s0 o.1.s) (hf : ∀ t a, Still s0 t.1.s → Still s0 (f t a).1.s) : Still s0 (l.foldl f o).1.s := by
  induction l generalizing o with
  | nil => exact h
  | cons a l ih => exact ih (hf o a h)
theorem Still.ofOk {ε : Type} {r : Except ε State} {t : State} (e : r = .ok t) (h : OkP (Still s0) r) : Still s0 t := by
  subst e; exact h
theorem Still.ofOk2 {ε α : Type} {r : Except ε (α × State)} {a : α} {t : State} (e : r = .ok (a, t))
    (h : OkP2 (Still s0) r) : Still s0 t := by subst e; exact h
theorem Still.ofSome {r : Option State} {t : State} (e : r = some t) (h : SomeP (Still s0) r) : Still s0 t := by
  subst e; exact h
theorem Still.ofSome2 {α : Type} {r : Option (α × State)} {a : α} {t : State} (e : r = some (a, t))
    (h : SomeP2 (Still s0) r) : Still s0 t := by subst e; exact h
theorem Still.next {t : State} (h : Still s0 t) : NextP (Still s0) (.next t) := h
theorem Still.ok {ε : Type} {t : State} (h : Still s0 t) : OkP (Still s0) (Except.ok t : Except ε State) := h
theorem Still.ok2 {ε α : Type} {a : α} {t : State} (h : Still s0 t) : OkP2 (Still s0) (Except.ok (a, t) : Except ε _) := h
theorem Still.some {t : State} (h : Still s0 t) : SomeP (Still s0) (some t) := h
theorem Still.some2 {α : Type} {a : α} {t : State} (h : Still s0 t) : SomeP2 (Still s0) (Option.some (a, t)) := h
theorem Still.error {ε : Type} {e : ε} : OkP (Still s0) (Except.error e) := trivial
theorem Still.error2 {ε α : Type} {e : ε} : OkP2 (Still s0) (Except.error e : Except ε (α × State)) := trivial
theorem Still.none : SomeP (Still s0) Option.none := trivial
theorem Still.none2 {α : Type} : SomeP2 (Still s0) (Option.none : Option (α × State)) := trivial
end

section
variable {s0 : State}
theorem Keeps.pairR {α : Type} {r : α × State} {a : α} {t : State} (e : r = (a, t)) (h : Keeps s0 r.2) : Keeps s0 t := by
  subst e; exact h
theorem Keeps.pairL {α : Type} {r : State × α} {a : α} {t : State} (e : r = (t, a)) (h : Keeps s0 r.1) : Keeps s0 t := by
  subst e; exact h
theorem Keeps.pair3 {α β : Type} {r : α × β × State} {a : α} {b : β} {t : State} (e : r = (a, b, t))
    (h : Keeps s0 r.2.2) : Keeps s0 t := by subst e; exact h
theorem Keeps.pairC {α : Type} {r : ChainRun × α} {a : α} {v : ChainRun} (e : r = (v, a)) (h : Keeps s0 r.1.s) :
    Keeps s0 v.s := by subst e; exact h
theorem Keeps.fold {α : Type} {f : State → α → State} {l : List α} {s : State} (h : Keeps s0 s)
    (hf : ∀ t a, Keeps s0 t → Keeps s0 (f t a)) : Keeps s0 (l.foldl f s) := by
  induction l generalizing s with
  | nil => exact h
  | cons a l ih => exact ih (hf s a h)
theorem Keeps.foldR {α β : Type} {f : β × State → α → β × State} {l : List α} {s : β × State} (h : Keeps s0 s.2)
    (hf : ∀ t a, Keeps s0 t.2 → Keeps s0 (f t a).2) : Keeps s0 (l.foldl f s).2 := by
  induction l generalizing s with
  | nil => exact h
  | cons a l ih => exact ih (hf s a h)
theorem Keeps.foldL {α β : Type} {f : State × β → α → State × β} {l : List α} {s : State × β} (h : Keeps s0 s.1)
    (hf : ∀ t a, Keeps s0 t.1 → Keeps s0 (f t a).1) : Keeps s0 (l.foldl f s).1 := by
  induction l generalizing s with
  | nil => exact h
  | cons a l ih => exact ih (hf s a h)
theorem Keeps.foldRun {α : Type} {f : ChainRun → α → ChainRun} {l : List α} {o : ChainRun} (h : Keeps s0 o.s)
    (hf : ∀ t a, Keeps s0 t.s → Keeps s0 (f t a).s) : Keeps s0 (l.foldl f o).s := by
  induction l generalizing o with
  | nil => exact h
  | cons a l ih => exact ih (hf o a h)
theorem Keeps.foldOut {α : Type} {f : PhaseOut → α → PhaseOut} {l : List α} {o : PhaseOut} (h : Keeps s0 o.s)
    (hf : ∀ t a, Keeps s0 t.s → Keeps s0 (f t a).s) : Keeps s0 (l.foldl f o).s := by
  induction l generalizing o with
  | nil => exact h
  | cons a l ih => exact ih (hf o a h)
theorem Keeps.foldPre {α β : Type} {f : PhaseOut × β → α → PhaseOut × β} {l : List α} {o : PhaseOut × β}
    (h : Keeps s0 o.1.s) (hf : ∀ t a, Keeps s0 t.1.s → Keeps s0 (f t a).1.s) : Keeps s0 (l.foldl f o).1.s := by
  induction l generalizing o with
  | nil => exact h
  | cons a l ih => exact ih (hf o a h)
theorem Keeps.ofOk {ε : Type} {r : Except ε State} {t : State} (e : r = .ok t) (h : OkP (Keeps s0) r) : Keeps s0 t := by
  subst e; exact h
theorem Keeps.ofOk2 {ε α : Type} {r : Except ε (α × State)} {a : α} {t : State} (e : r = .ok (a, t))
    (h : OkP2 (Keeps s0) r) : Keeps s0 t := by subst e; exact h
theorem Keeps.ofSome {r : Option State} {t : State} (e : r = some t) (h : SomeP (Keeps s0) r) : Keeps s0 t := by
  subst e; exact h
theorem Keeps.ofSome2 {α : Type} {r : Option (α × State)} {a : α} {t : State} (e : r = some (a, t))
    (h : SomeP2 (Keeps s0) r) : Keeps s0 t := by subst e; exact h
theorem Keeps.next {t : State} (h : Keeps s0 t) : NextP (Keeps s0) (.next t) := h
theorem Keeps.ok {ε : Type} {t : State} (h : Keeps s0 t) : OkP (Keeps s0) (Except.ok t : Except ε State) := h
theorem Keeps.ok2 {ε α : Type} {a : α} {t : State} (h : Keeps s0 t) : OkP2 (Keeps s0) (Except.ok (a, t) : Except ε _) := h
theorem Keeps.some {t : State} (h : Keeps s0 t) : SomeP (Keeps s0) (some t) := h
theorem Keeps.some2 {α : Type} {a : α} {t : State} (h : Keeps s0 t) : SomeP2 (Keeps s0) (Option.some (a, t)) := h
theorem Keeps.error {ε : Type} {e : ε} : OkP (Keeps s0) (Except.error e) := trivial
theorem Keeps.error2 {ε α : Type} {e : ε} : OkP2 (Keeps s0) (Except.error e : Except ε (α × State)) := trivial
theorem Keeps.none : SomeP (Keeps s0) Option.none := trivial
theorem Keeps.none2 {α : Type} : SomeP2 (Keeps s0) (Option.none : Option (α × State)) := trivial
end
theorem Still.lit {s0 s : State} {freeN : Nat} {uid : Nat} {layout : Layout} {clk : Clock} {pwr : Power} {pins :
    Pins} {mod : Module} {log : ModuleLog} {fuse : Fuses} {flash : Flash} {sec : Security} {doe : Spdm} {mctp :
    Spdm} {msix : Tbl MsixEntry} {msixPend : List Nat} {msixSent : List Nat} {sizes : Tbl SizeTable} {queues : Tbl
    Queue} {qwork : Tbl QueueWork} {parts : Tbl Part} {tiles : Tbl Tile} {hbmStacks : Tbl Stack} {ports : Tbl Port}
    {links : Tbl Link} {lanes : Tbl Lane} {objs : Tbl Obj} {mismatch : Tbl (BitVec 32)} {banks : Tbl Bank} {trace :
    Tbl TraceBuf} {sel : Select} {dbg : Debug} {work : Work} {hostOut : List HostWrite} {out : List Response} (h :
    Still s0 s) : Still s0 (State.mk s.pending freeN uid layout clk pwr pins mod log fuse flash sec doe mctp msix
    msixPend msixSent sizes queues qwork parts tiles hbmStacks ports links lanes objs mismatch banks trace sel dbg
    work s.mem s.scratch s.poison hostOut out) := ⟨h.1, h.2, h.3, h.4⟩
theorem Keeps.lit {s0 s : State} {freeN : Nat} {uid : Nat} {layout : Layout} {clk : Clock} {pwr : Power} {pins :
    Pins} {mod : Module} {log : ModuleLog} {fuse : Fuses} {flash : Flash} {sec : Security} {doe : Spdm} {mctp :
    Spdm} {msix : Tbl MsixEntry} {msixPend : List Nat} {msixSent : List Nat} {sizes : Tbl SizeTable} {queues : Tbl
    Queue} {qwork : Tbl QueueWork} {parts : Tbl Part} {tiles : Tbl Tile} {hbmStacks : Tbl Stack} {ports : Tbl Port}
    {links : Tbl Link} {lanes : Tbl Lane} {objs : Tbl Obj} {mismatch : Tbl (BitVec 32)} {banks : Tbl Bank} {trace :
    Tbl TraceBuf} {sel : Select} {dbg : Debug} {work : Work} {hostOut : List HostWrite} {out : List Response} (h :
    Keeps s0 s) : Keeps s0 (State.mk s.pending freeN uid layout clk pwr pins mod log fuse flash sec doe mctp msix
    msixPend msixSent sizes queues qwork parts tiles hbmStacks ports links lanes objs mismatch banks trace sel dbg
    work s.mem s.scratch s.poison hostOut out) := ⟨h.1, h.2, h.3⟩

/-! ### The operations that change memory or its marks -/

/-- A store writes each cell and leaves the canonical form. -/
theorem Memory.wf_cells {d : Nat → Byte} (cells : List Cell) {m : Tbl Byte} (h : Tbl.wfBy d none m = true) :
    Tbl.wfBy d none (cells.foldl (fun m c => Tbl.set (d c.1) m c.1 c.2.1) m) = true := by
  induction cells generalizing m with
  | nil => exact h
  | cons c cells ih => exact ih (Tbl.wfBy_set c.1 c.2.1 h)

theorem setWf_putMark (sc : Tbl Nat) (u : Nat) (m : Bool) {ps : List Nat} (h : setWf ps = true) :
    setWf (putMark sc ps u m) = true := by
  unfold putMark; split
  · exact setWf_del u h
  · exact setWf_ins u h

theorem Poison.wf_units (sc : Tbl Nat) (f : Nat → Bool) (us : List Nat) {ps : List Nat} (h : setWf ps = true) :
    setWf (us.foldl (fun ps u => putMark sc ps u (f u)) ps) = true := by
  induction us generalizing ps with
  | nil => exact h
  | cons u us ih => exact ih (setWf_putMark sc u (f u) h)

theorem State.store_keeps {s0 s : State} {cells : List Cell} (h_ : Keeps s0 s) : Keeps s0 (s.store cells) :=
  h_.trans ⟨rfl, fun h => Memory.wf_cells (d := blank s.scratch) cells h,
    fun h => Poison.wf_units s.scratch (fun u => markAfter cells u (s.marked (64 * u))) _ h⟩

theorem State.clearSram_keeps {s0 s : State} (h_ : Keeps s0 s) : Keeps s0 s.clearSram := by
  refine h_.trans ⟨rfl, fun h => Tbl.wfBy_keep (d := blank s.scratch) (fun k hk => ?_) h, fun h => setWf_filter _ h⟩
  have : k < tileRegion := of_decide_eq_true hk
  simp [blank, this]

theorem State.loseHbm_keeps {s0 s : State} (h_ : Keeps s0 s) : Keeps s0 s.loseHbm :=
  h_.trans ⟨rfl, fun h => Tbl.wfBy_keep (fun _ _ => rfl) h, fun h => setWf_filter _ h⟩

theorem State.setMark_keeps {s0 s : State} {u : Nat} {m : Bool} (h_ : Keeps s0 s) : Keeps s0 (s.setMark u m) :=
  h_.trans ⟨rfl, fun h => h, fun h => setWf_putMark _ u m h⟩

theorem State.markKeys_keeps {s0 s : State} {ks : List Nat} (h_ : Keeps s0 s) : Keeps s0 (s.markKeys ks) :=
  h_.fold fun _ _ h => State.setMark_keeps h

/-- A tile whose scratch is left reads its unlisted bytes as free values: none of them is listed. -/
theorem State.loseScratch_keeps {s0 s : State} {t : Nat} (h_ : Keeps s0 s) : Keeps s0 (s.loseScratch t) := by
  refine h_.trans ⟨rfl, fun h => Tbl.wfBy_keep (d := blank s.scratch) (fun k hk => ?_) h, fun h => setWf_filter _ h⟩
  simp only [blank]
  split
  · rfl
  · rename_i hr
    have : keyTile k ≠ t := by
      intro e
      have a : tileRegion ≤ k := by omega
      have b : k < stagingRegion := by omega
      simp [e, a, b] at hk
    show _ = match Tbl.get 0 s.scratch (keyTile k) with | 0 => _ | n + 1 => _
    have e : (s.loseScratch t).scratch = Tbl.put s.scratch t (s.freeN + 1) := rfl
    rw [e, Tbl.get_put_other 0 s.scratch _ this]
    all_goals rfl

/-- What a byte outside the cells stored to reads as is what it read as before. -/
theorem State.rd_store_other {s : State} {cells : List Cell} {k : Nat} (h : ∀ c ∈ cells, c.1 ≠ k) :
    (s.store cells).rd k = s.rd k := by
  have g (m : Tbl Byte) : Tbl.get (blank s.scratch k)
      (cells.foldl (fun m c => Tbl.set (blank s.scratch c.1) m c.1 c.2.1) m) k = Tbl.get (blank s.scratch k) m k := by
    induction cells generalizing m with
    | nil => rfl
    | cons c cells ih =>
      rw [List.foldl_cons, ih (fun c hc => h c (List.mem_cons_of_mem _ hc))]
      exact Tbl.get_set_other _ _ _ _ (Ne.symm (h c List.mem_cons_self))
  exact g s.mem

/-- The last cell stored to a byte is what it reads as. -/
theorem State.rd_store_last {s : State} {cells rest : List Cell} {c : Cell} (h : ∀ x ∈ rest, x.1 ≠ c.1) :
    (s.store (cells ++ c :: rest)).rd c.1 = c.2.1 := by
  have g (m : Tbl Byte) : Tbl.get (blank s.scratch c.1)
      (rest.foldl (fun m c => Tbl.set (blank s.scratch c.1) m c.1 c.2.1) m) c.1 =
      Tbl.get (blank s.scratch c.1) m c.1 := by
    induction rest generalizing m with
    | nil => rfl
    | cons x rest ih =>
      rw [List.foldl_cons, ih (fun y hy => h y (List.mem_cons_of_mem _ hy))]
      exact Tbl.get_set_other _ _ _ _ (Ne.symm (h x List.mem_cons_self))
  show Tbl.get (blank s.scratch c.1) ((cells ++ c :: rest).foldl _ s.mem) c.1 = _
  rw [List.foldl_append, List.foldl_cons, g, Tbl.get_set_same]

end Sys2Proof.Machine
end

