-- ==== Sys2Proof/Laws/FrameQueues.lean ====
section
/-!
SUPPORT. What the operations of Machine/Ops.lean, Scopes.lean, Queues.lean, Routing.lean, Groups.lean do to the queue of commands and to memory.
-/
namespace Sys2Proof.Machine
open Sys2Proof

/-! ### Machine/Ops.lean -/

theorem State.modTrace_still {s0 s : State} {k : ℕ} {f : TraceBuf → TraceBuf} (h_ : Still s0 s) : Still s0
    (State.modTrace s k f) := by
  unfold State.modTrace
  with_reducible repeat'
    first
      | assumption | apply Still.lit

theorem State.modTrace_keeps {s0 s : State} {k : ℕ} {f : TraceBuf → TraceBuf} (h_ : Keeps s0 s) : Keeps s0
    (State.modTrace s k f) :=
  h_.still (State.modTrace_still (Still.refl _))

theorem State.modPart_still {s0 s : State} {p : ℕ} {f : Part → Part} (h_ : Still s0 s) : Still s0 (State.modPart s p
    f) := by
  unfold State.modPart
  with_reducible repeat'
    first
      | assumption | apply Still.lit

theorem State.modPart_keeps {s0 s : State} {p : ℕ} {f : Part → Part} (h_ : Keeps s0 s) : Keeps s0 (State.modPart s p
    f) :=
  h_.still (State.modPart_still (Still.refl _))

theorem State.wrAt_keeps {s0 s : State} {p a : ℕ} {bs : List Byte} {mark : optParam Bool false} (h_ : Keeps s0 s) :
    Keeps s0 (State.wrAt s p a bs mark) := by
  unfold State.wrAt
  with_reducible repeat'
    first
      | assumption | apply State.store_keeps

theorem State.modClk_still {s0 s : State} {f : Clock → Clock} (h_ : Still s0 s) : Still s0 (State.modClk s f) := by
  unfold State.modClk
  with_reducible repeat'
    first
      | assumption | apply Still.lit

theorem State.modWork_still {s0 s : State} {f : Work → Work} (h_ : Still s0 s) : Still s0 (State.modWork s f) := by
  unfold State.modWork
  with_reducible repeat'
    first
      | assumption | apply Still.lit

theorem State.modWork_keeps {s0 s : State} {f : Work → Work} (h_ : Keeps s0 s) : Keeps s0 (State.modWork s f) :=
  h_.still (State.modWork_still (Still.refl _))

theorem State.advance_still {s0 s : State} {n : ℕ} (h_ : Still s0 s) : Still s0 (State.advance s n) := by
  unfold State.advance
  with_reducible repeat'
    first
      | assumption | fail_if_no_progress extract_lets | apply State.modClk_still | apply State.modWork_still | split

theorem State.modQw_still {s0 s : State} {q : ℕ} {f : QueueWork → QueueWork} (h_ : Still s0 s) : Still s0 (State.modQw
    s q f) := by
  unfold State.modQw
  with_reducible repeat'
    first
      | assumption | apply Still.lit

theorem State.modQw_keeps {s0 s : State} {q : ℕ} {f : QueueWork → QueueWork} (h_ : Keeps s0 s) : Keeps s0 (State.modQw
    s q f) :=
  h_.still (State.modQw_still (Still.refl _))

theorem State.modBank_still {s0 s : State} {b : ℕ} {f : Bank → Bank} (h_ : Still s0 s) : Still s0 (State.modBank s b
    f) := by
  unfold State.modBank
  with_reducible repeat'
    first
      | assumption | apply Still.lit

theorem State.modBank_keeps {s0 s : State} {b : ℕ} {f : Bank → Bank} (h_ : Keeps s0 s) : Keeps s0 (State.modBank s b
    f) :=
  h_.still (State.modBank_still (Still.refl _))

theorem State.tally_still {s0 s : State} {b : ℕ} (h_ : Still s0 s) : Still s0 (State.tally s b) := by
  unfold State.tally
  with_reducible repeat'
    first
      | assumption | fail_if_no_progress extract_lets | apply State.modBank_still | apply Still.fold
      | apply Still.foldR | apply Still.foldL | apply Still.foldRun | apply Still.foldOut | apply Still.foldPre
      | apply Still.next | apply Still.ok | apply Still.error | apply Still.ok2 | apply Still.error2
      | apply Still.some | apply Still.none | apply Still.some2 | apply Still.none2 | (intro _) | split
      | refine Still.pairR (by assumption) ?_ | refine Still.pairL (by assumption) ?_
      | refine Still.pair3 (by assumption) ?_ | refine Still.ofOk (by assumption) ?_
      | refine Still.ofOk2 (by assumption) ?_ | refine Still.ofSome (by assumption) ?_
      | refine Still.ofSome2 (by assumption) ?_ | dsimp -zeta only | dsimp -zeta +zetaDelta only

theorem State.tally_keeps {s0 s : State} {b : ℕ} (h_ : Keeps s0 s) : Keeps s0 (State.tally s b) :=
  h_.still (State.tally_still (Still.refl _))

theorem State.setObj_still {s0 s : State} {o : ℕ} {v : Obj} (h_ : Still s0 s) : Still s0 (State.setObj s o v) := by
  unfold State.setObj
  with_reducible repeat'
    first
      | assumption | apply Still.lit

theorem State.setObj_keeps {s0 s : State} {o : ℕ} {v : Obj} (h_ : Keeps s0 s) : Keeps s0 (State.setObj s o v) :=
  h_.still (State.setObj_still (Still.refl _))

theorem State.modQueue_still {s0 s : State} {q : ℕ} {f : Queue → Queue} (h_ : Still s0 s) : Still s0 (State.modQueue s
    q f) := by
  unfold State.modQueue
  with_reducible repeat'
    first
      | assumption | apply Still.lit

theorem State.modQueue_keeps {s0 s : State} {q : ℕ} {f : Queue → Queue} (h_ : Keeps s0 s) : Keeps s0 (State.modQueue s
    q f) :=
  h_.still (State.modQueue_still (Still.refl _))

theorem State.fresh_still {s0 s : State} (h_ : Still s0 s) : Still s0 (State.fresh s).2 := by
  unfold State.fresh
  with_reducible repeat'
    first
      | assumption | apply Still.lit

theorem State.reply_still {s0 s : State} {r : Response} (h_ : Still s0 s) : Still s0 (State.reply s r) := by
  unfold State.reply
  with_reducible repeat'
    first
      | assumption | apply Still.lit

theorem State.modMod_still {s0 s : State} {f : Module → Module} (h_ : Still s0 s) : Still s0 (State.modMod s f) := by
  unfold State.modMod
  with_reducible repeat'
    first
      | assumption | apply Still.lit

theorem State.modMod_keeps {s0 s : State} {f : Module → Module} (h_ : Keeps s0 s) : Keeps s0 (State.modMod s f) :=
  h_.still (State.modMod_still (Still.refl _))

theorem State.raise_still {s0 s : State} {v : ℕ} (h_ : Still s0 s) : Still s0 (State.raise s v) := by
  unfold State.raise
  with_reducible repeat'
    first
      | assumption | split | apply Still.lit

theorem State.raise_keeps {s0 s : State} {v : ℕ} (h_ : Keeps s0 s) : Keeps s0 (State.raise s v) :=
  h_.still (State.raise_still (Still.refl _))

theorem State.event_still {s0 s : State} {b : ℕ} (h_ : Still s0 s) : Still s0 (State.event s b) := by
  unfold State.event
  with_reducible repeat'
    first
      | assumption | apply State.modMod_still | apply State.raise_still | split

theorem State.event_keeps {s0 s : State} {b : ℕ} (h_ : Keeps s0 s) : Keeps s0 (State.event s b) :=
  h_.still (State.event_still (Still.refl _))

theorem State.cover_still {s0 s : State} {p : ℕ} {es : List ℕ} {n : ℕ} (h_ : Still s0 s) : Still s0 (State.cover s p
    es n) := by
  unfold State.cover
  with_reducible repeat'
    first
      | assumption | fail_if_no_progress extract_lets | apply State.modWork_still | (intro _) | split
      | dsimp -zeta only | dsimp -zeta +zetaDelta only

theorem State.cover_keeps {s0 s : State} {p : ℕ} {es : List ℕ} {n : ℕ} (h_ : Keeps s0 s) : Keeps s0 (State.cover s p
    es n) :=
  h_.still (State.cover_still (Still.refl _))

theorem State.modLink_still {s0 s : State} {i : ℕ} {f : Link → Link} (h_ : Still s0 s) : Still s0 (State.modLink s i
    f) := by
  unfold State.modLink
  with_reducible repeat'
    first
      | assumption | apply Still.lit

theorem State.modLink_keeps {s0 s : State} {i : ℕ} {f : Link → Link} (h_ : Keeps s0 s) : Keeps s0 (State.modLink s i
    f) :=
  h_.still (State.modLink_still (Still.refl _))

theorem State.modStack_still {s0 s : State} {k : ℕ} {f : Stack → Stack} (h_ : Still s0 s) : Still s0 (State.modStack s
    k f) := by
  unfold State.modStack
  with_reducible repeat'
    first
      | assumption | apply Still.lit

theorem State.modStack_keeps {s0 s : State} {k : ℕ} {f : Stack → Stack} (h_ : Keeps s0 s) : Keeps s0 (State.modStack s
    k f) :=
  h_.still (State.modStack_still (Still.refl _))

theorem State.traceEv_still {s0 s : State} {src unit ev cls payload : ℕ} (h_ : Still s0 s) : Still s0 (State.traceEv s
    src unit ev cls payload) := by
  unfold State.traceEv
  with_reducible repeat'
    first
      | assumption | fail_if_no_progress extract_lets | apply State.modTrace_still | split

theorem State.traceEv_keeps {s0 s : State} {src unit ev cls payload : ℕ} (h_ : Keeps s0 s) : Keeps s0 (State.traceEv s
    src unit ev cls payload) :=
  h_.still (State.traceEv_still (Still.refl _))

theorem State.traceCmd_still {s0 s : State} {q owner : ℕ} {srcs : List ℕ} {ev st : ℕ} (h_ : Still s0 s) : Still s0
    (State.traceCmd s q owner srcs ev st) := by
  unfold State.traceCmd
  with_reducible repeat'
    first
      | assumption | apply State.traceEv_still | apply Still.fold | (intro _)

theorem State.traceCmd_keeps {s0 s : State} {q owner : ℕ} {srcs : List ℕ} {ev st : ℕ} (h_ : Keeps s0 s) : Keeps s0
    (State.traceCmd s q owner srcs ev st) :=
  h_.still (State.traceCmd_still (Still.refl _))

theorem State.freeBytes_still {s0 s : State} {n : ℕ} (h_ : Still s0 s) : Still s0 (State.freeBytes s n).2 := by
  unfold State.freeBytes
  with_reducible repeat'
    first
      | assumption | apply Still.lit

theorem State.freeBytes_keeps {s0 s : State} {n : ℕ} (h_ : Keeps s0 s) : Keeps s0 (State.freeBytes s n).2 :=
  h_.still (State.freeBytes_still (Still.refl _))

theorem State.traceStall_still {s0 s : State} {src unit c n : ℕ} (h_ : Still s0 s) : Still s0 (State.traceStall s src
    unit c n) := by
  unfold State.traceStall
  with_reducible repeat'
    first
      | assumption | fail_if_no_progress extract_lets | apply State.modTrace_still | apply State.traceEv_still
      | (intro _) | split | dsimp -zeta only | dsimp -zeta +zetaDelta only

theorem State.count_still {s0 s : State} {b e c n : ℕ} (h_ : Still s0 s) : Still s0 (State.count s b e c n) := by
  unfold State.count
  with_reducible repeat'
    first
      | assumption | fail_if_no_progress extract_lets | apply State.modBank_still | apply State.traceStall_still
      | (intro _) | split | dsimp -zeta only | dsimp -zeta +zetaDelta only

theorem State.count_keeps {s0 s : State} {b e c n : ℕ} (h_ : Keeps s0 s) : Keeps s0 (State.count s b e c n) :=
  h_.still (State.count_still (Still.refl _))

theorem State.ambientFrom_still {s0 s : State} {ps : List ℕ} (h_ : Still s0 s) : Still s0 (State.ambientFrom s ps) :=
    by
  unfold State.ambientFrom
  with_reducible repeat'
    first
      | assumption | fail_if_no_progress extract_lets | apply State.modWork_still | (intro _) | split
      | dsimp -zeta only | dsimp -zeta +zetaDelta only

theorem State.resetBank_still {s0 s : State} {b : ℕ} (h_ : Still s0 s) : Still s0 (State.resetBank s b) := by
  unfold State.resetBank
  with_reducible repeat'
    first
      | assumption | fail_if_no_progress extract_lets | apply State.ambientFrom_still | apply State.modBank_still
      | apply State.modWork_still | apply State.tally_still | (intro _) | split | dsimp -zeta only
      | dsimp -zeta +zetaDelta only

theorem State.resetBank_keeps {s0 s : State} {b : ℕ} (h_ : Keeps s0 s) : Keeps s0 (State.resetBank s b) :=
  h_.still (State.resetBank_still (Still.refl _))

theorem State.untilRoot_still {s0 s : State} {r : ℕ} (h_ : Still s0 s) : Still s0 (State.untilRoot s r) := by
  unfold State.untilRoot
  with_reducible repeat'
    first
      | assumption | apply State.advance_still

theorem State.untilRoot_keeps {s0 s : State} {r : ℕ} (h_ : Keeps s0 s) : Keeps s0 (State.untilRoot s r) :=
  h_.still (State.untilRoot_still (Still.refl _))

theorem State.untilMclk_still {s0 s : State} {m : ℕ} (h_ : Still s0 s) : Still s0 (State.untilMclk s m) := by
  unfold State.untilMclk
  with_reducible repeat'
    first
      | assumption | apply State.untilRoot_still

theorem State.untilMclk_keeps {s0 s : State} {m : ℕ} (h_ : Keeps s0 s) : Keeps s0 (State.untilMclk s m) :=
  h_.still (State.untilMclk_still (Still.refl _))

theorem State.modTile_still {s0 s : State} {t : ℕ} {f : Tile → Tile} (h_ : Still s0 s) : Still s0 (State.modTile s t
    f) := by
  unfold State.modTile
  with_reducible repeat'
    first
      | assumption | apply Still.lit

theorem State.modTile_keeps {s0 s : State} {t : ℕ} {f : Tile → Tile} (h_ : Keeps s0 s) : Keeps s0 (State.modTile s t
    f) :=
  h_.still (State.modTile_still (Still.refl _))

theorem State.free_still {s0 s : State} (h_ : Still s0 s) : Still s0 (State.free s).2 := by
  unfold State.free
  with_reducible repeat'
    first
      | assumption | apply Still.lit

theorem State.free_keeps {s0 s : State} (h_ : Keeps s0 s) : Keeps s0 (State.free s).2 :=
  h_.still (State.free_still (Still.refl _))

theorem State.health_still {s0 s : State} {b : ℕ} {h : Health} (h_ : Still s0 s) : Still s0 (State.health s b h) := by
  unfold State.health
  with_reducible repeat'
    first
      | assumption | apply State.modBank_still

theorem State.health_keeps {s0 s : State} {b : ℕ} {h : Health} (h_ : Keeps s0 s) : Keeps s0 (State.health s b h) :=
  h_.still (State.health_still (Still.refl _))

theorem State.modLog_still {s0 s : State} {f : ModuleLog → ModuleLog} (h_ : Still s0 s) : Still s0 (State.modLog s f)
    := by
  unfold State.modLog
  with_reducible repeat'
    first
      | assumption | apply Still.lit

theorem State.modLog_keeps {s0 s : State} {f : ModuleLog → ModuleLog} (h_ : Keeps s0 s) : Keeps s0 (State.modLog s f)
    :=
  h_.still (State.modLog_still (Still.refl _))

theorem State.modArr_still {s0 s : State} {t a : ℕ} {f : MatArray → MatArray} (h_ : Still s0 s) : Still s0
    (State.modArr s t a f) := by
  unfold State.modArr
  with_reducible repeat'
    first
      | assumption | apply State.modTile_still

theorem State.modArr_keeps {s0 s : State} {t a : ℕ} {f : MatArray → MatArray} (h_ : Keeps s0 s) : Keeps s0
    (State.modArr s t a f) :=
  h_.still (State.modArr_still (Still.refl _))

theorem State.tracePoison_still {s0 s : State} {src unit kind x : ℕ} (h_ : Still s0 s) : Still s0 (State.tracePoison s
    src unit kind x) := by
  unfold State.tracePoison
  with_reducible repeat'
    first
      | assumption | fail_if_no_progress extract_lets | apply State.traceEv_still | (intro _) | split
      | dsimp -zeta only | dsimp -zeta +zetaDelta only

theorem State.tracePoison_keeps {s0 s : State} {src unit kind x : ℕ} (h_ : Keeps s0 s) : Keeps s0 (State.tracePoison s
    src unit kind x) :=
  h_.still (State.tracePoison_still (Still.refl _))

theorem State.modPort_still {s0 s : State} {i : ℕ} {f : Port → Port} (h_ : Still s0 s) : Still s0 (State.modPort s i
    f) := by
  unfold State.modPort
  with_reducible repeat'
    first
      | assumption | apply Still.lit

theorem State.modPort_keeps {s0 s : State} {i : ℕ} {f : Port → Port} (h_ : Keeps s0 s) : Keeps s0 (State.modPort s i
    f) :=
  h_.still (State.modPort_still (Still.refl _))

theorem State.modPair_still {s0 s : State} {t n : ℕ} {f : HalfPair → HalfPair} (h_ : Still s0 s) : Still s0
    (State.modPair s t n f) := by
  unfold State.modPair
  with_reducible repeat'
    first
      | assumption | apply State.modTile_still

theorem State.modCtx_still {s0 s : State} {t c : ℕ} {f : Ctx → Ctx} (h_ : Still s0 s) : Still s0 (State.modCtx s t c
    f) := by
  unfold State.modCtx
  with_reducible repeat'
    first
      | assumption | apply State.modTile_still

theorem State.modCtx_keeps {s0 s : State} {t c : ℕ} {f : Ctx → Ctx} (h_ : Keeps s0 s) : Keeps s0 (State.modCtx s t c
    f) :=
  h_.still (State.modCtx_still (Still.refl _))

theorem State.untilLive_still {s0 s : State} {l : ℕ} (h_ : Still s0 s) : Still s0 (State.untilLive s l) := by
  unfold State.untilLive
  with_reducible repeat'
    first
      | assumption | apply State.advance_still | split

theorem State.untilLive_keeps {s0 s : State} {l : ℕ} (h_ : Keeps s0 s) : Keeps s0 (State.untilLive s l) :=
  h_.still (State.untilLive_still (Still.refl _))

theorem State.modDbg_still {s0 s : State} {f : Debug → Debug} (h_ : Still s0 s) : Still s0 (State.modDbg s f) := by
  unfold State.modDbg
  with_reducible repeat'
    first
      | assumption | apply Still.lit

theorem State.modDbg_keeps {s0 s : State} {f : Debug → Debug} (h_ : Keeps s0 s) : Keeps s0 (State.modDbg s f) :=
  h_.still (State.modDbg_still (Still.refl _))

theorem State.hostErr_still {s0 s : State} {kind addr : ℕ} {q slot : optParam ℕ 0} (h_ : Still s0 s) : Still s0
    (State.hostErr s kind addr q slot) := by
  unfold State.hostErr
  with_reducible repeat'
    first
      | assumption | apply State.modLog_still

theorem State.hostErr_keeps {s0 s : State} {kind addr : ℕ} {q slot : optParam ℕ 0} (h_ : Keeps s0 s) : Keeps s0
    (State.hostErr s kind addr q slot) :=
  h_.still (State.hostErr_still (Still.refl _))

theorem State.modPwr_still {s0 s : State} {f : Power → Power} (h_ : Still s0 s) : Still s0 (State.modPwr s f) := by
  unfold State.modPwr
  with_reducible repeat'
    first
      | assumption | apply Still.lit

theorem State.modPwr_keeps {s0 s : State} {f : Power → Power} (h_ : Keeps s0 s) : Keeps s0 (State.modPwr s f) :=
  h_.still (State.modPwr_still (Still.refl _))

theorem State.modPins_still {s0 s : State} {f : Pins → Pins} (h_ : Still s0 s) : Still s0 (State.modPins s f) := by
  unfold State.modPins
  with_reducible repeat'
    first
      | assumption | apply Still.lit

theorem State.modPins_keeps {s0 s : State} {f : Pins → Pins} (h_ : Keeps s0 s) : Keeps s0 (State.modPins s f) :=
  h_.still (State.modPins_still (Still.refl _))

theorem State.modLane_still {s0 s : State} {i : ℕ} {f : Lane → Lane} (h_ : Still s0 s) : Still s0 (State.modLane s i
    f) := by
  unfold State.modLane
  with_reducible repeat'
    first
      | assumption | apply Still.lit

theorem State.modLane_keeps {s0 s : State} {i : ℕ} {f : Lane → Lane} (h_ : Keeps s0 s) : Keeps s0 (State.modLane s i
    f) :=
  h_.still (State.modLane_still (Still.refl _))

theorem State.modSec_still {s0 s : State} {f : Security → Security} (h_ : Still s0 s) : Still s0 (State.modSec s f) :=
    by
  unfold State.modSec
  with_reducible repeat'
    first
      | assumption | apply Still.lit

theorem State.hostErrOpen_still {s0 s : State} {kind : ℕ} (h_ : Still s0 s) : Still s0 (State.hostErrOpen s kind) :=
    by
  unfold State.hostErrOpen
  with_reducible repeat'
    first
      | assumption | apply State.free_still | apply State.hostErr_still

theorem State.hostErrOpen_keeps {s0 s : State} {kind : ℕ} (h_ : Keeps s0 s) : Keeps s0 (State.hostErrOpen s kind) :=
  h_.still (State.hostErrOpen_still (Still.refl _))

theorem State.setAmbient_still {s0 s : State} {v : BitVec 32} (h_ : Still s0 s) : Still s0 (State.setAmbient s v) :=
    by
  unfold State.setAmbient
  with_reducible repeat'
    first
      | assumption | fail_if_no_progress extract_lets | apply State.ambientFrom_still | apply State.modBank_still
      | apply Still.fold | apply Still.foldR | apply Still.foldL | apply Still.foldRun | apply Still.foldOut
      | apply Still.foldPre | apply Still.next | apply Still.ok | apply Still.error | apply Still.ok2
      | apply Still.error2 | apply Still.some | apply Still.none | apply Still.some2 | apply Still.none2 | (intro _)
      | split | refine Still.pairR (by assumption) ?_ | refine Still.pairL (by assumption) ?_
      | refine Still.pair3 (by assumption) ?_ | refine Still.ofOk (by assumption) ?_
      | refine Still.ofOk2 (by assumption) ?_ | refine Still.ofSome (by assumption) ?_
      | refine Still.ofSome2 (by assumption) ?_ | dsimp -zeta only | dsimp -zeta +zetaDelta only | apply Still.lit

theorem State.eccError_keeps {s0 s : State} {t off : ℕ} {bad : Bool} (h_ : Keeps s0 s) : Keeps s0 (State.eccError s t
    off bad) := by
  unfold State.eccError
  with_reducible repeat'
    first
      | assumption | fail_if_no_progress extract_lets | apply State.modTile_keeps | apply State.setMark_keeps
      | (intro _) | split | dsimp -zeta only | dsimp -zeta +zetaDelta only

theorem State.eccFound_keeps {s0 s : State} {t : ℕ} {e : EccFound} (h_ : Keeps s0 s) : Keeps s0 (State.eccFound s t e)
    := by
  unfold State.eccFound
  with_reducible repeat'
    first
      | assumption | fail_if_no_progress extract_lets | apply State.eccError_keeps | apply Keeps.fold
      | apply Keeps.foldR | apply Keeps.foldL | apply Keeps.foldRun | apply Keeps.foldOut | apply Keeps.foldPre
      | apply Keeps.next | apply Keeps.ok | apply Keeps.error | apply Keeps.ok2 | apply Keeps.error2
      | apply Keeps.some | apply Keeps.none | apply Keeps.some2 | apply Keeps.none2 | (intro _) | split
      | refine Keeps.pairR (by assumption) ?_ | refine Keeps.pairL (by assumption) ?_
      | refine Keeps.pair3 (by assumption) ?_ | refine Keeps.ofOk (by assumption) ?_
      | refine Keeps.ofOk2 (by assumption) ?_ | refine Keeps.ofSome (by assumption) ?_
      | refine Keeps.ofSome2 (by assumption) ?_ | dsimp -zeta only | dsimp -zeta +zetaDelta only

/-! ### Machine/Scopes.lean -/

theorem State.setScope_still {s0 s : State} {k : ℕ} {v : ScopeState} (h_ : Still s0 s) : Still s0 (State.setScope s k
    v) := by
  unfold State.setScope
  with_reducible repeat'
    first
      | assumption | apply State.modPwr_still

theorem State.beginExit_still {s0 s : State} {sc : Scope} (h_ : Still s0 s) : Still s0 (State.beginExit s sc) := by
  unfold State.beginExit
  with_reducible repeat'
    first
      | assumption | apply State.setScope_still

theorem State.countStay_still {s0 s : State} {sc : Scope} {v : ScopeState} (h_ : Still s0 s) : Still s0
    (State.countStay s sc v) := by
  unfold State.countStay
  with_reducible repeat'
    first
      | assumption | apply State.count_still | apply Still.fold | (intro _) | split

theorem State.napStacks_still {s0 s : State} {sc : Scope} {on : Bool} (h_ : Still s0 s) : Still s0 (State.napStacks s
    sc on) := by
  unfold State.napStacks
  with_reducible repeat'
    first
      | assumption | apply State.modStack_still | apply Still.fold | (intro _)

theorem State.tracePower_still {s0 s : State} {sc : Scope} {old new : ℕ} (h_ : Still s0 s) : Still s0
    (State.tracePower s sc old new) := by
  unfold State.tracePower
  with_reducible repeat'
    first
      | assumption | apply State.traceEv_still | apply Still.fold | (intro _)

theorem State.wakeComplete_still {s0 s : State} {sc : Scope} (h_ : Still s0 s) : Still s0 (State.wakeComplete s sc) :=
    by
  unfold State.wakeComplete
  with_reducible repeat'
    first
      | assumption | fail_if_no_progress extract_lets | apply State.countStay_still | apply State.napStacks_still
      | apply State.setScope_still | apply State.tracePower_still | apply State.untilRoot_still | split
      | dsimp -zeta +zetaDelta only

theorem State.wakeFor_still {s0 s : State} {scopes : List Scope} (h_ : Still s0 s) : Still s0 (State.wakeFor s scopes)
    := by
  unfold State.wakeFor
  with_reducible repeat'
    first
      | assumption | fail_if_no_progress extract_lets | apply State.beginExit_still | apply State.modPwr_still
      | apply State.wakeComplete_still | apply Still.fold | apply Still.foldR | apply Still.foldL
      | apply Still.foldRun | apply Still.foldOut | apply Still.foldPre | apply Still.next | apply Still.ok
      | apply Still.error | apply Still.ok2 | apply Still.error2 | apply Still.some | apply Still.none
      | apply Still.some2 | apply Still.none2 | (intro _) | split | refine Still.pairR (by assumption) ?_
      | refine Still.pairL (by assumption) ?_ | refine Still.pair3 (by assumption) ?_
      | refine Still.ofOk (by assumption) ?_ | refine Still.ofOk2 (by assumption) ?_
      | refine Still.ofSome (by assumption) ?_ | refine Still.ofSome2 (by assumption) ?_ | dsimp -zeta only
      | dsimp -zeta +zetaDelta only

theorem State.wakeAddr_still {s0 s : State} {a : ℕ} (h_ : Still s0 s) : Still s0 (State.wakeAddr s a) := by
  unfold State.wakeAddr
  with_reducible repeat'
    first
      | assumption | fail_if_no_progress extract_lets | apply State.wakeFor_still | (intro _) | split
      | dsimp -zeta only | dsimp -zeta +zetaDelta only

theorem State.wakeAddr_keeps {s0 s : State} {a : ℕ} (h_ : Keeps s0 s) : Keeps s0 (State.wakeAddr s a) :=
  h_.still (State.wakeAddr_still (Still.refl _))

theorem State.wakeCore_still {s0 s : State} {q : ℕ} (h_ : Still s0 s) : Still s0 (State.wakeCore s q) := by
  unfold State.wakeCore
  with_reducible repeat'
    first
      | assumption | fail_if_no_progress extract_lets | apply State.wakeFor_still | (intro _) | split
      | dsimp -zeta only | dsimp -zeta +zetaDelta only

/-! ### Machine/Queues.lean -/

theorem State.finishAt_still {s0 s : State} {q id stop : ℕ} {es : List Earned} {halt : optParam Bool false} (h_ :
    Still s0 s) : Still s0 (State.finishAt s q id stop es halt) := by
  unfold State.finishAt
  with_reducible repeat'
    first
      | assumption | apply State.modQw_still | apply State.tally_still | split

theorem State.finishAt_keeps {s0 s : State} {q id stop : ℕ} {es : List Earned} {halt : optParam Bool false} (h_ :
    Keeps s0 s) : Keeps s0 (State.finishAt s q id stop es halt) :=
  h_.still (State.finishAt_still (Still.refl _))

theorem State.finish_still {s0 s : State} {q id : ℕ} {es : List Earned} {halt : optParam Bool false} (h_ : Still s0 s)
    : Still s0 (State.finish s q id es halt) := by
  unfold State.finish
  with_reducible repeat'
    first
      | assumption | apply State.finishAt_still

theorem State.finish_keeps {s0 s : State} {q id : ℕ} {es : List Earned} {halt : optParam Bool false} (h_ : Keeps s0 s)
    : Keeps s0 (State.finish s q id es halt) :=
  h_.still (State.finish_still (Still.refl _))

theorem State.satisfy_still {s0 s : State} {w : Waiter} (h_ : Still s0 s) : Still s0 (State.satisfy s w) := by
  unfold State.satisfy
  with_reducible repeat'
    first
      | assumption | apply State.finish_still | apply State.modQw_still | apply State.modWork_still | split

theorem State.badSlot_still {s0 s : State} {q : ℕ} {b : List Byte} {n : ℕ} (h_ : Still s0 s) : Still s0 (State.badSlot
    s q b n) := by
  unfold State.badSlot
  with_reducible repeat'
    first
      | assumption | apply State.fresh_still | apply State.modQueue_still | apply State.modQw_still

theorem State.hostRead_still {s0 s : State} {addr bytes : ℕ} {use : ReadFor} (h_ : Still s0 s) : Still s0
    (State.hostRead s addr bytes use).2 := by
  unfold State.hostRead
  with_reducible repeat'
    first
      | assumption | apply State.modWork_still

theorem State.hostRead_keeps {s0 s : State} {addr bytes : ℕ} {use : ReadFor} (h_ : Keeps s0 s) : Keeps s0
    (State.hostRead s addr bytes use).2 :=
  h_.still (State.hostRead_still (Still.refl _))

theorem State.readSlots_still {s0 s : State} {q first n : ℕ} (h_ : Still s0 s) : Still s0 (State.readSlots s q first
    n) := by
  unfold State.readSlots
  with_reducible repeat'
    first
      | assumption | apply State.hostRead_still | apply State.modQw_still

theorem State.testList_still {s0 s : State} {obj : ℕ} {x2 : List Waiter} (h_ : Still s0 s) : Still s0 (State.testList
    s obj x2) := by
  induction x2 generalizing s with
  | nil => exact h_
  | cons _ _ ih =>
    unfold State.testList
    with_reducible repeat'
      first
        | assumption | apply ih | apply State.satisfy_still | apply State.setObj_still | split

theorem State.testWaiters_still {s0 s : State} {obj : ℕ} (h_ : Still s0 s) : Still s0 (State.testWaiters s obj) := by
  unfold State.testWaiters
  with_reducible repeat'
    first
      | assumption | apply State.testList_still

theorem State.syncOp_still {s0 s : State} {obj op v : ℕ} (h_ : Still s0 s) : Still s0 (State.syncOp s obj op v) := by
  unfold State.syncOp
  with_reducible repeat'
    first
      | assumption | apply State.modWork_still | apply State.setObj_still | apply State.testWaiters_still | split
      | apply Still.lit

theorem State.syncOp_keeps {s0 s : State} {obj op v : ℕ} (h_ : Keeps s0 s) : Keeps s0 (State.syncOp s obj op v) :=
  h_.still (State.syncOp_still (Still.refl _))

theorem State.beginWait_still {s0 s : State} {id obj : ℕ} {who : WaitFor} {c : WaitCond} (h_ : Still s0 s) : Still s0
    (State.beginWait s id obj who c) := by
  unfold State.beginWait
  with_reducible repeat'
    first
      | assumption | fail_if_no_progress extract_lets | apply State.modWork_still | apply State.satisfy_still
      | apply State.setObj_still | apply State.syncOp_still | split | dsimp -zeta +zetaDelta only

theorem State.endWaiting_still {s0 s : State} {q : ℕ} {e : Earned} (h_ : Still s0 s) : Still s0 (State.endWaiting s q
    e) := by
  unfold State.endWaiting
  with_reducible repeat'
    first
      | assumption | apply State.modQw_still | apply State.modWork_still | apply State.tally_still | split

theorem State.endWaiting_keeps {s0 s : State} {q : ℕ} {e : Earned} (h_ : Keeps s0 s) : Keeps s0 (State.endWaiting s q
    e) :=
  h_.still (State.endWaiting_still (Still.refl _))

theorem State.take_still {s0 s : State} {q : ℕ} {b : List Byte} (h_ : Still s0 s) : Still s0 (State.take s q b) := by
  unfold State.take
  with_reducible repeat'
    first
      | assumption | fail_if_no_progress extract_lets | apply State.beginWait_still | apply State.endWaiting_still
      | apply State.fresh_still | apply State.modQueue_still | apply State.modQw_still | split
      | refine Still.pairR (by assumption) ?_

theorem State.fetch1_still {s0 s : State} {q : ℕ} (h_ : Still s0 s) : Still s0 (State.fetch1 s q) := by
  unfold State.fetch1
  with_reducible repeat'
    first
      | assumption | fail_if_no_progress extract_lets | apply State.badSlot_still | apply State.modQw_still
      | apply State.readSlots_still | apply State.take_still | split

theorem State.pumpN_still {s0 s : State} {q x2 : ℕ} (h_ : Still s0 s) : Still s0 (State.pumpN s q x2) := by
  induction x2 generalizing s with
  | zero => exact h_
  | succ _ ih =>
    unfold State.pumpN
    with_reducible repeat'
      first
        | assumption | apply ih | fail_if_no_progress extract_lets | apply State.fetch1_still | split

theorem State.pump_still {s0 s : State} {q : ℕ} (h_ : Still s0 s) : Still s0 (State.pump s q) := by
  unfold State.pump
  with_reducible repeat'
    first
      | assumption | apply State.pumpN_still

theorem State.pump_keeps {s0 s : State} {q : ℕ} (h_ : Keeps s0 s) : Keeps s0 (State.pump s q) :=
  h_.still (State.pump_still (Still.refl _))

theorem State.startAt_still {s0 s : State} {q id stamp : ℕ} (h_ : Still s0 s) : Still s0 (State.startAt s q id stamp)
    := by
  unfold State.startAt
  with_reducible repeat'
    first
      | assumption | fail_if_no_progress extract_lets | apply State.modQw_still | apply State.resetBank_still | split

theorem State.startAt_keeps {s0 s : State} {q id stamp : ℕ} (h_ : Keeps s0 s) : Keeps s0 (State.startAt s q id stamp)
    :=
  h_.still (State.startAt_still (Still.refl _))

theorem State.earnOn_still {s0 s : State} {q id : ℕ} {e : Earned} (h_ : Still s0 s) : Still s0 (State.earnOn s q id e)
    := by
  unfold State.earnOn
  with_reducible repeat'
    first
      | assumption | apply State.modQw_still

theorem State.earnOn_keeps {s0 s : State} {q id : ℕ} {e : Earned} (h_ : Keeps s0 s) : Keeps s0 (State.earnOn s q id e)
    :=
  h_.still (State.earnOn_still (Still.refl _))

theorem State.wrPhys_keeps {s0 s : State} {a : ℕ} {bs : List Byte} {mark : optParam Bool false} (h_ : Keeps s0 s) :
    Keeps s0 (State.wrPhys s a bs mark) := by
  unfold State.wrPhys
  with_reducible repeat'
    first
      | assumption | apply State.store_keeps

theorem State.ringSnapshot_keeps {s0 s : State} {bank : ℕ} {sample : Bank} {mclk tag q : ℕ} (h_ : Keeps s0 s) : Keeps
    s0 (State.ringSnapshot s bank sample mclk tag q).1 := by
  unfold State.ringSnapshot
  with_reducible repeat'
    first
      | assumption | fail_if_no_progress extract_lets | apply State.modBank_keeps | apply State.wrPhys_keeps | split

theorem State.poisonOn_still {s0 s : State} {q id t : ℕ} (h_ : Still s0 s) : Still s0 (State.poisonOn s q id t) := by
  unfold State.poisonOn
  with_reducible repeat'
    first
      | assumption | apply State.modQw_still

theorem State.poisonOn_keeps {s0 s : State} {q id t : ℕ} (h_ : Keeps s0 s) : Keeps s0 (State.poisonOn s q id t) :=
  h_.still (State.poisonOn_still (Still.refl _))

theorem State.dispatch_still {s0 s : State} {q op : ℕ} {body : State → ℕ → List Byte → Except Earned State} (h_ :
    Still s0 s) (hf : ∀ t x1 x2, Still s0 t → OkP (Still s0) (body t x1 x2)) : Still s0 (State.dispatch s q op body)
    := by
  unfold State.dispatch
  with_reducible repeat'
    first
      | assumption | apply hf | fail_if_no_progress extract_lets | apply State.endWaiting_still
      | apply State.modQw_still | apply State.pump_still | split | refine Still.ofOk (by assumption) ?_

theorem State.dispatch_keeps {s0 s : State} {q op : ℕ} {body : State → ℕ → List Byte → Except Earned State} (h_ :
    Keeps s0 s) (hf : ∀ t x1 x2, Keeps s0 t → OkP (Keeps s0) (body t x1 x2)) : Keeps s0 (State.dispatch s q op body)
    := by
  unfold State.dispatch
  with_reducible repeat'
    first
      | assumption | apply hf | fail_if_no_progress extract_lets | apply State.endWaiting_keeps
      | apply State.modQw_keeps | apply State.pump_keeps | split | refine Keeps.ofOk (by assumption) ?_

theorem State.pumpAll_still {s0 s : State} (h_ : Still s0 s) : Still s0 (State.pumpAll s) := by
  unfold State.pumpAll
  with_reducible repeat'
    first
      | assumption | apply State.pump_still | apply Still.fold

theorem State.pumpAll_keeps {s0 s : State} (h_ : Keeps s0 s) : Keeps s0 (State.pumpAll s) :=
  h_.still (State.pumpAll_still (Still.refl _))

theorem State.atOnce_still {s0 s : State} {q id : ℕ} (h_ : Still s0 s) : Still s0 (State.atOnce s q id) := by
  unfold State.atOnce
  with_reducible repeat'
    first
      | assumption | apply State.finish_still | apply State.startAt_still

theorem State.atOnce_keeps {s0 s : State} {q id : ℕ} (h_ : Keeps s0 s) : Keeps s0 (State.atOnce s q id) :=
  h_.still (State.atOnce_still (Still.refl _))

/-! ### Machine/Routing.lean -/

theorem State.queueFrame_still {s0 s : State} {port : ℕ} {f : Frame} (h_ : Still s0 s) : Still s0 (State.queueFrame s
    port f) := by
  unfold State.queueFrame
  with_reducible repeat'
    first
      | assumption | apply State.modLink_still

theorem State.sendTxn_still {s0 s : State} {p : ℕ} {t : Txn} (h_ : Still s0 s) : OkP (Still s0) (State.sendTxn s p t)
    := by
  unfold State.sendTxn
  with_reducible repeat'
    first
      | assumption | fail_if_no_progress extract_lets | apply State.queueFrame_still | apply Still.ok
      | apply Still.error | split

theorem State.sendOr_still {s0 s : State} {p : ℕ} {t : Txn} (h_ : Still s0 s) : Still s0 (State.sendOr s p t) := by
  unfold State.sendOr
  with_reducible repeat'
    first
      | assumption | apply State.sendTxn_still | split | refine Still.ofOk (by assumption) ?_

theorem State.sendOr_keeps {s0 s : State} {p : ℕ} {t : Txn} (h_ : Keeps s0 s) : Keeps s0 (State.sendOr s p t) :=
  h_.still (State.sendOr_still (Still.refl _))

theorem State.nextTseq_still {s0 s : State} {p : ℕ} (h_ : Still s0 s) : Still s0 (State.nextTseq s p).2 := by
  unfold State.nextTseq
  with_reducible repeat'
    first
      | assumption | apply State.modPart_still

/-! ### Machine/Groups.lean -/

theorem State.onUpd_still {s0 s : State} {id : ℕ} {f : Update → Update} (h_ : Still s0 s) : Still s0 (State.onUpd s id
    f) := by
  unfold State.onUpd
  with_reducible repeat'
    first
      | assumption | apply State.modWork_still

theorem State.onUpd_keeps {s0 s : State} {id : ℕ} {f : Update → Update} (h_ : Keeps s0 s) : Keeps s0 (State.onUpd s id
    f) :=
  h_.still (State.onUpd_still (Still.refl _))

theorem State.onGroup_still {s0 s : State} {id index : ℕ} {f : GroupWork → GroupWork} (h_ : Still s0 s) : Still s0
    (State.onGroup s id index f) := by
  unfold State.onGroup
  with_reducible repeat'
    first
      | assumption | apply State.onUpd_still

theorem State.onGroup_keeps {s0 s : State} {id index : ℕ} {f : GroupWork → GroupWork} (h_ : Keeps s0 s) : Keeps s0
    (State.onGroup s id index f) :=
  h_.still (State.onGroup_still (Still.refl _))

theorem State.wrCells_keeps {s0 s : State} {p : ℕ} {l : List (ℕ × Byte × Bool)} (h_ : Keeps s0 s) : Keeps s0
    (State.wrCells s p l) := by
  unfold State.wrCells
  with_reducible repeat'
    first
      | assumption | fail_if_no_progress extract_lets | apply State.store_keeps | (intro _) | split | dsimp -zeta only
      | dsimp -zeta +zetaDelta only

theorem State.wrRecord_keeps {s0 s : State} {p a mask : ℕ} {rec : List Byte} (h_ : Keeps s0 s) : Keeps s0
    (State.wrRecord s p a mask rec) := by
  unfold State.wrRecord
  with_reducible repeat'
    first
      | assumption | fail_if_no_progress extract_lets | apply State.wrCells_keeps | (intro _) | split
      | dsimp -zeta only | dsimp -zeta +zetaDelta only

theorem State.ackGroup_keeps {s0 s : State} {u : Update} {g : GroupWork} (h_ : Keeps s0 s) : Keeps s0 (State.ackGroup
    s u g) := by
  unfold State.ackGroup
  with_reducible repeat'
    first
      | assumption | apply State.onGroup_keeps | apply State.wrRecord_keeps

theorem State.mirrorTxn_still {s0 s : State} {p group kind addr : ℕ} {data : List Byte} {poison : optParam ℕ 0} (h_ :
    Still s0 s) : Still s0 (State.mirrorTxn s p group kind addr data poison) := by
  unfold State.mirrorTxn
  with_reducible repeat'
    first
      | assumption | apply State.modPart_still | apply State.sendOr_still

theorem State.mirrorTxn_keeps {s0 s : State} {p group kind addr : ℕ} {data : List Byte} {poison : optParam ℕ 0} (h_ :
    Keeps s0 s) : Keeps s0 (State.mirrorTxn s p group kind addr data poison) :=
  h_.still (State.mirrorTxn_still (Still.refl _))

theorem State.mirrorBytes_still {s0 s : State} {p group kind a : ℕ} {bs : List Byte} {mark : ℕ → Bool} {x7 : ℕ} (h_ :
    Still s0 s) : Still s0 (State.mirrorBytes s p group kind a bs mark x7).2 := by
  induction x7 generalizing s a bs with
  | zero => exact h_
  | succ _ ih =>
    unfold State.mirrorBytes
    with_reducible repeat'
      first
        | assumption | apply ih | apply State.mirrorTxn_still | split

theorem State.mirrorBytes_keeps {s0 s : State} {p group kind a : ℕ} {bs : List Byte} {mark : ℕ → Bool} {x7 : ℕ} (h_ :
    Keeps s0 s) : Keeps s0 (State.mirrorBytes s p group kind a bs mark x7).2 :=
  h_.still (State.mirrorBytes_still (Still.refl _))

theorem State.scaleEnd_keeps {s0 s : State} {u : Update} (h_ : Keeps s0 s) : Keeps s0 (State.scaleEnd s u) := by
  unfold State.scaleEnd
  with_reducible repeat'
    first
      | assumption | apply State.mirrorBytes_keeps | apply State.mirrorTxn_keeps | apply State.onUpd_keeps
      | apply State.wrAt_keeps | split

theorem State.showGroup_still {s0 s : State} {p : ℕ} {g : Option ℕ} (h_ : Still s0 s) : Still s0 (State.showGroup s p
    g) := by
  unfold State.showGroup
  with_reducible repeat'
    first
      | assumption | apply State.modStack_still | apply Still.fold | (intro _)

theorem State.showGroup_keeps {s0 s : State} {p : ℕ} {g : Option ℕ} (h_ : Keeps s0 s) : Keeps s0 (State.showGroup s p
    g) :=
  h_.still (State.showGroup_still (Still.refl _))

theorem State.updateCheck_keeps {s0 s : State} {id : ℕ} (h_ : Keeps s0 s) : Keeps s0 (State.updateCheck s id) := by
  unfold State.updateCheck
  with_reducible repeat'
    first
      | assumption | fail_if_no_progress extract_lets | apply State.cover_keeps | apply State.finish_keeps
      | apply State.modWork_keeps | apply State.scaleEnd_keeps | apply State.showGroup_keeps
      | apply State.traceCmd_keeps | split | dsimp -zeta +zetaDelta only

theorem State.closeGroup_keeps {s0 s : State} {u : Update} {g : GroupWork} {rec : List Byte} (h_ : Keeps s0 s) : Keeps
    s0 (State.closeGroup s u g rec) := by
  unfold State.closeGroup
  with_reducible repeat'
    first
      | assumption | fail_if_no_progress extract_lets | apply State.mirrorBytes_keeps | apply State.mirrorTxn_keeps
      | apply State.onGroup_keeps | apply State.wrRecord_keeps | apply Keeps.fold | apply Keeps.foldR
      | apply Keeps.foldL | apply Keeps.foldRun | apply Keeps.foldOut | apply Keeps.foldPre | apply Keeps.next
      | apply Keeps.ok | apply Keeps.error | apply Keeps.ok2 | apply Keeps.error2 | apply Keeps.some
      | apply Keeps.none | apply Keeps.some2 | apply Keeps.none2 | (intro _) | split
      | refine Keeps.pairR (by assumption) ?_ | refine Keeps.pairL (by assumption) ?_
      | refine Keeps.pair3 (by assumption) ?_ | refine Keeps.ofOk (by assumption) ?_
      | refine Keeps.ofOk2 (by assumption) ?_ | refine Keeps.ofSome (by assumption) ?_
      | refine Keeps.ofSome2 (by assumption) ?_ | dsimp -zeta only | dsimp -zeta +zetaDelta only

theorem State.mirrorUnits_still {s0 s : State} {p group : ℕ} {addrs : List ℕ} (h_ : Still s0 s) : Still s0
    (State.mirrorUnits s p group addrs).2 := by
  unfold State.mirrorUnits
  with_reducible repeat'
    first
      | assumption | apply State.mirrorBytes_still | apply Still.foldR | (intro _)

theorem State.mirrorUnits_keeps {s0 s : State} {p group : ℕ} {addrs : List ℕ} (h_ : Keeps s0 s) : Keeps s0
    (State.mirrorUnits s p group addrs).2 :=
  h_.still (State.mirrorUnits_still (Still.refl _))

theorem State.refreshGroup_keeps {s0 s : State} {u : Update} {g : GroupWork} (h_ : Keeps s0 s) : Keeps s0
    (State.refreshGroup s u g) := by
  unfold State.refreshGroup
  with_reducible repeat'
    first
      | assumption | apply State.closeGroup_keeps | apply State.mirrorUnits_keeps | apply State.onGroup_keeps
      | apply State.wrCells_keeps | apply Keeps.foldL | (intro _) | split

theorem State.refreshAll_keeps {s0 s : State} {id : ℕ} (h_ : Keeps s0 s) : Keeps s0 (State.refreshAll s id) := by
  unfold State.refreshAll
  with_reducible repeat'
    first
      | assumption | apply State.refreshGroup_keeps | apply Keeps.fold | (intro _) | split

end Sys2Proof.Machine
end

