-- ==== Sys2Proof/Laws/FrameCollectives.lean ====
section
/-!
SUPPORT. What the operations of Machine/Collectives.lean, Sync.lean do to the queue of commands and to memory.
-/
namespace Sys2Proof.Machine
open Sys2Proof

/-! ### Machine/Collectives.lean -/

theorem State.undefine_keeps {s0 s : State} {p a n : ℕ} (h_ : Keeps s0 s) : Keeps s0 (State.undefine s p a n) := by
  unfold State.undefine
  with_reducible repeat'
    first
      | assumption | apply State.freeBytes_keeps | apply State.wrAt_keeps

theorem State.kvLand_keeps {s0 s : State} {c : Coll} {seq : ℕ} {data : List Byte} {marks : ℕ} (h_ : Keeps s0 s) :
    Keeps s0 (State.kvLand s c seq data marks) := by
  unfold State.kvLand
  with_reducible repeat'
    first
      | assumption | apply State.wrAt_keeps | apply Keeps.fold | (intro _)

theorem State.onJob_still {s0 s : State} {p j : ℕ} {f : Job → Job} (h_ : Still s0 s) : Still s0 (State.onJob s p j f)
    := by
  unfold State.onJob
  with_reducible repeat'
    first
      | assumption | apply State.modPart_still

theorem State.onJob_keeps {s0 s : State} {p j : ℕ} {f : Job → Job} (h_ : Keeps s0 s) : Keeps s0 (State.onJob s p j f)
    :=
  h_.still (State.onJob_still (Still.refl _))

theorem State.collLeave_still {s0 s : State} {c : Coll} {es : List Earned} (h_ : Still s0 s) : Still s0
    (State.collLeave s c es) := by
  unfold State.collLeave
  with_reducible repeat'
    first
      | assumption | apply State.finish_still | apply State.modWork_still | apply State.onJob_still | split
      | dsimp -zeta +zetaDelta only

theorem State.collLeave_keeps {s0 s : State} {c : Coll} {es : List Earned} (h_ : Keeps s0 s) : Keeps s0
    (State.collLeave s c es) :=
  h_.still (State.collLeave_still (Still.refl _))

theorem State.onColl_still {s0 s : State} {id : ℕ} {f : Coll → Coll} (h_ : Still s0 s) : Still s0 (State.onColl s id
    f) := by
  unfold State.onColl
  with_reducible repeat'
    first
      | assumption | apply State.modWork_still

theorem State.onColl_keeps {s0 s : State} {id : ℕ} {f : Coll → Coll} (h_ : Keeps s0 s) : Keeps s0 (State.onColl s id
    f) :=
  h_.still (State.onColl_still (Still.refl _))

theorem State.sendColl_still {s0 s : State} {c : Coll} {peer : ℕ} {h : CollHdr} {data : optParam (List Byte) []}
    {poison : optParam ℕ 0} (h_ : Still s0 s) : Still s0 (State.sendColl s c peer h data poison) := by
  unfold State.sendColl
  with_reducible repeat'
    first
      | assumption | fail_if_no_progress extract_lets | apply State.onColl_still | apply State.sendTxn_still | split
      | refine Still.ofOk (by assumption) ?_

theorem State.sendColl_keeps {s0 s : State} {c : Coll} {peer : ℕ} {h : CollHdr} {data : optParam (List Byte) []}
    {poison : optParam ℕ 0} (h_ : Keeps s0 s) : Keeps s0 (State.sendColl s c peer h data poison) :=
  h_.still (State.sendColl_still (Still.refl _))

theorem State.undefineResult_keeps {s0 s : State} {c : Coll} (h_ : Keeps s0 s) : Keeps s0 (State.undefineResult s c)
    := by
  unfold State.undefineResult
  with_reducible repeat'
    first
      | assumption | fail_if_no_progress extract_lets | apply State.undefine_keeps | apply Keeps.fold | (intro _)
      | split

theorem State.collFail_keeps {s0 s : State} {c : Coll} {e : Earned} {abort : Option (ℕ × ℕ)} (h_ : Keeps s0 s) : Keeps
    s0 (State.collFail s c e abort) := by
  unfold State.collFail
  with_reducible repeat'
    first
      | assumption | apply State.collLeave_keeps | apply State.sendColl_keeps | apply State.undefineResult_keeps
      | apply Keeps.fold | (intro _) | split | dsimp -zeta +zetaDelta only

theorem State.collDown_keeps {s0 s : State} {id : ℕ} (h_ : Keeps s0 s) : Keeps s0 (State.collDown s id) := by
  unfold State.collDown
  with_reducible repeat'
    first
      | assumption | apply State.collFail_keeps | split

theorem State.collTimers_still {s0 s : State} (h_ : Still s0 s) : Still s0 (State.collTimers s) := by
  unfold State.collTimers
  with_reducible repeat'
    first
      | assumption | fail_if_no_progress extract_lets | apply State.modWork_still | (intro _) | split
      | dsimp -zeta only | dsimp -zeta +zetaDelta only

theorem State.collTimers_keeps {s0 s : State} (h_ : Keeps s0 s) : Keeps s0 (State.collTimers s) :=
  h_.still (State.collTimers_still (Still.refl _))

theorem State.kvSend_still {s0 s : State} {c : Coll} {j : ℕ} (h_ : Still s0 s) : Still s0 (State.kvSend s c j) := by
  unfold State.kvSend
  with_reducible repeat'
    first
      | assumption | apply State.sendColl_still | apply Still.fold | (intro _)

theorem State.kvGo_still {s0 s : State} {c : Coll} (h_ : Still s0 s) : Still s0 (State.kvGo s c) := by
  unfold State.kvGo
  with_reducible repeat'
    first
      | assumption | fail_if_no_progress extract_lets | apply State.collLeave_still | apply State.kvSend_still
      | apply State.onColl_still | apply State.sendColl_still | apply State.syncOp_still | split
      | refine Still.pairL (by assumption) ?_

theorem State.kvGo_keeps {s0 s : State} {c : Coll} (h_ : Keeps s0 s) : Keeps s0 (State.kvGo s c) :=
  h_.still (State.kvGo_still (Still.refl _))

theorem State.countStale_still {s0 s : State} {e : ℕ} (h_ : Still s0 s) : Still s0 (State.countStale s e) := by
  unfold State.countStale
  with_reducible repeat'
    first
      | assumption | apply State.modMod_still

theorem State.countStale_keeps {s0 s : State} {e : ℕ} (h_ : Keeps s0 s) : Keeps s0 (State.countStale s e) :=
  h_.still (State.countStale_still (Still.refl _))

theorem State.writeHdr_keeps {s0 s : State} {c : Coll} {final : Bool} (h_ : Keeps s0 s) : Keeps s0 (State.writeHdr s c
    final) := by
  unfold State.writeHdr
  with_reducible repeat'
    first
      | assumption | fail_if_no_progress extract_lets | apply State.free_keeps | apply State.wrAt_keeps | split

theorem State.collCheck_keeps {s0 s : State} {id : ℕ} (h_ : Keeps s0 s) : Keeps s0 (State.collCheck s id) := by
  unfold State.collCheck
  with_reducible repeat'
    first
      | assumption | apply State.collDown_keeps | apply State.collLeave_keeps | apply State.writeHdr_keeps | split

theorem State.sendSeg_still {s0 s : State} {c : Coll} {peer lo hi contrib k : ℕ} {us : List CUnit} (h_ : Still s0 s) :
    Still s0 (State.sendSeg s c peer lo hi contrib k us) := by
  unfold State.sendSeg
  with_reducible repeat'
    first
      | assumption | apply State.sendColl_still

theorem State.sendSeg_keeps {s0 s : State} {c : Coll} {peer lo hi contrib k : ℕ} {us : List CUnit} (h_ : Keeps s0 s) :
    Keeps s0 (State.sendSeg s c peer lo hi contrib k us) :=
  h_.still (State.sendSeg_still (Still.refl _))

theorem State.putUnit_keeps {s0 s : State} {p : ℕ} {at' : ℕ × ℕ × Option ℕ} {limit : ℕ} {u : CUnit} (h_ : Keeps s0 s)
    : Keeps s0 (State.putUnit s p at' limit u) := by
  unfold State.putUnit
  with_reducible repeat'
    first
      | assumption | apply State.wrAt_keeps | split

theorem State.storeUnit_keeps {s0 s : State} {c : Coll} {v : ℕ} {u : CUnit} (h_ : Keeps s0 s) : Keeps s0
    (State.storeUnit s c v u) := by
  unfold State.storeUnit
  with_reducible repeat'
    first
      | assumption | fail_if_no_progress extract_lets | apply State.putUnit_keeps | split

theorem State.applySeg_keeps {s0 s : State} {id i k : ℕ} {us : List CUnit} (h_ : Keeps s0 s) : Keeps s0
    (State.applySeg s id i k us) := by
  unfold State.applySeg
  with_reducible repeat'
    first
      | assumption | fail_if_no_progress extract_lets | apply State.health_keeps | apply State.onColl_keeps
      | apply State.sendSeg_keeps | apply State.storeUnit_keeps | apply Keeps.fold | apply Keeps.foldL | (intro _)
      | split | dsimp -zeta +zetaDelta only

theorem State.drainRaw_keeps {s0 s : State} {id x2 : ℕ} (h_ : Keeps s0 s) : Keeps s0 (State.drainRaw s id x2) := by
  induction x2 generalizing s with
  | zero => exact h_
  | succ _ ih =>
    unfold State.drainRaw
    with_reducible repeat'
      first
        | assumption | apply ih | apply State.applySeg_keeps | apply State.onColl_keeps | split

theorem State.flagRound_still {s0 s : State} {id x2 : ℕ} (h_ : Still s0 s) : Still s0 (State.flagRound s id x2) := by
  induction x2 generalizing s with
  | zero => exact h_
  | succ _ ih =>
    unfold State.flagRound
    with_reducible repeat'
      first
        | assumption | apply ih | fail_if_no_progress extract_lets | apply State.onColl_still
        | apply State.sendColl_still | split

theorem State.flagRound_keeps {s0 s : State} {id x2 : ℕ} (h_ : Keeps s0 s) : Keeps s0 (State.flagRound s id x2) :=
  h_.still (State.flagRound_still (Still.refl _))

theorem State.collGo_keeps {s0 s : State} {id : ℕ} (h_ : Keeps s0 s) : Keeps s0 (State.collGo s id) := by
  unfold State.collGo
  with_reducible repeat'
    first
      | assumption | apply State.collCheck_keeps | apply State.drainRaw_keeps | apply State.flagRound_keeps

theorem State.copyCache_keeps {s0 s : State} {c : Coll} (h_ : Keeps s0 s) : Keeps s0 (State.copyCache s c) := by
  unfold State.copyCache
  with_reducible repeat'
    first
      | assumption | apply State.wrAt_keeps | apply Keeps.fold | (intro _) | split

theorem State.logNonfinite_still {s0 s : State} {c : Coll} (h_ : Still s0 s) : Still s0 (State.logNonfinite s c) := by
  unfold State.logNonfinite
  with_reducible repeat'
    first
      | assumption | apply State.modLog_still

theorem State.logNonfinite_keeps {s0 s : State} {c : Coll} (h_ : Keeps s0 s) : Keeps s0 (State.logNonfinite s c) :=
  h_.still (State.logNonfinite_still (Still.refl _))

theorem State.sendOwn_still {s0 s : State} {c : Coll} (h_ : Still s0 s) : Still s0 (State.sendOwn s c) := by
  unfold State.sendOwn
  with_reducible repeat'
    first
      | assumption | apply State.sendSeg_still | apply Still.fold | (intro _)

theorem State.sendOwn_keeps {s0 s : State} {c : Coll} (h_ : Keeps s0 s) : Keeps s0 (State.sendOwn s c) :=
  h_.still (State.sendOwn_still (Still.refl _))

theorem State.sendPerm_keeps {s0 s : State} {c : Coll} {e : List Byte} (h_ : Keeps s0 s) : Keeps s0 (State.sendPerm s
    c e) := by
  unfold State.sendPerm
  with_reducible repeat'
    first
      | assumption | apply State.sendColl_keeps | apply State.wrAt_keeps | apply Keeps.fold | (intro _) | split

theorem State.dataPhase_keeps {s0 s : State} {c : Coll} (h_ : Keeps s0 s) : Keeps s0 (State.dataPhase s c) := by
  unfold State.dataPhase
  with_reducible repeat'
    first
      | assumption | fail_if_no_progress extract_lets | apply State.collCheck_keeps | apply State.collFail_keeps
      | apply State.collGo_keeps | apply State.copyCache_keeps | apply State.logNonfinite_keeps
      | apply State.onColl_keeps | apply State.sendColl_keeps | apply State.sendOwn_keeps | apply State.sendPerm_keeps
      | apply State.storeUnit_keeps | apply State.writeHdr_keeps | apply Keeps.fold | (intro _) | split
      | dsimp -zeta +zetaDelta only

theorem State.rendezvous_keeps {s0 s : State} {id : ℕ} (h_ : Keeps s0 s) : Keeps s0 (State.rendezvous s id) := by
  unfold State.rendezvous
  with_reducible repeat'
    first
      | assumption | apply State.collDown_keeps | apply State.collLeave_keeps | apply State.dataPhase_keeps
      | apply State.onColl_keeps | split

theorem State.takeClear_still {s0 s : State} {id : ℕ} {h : CollHdr} (h_ : Still s0 s) : Still s0 (State.takeClear s id
    h) := by
  unfold State.takeClear
  with_reducible repeat'
    first
      | assumption | apply State.onColl_still

theorem State.takeClear_keeps {s0 s : State} {id : ℕ} {h : CollHdr} (h_ : Keeps s0 s) : Keeps s0 (State.takeClear s id
    h) :=
  h_.still (State.takeClear_still (Still.refl _))

theorem State.startColl_keeps {s0 s : State} {c : Coll} (h_ : Keeps s0 s) : Keeps s0 (State.startColl s c) := by
  unfold State.startColl
  with_reducible repeat'
    first
      | assumption | apply State.countStale_keeps | apply State.modPart_keeps | apply State.onColl_keeps
      | apply State.onJob_keeps | apply State.rendezvous_keeps | apply State.sendColl_keeps
      | apply State.startAt_keeps | apply State.takeClear_keeps | apply Keeps.fold | (intro _) | split
      | dsimp -zeta +zetaDelta only

theorem State.startN_keeps {s0 s : State} {x1 : ℕ} (h_ : Keeps s0 s) : Keeps s0 (State.startN s x1) := by
  induction x1 generalizing s with
  | zero => exact h_
  | succ _ ih =>
    unfold State.startN
    with_reducible repeat'
      first
        | assumption | apply ih | apply State.startColl_keeps | split

theorem State.collsGo_keeps {s0 s : State} (h_ : Keeps s0 s) : Keeps s0 (State.collsGo s) := by
  unfold State.collsGo
  with_reducible repeat'
    first
      | assumption | apply State.collDown_keeps | apply State.collTimers_keeps | apply State.kvGo_keeps
      | apply State.startN_keeps | apply Keeps.fold | (intro _) | split

theorem State.withJob_still {s0 s : State} {p j : ℕ} (h_ : Still s0 s) : SomeP (Still s0) (State.withJob s p j) := by
  unfold State.withJob
  with_reducible repeat'
    first
      | assumption | apply State.modPart_still | apply Still.some | apply Still.none | split

/-! ### Machine/Sync.lean -/

theorem State.poll_still {s0 s : State} {w : Waiter} (h_ : Still s0 s) : Still s0 (State.poll s w) := by
  unfold State.poll
  with_reducible repeat'
    first
      | assumption | fail_if_no_progress extract_lets | apply State.advance_still | apply State.modWork_still
      | apply State.satisfy_still | apply State.setObj_still | split

theorem State.unlessFrozen_still {s0 s : State} {f : State → State} (h_ : Still s0 s) (hf : ∀ t, Still s0 t → Still s0
    (f t)) : Still s0 (State.unlessFrozen s f) := by
  unfold State.unlessFrozen
  with_reducible repeat'
    first
      | assumption | apply hf | split

theorem State.unlessFrozen_keeps {s0 s : State} {f : State → State} (h_ : Keeps s0 s) (hf : ∀ t, Keeps s0 t → Keeps s0
    (f t)) : Keeps s0 (State.unlessFrozen s f) := by
  unfold State.unlessFrozen
  with_reducible repeat'
    first
      | assumption | apply hf | split

theorem State.deliver_still {s0 s : State} {p vc : ℕ} {is : Txn → Bool} (h_ : Still s0 s) : SomeP2 (Still s0)
    (State.deliver s p vc is) := by
  unfold State.deliver
  with_reducible repeat'
    first
      | assumption | apply State.modLink_still | apply State.modPart_still | apply Still.some2 | apply Still.none2
      | split

theorem State.deliver_keeps {s0 s : State} {p vc : ℕ} {is : Txn → Bool} (h_ : Keeps s0 s) : SomeP2 (Keeps s0)
    (State.deliver s p vc is) :=
  h_.some2S (State.deliver_still (Still.refl _))

theorem execCounterSet_keeps {s0 : State} {obj v : ℕ} {s : State} (h_ : Keeps s0 s) : NextP (Keeps s0) (execCounterSet
    obj v s) := by
  unfold execCounterSet
  with_reducible repeat'
    first
      | assumption | apply State.collsGo_keeps | apply State.syncOp_keeps | apply State.unlessFrozen_keeps
      | apply Keeps.next | (intro _)

theorem execEventClear_still {s0 : State} {obj : ℕ} {s : State} (h_ : Still s0 s) : NextP (Still s0) (execEventClear
    obj s) := by
  unfold execEventClear
  with_reducible repeat'
    first
      | assumption | apply State.syncOp_still | apply State.unlessFrozen_still | apply Still.next | (intro _)

theorem execEventSet_still {s0 : State} {obj : ℕ} {s : State} (h_ : Still s0 s) : NextP (Still s0) (execEventSet obj
    s) := by
  unfold execEventSet
  with_reducible repeat'
    first
      | assumption | apply State.syncOp_still | apply State.unlessFrozen_still | apply Still.next | (intro _)

theorem State.remoteOp_still {s0 s : State} {p : ℕ} {t : Txn} (h_ : Still s0 s) : Still s0 (State.remoteOp s p t).2.2
    := by
  unfold State.remoteOp
  with_reducible repeat'
    first
      | assumption | fail_if_no_progress extract_lets | apply State.free_still | apply State.syncOp_still | split
      | refine Still.pairR (by assumption) ?_

theorem execInitBarrier_still {s0 : State} {obj v : ℕ} {s : State} (h_ : Still s0 s) : NextP (Still s0)
    (execInitBarrier obj v s) := by
  unfold execInitBarrier
  with_reducible repeat'
    first
      | assumption | apply State.syncOp_still | apply State.unlessFrozen_still | apply Still.next | (intro _)

theorem execNop_still {s0 : State} {q : ℕ} {s : State} (h_ : Still s0 s) : NextP (Still s0) (execNop q s) := by
  unfold execNop
  with_reducible repeat'
    first
      | assumption | apply State.atOnce_still | apply State.dispatch_still | apply Still.next | apply Still.ok
      | apply Still.error | (intro _)

theorem execCounterAdd_keeps {s0 : State} {obj v : ℕ} {s : State} (h_ : Keeps s0 s) : NextP (Keeps s0) (execCounterAdd
    obj v s) := by
  unfold execCounterAdd
  with_reducible repeat'
    first
      | assumption | apply State.collsGo_keeps | apply State.syncOp_keeps | apply State.unlessFrozen_keeps
      | apply Keeps.next | (intro _)

theorem State.notBefore_still {s0 s : State} {q id : ℕ} (h_ : Still s0 s) : Still s0 (State.notBefore s q id) := by
  unfold State.notBefore
  with_reducible repeat'
    first
      | assumption | fail_if_no_progress extract_lets | apply State.finish_still | apply State.satisfy_still
      | apply State.setObj_still | apply State.untilRoot_still | split

theorem execNotBeforeReached_still {s0 : State} {q id : ℕ} {s : State} (h_ : Still s0 s) : NextP (Still s0)
    (execNotBeforeReached q id s) := by
  unfold execNotBeforeReached
  with_reducible repeat'
    first
      | assumption | apply State.notBefore_still | apply State.unlessFrozen_still | apply Still.next | (intro _)

theorem State.swapBound_still {s0 s : State} {tile obj : ℕ} (h_ : Still s0 s) : Still s0 (State.swapBound s tile obj)
    := by
  unfold State.swapBound
  with_reducible repeat'
    first
      | assumption | apply State.modTile_still

theorem State.swapBound_keeps {s0 s : State} {tile obj : ℕ} (h_ : Keeps s0 s) : Keeps s0 (State.swapBound s tile obj)
    :=
  h_.still (State.swapBound_still (Still.refl _))

theorem execSwapNotice_keeps {s0 : State} {tile : ℕ} {s : State} (h_ : Keeps s0 s) : NextP (Keeps s0) (execSwapNotice
    tile s) := by
  unfold execSwapNotice
  with_reducible repeat'
    first
      | assumption | apply State.collsGo_keeps | apply State.modWork_keeps | apply State.swapBound_keeps
      | apply State.unlessFrozen_keeps | apply Keeps.next | (intro _) | split

theorem execBarrierArrive_still {s0 : State} {obj : ℕ} {s : State} (h_ : Still s0 s) : NextP (Still s0)
    (execBarrierArrive obj s) := by
  unfold execBarrierArrive
  with_reducible repeat'
    first
      | assumption | apply State.syncOp_still | apply State.unlessFrozen_still | apply Still.next | (intro _)

theorem execSyncRsp_still {s0 : State} {p : ℕ} {s : State} (h_ : Still s0 s) : NextP (Still s0) (execSyncRsp p s) :=
    by
  unfold execSyncRsp
  with_reducible repeat'
    first
      | assumption | apply State.deliver_still | apply State.finish_still | apply State.modWork_still
      | apply Still.next | split | refine Still.ofSome2 (by assumption) ?_

theorem State.syncReq_still {s0 s : State} {p : ℕ} {t : Txn} (h_ : Still s0 s) : Still s0 (State.syncReq s p t) := by
  unfold State.syncReq
  with_reducible repeat'
    first
      | assumption | fail_if_no_progress extract_lets | apply State.modPart_still | apply State.remoteOp_still
      | apply State.sendOr_still | split

theorem State.syncReq_keeps {s0 s : State} {p : ℕ} {t : Txn} (h_ : Keeps s0 s) : Keeps s0 (State.syncReq s p t) :=
  h_.still (State.syncReq_still (Still.refl _))

theorem execInitCounter_keeps {s0 : State} {obj v : ℕ} {s : State} (h_ : Keeps s0 s) : NextP (Keeps s0)
    (execInitCounter obj v s) := by
  unfold execInitCounter
  with_reducible repeat'
    first
      | assumption | apply State.collsGo_keeps | apply State.syncOp_keeps | apply State.unlessFrozen_keeps
      | apply Keeps.next | (intro _)

theorem State.halfSwapBody_still {s0 s : State} {q id : ℕ} {b : List Byte} (h_ : Still s0 s) : OkP (Still s0)
    (State.halfSwapBody s q id b) := by
  unfold State.halfSwapBody
  with_reducible repeat'
    first
      | assumption | fail_if_no_progress extract_lets | apply State.finishAt_still | apply State.modPair_still
      | apply State.startAt_still | apply Still.fold | apply Still.ok | apply Still.error | (intro _) | split

theorem execInitEvent_still {s0 : State} {obj v : ℕ} {s : State} (h_ : Still s0 s) : NextP (Still s0) (execInitEvent
    obj v s) := by
  unfold execInitEvent
  with_reducible repeat'
    first
      | assumption | apply State.syncOp_still | apply State.unlessFrozen_still | apply Still.next | (intro _)

theorem execSemPost_still {s0 : State} {obj n : ℕ} {s : State} (h_ : Still s0 s) : NextP (Still s0) (execSemPost obj n
    s) := by
  unfold execSemPost
  with_reducible repeat'
    first
      | assumption | apply State.syncOp_still | apply State.unlessFrozen_still | apply Still.next | (intro _)

theorem execInitSemaphore_still {s0 : State} {obj v : ℕ} {s : State} (h_ : Still s0 s) : NextP (Still s0)
    (execInitSemaphore obj v s) := by
  unfold execInitSemaphore
  with_reducible repeat'
    first
      | assumption | apply State.syncOp_still | apply State.unlessFrozen_still | apply Still.next | (intro _)

theorem State.waitBody_still {s0 s : State} {q id : ℕ} {b : List Byte} (h_ : Still s0 s) : Still s0 (State.waitBody s
    q id b) := by
  unfold State.waitBody
  with_reducible repeat'
    first
      | assumption | fail_if_no_progress extract_lets | apply State.beginWait_still | apply State.finish_still
      | apply State.startAt_still | split

theorem execWaiterPoll_still {s0 : State} {w : ℕ} {s : State} (h_ : Still s0 s) : NextP (Still s0) (execWaiterPoll w
    s) := by
  unfold execWaiterPoll
  with_reducible repeat'
    first
      | assumption | apply State.poll_still | apply State.unlessFrozen_still | apply Still.next | (intro _) | split

theorem execSyncReq_keeps {s0 : State} {p : ℕ} {s : State} (h_ : Keeps s0 s) : NextP (Keeps s0) (execSyncReq p s) :=
    by
  unfold execSyncReq
  with_reducible repeat'
    first
      | assumption | apply State.collsGo_keeps | apply State.deliver_keeps | apply State.syncReq_keeps
      | apply Keeps.next | split | refine Keeps.ofSome2 (by assumption) ?_

theorem execSemTry_still {s0 : State} {obj : ℕ} {s : State} (h_ : Still s0 s) : NextP (Still s0) (execSemTry obj s) :=
    by
  unfold execSemTry
  with_reducible repeat'
    first
      | assumption | apply State.syncOp_still | apply State.unlessFrozen_still | apply Still.next | (intro _)

theorem execWait_still {s0 : State} {q : ℕ} {s : State} (h_ : Still s0 s) : NextP (Still s0) (execWait q s) := by
  unfold execWait
  with_reducible repeat'
    first
      | assumption | apply State.dispatch_still | apply State.waitBody_still | apply Still.next | apply Still.ok
      | apply Still.error | (intro _)

theorem execHalfSwap_still {s0 : State} {q : ℕ} {s : State} (h_ : Still s0 s) : NextP (Still s0) (execHalfSwap q s) :=
    by
  unfold execHalfSwap
  with_reducible repeat'
    first
      | assumption | apply State.dispatch_still | apply State.halfSwapBody_still | apply Still.next | (intro _)

theorem State.signalBody_still {s0 s : State} {q id : ℕ} {b : List Byte} (h_ : Still s0 s) : Still s0
    (State.signalBody s q id b) := by
  unfold State.signalBody
  with_reducible repeat'
    first
      | assumption | fail_if_no_progress extract_lets | apply State.finish_still | apply State.modWork_still
      | apply State.nextTseq_still | apply State.sendTxn_still | apply State.startAt_still | apply State.syncOp_still
      | split | refine Still.pairR (by assumption) ?_ | refine Still.ofOk (by assumption) ?_

theorem State.signalBody_keeps {s0 s : State} {q id : ℕ} {b : List Byte} (h_ : Keeps s0 s) : Keeps s0
    (State.signalBody s q id b) :=
  h_.still (State.signalBody_still (Still.refl _))

theorem execFence_still {s0 : State} {q : ℕ} {s : State} (h_ : Still s0 s) : NextP (Still s0) (execFence q s) := by
  unfold execFence
  with_reducible repeat'
    first
      | assumption | apply State.atOnce_still | apply State.dispatch_still | apply State.modQw_still
      | apply Still.next | apply Still.ok | apply Still.error | (intro _)

theorem execRemoteSignalTimeout_still {s0 : State} {id : ℕ} {s : State} (h_ : Still s0 s) : NextP (Still s0)
    (execRemoteSignalTimeout id s) := by
  unfold execRemoteSignalTimeout
  with_reducible repeat'
    first
      | assumption | apply State.finish_still | apply State.modWork_still | apply State.unlessFrozen_still
      | apply State.untilLive_still | apply Still.next | (intro _) | split

theorem execSignal_keeps {s0 : State} {q : ℕ} {s : State} (h_ : Keeps s0 s) : NextP (Keeps s0) (execSignal q s) := by
  unfold execSignal
  with_reducible repeat'
    first
      | assumption | apply State.collsGo_keeps | apply State.dispatch_keeps | apply State.signalBody_keeps
      | apply Keeps.next | apply Keeps.ok | apply Keeps.error | (intro _)

end Sys2Proof.Machine
end

