-- ==== Sys2Proof/Laws/FrameRuns.lean ====
section
/-!
SUPPORT. What the operations of Machine/Runs.lean, Operands.lean, Banks.lean, Routes.lean, Arrays.lean, Drain.lean do to the queue of commands and to memory.
-/
namespace Sys2Proof.Machine
open Sys2Proof

/-! ### Machine/Runs.lean -/

theorem State.onRun_still {s0 s : State} {id : ℕ} {f : Run → Run} (h_ : Still s0 s) : Still s0 (State.onRun s id f) :=
    by
  unfold State.onRun
  with_reducible repeat'
    first
      | assumption | apply State.modWork_still

theorem State.onRun_keeps {s0 s : State} {id : ℕ} {f : Run → Run} (h_ : Keeps s0 s) : Keeps s0 (State.onRun s id f) :=
  h_.still (State.onRun_still (Still.refl _))

theorem State.issuedOp_still {s0 s : State} {id tile unit : ℕ} (h_ : Still s0 s) : Still s0 (State.issuedOp s id tile
    unit) := by
  unfold State.issuedOp
  with_reducible repeat'
    first
      | assumption | apply State.onRun_still

theorem State.moved_still {s0 s : State} {id tile unit : ℕ} (h_ : Still s0 s) : Still s0 (State.moved s id tile unit)
    := by
  unfold State.moved
  with_reducible repeat'
    first
      | assumption | apply State.onRun_still

theorem State.moved_keeps {s0 s : State} {id tile unit : ℕ} (h_ : Keeps s0 s) : Keeps s0 (State.moved s id tile unit)
    :=
  h_.still (State.moved_still (Still.refl _))

theorem State.waitAt_still {s0 s : State} {id tile unit stream : ℕ} (h_ : Still s0 s) : Still s0 (State.waitAt s id
    tile unit stream) := by
  unfold State.waitAt
  with_reducible repeat'
    first
      | assumption | apply State.onRun_still

theorem State.waitAt_keeps {s0 s : State} {id tile unit stream : ℕ} (h_ : Keeps s0 s) : Keeps s0 (State.waitAt s id
    tile unit stream) :=
  h_.still (State.waitAt_still (Still.refl _))

theorem State.addSlip_still {s0 s : State} {r : Run} {cause n : ℕ} (h_ : Still s0 s) : Still s0 (State.addSlip s r
    cause n) := by
  unfold State.addSlip
  with_reducible repeat'
    first
      | assumption | apply State.modBank_still | apply State.onRun_still

theorem State.addSlip_keeps {s0 s : State} {r : Run} {cause n : ℕ} (h_ : Keeps s0 s) : Keeps s0 (State.addSlip s r
    cause n) :=
  h_.still (State.addSlip_still (Still.refl _))

theorem State.movesTo_still {s0 s : State} {id m : ℕ} (h_ : Still s0 s) : Still s0 (State.movesTo s id m) := by
  unfold State.movesTo
  with_reducible repeat'
    first
      | assumption | fail_if_no_progress extract_lets | apply State.onRun_still | (intro _) | split | dsimp -zeta only
      | dsimp -zeta +zetaDelta only

theorem State.movesTo_keeps {s0 s : State} {id m : ℕ} (h_ : Keeps s0 s) : Keeps s0 (State.movesTo s id m) :=
  h_.still (State.movesTo_still (Still.refl _))

theorem State.freshCredits_still {s0 s : State} {tiles : List ℕ} (h_ : Still s0 s) : Still s0 (State.freshCredits s
    tiles) := by
  unfold State.freshCredits
  with_reducible repeat'
    first
      | assumption | apply State.modTile_still | apply Still.fold | (intro _)

theorem State.freshCredits_keeps {s0 s : State} {tiles : List ℕ} (h_ : Keeps s0 s) : Keeps s0 (State.freshCredits s
    tiles) :=
  h_.still (State.freshCredits_still (Still.refl _))

theorem State.setCtxs_still {s0 s : State} {tiles slots : List ℕ} {f : Ctx → Ctx} (h_ : Still s0 s) : Still s0
    (State.setCtxs s tiles slots f) := by
  unfold State.setCtxs
  with_reducible repeat'
    first
      | assumption | apply State.modCtx_still | apply Still.fold | (intro _)

theorem State.setCtxs_keeps {s0 s : State} {tiles slots : List ℕ} {f : Ctx → Ctx} (h_ : Keeps s0 s) : Keeps s0
    (State.setCtxs s tiles slots f) :=
  h_.still (State.setCtxs_still (Still.refl _))

theorem State.settleRun_still {s0 s : State} {r : Run} (h_ : Still s0 s) : Still s0 (State.settleRun s r) := by
  unfold State.settleRun
  with_reducible repeat'
    first
      | assumption | fail_if_no_progress extract_lets | apply State.onRun_still | apply State.setCtxs_still
      | (intro _) | split | dsimp -zeta only | dsimp -zeta +zetaDelta only

theorem State.settle_still {s0 s : State} (h_ : Still s0 s) : Still s0 (State.settle s) := by
  unfold State.settle
  with_reducible repeat'
    first
      | assumption | fail_if_no_progress extract_lets | apply State.settleRun_still | apply Still.fold
      | apply Still.foldR | apply Still.foldL | apply Still.foldRun | apply Still.foldOut | apply Still.foldPre
      | apply Still.next | apply Still.ok | apply Still.error | apply Still.ok2 | apply Still.error2
      | apply Still.some | apply Still.none | apply Still.some2 | apply Still.none2 | (intro _) | split
      | refine Still.pairR (by assumption) ?_ | refine Still.pairL (by assumption) ?_
      | refine Still.pair3 (by assumption) ?_ | refine Still.ofOk (by assumption) ?_
      | refine Still.ofOk2 (by assumption) ?_ | refine Still.ofSome (by assumption) ?_
      | refine Still.ofSome2 (by assumption) ?_ | dsimp -zeta only | dsimp -zeta +zetaDelta only

theorem State.settle_keeps {s0 s : State} (h_ : Keeps s0 s) : Keeps s0 (State.settle s) :=
  h_.still (State.settle_still (Still.refl _))

theorem State.portIssued_still {s0 s : State} {r : Run} {tile : ℕ} (h_ : Still s0 s) : Still s0 (State.portIssued s r
    tile) := by
  unfold State.portIssued
  with_reducible repeat'
    first
      | assumption | fail_if_no_progress extract_lets | apply State.count_still | apply State.issuedOp_still
      | apply State.onRun_still | (intro _) | split | dsimp -zeta only | dsimp -zeta +zetaDelta only

theorem State.portIssued_keeps {s0 s : State} {r : Run} {tile : ℕ} (h_ : Keeps s0 s) : Keeps s0 (State.portIssued s r
    tile) :=
  h_.still (State.portIssued_still (Still.refl _))

theorem State.signalBound_still {s0 s : State} {obj : ℕ} (h_ : Still s0 s) : Still s0 (State.signalBound s obj) := by
  unfold State.signalBound
  with_reducible repeat'
    first
      | assumption | fail_if_no_progress extract_lets | apply State.syncOp_still | (intro _) | split
      | dsimp -zeta only | dsimp -zeta +zetaDelta only

theorem State.signalBound_keeps {s0 s : State} {obj : ℕ} (h_ : Keeps s0 s) : Keeps s0 (State.signalBound s obj) :=
  h_.still (State.signalBound_still (Still.refl _))

theorem State.syncEntry_keeps {s0 s : State} {id tile : ℕ} (h_ : Keeps s0 s) : SomeP (Keeps s0) (State.syncEntry s id
    tile) := by
  unfold State.syncEntry
  with_reducible repeat'
    first
      | assumption | fail_if_no_progress extract_lets | apply State.collsGo_keeps | apply State.portIssued_keeps
      | apply State.setObj_keeps | apply State.signalBound_keeps | apply Keeps.fold | apply Keeps.foldR
      | apply Keeps.foldL | apply Keeps.foldRun | apply Keeps.foldOut | apply Keeps.foldPre | apply Keeps.next
      | apply Keeps.ok | apply Keeps.error | apply Keeps.ok2 | apply Keeps.error2 | apply Keeps.some
      | apply Keeps.none | apply Keeps.some2 | apply Keeps.none2 | (intro _) | split
      | refine Keeps.pairR (by assumption) ?_ | refine Keeps.pairL (by assumption) ?_
      | refine Keeps.pair3 (by assumption) ?_ | refine Keeps.ofOk (by assumption) ?_
      | refine Keeps.ofOk2 (by assumption) ?_ | refine Keeps.ofSome (by assumption) ?_
      | refine Keeps.ofSome2 (by assumption) ?_ | dsimp -zeta only | dsimp -zeta +zetaDelta only

theorem State.syncPort_keeps {s0 s : State} {id tile n : ℕ} (h_ : Keeps s0 s) :
    Keeps s0 (State.syncPort s id tile n) := by
  induction n generalizing s with
  | zero => exact h_
  | succ n ih =>
    unfold State.syncPort
    split
    · rename_i e; exact ih (Keeps.ofSome e (State.syncEntry_keeps h_))
    · exact h_

theorem State.syncPorts_keeps {s0 s : State} {id : ℕ} (h_ : Keeps s0 s) : Keeps s0 (State.syncPorts s id) := by
  unfold State.syncPorts
  with_reducible repeat'
    first
      | assumption | fail_if_no_progress extract_lets | apply State.syncPort_keeps | apply Keeps.fold
      | apply Keeps.foldR | apply Keeps.foldL | apply Keeps.foldRun | apply Keeps.foldOut | apply Keeps.foldPre
      | apply Keeps.next | apply Keeps.ok | apply Keeps.error | apply Keeps.ok2 | apply Keeps.error2
      | apply Keeps.some | apply Keeps.none | apply Keeps.some2 | apply Keeps.none2 | (intro _) | split
      | refine Keeps.pairR (by assumption) ?_ | refine Keeps.pairL (by assumption) ?_
      | refine Keeps.pair3 (by assumption) ?_ | refine Keeps.ofOk (by assumption) ?_
      | refine Keeps.ofOk2 (by assumption) ?_ | refine Keeps.ofSome (by assumption) ?_
      | refine Keeps.ofSome2 (by assumption) ?_ | dsimp -zeta only | dsimp -zeta +zetaDelta only

theorem State.runStart_keeps {s0 s : State} {r : Run} (h_ : Keeps s0 s) : Keeps s0 (State.runStart s r) := by
  unfold State.runStart
  with_reducible repeat'
    first
      | assumption | fail_if_no_progress extract_lets | apply State.freshCredits_keeps | apply State.onRun_keeps
      | apply State.setCtxs_keeps | apply State.settle_keeps | apply State.startAt_keeps | apply State.syncPorts_keeps
      | apply State.traceCmd_keeps | apply State.untilRoot_keeps | split

theorem State.unlessHalted_still {s0 s : State} {f : State → State} (h_ : Still s0 s) (hf : ∀ t, Still s0 t → Still s0
    (f t)) : Still s0 (State.unlessHalted s f) := by
  unfold State.unlessHalted
  with_reducible repeat'
    first
      | assumption | apply hf | split

theorem State.unlessHalted_keeps {s0 s : State} {f : State → State} (h_ : Keeps s0 s) (hf : ∀ t, Keeps s0 t → Keeps s0
    (f t)) : Keeps s0 (State.unlessHalted s f) := by
  unfold State.unlessHalted
  with_reducible repeat'
    first
      | assumption | apply hf | split

theorem State.emptyQueues_still {s0 s : State} {tiles : List ℕ} {streams : Bool} (h_ : Still s0 s) : Still s0
    (State.emptyQueues s tiles streams) := by
  unfold State.emptyQueues
  with_reducible repeat'
    first
      | assumption | apply State.modTile_still | apply Still.fold | (intro _)

theorem State.emptyQueues_keeps {s0 s : State} {tiles : List ℕ} {streams : Bool} (h_ : Keeps s0 s) : Keeps s0
    (State.emptyQueues s tiles streams) :=
  h_.still (State.emptyQueues_still (Still.refl _))

theorem State.leaveRun_keeps {s0 s : State} {r : Run} {stop : ℕ} {es : List Earned} (h_ : Keeps s0 s) : Keeps s0
    (State.leaveRun s r stop es) := by
  unfold State.leaveRun
  with_reducible repeat'
    first
      | assumption | fail_if_no_progress extract_lets | apply State.cover_keeps | apply State.earnOn_keeps
      | apply State.finishAt_keeps | apply State.modQw_keeps | apply State.modWork_keeps | apply State.onUpd_keeps
      | apply State.refreshAll_keeps | apply State.setCtxs_keeps | apply State.tally_keeps
      | apply State.traceCmd_keeps | apply State.updateCheck_keeps | apply Keeps.fold | (intro _) | split
      | dsimp -zeta +zetaDelta only

theorem State.shiftTiles_still {s0 s : State} {tiles : List ℕ} {stop h : ℕ} (h_ : Still s0 s) : Still s0
    (State.shiftTiles s tiles stop h) := by
  unfold State.shiftTiles
  with_reducible repeat'
    first
      | assumption | fail_if_no_progress extract_lets | apply State.modTile_still | apply Still.fold
      | apply Still.foldR | apply Still.foldL | apply Still.foldRun | apply Still.foldOut | apply Still.foldPre
      | apply Still.next | apply Still.ok | apply Still.error | apply Still.ok2 | apply Still.error2
      | apply Still.some | apply Still.none | apply Still.some2 | apply Still.none2 | (intro _) | split
      | refine Still.pairR (by assumption) ?_ | refine Still.pairL (by assumption) ?_
      | refine Still.pair3 (by assumption) ?_ | refine Still.ofOk (by assumption) ?_
      | refine Still.ofOk2 (by assumption) ?_ | refine Still.ofSome (by assumption) ?_
      | refine Still.ofSome2 (by assumption) ?_ | dsimp -zeta only | dsimp -zeta +zetaDelta only

theorem State.shiftTiles_keeps {s0 s : State} {tiles : List ℕ} {stop h : ℕ} (h_ : Keeps s0 s) : Keeps s0
    (State.shiftTiles s tiles stop h) :=
  h_.still (State.shiftTiles_still (Still.refl _))

theorem State.endHold_keeps {s0 s : State} {r : Run} {h : Hold} (h_ : Keeps s0 s) : Keeps s0 (State.endHold s r h) :=
    by
  unfold State.endHold
  with_reducible repeat'
    first
      | assumption | apply State.addSlip_keeps | apply State.onRun_keeps | apply State.shiftTiles_keeps
      | apply State.syncPorts_keeps | apply State.traceEv_keeps | apply State.untilMclk_keeps | apply Keeps.fold
      | apply Keeps.foldR | apply Keeps.foldL | apply Keeps.foldRun | apply Keeps.foldOut | apply Keeps.foldPre
      | apply Keeps.next | apply Keeps.ok | apply Keeps.error | apply Keeps.ok2 | apply Keeps.error2
      | apply Keeps.some | apply Keeps.none | apply Keeps.some2 | apply Keeps.none2 | (intro _)
      | refine Keeps.pairR (by assumption) ?_ | refine Keeps.pairL (by assumption) ?_
      | refine Keeps.pair3 (by assumption) ?_ | refine Keeps.ofOk (by assumption) ?_
      | refine Keeps.ofOk2 (by assumption) ?_ | refine Keeps.ofSome (by assumption) ?_
      | refine Keeps.ofSome2 (by assumption) ?_

theorem execHoldEnd_keeps {s0 : State} {id : ℕ} {s : State} (h_ : Keeps s0 s) : NextP (Keeps s0) (execHoldEnd id s) :=
    by
  unfold execHoldEnd
  with_reducible repeat'
    first
      | assumption | apply State.endHold_keeps | apply State.unlessHalted_keeps | apply Keeps.next | (intro _) | split

theorem State.newRun_still {s0 s : State} {owner q p digest : ℕ} {tiles : List ℕ} {ps : List PlaneInfo} {n base step :
    ℕ} (h_ : Still s0 s) : Still s0 (State.newRun s owner q p digest tiles ps n base step).2 := by
  unfold State.newRun
  with_reducible repeat'
    first
      | assumption | apply State.fresh_still | apply State.modWork_still

theorem State.emptySteer_still {s0 s : State} {tiles : List ℕ} (h_ : Still s0 s) : Still s0 (State.emptySteer s tiles)
    := by
  unfold State.emptySteer
  with_reducible repeat'
    first
      | assumption | fail_if_no_progress extract_lets | apply State.modTile_still | apply Still.fold
      | apply Still.foldR | apply Still.foldL | apply Still.foldRun | apply Still.foldOut | apply Still.foldPre
      | apply Still.next | apply Still.ok | apply Still.error | apply Still.ok2 | apply Still.error2
      | apply Still.some | apply Still.none | apply Still.some2 | apply Still.none2 | (intro _) | split
      | refine Still.pairR (by assumption) ?_ | refine Still.pairL (by assumption) ?_
      | refine Still.pair3 (by assumption) ?_ | refine Still.ofOk (by assumption) ?_
      | refine Still.ofOk2 (by assumption) ?_ | refine Still.ofSome (by assumption) ?_
      | refine Still.ofSome2 (by assumption) ?_ | dsimp -zeta only | dsimp -zeta +zetaDelta only

theorem State.emptySteer_keeps {s0 s : State} {tiles : List ℕ} (h_ : Keeps s0 s) : Keeps s0 (State.emptySteer s tiles)
    :=
  h_.still (State.emptySteer_still (Still.refl _))

theorem State.runBody_still {s0 s : State} {q id : ℕ} {b : List Byte} (h_ : Still s0 s) : OkP (Still s0)
    (State.runBody s q id b) := by
  unfold State.runBody
  with_reducible repeat'
    first
      | assumption | fail_if_no_progress extract_lets | apply State.modQw_still | apply State.newRun_still
      | apply State.settle_still | apply Still.ok | apply Still.error | split

theorem execRunFrond_still {s0 : State} {q : ℕ} {s : State} (h_ : Still s0 s) : NextP (Still s0) (execRunFrond q s) :=
    by
  unfold execRunFrond
  with_reducible repeat'
    first
      | assumption | apply State.dispatch_still | apply State.runBody_still | apply Still.next | (intro _)

theorem State.bodyStart_keeps {s0 s : State} {r : Run} (h_ : Keeps s0 s) : Keeps s0 (State.bodyStart s r) := by
  unfold State.bodyStart
  with_reducible repeat'
    first
      | assumption | fail_if_no_progress extract_lets | apply State.modDbg_keeps | apply State.onRun_keeps
      | apply State.syncPorts_keeps | apply State.traceEv_keeps | apply State.untilMclk_keeps | apply Keeps.fold
      | apply Keeps.foldR | apply Keeps.foldL | apply Keeps.foldRun | apply Keeps.foldOut | apply Keeps.foldPre
      | apply Keeps.next | apply Keeps.ok | apply Keeps.error | apply Keeps.ok2 | apply Keeps.error2
      | apply Keeps.some | apply Keeps.none | apply Keeps.some2 | apply Keeps.none2 | (intro _) | split
      | refine Keeps.pairR (by assumption) ?_ | refine Keeps.pairL (by assumption) ?_
      | refine Keeps.pair3 (by assumption) ?_ | refine Keeps.ofOk (by assumption) ?_
      | refine Keeps.ofOk2 (by assumption) ?_ | refine Keeps.ofSome (by assumption) ?_
      | refine Keeps.ofSome2 (by assumption) ?_

theorem execBodyStart_keeps {s0 : State} {id : ℕ} {s : State} (h_ : Keeps s0 s) : NextP (Keeps s0) (execBodyStart id
    s) := by
  unfold execBodyStart
  with_reducible repeat'
    first
      | assumption | apply State.bodyStart_keeps | apply State.unlessHalted_keeps | apply Keeps.next | (intro _)
      | split

theorem State.lateInput_still {s0 s : State} {r : Run} {input cls cause : ℕ} (h_ : Still s0 s) : Still s0
    (State.lateInput s r input cls cause) := by
  unfold State.lateInput
  with_reducible repeat'
    first
      | assumption | apply State.onRun_still | apply State.traceEv_still | apply Still.fold | (intro _) | split

theorem execTimedInputLate_still {s0 : State} {id input cls cause : ℕ} {s : State} (h_ : Still s0 s) : NextP (Still
    s0) (execTimedInputLate id input cls cause s) := by
  unfold execTimedInputLate
  with_reducible repeat'
    first
      | assumption | apply State.lateInput_still | apply State.unlessHalted_still | apply Still.next | (intro _)
      | split

theorem State.onEnded_still {s0 s : State} {id : ℕ} {f : State → Run → State} (h_ : Still s0 s) (hf : ∀ t x1, Still s0
    t → Still s0 (f t x1)) : Still s0 (State.onEnded s id f) := by
  unfold State.onEnded
  with_reducible repeat'
    first
      | assumption | apply hf | fail_if_no_progress extract_lets | apply Still.next | apply Still.ok
      | apply Still.error | apply Still.ok2 | apply Still.error2 | apply Still.some | apply Still.none
      | apply Still.some2 | apply Still.none2 | (intro _) | split | dsimp -zeta only | dsimp -zeta +zetaDelta only

theorem State.onEnded_keeps {s0 s : State} {id : ℕ} {f : State → Run → State} (h_ : Keeps s0 s) (hf : ∀ t x1, Keeps s0
    t → Keeps s0 (f t x1)) : Keeps s0 (State.onEnded s id f) := by
  unfold State.onEnded
  with_reducible repeat'
    first
      | assumption | apply hf | fail_if_no_progress extract_lets | apply Keeps.next | apply Keeps.ok
      | apply Keeps.error | apply Keeps.ok2 | apply Keeps.error2 | apply Keeps.some | apply Keeps.none
      | apply Keeps.some2 | apply Keeps.none2 | (intro _) | split | dsimp -zeta only | dsimp -zeta +zetaDelta only

theorem State.orphans_still {s0 s : State} {id : ℕ} {l : List (ℕ × ℕ)} (h_ : Still s0 s) : Still s0 (State.orphans s
    id l) := by
  unfold State.orphans
  with_reducible repeat'
    first
      | assumption | apply State.onRun_still | split

theorem State.orphans_keeps {s0 s : State} {id : ℕ} {l : List (ℕ × ℕ)} (h_ : Keeps s0 s) : Keeps s0 (State.orphans s
    id l) :=
  h_.still (State.orphans_still (Still.refl _))

theorem State.issueEnd_keeps {s0 s : State} {r : Run} (h_ : Keeps s0 s) : Keeps s0 (State.issueEnd s r) := by
  unfold State.issueEnd
  with_reducible repeat'
    first
      | assumption | fail_if_no_progress extract_lets | apply State.onEnded_keeps | apply State.onRun_keeps
      | apply State.orphans_keeps | apply State.setCtxs_keeps | apply State.syncPorts_keeps
      | apply State.untilMclk_keeps | (intro _) | split | dsimp -zeta only | dsimp -zeta +zetaDelta only

theorem execIssueEnd_keeps {s0 : State} {id : ℕ} {s : State} (h_ : Keeps s0 s) : NextP (Keeps s0) (execIssueEnd id s)
    := by
  unfold execIssueEnd
  with_reducible repeat'
    first
      | assumption | apply State.issueEnd_keeps | apply State.unlessHalted_keeps | apply Keeps.next | (intro _)
      | split

theorem State.runComplete_keeps {s0 s : State} {r : Run} (h_ : Keeps s0 s) : Keeps s0 (State.runComplete s r) := by
  unfold State.runComplete
  with_reducible repeat'
    first
      | assumption | fail_if_no_progress extract_lets | apply State.emptyQueues_keeps | apply State.leaveRun_keeps
      | apply State.orphans_keeps | apply State.untilMclk_keeps | split | dsimp -zeta +zetaDelta only

theorem execRunStart_keeps {s0 : State} {id : ℕ} {s : State} (h_ : Keeps s0 s) : NextP (Keeps s0) (execRunStart id s)
    := by
  unfold execRunStart
  with_reducible repeat'
    first
      | assumption | apply State.runStart_keeps | apply State.unlessHalted_keeps | apply Keeps.next | (intro _)
      | split

theorem State.unloadBody_still {s0 s : State} {q id : ℕ} {b : List Byte} (h_ : Still s0 s) : OkP (Still s0)
    (State.unloadBody s q id b) := by
  unfold State.unloadBody
  with_reducible repeat'
    first
      | assumption | fail_if_no_progress extract_lets | apply State.atOnce_still | apply State.modPart_still
      | apply State.modQw_still | apply State.setCtxs_still | apply State.settle_still | apply Still.ok
      | apply Still.error | split | dsimp -zeta +zetaDelta only

theorem execRunComplete_keeps {s0 : State} {id : ℕ} {s : State} (h_ : Keeps s0 s) : NextP (Keeps s0) (execRunComplete
    id s) := by
  unfold execRunComplete
  with_reducible repeat'
    first
      | assumption | apply State.runComplete_keeps | apply State.unlessHalted_keeps | apply Keeps.next | (intro _)
      | split

theorem State.planeSwitch_keeps {s0 s : State} {r : Run} (h_ : Keeps s0 s) : Keeps s0 (State.planeSwitch s r) := by
  unfold State.planeSwitch
  with_reducible repeat'
    first
      | assumption | fail_if_no_progress extract_lets | apply State.emptySteer_keeps | apply State.freshCredits_keeps
      | apply State.onEnded_keeps | apply State.onRun_keeps | apply State.orphans_keeps | apply State.setCtxs_keeps
      | apply State.settle_keeps | apply State.syncPorts_keeps | apply State.traceEv_keeps
      | apply State.untilMclk_keeps | apply Keeps.fold | apply Keeps.foldR | apply Keeps.foldL | apply Keeps.foldRun
      | apply Keeps.foldOut | apply Keeps.foldPre | apply Keeps.next | apply Keeps.ok | apply Keeps.error
      | apply Keeps.ok2 | apply Keeps.error2 | apply Keeps.some | apply Keeps.none | apply Keeps.some2
      | apply Keeps.none2 | (intro _) | split | refine Keeps.pairR (by assumption) ?_
      | refine Keeps.pairL (by assumption) ?_ | refine Keeps.pair3 (by assumption) ?_
      | refine Keeps.ofOk (by assumption) ?_ | refine Keeps.ofOk2 (by assumption) ?_
      | refine Keeps.ofSome (by assumption) ?_ | refine Keeps.ofSome2 (by assumption) ?_

theorem execUnloadFrond_still {s0 : State} {q : ℕ} {s : State} (h_ : Still s0 s) : NextP (Still s0) (execUnloadFrond q
    s) := by
  unfold execUnloadFrond
  with_reducible repeat'
    first
      | assumption | apply State.dispatch_still | apply State.unloadBody_still | apply Still.next | (intro _)

theorem execPlaneSwitch_keeps {s0 : State} {id : ℕ} {s : State} (h_ : Keeps s0 s) : NextP (Keeps s0) (execPlaneSwitch
    id s) := by
  unfold execPlaneSwitch
  with_reducible repeat'
    first
      | assumption | apply State.planeSwitch_keeps | apply State.unlessHalted_keeps | apply Keeps.next | (intro _)
      | split

/-! ### Machine/Operands.lean -/

theorem State.stall_still {s0 s : State} {i : Issuer} {t unit c n : ℕ} (h_ : Still s0 s) : Still s0 (State.stall s i t
    unit c n) := by
  unfold State.stall
  with_reducible repeat'
    first
      | assumption | apply State.count_still

theorem State.stall_keeps {s0 s : State} {i : Issuer} {t unit c n : ℕ} (h_ : Keeps s0 s) : Keeps s0 (State.stall s i t
    unit c n) :=
  h_.still (State.stall_still (Still.refl _))

theorem State.setQueue_still {s0 s : State} {t st u : ℕ} {q : StreamQ} (h_ : Still s0 s) : Still s0 (State.setQueue s
    t st u q) := by
  unfold State.setQueue
  with_reducible repeat'
    first
      | assumption | apply State.modTile_still

theorem State.takeBeats_still {s0 s : State} {t st u n : ℕ} (h_ : Still s0 s) : Still s0 (State.takeBeats s t st u
    n).2 := by
  unfold State.takeBeats
  with_reducible repeat'
    first
      | assumption | fail_if_no_progress extract_lets | apply State.modTile_still | apply State.setQueue_still | split

theorem State.takeBeats_keeps {s0 s : State} {t st u n : ℕ} (h_ : Keeps s0 s) : Keeps s0 (State.takeBeats s t st u
    n).2 :=
  h_.still (State.takeBeats_still (Still.refl _))

theorem State.earnWork_still {s0 s : State} {id : ℕ} {i : Issuer} {e : Earned} (h_ : Still s0 s) : Still s0
    (State.earnWork s id i e) := by
  unfold State.earnWork
  with_reducible repeat'
    first
      | assumption | apply State.earnOn_still | apply State.onRun_still | split

theorem State.earnWork_keeps {s0 s : State} {id : ℕ} {i : Issuer} {e : Earned} (h_ : Keeps s0 s) : Keeps s0
    (State.earnWork s id i e) :=
  h_.still (State.earnWork_still (Still.refl _))

/-! ### Machine/Banks.lean -/

theorem State.askBanks_still {s0 s : State} {tile key : ℕ} {ws : List ℕ} (h_ : Still s0 s) : Still s0 (State.askBanks
    s tile key ws).2 := by
  unfold State.askBanks
  with_reducible repeat'
    first
      | assumption | fail_if_no_progress extract_lets | apply State.modTile_still | (intro _) | split
      | refine Still.pairR (by assumption) ?_ | refine Still.pairL (by assumption) ?_
      | refine Still.pair3 (by assumption) ?_ | dsimp -zeta only | dsimp -zeta +zetaDelta only

theorem State.askBanks_keeps {s0 s : State} {tile key : ℕ} {ws : List ℕ} (h_ : Keeps s0 s) : Keeps s0 (State.askBanks
    s tile key ws).2 :=
  h_.still (State.askBanks_still (Still.refl _))

/-! ### Machine/Routes.lean -/

theorem State.modSource_still {s0 s : State} {t st : ℕ} {f : StreamSrc → StreamSrc} (h_ : Still s0 s) : Still s0
    (State.modSource s t st f) := by
  unfold State.modSource
  with_reducible repeat'
    first
      | assumption | apply State.modTile_still

theorem State.modSteer_still {s0 s : State} {t u : ℕ} {f : Steer → Steer} (h_ : Still s0 s) : Still s0 (State.modSteer
    s t u f) := by
  unfold State.modSteer
  with_reducible repeat'
    first
      | assumption | apply State.modTile_still

theorem State.land_still {s0 s : State} {t st dest : ℕ} {b : Beat} (h_ : Still s0 s) : Still s0 (State.land s t st
    dest b) := by
  unfold State.land
  with_reducible repeat'
    first
      | assumption | apply State.modSource_still | apply State.modSteer_still | apply State.setQueue_still
      | apply Still.fold | (intro _) | split

/-! ### Machine/Arrays.lean -/

theorem State.modPin_still {s0 s : State} {t a pn : ℕ} {f : Pinnule → Pinnule} (h_ : Still s0 s) : Still s0
    (State.modPin s t a pn f) := by
  unfold State.modPin
  with_reducible repeat'
    first
      | assumption | apply State.modArr_still

theorem State.modPin_keeps {s0 s : State} {t a pn : ℕ} {f : Pinnule → Pinnule} (h_ : Keeps s0 s) : Keeps s0
    (State.modPin s t a pn f) :=
  h_.still (State.modPin_still (Still.refl _))

theorem State.slotWrite_still {s0 s : State} {r : SlotRow} {i : Issuer} {cls : ℕ} {sh : StatSet} (h_ : Still s0 s) :
    Still s0 (State.slotWrite s r i cls sh) := by
  unfold State.slotWrite
  with_reducible repeat'
    first
      | assumption | fail_if_no_progress extract_lets | apply State.issuedOp_still | apply State.modPin_still
      | apply State.moved_still | apply State.stall_still | apply State.takeBeats_still
      | apply State.tracePoison_still | (intro _) | split | refine Still.pairR (by assumption) ?_
      | refine Still.pairL (by assumption) ?_ | refine Still.pair3 (by assumption) ?_ | dsimp -zeta only
      | dsimp -zeta +zetaDelta only

theorem State.slotLoad_still {s0 s : State} {r : SlotRow} {fresh : Bool} (h_ : Still s0 s) : Still s0 (State.slotLoad
    s r fresh) := by
  unfold State.slotLoad
  with_reducible repeat'
    first
      | assumption | fail_if_no_progress extract_lets | apply State.askBanks_still | apply State.slotWrite_still
      | apply State.stall_still | apply State.waitAt_still | split | refine Still.pairR (by assumption) ?_

theorem State.frondSlot_still {s0 s : State} {id tile array : ℕ} (h_ : Still s0 s) : Still s0 (State.frondSlot s id
    tile array) := by
  unfold State.frondSlot
  with_reducible repeat'
    first
      | assumption | fail_if_no_progress extract_lets | apply State.modArr_still | apply State.slotLoad_still
      | (intro _) | split | dsimp -zeta only | dsimp -zeta +zetaDelta only

theorem State.slotRow_still {s0 s : State} {x1 : SlotRef} (h_ : Still s0 s) : Still s0 (State.slotRow s x1) := by
  unfold State.slotRow
  with_reducible repeat'
    first
      | assumption | fail_if_no_progress extract_lets | apply State.frondSlot_still | apply State.slotLoad_still
      | (intro _) | split | dsimp -zeta only | dsimp -zeta +zetaDelta only

theorem State.slotRow_keeps {s0 s : State} {x1 : SlotRef} (h_ : Keeps s0 s) : Keeps s0 (State.slotRow s x1) :=
  h_.still (State.slotRow_still (Still.refl _))

theorem State.arrStall_still {s0 s : State} {i : Issuer} {t a pn c n : ℕ} (h_ : Still s0 s) : Still s0 (State.arrStall
    s i t a pn c n) := by
  unfold State.arrStall
  with_reducible repeat'
    first
      | assumption | fail_if_no_progress extract_lets | apply State.count_still | apply State.modArr_still
      | apply State.modBank_still | (intro _) | split | dsimp -zeta only | dsimp -zeta +zetaDelta only

theorem State.arrStall_keeps {s0 s : State} {i : Issuer} {t a pn c n : ℕ} (h_ : Keeps s0 s) : Keeps s0 (State.arrStall
    s i t a pn c n) :=
  h_.still (State.arrStall_still (Still.refl _))

theorem State.completeSet_still {s0 s : State} {r : RowIssue} (h_ : Still s0 s) : Still s0 (State.completeSet s r) :=
    by
  unfold State.completeSet
  with_reducible repeat'
    first
      | assumption | fail_if_no_progress extract_lets | apply State.frondSlot_still | apply Still.fold
      | apply Still.foldR | apply Still.foldL | apply Still.foldRun | apply Still.foldOut | apply Still.foldPre
      | apply Still.next | apply Still.ok | apply Still.error | apply Still.ok2 | apply Still.error2
      | apply Still.some | apply Still.none | apply Still.some2 | apply Still.none2 | (intro _) | split
      | refine Still.pairR (by assumption) ?_ | refine Still.pairL (by assumption) ?_
      | refine Still.pair3 (by assumption) ?_ | refine Still.ofOk (by assumption) ?_
      | refine Still.ofOk2 (by assumption) ?_ | refine Still.ofSome (by assumption) ?_
      | refine Still.ofSome2 (by assumption) ?_ | dsimp -zeta only | dsimp -zeta +zetaDelta only

theorem State.completeSet_keeps {s0 s : State} {r : RowIssue} (h_ : Keeps s0 s) : Keeps s0 (State.completeSet s r) :=
  h_.still (State.completeSet_still (Still.refl _))

theorem State.arrBusy_still {s0 s : State} {i : Issuer} {t a n : ℕ} (h_ : Still s0 s) : Still s0 (State.arrBusy s i t
    a n) := by
  unfold State.arrBusy
  with_reducible repeat'
    first
      | assumption | fail_if_no_progress extract_lets | apply State.count_still | apply State.modArr_still
      | apply State.modBank_still | (intro _) | split | dsimp -zeta only | dsimp -zeta +zetaDelta only

theorem State.arrBusy_keeps {s0 s : State} {i : Issuer} {t a n : ℕ} (h_ : Keeps s0 s) : Keeps s0 (State.arrBusy s i t
    a n) :=
  h_.still (State.arrBusy_still (Still.refl _))

theorem State.chainOut_still {s0 s : State} {r : RowIssue} {inc : ℕ} (h_ : Still s0 s) : Still s0 (State.chainOut s r
    inc) := by
  unfold State.chainOut
  with_reducible repeat'
    first
      | assumption | apply State.modArr_still | split

theorem State.chainOut_keeps {s0 s : State} {r : RowIssue} {inc : ℕ} (h_ : Keeps s0 s) : Keeps s0 (State.chainOut s r
    inc) :=
  h_.still (State.chainOut_still (Still.refl _))

theorem State.feedRow_still {s0 s : State} {r : RowIssue} {roles : ℕ} (h_ : Still s0 s) : Still s0 (State.feedRow s r
    roles).2.2 := by
  unfold State.feedRow
  with_reducible repeat'
    first
      | assumption | fail_if_no_progress extract_lets | apply State.takeBeats_still | (intro _) | split
      | refine Still.pairR (by assumption) ?_ | refine Still.pairL (by assumption) ?_
      | refine Still.pair3 (by assumption) ?_ | dsimp -zeta only | dsimp -zeta +zetaDelta only

theorem State.feedRow_keeps {s0 s : State} {r : RowIssue} {roles : ℕ} (h_ : Keeps s0 s) : Keeps s0 (State.feedRow s r
    roles).2.2 :=
  h_.still (State.feedRow_still (Still.refl _))

theorem State.pinFault_keeps {s0 s : State} {r : RowIssue} {i : Issuer} (h_ : Keeps s0 s) : Keeps s0 (State.pinFault s
    r i) := by
  unfold State.pinFault
  with_reducible repeat'
    first
      | assumption | apply State.earnWork_keeps | apply State.markKeys_keeps | apply State.modBank_keeps
      | apply State.modPin_keeps | apply State.traceEv_keeps | apply Keeps.fold | (intro _)

theorem State.rowDone_still {s0 s : State} {r : RowIssue} (h_ : Still s0 s) : Still s0 (State.rowDone s r) := by
  unfold State.rowDone
  with_reducible repeat'
    first
      | assumption | fail_if_no_progress extract_lets | apply State.issuedOp_still | apply State.modPin_still
      | (intro _) | split | dsimp -zeta only | dsimp -zeta +zetaDelta only

theorem State.rowDone_keeps {s0 s : State} {r : RowIssue} (h_ : Keeps s0 s) : Keeps s0 (State.rowDone s r) :=
  h_.still (State.rowDone_still (Still.refl _))

theorem State.rowGo_keeps {s0 s : State} {r : RowIssue} {i : Issuer} {cls : ℕ} (h_ : Keeps s0 s) : Keeps s0
    (State.rowGo s r i cls) := by
  unfold State.rowGo
  with_reducible repeat'
    first
      | assumption | fail_if_no_progress extract_lets | apply State.arrBusy_keeps | apply State.chainOut_keeps
      | apply State.feedRow_keeps | apply State.markKeys_keeps | apply State.modArr_keeps | apply State.modPin_keeps
      | apply State.moved_keeps | apply State.pinFault_keeps | apply State.rowDone_keeps | apply State.store_keeps
      | apply State.takeBeats_keeps | apply State.traceEv_keeps | apply State.tracePoison_keeps | apply Keeps.fold
      | apply Keeps.foldR | apply Keeps.foldL | apply Keeps.foldRun | apply Keeps.foldOut | apply Keeps.foldPre
      | apply Keeps.next | apply Keeps.ok | apply Keeps.error | apply Keeps.ok2 | apply Keeps.error2
      | apply Keeps.some | apply Keeps.none | apply Keeps.some2 | apply Keeps.none2 | (intro _) | split
      | refine Keeps.pairR (by assumption) ?_ | refine Keeps.pairL (by assumption) ?_
      | refine Keeps.pair3 (by assumption) ?_ | refine Keeps.ofOk (by assumption) ?_
      | refine Keeps.ofOk2 (by assumption) ?_ | refine Keeps.ofSome (by assumption) ?_
      | refine Keeps.ofSome2 (by assumption) ?_ | dsimp -zeta only | dsimp -zeta +zetaDelta only

theorem State.rowHold_still {s0 s : State} {r : RowIssue} {i : Issuer} {c : ℕ} {waits : Bool} (h_ : Still s0 s) :
    Still s0 (State.rowHold s r i c waits) := by
  unfold State.rowHold
  with_reducible repeat'
    first
      | assumption | fail_if_no_progress extract_lets | apply State.arrStall_still | apply State.waitAt_still
      | (intro _) | split | dsimp -zeta only | dsimp -zeta +zetaDelta only

theorem State.rowHold_keeps {s0 s : State} {r : RowIssue} {i : Issuer} {c : ℕ} {waits : Bool} (h_ : Keeps s0 s) :
    Keeps s0 (State.rowHold s r i c waits) :=
  h_.still (State.rowHold_still (Still.refl _))

theorem State.rowIssue_keeps {s0 s : State} {r : RowIssue} {ahead : Bool} (h_ : Keeps s0 s) : Keeps s0 (State.rowIssue
    s r ahead) := by
  unfold State.rowIssue
  with_reducible repeat'
    first
      | assumption | fail_if_no_progress extract_lets | apply State.arrStall_keeps | apply State.askBanks_keeps
      | apply State.completeSet_keeps | apply State.rowGo_keeps | apply State.rowHold_keeps
      | apply State.untilMclk_keeps | apply Keeps.fold | apply Keeps.foldR | apply Keeps.foldL | apply Keeps.foldRun
      | apply Keeps.foldOut | apply Keeps.foldPre | apply Keeps.next | apply Keeps.ok | apply Keeps.error
      | apply Keeps.ok2 | apply Keeps.error2 | apply Keeps.some | apply Keeps.none | apply Keeps.some2
      | apply Keeps.none2 | (intro _) | split | refine Keeps.pairR (by assumption) ?_
      | refine Keeps.pairL (by assumption) ?_ | refine Keeps.pair3 (by assumption) ?_
      | refine Keeps.ofOk (by assumption) ?_ | refine Keeps.ofOk2 (by assumption) ?_
      | refine Keeps.ofSome (by assumption) ?_ | refine Keeps.ofSome2 (by assumption) ?_ | dsimp -zeta only
      | dsimp -zeta +zetaDelta only

theorem State.streamRow_keeps {s0 s : State} {x1 : RowRef} (h_ : Keeps s0 s) : Keeps s0 (State.streamRow s x1) := by
  unfold State.streamRow
  with_reducible repeat'
    first
      | assumption | fail_if_no_progress extract_lets | apply State.rowIssue_keeps | (intro _) | split
      | dsimp -zeta only | dsimp -zeta +zetaDelta only

/-! ### Machine/Drain.lean -/

theorem State.sourceBeats_still {s0 s : State} {t unit st : ℕ} {bs : List Beat} (h_ : Still s0 s) : Still s0
    (State.sourceBeats s t unit st bs) := by
  unfold State.sourceBeats
  with_reducible repeat'
    first
      | assumption | apply State.modTile_still

theorem State.sourceBeats_keeps {s0 s : State} {t unit st : ℕ} {bs : List Beat} (h_ : Keeps s0 s) : Keeps s0
    (State.sourceBeats s t unit st bs) :=
  h_.still (State.sourceBeats_still (Still.refl _))

theorem State.issueEntry_still {s0 s : State} {o : OpRef} {unit : ℕ} (h_ : Still s0 s) : Still s0 (State.issueEntry s
    o unit) := by
  unfold State.issueEntry
  with_reducible repeat'
    first
      | assumption | apply State.issuedOp_still | apply State.moved_still | split

theorem State.issueEntry_keeps {s0 s : State} {o : OpRef} {unit : ℕ} (h_ : Keeps s0 s) : Keeps s0 (State.issueEntry s
    o unit) :=
  h_.still (State.issueEntry_still (Still.refl _))

theorem State.drainOne_keeps {s0 s : State} {o : OpRef} {i : Issuer} {roles row : ℕ} (h_ : Keeps s0 s) : Keeps s0
    (State.drainOne s o i roles row) := by
  unfold State.drainOne
  with_reducible repeat'
    first
      | assumption | fail_if_no_progress extract_lets | apply State.health_keeps | apply State.sourceBeats_keeps
      | apply State.store_keeps | apply State.tracePoison_keeps | split | dsimp -zeta +zetaDelta only

theorem State.fillOne_keeps {s0 s : State} {o : OpRef} {roles row : ℕ} (h_ : Keeps s0 s) : Keeps s0 (State.fillOne s o
    roles row) := by
  unfold State.fillOne
  with_reducible repeat'
    first
      | assumption | fail_if_no_progress extract_lets | apply State.store_keeps | apply State.tracePoison_keeps
      | (intro _) | split | dsimp -zeta only | dsimp -zeta +zetaDelta only

theorem State.drainStep_keeps {s0 s : State} {o : OpRef} {i : Issuer} {roles row : ℕ} (h_ : Keeps s0 s) : Keeps s0
    (State.drainStep s o i roles row) := by
  unfold State.drainStep
  with_reducible repeat'
    first
      | assumption | fail_if_no_progress extract_lets | apply State.drainOne_keeps | apply State.fillOne_keeps
      | (intro _) | split | dsimp -zeta only | dsimp -zeta +zetaDelta only

theorem State.drainRows_keeps {s0 s : State} {o : OpRef} {i : Issuer} {roles n row : ℕ} (h_ : Keeps s0 s) :
    Keeps s0 (State.drainRows s o i roles n row).2 := by
  induction n generalizing s row with
  | zero => exact h_
  | succ n ih =>
    unfold State.drainRows
    split
    · exact h_
    · exact ih (State.drainStep_keeps h_)

theorem State.drainOn_keeps {s0 s : State} {d : DrainRun} {i : Issuer} (h_ : Keeps s0 s) : Keeps s0 (State.drainOn s d
    i) := by
  unfold State.drainOn
  with_reducible repeat'
    first
      | assumption | fail_if_no_progress extract_lets | apply State.drainRows_keeps | apply State.modArr_keeps
      | apply State.moved_keeps | apply State.movesTo_keeps | apply State.stall_keeps | (intro _) | split
      | refine Keeps.pairR (by assumption) ?_ | refine Keeps.pairL (by assumption) ?_
      | refine Keeps.pair3 (by assumption) ?_ | dsimp -zeta only | dsimp -zeta +zetaDelta only

theorem State.drainGo_keeps {s0 s : State} {o : OpRef} {i : Issuer} (h_ : Keeps s0 s) : Keeps s0 (State.drainGo s o i)
    := by
  unfold State.drainGo
  with_reducible repeat'
    first
      | assumption | fail_if_no_progress extract_lets | apply State.drainOn_keeps | apply State.issueEntry_keeps
      | apply State.untilMclk_keeps | apply Keeps.fold | (intro _) | split

theorem State.drainRef_keeps {s0 s : State} {w : WorkRef} {fill : Bool} (h_ : Keeps s0 s) : Keeps s0 (State.drainRef s
    w fill) := by
  unfold State.drainRef
  with_reducible repeat'
    first
      | assumption | fail_if_no_progress extract_lets | apply State.drainGo_keeps | apply State.drainOn_keeps
      | (intro _) | split | dsimp -zeta only | dsimp -zeta +zetaDelta only

end Sys2Proof.Machine
end

