-- ==== Sys2Proof/Laws/FramePairs.lean ====
section
/-!
SUPPORT. What the operations of Machine/Pairs.lean, CollRows.lean, Trace.lean do to the queue of commands and to memory.
-/
namespace Sys2Proof.Machine
open Sys2Proof

/-! ### Machine/Pairs.lean -/

theorem State.finishOp_still {s0 s : State} {p op : ℕ} {es : List Earned} (h_ : Still s0 s) : Still s0 (State.finishOp
    s p op es) := by
  unfold State.finishOp
  with_reducible repeat'
    first
      | assumption | apply State.finish_still | apply Still.fold | (intro _)

theorem State.finishOp_keeps {s0 s : State} {p op : ℕ} {es : List Earned} (h_ : Keeps s0 s) : Keeps s0 (State.finishOp
    s p op es) :=
  h_.still (State.finishOp_still (Still.refl _))

theorem State.onPair_still {s0 s : State} {p : ℕ} {f : Pair → Pair} (h_ : Still s0 s) : Still s0 (State.onPair s p f)
    := by
  unfold State.onPair
  with_reducible repeat'
    first
      | assumption | apply State.modPart_still

theorem State.onPair_keeps {s0 s : State} {p : ℕ} {f : Pair → Pair} (h_ : Keeps s0 s) : Keeps s0 (State.onPair s p f)
    :=
  h_.still (State.onPair_still (Still.refl _))

theorem State.ackAll_keeps {s0 s : State} {p : ℕ} (h_ : Keeps s0 s) : Keeps s0 (State.ackAll s p) := by
  unfold State.ackAll
  with_reducible repeat'
    first
      | assumption | apply State.ackGroup_keeps | apply State.onUpd_keeps | apply State.updateCheck_keeps
      | apply State.wrAt_keeps | apply Keeps.fold | (intro _) | split | dsimp -zeta +zetaDelta only

theorem State.failover_keeps {s0 s : State} {p cause : ℕ} (h_ : Keeps s0 s) : Keeps s0 (State.failover s p cause) :=
    by
  unfold State.failover
  with_reducible repeat'
    first
      | assumption | fail_if_no_progress extract_lets | apply State.ackAll_keeps | apply State.event_keeps
      | apply State.finishOp_keeps | apply State.modPart_keeps | split

theorem State.resyncCheck_keeps {s0 s : State} {p : ℕ} (h_ : Keeps s0 s) : Keeps s0 (State.resyncCheck s p) := by
  unfold State.resyncCheck
  with_reducible repeat'
    first
      | assumption | fail_if_no_progress extract_lets | apply State.event_keeps | apply State.failover_keeps
      | apply State.finishOp_keeps | apply State.modPart_keeps | split

theorem State.resyncSend_still {s0 s : State} {p a n : ℕ} (h_ : Still s0 s) : Still s0 (State.resyncSend s p a n) :=
    by
  unfold State.resyncSend
  with_reducible repeat'
    first
      | assumption | apply State.sendOr_still | apply Still.fold | (intro _)

theorem State.resyncSend_keeps {s0 s : State} {p a n : ℕ} (h_ : Keeps s0 s) : Keeps s0 (State.resyncSend s p a n) :=
  h_.still (State.resyncSend_still (Still.refl _))

theorem State.formMatch_keeps {s0 s : State} {p : ℕ} (h_ : Keeps s0 s) : Keeps s0 (State.formMatch s p) := by
  unfold State.formMatch
  with_reducible repeat'
    first
      | assumption | fail_if_no_progress extract_lets | apply State.finishOp_keeps | apply State.onPair_keeps
      | apply State.resyncCheck_keeps | apply State.resyncSend_keeps | apply State.undefine_keeps | split
      | dsimp -zeta +zetaDelta only

theorem execMirrorData_still {s0 : State} {p : ℕ} {s : State} (h_ : Still s0 s) : NextP (Still s0) (execMirrorData p
    s) := by
  unfold execMirrorData
  with_reducible repeat'
    first
      | assumption | apply State.deliver_still | apply State.onPair_still | apply Still.next | split
      | refine Still.ofSome2 (by assumption) ?_

theorem State.commitCheck_still {s0 s : State} {p : ℕ} (h_ : Still s0 s) : Still s0 (State.commitCheck s p) := by
  unfold State.commitCheck
  with_reducible repeat'
    first
      | assumption | fail_if_no_progress extract_lets | apply State.finish_still | apply State.onPair_still | split

theorem State.commitCheck_keeps {s0 s : State} {p : ℕ} (h_ : Keeps s0 s) : Keeps s0 (State.commitCheck s p) :=
  h_.still (State.commitCheck_still (Still.refl _))

theorem execCommit_still {s0 : State} {p : ℕ} {s : State} (h_ : Still s0 s) : NextP (Still s0) (execCommit p s) := by
  unfold execCommit
  with_reducible repeat'
    first
      | assumption | apply State.commitCheck_still | apply State.deliver_still | apply State.onPair_still
      | apply Still.next | split | refine Still.ofSome2 (by assumption) ?_

theorem State.sendPair_still {s0 s : State} {p kind : ℕ} {data : List Byte} (h_ : Still s0 s) : OkP (Still s0)
    (State.sendPair s p kind data) := by
  unfold State.sendPair
  with_reducible repeat'
    first
      | assumption | apply State.sendTxn_still

theorem State.sendPair_keeps {s0 s : State} {p kind : ℕ} {data : List Byte} (h_ : Keeps s0 s) : OkP (Keeps s0)
    (State.sendPair s p kind data) :=
  h_.okS (State.sendPair_still (Still.refl _))

theorem execPairCommit_still {s0 : State} {q : ℕ} {s : State} (h_ : Still s0 s) : NextP (Still s0) (execPairCommit q
    s) := by
  unfold execPairCommit
  with_reducible repeat'
    first
      | assumption | fail_if_no_progress extract_lets | apply State.commitCheck_still | apply State.dispatch_still
      | apply State.finish_still | apply State.onPair_still | apply State.sendPair_still | apply State.startAt_still
      | apply Still.next | apply Still.ok | apply Still.error | (intro _) | split
      | refine Still.ofOk (by assumption) ?_

theorem execPairFailN_keeps {s0 : State} {low : Bool} {s : State} (h_ : Keeps s0 s) : NextP (Keeps s0) (execPairFailN
    low s) := by
  unfold execPairFailN
  with_reducible repeat'
    first
      | assumption | fail_if_no_progress extract_lets | apply State.failover_keeps | apply State.modPins_keeps
      | apply Keeps.fold | apply Keeps.next | (intro _) | split

theorem State.heartbeat_still {s0 s : State} {p : ℕ} (h_ : Still s0 s) : Still s0 (State.heartbeat s p) := by
  unfold State.heartbeat
  with_reducible repeat'
    first
      | assumption | apply State.modLink_still | apply Still.fold | (intro _)

theorem State.pairConfig_keeps {s0 s : State} {q id : ℕ} {b : List Byte} (h_ : Keeps s0 s) : OkP (Keeps s0)
    (State.pairConfig s q id b) := by
  unfold State.pairConfig
  with_reducible repeat'
    first
      | assumption | fail_if_no_progress extract_lets | apply State.ackAll_keeps | apply State.event_keeps
      | apply State.finish_keeps | apply State.formMatch_keeps | apply State.modPart_keeps | apply State.onPair_keeps
      | apply State.sendPair_keeps | apply State.startAt_keeps | apply Keeps.ok | apply Keeps.error | split
      | refine Keeps.ofOk (by assumption) ?_ | dsimp -zeta +zetaDelta only

theorem execPairConfig_keeps {s0 : State} {q : ℕ} {s : State} (h_ : Keeps s0 s) : NextP (Keeps s0) (execPairConfig q
    s) := by
  unfold execPairConfig
  with_reducible repeat'
    first
      | assumption | apply State.dispatch_keeps | apply State.pairConfig_keeps | apply Keeps.next | (intro _)

theorem State.mirrorAck_keeps {s0 s : State} {p : ℕ} {t : Txn} (h_ : Keeps s0 s) : Keeps s0 (State.mirrorAck s p t) :=
    by
  unfold State.mirrorAck
  with_reducible repeat'
    first
      | assumption | fail_if_no_progress extract_lets | apply State.ackGroup_keeps | apply State.commitCheck_keeps
      | apply State.onPair_keeps | apply State.onUpd_keeps | apply State.updateCheck_keeps | apply State.wrAt_keeps
      | split

theorem execMirrorAck_keeps {s0 : State} {p : ℕ} {s : State} (h_ : Keeps s0 s) : NextP (Keeps s0) (execMirrorAck p s)
    := by
  unfold execMirrorAck
  with_reducible repeat'
    first
      | assumption | apply State.deliver_keeps | apply State.mirrorAck_keeps | apply Keeps.next | split
      | refine Keeps.ofSome2 (by assumption) ?_

theorem execHeartbeatTimeout_keeps {s0 : State} {p : ℕ} {s : State} (h_ : Keeps s0 s) : NextP (Keeps s0)
    (execHeartbeatTimeout p s) := by
  unfold execHeartbeatTimeout
  with_reducible repeat'
    first
      | assumption | fail_if_no_progress extract_lets | apply State.failover_keeps | apply State.unlessFrozen_keeps
      | apply State.untilLive_keeps | apply Keeps.next | (intro _) | split

theorem State.applyLanded_keeps {s0 s : State} {p : ℕ} {t : Txn} {kind : ℕ} (h_ : Keeps s0 s) : Keeps s0
    (State.applyLanded s p t kind) := by
  unfold State.applyLanded
  with_reducible repeat'
    first
      | assumption | apply State.onPair_keeps | apply State.sendOr_keeps | apply State.wrAt_keeps | apply Keeps.fold
      | (intro _) | split

theorem execScaleRecordEnd_keeps {s0 : State} {p : ℕ} {s : State} (h_ : Keeps s0 s) : NextP (Keeps s0)
    (execScaleRecordEnd p s) := by
  unfold execScaleRecordEnd
  with_reducible repeat'
    first
      | assumption | apply State.applyLanded_keeps | apply State.deliver_keeps | apply Keeps.next | split
      | refine Keeps.ofSome2 (by assumption) ?_

theorem execPairHeartbeat_keeps {s0 : State} {port node epoch : ℕ} {frozen faulted ended : Bool} {s : State} (h_ :
    Keeps s0 s) : NextP (Keeps s0) (execPairHeartbeat port node epoch frozen faulted ended s) := by
  unfold execPairHeartbeat
  with_reducible repeat'
    first
      | assumption | fail_if_no_progress extract_lets | apply State.failover_keeps | apply State.onPair_keeps
      | apply Keeps.next | split

theorem State.resyncBytes_keeps {s0 s : State} {p : ℕ} {t : Txn} (h_ : Keeps s0 s) : Keeps s0 (State.resyncBytes s p
    t) := by
  unfold State.resyncBytes
  with_reducible repeat'
    first
      | assumption | fail_if_no_progress extract_lets | apply State.onPair_keeps | apply State.resyncCheck_keeps
      | apply State.wrAt_keeps | apply Keeps.fold | (intro _) | split

theorem execGroupEnd_keeps {s0 : State} {p : ℕ} {s : State} (h_ : Keeps s0 s) : NextP (Keeps s0) (execGroupEnd p s) :=
    by
  unfold execGroupEnd
  with_reducible repeat'
    first
      | assumption | apply State.applyLanded_keeps | apply State.deliver_keeps | apply Keeps.next | split
      | refine Keeps.ofSome2 (by assumption) ?_

theorem execHeartbeatSend_still {s0 : State} {p : ℕ} {s : State} (h_ : Still s0 s) : NextP (Still s0)
    (execHeartbeatSend p s) := by
  unfold execHeartbeatSend
  with_reducible repeat'
    first
      | assumption | apply State.heartbeat_still | apply State.onPair_still | apply State.untilRoot_still
      | apply Still.next | split

theorem execResyncBytes_keeps {s0 : State} {p : ℕ} {s : State} (h_ : Keeps s0 s) : NextP (Keeps s0) (execResyncBytes p
    s) := by
  unfold execResyncBytes
  with_reducible repeat'
    first
      | assumption | apply State.deliver_keeps | apply State.resyncBytes_keeps | apply Keeps.next | split
      | refine Keeps.ofSome2 (by assumption) ?_

theorem execForm_keeps {s0 : State} {p : ℕ} {s : State} (h_ : Keeps s0 s) : NextP (Keeps s0) (execForm p s) := by
  unfold execForm
  with_reducible repeat'
    first
      | assumption | fail_if_no_progress extract_lets | apply State.deliver_keeps | apply State.formMatch_keeps
      | apply State.onPair_keeps | apply Keeps.next | split | refine Keeps.ofSome2 (by assumption) ?_

/-! ### Machine/CollRows.lean -/

theorem execCollTimeout_keeps {s0 : State} {id member : ℕ} {s : State} (h_ : Keeps s0 s) : NextP (Keeps s0)
    (execCollTimeout id member s) := by
  unfold execCollTimeout
  with_reducible repeat'
    first
      | assumption | apply State.collFail_keeps | apply State.collsGo_keeps | apply State.unlessFrozen_keeps
      | apply State.untilLive_keeps | apply Keeps.next | (intro _) | split

theorem State.writeJobEpoch_still {s0 s : State} {v : ℕ} (h_ : Still s0 s) : Still s0 (State.writeJobEpoch s v) := by
  unfold State.writeJobEpoch
  with_reducible repeat'
    first
      | assumption | fail_if_no_progress extract_lets | apply State.hostErrOpen_still | apply State.onJob_still
      | apply State.withJob_still | split | refine Still.ofSome (by assumption) ?_

theorem State.writeJobEpoch_keeps {s0 s : State} {v : ℕ} (h_ : Keeps s0 s) : Keeps s0 (State.writeJobEpoch s v) :=
  h_.still (State.writeJobEpoch_still (Still.refl _))

theorem State.answerColl_still {s0 s : State} {p : ℕ} {t : Txn} {h : CollHdr} {op epoch : ℕ} (h_ : Still s0 s) : Still
    s0 (State.answerColl s p t h op epoch) := by
  unfold State.answerColl
  with_reducible repeat'
    first
      | assumption | apply State.sendOr_still

theorem State.answerColl_keeps {s0 s : State} {p : ℕ} {t : Txn} {h : CollHdr} {op epoch : ℕ} (h_ : Keeps s0 s) : Keeps
    s0 (State.answerColl s p t h op epoch) :=
  h_.still (State.answerColl_still (Still.refl _))

theorem State.admitColl_still {s0 s : State} {p : ℕ} {t : Txn} {h : CollHdr} (h_ : Still s0 s) : Still s0
    (State.admitColl s p t h).1 := by
  unfold State.admitColl
  with_reducible repeat'
    first
      | assumption | fail_if_no_progress extract_lets | apply State.answerColl_still | apply State.countStale_still
      | apply State.modMod_still | split

theorem State.admitColl_keeps {s0 s : State} {p : ℕ} {t : Txn} {h : CollHdr} (h_ : Keeps s0 s) : Keeps s0
    (State.admitColl s p t h).1 :=
  h_.still (State.admitColl_still (Still.refl _))

theorem execWriteRsp_still {s0 : State} {p : ℕ} {s : State} (h_ : Still s0 s) : NextP (Still s0) (execWriteRsp p s) :=
    by
  unfold execWriteRsp
  with_reducible repeat'
    first
      | assumption | apply State.deliver_still | apply Still.next | split | refine Still.ofSome2 (by assumption) ?_

theorem State.addColl_still {s0 s : State} {q id op : ℕ} {b : List Byte} {ns : List ℕ} {job coll epoch : ℕ} {cache :
    Option (ℕ × ℕ)} (h_ : Still s0 s) : OkP (Still s0) (State.addColl s q id op b ns job coll epoch cache) := by
  unfold State.addColl
  with_reducible repeat'
    first
      | assumption | fail_if_no_progress extract_lets | apply State.modWork_still | apply State.withJob_still
      | apply Still.ok | apply Still.error | split | refine Still.ofSome (by assumption) ?_

theorem State.addColl_keeps {s0 s : State} {q id op : ℕ} {b : List Byte} {ns : List ℕ} {job coll epoch : ℕ} {cache :
    Option (ℕ × ℕ)} (h_ : Keeps s0 s) : OkP (Keeps s0) (State.addColl s q id op b ns job coll epoch cache) :=
  h_.okS (State.addColl_still (Still.refl _))

theorem execKvRing_keeps {s0 : State} {q : ℕ} {s : State} (h_ : Keeps s0 s) : NextP (Keeps s0) (execKvRing q s) := by
  unfold execKvRing
  with_reducible repeat'
    first
      | assumption | fail_if_no_progress extract_lets | apply State.addColl_keeps | apply State.collsGo_keeps
      | apply State.dispatch_keeps | apply Keeps.next | apply Keeps.ok | apply Keeps.error | (intro _) | split

theorem State.collFrame_keeps {s0 s : State} {p : ℕ} {t : Txn} {f : State → Coll → CollHdr → State} (h_ : Keeps s0 s)
    (hf : ∀ t x1 x2, Keeps s0 t → Keeps s0 (f t x1 x2)) : Keeps s0 (State.collFrame s p t f) := by
  unfold State.collFrame
  with_reducible repeat'
    first
      | assumption | apply hf | fail_if_no_progress extract_lets | apply State.admitColl_keeps
      | apply State.collsGo_keeps | apply State.modMod_keeps | apply State.onColl_keeps | split
      | refine Keeps.pairL (by assumption) ?_

theorem execAbort_keeps {s0 : State} {p : ℕ} {s : State} (h_ : Keeps s0 s) : NextP (Keeps s0) (execAbort p s) := by
  unfold execAbort
  with_reducible repeat'
    first
      | assumption | apply State.collFail_keeps | apply State.collFrame_keeps | apply State.deliver_keeps
      | apply Keeps.next | (intro _) | split | refine Keeps.ofSome2 (by assumption) ?_

theorem State.collSeg_keeps {s0 s : State} {t : Txn} {c : Coll} {h : CollHdr} (h_ : Keeps s0 s) : Keeps s0
    (State.collSeg s t c h) := by
  unfold State.collSeg
  with_reducible repeat'
    first
      | assumption | fail_if_no_progress extract_lets | apply State.collGo_keeps | apply State.kvLand_keeps
      | apply State.onColl_keeps | apply State.wrAt_keeps | apply Keeps.fold | (intro _) | split

theorem execJobEpoch_still {s0 : State} {v : ℕ} {s : State} (h_ : Still s0 s) : NextP (Still s0) (execJobEpoch v s) :=
    by
  unfold execJobEpoch
  with_reducible repeat'
    first
      | assumption | apply State.writeJobEpoch_still | apply Still.next | split

theorem execCollSeg_keeps {s0 : State} {p : ℕ} {s : State} (h_ : Keeps s0 s) : NextP (Keeps s0) (execCollSeg p s) :=
    by
  unfold execCollSeg
  with_reducible repeat'
    first
      | assumption | apply State.collFrame_keeps | apply State.collSeg_keeps | apply State.deliver_keeps
      | apply Keeps.next | (intro _) | split | refine Keeps.ofSome2 (by assumption) ?_

theorem State.clearFrame_keeps {s0 s : State} {p : ℕ} {t : Txn} (h_ : Keeps s0 s) : Keeps s0 (State.clearFrame s p t)
    := by
  unfold State.clearFrame
  with_reducible repeat'
    first
      | assumption | fail_if_no_progress extract_lets | apply State.admitColl_keeps | apply State.answerColl_keeps
      | apply State.collFrame_keeps | apply State.modPart_keeps | apply State.rendezvous_keeps
      | apply State.takeClear_keeps | (intro _) | split | refine Keeps.pairL (by assumption) ?_

theorem execStale_keeps {s0 : State} {p : ℕ} {s : State} (h_ : Keeps s0 s) : NextP (Keeps s0) (execStale p s) := by
  unfold execStale
  with_reducible repeat'
    first
      | assumption | fail_if_no_progress extract_lets | apply State.admitColl_keeps | apply State.collFail_keeps
      | apply State.collsGo_keeps | apply State.deliver_keeps | apply Keeps.next | split
      | refine Keeps.pairL (by assumption) ?_ | refine Keeps.ofSome2 (by assumption) ?_

theorem execWrite_keeps {s0 : State} {p : ℕ} {s : State} (h_ : Keeps s0 s) : NextP (Keeps s0) (execWrite p s) := by
  unfold execWrite
  with_reducible repeat'
    first
      | assumption | apply State.deliver_keeps | apply State.sendOr_keeps | apply State.wrAt_keeps | apply Keeps.fold
      | apply Keeps.next | (intro _) | split | refine Keeps.ofSome2 (by assumption) ?_ | dsimp -zeta +zetaDelta only

theorem execReshard_keeps {s0 : State} {q : ℕ} {s : State} (h_ : Keeps s0 s) : NextP (Keeps s0) (execReshard q s) :=
    by
  unfold execReshard
  with_reducible repeat'
    first
      | assumption | fail_if_no_progress extract_lets | apply State.addColl_keeps | apply State.collsGo_keeps
      | apply State.dispatch_keeps | apply Keeps.next | apply Keeps.ok | apply Keeps.error | (intro _) | split

theorem execClearResend_keeps {s0 : State} {id member : ℕ} {s : State} (h_ : Keeps s0 s) : NextP (Keeps s0)
    (execClearResend id member s) := by
  unfold execClearResend
  with_reducible repeat'
    first
      | assumption | apply State.collDown_keeps | apply State.collsGo_keeps | apply State.onColl_keeps
      | apply State.sendColl_keeps | apply State.unlessFrozen_keeps | apply State.untilRoot_keeps | apply Keeps.next
      | (intro _) | split

theorem execArrive_keeps {s0 : State} {p : ℕ} {s : State} (h_ : Keeps s0 s) : NextP (Keeps s0) (execArrive p s) := by
  unfold execArrive
  with_reducible repeat'
    first
      | assumption | apply State.collFrame_keeps | apply State.collGo_keeps | apply State.deliver_keeps
      | apply State.onColl_keeps | apply Keeps.next | (intro _) | split | refine Keeps.ofSome2 (by assumption) ?_

theorem execBusy_still {s0 : State} {p : ℕ} {s : State} (h_ : Still s0 s) : NextP (Still s0) (execBusy p s) := by
  unfold execBusy
  with_reducible repeat'
    first
      | assumption | fail_if_no_progress extract_lets | apply State.admitColl_still | apply State.deliver_still
      | apply State.onColl_still | apply Still.next | split | refine Still.pairL (by assumption) ?_
      | refine Still.ofSome2 (by assumption) ?_

theorem execClear_keeps {s0 : State} {p : ℕ} {s : State} (h_ : Keeps s0 s) : NextP (Keeps s0) (execClear p s) := by
  unfold execClear
  with_reducible repeat'
    first
      | assumption | apply State.clearFrame_keeps | apply State.deliver_keeps | apply Keeps.next | split
      | refine Keeps.ofSome2 (by assumption) ?_

theorem execCollective_keeps {s0 : State} {q : ℕ} {s : State} (h_ : Keeps s0 s) : NextP (Keeps s0) (execCollective q
    s) := by
  unfold execCollective
  with_reducible repeat'
    first
      | assumption | apply State.addColl_keeps | apply State.collsGo_keeps | apply State.dispatch_keeps
      | apply Keeps.next | apply Keeps.ok | apply Keeps.error | (intro _) | split

theorem execFlags_keeps {s0 : State} {p : ℕ} {s : State} (h_ : Keeps s0 s) : NextP (Keeps s0) (execFlags p s) := by
  unfold execFlags
  with_reducible repeat'
    first
      | assumption | apply State.collFrame_keeps | apply State.collGo_keeps | apply State.deliver_keeps
      | apply State.onColl_keeps | apply Keeps.next | (intro _) | split | refine Keeps.ofSome2 (by assumption) ?_

/-! ### Machine/Trace.lean -/

theorem State.modRing_still {s0 s : State} {p : ℕ} {f : TraceRing → TraceRing} (h_ : Still s0 s) : Still s0
    (State.modRing s p f) := by
  unfold State.modRing
  with_reducible repeat'
    first
      | assumption | apply State.modPart_still

theorem State.modRing_keeps {s0 s : State} {p : ℕ} {f : TraceRing → TraceRing} (h_ : Keeps s0 s) : Keeps s0
    (State.modRing s p f) :=
  h_.still (State.modRing_still (Still.refl _))

theorem State.traceHeader_keeps {s0 s : State} {p : ℕ} (h_ : Keeps s0 s) : Keeps s0 (State.traceHeader s p) := by
  unfold State.traceHeader
  with_reducible repeat'
    first
      | assumption | apply State.wrAt_keeps

theorem State.traceBlock_keeps {s0 s : State} {p : ℕ} {recs : List ℕ} (h_ : Keeps s0 s) : Keeps s0 (State.traceBlock s
    p recs) := by
  unfold State.traceBlock
  with_reducible repeat'
    first
      | assumption | fail_if_no_progress extract_lets | apply State.modRing_keeps | apply State.traceHeader_keeps
      | apply State.wrAt_keeps | split

theorem State.traceDrain_keeps {s0 s : State} {src : ℕ} (h_ : Keeps s0 s) : Keeps s0 (State.traceDrain s src) := by
  unfold State.traceDrain
  with_reducible repeat'
    first
      | assumption | fail_if_no_progress extract_lets | apply State.modTrace_keeps | apply State.traceBlock_keeps
      | split

theorem State.traceFlush1_keeps {s0 s : State} {src : ℕ} (h_ : Keeps s0 s) : Keeps s0 (State.traceFlush1 s src) := by
  unfold State.traceFlush1
  with_reducible repeat'
    first
      | assumption | fail_if_no_progress extract_lets | apply State.modTrace_keeps | apply State.traceBlock_keeps
      | apply State.traceDrain_keeps | split

theorem State.traceFlush_keeps {s0 s : State} {p : ℕ} (h_ : Keeps s0 s) : Keeps s0 (State.traceFlush s p) := by
  unfold State.traceFlush
  with_reducible repeat'
    first
      | assumption | apply State.traceFlush1_keeps | apply Keeps.fold | split

theorem State.traceRecord_still {s0 s : State} {p : ℕ} {on : Bool} (h_ : Still s0 s) : Still s0 (State.traceRecord s p
    on) := by
  unfold State.traceRecord
  with_reducible repeat'
    first
      | assumption | apply State.modTrace_still | apply Still.fold | (intro _)

theorem State.traceRecord_keeps {s0 s : State} {p : ℕ} {on : Bool} (h_ : Keeps s0 s) : Keeps s0 (State.traceRecord s p
    on) :=
  h_.still (State.traceRecord_still (Still.refl _))

theorem State.traceBody_keeps {s0 s : State} {q id : ℕ} {b : List Byte} (h_ : Keeps s0 s) : Keeps s0 (State.traceBody
    s q id b) := by
  unfold State.traceBody
  with_reducible repeat'
    first
      | assumption | apply State.finish_keeps | apply State.modRing_keeps | apply State.startAt_keeps
      | apply State.traceFlush_keeps | apply State.traceHeader_keeps | apply State.traceRecord_keeps
      | apply State.wrAt_keeps | split | dsimp -zeta +zetaDelta only

theorem execTraceCtl_keeps {s0 : State} {q : ℕ} {s : State} (h_ : Keeps s0 s) : NextP (Keeps s0) (execTraceCtl q s) :=
    by
  unfold execTraceCtl
  with_reducible repeat'
    first
      | assumption | apply State.dispatch_keeps | apply State.traceBody_keeps | apply Keeps.next | apply Keeps.ok
      | apply Keeps.error | (intro _)

theorem State.perfBody_keeps {s0 s : State} {q id : ℕ} {b : List Byte} (h_ : Keeps s0 s) : Keeps s0 (State.perfBody s
    q id b) := by
  unfold State.perfBody
  with_reducible repeat'
    first
      | assumption | apply State.finish_keeps | apply State.resetBank_keeps | apply State.startAt_keeps
      | apply State.tally_keeps | apply State.wrAt_keeps | split | dsimp -zeta +zetaDelta only

theorem execTraceBlockWrite_keeps {s0 : State} {source : ℕ} {s : State} (h_ : Keeps s0 s) : NextP (Keeps s0)
    (execTraceBlockWrite source s) := by
  unfold execTraceBlockWrite
  with_reducible repeat'
    first
      | assumption | apply State.traceDrain_keeps | apply Keeps.next | split

theorem execPerfSnapshot_keeps {s0 : State} {q : ℕ} {s : State} (h_ : Keeps s0 s) : NextP (Keeps s0) (execPerfSnapshot
    q s) := by
  unfold execPerfSnapshot
  with_reducible repeat'
    first
      | assumption | apply State.dispatch_keeps | apply State.perfBody_keeps | apply Keeps.next | apply Keeps.ok
      | apply Keeps.error | (intro _)

end Sys2Proof.Machine
end

