-- ==== Sys2Proof/Laws/FrameLinks.lean ====
section
/-!
SUPPORT. What the operations of Machine/Links.lean, Vector.lean, Streams.lean, Fronds.lean do to the queue of commands and to memory.
-/
namespace Sys2Proof.Machine
open Sys2Proof

/-! ### Machine/Links.lean -/

theorem State.portTo_still {s0 s : State} {i st lanes : ℕ} (h_ : Still s0 s) : Still s0 (State.portTo s i st lanes) :=
    by
  unfold State.portTo
  with_reducible repeat'
    first
      | assumption | fail_if_no_progress extract_lets | apply State.event_still | apply State.modPort_still
      | apply State.traceEv_still | (intro _) | split | dsimp -zeta only | dsimp -zeta +zetaDelta only

theorem State.portTo_keeps {s0 s : State} {i st lanes : ℕ} (h_ : Keeps s0 s) : Keeps s0 (State.portTo s i st lanes) :=
  h_.still (State.portTo_still (Still.refl _))

theorem State.lostFrame_keeps {s0 s : State} {i : ℕ} {f : Frame} (h_ : Keeps s0 s) : Keeps s0 (State.lostFrame s i f)
    := by
  unfold State.lostFrame
  with_reducible repeat'
    first
      | assumption | fail_if_no_progress extract_lets | apply State.collFail_keeps | apply State.collsGo_keeps
      | apply State.earnOn_keeps | apply State.finish_keeps | apply State.finishOp_keeps | apply State.modPort_keeps
      | apply State.modWork_keeps | apply State.onPair_keeps | apply Keeps.fold | (intro _) | split

theorem State.reroute_keeps {s0 s : State} {i : ℕ} {front : Bool} {f : Frame} (h_ : Keeps s0 s) : Keeps s0
    (State.reroute s i front f) := by
  unfold State.reroute
  with_reducible repeat'
    first
      | assumption | apply State.lostFrame_keeps | apply State.modLink_keeps | split

theorem State.rechoose_keeps {s0 s : State} {ports : List ℕ} (h_ : Keeps s0 s) : Keeps s0 (State.rechoose s ports) :=
    by
  unfold State.rechoose
  with_reducible repeat'
    first
      | assumption | apply State.modLink_keeps | apply State.reroute_keeps | apply Keeps.fold | (intro _)

theorem State.portDown_keeps {s0 s : State} {i st lanes : ℕ} (h_ : Keeps s0 s) : Keeps s0 (State.portDown s i st
    lanes) := by
  unfold State.portDown
  with_reducible repeat'
    first
      | assumption | fail_if_no_progress extract_lets | apply State.modLink_keeps | apply State.portTo_keeps
      | apply State.rechoose_keeps | apply State.reroute_keeps | apply Keeps.fold | (intro _) | split

theorem State.beginReplay_keeps {s0 s : State} {i : ℕ} (h_ : Keeps s0 s) : Keeps s0 (State.beginReplay s i) := by
  unfold State.beginReplay
  with_reducible repeat'
    first
      | assumption | fail_if_no_progress extract_lets | apply State.modLink_keeps | apply State.modPort_keeps
      | apply State.portDown_keeps | apply State.traceEv_keeps | split

theorem State.linkUp_keeps {s0 s : State} {i : ℕ} (h_ : Keeps s0 s) : Keeps s0 (State.linkUp s i) := by
  unfold State.linkUp
  with_reducible repeat'
    first
      | assumption | fail_if_no_progress extract_lets | apply State.modLink_keeps | apply State.rechoose_keeps
      | apply Keeps.fold | (intro _) | split

theorem State.setWidth_keeps {s0 s : State} {i m : ℕ} (h_ : Keeps s0 s) : Keeps s0 (State.setWidth s i m) := by
  unfold State.setWidth
  with_reducible repeat'
    first
      | assumption | fail_if_no_progress extract_lets | apply State.linkUp_keeps | apply State.portDown_keeps
      | apply State.portTo_keeps | split

theorem State.retireLane_keeps {s0 s : State} {l : ℕ} {tell : Bool} (h_ : Keeps s0 s) : Keeps s0 (State.retireLane s l
    tell) := by
  unfold State.retireLane
  with_reducible repeat'
    first
      | assumption | fail_if_no_progress extract_lets | apply State.free_keeps | apply State.modLane_keeps
      | apply State.modLink_keeps | apply State.setWidth_keeps | (intro _) | split
      | refine Keeps.pairR (by assumption) ?_ | refine Keeps.pairL (by assumption) ?_
      | refine Keeps.pair3 (by assumption) ?_ | dsimp -zeta only | dsimp -zeta +zetaDelta only

theorem State.freeBuf_still {s0 s : State} {i k : ℕ} (h_ : Still s0 s) : Still s0 (State.freeBuf s i k) := by
  unfold State.freeBuf
  with_reducible repeat'
    first
      | assumption | apply State.modLink_still

theorem State.routeIn_still {s0 s : State} {i : ℕ} {f : Frame} (h_ : Still s0 s) : Still s0 (State.routeIn s i f) :=
    by
  unfold State.routeIn
  with_reducible repeat'
    first
      | assumption | fail_if_no_progress extract_lets | apply State.freeBuf_still | apply State.modPart_still
      | apply State.modPort_still | apply State.queueFrame_still | split

theorem State.drainRx_still {s0 s : State} {i : ℕ} (h_ : Still s0 s) : Still s0 (State.drainRx s i) := by
  unfold State.drainRx
  with_reducible repeat'
    first
      | assumption | apply State.modLink_still | apply State.routeIn_still | apply Still.fold | (intro _) | split

theorem State.drainRx_keeps {s0 s : State} {i : ℕ} (h_ : Keeps s0 s) : Keeps s0 (State.drainRx s i) :=
  h_.still (State.drainRx_still (Still.refl _))

theorem State.toTraining_still {s0 s : State} {i : ℕ} (h_ : Still s0 s) : Still s0 (State.toTraining s i) := by
  unfold State.toTraining
  with_reducible repeat'
    first
      | assumption | apply State.modLane_still | apply State.modPort_still | apply State.portTo_still
      | apply Still.fold | (intro _)

theorem State.toTraining_keeps {s0 s : State} {i : ℕ} (h_ : Keeps s0 s) : Keeps s0 (State.toTraining s i) :=
  h_.still (State.toTraining_still (Still.refl _))

theorem State.portSetEnable_keeps {s0 s : State} {i : ℕ} {on : Bool} (h_ : Keeps s0 s) : Keeps s0 (State.portSetEnable
    s i on) := by
  unfold State.portSetEnable
  with_reducible repeat'
    first
      | assumption | fail_if_no_progress extract_lets | apply State.modPort_keeps | apply State.portDown_keeps
      | apply State.toTraining_keeps | split

theorem State.passSlots_still {s0 s : State} {i x2 : ℕ} (h_ : Still s0 s) : Still s0 (State.passSlots s i x2) := by
  induction x2 generalizing s with
  | zero => exact h_
  | succ _ ih =>
    unfold State.passSlots
    with_reducible repeat'
      first
        | assumption | apply ih | fail_if_no_progress extract_lets | apply State.modLane_still
        | apply State.modLink_still | apply State.reply_still | apply Still.fold | apply Still.foldR
        | apply Still.foldL | apply Still.foldRun | apply Still.foldOut | apply Still.foldPre | apply Still.next
        | apply Still.ok | apply Still.error | apply Still.ok2 | apply Still.error2 | apply Still.some
        | apply Still.none | apply Still.some2 | apply Still.none2 | (intro _) | split
        | refine Still.pairR (by assumption) ?_ | refine Still.pairL (by assumption) ?_
        | refine Still.pair3 (by assumption) ?_ | refine Still.ofOk (by assumption) ?_
        | refine Still.ofOk2 (by assumption) ?_ | refine Still.ofSome (by assumption) ?_
        | refine Still.ofSome2 (by assumption) ?_ | dsimp -zeta only | dsimp -zeta +zetaDelta only

theorem State.unhold_keeps {s0 s : State} {i : ℕ} (h_ : Keeps s0 s) : Keeps s0 (State.unhold s i) := by
  unfold State.unhold
  with_reducible repeat'
    first
      | assumption | fail_if_no_progress extract_lets | apply State.modLink_keeps | apply State.rechoose_keeps
      | apply Keeps.fold | (intro _) | split

theorem State.acked_keeps {s0 s : State} {i ack : ℕ} {nak : Bool} (h_ : Keeps s0 s) : Keeps s0 (State.acked s i ack
    nak) := by
  unfold State.acked
  with_reducible repeat'
    first
      | assumption | fail_if_no_progress extract_lets | apply State.beginReplay_keeps | apply State.modLink_keeps
      | apply State.resyncCheck_keeps | apply State.unhold_keeps | split | dsimp -zeta +zetaDelta only

theorem State.badFrame_still {s0 s : State} {i : ℕ} (h_ : Still s0 s) : Still s0 (State.badFrame s i) := by
  unfold State.badFrame
  with_reducible repeat'
    first
      | assumption | fail_if_no_progress extract_lets | apply State.modLink_still | (intro _) | split
      | dsimp -zeta only | dsimp -zeta +zetaDelta only

theorem State.badFrame_keeps {s0 s : State} {i : ℕ} (h_ : Keeps s0 s) : Keeps s0 (State.badFrame s i) :=
  h_.still (State.badFrame_still (Still.refl _))

theorem State.frameIn_keeps {s0 s : State} {i errs : ℕ} {bytes : List Byte} (h_ : Keeps s0 s) : Keeps s0
    (State.frameIn s i errs bytes) := by
  unfold State.frameIn
  with_reducible repeat'
    first
      | assumption | fail_if_no_progress extract_lets | apply State.acked_keeps | apply State.badFrame_keeps
      | apply State.drainRx_keeps | apply State.modLink_keeps | split

theorem execDataFrame_keeps {s0 : State} {port : ℕ} {bytes : FrameRead} {s : State} (h_ : Keeps s0 s) : NextP (Keeps s0)
    (execDataFrame port bytes s) := by
  unfold execDataFrame
  with_reducible repeat'
    first
      | assumption | apply State.frameIn_keeps | apply Keeps.next

theorem State.emit_still {s0 s : State} {i : ℕ} {f : Frame} {kind : ℕ} (h_ : Still s0 s) : Still s0 (State.emit s i f
    kind) := by
  unfold State.emit
  with_reducible repeat'
    first
      | assumption | apply State.modLink_still | apply State.reply_still

theorem execRetrainInterval_still {s0 : State} {port : ℕ} {s : State} (h_ : Still s0 s) : NextP (Still s0)
    (execRetrainInterval port s) := by
  unfold execRetrainInterval
  with_reducible repeat'
    first
      | assumption | fail_if_no_progress extract_lets | apply State.toTraining_still | apply State.untilRoot_still
      | apply Still.next | split

theorem execLaneRetire_keeps {s0 : State} {v : ℕ} {s : State} (h_ : Keeps s0 s) : NextP (Keeps s0) (execLaneRetire v
    s) := by
  unfold execLaneRetire
  with_reducible repeat'
    first
      | assumption | apply State.hostErrOpen_keeps | apply State.retireLane_keeps | apply Keeps.next | split

theorem execEqualiserRequest_still {s0 : State} {lane tap : ℕ} {up : Bool} {s : State} (h_ : Still s0 s) : NextP
    (Still s0) (execEqualiserRequest lane tap up s) := by
  unfold execEqualiserRequest
  with_reducible repeat'
    first
      | assumption | fail_if_no_progress extract_lets | apply State.modLane_still | apply Still.next | (intro _)
      | split | dsimp -zeta only | dsimp -zeta +zetaDelta only

theorem execPortTraining_keeps {s0 : State} {port : ℕ} {mask : Trained} {s : State} (h_ : Keeps s0 s) : NextP (Keeps s0)
    (execPortTraining port mask s) := by
  unfold execPortTraining
  with_reducible repeat'
    first
      | assumption | fail_if_no_progress extract_lets | apply State.modLane_keeps | apply State.portTo_keeps
      | apply State.setWidth_keeps | apply Keeps.fold | apply Keeps.next | (intro _) | split

theorem execLaneErrorWindow_keeps {s0 : State} {lane errors symbols uncorr margin : ℕ} {s : State} (h_ : Keeps s0 s) :
    NextP (Keeps s0) (execLaneErrorWindow lane errors symbols uncorr margin s) := by
  unfold execLaneErrorWindow
  with_reducible repeat'
    first
      | assumption | fail_if_no_progress extract_lets | apply State.modLane_keeps | apply State.retireLane_keeps
      | apply Keeps.next | split

theorem execWidthChange_keeps {s0 : State} {port lane codeword : ℕ} {s : State} (h_ : Keeps s0 s) : NextP (Keeps s0)
    (execWidthChange port lane codeword s) := by
  unfold execWidthChange
  with_reducible repeat'
    first
      | assumption | apply State.retireLane_keeps | apply Keeps.next

theorem execControlSlot_keeps {s0 : State} {port : ℕ} {b : SlotBody} {s : State} (h_ : Keeps s0 s) : NextP (Keeps s0)
    (execControlSlot port b s) := by
  unfold execControlSlot
  with_reducible repeat'
    first
      | assumption | fail_if_no_progress extract_lets | apply State.acked_keeps | apply State.modLink_keeps
      | apply Keeps.next | (intro _) | split | dsimp -zeta only | dsimp -zeta +zetaDelta only

theorem execAlignmentCodeword_keeps {s0 : State} {lane : LaneRead} {node peerPort dir mask : ℕ} {s : State}
    (h_ : Keeps s0 s) : NextP (Keeps s0) (execAlignmentCodeword lane node peerPort dir mask s) := by
  unfold execAlignmentCodeword
  with_reducible repeat'
    first
      | assumption | fail_if_no_progress extract_lets | apply State.modLink_keeps | apply State.modPort_keeps
      | apply State.portDown_keeps | apply State.retireLane_keeps | apply State.toTraining_keeps | apply Keeps.fold
      | apply Keeps.next | (intro _) | split

theorem State.dataSlot_still {s0 s : State} {i : ℕ} (h_ : Still s0 s) : Still s0 (State.dataSlot s i) := by
  unfold State.dataSlot
  with_reducible repeat'
    first
      | assumption | fail_if_no_progress extract_lets | apply State.count_still | apply State.emit_still
      | apply State.freeBuf_still | apply State.modLink_still | (intro _) | split | dsimp -zeta only
      | dsimp -zeta +zetaDelta only

theorem State.transmit_still {s0 s : State} {i : ℕ} (h_ : Still s0 s) : Still s0 (State.transmit s i) := by
  unfold State.transmit
  with_reducible repeat'
    first
      | assumption | fail_if_no_progress extract_lets | apply State.dataSlot_still | apply State.passSlots_still
      | split | dsimp -zeta +zetaDelta only

theorem execPortEnable_keeps {s0 : State} {v : ℕ} {s : State} (h_ : Keeps s0 s) : NextP (Keeps s0) (execPortEnable v
    s) := by
  unfold execPortEnable
  with_reducible repeat'
    first
      | assumption | apply State.hostErrOpen_keeps | apply State.portSetEnable_keeps | apply Keeps.next | split

theorem execAckTimeout_keeps {s0 : State} {port : ℕ} {s : State} (h_ : Keeps s0 s) : NextP (Keeps s0) (execAckTimeout
    port s) := by
  unfold execAckTimeout
  with_reducible repeat'
    first
      | assumption | fail_if_no_progress extract_lets | apply State.beginReplay_keeps | apply State.untilRoot_keeps
      | apply Keeps.next | split

theorem execFrameTransmit_still {s0 : State} {port : ℕ} {s : State} (h_ : Still s0 s) : NextP (Still s0)
    (execFrameTransmit port s) := by
  unfold execFrameTransmit
  with_reducible repeat'
    first
      | assumption | apply State.transmit_still | apply Still.next

theorem execLockLoss_keeps {s0 : State} {lane : ℕ} {s : State} (h_ : Keeps s0 s) : NextP (Keeps s0) (execLockLoss lane
    s) := by
  unfold execLockLoss
  with_reducible repeat'
    first
      | assumption | apply State.retireLane_keeps | apply Keeps.next | split

/-! ### Machine/Vector.lean -/

theorem State.freeBeats_still {s0 s : State} {n : ℕ} (h_ : Still s0 s) : Still s0 (State.freeBeats s n).2 := by
  unfold State.freeBeats
  with_reducible repeat'
    first
      | assumption | fail_if_no_progress extract_lets | (intro _) | split | refine Still.pairR (by assumption) ?_
      | refine Still.pairL (by assumption) ?_ | refine Still.pair3 (by assumption) ?_ | dsimp -zeta only
      | dsimp -zeta +zetaDelta only | apply Still.lit

theorem State.freeBeats_keeps {s0 s : State} {n : ℕ} (h_ : Keeps s0 s) : Keeps s0 (State.freeBeats s n).2 :=
  h_.still (State.freeBeats_still (Still.refl _))

theorem ChainRun.touch_still {s0 : State} {v : ChainRun} {mclk e : ℕ} {ws : List ℕ} (h_ : Still s0 v.s) : Still s0
    (ChainRun.touch v mclk e ws).s := by
  unfold ChainRun.touch
  with_reducible repeat'
    first
      | assumption | fail_if_no_progress extract_lets | (intro _) | split | dsimp -zeta only
      | dsimp -zeta +zetaDelta only

theorem ChainRun.mask_still {s0 : State} {v : ChainRun} {x1 : State} {env : ChainEnv} {b : List Byte} {e j mclk depth
    : ℕ} {below : Bool} (h_ : Still s0 v.s) : Still s0 (ChainRun.mask v x1 env b e j mclk depth below).s := by
  unfold ChainRun.mask
  with_reducible repeat'
    first
      | assumption | fail_if_no_progress extract_lets | apply ChainRun.touch_still | split
      | dsimp -zeta +zetaDelta only

theorem ChainRun.emit_still {s0 : State} {v : ChainRun} {e j : ℕ} {ls : List (Option (VLane × Health))} (h_ : Still s0
    v.s) : Still s0 (ChainRun.emit v e j ls).s := by
  unfold ChainRun.emit
  with_reducible repeat'
    first
      | assumption

theorem State.modVec_still {s0 s : State} {t : ℕ} {f : Vec → Vec} (h_ : Still s0 s) : Still s0 (State.modVec s t f) :=
    by
  unfold State.modVec
  with_reducible repeat'
    first
      | assumption | apply State.modStack_still | apply State.modTile_still | split

theorem State.modVec_keeps {s0 s : State} {t : ℕ} {f : Vec → Vec} (h_ : Keeps s0 s) : Keeps s0 (State.modVec s t f) :=
  h_.still (State.modVec_still (Still.refl _))

theorem State.copyTables_still {s0 s : State} {t : ℕ} {cache : ℕ → Option ℕ} {b : List Byte} (h_ : Still s0 s) : Still
    s0 (State.copyTables s t cache b) := by
  unfold State.copyTables
  with_reducible repeat'
    first
      | assumption | fail_if_no_progress extract_lets | apply State.modVec_still | apply Still.fold | (intro _)
      | split

theorem State.copyTables_keeps {s0 s : State} {t : ℕ} {cache : ℕ → Option ℕ} {b : List Byte} (h_ : Keeps s0 s) : Keeps
    s0 (State.copyTables s t cache b) :=
  h_.still (State.copyTables_still (Still.refl _))

theorem ChainRun.commit_keeps {s0 : State} {v : ChainRun} {mclk : ℕ} (h_ : Keeps s0 v.s) : Keeps s0 (ChainRun.commit v
    mclk).s := by
  unfold ChainRun.commit
  with_reducible repeat'
    first
      | assumption | apply State.store_keeps | apply Keeps.fold | (intro _)

theorem ChainRun.settleBanks_still {s0 : State} {v : ChainRun} {env : ChainEnv} {mclk : ℕ} (h_ : Still s0 v.s) : Still
    s0 (ChainRun.settleBanks v env mclk).s := by
  unfold ChainRun.settleBanks
  with_reducible repeat'
    first
      | assumption | fail_if_no_progress extract_lets | (intro _) | split | dsimp -zeta only
      | dsimp -zeta +zetaDelta only

theorem ChainRun.settleBanks_keeps {s0 : State} {v : ChainRun} {env : ChainEnv} {mclk : ℕ} (h_ : Keeps s0 v.s) : Keeps
    s0 (ChainRun.settleBanks v env mclk).s :=
  h_.still (ChainRun.settleBanks_still (Still.refl _))

theorem ChainRun.flush_keeps {s0 : State} {v : ChainRun} {env : ChainEnv} {b : List Byte} (h_ : Keeps s0 v.s) : Keeps
    s0 (ChainRun.flush v env b).s := by
  unfold ChainRun.flush
  with_reducible repeat'
    first
      | assumption | fail_if_no_progress extract_lets | apply ChainRun.commit_keeps | apply ChainRun.settleBanks_keeps
      | (intro _) | split | dsimp -zeta only | dsimp -zeta +zetaDelta only

theorem ChainRun.compress_still {s0 : State} {v : ChainRun} {x1 : State} {env : ChainEnv} {b : List Byte} {e j : ℕ}
    (h_ : Still s0 v.s) : Still s0 (ChainRun.compress v x1 env b e j).s := by
  unfold ChainRun.compress
  with_reducible repeat'
    first
      | assumption | apply Still.foldRun | (intro _) | split

theorem ChainRun.compute_still {s0 : State} {v : ChainRun} {x1 : State} {env : ChainEnv} {b : List Byte} {e j : ℕ} (h_
    : Still s0 v.s) : Still s0 (ChainRun.compute v x1 env b e j).s := by
  unfold ChainRun.compute
  with_reducible repeat'
    first
      | assumption | apply ChainRun.emit_still

theorem ChainRun.expand_still {s0 : State} {v : ChainRun} {x1 : State} {env : ChainEnv} {b : List Byte} {e j mclk : ℕ}
    (h_ : Still s0 v.s) : Still s0 (ChainRun.expand v x1 env b e j mclk).s := by
  unfold ChainRun.expand
  with_reducible repeat'
    first
      | assumption | apply ChainRun.emit_still | apply ChainRun.touch_still

theorem ChainRun.tainted_still {s0 : State} {v : ChainRun} {bad : Bool} {k x : ℕ} (h_ : Still s0 v.s) : Still s0
    (ChainRun.tainted v bad k x).s := by
  unfold ChainRun.tainted
  with_reducible repeat'
    first
      | assumption | fail_if_no_progress extract_lets | (intro _) | split | dsimp -zeta only
      | dsimp -zeta +zetaDelta only

theorem ChainRun.load_still {s0 : State} {v : ChainRun} {env : ChainEnv} {b : List Byte} {e j mclk : ℕ} (h_ : Still s0
    v.s) : Still s0 (ChainRun.load v env b e j mclk).s := by
  unfold ChainRun.load
  with_reducible repeat'
    first
      | assumption | fail_if_no_progress extract_lets | apply ChainRun.emit_still | apply ChainRun.tainted_still
      | apply ChainRun.touch_still | split

theorem ChainRun.red_still {s0 : State} {v : ChainRun} {x1 : State} {env : ChainEnv} {b : List Byte} {e j total : ℕ}
    {below : Bool} (h_ : Still s0 v.s) : Still s0 (ChainRun.red v x1 env b e j total below).s := by
  unfold ChainRun.red
  with_reducible repeat'
    first
      | assumption | apply ChainRun.emit_still

theorem ChainRun.store_still {s0 : State} {v : ChainRun} {x1 : State} {env : ChainEnv} {b : List Byte} {e j depth : ℕ}
    (h_ : Still s0 v.s) : Still s0 (ChainRun.store v x1 env b e j depth).s := by
  unfold ChainRun.store
  with_reducible repeat'
    first
      | assumption | fail_if_no_progress extract_lets | apply ChainRun.touch_still | split

theorem ChainRun.stage_still {s0 : State} {v : ChainRun} {x1 : State} {env : ChainEnv} {b : List Byte} {below : List
    ℕ} {total depth e j mclk : ℕ} (h_ : Still s0 v.s) : Still s0 (ChainRun.stage v x1 env b below total depth e j
    mclk).s := by
  unfold ChainRun.stage
  with_reducible repeat'
    first
      | assumption | fail_if_no_progress extract_lets | apply ChainRun.compress_still | apply ChainRun.compute_still
      | apply ChainRun.expand_still | apply ChainRun.load_still | apply ChainRun.mask_still | apply ChainRun.red_still
      | apply ChainRun.store_still | split

theorem ChainRun.stage_keeps {s0 : State} {v : ChainRun} {x1 : State} {env : ChainEnv} {b : List Byte} {below : List
    ℕ} {total depth e j mclk : ℕ} (h_ : Keeps s0 v.s) : Keeps s0 (ChainRun.stage v x1 env b below total depth e j
    mclk).s :=
  h_.still (ChainRun.stage_still (Still.refl _))

theorem ChainRun.cycle_keeps {s0 : State} {v : ChainRun} {x1 : State} {env : ChainEnv} {b : List Byte} {below ds :
    List ℕ} {total : ℕ} (h_ : Keeps s0 v.s) : Keeps s0 (ChainRun.cycle v x1 env b below ds total).s := by
  unfold ChainRun.cycle
  with_reducible repeat'
    first
      | assumption | fail_if_no_progress extract_lets | apply ChainRun.commit_keeps | apply ChainRun.settleBanks_keeps
      | apply ChainRun.stage_keeps | apply Keeps.foldRun | (intro _) | split

theorem ChainRun.deliver_still {s0 : State} {v : ChainRun} {t : ℕ} {b : List Byte} (h_ : Still s0 v.s) : Still s0
    (ChainRun.deliver v t b).s := by
  unfold ChainRun.deliver
  with_reducible repeat'
    first
      | assumption | fail_if_no_progress extract_lets | apply State.sourceBeats_still | apply Still.fold
      | apply Still.foldR | apply Still.foldL | apply Still.foldRun | apply Still.foldOut | apply Still.foldPre
      | apply Still.next | apply Still.ok | apply Still.error | apply Still.ok2 | apply Still.error2
      | apply Still.some | apply Still.none | apply Still.some2 | apply Still.none2 | (intro _) | split
      | refine Still.pairR (by assumption) ?_ | refine Still.pairL (by assumption) ?_
      | refine Still.pair3 (by assumption) ?_ | refine Still.ofOk (by assumption) ?_
      | refine Still.ofOk2 (by assumption) ?_ | refine Still.ofSome (by assumption) ?_
      | refine Still.ofSome2 (by assumption) ?_ | dsimp -zeta only | dsimp -zeta +zetaDelta only

theorem ChainRun.deliver_keeps {s0 : State} {v : ChainRun} {t : ℕ} {b : List Byte} (h_ : Keeps s0 v.s) : Keeps s0
    (ChainRun.deliver v t b).s :=
  h_.still (ChainRun.deliver_still (Still.refl _))

theorem ChainRun.feed_still {s0 : State} {v : ChainRun} {t : ℕ} {env : ChainEnv} {b : List Byte} {ds : List ℕ} (h_ :
    Still s0 v.s) : Still s0 (ChainRun.feed v t env b ds).s := by
  unfold ChainRun.feed
  with_reducible repeat'
    first
      | assumption | fail_if_no_progress extract_lets | apply State.freeBeats_still | apply State.takeBeats_still
      | apply Still.fold | apply Still.foldR | apply Still.foldL | apply Still.foldRun | apply Still.foldOut
      | apply Still.foldPre | apply Still.next | apply Still.ok | apply Still.error | apply Still.ok2
      | apply Still.error2 | apply Still.some | apply Still.none | apply Still.some2 | apply Still.none2 | (intro _)
      | split | refine Still.pairR (by assumption) ?_ | refine Still.pairL (by assumption) ?_
      | refine Still.pair3 (by assumption) ?_ | refine Still.ofOk (by assumption) ?_
      | refine Still.ofOk2 (by assumption) ?_ | refine Still.ofSome (by assumption) ?_
      | refine Still.ofSome2 (by assumption) ?_ | dsimp -zeta only | dsimp -zeta +zetaDelta only

theorem ChainRun.feed_keeps {s0 : State} {v : ChainRun} {t : ℕ} {env : ChainEnv} {b : List Byte} {ds : List ℕ} (h_ :
    Keeps s0 v.s) : Keeps s0 (ChainRun.feed v t env b ds).s :=
  h_.still (ChainRun.feed_still (Still.refl _))

theorem ChainRun.go_keeps {s0 x0 : State} {t : ℕ} {env : ChainEnv} {b : List Byte} {ds : List ℕ} {n : ℕ}
    {v : ChainRun} (h_ : Keeps s0 v.s) : Keeps s0 (ChainRun.go x0 t env b ds n v).1.s := by
  induction n generalizing v with
  | zero => exact h_
  | succ n ih =>
    unfold ChainRun.go
    split
    · exact h_
    · exact ih (ChainRun.deliver_keeps (ChainRun.cycle_keeps (ChainRun.feed_keeps h_)))

theorem State.vecCount_still {s0 s : State} {i : Issuer} {t c n : ℕ} (h_ : Still s0 s) : Still s0 (State.vecCount s i
    t c n) := by
  unfold State.vecCount
  with_reducible repeat'
    first
      | assumption | apply State.count_still

theorem State.vecCount_keeps {s0 s : State} {i : Issuer} {t c n : ℕ} (h_ : Keeps s0 s) : Keeps s0 (State.vecCount s i
    t c n) :=
  h_.still (State.vecCount_still (Still.refl _))

theorem State.invokeOn_keeps {s0 s : State} {g : VRun} {i : Issuer} {b : List Byte} {env : ChainEnv} (h_ : Keeps s0 s)
    : Keeps s0 (State.invokeOn s g i b env) := by
  unfold State.invokeOn
  with_reducible repeat'
    first
      | assumption | fail_if_no_progress extract_lets | apply ChainRun.flush_keeps | apply ChainRun.go_keeps
      | apply State.health_keeps | apply State.modVec_keeps | apply State.moved_keeps | apply State.movesTo_keeps
      | apply State.poisonOn_keeps | apply State.tracePoison_keeps | apply State.vecCount_keeps
      | apply State.waitAt_keeps | apply Keeps.fold | apply Keeps.foldR | apply Keeps.foldL | apply Keeps.foldRun
      | apply Keeps.foldOut | apply Keeps.foldPre | apply Keeps.next | apply Keeps.ok | apply Keeps.error
      | apply Keeps.ok2 | apply Keeps.error2 | apply Keeps.some | apply Keeps.none | apply Keeps.some2
      | apply Keeps.none2 | (intro _) | split | refine Keeps.pairR (by assumption) ?_
      | refine Keeps.pairL (by assumption) ?_ | refine Keeps.pair3 (by assumption) ?_
      | refine Keeps.pairC (by assumption) ?_ | refine Keeps.ofOk (by assumption) ?_
      | refine Keeps.ofOk2 (by assumption) ?_ | refine Keeps.ofSome (by assumption) ?_
      | refine Keeps.ofSome2 (by assumption) ?_ | dsimp -zeta only | dsimp -zeta +zetaDelta only

theorem State.invoke_keeps {s0 s : State} {o : OpRef} {i : Issuer} {b r : List Byte} (h_ : Keeps s0 s) : Keeps s0
    (State.invoke s o i b r) := by
  unfold State.invoke
  with_reducible repeat'
    first
      | assumption | fail_if_no_progress extract_lets | apply State.copyTables_keeps | apply State.invokeOn_keeps
      | apply State.issueEntry_keeps | apply State.untilMclk_keeps | apply Keeps.fold | (intro _) | split
      | dsimp -zeta +zetaDelta only

theorem State.invokeMore_keeps {s0 s : State} {g : VRun} {i : Issuer} (h_ : Keeps s0 s) : Keeps s0 (State.invokeMore s
    g i) := by
  unfold State.invokeMore
  with_reducible repeat'
    first
      | assumption | fail_if_no_progress extract_lets | apply State.invokeOn_keeps | (intro _) | split
      | dsimp -zeta only | dsimp -zeta +zetaDelta only

theorem State.invocation_keeps {s0 s : State} {w : WorkRef} (h_ : Keeps s0 s) : Keeps s0 (State.invocation s w) := by
  unfold State.invocation
  with_reducible repeat'
    first
      | assumption | fail_if_no_progress extract_lets | apply State.invoke_keeps | apply State.invokeMore_keeps
      | split

theorem runChain_keeps {s0 s : State} {env : ChainEnv} {b : List Byte} {fed : optParam (Tbl (List Beat)) []} (h_ :
    Keeps s0 s) : Keeps s0 (runChain s env b fed).s := by
  unfold runChain
  with_reducible repeat'
    first
      | assumption | apply ChainRun.cycle_keeps | apply ChainRun.flush_keeps | apply Keeps.foldRun | (intro _) | split

/-! ### Machine/Streams.lean -/

theorem State.nextBeat_still {s0 s : State} {p t st : ℕ} (h_ : Still s0 s) : SomeP2 (Still s0) (State.nextBeat s p t
    st) := by
  unfold State.nextBeat
  with_reducible repeat'
    first
      | assumption | fail_if_no_progress extract_lets | apply State.freeBeats_still | apply State.modSource_still
      | apply Still.some2 | apply Still.none2 | (intro _) | split | refine Still.pairR (by assumption) ?_
      | refine Still.pairL (by assumption) ?_ | refine Still.pair3 (by assumption) ?_
      | refine Still.ofSome2 (by assumption) ?_ | dsimp -zeta only | dsimp -zeta +zetaDelta only

theorem State.creditBack_still {s0 s : State} {t st dest : ℕ} (h_ : Still s0 s) : Still s0 (State.creditBack s t st
    dest) := by
  unfold State.creditBack
  with_reducible repeat'
    first
      | assumption | apply State.modSource_still | apply State.onRun_still | split

theorem execCreditReturn_still {s0 : State} {tile stream dest : ℕ} {s : State} (h_ : Still s0 s) : NextP (Still s0)
    (execCreditReturn tile stream dest s) := by
  unfold execCreditReturn
  with_reducible repeat'
    first
      | assumption | apply State.creditBack_still | apply State.unlessHalted_still | apply Still.next | (intro _)

theorem State.sendItem_still {s0 s : State} {t st : ℕ} {bs : List Beat} (h_ : Still s0 s) : Still s0 (State.sendItem s
    t st bs) := by
  unfold State.sendItem
  with_reducible repeat'
    first
      | assumption | apply State.land_still | apply Still.fold | (intro _)

theorem State.steerWaits_still {s0 s : State} {id t : ℕ} (h_ : Still s0 s) : Still s0 (State.steerWaits s id t) := by
  unfold State.steerWaits
  with_reducible repeat'
    first
      | assumption | fail_if_no_progress extract_lets | apply State.waitAt_still | apply Still.fold
      | apply Still.foldR | apply Still.foldL | apply Still.foldRun | apply Still.foldOut | apply Still.foldPre
      | apply Still.next | apply Still.ok | apply Still.error | apply Still.ok2 | apply Still.error2
      | apply Still.some | apply Still.none | apply Still.some2 | apply Still.none2 | (intro _) | split
      | refine Still.pairR (by assumption) ?_ | refine Still.pairL (by assumption) ?_
      | refine Still.pair3 (by assumption) ?_ | refine Still.ofOk (by assumption) ?_
      | refine Still.ofOk2 (by assumption) ?_ | refine Still.ofSome (by assumption) ?_
      | refine Still.ofSome2 (by assumption) ?_ | dsimp -zeta only | dsimp -zeta +zetaDelta only

theorem State.steered_still {s0 s : State} {r : Run} {t u : ℕ} (h_ : Still s0 s) : Still s0 (State.steered s r t u) :=
    by
  unfold State.steered
  with_reducible repeat'
    first
      | assumption | apply State.moved_still | apply State.steerWaits_still

theorem State.switchItem_still {s0 s : State} {t u : ℕ} (h_ : Still s0 s) : Still s0 (State.switchItem s t u) := by
  unfold State.switchItem
  with_reducible repeat'
    first
      | assumption | fail_if_no_progress extract_lets | apply State.modSteer_still | apply State.sendItem_still
      | apply State.steered_still | apply State.waitAt_still | apply Still.fold | (intro _) | split

theorem execSwitchItem_still {s0 : State} {tile unit : ℕ} {s : State} (h_ : Still s0 s) : NextP (Still s0)
    (execSwitchItem tile unit s) := by
  unfold execSwitchItem
  with_reducible repeat'
    first
      | assumption | apply State.switchItem_still | apply State.unlessHalted_still | apply Still.next | (intro _)

theorem State.sourceHeld_still {s0 s : State} {r : Run} {t st : ℕ} (h_ : Still s0 s) : Still s0 (State.sourceHeld s r
    t st) := by
  unfold State.sourceHeld
  with_reducible repeat'
    first
      | assumption | fail_if_no_progress extract_lets | apply State.count_still | apply State.modSource_still
      | (intro _) | split | dsimp -zeta only | dsimp -zeta +zetaDelta only

theorem State.mergeItem_still {s0 s : State} {t u : ℕ} (h_ : Still s0 s) : Still s0 (State.mergeItem s t u) := by
  unfold State.mergeItem
  with_reducible repeat'
    first
      | assumption | fail_if_no_progress extract_lets | apply State.modSteer_still | apply State.sendItem_still
      | apply State.steered_still | apply State.waitAt_still | split

theorem execMergeItem_still {s0 : State} {tile unit : ℕ} {s : State} (h_ : Still s0 s) : NextP (Still s0)
    (execMergeItem tile unit s) := by
  unfold execMergeItem
  with_reducible repeat'
    first
      | assumption | apply State.mergeItem_still | apply State.unlessHalted_still | apply Still.next | (intro _)

theorem State.sendBeat_still {s0 s : State} {t st : ℕ} (h_ : Still s0 s) : Still s0 (State.sendBeat s t st) := by
  unfold State.sendBeat
  split
  · split
    · exact h_
    · rename_i r k _ _ b s' e
      have h' : Still s0 s' := Still.ofSome2 e (State.nextBeat_still h_)
      extract_lets ds s'' s3 s4
      have h3 : Still s0 s3 := State.modSource_still (State.untilRoot_still h')
      have h4 : Still s0 s4 := State.onRun_still (Still.fold h3 fun _ _ h => State.land_still h)
      split
      · exact State.sourceHeld_still (State.untilRoot_still h_)
      · exact Still.fold h4 fun _ _ h => State.steerWaits_still h
  · exact h_
theorem State.sendBeat_keeps {s0 s : State} {t st : ℕ} (h_ : Keeps s0 s) : Keeps s0 (State.sendBeat s t st) :=
  h_.still (State.sendBeat_still (Still.refl _))

theorem execStreamBeat_still {s0 : State} {tile stream : ℕ} {s : State} (h_ : Still s0 s) : NextP (Still s0)
    (execStreamBeat tile stream s) := by
  unfold execStreamBeat
  with_reducible repeat'
    first
      | assumption | apply State.sendBeat_still | apply State.unlessHalted_still | apply Still.next | (intro _)

/-! ### Machine/Fronds.lean -/

theorem State.onLoad_still {s0 s : State} {id : ℕ} {f : Load → Load} (h_ : Still s0 s) : Still s0 (State.onLoad s id
    f) := by
  unfold State.onLoad
  with_reducible repeat'
    first
      | assumption | apply State.modWork_still

theorem State.contextLoad_still {s0 s : State} {die : ℕ} (h_ : Still s0 s) : Still s0 (State.contextLoad s die) := by
  unfold State.contextLoad
  with_reducible repeat'
    first
      | assumption | apply State.modCtx_still | apply State.modQw_still | apply State.modWork_still
      | apply State.onLoad_still | apply State.startAt_still | apply State.untilRoot_still | apply Still.fold
      | (intro _) | split

theorem State.loadComplete_still {s0 s : State} {l : Load} (h_ : Still s0 s) : Still s0 (State.loadComplete s l) := by
  unfold State.loadComplete
  with_reducible repeat'
    first
      | assumption | fail_if_no_progress extract_lets | apply State.finish_still | apply State.modPart_still
      | apply State.modVec_still | apply State.modWork_still | apply State.setCtxs_still | apply State.startAt_still
      | apply State.untilRoot_still | apply Still.fold | (intro _) | split | dsimp -zeta +zetaDelta only

theorem execContextLoadComplete_still {s0 : State} {id : ℕ} {s : State} (h_ : Still s0 s) : NextP (Still s0)
    (execContextLoadComplete id s) := by
  unfold execContextLoadComplete
  with_reducible repeat'
    first
      | assumption | apply State.loadComplete_still | apply State.unlessFrozen_still | apply Still.next | (intro _)
      | split

theorem execContextLoad_still {s0 : State} {die : ℕ} {s : State} (h_ : Still s0 s) : NextP (Still s0) (execContextLoad
    die s) := by
  unfold execContextLoad
  with_reducible repeat'
    first
      | assumption | apply State.contextLoad_still | apply State.unlessFrozen_still | apply Still.next | (intro _)

theorem State.loadBody_still {s0 s : State} {q id : Nat} {b : List Byte} (h_ : Still s0 s) :
    OkP (Still s0) (State.loadBody s q id b) := by
  have k (p : List (Nat × Nat)) (f : Nat × Nat → Ctx → Ctx) (ts : List Nat) : Still s0
      (p.foldl (fun s x => s.setCtxs ts [x.2] (f x)) s) := Still.fold h_ fun _ _ h => State.setCtxs_still h
  unfold State.loadBody
  extract_lets
  split
  · trivial
  · split
    · trivial
    · exact Still.ok (State.modWork_still (k _ _ _))
theorem State.loadBody_keeps {s0 s : State} {q id : Nat} {b : List Byte} (h_ : Keeps s0 s) :
    OkP (Keeps s0) (State.loadBody s q id b) := h_.okS (State.loadBody_still (Still.refl _))

theorem execLoadFrond_still {s0 : State} {q : ℕ} {s : State} (h_ : Still s0 s) : NextP (Still s0) (execLoadFrond q s)
    := by
  unfold execLoadFrond
  with_reducible repeat'
    first
      | assumption | apply State.dispatch_still | apply State.loadBody_still | apply Still.next | (intro _)

end Sys2Proof.Machine
end

