-- ==== Sys2Proof/Laws/FrameOperators.lean ====
section
/-!
SUPPORT. What the operations of Machine/Transfers.lean, Tensors.lean, Results.lean, Costs.lean, Operators.lean, Fused.lean, Phases.lean, Update.lean do to the queue of commands and to memory.
-/
namespace Sys2Proof.Machine
open Sys2Proof

/-! ### Machine/Transfers.lean -/

theorem State.serveRead_still {s0 s : State} {a n : ℕ} (h_ : Still s0 s) : Still s0 (State.serveRead s a n) := by
  unfold State.serveRead
  with_reducible repeat'
    first
      | assumption | apply State.reply_still

theorem State.serveRead_keeps {s0 s : State} {a n : ℕ} (h_ : Keeps s0 s) : Keeps s0 (State.serveRead s a n) :=
  h_.still (State.serveRead_still (Still.refl _))

theorem State.onDma_still {s0 s : State} {id : ℕ} {f : Dma → Dma} (h_ : Still s0 s) : Still s0 (State.onDma s id f) :=
    by
  unfold State.onDma
  with_reducible repeat'
    first
      | assumption | apply State.modWork_still

theorem State.onDma_keeps {s0 s : State} {id : ℕ} {f : Dma → Dma} (h_ : Keeps s0 s) : Keeps s0 (State.onDma s id f) :=
  h_.still (State.onDma_still (Still.refl _))

theorem State.putRow_keeps {s0 s : State} {d : Dma} {roles : ℕ → ℕ} {off : ℤ} {bs : List (Byte × Bool)} (h_ : Keeps s0
    s) : Keeps s0 (State.putRow s d roles off bs) := by
  unfold State.putRow
  with_reducible repeat'
    first
      | assumption | apply State.store_keeps | split | apply Keeps.lit

theorem State.copyRows_keeps {s0 s : State} {d : Dma} {roles : ℕ → ℕ} (h_ : Keeps s0 s) : Keeps s0 (State.copyRows s d
    roles) := by
  unfold State.copyRows
  with_reducible repeat'
    first
      | assumption | apply State.putRow_keeps | apply Keeps.fold | (intro _)

theorem State.addDmas_still {s0 s : State} {owner q p : ℕ} {stage : Option ℕ} {ds : List (List Byte × ℕ)} (h_ : Still
    s0 s) : Still s0 (State.addDmas s owner q p stage ds) := by
  unfold State.addDmas
  with_reducible repeat'
    first
      | assumption | apply State.fresh_still | apply State.modWork_still | apply Still.fold | (intro _)

theorem State.onFused_still {s0 s : State} {id : ℕ} {f : Fused → Fused} (h_ : Still s0 s) : Still s0 (State.onFused s
    id f) := by
  unfold State.onFused
  with_reducible repeat'
    first
      | assumption | apply State.modWork_still

theorem State.startStage_still {s0 s : State} {f : Fused} {j : ℕ} (h_ : Still s0 s) : Still s0 (State.startStage s f
    j) := by
  unfold State.startStage
  with_reducible repeat'
    first
      | assumption | fail_if_no_progress extract_lets | apply State.addDmas_still | apply State.fresh_still
      | apply State.modWork_still | apply State.onFused_still | split

theorem State.fusedGo_still {s0 s : State} {id : ℕ} (h_ : Still s0 s) : Still s0 (State.fusedGo s id) := by
  unfold State.fusedGo
  with_reducible repeat'
    first
      | assumption | fail_if_no_progress extract_lets | apply State.finishAt_still | apply State.modWork_still
      | apply State.startStage_still | apply Still.fold | (intro _) | split

theorem State.fusedGo_keeps {s0 s : State} {id : ℕ} (h_ : Keeps s0 s) : Keeps s0 (State.fusedGo s id) :=
  h_.still (State.fusedGo_still (Still.refl _))

theorem State.stageDone_still {s0 s : State} {id j at' : ℕ} (h_ : Still s0 s) : Still s0 (State.stageDone s id j at')
    := by
  unfold State.stageDone
  with_reducible repeat'
    first
      | assumption | apply State.fusedGo_still | apply State.onFused_still

theorem State.stageDone_keeps {s0 s : State} {id j at' : ℕ} (h_ : Keeps s0 s) : Keeps s0 (State.stageDone s id j at')
    :=
  h_.still (State.stageDone_still (Still.refl _))

theorem State.dmaDone_still {s0 s : State} {d : Dma} (h_ : Still s0 s) : Still s0 (State.dmaDone s d) := by
  unfold State.dmaDone
  with_reducible repeat'
    first
      | assumption | fail_if_no_progress extract_lets | apply State.finishAt_still | apply State.modWork_still
      | apply State.onDma_still | apply State.stageDone_still | split

theorem State.dmaDone_keeps {s0 s : State} {d : Dma} (h_ : Keeps s0 s) : Keeps s0 (State.dmaDone s d) :=
  h_.still (State.dmaDone_still (Still.refl _))

theorem State.moveBytes_still {s0 s : State} {d : Dma} (h_ : Still s0 s) : Still s0 (State.moveBytes s d) := by
  unfold State.moveBytes
  with_reducible repeat'
    first
      | assumption | fail_if_no_progress extract_lets | apply State.count_still | apply State.cover_still
      | apply State.modWork_still | apply Still.fold | apply Still.foldR | apply Still.foldL | apply Still.foldRun
      | apply Still.foldOut | apply Still.foldPre | apply Still.next | apply Still.ok | apply Still.error
      | apply Still.ok2 | apply Still.error2 | apply Still.some | apply Still.none | apply Still.some2
      | apply Still.none2 | (intro _) | split | refine Still.pairR (by assumption) ?_
      | refine Still.pairL (by assumption) ?_ | refine Still.pair3 (by assumption) ?_
      | refine Still.ofOk (by assumption) ?_ | refine Still.ofOk2 (by assumption) ?_
      | refine Still.ofSome (by assumption) ?_ | refine Still.ofSome2 (by assumption) ?_ | dsimp -zeta only
      | dsimp -zeta +zetaDelta only

theorem State.moveBytes_keeps {s0 s : State} {d : Dma} (h_ : Keeps s0 s) : Keeps s0 (State.moveBytes s d) :=
  h_.still (State.moveBytes_still (Still.refl _))

theorem State.runDma_keeps {s0 s : State} {d : Dma} (h_ : Keeps s0 s) : Keeps s0 (State.runDma s d) := by
  unfold State.runDma
  with_reducible repeat'
    first
      | assumption | apply State.copyRows_keeps | apply State.dmaDone_keeps | apply State.hostRead_keeps
      | apply State.moveBytes_keeps | apply State.onDma_keeps | split

theorem State.startDma_keeps {s0 s : State} {owner : ℕ} (h_ : Keeps s0 s) : Keeps s0 (State.startDma s owner) := by
  unfold State.startDma
  with_reducible repeat'
    first
      | assumption | fail_if_no_progress extract_lets | apply State.count_keeps | apply State.modWork_keeps
      | apply State.onDma_keeps | apply State.runDma_keeps | apply State.startAt_keeps | apply State.untilMclk_keeps
      | apply Keeps.fold | apply Keeps.foldR | apply Keeps.foldL | apply Keeps.foldRun | apply Keeps.foldOut
      | apply Keeps.foldPre | apply Keeps.next | apply Keeps.ok | apply Keeps.error | apply Keeps.ok2
      | apply Keeps.error2 | apply Keeps.some | apply Keeps.none | apply Keeps.some2 | apply Keeps.none2 | (intro _)
      | split | refine Keeps.pairR (by assumption) ?_ | refine Keeps.pairL (by assumption) ?_
      | refine Keeps.pair3 (by assumption) ?_ | refine Keeps.ofOk (by assumption) ?_
      | refine Keeps.ofOk2 (by assumption) ?_ | refine Keeps.ofSome (by assumption) ?_
      | refine Keeps.ofSome2 (by assumption) ?_ | dsimp -zeta only | dsimp -zeta +zetaDelta only

theorem execDmaDescriptor_keeps {s0 : State} {id : ℕ} {s : State} (h_ : Keeps s0 s) : NextP (Keeps s0)
    (execDmaDescriptor id s) := by
  unfold execDmaDescriptor
  with_reducible repeat'
    first
      | assumption | apply State.startDma_keeps | apply State.unlessFrozen_keeps | apply Keeps.next | (intro _)

theorem State.handover_still {s0 s : State} {f : Fused} {j : ℕ} (h_ : Still s0 s) : Still s0 (State.handover s f j) :=
    by
  unfold State.handover
  with_reducible repeat'
    first
      | assumption | fail_if_no_progress extract_lets | apply State.fusedGo_still | apply State.modPair_still
      | apply State.onFused_still | apply State.untilMclk_still | split

theorem State.quiet_still {s0 s : State} (h_ : Still s0 s) : Still s0 (State.quiet s) := by
  unfold State.quiet
  with_reducible repeat'
    first
      | assumption | apply State.modPwr_still | split

theorem State.quiet_keeps {s0 s : State} (h_ : Keeps s0 s) : Keeps s0 (State.quiet s) :=
  h_.still (State.quiet_still (Still.refl _))

theorem execBar2Read_still {s0 : State} {off n : ℕ} {s : State} (h_ : Still s0 s) : NextP (Still s0) (execBar2Read off
    n s) := by
  unfold execBar2Read
  with_reducible repeat'
    first
      | assumption | fail_if_no_progress extract_lets | apply State.hostErr_still | apply State.modWork_still
      | apply State.quiet_still | apply State.reply_still | apply State.serveRead_still | apply State.wakeAddr_still
      | apply Still.next | split | dsimp -zeta +zetaDelta only

theorem State.bar2Store_keeps {s0 s : State} {a : ℕ} {bs : List Byte} {ep : Bool} (h_ : Keeps s0 s) : Keeps s0
    (State.bar2Store s a bs ep) := by
  unfold State.bar2Store
  with_reducible repeat'
    first
      | assumption | apply State.wrPhys_keeps

theorem State.bar2Do_keeps {s0 s : State} {a : ℕ} {bytes : List Byte} {ep : Bool} (h_ : Keeps s0 s) : Keeps s0
    (State.bar2Do s a bytes ep) := by
  unfold State.bar2Do
  with_reducible repeat'
    first
      | assumption | fail_if_no_progress extract_lets | apply State.bar2Store_keeps | apply State.hostErr_keeps
      | apply State.modWork_keeps | apply State.wakeAddr_keeps | split | dsimp -zeta +zetaDelta only

theorem State.placeRows_keeps {s0 s : State} {d : Dma} {roles : ℕ → ℕ} {bs : List (Byte × Bool)} (h_ : Keeps s0 s) :
    Keeps s0 (State.placeRows s d roles bs) := by
  unfold State.placeRows
  with_reducible repeat'
    first
      | assumption | apply State.putRow_keeps | apply Keeps.fold | (intro _)

theorem State.slotFailed_still {s0 s : State} {q slot addr : ℕ} (h_ : Still s0 s) : Still s0 (State.slotFailed s q
    slot addr) := by
  unfold State.slotFailed
  with_reducible repeat'
    first
      | assumption | apply State.badSlot_still | apply State.hostErr_still | apply State.modQw_still

theorem State.slotFailed_keeps {s0 s : State} {q slot addr : ℕ} (h_ : Keeps s0 s) : Keeps s0 (State.slotFailed s q
    slot addr) :=
  h_.still (State.slotFailed_still (Still.refl _))

theorem State.hostAnswer_keeps {s0 s : State} {r : HostRead} {ok : Bool} {bs : List Byte} (h_ : Keeps s0 s) : Keeps s0
    (State.hostAnswer s r ok bs) := by
  unfold State.hostAnswer
  with_reducible repeat'
    first
      | assumption | fail_if_no_progress extract_lets | apply State.count_keeps | apply State.dmaDone_keeps
      | apply State.hostErr_keeps | apply State.modQw_keeps | apply State.modWork_keeps | apply State.moveBytes_keeps
      | apply State.placeRows_keeps | apply State.pump_keeps | apply State.slotFailed_keeps | split
      | dsimp -zeta +zetaDelta only

theorem execHandoverSwap_still {s0 : State} {id stage : ℕ} {s : State} (h_ : Still s0 s) : NextP (Still s0)
    (execHandoverSwap id stage s) := by
  unfold execHandoverSwap
  with_reducible repeat'
    first
      | assumption | apply State.handover_still | apply State.unlessFrozen_still | apply Still.next | (intro _)
      | split

theorem State.serveHeld_keeps {s0 s : State} (h_ : Keeps s0 s) : Keeps s0 (State.serveHeld s) := by
  unfold State.serveHeld
  with_reducible repeat'
    first
      | assumption | apply State.bar2Store_keeps | apply State.modWork_keeps | apply State.runDma_keeps
      | apply State.serveRead_keeps | split

theorem execCopyNd_still {s0 : State} {q : ℕ} {s : State} (h_ : Still s0 s) : NextP (Still s0) (execCopyNd q s) := by
  unfold execCopyNd
  with_reducible repeat'
    first
      | assumption | fail_if_no_progress extract_lets | apply State.addDmas_still | apply State.dispatch_still
      | apply Still.next | apply Still.ok | apply Still.error | (intro _) | split

theorem execHostReadCompletion_keeps {s0 : State} {tag : ℕ} {ok : Bool} {bytes : List Byte} {s : State} (h_ : Keeps s0
    s) : NextP (Keeps s0) (execHostReadCompletion tag ok bytes s) := by
  unfold execHostReadCompletion
  with_reducible repeat'
    first
      | assumption | apply State.hostAnswer_keeps | apply State.modDbg_keeps | apply Keeps.next | split

theorem execBar2Write_keeps {s0 : State} {off : ℕ} {bytes : List Byte} {ep : Bool} {s : State} (h_ : Keeps s0 s) :
    NextP (Keeps s0) (execBar2Write off bytes ep s) := by
  unfold execBar2Write
  with_reducible repeat'
    first
      | assumption | fail_if_no_progress extract_lets | apply State.bar2Do_keeps | apply State.hostErr_keeps
      | apply State.modDbg_keeps | apply State.quiet_keeps | apply Keeps.next | split

theorem execCopy_still {s0 : State} {q : ℕ} {s : State} (h_ : Still s0 s) : NextP (Still s0) (execCopy q s) := by
  unfold execCopy
  with_reducible repeat'
    first
      | assumption | apply State.addDmas_still | apply State.dispatch_still | apply Still.next | apply Still.ok
      | apply Still.error | (intro _)

theorem execCplTimeout_keeps {s0 : State} {tag : ℕ} {s : State} (h_ : Keeps s0 s) : NextP (Keeps s0) (execCplTimeout
    tag s) := by
  unfold execCplTimeout
  with_reducible repeat'
    first
      | assumption | apply State.hostAnswer_keeps | apply State.unlessFrozen_keeps | apply State.untilRoot_keeps
      | apply Keeps.next | (intro _) | split

theorem execHeldAccumulatorAccess_keeps {s0 s : State} (h_ : Keeps s0 s) : NextP (Keeps s0) (execHeldAccumulatorAccess
    s) := by
  unfold execHeldAccumulatorAccess
  with_reducible repeat'
    first
      | assumption | apply State.serveHeld_keeps | apply State.unlessFrozen_keeps | apply Keeps.next

/-! ### Machine/Tensors.lean -/

theorem State.putRect_keeps {s0 s : State} {p : ℕ} {t : Tensor} {rd : Rounding} {b r0 rn c0 cn : ℕ} {elem : ℕ → ℕ →
    Val × Bool} (h_ : Keeps s0 s) : Keeps s0 (State.putRect s p t rd b r0 rn c0 cn elem).1 := by
  unfold State.putRect
  with_reducible repeat'
    first
      | assumption | apply State.store_keeps

theorem State.moveRect_keeps {s0 s : State} {p : ℕ} {t : Tensor} {b r0 rn c0 cn : ℕ} {elem : ℕ → ℕ → ℕ × Bool} (h_ :
    Keeps s0 s) : Keeps s0 (State.moveRect s p t b r0 rn c0 cn elem) := by
  unfold State.moveRect
  with_reducible repeat'
    first
      | assumption | apply State.store_keeps

/-! ### Machine/Results.lean -/

theorem State.opFaults_still {s0 s : State} {c : OpCtx} {tile : ℕ} {fs : List (ℕ × ℕ × ℕ)} (h_ : Still s0 s) : Still
    s0 (State.opFaults s c tile fs) := by
  unfold State.opFaults
  with_reducible repeat'
    first
      | assumption | apply State.earnOn_still | apply State.modBank_still | apply State.traceEv_still
      | apply Still.fold | (intro _)

theorem State.opFaults_keeps {s0 s : State} {c : OpCtx} {tile : ℕ} {fs : List (ℕ × ℕ × ℕ)} (h_ : Keeps s0 s) : Keeps
    s0 (State.opFaults s c tile fs) :=
  h_.still (State.opFaults_still (Still.refl _))

theorem State.openHealth_still {s0 s : State} {c : OpCtx} {t : Tensor} {b r0 rn : ℕ} (h_ : Still s0 s) : Still s0
    (State.openHealth s c t b r0 rn) := by
  unfold State.openHealth
  with_reducible repeat'
    first
      | assumption | apply State.health_still | apply Still.lit

theorem State.openHealth_keeps {s0 s : State} {c : OpCtx} {t : Tensor} {b r0 rn : ℕ} (h_ : Keeps s0 s) : Keeps s0
    (State.openHealth s c t b r0 rn) :=
  h_.still (State.openHealth_still (Still.refl _))

theorem State.openRows_keeps {s0 s : State} {c : OpCtx} {t : Tensor} {base b i0 n : ℕ} {mark : ℕ → Bool} (h_ : Keeps
    s0 s) : Keeps s0 (State.openRows s c t base b i0 n mark) := by
  unfold State.openRows
  with_reducible repeat'
    first
      | assumption | apply State.store_keeps

theorem State.openTile_keeps {s0 s : State} {c : OpCtx} {t : Tensor} {base b r0 rn : ℕ} {mark : ℕ → Bool} (h_ : Keeps
    s0 s) : Keeps s0 (State.openTile s c t base b r0 rn mark) := by
  unfold State.openTile
  with_reducible repeat'
    first
      | assumption | apply State.moveRect_keeps | apply State.openRows_keeps | apply State.putRect_keeps | split

theorem State.attendTile_keeps {s0 s : State} {c : OpCtx} {tile b r0 rn : ℕ} (h_ : Keeps s0 s) : Keeps s0
    (State.attendTile s c tile b r0 rn) := by
  unfold State.attendTile
  with_reducible repeat'
    first
      | assumption | apply State.opFaults_keeps | apply State.openHealth_keeps | apply State.openTile_keeps | split
      | apply Keeps.lit

theorem State.chainTile_keeps {s0 s : State} {c : OpCtx} {tile b i0 n : ℕ} (h_ : Keeps s0 s) : Keeps s0
    (State.chainTile s c tile b i0 n).1 := by
  unfold State.chainTile
  with_reducible repeat'
    first
      | assumption | fail_if_no_progress extract_lets | apply State.health_keeps | apply State.modVec_keeps
      | apply runChain_keeps | split | dsimp -zeta +zetaDelta only

theorem State.convertRect_keeps {s0 s : State} {c : OpCtx} {y : Tensor} {b r0 rn c0 cn : ℕ} {src : ℕ → ℕ → Option (ℕ ×
    ℕ)} {mark : ℕ → Bool} (h_ : Keeps s0 s) : Keeps s0 (State.convertRect s c y b r0 rn c0 cn src mark).1 := by
  unfold State.convertRect
  with_reducible repeat'
    first
      | assumption | fail_if_no_progress extract_lets | apply State.health_keeps | apply State.moveRect_keeps
      | apply State.putRect_keeps | split

theorem State.copyBlocks_keeps {s0 s : State} {c : OpCtx} {y : Tensor} {b r0 rn : ℕ} {src : ℕ → Option ℕ} {mark : ℕ →
    Bool} (h_ : Keeps s0 s) : Keeps s0 (State.copyBlocks s c y b r0 rn src mark).1 := by
  unfold State.copyBlocks
  with_reducible repeat'
    first
      | assumption | fail_if_no_progress extract_lets | apply State.store_keeps | (intro _) | split
      | refine Keeps.pairR (by assumption) ?_ | refine Keeps.pairL (by assumption) ?_
      | refine Keeps.pair3 (by assumption) ?_ | dsimp -zeta only | dsimp -zeta +zetaDelta only

theorem State.gatherTile_keeps {s0 s : State} {c : OpCtx} {b r0 rn : ℕ} (h_ : Keeps s0 s) : Keeps s0 (State.gatherTile
    s c b r0 rn).1 := by
  unfold State.gatherTile
  with_reducible repeat'
    first
      | assumption | fail_if_no_progress extract_lets | apply State.convertRect_keeps | apply State.copyBlocks_keeps
      | apply State.health_keeps | (intro _) | split | refine Keeps.pairR (by assumption) ?_
      | refine Keeps.pairL (by assumption) ?_ | refine Keeps.pair3 (by assumption) ?_ | dsimp -zeta only
      | dsimp -zeta +zetaDelta only

theorem State.leaveSets_still {s0 s : State} {tile : ℕ} {p : Plan} {cls : ℕ} {l : List (ℕ × ℕ × List Val × Bool)} (h_
    : Still s0 s) : Still s0 (State.leaveSets s tile p cls l) := by
  unfold State.leaveSets
  with_reducible repeat'
    first
      | assumption | fail_if_no_progress extract_lets | apply State.modArr_still | apply Still.fold
      | apply Still.foldR | apply Still.foldL | apply Still.foldRun | apply Still.foldOut | apply Still.foldPre
      | apply Still.next | apply Still.ok | apply Still.error | apply Still.ok2 | apply Still.error2
      | apply Still.some | apply Still.none | apply Still.some2 | apply Still.none2 | (intro _) | split
      | refine Still.pairR (by assumption) ?_ | refine Still.pairL (by assumption) ?_
      | refine Still.pair3 (by assumption) ?_ | refine Still.ofOk (by assumption) ?_
      | refine Still.ofOk2 (by assumption) ?_ | refine Still.ofSome (by assumption) ?_
      | refine Still.ofSome2 (by assumption) ?_ | dsimp -zeta only | dsimp -zeta +zetaDelta only

theorem State.leaveSets_keeps {s0 s : State} {tile : ℕ} {p : Plan} {cls : ℕ} {l : List (ℕ × ℕ × List Val × Bool)} (h_
    : Keeps s0 s) : Keeps s0 (State.leaveSets s tile p cls l) :=
  h_.still (State.leaveSets_still (Still.refl _))

theorem State.matStore_keeps {s0 s : State} {c : OpCtx} {p : Plan} {g : Region} {c0 cn : ℕ} {dead : ℕ → ℕ → Bool} (h_
    : Keeps s0 s) : Keeps s0 (State.matStore s c p g c0 cn dead).1 := by
  unfold State.matStore
  with_reducible repeat'
    first
      | assumption | apply State.putRect_keeps | apply Keeps.lit

theorem State.groupTile_keeps {s0 s : State} {c : OpCtx} {tile i : ℕ} (h_ : Keeps s0 s) : Keeps s0 (State.groupTile s
    c tile i) := by
  unfold State.groupTile
  with_reducible repeat'
    first
      | assumption | fail_if_no_progress extract_lets | apply State.health_keeps | apply State.leaveSets_keeps
      | apply State.matStore_keeps | apply State.opFaults_keeps | apply Keeps.fold | apply Keeps.foldR
      | apply Keeps.foldL | apply Keeps.foldRun | apply Keeps.foldOut | apply Keeps.foldPre | apply Keeps.next
      | apply Keeps.ok | apply Keeps.error | apply Keeps.ok2 | apply Keeps.error2 | apply Keeps.some
      | apply Keeps.none | apply Keeps.some2 | apply Keeps.none2 | (intro _) | split
      | refine Keeps.pairR (by assumption) ?_ | refine Keeps.pairL (by assumption) ?_
      | refine Keeps.pair3 (by assumption) ?_ | refine Keeps.ofOk (by assumption) ?_
      | refine Keeps.ofOk2 (by assumption) ?_ | refine Keeps.ofSome (by assumption) ?_
      | refine Keeps.ofSome2 (by assumption) ?_ | dsimp -zeta only | dsimp -zeta +zetaDelta only

theorem State.matTile_keeps {s0 s : State} {c : OpCtx} {tile i : ℕ} (h_ : Keeps s0 s) : Keeps s0 (State.matTile s c
    tile i) := by
  unfold State.matTile
  with_reducible repeat'
    first
      | assumption | apply State.health_keeps | apply State.leaveSets_keeps | apply State.matStore_keeps
      | apply State.modBank_keeps | apply State.opFaults_keeps | apply Keeps.lit

theorem State.reduceTile_keeps {s0 s : State} {c : OpCtx} {b r0 rn : ℕ} (h_ : Keeps s0 s) : Keeps s0 (State.reduceTile
    s c b r0 rn).1 := by
  unfold State.reduceTile
  with_reducible repeat'
    first
      | assumption | apply State.health_keeps | apply State.putRect_keeps | split

theorem State.rowOpTile_keeps {s0 s : State} {c : OpCtx} {b r0 rn : ℕ} (h_ : Keeps s0 s) : Keeps s0 (State.rowOpTile s
    c b r0 rn).1 := by
  unfold State.rowOpTile
  with_reducible repeat'
    first
      | assumption | apply State.openHealth_keeps | apply State.openTile_keeps

theorem State.outputTile_keeps {s0 s : State} {c : OpCtx} {tile i : ℕ} (h_ : Keeps s0 s) : Keeps s0 (State.outputTile
    s c tile i) := by
  unfold State.outputTile
  with_reducible repeat'
    first
      | assumption | fail_if_no_progress extract_lets | apply State.attendTile_keeps | apply State.chainTile_keeps
      | apply State.convertRect_keeps | apply State.gatherTile_keeps | apply State.groupTile_keeps
      | apply State.matTile_keeps | apply State.poisonOn_keeps | apply State.reduceTile_keeps
      | apply State.rowOpTile_keeps | split | dsimp -zeta +zetaDelta only

/-! ### Machine/Costs.lean -/

theorem State.tileCounts_still {s0 s : State} {bank tile : ℕ} {arg : List Byte} {i late : ℕ} (h_ : Still s0 s) : Still
    s0 (State.tileCounts s bank tile arg i late) := by
  unfold State.tileCounts
  with_reducible repeat'
    first
      | assumption | fail_if_no_progress extract_lets | apply State.count_still | apply Still.fold | apply Still.foldR
      | apply Still.foldL | apply Still.foldRun | apply Still.foldOut | apply Still.foldPre | apply Still.next
      | apply Still.ok | apply Still.error | apply Still.ok2 | apply Still.error2 | apply Still.some
      | apply Still.none | apply Still.some2 | apply Still.none2 | (intro _) | split
      | refine Still.pairR (by assumption) ?_ | refine Still.pairL (by assumption) ?_
      | refine Still.pair3 (by assumption) ?_ | refine Still.ofOk (by assumption) ?_
      | refine Still.ofOk2 (by assumption) ?_ | refine Still.ofSome (by assumption) ?_
      | refine Still.ofSome2 (by assumption) ?_ | dsimp -zeta only | dsimp -zeta +zetaDelta only

theorem State.tileCounts_keeps {s0 s : State} {bank tile : ℕ} {arg : List Byte} {i late : ℕ} (h_ : Keeps s0 s) : Keeps
    s0 (State.tileCounts s bank tile arg i late) :=
  h_.still (State.tileCounts_still (Still.refl _))

/-! ### Machine/Operators.lean -/

theorem State.dropOp_still {s0 s : State} {o : OpRun} {e : Earned} (h_ : Still s0 s) : Still s0 (State.dropOp s o e)
    := by
  unfold State.dropOp
  with_reducible repeat'
    first
      | assumption | apply State.finish_still | apply State.modWork_still

theorem State.dropOp_keeps {s0 s : State} {o : OpRun} {e : Earned} (h_ : Keeps s0 s) : Keeps s0 (State.dropOp s o e)
    :=
  h_.still (State.dropOp_still (Still.refl _))

theorem State.onOp_still {s0 s : State} {id : ℕ} {f : OpRun → OpRun} (h_ : Still s0 s) : Still s0 (State.onOp s id f)
    := by
  unfold State.onOp
  with_reducible repeat'
    first
      | assumption | apply State.modWork_still

theorem State.onOp_keeps {s0 s : State} {id : ℕ} {f : OpRun → OpRun} (h_ : Keeps s0 s) : Keeps s0 (State.onOp s id f)
    :=
  h_.still (State.onOp_still (Still.refl _))

theorem State.take1_still {s0 s : State} {o : OpRun} {req seq : ℕ} (h_ : Still s0 s) : Still s0 (State.take1 s o req
    seq).2 := by
  unfold State.take1
  with_reducible repeat'
    first
      | assumption | apply State.onOp_still | apply State.syncOp_still | split

theorem State.take1_keeps {s0 s : State} {o : OpRun} {req seq : ℕ} (h_ : Keeps s0 s) : Keeps s0 (State.take1 s o req
    seq).2 :=
  h_.still (State.take1_still (Still.refl _))

theorem State.opStart_keeps {s0 s : State} {o : OpRun} (h_ : Keeps s0 s) : Keeps s0 (State.opStart s o) := by
  unfold State.opStart
  with_reducible repeat'
    first
      | assumption | apply State.loseScratch_keeps | apply State.modTile_keeps | apply State.onOp_keeps
      | apply State.startAt_keeps | apply State.syncOp_keeps | apply State.take1_keeps | apply State.traceCmd_keeps
      | apply Keeps.fold | (intro _) | split | dsimp -zeta +zetaDelta only

theorem State.tryStart_keeps {s0 s : State} {o : OpRun} (h_ : Keeps s0 s) : Keeps s0 (State.tryStart s o) := by
  unfold State.tryStart
  with_reducible repeat'
    first
      | assumption | apply State.dropOp_keeps | apply State.opStart_keeps | split

theorem execOperatorStart_keeps {s0 : State} {id : ℕ} {s : State} (h_ : Keeps s0 s) : NextP (Keeps s0)
    (execOperatorStart id s) := by
  unfold execOperatorStart
  with_reducible repeat'
    first
      | assumption | apply State.tryStart_keeps | apply State.unlessHalted_keeps | apply Keeps.next | (intro _)
      | split

theorem State.opEnd_keeps {s0 s : State} {o : OpRun} {st : ℕ} (h_ : Keeps s0 s) : Keeps s0 (State.opEnd s o st) := by
  unfold State.opEnd
  with_reducible repeat'
    first
      | assumption | apply State.cover_keeps | apply State.earnOn_keeps | apply State.finish_keeps
      | apply State.loseScratch_keeps | apply State.modQw_keeps | apply State.modTile_keeps
      | apply State.modWork_keeps | apply State.stageDone_keeps | apply State.tally_keeps | apply State.traceCmd_keeps
      | apply Keeps.fold | (intro _) | split

theorem State.sweep_still {s0 s : State} {o : OpRun} (h_ : Still s0 s) : Still s0 (State.sweep s o) := by
  unfold State.sweep
  with_reducible repeat'
    first
      | assumption | apply State.onOp_still

theorem State.sweep_keeps {s0 s : State} {o : OpRun} (h_ : Keeps s0 s) : Keeps s0 (State.sweep s o) :=
  h_.still (State.sweep_still (Still.refl _))

theorem State.opCheck_keeps {s0 s : State} {id : ℕ} (h_ : Keeps s0 s) : Keeps s0 (State.opCheck s id) := by
  unfold State.opCheck
  with_reducible repeat'
    first
      | assumption | fail_if_no_progress extract_lets | apply State.opEnd_keeps | apply State.sweep_keeps | split

theorem State.tileDone_keeps {s0 s : State} {o : OpRun} {tile index : ℕ} (h_ : Keeps s0 s) : Keeps s0 (State.tileDone
    s o tile index) := by
  unfold State.tileDone
  with_reducible repeat'
    first
      | assumption | fail_if_no_progress extract_lets | apply State.modBank_keeps | apply State.onOp_keeps
      | apply State.opCheck_keeps | apply State.outputTile_keeps | apply State.tileCounts_keeps
      | apply State.untilMclk_keeps | split

theorem execOutputTileComplete_keeps {s0 : State} {id tile index : ℕ} {s : State} (h_ : Keeps s0 s) : NextP (Keeps s0)
    (execOutputTileComplete id tile index s) := by
  unfold execOutputTileComplete
  with_reducible repeat'
    first
      | assumption | apply State.tileDone_keeps | apply State.unlessHalted_keeps | apply Keeps.next | (intro _)
      | split

theorem execWorkCounterTake_still {s0 : State} {obj requester seq : ℕ} {s : State} (h_ : Still s0 s) : NextP (Still
    s0) (execWorkCounterTake obj requester seq s) := by
  unfold execWorkCounterTake
  with_reducible repeat'
    first
      | assumption | apply State.reply_still | apply State.take1_still | apply State.unlessHalted_still
      | apply Still.next | (intro _) | split

theorem State.opBody_still {s0 s : State} {q id : ℕ} {b : List Byte} (h_ : Still s0 s) : OkP (Still s0) (State.opBody
    s q id b) := by
  unfold State.opBody
  with_reducible repeat'
    first
      | assumption | fail_if_no_progress extract_lets | apply State.fresh_still | apply State.modWork_still
      | apply Still.ok | apply Still.error | split

theorem execOp_still {s0 : State} {q : ℕ} {s : State} (h_ : Still s0 s) : NextP (Still s0) (execOp q s) := by
  unfold execOp
  with_reducible repeat'
    first
      | assumption | apply State.dispatch_still | apply State.opBody_still | apply Still.next | (intro _)

/-! ### Machine/Fused.lean -/

theorem State.stageInvoke_keeps {s0 s : State} {f : Fused} {j tile step : ℕ} (h_ : Keeps s0 s) : Keeps s0
    (State.stageInvoke s f j tile step) := by
  unfold State.stageInvoke
  with_reducible repeat'
    first
      | assumption | fail_if_no_progress extract_lets | apply State.invoke_keeps | apply State.invokeMore_keeps
      | apply State.stageDone_keeps | apply State.untilMclk_keeps | (intro _) | split | dsimp -zeta only
      | dsimp -zeta +zetaDelta only

theorem State.invocationRow_keeps {s0 s : State} {w : WorkRef} (h_ : Keeps s0 s) : Keeps s0 (State.invocationRow s w)
    := by
  unfold State.invocationRow
  with_reducible repeat'
    first
      | assumption | apply State.invocation_keeps | apply State.stageInvoke_keeps | split

theorem State.fusedBody_still {s0 s : State} {q id : ℕ} {b : List Byte} (h_ : Still s0 s) : OkP (Still s0)
    (State.fusedBody s q id b) := by
  unfold State.fusedBody
  with_reducible repeat'
    first
      | assumption | fail_if_no_progress extract_lets | apply State.fusedGo_still | apply State.modWork_still
      | apply State.startAt_still | apply Still.ok | apply Still.error | split

theorem execFusedChain_still {s0 : State} {q : ℕ} {s : State} (h_ : Still s0 s) : NextP (Still s0) (execFusedChain q
    s) := by
  unfold execFusedChain
  with_reducible repeat'
    first
      | assumption | apply State.dispatch_still | apply State.fusedBody_still | apply Still.next | (intro _)

/-! ### Machine/Phases.lean -/

theorem PhaseOut.put_keeps {s0 : State} {o : PhaseOut} {p : ℕ} {l : List (ℕ × Byte × Bool)} (h_ : Keeps s0 o.s) :
    Keeps s0 (PhaseOut.put o p l).s := by
  unfold PhaseOut.put
  with_reducible repeat'
    first
      | assumption | fail_if_no_progress extract_lets | apply State.wrCells_keeps | (intro _) | split
      | dsimp -zeta only | dsimp -zeta +zetaDelta only

theorem PhaseOut.factors_keeps {s0 : State} {o : PhaseOut} {c : GroupCtx} (h_ : Keeps s0 o.s) : Keeps s0
    (PhaseOut.factors o c).s := by
  unfold PhaseOut.factors
  with_reducible repeat'
    first
      | assumption | apply PhaseOut.put_keeps | apply Keeps.foldOut | (intro _)

theorem State.takePhase_still {s0 : State} {u : Update} {g : GroupWork} {o : PhaseOut} {weights : Bool} (h_ : Still s0
    o.s) : Still s0 (State.takePhase u g o weights).1 := by
  unfold State.takePhase
  with_reducible repeat'
    first
      | assumption | fail_if_no_progress extract_lets | apply State.health_still | apply State.mirrorUnits_still
      | split | refine Still.pairR (by assumption) ?_

theorem State.takePhase_keeps {s0 : State} {u : Update} {g : GroupWork} {o : PhaseOut} {weights : Bool} (h_ : Keeps s0
    o.s) : Keeps s0 (State.takePhase u g o weights).1 :=
  h_.still (State.takePhase_still (Still.refl _))

theorem State.applyGroup_keeps {s0 s : State} {u : Update} {g : GroupWork} (h_ : Keeps s0 s) : Keeps s0
    (State.applyGroup s u g) := by
  unfold State.applyGroup
  with_reducible repeat'
    first
      | assumption | apply PhaseOut.factors_keeps | apply State.closeGroup_keeps | apply State.onGroup_keeps
      | apply State.takePhase_keeps

theorem State.emptyGroups_keeps {s0 s : State} {id x2 : ℕ} (h_ : Keeps s0 s) : Keeps s0 (State.emptyGroups s id x2) :=
    by
  induction x2 generalizing s with
  | zero => exact h_
  | succ _ ih =>
    unfold State.emptyGroups
    with_reducible repeat'
      first
        | assumption | apply ih | apply State.applyGroup_keeps | split

theorem PhaseOut.masters_keeps {s0 : State} {o : PhaseOut} {x1 : State} {c : GroupCtx} {k n : ℕ} {bs : List Beat} (h_
    : Keeps s0 o.s) : Keeps s0 (PhaseOut.masters o x1 c k n bs).s := by
  unfold PhaseOut.masters
  with_reducible repeat'
    first
      | assumption | fail_if_no_progress extract_lets | apply PhaseOut.put_keeps | (intro _) | split
      | dsimp -zeta only | dsimp -zeta +zetaDelta only

theorem PhaseOut.shareBlock_keeps {s0 : State} {o : PhaseOut} {x1 : State} {c : GroupCtx} {k elem scale : ℕ} (h_ :
    Keeps s0 o.s) : Keeps s0 (PhaseOut.shareBlock o x1 c k elem scale).s := by
  unfold PhaseOut.shareBlock
  with_reducible repeat'
    first
      | assumption | fail_if_no_progress extract_lets | apply PhaseOut.put_keeps | apply State.freeBytes_keeps
      | (intro _) | split | refine Keeps.pairR (by assumption) ?_ | refine Keeps.pairL (by assumption) ?_
      | refine Keeps.pair3 (by assumption) ?_ | dsimp -zeta only | dsimp -zeta +zetaDelta only

theorem PhaseOut.rule_keeps {s0 : State} {o : PhaseOut} {x1 : State} {c : GroupCtx} {half k n : ℕ} (h_ : Keeps s0 o.s)
    : Keeps s0 (PhaseOut.rule o x1 c half k n).s := by
  unfold PhaseOut.rule
  with_reducible repeat'
    first
      | assumption | fail_if_no_progress extract_lets | apply PhaseOut.masters_keeps | apply PhaseOut.shareBlock_keeps
      | apply State.copyTables_keeps | apply State.freeBeats_keeps | apply State.modVec_keeps | apply runChain_keeps
      | apply Keeps.fold | apply Keeps.foldR | apply Keeps.foldL | apply Keeps.foldRun | apply Keeps.foldOut
      | apply Keeps.foldPre | apply Keeps.next | apply Keeps.ok | apply Keeps.error | apply Keeps.ok2
      | apply Keeps.error2 | apply Keeps.some | apply Keeps.none | apply Keeps.some2 | apply Keeps.none2 | (intro _)
      | split | refine Keeps.pairR (by assumption) ?_ | refine Keeps.pairL (by assumption) ?_
      | refine Keeps.pair3 (by assumption) ?_ | refine Keeps.ofOk (by assumption) ?_
      | refine Keeps.ofOk2 (by assumption) ?_ | refine Keeps.ofSome (by assumption) ?_
      | refine Keeps.ofSome2 (by assumption) ?_ | dsimp -zeta only | dsimp -zeta +zetaDelta only

theorem PhaseOut.rules_keeps {s0 : State} {o : PhaseOut} {x1 : State} {c : GroupCtx} {half : ℕ} {ks : List ℕ} (h_ :
    Keeps s0 o.s) : Keeps s0 (PhaseOut.rules o x1 c half ks).s := by
  unfold PhaseOut.rules
  with_reducible repeat'
    first
      | assumption | apply PhaseOut.rule_keeps | apply Keeps.foldR | apply Keeps.foldOut | (intro _)
      | refine Keeps.pairR (by assumption) ?_

theorem PhaseOut.stage_keeps {s0 : State} {o : PhaseOut} {c : GroupCtx} {b : ℕ} {ks planes : List ℕ} {scale : Option
    ℕ} (h_ : Keeps s0 o.s) : Keeps s0 (PhaseOut.stage o c b ks planes scale).s := by
  unfold PhaseOut.stage
  with_reducible repeat'
    first
      | assumption | fail_if_no_progress extract_lets | apply State.store_keeps | apply Keeps.fold | apply Keeps.foldR
      | apply Keeps.foldL | apply Keeps.foldRun | apply Keeps.foldOut | apply Keeps.foldPre | apply Keeps.next
      | apply Keeps.ok | apply Keeps.error | apply Keeps.ok2 | apply Keeps.error2 | apply Keeps.some
      | apply Keeps.none | apply Keeps.some2 | apply Keeps.none2 | (intro _) | split
      | refine Keeps.pairR (by assumption) ?_ | refine Keeps.pairL (by assumption) ?_
      | refine Keeps.pair3 (by assumption) ?_ | refine Keeps.ofOk (by assumption) ?_
      | refine Keeps.ofOk2 (by assumption) ?_ | refine Keeps.ofSome (by assumption) ?_
      | refine Keeps.ofSome2 (by assumption) ?_ | dsimp -zeta only | dsimp -zeta +zetaDelta only

theorem PhaseOut.stamps_keeps {s0 : State} {o : PhaseOut} {c : GroupCtx} {b : ℕ} (h_ : Keeps s0 o.s) : Keeps s0
    (PhaseOut.stamps o c b).s := by
  unfold PhaseOut.stamps
  with_reducible repeat'
    first
      | assumption | apply PhaseOut.put_keeps | apply Keeps.foldOut | (intro _) | split

theorem PhaseOut.u1_keeps {s0 : State} {o : PhaseOut} {x1 : State} {c : GroupCtx} {k : ℕ} (h_ : Keeps s0 o.s) : Keeps
    s0 (PhaseOut.u1 o x1 c k).1.s := by
  unfold PhaseOut.u1
  with_reducible repeat'
    first
      | assumption | fail_if_no_progress extract_lets | apply PhaseOut.put_keeps | apply PhaseOut.shareBlock_keeps
      | (intro _) | split | refine Keeps.pairR (by assumption) ?_ | refine Keeps.pairL (by assumption) ?_
      | refine Keeps.pair3 (by assumption) ?_ | refine Keeps.pairC (by assumption) ?_ | dsimp -zeta only
      | dsimp -zeta +zetaDelta only

theorem State.putVectors_keeps {s0 s : State} {c : GroupCtx} (h_ : Keeps s0 s) : Keeps s0 (State.putVectors s c) := by
  unfold State.putVectors
  with_reducible repeat'
    first
      | assumption | apply State.store_keeps | apply Keeps.fold | (intro _)

theorem State.momentum_keeps {s0 s : State} {u : Update} {b : ℕ} (h_ : Keeps s0 s) : Keeps s0 (State.momentum s u b)
    := by
  unfold State.momentum
  with_reducible repeat'
    first
      | assumption | apply PhaseOut.rules_keeps | apply PhaseOut.stage_keeps | apply PhaseOut.stamps_keeps
      | apply PhaseOut.u1_keeps | apply State.onGroup_keeps | apply State.putVectors_keeps
      | apply State.showGroup_keeps | apply State.takePhase_keeps | apply Keeps.foldPre | (intro _) | split
      | refine Keeps.pairC (by assumption) ?_ | dsimp -zeta +zetaDelta only

theorem PhaseOut.weights_keeps {s0 : State} {o : PhaseOut} {c : GroupCtx} {xs : List ℕ} {es : List Val} {bad : Bool}
    (h_ : Keeps s0 o.s) : Keeps s0 (PhaseOut.weights o c xs es bad).s := by
  unfold PhaseOut.weights
  with_reducible repeat'
    first
      | assumption | fail_if_no_progress extract_lets | apply PhaseOut.put_keeps | (intro _) | split
      | dsimp -zeta only | dsimp -zeta +zetaDelta only

theorem State.weight_keeps {s0 s : State} {u : Update} {b : ℕ} (h_ : Keeps s0 s) : Keeps s0 (State.weight s u b) := by
  unfold State.weight
  with_reducible repeat'
    first
      | assumption | fail_if_no_progress extract_lets | apply PhaseOut.rules_keeps | apply PhaseOut.stage_keeps
      | apply PhaseOut.weights_keeps | apply State.applyGroup_keeps | apply State.emptyGroups_keeps
      | apply State.onGroup_keeps | apply State.takePhase_keeps | apply State.updateCheck_keeps | apply Keeps.foldOut
      | (intro _) | split | refine Keeps.pairL (by assumption) ?_ | dsimp -zeta +zetaDelta only

/-! ### Machine/Update.lean -/

theorem execMomentumPhase_keeps {s0 : State} {id block : ℕ} {s : State} (h_ : Keeps s0 s) : NextP (Keeps s0)
    (execMomentumPhase id block s) := by
  unfold execMomentumPhase
  with_reducible repeat'
    first
      | assumption | apply State.momentum_keeps | apply State.unlessHalted_keeps | apply Keeps.next | (intro _)
      | split

theorem State.planeRun_still {s0 s : State} {id q p slot step : ℕ} (h_ : Still s0 s) : OkP2 (Still s0) (State.planeRun
    s id q p slot step) := by
  unfold State.planeRun
  with_reducible repeat'
    first
      | assumption | fail_if_no_progress extract_lets | apply State.newRun_still | apply Still.ok2
      | apply Still.error2 | split

theorem State.planeRun_keeps {s0 s : State} {id q p slot step : ℕ} (h_ : Keeps s0 s) : OkP2 (Keeps s0) (State.planeRun
    s id q p slot step) :=
  h_.ok2S (State.planeRun_still (Still.refl _))

theorem State.refreshBody_still {s0 s : State} {q id : ℕ} {b : List Byte} (h_ : Still s0 s) : OkP (Still s0)
    (State.refreshBody s q id b) := by
  unfold State.refreshBody
  with_reducible repeat'
    first
      | assumption | fail_if_no_progress extract_lets | apply State.modWork_still | apply State.planeRun_still
      | apply State.startAt_still | apply State.traceCmd_still | apply Still.fold | apply Still.foldR
      | apply Still.foldL | apply Still.foldRun | apply Still.foldOut | apply Still.foldPre | apply Still.next
      | apply Still.ok | apply Still.error | apply Still.some | apply Still.none | apply Still.some2
      | apply Still.none2 | split | refine Still.pairR (by assumption) ?_ | refine Still.pairL (by assumption) ?_
      | refine Still.pair3 (by assumption) ?_ | refine Still.ofOk2 (by assumption) ?_
      | refine Still.ofSome (by assumption) ?_ | refine Still.ofSome2 (by assumption) ?_

theorem State.groupWriteBody_keeps {s0 s : State} {q id : ℕ} {b : List Byte} (h_ : Keeps s0 s) : OkP (Keeps s0)
    (State.groupWriteBody s q id b) := by
  unfold State.groupWriteBody
  with_reducible repeat'
    first
      | assumption | fail_if_no_progress extract_lets | apply State.closeGroup_keeps | apply State.modWork_keeps
      | apply State.startAt_keeps | apply State.updateCheck_keeps | apply Keeps.ok | apply Keeps.error | split

theorem State.updateBody_keeps {s0 s : State} {q id : ℕ} {b : List Byte} (h_ : Keeps s0 s) : OkP (Keeps s0)
    (State.updateBody s q id b) := by
  unfold State.updateBody
  with_reducible repeat'
    first
      | assumption | fail_if_no_progress extract_lets | apply State.closeGroup_keeps | apply State.emptyGroups_keeps
      | apply State.modWork_keeps | apply State.planeRun_keeps | apply State.startAt_keeps
      | apply State.traceCmd_keeps | apply Keeps.fold | apply Keeps.ok | apply Keeps.error | (intro _) | split
      | refine Keeps.ofOk2 (by assumption) ?_

theorem execUpdateStep_keeps {s0 : State} {q : ℕ} {s : State} (h_ : Keeps s0 s) : NextP (Keeps s0) (execUpdateStep q
    s) := by
  unfold execUpdateStep
  with_reducible repeat'
    first
      | assumption | apply State.dispatch_keeps | apply State.updateBody_keeps | apply Keeps.next | (intro _) | split

theorem execRootRefresh_still {s0 : State} {q : ℕ} {s : State} (h_ : Still s0 s) : NextP (Still s0) (execRootRefresh q
    s) := by
  unfold execRootRefresh
  with_reducible repeat'
    first
      | assumption | apply State.dispatch_still | apply State.refreshBody_still | apply Still.next | (intro _) | split

theorem execGroupWrite_keeps {s0 : State} {q : ℕ} {s : State} (h_ : Keeps s0 s) : NextP (Keeps s0) (execGroupWrite q
    s) := by
  unfold execGroupWrite
  with_reducible repeat'
    first
      | assumption | apply State.dispatch_keeps | apply State.groupWriteBody_keeps | apply Keeps.next | (intro _)
      | split

theorem execWeightPhase_keeps {s0 : State} {id block : ℕ} {s : State} (h_ : Keeps s0 s) : NextP (Keeps s0)
    (execWeightPhase id block s) := by
  unfold execWeightPhase
  with_reducible repeat'
    first
      | assumption | apply State.unlessHalted_keeps | apply State.weight_keeps | apply Keeps.next | (intro _) | split

end Sys2Proof.Machine
end

