-- ==== Sys2Proof/Laws/FrameEvents.lean ====
section
/-!
SUPPORT. What the operations of Machine/Ends.lean, QueueEvents.lean, Debug.lean, Security.lean do to the queue of commands and to memory.
-/
namespace Sys2Proof.Machine
open Sys2Proof

/-! ### Machine/Ends.lean -/

theorem State.drainOut_keeps {s0 s : State} {t a : ℕ} {d : DrainRun} {i : Issuer} (h_ : Keeps s0 s) : Keeps s0
    (State.drainOut s t a d i) := by
  unfold State.drainOut
  with_reducible repeat'
    first
      | assumption | fail_if_no_progress extract_lets | apply State.drainStep_keeps | apply State.modArr_keeps
      | apply Keeps.fold | apply Keeps.foldR | apply Keeps.foldL | apply Keeps.foldRun | apply Keeps.foldOut
      | apply Keeps.foldPre | apply Keeps.next | apply Keeps.ok | apply Keeps.error | apply Keeps.ok2
      | apply Keeps.error2 | apply Keeps.some | apply Keeps.none | apply Keeps.some2 | apply Keeps.none2 | (intro _)
      | split | refine Keeps.pairR (by assumption) ?_ | refine Keeps.pairL (by assumption) ?_
      | refine Keeps.pair3 (by assumption) ?_ | refine Keeps.ofOk (by assumption) ?_
      | refine Keeps.ofOk2 (by assumption) ?_ | refine Keeps.ofSome (by assumption) ?_
      | refine Keeps.ofSome2 (by assumption) ?_ | dsimp -zeta only | dsimp -zeta +zetaDelta only

theorem ChainRun.runOut_keeps {s0 : State} {t : ℕ} {env : ChainEnv} {b : List Byte} {ds : List ℕ} {n : ℕ}
    {v : ChainRun} (h_ : Keeps s0 v.s) : Keeps s0 (ChainRun.runOut t env b ds n v).s := by
  induction n generalizing v with
  | zero => exact h_
  | succ n ih =>
    have g {w : ChainRun} {c : Option ℕ} (e : ChainRun.go v.s t env b ds (vSpan env b - v.mclk) v = (w, c)) :
        Keeps s0 w.s := by
      have h := ChainRun.go_keeps (x0 := v.s) (t := t) (env := env) (b := b) (ds := ds)
        (n := vSpan env b - v.mclk) h_
      rw [e] at h; exact h
    unfold ChainRun.runOut
    split
    · rename_i e; exact g e
    · rename_i e; exact g e
    · rename_i e; exact ih (by dsimp only; exact State.modTile_keeps (g e))

theorem State.invokeOut_keeps {s0 s : State} {g : VRun} {i : Issuer} (h_ : Keeps s0 s) : Keeps s0 (State.invokeOut s g
    i) := by
  unfold State.invokeOut
  with_reducible repeat'
    first
      | assumption | fail_if_no_progress extract_lets | apply ChainRun.flush_keeps | apply ChainRun.runOut_keeps
      | apply State.health_keeps | apply State.modVec_keeps | apply State.poisonOn_keeps | (intro _) | split
      | dsimp -zeta only | dsimp -zeta +zetaDelta only

theorem State.completeHeld_keeps {s0 s : State} {id : ℕ} {i : Issuer} {t : ℕ} (h_ : Keeps s0 s) : Keeps s0
    (State.completeHeld s id i t) := by
  unfold State.completeHeld
  with_reducible repeat'
    first
      | assumption | fail_if_no_progress extract_lets | apply State.drainOut_keeps | apply State.invokeOut_keeps
      | apply Keeps.fold | apply Keeps.foldR | apply Keeps.foldL | apply Keeps.foldRun | apply Keeps.foldOut
      | apply Keeps.foldPre | apply Keeps.next | apply Keeps.ok | apply Keeps.error | apply Keeps.ok2
      | apply Keeps.error2 | apply Keeps.some | apply Keeps.none | apply Keeps.some2 | apply Keeps.none2 | (intro _)
      | split | refine Keeps.pairR (by assumption) ?_ | refine Keeps.pairL (by assumption) ?_
      | refine Keeps.pair3 (by assumption) ?_ | refine Keeps.ofOk (by assumption) ?_
      | refine Keeps.ofOk2 (by assumption) ?_ | refine Keeps.ofSome (by assumption) ?_
      | refine Keeps.ofSome2 (by assumption) ?_ | dsimp -zeta only | dsimp -zeta +zetaDelta only

theorem State.abandonRun_keeps {s0 s : State} {r : Run} {e : Earned} (h_ : Keeps s0 s) : Keeps s0 (State.abandonRun s
    r e) := by
  unfold State.abandonRun
  with_reducible repeat'
    first
      | assumption | fail_if_no_progress extract_lets | apply State.addSlip_keeps | apply State.completeHeld_keeps
      | apply State.emptyQueues_keeps | apply State.leaveRun_keeps | apply Keeps.fold | apply Keeps.foldR
      | apply Keeps.foldL | apply Keeps.foldRun | apply Keeps.foldOut | apply Keeps.foldPre | apply Keeps.next
      | apply Keeps.ok | apply Keeps.error | apply Keeps.ok2 | apply Keeps.error2 | apply Keeps.some
      | apply Keeps.none | apply Keeps.some2 | apply Keeps.none2 | (intro _) | split
      | refine Keeps.pairR (by assumption) ?_ | refine Keeps.pairL (by assumption) ?_
      | refine Keeps.pair3 (by assumption) ?_ | refine Keeps.ofOk (by assumption) ?_
      | refine Keeps.ofOk2 (by assumption) ?_ | refine Keeps.ofSome (by assumption) ?_
      | refine Keeps.ofSome2 (by assumption) ?_ | dsimp -zeta only | dsimp -zeta +zetaDelta only

theorem State.joinStarve_keeps {s0 s : State} {r : Run} (h_ : Keeps s0 s) : Keeps s0 (State.joinStarve s r) := by
  unfold State.joinStarve
  with_reducible repeat'
    first
      | assumption | apply State.abandonRun_keeps | apply State.untilMclk_keeps | split

theorem State.contextError_keeps {s0 s : State} {id t : ℕ} (h_ : Keeps s0 s) : Keeps s0 (State.contextError s id t) :=
    by
  unfold State.contextError
  with_reducible repeat'
    first
      | assumption | fail_if_no_progress extract_lets | apply State.abandonRun_keeps | apply State.modCtx_keeps
      | (intro _) | split | dsimp -zeta only | dsimp -zeta +zetaDelta only

theorem execJoinStarve_keeps {s0 : State} {id : ℕ} {s : State} (h_ : Keeps s0 s) : NextP (Keeps s0) (execJoinStarve id
    s) := by
  unfold execJoinStarve
  with_reducible repeat'
    first
      | assumption | apply State.joinStarve_keeps | apply State.unlessHalted_keeps | apply Keeps.next | (intro _)
      | split

theorem State.peerTimeout_keeps {s0 s : State} {r : Run} (h_ : Keeps s0 s) : Keeps s0 (State.peerTimeout s r) := by
  unfold State.peerTimeout
  with_reducible repeat'
    first
      | assumption | apply State.abandonRun_keeps | apply State.untilLive_keeps | split

theorem execPeerInputTimeout_keeps {s0 : State} {id : ℕ} {s : State} (h_ : Keeps s0 s) : NextP (Keeps s0)
    (execPeerInputTimeout id s) := by
  unfold execPeerInputTimeout
  with_reducible repeat'
    first
      | assumption | apply State.peerTimeout_keeps | apply State.unlessFrozen_keeps | apply Keeps.next | (intro _)
      | split

/-! ### Machine/QueueEvents.lean -/

theorem State.disableQueue_still {s0 s : State} {q : ℕ} (h_ : Still s0 s) : Still s0 (State.disableQueue s q) := by
  unfold State.disableQueue
  with_reducible repeat'
    first
      | assumption | fail_if_no_progress extract_lets | apply State.modQueue_still | apply State.modQw_still
      | apply State.modWork_still | split

theorem State.enableQueue_still {s0 s : State} {q : ℕ} (h_ : Still s0 s) : Still s0 (State.enableQueue s q) := by
  unfold State.enableQueue
  with_reducible repeat'
    first
      | assumption | fail_if_no_progress extract_lets | apply State.modQueue_still | apply State.modQw_still
      | apply State.pump_still | split

theorem State.refuseWrite_still {s0 s : State} {q : ℕ} (h_ : Still s0 s) : Still s0 (State.refuseWrite s q) := by
  unfold State.refuseWrite
  with_reducible repeat'
    first
      | assumption | apply State.modQueue_still

theorem State.resumeQueue_still {s0 s : State} {q : ℕ} (h_ : Still s0 s) : Still s0 (State.resumeQueue s q) := by
  unfold State.resumeQueue
  with_reducible repeat'
    first
      | assumption | apply State.modQueue_still | apply State.pump_still | split

theorem State.writeQCtrl_still {s0 s : State} {q v : ℕ} (h_ : Still s0 s) : Still s0 (State.writeQCtrl s q v) := by
  unfold State.writeQCtrl
  with_reducible repeat'
    first
      | assumption | fail_if_no_progress extract_lets | apply State.disableQueue_still | apply State.enableQueue_still
      | apply State.modQueue_still | apply State.refuseWrite_still | apply State.resumeQueue_still | split
      | dsimp -zeta +zetaDelta only

theorem State.signalOn_keeps {s0 s : State} {q : ℕ} {f : Fin} (h_ : Keeps s0 s) : Keeps s0 (State.signalOn s q f) :=
    by
  unfold State.signalOn
  with_reducible repeat'
    first
      | assumption | apply State.collsGo_keeps | apply State.syncOp_keeps | split

theorem State.ignoreBell_still {s0 s : State} {q : ℕ} (h_ : Still s0 s) : Still s0 (State.ignoreBell s q) := by
  unfold State.ignoreBell
  with_reducible repeat'
    first
      | assumption | apply State.modQueue_still

theorem State.bellHead_still {s0 s : State} {q v : ℕ} (h_ : Still s0 s) : Still s0 (State.bellHead s q v) := by
  unfold State.bellHead
  with_reducible repeat'
    first
      | assumption | fail_if_no_progress extract_lets | apply State.ignoreBell_still | apply State.modQueue_still
      | split

theorem State.bellTail_still {s0 s : State} {q v : ℕ} (h_ : Still s0 s) : Still s0 (State.bellTail s q v) := by
  unfold State.bellTail
  with_reducible repeat'
    first
      | assumption | fail_if_no_progress extract_lets | apply State.ignoreBell_still | apply State.modQueue_still
      | apply State.pump_still | split

theorem State.holdWrite_still {s0 s : State} {kind q v : ℕ} (h_ : Still s0 s) : Still s0 (State.holdWrite s kind q v)
    := by
  unfold State.holdWrite
  with_reducible repeat'
    first
      | assumption | apply State.modMod_still

theorem State.bellNow_still {s0 s : State} {kind q v : ℕ} (h_ : Still s0 s) : Still s0 (State.bellNow s kind q v) :=
    by
  unfold State.bellNow
  with_reducible repeat'
    first
      | assumption | apply State.bellHead_still | apply State.bellTail_still | apply State.holdWrite_still
      | apply State.wakeCore_still | split

theorem State.bellNow_keeps {s0 s : State} {kind q v : ℕ} (h_ : Keeps s0 s) : Keeps s0 (State.bellNow s kind q v) :=
  h_.still (State.bellNow_still (Still.refl _))

theorem State.bell_still {s0 s : State} {c : Instr} {kind q v : ℕ} (h_ : Still s0 s) : Still s0 (State.bell s c kind q
    v) := by
  unfold State.bell
  with_reducible repeat'
    first
      | assumption | fail_if_no_progress extract_lets | apply State.bellNow_still | apply State.modDbg_still
      | apply State.quiet_still | split

theorem execSqTail_still {s0 : State} {q v : ℕ} {s : State} (h_ : Still s0 s) : NextP (Still s0) (execSqTail q v s) :=
    by
  unfold execSqTail
  with_reducible repeat'
    first
      | assumption | apply State.bell_still | apply Still.next

theorem State.qCtrl_still {s0 s : State} {v : ℕ} (h_ : Still s0 s) : Still s0 (State.qCtrl s v) := by
  unfold State.qCtrl
  with_reducible repeat'
    first
      | assumption | apply State.holdWrite_still | apply State.writeQCtrl_still | split

theorem State.stopDmas_still {s0 s : State} {owner q : ℕ} {stage : Option ℕ} (h_ : Still s0 s) : Still s0
    (State.stopDmas s owner q stage) := by
  unfold State.stopDmas
  with_reducible repeat'
    first
      | assumption | fail_if_no_progress extract_lets | apply State.earnOn_still | apply State.finish_still
      | apply State.modWork_still | apply State.stageDone_still | split

theorem State.stopDmas_keeps {s0 s : State} {owner q : ℕ} {stage : Option ℕ} (h_ : Keeps s0 s) : Keeps s0
    (State.stopDmas s owner q stage) :=
  h_.still (State.stopDmas_still (Still.refl _))

theorem State.stopOp_keeps {s0 s : State} {o : OpRun} (h_ : Keeps s0 s) : Keeps s0 (State.stopOp s o) := by
  unfold State.stopOp
  with_reducible repeat'
    first
      | assumption | apply State.onOp_keeps | apply State.opCheck_keeps | apply State.opEnd_keeps | split

theorem State.stopRun_still {s0 s : State} {r : Run} (h_ : Still s0 s) : Still s0 (State.stopRun s r) := by
  unfold State.stopRun
  with_reducible repeat'
    first
      | assumption | fail_if_no_progress extract_lets | apply State.finish_still | apply State.modWork_still
      | apply State.onRun_still | apply State.onUpd_still | split

theorem State.stopRun_keeps {s0 s : State} {r : Run} (h_ : Keeps s0 s) : Keeps s0 (State.stopRun s r) :=
  h_.still (State.stopRun_still (Still.refl _))

theorem State.placeTokens_keeps {s0 s : State} {p : ℕ} (h_ : Keeps s0 s) : Keeps s0 (State.placeTokens s p) := by
  unfold State.placeTokens
  with_reducible repeat'
    first
      | assumption | apply State.collFail_keeps | apply State.fusedGo_keeps | apply State.modPart_keeps
      | apply State.modQw_keeps | apply State.modWork_keeps | apply State.stopDmas_keeps | apply State.stopOp_keeps
      | apply State.stopRun_keeps | apply State.updateCheck_keeps | apply Keeps.fold | (intro _)

theorem State.putRecord_keeps {s0 s : State} {q : ℕ} {bytes : ℕ → List Byte} (h_ : Keeps s0 s) : Keeps s0
    (State.putRecord s q bytes) := by
  unfold State.putRecord
  with_reducible repeat'
    first
      | assumption | apply State.modQueue_keeps | apply State.wrAt_keeps | split | apply Keeps.lit

theorem State.finRecord_keeps {s0 s : State} {q : ℕ} {f : Fin} (h_ : Keeps s0 s) : Keeps s0 (State.finRecord s q f) :=
    by
  unfold State.finRecord
  with_reducible repeat'
    first
      | assumption | fail_if_no_progress extract_lets | apply State.modQueue_keeps | apply State.modQw_keeps
      | apply State.putRecord_keeps | apply State.raise_keeps | apply State.ringSnapshot_keeps
      | apply State.signalOn_keeps | apply State.untilMclk_keeps | split | refine Keeps.pairL (by assumption) ?_
      | dsimp -zeta +zetaDelta only

theorem State.stepRecord_keeps {s0 s : State} {q tag : ℕ} (h_ : Keeps s0 s) : Keeps s0 (State.stepRecord s q tag) :=
    by
  unfold State.stepRecord
  with_reducible repeat'
    first
      | assumption | apply State.modQueue_keeps | apply State.modQw_keeps | apply State.putRecord_keeps
      | apply State.raise_keeps

theorem State.nextRecord_keeps {s0 s : State} {q : ℕ} (h_ : Keeps s0 s) : Keeps s0 (State.nextRecord s q) := by
  unfold State.nextRecord
  with_reducible repeat'
    first
      | assumption | fail_if_no_progress extract_lets | apply State.finRecord_keeps | apply State.pump_keeps
      | apply State.stepRecord_keeps | split | dsimp -zeta +zetaDelta only

theorem execCompletionRecord_keeps {s0 : State} {q : ℕ} {s : State} (h_ : Keeps s0 s) : NextP (Keeps s0)
    (execCompletionRecord q s) := by
  unfold execCompletionRecord
  with_reducible repeat'
    first
      | assumption | apply State.nextRecord_keeps | apply State.unlessFrozen_keeps | apply Keeps.next | (intro _)

theorem State.partialOut_still {s0 s : State} {q since : ℕ} (h_ : Still s0 s) : Still s0 (State.partialOut s q since)
    := by
  unfold State.partialOut
  with_reducible repeat'
    first
      | assumption | apply State.fresh_still | apply State.modQueue_still | apply State.modQw_still
      | apply State.untilLive_still

theorem State.quiesced_still {s0 s : State} {p : ℕ} (h_ : Still s0 s) : Still s0 (State.quiesced s p) := by
  unfold State.quiesced
  with_reducible repeat'
    first
      | assumption | apply State.event_still | apply State.finishOp_still | apply State.modPart_still
      | apply State.modQueue_still | apply State.modQw_still | apply Still.fold | (intro _) | split

theorem execQuiesced_still {s0 : State} {p : ℕ} {s : State} (h_ : Still s0 s) : NextP (Still s0) (execQuiesced p s) :=
    by
  unfold execQuiesced
  with_reducible repeat'
    first
      | assumption | apply State.quiesced_still | apply State.unlessFrozen_still | apply Still.next | (intro _)

theorem execPartialCommandTimeout_still {s0 : State} {q : ℕ} {s : State} (h_ : Still s0 s) : NextP (Still s0)
    (execPartialCommandTimeout q s) := by
  unfold execPartialCommandTimeout
  with_reducible repeat'
    first
      | assumption | apply State.partialOut_still | apply State.unlessFrozen_still | apply Still.next | (intro _)
      | split

theorem State.opOut_still {s0 s : State} {o : OpRun} (h_ : Still s0 s) : Still s0 (State.opOut s o) := by
  unfold State.opOut
  with_reducible repeat'
    first
      | assumption | apply State.dropOp_still | apply State.earnOn_still | apply State.modWork_still
      | apply State.onFused_still | apply State.stageDone_still | split

theorem State.opOut_keeps {s0 s : State} {o : OpRun} (h_ : Keeps s0 s) : Keeps s0 (State.opOut s o) :=
  h_.still (State.opOut_still (Still.refl _))

theorem State.outFree_still {s0 s : State} (h_ : Still s0 s) : Still s0 (State.outFree s).2 := by
  unfold State.outFree
  with_reducible repeat'
    first
      | assumption | apply State.free_still

theorem State.outFree_keeps {s0 s : State} (h_ : Keeps s0 s) : Keeps s0 (State.outFree s).2 :=
  h_.still (State.outFree_still (Still.refl _))

theorem State.runOut_keeps {s0 s : State} {r : Run} (h_ : Keeps s0 s) : Keeps s0 (State.runOut s r) := by
  unfold State.runOut
  with_reducible repeat'
    first
      | assumption | fail_if_no_progress extract_lets | apply State.abandonRun_keeps | apply State.earnOn_keeps
      | apply State.finish_keeps | apply State.modWork_keeps | apply State.onUpd_keeps | apply State.outFree_keeps
      | apply State.updateCheck_keeps | split | refine Keeps.pairR (by assumption) ?_
      | refine Keeps.pairL (by assumption) ?_ | refine Keeps.pair3 (by assumption) ?_

theorem State.execOut_keeps {s0 s : State} {q : ℕ} {e : Exec} (h_ : Keeps s0 s) : Keeps s0 (State.execOut s q e) := by
  unfold State.execOut
  with_reducible repeat'
    first
      | assumption | fail_if_no_progress extract_lets | apply State.collLeave_keeps | apply State.finish_keeps
      | apply State.modWork_keeps | apply State.onPair_keeps | apply State.opOut_keeps | apply State.outFree_keeps
      | apply State.runOut_keeps | apply State.setCtxs_keeps | split

theorem State.quiesceBody_keeps {s0 s : State} {q id : ℕ} (h_ : Keeps s0 s) : Keeps s0 (State.quiesceBody s q id) :=
    by
  unfold State.quiesceBody
  with_reducible repeat'
    first
      | assumption | fail_if_no_progress extract_lets | apply State.atOnce_keeps | apply State.placeTokens_keeps
      | apply State.startAt_keeps | split

theorem execQuiesce_keeps {s0 : State} {q : ℕ} {s : State} (h_ : Keeps s0 s) : NextP (Keeps s0) (execQuiesce q s) :=
    by
  unfold execQuiesce
  with_reducible repeat'
    first
      | assumption | apply State.dispatch_keeps | apply State.quiesceBody_keeps | apply Keeps.next | apply Keeps.ok
      | apply Keeps.error | (intro _)

theorem execResume_still {s0 : State} {v : ℕ} {s : State} (h_ : Still s0 s) : NextP (Still s0) (execResume v s) := by
  unfold execResume
  with_reducible repeat'
    first
      | assumption | apply State.qCtrl_still | apply Still.next

theorem execCqHead_still {s0 : State} {q v : ℕ} {s : State} (h_ : Still s0 s) : NextP (Still s0) (execCqHead q v s) :=
    by
  unfold execCqHead
  with_reducible repeat'
    first
      | assumption | apply State.bell_still | apply Still.next

theorem execQueueEnable_still {s0 : State} {v : ℕ} {s : State} (h_ : Still s0 s) : NextP (Still s0) (execQueueEnable v
    s) := by
  unfold execQueueEnable
  with_reducible repeat'
    first
      | assumption | apply State.qCtrl_still | apply Still.next

theorem State.waitingOut_still {s0 s : State} {q : ℕ} {c : Waiting} (h_ : Still s0 s) : Still s0 (State.waitingOut s q
    c) := by
  unfold State.waitingOut
  with_reducible repeat'
    first
      | assumption | apply State.endWaiting_still | apply State.outFree_still | apply State.pump_still
      | apply State.untilLive_still | split

theorem State.waitingOut_keeps {s0 s : State} {q : ℕ} {c : Waiting} (h_ : Keeps s0 s) : Keeps s0 (State.waitingOut s q
    c) :=
  h_.still (State.waitingOut_still (Still.refl _))

theorem execWaitTimeout_keeps {s0 : State} {q id : ℕ} {s : State} (h_ : Keeps s0 s) : NextP (Keeps s0)
    (execWaitTimeout q id s) := by
  unfold execWaitTimeout
  with_reducible repeat'
    first
      | assumption | apply State.execOut_keeps | apply State.unlessFrozen_keeps | apply State.untilLive_keeps
      | apply State.waitingOut_keeps | apply Keeps.next | (intro _) | split

theorem execQueueDisable_still {s0 : State} {v : ℕ} {s : State} (h_ : Still s0 s) : NextP (Still s0) (execQueueDisable
    v s) := by
  unfold execQueueDisable
  with_reducible repeat'
    first
      | assumption | apply State.qCtrl_still | apply Still.next

/-! ### Machine/Debug.lean -/

theorem State.shiftUnits_still {s0 s : State} {stop h cause : ℕ} (h_ : Still s0 s) : Still s0 (State.shiftUnits s stop
    h cause) := by
  unfold State.shiftUnits
  with_reducible repeat'
    first
      | assumption | apply State.addSlip_still | apply State.modWork_still | apply State.onRun_still
      | apply Still.fold | (intro _) | apply Still.lit

theorem State.shiftUnits_keeps {s0 s : State} {stop h cause : ℕ} (h_ : Keeps s0 s) : Keeps s0 (State.shiftUnits s stop
    h cause) :=
  h_.still (State.shiftUnits_still (Still.refl _))

theorem State.writeCntCtrl_still {s0 s : State} {v : ℕ} (h_ : Still s0 s) : Still s0 (State.writeCntCtrl s v) := by
  unfold State.writeCntCtrl
  with_reducible repeat'
    first
      | assumption | apply State.resetBank_still | split

theorem State.writeBreak_keeps {s0 s : State} {v : ℕ} (h_ : Keeps s0 s) : Keeps s0 (State.writeBreak s v) := by
  unfold State.writeBreak
  with_reducible repeat'
    first
      | assumption | fail_if_no_progress extract_lets | apply State.endHold_keeps | apply State.modDbg_keeps | split

theorem execContinueBreak_keeps {s0 : State} {v : ℕ} {s : State} (h_ : Keeps s0 s) : NextP (Keeps s0)
    (execContinueBreak v s) := by
  unfold execContinueBreak
  with_reducible repeat'
    first
      | assumption | apply State.writeBreak_keeps | apply Keeps.next | split

theorem State.fanOut_still {s0 s : State} {kind : ℕ} {key : ℕ → ℕ} (h_ : Still s0 s) : Still s0 (State.fanOut s kind
    key) := by
  unfold State.fanOut
  with_reducible repeat'
    first
      | assumption | apply State.modLink_still | apply Still.fold | (intro _)

theorem State.fanOut_keeps {s0 s : State} {kind : ℕ} {key : ℕ → ℕ} (h_ : Keeps s0 s) : Keeps s0 (State.fanOut s kind
    key) :=
  h_.still (State.fanOut_still (Still.refl _))

theorem State.traceAll_still {s0 s : State} {ev payload : ℕ} (h_ : Still s0 s) : Still s0 (State.traceAll s ev
    payload) := by
  unfold State.traceAll
  with_reducible repeat'
    first
      | assumption | apply State.traceEv_still | apply Still.fold | (intro _)

theorem State.traceAll_keeps {s0 s : State} {ev payload : ℕ} (h_ : Keeps s0 s) : Keeps s0 (State.traceAll s ev
    payload) :=
  h_.still (State.traceAll_still (Still.refl _))

theorem State.freezeNow_still {s0 s : State} (h_ : Still s0 s) : Still s0 (State.freezeNow s) := by
  unfold State.freezeNow
  with_reducible repeat'
    first
      | assumption | apply State.modDbg_still | apply State.traceAll_still | split

theorem State.sourcesChanged_still {s0 s : State} (h_ : Still s0 s) : Still s0 (State.sourcesChanged s) := by
  unfold State.sourcesChanged
  with_reducible repeat'
    first
      | assumption | apply State.freezeNow_still | apply State.modDbg_still | split

theorem State.sourcesChanged_keeps {s0 s : State} (h_ : Keeps s0 s) : Keeps s0 (State.sourcesChanged s) :=
  h_.still (State.sourcesChanged_still (Still.refl _))

theorem State.ownSource_still {s0 s : State} {f : State → State} (h_ : Still s0 s) (hf : ∀ t, Still s0 t → Still s0 (f
    t)) : Still s0 (State.ownSource s f) := by
  unfold State.ownSource
  with_reducible repeat'
    first
      | assumption | apply hf | apply State.fanOut_still | apply State.modDbg_still | apply State.sourcesChanged_still
      | split | dsimp -zeta +zetaDelta only

theorem State.ownSource_keeps {s0 s : State} {f : State → State} (h_ : Keeps s0 s) (hf : ∀ t, Keeps s0 t → Keeps s0 (f
    t)) : Keeps s0 (State.ownSource s f) := by
  unfold State.ownSource
  with_reducible repeat'
    first
      | assumption | apply hf | apply State.fanOut_keeps | apply State.modDbg_keeps | apply State.sourcesChanged_keeps
      | split | dsimp -zeta +zetaDelta only

theorem State.writeDbgCtrl_still {s0 s : State} {v : ℕ} (h_ : Still s0 s) : Still s0 (State.writeDbgCtrl s v) := by
  unfold State.writeDbgCtrl
  with_reducible repeat'
    first
      | assumption | apply State.modDbg_still | apply State.ownSource_still | (intro _)

theorem State.writeDbgCtrl_keeps {s0 s : State} {v : ℕ} (h_ : Keeps s0 s) : Keeps s0 (State.writeDbgCtrl s v) :=
  h_.still (State.writeDbgCtrl_still (Still.refl _))

theorem execFreezeReq_still {s0 : State} {v : ℕ} {s : State} (h_ : Still s0 s) : NextP (Still s0) (execFreezeReq v s)
    := by
  unfold execFreezeReq
  with_reducible repeat'
    first
      | assumption | apply State.writeDbgCtrl_still | apply Still.next | split

theorem State.actHeld_keeps {s0 s : State} {c : Instr} (h_ : Keeps s0 s) : Keeps s0 (State.actHeld s c) := by
  unfold State.actHeld
  with_reducible repeat'
    first
      | assumption | apply State.bar2Do_keeps | apply State.bellNow_keeps | apply State.hostAnswer_keeps | split

theorem State.writeSample_still {s0 s : State} {v : ℕ} (h_ : Still s0 s) : Still s0 (State.writeSample s v) := by
  unfold State.writeSample
  with_reducible repeat'
    first
      | assumption | apply State.tally_still | split | apply Still.lit

theorem State.freezeResume_keeps {s0 s : State} {stop release : ℕ} (h_ : Keeps s0 s) : Keeps s0 (State.freezeResume s
    stop release) := by
  unfold State.freezeResume
  with_reducible repeat'
    first
      | assumption | apply State.actHeld_keeps | apply State.drainRx_keeps | apply State.failover_keeps
      | apply State.modDbg_keeps | apply State.modPwr_keeps | apply State.modWork_keeps | apply State.pumpAll_keeps
      | apply State.shiftUnits_keeps | apply State.traceAll_keeps | apply State.untilRoot_keeps | apply Keeps.fold
      | (intro _) | split | dsimp -zeta +zetaDelta only

theorem execFreezeResume_keeps {s0 s : State} (h_ : Keeps s0 s) : NextP (Keeps s0) (execFreezeResume s) := by
  unfold execFreezeResume
  with_reducible repeat'
    first
      | assumption | apply State.freezeResume_keeps | apply Keeps.next | split

theorem execSample_still {s0 : State} {v : ℕ} {s : State} (h_ : Still s0 s) : NextP (Still s0) (execSample v s) := by
  unfold execSample
  with_reducible repeat'
    first
      | assumption | apply State.writeSample_still | apply Still.next | split

theorem execHaltN_still {s0 : State} {low : Bool} {s : State} (h_ : Still s0 s) : NextP (Still s0) (execHaltN low s)
    := by
  unfold execHaltN
  with_reducible repeat'
    first
      | assumption | apply State.modPins_still | apply State.ownSource_still | apply Still.next | (intro _)

theorem execCounterReset_still {s0 : State} {v : ℕ} {s : State} (h_ : Still s0 s) : NextP (Still s0) (execCounterReset
    v s) := by
  unfold execCounterReset
  with_reducible repeat'
    first
      | assumption | apply State.writeCntCtrl_still | apply Still.next | split

theorem execFreeze_still {s0 : State} {port node seq : ℕ} {s : State} (h_ : Still s0 s) : NextP (Still s0) (execFreeze
    port node seq s) := by
  unfold execFreeze
  with_reducible repeat'
    first
      | assumption | fail_if_no_progress extract_lets | apply State.fanOut_still | apply State.modDbg_still
      | apply State.modLink_still | apply State.sourcesChanged_still | apply Still.next | split

theorem execRelease_still {s0 : State} {port node seq : ℕ} {s : State} (h_ : Still s0 s) : NextP (Still s0)
    (execRelease port node seq s) := by
  unfold execRelease
  with_reducible repeat'
    first
      | assumption | fail_if_no_progress extract_lets | apply State.fanOut_still | apply State.modDbg_still
      | apply State.modLink_still | apply State.sourcesChanged_still | apply Still.next | split

/-! ### Machine/Security.lean -/

theorem State.modSpdm_still {s0 s : State} {t : ℕ} {f : Spdm → Spdm} (h_ : Still s0 s) : Still s0 (State.modSpdm s t
    f) := by
  unfold State.modSpdm
  with_reducible repeat'
    first
      | assumption | split | apply Still.lit

theorem State.spdmReply_still {s0 s : State} {kind : ℕ} {bs : List Byte} {value : optParam ℕ 0} (h_ : Still s0 s) :
    Still s0 (State.spdmReply s kind bs value) := by
  unfold State.spdmReply
  with_reducible repeat'
    first
      | assumption | apply State.reply_still

theorem State.spdmError_still {s0 s : State} {code : ℕ} (h_ : Still s0 s) : Still s0 (State.spdmError s code) := by
  unfold State.spdmError
  with_reducible repeat'
    first
      | assumption | apply State.reply_still

theorem State.spdmError_keeps {s0 s : State} {code : ℕ} (h_ : Keeps s0 s) : Keeps s0 (State.spdmError s code) :=
  h_.still (State.spdmError_still (Still.refl _))

theorem State.spdmServe_still {s0 s : State} {t : ℕ} {ready : Spdm → Bool} {f : State → State} (h_ : Still s0 s) (hf :
    ∀ t, Still s0 t → Still s0 (f t)) : Still s0 (State.spdmServe s t ready f) := by
  unfold State.spdmServe
  with_reducible repeat'
    first
      | assumption | apply hf | apply State.spdmError_still | split

theorem State.spdmServe_keeps {s0 s : State} {t : ℕ} {ready : Spdm → Bool} {f : State → State} (h_ : Keeps s0 s) (hf :
    ∀ t, Keeps s0 t → Keeps s0 (f t)) : Keeps s0 (State.spdmServe s t ready f) := by
  unfold State.spdmServe
  with_reducible repeat'
    first
      | assumption | apply hf | apply State.spdmError_keeps | split

theorem execGetVersion_still {s0 : State} {transport : ℕ} {s : State} (h_ : Still s0 s) : NextP (Still s0)
    (execGetVersion transport s) := by
  unfold execGetVersion
  with_reducible repeat'
    first
      | assumption | apply State.modSpdm_still | apply State.spdmReply_still | apply State.spdmServe_still
      | apply Still.next | (intro _)

theorem State.drawNonce_still {s0 s : State} (h_ : Still s0 s) : Still s0 (State.drawNonce s) := by
  unfold State.drawNonce
  with_reducible repeat'
    first
      | assumption | apply State.freeBytes_still | apply State.modSec_still | split

theorem State.configWrite_still {s0 s : State} {r v : ℕ} (h_ : Still s0 s) : Still s0 (State.configWrite s r v) := by
  unfold State.configWrite
  with_reducible repeat'
    first
      | assumption | fail_if_no_progress extract_lets | apply State.modPins_still | (intro _) | split
      | dsimp -zeta only | dsimp -zeta +zetaDelta only

theorem execConfigRequest_still {s0 : State} {write : Bool} {reg v : ℕ} {s : State} (h_ : Still s0 s) : NextP (Still
    s0) (execConfigRequest write reg v s) := by
  unfold execConfigRequest
  with_reducible repeat'
    first
      | assumption | apply State.configWrite_still | apply State.free_still | apply State.reply_still
      | apply Still.next | split | dsimp -zeta +zetaDelta only

theorem State.commitRecord_still {s0 s : State} (h_ : Still s0 s) : Still s0 (State.commitRecord s) := by
  unfold State.commitRecord
  with_reducible repeat'
    first
      | assumption | apply State.modSec_still | split | apply Still.lit

theorem State.measureAs_still {s0 s : State} {i : ℕ} {digest : List Byte} (h_ : Still s0 s) : Still s0
    (State.measureAs s i digest) := by
  unfold State.measureAs
  with_reducible repeat'
    first
      | assumption | apply State.modSec_still

theorem State.measureState_still {s0 s : State} {unlocked : BitVec 2} (h_ : Still s0 s) : Still s0 (State.measureState
    s unlocked) := by
  unfold State.measureState
  with_reducible repeat'
    first
      | assumption | apply State.measureAs_still

theorem State.rollbackCommit_still {s0 s : State} (h_ : Still s0 s) : Still s0 (State.rollbackCommit s) := by
  unfold State.rollbackCommit
  with_reducible repeat'
    first
      | assumption | apply State.measureState_still | split | apply Still.lit

theorem State.writeMbCtrl_still {s0 s : State} {v : ℕ} (h_ : Still s0 s) : Still s0 (State.writeMbCtrl s v) := by
  unfold State.writeMbCtrl
  with_reducible repeat'
    first
      | assumption | apply State.modSec_still

theorem execNegotiateAlgorithms_still {s0 : State} {transport base hash : ℕ} {s : State} (h_ : Still s0 s) : NextP
    (Still s0) (execNegotiateAlgorithms transport base hash s) := by
  unfold execNegotiateAlgorithms
  with_reducible repeat'
    first
      | assumption | apply State.modSpdm_still | apply State.spdmError_still | apply State.spdmReply_still
      | apply State.spdmServe_still | apply Still.next | (intro _) | split

theorem State.signed_still {s0 s : State} (h_ : Still s0 s) : Still s0 (State.signed s).2 := by
  unfold State.signed
  with_reducible repeat'
    first
      | assumption | apply State.freeBytes_still

theorem execGetMeasurements_still {s0 : State} {transport index : ℕ} {sign : Bool} {nonce : List Byte} {s : State} (h_
    : Still s0 s) : NextP (Still s0) (execGetMeasurements transport index sign nonce s) := by
  unfold execGetMeasurements
  with_reducible repeat'
    first
      | assumption | fail_if_no_progress extract_lets | apply State.signed_still | apply State.spdmError_still
      | apply State.spdmReply_still | apply State.spdmServe_still | apply Still.next | (intro _) | split

theorem execKeyExchange_still {s0 : State} {transport : ℕ} {point : List Byte} {s : State} (h_ : Still s0 s) : NextP
    (Still s0) (execKeyExchange transport point s) := by
  unfold execKeyExchange
  with_reducible repeat'
    first
      | assumption | apply State.fresh_still | apply State.modSpdm_still | apply State.signed_still
      | apply State.spdmError_still | apply State.spdmReply_still | apply State.spdmServe_still | apply Still.next
      | (intro _) | split

theorem State.onSlot_still {s0 s : State} {slot valid empty : Bool} {image : List Byte} (h_ : Still s0 s) : Still s0
    (State.onSlot s slot valid empty image) := by
  unfold State.onSlot
  with_reducible repeat'
    first
      | assumption | apply Still.lit

theorem State.imageBlock_still {s0 s : State} {block : ℕ} {last verifies : Bool} {svn version : ℕ} (h_ : Still s0 s) :
    Still s0 (State.imageBlock s block last verifies svn version) := by
  unfold State.imageBlock
  with_reducible repeat'
    first
      | assumption | apply State.modSec_still | apply State.onSlot_still | split | apply Still.lit

theorem execSetCertificate_still {s0 : State} {transport slot : ℕ} {chain : List Byte} {leafOk : Bool} {s : State} (h_
    : Still s0 s) : NextP (Still s0) (execSetCertificate transport slot chain leafOk s) := by
  unfold execSetCertificate
  with_reducible repeat'
    first
      | assumption | apply State.spdmError_still | apply State.spdmReply_still | apply State.spdmServe_still
      | apply Still.next | (intro _) | split | apply Still.lit

theorem State.failResponse_still {s0 s : State} (h_ : Still s0 s) : Still s0 (State.failResponse s) := by
  unfold State.failResponse
  with_reducible repeat'
    first
      | assumption | apply State.modSec_still

theorem execDbgResponse_still {s0 : State} {v : ℕ} {verifies : Bool} {s : State} (h_ : Still s0 s) : NextP (Still s0)
    (execDbgResponse v verifies s) := by
  unfold execDbgResponse
  with_reducible repeat'
    first
      | assumption | fail_if_no_progress extract_lets | apply State.failResponse_still
      | apply State.measureState_still | apply State.modSec_still | apply Still.next | split

theorem execGetCertificate_still {s0 : State} {transport slot off len : ℕ} {s : State} (h_ : Still s0 s) : NextP
    (Still s0) (execGetCertificate transport slot off len s) := by
  unfold execGetCertificate
  with_reducible repeat'
    first
      | assumption | apply State.spdmError_still | apply State.spdmReply_still | apply State.spdmServe_still
      | apply Still.next | (intro _) | split

theorem execFwMbCtrlGo_still {s0 : State} {v : ℕ} {verifies : Bool} {svn version : ℕ} {s : State} (h_ : Still s0 s) :
    NextP (Still s0) (execFwMbCtrlGo v verifies svn version s) := by
  unfold execFwMbCtrlGo
  with_reducible repeat'
    first
      | assumption | fail_if_no_progress extract_lets | apply State.imageBlock_still | apply State.writeMbCtrl_still
      | apply Still.next | split

theorem execCfgCtrlCommit_still {s0 : State} {v : ℕ} {s : State} (h_ : Still s0 s) : NextP (Still s0)
    (execCfgCtrlCommit v s) := by
  unfold execCfgCtrlCommit
  with_reducible repeat'
    first
      | assumption | apply State.commitRecord_still | apply Still.next | split

theorem execRollbackCommit_still {s0 : State} {v : ℕ} {s : State} (h_ : Still s0 s) : NextP (Still s0)
    (execRollbackCommit v s) := by
  unfold execRollbackCommit
  with_reducible repeat'
    first
      | assumption | apply State.rollbackCommit_still | apply Still.next | split

theorem execDbgChallenge_still {s0 : State} {size : ℕ} {s : State} (h_ : Still s0 s) : NextP (Still s0)
    (execDbgChallenge size s) := by
  unfold execDbgChallenge
  with_reducible repeat'
    first
      | assumption | apply State.drawNonce_still | apply State.reply_still | apply Still.next | split

theorem execGetCapabilities_still {s0 : State} {transport version : ℕ} {s : State} (h_ : Still s0 s) : NextP (Still
    s0) (execGetCapabilities transport version s) := by
  unfold execGetCapabilities
  with_reducible repeat'
    first
      | assumption | apply State.modSpdm_still | apply State.spdmError_still | apply State.spdmReply_still
      | apply State.spdmServe_still | apply Still.next | (intro _) | split

theorem execGetDigests_still {s0 : State} {transport : ℕ} {s : State} (h_ : Still s0 s) : NextP (Still s0)
    (execGetDigests transport s) := by
  unfold execGetDigests
  with_reducible repeat'
    first
      | assumption | apply State.spdmReply_still | apply State.spdmServe_still | apply Still.next | (intro _)

theorem execChallenge_still {s0 : State} {transport slot : ℕ} {nonce : List Byte} {s : State} (h_ : Still s0 s) :
    NextP (Still s0) (execChallenge transport slot nonce s) := by
  unfold execChallenge
  with_reducible repeat'
    first
      | assumption | apply State.signed_still | apply State.spdmError_still | apply State.spdmReply_still
      | apply State.spdmServe_still | apply Still.next | (intro _) | split

end Sys2Proof.Machine
end

