-- ==== Sys2Proof/Laws/FramePower.lean ====
section
/-!
SUPPORT. What the operations of Machine/Boot.lean, Power.lean, Partition.lean, Registers.lean, TileRows.lean, Tick.lean do to the queue of commands and to memory.
-/
namespace Sys2Proof.Machine
open Sys2Proof

/-! ### Machine/Boot.lean -/

theorem State.wipe_still {s0 s : State} {link : Bool} (h_ : Still s0 s) : Still s0 (State.wipe s link) := by
  unfold State.wipe
  with_reducible repeat'
    first
      | assumption | apply Still.lit

theorem State.wipe_keeps {s0 s : State} {link : Bool} (h_ : Keeps s0 s) : Keeps s0 (State.wipe s link) :=
  h_.still (State.wipe_still (Still.refl _))

theorem State.resetAs_keeps {s0 s : State} {kind stage : ℕ} (h_ : Keeps s0 s) : Keeps s0 (State.resetAs s kind stage)
    := by
  unfold State.resetAs
  with_reducible repeat'
    first
      | assumption | fail_if_no_progress extract_lets | apply State.clearSram_keeps | apply State.loseHbm_keeps
      | apply State.modMod_keeps | apply State.modStack_keeps | apply State.wipe_keeps | apply Keeps.fold | (intro _)
      | split | dsimp -zeta +zetaDelta only

theorem State.markRetire_still {s0 s : State} {t : ℕ} (h_ : Still s0 s) : Still s0 (State.markRetire s t) := by
  unfold State.markRetire
  with_reducible repeat'
    first
      | assumption | apply State.event_still | split | apply Still.lit

theorem State.bistBank_still {s0 s : State} {key n : ℕ} (h_ : Still s0 s) : Still s0 (State.bistBank s key n) := by
  unfold State.bistBank
  with_reducible repeat'
    first
      | assumption | apply State.markRetire_still | split | apply Still.lit

theorem State.firstFault_still {s0 s : State} {code index : ℕ} (h_ : Still s0 s) : Still s0 (State.firstFault s code
    index) := by
  unfold State.firstFault
  with_reducible repeat'
    first
      | assumption | apply State.event_still | apply State.modMod_still

theorem State.faultModule_still {s0 s : State} {code index : ℕ} (h_ : Still s0 s) : Still s0 (State.faultModule s code
    index) := by
  unfold State.faultModule
  with_reducible repeat'
    first
      | assumption | apply State.event_still | apply State.firstFault_still | apply State.modMod_still
      | apply State.modPart_still | apply Still.fold | (intro _)

theorem State.faultModule_keeps {s0 s : State} {code index : ℕ} (h_ : Keeps s0 s) : Keeps s0 (State.faultModule s code
    index) :=
  h_.still (State.faultModule_still (Still.refl _))

theorem State.thermalTrip_keeps {s0 s : State} (h_ : Keeps s0 s) : Keeps s0 (State.thermalTrip s) := by
  unfold State.thermalTrip
  with_reducible repeat'
    first
      | assumption | apply State.faultModule_keeps | apply State.modPins_keeps | apply State.resetAs_keeps | split

theorem State.writeResetCtrl_keeps {s0 s : State} {v : ℕ} (h_ : Keeps s0 s) : Keeps s0 (State.writeResetCtrl s v) :=
    by
  unfold State.writeResetCtrl
  with_reducible repeat'
    first
      | assumption | fail_if_no_progress extract_lets | apply State.modMod_keeps | apply State.resetAs_keeps | split

theorem execColdReset_keeps {s0 s : State} (h_ : Keeps s0 s) : NextP (Keeps s0) (execColdReset s) := by
  unfold execColdReset
  with_reducible repeat'
    first
      | assumption | apply State.modPins_keeps | apply State.resetAs_keeps | apply Keeps.next | apply Keeps.lit

theorem State.measureLayout_still {s0 s : State} (h_ : Still s0 s) : Still s0 (State.measureLayout s) := by
  unfold State.measureLayout
  with_reducible repeat'
    first
      | assumption | apply State.measureAs_still

theorem State.measureLayout_keeps {s0 s : State} (h_ : Keeps s0 s) : Keeps s0 (State.measureLayout s) :=
  h_.still (State.measureLayout_still (Still.refl _))

theorem State.publish_still {s0 s : State} (h_ : Still s0 s) : Still s0 (State.publish s) := by
  unfold State.publish
  with_reducible repeat'
    first
      | assumption | apply Still.fold | (intro _) | apply Still.lit

theorem State.publish_keeps {s0 s : State} (h_ : Keeps s0 s) : Keeps s0 (State.publish s) :=
  h_.still (State.publish_still (Still.refl _))

theorem State.toStage_still {s0 s : State} {k : ℕ} (h_ : Still s0 s) : Still s0 (State.toStage s k) := by
  unfold State.toStage
  with_reducible repeat'
    first
      | assumption | apply State.event_still | apply State.modMod_still

theorem execStageF0_still {s0 : State} {rate width : ℕ} {s : State} (h_ : Still s0 s) : NextP (Still s0) (execStageF0
    rate width s) := by
  unfold execStageF0
  with_reducible repeat'
    first
      | assumption | apply State.modMod_still | apply State.modPins_still | apply State.toStage_still
      | apply Still.next | split

theorem State.fuseMarks_still {s0 s : State} (h_ : Still s0 s) : Still s0 (State.fuseMarks s) := by
  unfold State.fuseMarks
  with_reducible repeat'
    first
      | assumption | apply Still.lit

theorem execStageF2_still {s0 : State} {b : BistReport} {s : State} (h_ : Still s0 s) : NextP (Still s0) (execStageF2
    b s) := by
  unfold execStageF2
  with_reducible repeat'
    first
      | assumption | apply State.bistBank_still | apply State.faultModule_still | apply State.fuseMarks_still
      | apply State.measureAs_still | apply State.modMod_still | apply State.toStage_still | apply Still.fold
      | apply Still.next | (intro _) | split | apply Still.lit

theorem State.startImage_still {s0 s : State} {slot : Bool} {digests : List (List Byte)} (h_ : Still s0 s) : Still s0
    (State.startImage s slot digests) := by
  unfold State.startImage
  with_reducible repeat'
    first
      | assumption | apply State.measureAs_still | apply State.modMod_still | apply State.modSec_still
      | apply State.toStage_still

theorem State.powerLost_keeps {s0 s : State} {code index : ℕ} (h_ : Keeps s0 s) : Keeps s0 (State.powerLost s code
    index) := by
  unfold State.powerLost
  with_reducible repeat'
    first
      | assumption | apply State.clearSram_keeps | apply State.faultModule_keeps | apply State.loseHbm_keeps
      | apply State.modPins_keeps | apply State.wipe_keeps

theorem State.faultPart_still {s0 s : State} {p code index : ℕ} (h_ : Still s0 s) : Still s0 (State.faultPart s p code
    index) := by
  unfold State.faultPart
  with_reducible repeat'
    first
      | assumption | apply State.event_still | apply State.finish_still | apply State.firstFault_still
      | apply State.modPart_still | apply State.modQueue_still | apply State.modWork_still | apply Still.fold
      | (intro _)

theorem execPerstNHigh_still {s0 s : State} (h_ : Still s0 s) : NextP (Still s0) (execPerstNHigh s) := by
  unfold execPerstNHigh
  with_reducible repeat'
    first
      | assumption | fail_if_no_progress extract_lets | apply State.modMod_still | apply State.modPins_still
      | apply Still.next | split

theorem execStageF4_still {s0 s : State} (h_ : Still s0 s) : NextP (Still s0) (execStageF4 s) := by
  unfold execStageF4
  with_reducible repeat'
    first
      | assumption | apply State.toStage_still | apply State.untilRoot_still | apply Still.next | split

theorem execRhizomeBoundaryLost_still {s0 : State} {boundary : ℕ} {s : State} (h_ : Still s0 s) : NextP (Still s0)
    (execRhizomeBoundaryLost boundary s) := by
  unfold execRhizomeBoundaryLost
  with_reducible repeat'
    first
      | assumption | apply State.faultPart_still | apply State.modLog_still | apply Still.next | split

theorem execSoftReset_keeps {s0 : State} {v : ℕ} {s : State} (h_ : Keeps s0 s) : NextP (Keeps s0) (execSoftReset v s)
    := by
  unfold execSoftReset
  with_reducible repeat'
    first
      | assumption | apply State.writeResetCtrl_keeps | apply Keeps.next | split

theorem execStageLimit_still {s0 s : State} (h_ : Still s0 s) : NextP (Still s0) (execStageLimit s) := by
  unfold execStageLimit
  with_reducible repeat'
    first
      | assumption | fail_if_no_progress extract_lets | apply State.faultModule_still | apply State.untilRoot_still
      | apply Still.next | split

theorem execRootCoreMemoryError_still {s0 s : State} (h_ : Still s0 s) : NextP (Still s0) (execRootCoreMemoryError s)
    := by
  unfold execRootCoreMemoryError
  with_reducible repeat'
    first
      | assumption | apply State.faultModule_still | apply State.modMod_still | apply Still.next | split

theorem State.loadRecord_still {s0 s : State} (h_ : Still s0 s) : Still s0 (State.loadRecord s) := by
  unfold State.loadRecord
  with_reducible repeat'
    first
      | assumption | fail_if_no_progress extract_lets | apply State.modPart_still | apply State.modPort_still
      | apply State.modSec_still | apply State.toTraining_still | apply Still.fold | (intro _) | split

theorem execModuleReset_keeps {s0 s : State} (h_ : Keeps s0 s) : NextP (Keeps s0) (execModuleReset s) := by
  unfold execModuleReset
  with_reducible repeat'
    first
      | assumption | apply State.resetAs_keeps | apply Keeps.next | split

theorem execThermalRecovery_still {s0 s : State} (h_ : Still s0 s) : NextP (Still s0) (execThermalRecovery s) := by
  unfold execThermalRecovery
  with_reducible repeat'
    first
      | assumption | apply State.modMod_still | apply State.modPart_still | apply State.modPins_still
      | apply Still.next | split

theorem execVauxFault_keeps {s0 s : State} (h_ : Keeps s0 s) : NextP (Keeps s0) (execVauxFault s) := by
  unfold execVauxFault
  with_reducible repeat'
    first
      | assumption | apply State.modPins_keeps | apply State.powerLost_keeps | apply Keeps.next | split

theorem execRegulatorFault_keeps {s0 : State} {reg : ℕ} {s : State} (h_ : Keeps s0 s) : NextP (Keeps s0)
    (execRegulatorFault reg s) := by
  unfold execRegulatorFault
  with_reducible repeat'
    first
      | assumption | apply State.powerLost_keeps | apply Keeps.next | split

theorem execVinTrip_keeps {s0 s : State} (h_ : Keeps s0 s) : NextP (Keeps s0) (execVinTrip s) := by
  unfold execVinTrip
  with_reducible repeat'
    first
      | assumption | apply State.free_keeps | apply State.modPins_keeps | apply State.powerLost_keeps
      | apply Keeps.next | split

theorem execStageF3_still {s0 : State} {measured : List (Option ℕ)} {s : State} (h_ : Still s0 s) : NextP (Still s0)
    (execStageF3 measured s) := by
  unfold execStageF3
  with_reducible repeat'
    first
      | assumption | fail_if_no_progress extract_lets | apply State.faultModule_still | apply State.loadRecord_still
      | apply State.modClk_still | apply State.modMod_still | apply State.modStack_still | apply State.toStage_still
      | apply State.untilRoot_still | apply Still.fold | apply Still.next | (intro _) | split

theorem execStageF1_still {s0 : State} {b : BootImages} {s : State} (h_ : Still s0 s) : NextP (Still s0) (execStageF1
    b s) := by
  unfold execStageF1
  with_reducible repeat'
    first
      | assumption | apply State.faultModule_still | apply State.measureState_still | apply State.modMod_still
      | apply State.startImage_still | apply Still.next | split | apply Still.lit

theorem execFunctionReset_keeps {s0 s : State} (h_ : Keeps s0 s) : NextP (Keeps s0) (execFunctionReset s) := by
  unfold execFunctionReset
  with_reducible repeat'
    first
      | assumption | apply State.free_keeps | apply State.modMod_keeps | apply State.modPins_keeps
      | apply State.resetAs_keeps | apply Keeps.next | split

theorem execThermalReset_keeps {s0 s : State} (h_ : Keeps s0 s) : NextP (Keeps s0) (execThermalReset s) := by
  unfold execThermalReset
  with_reducible repeat'
    first
      | assumption | apply State.thermalTrip_keeps | apply Keeps.next

theorem execStageF5_still {s0 s : State} (h_ : Still s0 s) : NextP (Still s0) (execStageF5 s) := by
  unfold execStageF5
  with_reducible repeat'
    first
      | assumption | apply State.event_still | apply State.freezeNow_still | apply State.measureLayout_still
      | apply State.modClk_still | apply State.modMod_still | apply State.modPart_still | apply State.publish_still
      | apply State.untilRoot_still | apply Still.fold | apply Still.next | (intro _) | split

theorem State.coreFails_still {s0 s : State} {core : ℕ} (h_ : Still s0 s) : Still s0 (State.coreFails s core) := by
  unfold State.coreFails
  with_reducible repeat'
    first
      | assumption | fail_if_no_progress extract_lets | apply State.faultPart_still | apply State.modMod_still
      | (intro _) | split | dsimp -zeta only | dsimp -zeta +zetaDelta only

theorem execControlCoreWatchdog_still {s0 : State} {core : ℕ} {s : State} (h_ : Still s0 s) : NextP (Still s0)
    (execControlCoreWatchdog core s) := by
  unfold execControlCoreWatchdog
  with_reducible repeat'
    first
      | assumption | apply State.coreFails_still | apply Still.next | split

theorem execFundamentalReset_keeps {s0 s : State} (h_ : Keeps s0 s) : NextP (Keeps s0) (execFundamentalReset s) := by
  unfold execFundamentalReset
  with_reducible repeat'
    first
      | assumption | fail_if_no_progress extract_lets | apply State.modPins_keeps | apply State.resetAs_keeps
      | apply Keeps.next | split

theorem execControlCoreMemoryError_still {s0 : State} {core : ℕ} {s : State} (h_ : Still s0 s) : NextP (Still s0)
    (execControlCoreMemoryError core s) := by
  unfold execControlCoreMemoryError
  with_reducible repeat'
    first
      | assumption | apply State.coreFails_still | apply Still.next | split

/-! ### Machine/Power.lean -/

theorem State.heat_keeps {s0 s : State} {t : ℤ} (h_ : Keeps s0 s) : Keeps s0 (State.heat s t) := by
  unfold State.heat
  with_reducible repeat'
    first
      | assumption | apply State.event_keeps | apply State.modPwr_keeps | apply State.thermalTrip_keeps | split
      | dsimp -zeta +zetaDelta only

theorem execThermalSample_keeps {s0 : State} {readings : List ℕ} {s : State} (h_ : Keeps s0 s) : NextP (Keeps s0)
    (execThermalSample readings s) := by
  unfold execThermalSample
  with_reducible repeat'
    first
      | assumption | apply State.heat_keeps | apply Keeps.next | split

theorem State.trimDie_still {s0 s : State} {d margin : ℕ} (h_ : Still s0 s) : Still s0 (State.trimDie s d margin) :=
    by
  unfold State.trimDie
  with_reducible repeat'
    first
      | assumption | fail_if_no_progress extract_lets | apply State.event_still | apply State.modClk_still
      | apply State.modPwr_still | (intro _) | split | dsimp -zeta only | dsimp -zeta +zetaDelta only

theorem execPoisonWriteback_keeps {s0 : State} {k : ℕ} {block : BlockError} {s : State} (h_ : Keeps s0 s) : NextP (Keeps s0)
    (execPoisonWriteback k block s) := by
  unfold execPoisonWriteback
  with_reducible repeat'
    first
      | assumption | fail_if_no_progress extract_lets | apply State.modStack_keeps | apply State.setMark_keeps
      | apply State.unlessFrozen_keeps | apply Keeps.next | (intro _) | split | dsimp -zeta only
      | dsimp -zeta +zetaDelta only

theorem State.absorb_still {s0 s : State} {sc : Scope} (h_ : Still s0 s) : Still s0 (State.absorb s sc) := by
  unfold State.absorb
  with_reducible repeat'
    first
      | assumption | apply State.countStay_still | apply State.setScope_still | apply Still.fold | (intro _)

theorem State.enterState_still {s0 s : State} {sc : Scope} {code : ℕ} {wake : Option ℕ} (h_ : Still s0 s) : Still s0
    (State.enterState s sc code wake) := by
  unfold State.enterState
  with_reducible repeat'
    first
      | assumption | fail_if_no_progress extract_lets | apply State.absorb_still | apply State.napStacks_still
      | apply State.setScope_still | apply State.tracePower_still | split | dsimp -zeta +zetaDelta only

theorem State.compareSensor_still {s0 s : State} {i estimate reading : ℕ} (h_ : Still s0 s) : Still s0
    (State.compareSensor s i estimate reading) := by
  unfold State.compareSensor
  with_reducible repeat'
    first
      | assumption | fail_if_no_progress extract_lets | apply State.event_still | apply State.modPwr_still | split

theorem State.evaluate_still {s0 s : State} {sc : Scope} (h_ : Still s0 s) : Still s0 (State.evaluate s sc) := by
  unfold State.evaluate
  with_reducible repeat'
    first
      | assumption | fail_if_no_progress extract_lets | apply State.enterState_still | apply State.setScope_still
      | split

theorem State.wakeAll_still {s0 s : State} (h_ : Still s0 s) : Still s0 (State.wakeAll s) := by
  unfold State.wakeAll
  with_reducible repeat'
    first
      | assumption | fail_if_no_progress extract_lets | apply State.advance_still | apply State.countStay_still
      | apply State.modPwr_still | apply State.napStacks_still | apply Still.fold | (intro _) | split

theorem State.wakeAll_keeps {s0 s : State} (h_ : Keeps s0 s) : Keeps s0 (State.wakeAll s) :=
  h_.still (State.wakeAll_still (Still.refl _))

theorem execPowerWake_still {s0 : State} {sc : Scope} {s : State} (h_ : Still s0 s) : NextP (Still s0) (execPowerWake
    sc s) := by
  unfold execPowerWake
  with_reducible repeat'
    first
      | assumption | fail_if_no_progress extract_lets | apply State.beginExit_still | apply State.untilRoot_still
      | apply Still.next | split

theorem State.overrun_still {s0 s : State} {k late : ℕ} (h_ : Still s0 s) : Still s0 (State.overrun s k late) := by
  unfold State.overrun
  with_reducible repeat'
    first
      | assumption | fail_if_no_progress extract_lets | apply State.lateInput_still | apply State.modStack_still
      | split

theorem execCalibrationSlot_still {s0 : State} {k late : ℕ} {s : State} (h_ : Still s0 s) : NextP (Still s0)
    (execCalibrationSlot k late s) := by
  unfold execCalibrationSlot
  with_reducible repeat'
    first
      | assumption | apply State.modStack_still | apply State.overrun_still | apply Still.next | split

theorem State.pauseEnd_still {s0 s : State} {began : ℕ} (h_ : Still s0 s) : Still s0 (State.pauseEnd s began) := by
  unfold State.pauseEnd
  with_reducible repeat'
    first
      | assumption | fail_if_no_progress extract_lets | apply State.modPwr_still | apply State.shiftUnits_still
      | apply State.untilRoot_still | split

theorem execRefresh_still {s0 : State} {k late : ℕ} {s : State} (h_ : Still s0 s) : NextP (Still s0) (execRefresh k
    late s) := by
  unfold execRefresh
  with_reducible repeat'
    first
      | assumption | apply State.modStack_still | apply State.overrun_still | apply Still.next | split

theorem execEarlyWake_still {s0 : State} {sc : Scope} {s : State} (h_ : Still s0 s) : NextP (Still s0) (execEarlyWake
    sc s) := by
  unfold execEarlyWake
  with_reducible repeat'
    first
      | assumption | fail_if_no_progress extract_lets | apply State.beginExit_still | apply State.modPwr_still
      | apply Still.next | split

theorem State.powerSample_still {s0 s : State} {watts amps : ℕ} (h_ : Still s0 s) : Still s0 (State.powerSample s
    watts amps) := by
  unfold State.powerSample
  with_reducible repeat'
    first
      | assumption | apply State.modClk_still | apply State.modPwr_still

theorem State.scrub_keeps {s0 s : State} {t bank row err : ℕ} {_touched : Bool} (h_ : Keeps s0 s) : Keeps s0
    (State.scrub s t bank row err _touched) := by
  unfold State.scrub
  with_reducible repeat'
    first
      | assumption | fail_if_no_progress extract_lets | apply State.eccError_keeps | (intro _) | split
      | dsimp -zeta only | dsimp -zeta +zetaDelta only

theorem execPowerPause_still {s0 s : State} (h_ : Still s0 s) : NextP (Still s0) (execPowerPause s) := by
  unfold execPowerPause
  with_reducible repeat'
    first
      | assumption | apply State.modPwr_still | apply State.unlessHalted_still | apply Still.next | (intro _) | split

theorem execPowerPauseEnd_still {s0 s : State} (h_ : Still s0 s) : NextP (Still s0) (execPowerPauseEnd s) := by
  unfold execPowerPauseEnd
  with_reducible repeat'
    first
      | assumption | apply State.pauseEnd_still | apply State.unlessFrozen_still | apply Still.next | (intro _)
      | split

theorem execWakeComplete_still {s0 : State} {sc : Scope} {s : State} (h_ : Still s0 s) : NextP (Still s0)
    (execWakeComplete sc s) := by
  unfold execWakeComplete
  with_reducible repeat'
    first
      | assumption | apply State.wakeComplete_still | apply Still.next

theorem execPowerStateEvaluate_still {s0 : State} {sc : Scope} {s : State} (h_ : Still s0 s) : NextP (Still s0)
    (execPowerStateEvaluate sc s) := by
  unfold execPowerStateEvaluate
  with_reducible repeat'
    first
      | assumption | apply State.evaluate_still | apply Still.next

theorem execPatrolScrub_keeps {s0 : State} {tile bank row err : ℕ} {touched : Bool} {s : State} (h_ : Keeps s0 s) :
    NextP (Keeps s0) (execPatrolScrub tile bank row err touched s) := by
  unfold execPatrolScrub
  with_reducible repeat'
    first
      | assumption | apply State.scrub_keeps | apply State.unlessHalted_keeps | apply Keeps.next | (intro _) | split

theorem execSensorComparison_still {s0 : State} {estimates readings : List ℕ} {s : State} (h_ : Still s0 s) : NextP
    (Still s0) (execSensorComparison estimates readings s) := by
  unfold execSensorComparison
  with_reducible repeat'
    first
      | assumption | apply State.compareSensor_still | apply Still.fold | apply Still.next | (intro _) | split

theorem execVoltageTrim_still {s0 : State} {die margin : ℕ} {s : State} (h_ : Still s0 s) : NextP (Still s0)
    (execVoltageTrim die margin s) := by
  unfold execVoltageTrim
  with_reducible repeat'
    first
      | assumption | apply State.trimDie_still | apply Still.next | split

theorem State.setDiv_still {s0 s : State} {d : ℕ} (h_ : Still s0 s) : Still s0 (State.setDiv s d) := by
  unfold State.setDiv
  with_reducible repeat'
    first
      | assumption | apply State.modClk_still | apply State.modPwr_still

theorem execMclkDividerChange_still {s0 s : State} (h_ : Still s0 s) : NextP (Still s0) (execMclkDividerChange s) :=
    by
  unfold execMclkDividerChange
  with_reducible repeat'
    first
      | assumption | apply State.setDiv_still | apply State.untilRoot_still | apply Still.next | split

theorem execPowerSample_still {s0 : State} {watts amps : ℕ} {s : State} (h_ : Still s0 s) : NextP (Still s0)
    (execPowerSample watts amps s) := by
  unfold execPowerSample
  with_reducible repeat'
    first
      | assumption | apply State.powerSample_still | apply Still.next | split

/-! ### Machine/Partition.lean -/

theorem State.layoutRequest_still {s0 s : State} {v : ℕ} (h_ : Still s0 s) : Still s0 (State.layoutRequest s v) := by
  unfold State.layoutRequest
  with_reducible repeat'
    first
      | assumption | fail_if_no_progress extract_lets | apply State.event_still | apply State.modMod_still | split

theorem State.layoutRequest_keeps {s0 s : State} {v : ℕ} (h_ : Keeps s0 s) : Keeps s0 (State.layoutRequest s v) :=
  h_.still (State.layoutRequest_still (Still.refl _))

theorem State.resumeParts_still {s0 s : State} {mask : ℕ} (h_ : Still s0 s) : Still s0 (State.resumeParts s mask) :=
    by
  unfold State.resumeParts
  with_reducible repeat'
    first
      | assumption | apply State.event_still | apply State.modPart_still | apply Still.fold | (intro _) | split

theorem State.resumeParts_keeps {s0 s : State} {mask : ℕ} (h_ : Keeps s0 s) : Keeps s0 (State.resumeParts s mask) :=
  h_.still (State.resumeParts_still (Still.refl _))

theorem State.onTile_still {s0 s : State} {f : State → ℕ → State} (h_ : Still s0 s) (hf : ∀ t x1, Still s0 t → Still
    s0 (f t x1)) : Still s0 (State.onTile s f) := by
  unfold State.onTile
  with_reducible repeat'
    first
      | assumption | apply hf | apply State.hostErrOpen_still | split

theorem State.onTile_keeps {s0 s : State} {f : State → ℕ → State} (h_ : Keeps s0 s) (hf : ∀ t x1, Keeps s0 t → Keeps
    s0 (f t x1)) : Keeps s0 (State.onTile s f) := by
  unfold State.onTile
  with_reducible repeat'
    first
      | assumption | apply hf | apply State.hostErrOpen_keeps | split

theorem State.withdraw_still {s0 s : State} {t : ℕ} (h_ : Still s0 s) : Still s0 (State.withdraw s t) := by
  unfold State.withdraw
  with_reducible repeat'
    first
      | assumption | apply Still.lit

theorem State.writePair_still {s0 s : State} {t n v : ℕ} (h_ : Still s0 s) : Still s0 (State.writePair s t n v) := by
  unfold State.writePair
  with_reducible repeat'
    first
      | assumption | fail_if_no_progress extract_lets | apply State.hostErrOpen_still | apply State.modPair_still
      | apply State.modTile_still | split

theorem State.actChange_still {s0 s : State} {w : ℕ × ℕ × ℕ} (h_ : Still s0 s) : Still s0 (State.actChange s w) := by
  unfold State.actChange
  with_reducible repeat'
    first
      | assumption | apply State.bellNow_still | apply State.writeQCtrl_still | split

theorem State.actChange_keeps {s0 s : State} {w : ℕ × ℕ × ℕ} (h_ : Keeps s0 s) : Keeps s0 (State.actChange s w) :=
  h_.still (State.actChange_still (Still.refl _))

theorem State.endPairs_still {s0 s : State} (h_ : Still s0 s) : Still s0 (State.endPairs s) := by
  unfold State.endPairs
  with_reducible repeat'
    first
      | assumption | apply State.heartbeat_still | apply State.onPair_still | apply Still.fold | (intro _) | split

theorem State.endPairs_keeps {s0 s : State} (h_ : Keeps s0 s) : Keeps s0 (State.endPairs s) :=
  h_.still (State.endPairs_still (Still.refl _))

theorem State.changeNow_keeps {s0 s : State} {n z : ℕ} (h_ : Keeps s0 s) : Keeps s0 (State.changeNow s n z) := by
  unfold State.changeNow
  with_reducible repeat'
    first
      | assumption | apply State.actChange_keeps | apply State.clearSram_keeps | apply State.endPairs_keeps
      | apply State.event_keeps | apply State.measureLayout_keeps | apply State.modMod_keeps
      | apply State.publish_keeps | apply State.wakeAll_keeps | apply Keeps.fold | apply Keeps.lit

theorem execPartResume_still {s0 : State} {v : ℕ} {s : State} (h_ : Still s0 s) : NextP (Still s0) (execPartResume v
    s) := by
  unfold execPartResume
  with_reducible repeat'
    first
      | assumption | apply State.resumeParts_still | apply Still.next | split

theorem execPartitionChange_keeps {s0 s : State} (h_ : Keeps s0 s) : NextP (Keeps s0) (execPartitionChange s) := by
  unfold execPartitionChange
  with_reducible repeat'
    first
      | assumption | apply State.changeNow_keeps | apply State.unlessFrozen_keeps | apply Keeps.next | (intro _)
      | split

theorem execRetireWithdraw_still {s0 : State} {v : ℕ} {s : State} (h_ : Still s0 s) : NextP (Still s0)
    (execRetireWithdraw v s) := by
  unfold execRetireWithdraw
  with_reducible repeat'
    first
      | assumption | apply State.onTile_still | apply State.withdraw_still | apply Still.next | (intro _) | split

theorem execBar2Window_still {s0 : State} {v : ℕ} {s : State} (h_ : Still s0 s) : NextP (Still s0) (execBar2Window v
    s) := by
  unfold execBar2Window
  with_reducible repeat'
    first
      | assumption | apply State.modMod_still | apply Still.next | split

theorem execTileRetire_still {s0 : State} {v : ℕ} {s : State} (h_ : Still s0 s) : NextP (Still s0) (execTileRetire v
    s) := by
  unfold execTileRetire
  with_reducible repeat'
    first
      | assumption | apply State.markRetire_still | apply State.onTile_still | apply Still.next | (intro _) | split

theorem execHalfPairWrite_still {s0 : State} {n v : ℕ} {s : State} (h_ : Still s0 s) : NextP (Still s0)
    (execHalfPairWrite n v s) := by
  unfold execHalfPairWrite
  with_reducible repeat'
    first
      | assumption | apply State.onTile_still | apply State.writePair_still | apply Still.next | (intro _)

theorem execAutoRetireMark_still {s0 : State} {tile : ℕ} {s : State} (h_ : Still s0 s) : NextP (Still s0)
    (execAutoRetireMark tile s) := by
  unfold execAutoRetireMark
  with_reducible repeat'
    first
      | assumption | fail_if_no_progress extract_lets | apply State.markRetire_still | apply Still.next | split

theorem execPartLayout_still {s0 : State} {v : ℕ} {s : State} (h_ : Still s0 s) : NextP (Still s0) (execPartLayout v
    s) := by
  unfold execPartLayout
  with_reducible repeat'
    first
      | assumption | apply State.layoutRequest_still | apply Still.next | split

/-! ### Machine/Registers.lean -/

theorem State.idleOnly_still {s0 s : State} {q : ℕ} {f : Queue → Queue} (h_ : Still s0 s) : Still s0 (State.idleOnly s
    q f) := by
  unfold State.idleOnly
  with_reducible repeat'
    first
      | assumption | apply State.modQueue_still | apply State.refuseWrite_still | split

theorem State.clearClocks_still {s0 s : State} {o : ℕ} {r : RegW} (h_ : Still s0 s) : Still s0 (State.clearClocks s o
    r) := by
  unfold State.clearClocks
  with_reducible repeat'
    first
      | assumption | apply State.modPwr_still | split

theorem State.clearLane_still {s0 s : State} {o : ℕ} {r : RegW} (h_ : Still s0 s) : Still s0 (State.clearLane s o r)
    := by
  unfold State.clearLane
  with_reducible repeat'
    first
      | assumption | apply State.modLane_still | split

theorem State.clearModule_still {s0 s : State} {o : ℕ} {r : RegW} (h_ : Still s0 s) : Still s0 (State.clearModule s o
    r) := by
  unfold State.clearModule
  with_reducible repeat'
    first
      | assumption | fail_if_no_progress extract_lets | apply State.modLog_still | apply State.modMod_still | split

theorem State.clearPort_still {s0 s : State} {o : ℕ} {r : RegW} (h_ : Still s0 s) : Still s0 (State.clearPort s o r)
    := by
  unfold State.clearPort
  with_reducible repeat'
    first
      | assumption | apply State.modPort_still | split

theorem State.clearQueue_still {s0 s : State} {o : ℕ} {r : RegW} (h_ : Still s0 s) : Still s0 (State.clearQueue s o r)
    := by
  unfold State.clearQueue
  with_reducible repeat'
    first
      | assumption | apply State.modQueue_still | split

theorem State.clearSync_still {s0 s : State} {o : ℕ} {r : RegW} (h_ : Still s0 s) : Still s0 (State.clearSync s o r)
    := by
  unfold State.clearSync
  with_reducible repeat'
    first
      | assumption | split | apply Still.lit

theorem State.clearReg_still {s0 s : State} {o : ℕ} {r : RegW} (h_ : Still s0 s) : Still s0 (State.clearReg s o r) :=
    by
  unfold State.clearReg
  with_reducible repeat'
    first
      | assumption | fail_if_no_progress extract_lets | apply State.clearClocks_still | apply State.clearLane_still
      | apply State.clearModule_still | apply State.clearPort_still | apply State.clearQueue_still
      | apply State.clearSync_still | split | dsimp -zeta +zetaDelta only

theorem execReadClear_still {s0 : State} {off size : ℕ} {s : State} (h_ : Still s0 s) : NextP (Still s0)
    (execReadClear off size s) := by
  unfold execReadClear
  with_reducible repeat'
    first
      | assumption | apply State.clearReg_still | apply State.drawNonce_still | apply State.reply_still
      | apply Still.next | split | dsimp -zeta +zetaDelta only

theorem State.writeTrace_still {s0 s : State} {o : ℕ} {w : RegW} (h_ : Still s0 s) : Still s0 (State.writeTrace s o w)
    := by
  unfold State.writeTrace
  with_reducible repeat'
    first
      | assumption | apply State.hostErrOpen_still | apply State.modTrace_still | split | apply Still.lit

theorem State.writeTrace_keeps {s0 s : State} {o : ℕ} {w : RegW} (h_ : Keeps s0 s) : Keeps s0 (State.writeTrace s o w)
    :=
  h_.still (State.writeTrace_still (Still.refl _))

theorem State.writeMsix_still {s0 s : State} {o : ℕ} {w : RegW} (h_ : Still s0 s) : Still s0 (State.writeMsix s o w)
    := by
  unfold State.writeMsix
  with_reducible repeat'
    first
      | assumption | split | apply Still.lit

theorem State.writeMsix_keeps {s0 s : State} {o : ℕ} {w : RegW} (h_ : Keeps s0 s) : Keeps s0 (State.writeMsix s o w)
    :=
  h_.still (State.writeMsix_still (Still.refl _))

theorem State.writeBell_still {s0 s : State} {o : ℕ} {w : RegW} (h_ : Still s0 s) : Still s0 (State.writeBell s o w)
    := by
  unfold State.writeBell
  with_reducible repeat'
    first
      | assumption | apply State.bell_still | split

theorem State.writeBell_keeps {s0 s : State} {o : ℕ} {w : RegW} (h_ : Keeps s0 s) : Keeps s0 (State.writeBell s o w)
    :=
  h_.still (State.writeBell_still (Still.refl _))

theorem State.writeClocks_still {s0 s : State} {o : ℕ} {w : RegW} (h_ : Still s0 s) : Still s0 (State.writeClocks s o
    w) := by
  unfold State.writeClocks
  with_reducible repeat'
    first
      | assumption | fail_if_no_progress extract_lets | apply State.hostErrOpen_still | apply State.modPwr_still
      | split

theorem State.writeClocks_keeps {s0 s : State} {o : ℕ} {w : RegW} (h_ : Keeps s0 s) : Keeps s0 (State.writeClocks s o
    w) :=
  h_.still (State.writeClocks_still (Still.refl _))

theorem State.writeCounter_still {s0 s : State} {o : ℕ} {w : RegW} (h_ : Still s0 s) : Still s0 (State.writeCounter s
    o w) := by
  unfold State.writeCounter
  with_reducible repeat'
    first
      | assumption | apply State.hostErrOpen_still | apply State.modBank_still | apply State.setAmbient_still
      | apply State.writeCntCtrl_still | apply State.writeSample_still | split | apply Still.lit

theorem State.writeCounter_keeps {s0 s : State} {o : ℕ} {w : RegW} (h_ : Keeps s0 s) : Keeps s0 (State.writeCounter s
    o w) :=
  h_.still (State.writeCounter_still (Still.refl _))

theorem State.writeDebug_keeps {s0 s : State} {o : ℕ} {w : RegW} (h_ : Keeps s0 s) : Keeps s0 (State.writeDebug s o w)
    := by
  unfold State.writeDebug
  with_reducible repeat'
    first
      | assumption | apply State.hostErrOpen_keeps | apply State.modDbg_keeps | apply State.writeBreak_keeps
      | apply State.writeDbgCtrl_keeps | split

theorem State.writeLane_keeps {s0 s : State} {o : ℕ} {w : RegW} (h_ : Keeps s0 s) : Keeps s0 (State.writeLane s o w)
    := by
  unfold State.writeLane
  with_reducible repeat'
    first
      | assumption | apply State.hostErrOpen_keeps | apply State.modLane_keeps | apply State.retireLane_keeps | split
      | apply Keeps.lit

theorem State.writeModule_keeps {s0 s : State} {o : ℕ} {w : RegW} (h_ : Keeps s0 s) : Keeps s0 (State.writeModule s o
    w) := by
  unfold State.writeModule
  with_reducible repeat'
    first
      | assumption | apply State.layoutRequest_keeps | apply State.modLog_keeps | apply State.modMod_keeps
      | apply State.resumeParts_keeps | apply State.writeJobEpoch_keeps | apply State.writeMsix_keeps
      | apply State.writeResetCtrl_keeps | split

theorem State.writePairReg_still {s0 s : State} {o : ℕ} {w : RegW} (h_ : Still s0 s) : Still s0 (State.writePairReg s
    o w) := by
  unfold State.writePairReg
  with_reducible repeat'
    first
      | assumption | fail_if_no_progress extract_lets | apply State.hostErrOpen_still | apply State.modPart_still
      | split

theorem State.writePairReg_keeps {s0 s : State} {o : ℕ} {w : RegW} (h_ : Keeps s0 s) : Keeps s0 (State.writePairReg s
    o w) :=
  h_.still (State.writePairReg_still (Still.refl _))

theorem State.writeNode_still {s0 s : State} {p : ℕ} {w : RegW} (h_ : Still s0 s) : Still s0 (State.writeNode s p w)
    := by
  unfold State.writeNode
  with_reducible repeat'
    first
      | assumption | apply State.drainRx_still | apply State.modPart_still | apply State.pumpAll_still
      | apply Still.fold

theorem State.writeNode_keeps {s0 s : State} {p : ℕ} {w : RegW} (h_ : Keeps s0 s) : Keeps s0 (State.writeNode s p w)
    :=
  h_.still (State.writeNode_still (Still.refl _))

theorem State.writePortCfg_keeps {s0 s : State} {i : ℕ} {w : RegW} (h_ : Keeps s0 s) : Keeps s0 (State.writePortCfg s
    i w) := by
  unfold State.writePortCfg
  with_reducible repeat'
    first
      | assumption | apply State.hostErrOpen_keeps | apply State.modPort_keeps | apply State.portSetEnable_keeps
      | split | dsimp -zeta +zetaDelta only

theorem State.writePort_keeps {s0 s : State} {o : ℕ} {w : RegW} (h_ : Keeps s0 s) : Keeps s0 (State.writePort s o w)
    := by
  unfold State.writePort
  with_reducible repeat'
    first
      | assumption | apply State.hostErrOpen_keeps | apply State.modPart_keeps | apply State.modPort_keeps
      | apply State.writeNode_keeps | apply State.writePortCfg_keeps | split | apply Keeps.lit

theorem State.writeQueue_still {s0 s : State} {o : ℕ} {w : RegW} (h_ : Still s0 s) : Still s0 (State.writeQueue s o w)
    := by
  unfold State.writeQueue
  with_reducible repeat'
    first
      | assumption | apply State.idleOnly_still | apply State.modQueue_still | apply State.qCtrl_still | split
      | apply Still.lit

theorem State.writeQueue_keeps {s0 s : State} {o : ℕ} {w : RegW} (h_ : Keeps s0 s) : Keeps s0 (State.writeQueue s o w)
    :=
  h_.still (State.writeQueue_still (Still.refl _))

theorem State.writeSecurity_still {s0 s : State} {o : ℕ} {w : RegW} (h_ : Still s0 s) : Still s0 (State.writeSecurity
    s o w) := by
  unfold State.writeSecurity
  with_reducible repeat'
    first
      | assumption | apply State.commitRecord_still | apply State.hostErrOpen_still | apply State.modSec_still
      | apply State.rollbackCommit_still | apply State.writeMbCtrl_still | split | apply Still.lit

theorem State.writeSecurity_keeps {s0 s : State} {o : ℕ} {w : RegW} (h_ : Keeps s0 s) : Keeps s0 (State.writeSecurity
    s o w) :=
  h_.still (State.writeSecurity_still (Still.refl _))

theorem State.writeStack_still {s0 s : State} {o : ℕ} {w : RegW} (h_ : Still s0 s) : Still s0 (State.writeStack s o w)
    := by
  unfold State.writeStack
  with_reducible repeat'
    first
      | assumption | split | apply Still.lit

theorem State.writeStack_keeps {s0 s : State} {o : ℕ} {w : RegW} (h_ : Keeps s0 s) : Keeps s0 (State.writeStack s o w)
    :=
  h_.still (State.writeStack_still (Still.refl _))

theorem State.writeSync_still {s0 s : State} {o : ℕ} {w : RegW} (h_ : Still s0 s) : Still s0 (State.writeSync s o w)
    := by
  unfold State.writeSync
  with_reducible repeat'
    first
      | assumption | split | apply Still.lit

theorem State.writeSync_keeps {s0 s : State} {o : ℕ} {w : RegW} (h_ : Keeps s0 s) : Keeps s0 (State.writeSync s o w)
    :=
  h_.still (State.writeSync_still (Still.refl _))

theorem State.writeTile_still {s0 s : State} {o : ℕ} {w : RegW} (h_ : Still s0 s) : Still s0 (State.writeTile s o w)
    := by
  unfold State.writeTile
  with_reducible repeat'
    first
      | assumption | apply State.markRetire_still | apply State.modTile_still | apply State.onTile_still
      | apply State.withdraw_still | apply State.writePair_still | (intro _) | split | apply Still.lit

theorem State.writeTile_keeps {s0 s : State} {o : ℕ} {w : RegW} (h_ : Keeps s0 s) : Keeps s0 (State.writeTile s o w)
    :=
  h_.still (State.writeTile_still (Still.refl _))

theorem State.writeReg_keeps {s0 s : State} {o : ℕ} {w : RegW} (h_ : Keeps s0 s) : Keeps s0 (State.writeReg s o w) :=
    by
  unfold State.writeReg
  with_reducible repeat'
    first
      | assumption | fail_if_no_progress extract_lets | apply State.writeBell_keeps | apply State.writeClocks_keeps
      | apply State.writeCounter_keeps | apply State.writeDebug_keeps | apply State.writeLane_keeps
      | apply State.writeModule_keeps | apply State.writePairReg_keeps | apply State.writePort_keeps
      | apply State.writeQueue_keeps | apply State.writeSecurity_keeps | apply State.writeStack_keeps
      | apply State.writeSync_keeps | apply State.writeTile_keeps | apply State.writeTrace_keeps | split
      | dsimp -zeta +zetaDelta only

theorem execRegisterWrite_keeps {s0 : State} {off size v : ℕ} {s : State} (h_ : Keeps s0 s) : NextP (Keeps s0)
    (execRegisterWrite off size v s) := by
  unfold execRegisterWrite
  with_reducible repeat'
    first
      | assumption | apply State.writeReg_keeps | apply Keeps.next

/-! ### Machine/TileRows.lean -/

theorem State.unitRow_keeps {s0 s : State} {id t : ℕ} {entry : Bool} {e : EccFound} {f : State → State} (h_ : Keeps s0
    s) (hf : ∀ t, Keeps s0 t → Keeps s0 (f t)) : Keeps s0 (State.unitRow s id t entry e f) := by
  unfold State.unitRow
  with_reducible repeat'
    first
      | assumption | apply hf | fail_if_no_progress extract_lets | apply State.contextError_keeps
      | apply State.eccFound_keeps | apply State.syncPorts_keeps | apply State.unlessHalted_keeps | apply Keeps.next
      | apply Keeps.ok | apply Keeps.error | apply Keeps.ok2 | apply Keeps.error2 | apply Keeps.some
      | apply Keeps.none | apply Keeps.some2 | apply Keeps.none2 | (intro _) | split | dsimp -zeta only
      | dsimp -zeta +zetaDelta only

theorem execInvocation_keeps {s0 : State} {w : Reading WorkRef} {s : State} (h_ : Keeps s0 s) : NextP (Keeps s0)
    (execInvocation w s) := by
  unfold execInvocation
  with_reducible repeat'
    first
      | assumption | apply State.invocationRow_keeps | apply State.unitRow_keeps | apply Keeps.next | (intro _)

theorem execFill_keeps {s0 : State} {w : Reading WorkRef} {s : State} (h_ : Keeps s0 s) : NextP (Keeps s0)
    (execFill w s) := by
  unfold execFill
  with_reducible repeat'
    first
      | assumption | apply State.drainRef_keeps | apply State.unitRow_keeps | apply Keeps.next | (intro _)

theorem execStreamingRowIssue_keeps {s0 : State} {r : Reading RowRef} {s : State} (h_ : Keeps s0 s) : NextP (Keeps s0)
    (execStreamingRowIssue r s) := by
  unfold execStreamingRowIssue
  with_reducible repeat'
    first
      | assumption | fail_if_no_progress extract_lets | apply State.streamRow_keeps | apply State.unitRow_keeps
      | apply Keeps.fold | apply Keeps.foldR | apply Keeps.foldL | apply Keeps.foldRun | apply Keeps.foldOut
      | apply Keeps.foldPre | apply Keeps.next | apply Keeps.ok | apply Keeps.error | apply Keeps.ok2
      | apply Keeps.error2 | apply Keeps.some | apply Keeps.none | apply Keeps.some2 | apply Keeps.none2 | (intro _)
      | split | refine Keeps.pairR (by assumption) ?_ | refine Keeps.pairL (by assumption) ?_
      | refine Keeps.pair3 (by assumption) ?_ | refine Keeps.ofOk (by assumption) ?_
      | refine Keeps.ofOk2 (by assumption) ?_ | refine Keeps.ofSome (by assumption) ?_
      | refine Keeps.ofSome2 (by assumption) ?_ | dsimp -zeta only | dsimp -zeta +zetaDelta only

theorem execSlotRowLoad_keeps {s0 : State} {r : Reading SlotRef} {s : State} (h_ : Keeps s0 s) : NextP (Keeps s0)
    (execSlotRowLoad r s) := by
  unfold execSlotRowLoad
  with_reducible repeat'
    first
      | assumption | fail_if_no_progress extract_lets | apply State.slotRow_keeps | apply State.unitRow_keeps
      | apply Keeps.next | (intro _) | split | dsimp -zeta only | dsimp -zeta +zetaDelta only

theorem execDrain_keeps {s0 : State} {w : Reading WorkRef} {s : State} (h_ : Keeps s0 s) : NextP (Keeps s0)
    (execDrain w s) := by
  unfold execDrain
  with_reducible repeat'
    first
      | assumption | apply State.drainRef_keeps | apply State.unitRow_keeps | apply Keeps.next | (intro _)

/-! ### Machine/Tick.lean -/

theorem tick_still {s0 s : State} (h_ : Still s0 s) : Still s0 (tick s) := by
  unfold tick
  with_reducible repeat'
    first
      | assumption | apply State.advance_still

end Sys2Proof.Machine
end

