-- ==== Sys2Proof/Laws/State.lean ====
section
/-!
SUPPORT. What each plain update of the state leaves as it was, one equation per field, and what it reads back: no later
proof unfolds a record update.
-/
namespace Sys2Proof.Machine

variable (s : State)

/-! ### modQueue -/

@[simp] theorem State.modQueue_fields (q : Nat) (f : Queue → Queue) :
    (s.modQueue q f).pending = s.pending ∧ (s.modQueue q f).freeN = s.freeN ∧ (s.modQueue q f).uid = s.uid ∧
    (s.modQueue q f).layout = s.layout ∧ (s.modQueue q f).clk = s.clk ∧ (s.modQueue q f).pwr = s.pwr ∧
    (s.modQueue q f).pins = s.pins ∧ (s.modQueue q f).mod = s.mod ∧ (s.modQueue q f).log = s.log ∧
    (s.modQueue q f).fuse = s.fuse ∧ (s.modQueue q f).flash = s.flash ∧ (s.modQueue q f).sec = s.sec ∧
    (s.modQueue q f).doe = s.doe ∧ (s.modQueue q f).mctp = s.mctp ∧ (s.modQueue q f).msix = s.msix ∧
    (s.modQueue q f).msixPend = s.msixPend ∧ (s.modQueue q f).msixSent = s.msixSent ∧
    (s.modQueue q f).sizes = s.sizes ∧ (s.modQueue q f).qwork = s.qwork ∧ (s.modQueue q f).parts = s.parts ∧
    (s.modQueue q f).tiles = s.tiles ∧ (s.modQueue q f).hbmStacks = s.hbmStacks ∧
    (s.modQueue q f).ports = s.ports ∧ (s.modQueue q f).links = s.links ∧ (s.modQueue q f).lanes = s.lanes ∧
    (s.modQueue q f).objs = s.objs ∧ (s.modQueue q f).mismatch = s.mismatch ∧
    (s.modQueue q f).banks = s.banks ∧ (s.modQueue q f).trace = s.trace ∧ (s.modQueue q f).sel = s.sel ∧
    (s.modQueue q f).dbg = s.dbg ∧ (s.modQueue q f).work = s.work ∧ (s.modQueue q f).mem = s.mem ∧
    (s.modQueue q f).scratch = s.scratch ∧ (s.modQueue q f).poison = s.poison ∧
    (s.modQueue q f).hostOut = s.hostOut ∧ (s.modQueue q f).out = s.out :=
  ⟨rfl, rfl, rfl, rfl, rfl, rfl, rfl, rfl, rfl, rfl, rfl, rfl, rfl, rfl, rfl, rfl, rfl, rfl, rfl, rfl, rfl,
   rfl, rfl, rfl, rfl, rfl, rfl, rfl, rfl, rfl, rfl, rfl, rfl, rfl, rfl, rfl, rfl⟩
@[simp] theorem State.modQueue_same (q : Nat) (f : Queue → Queue) : (s.modQueue q f).queue q = f (s.queue q) :=
  Tbl.get_set_same _ _ _ _
theorem State.modQueue_other {q j : Nat} (f : Queue → Queue) (h : j ≠ q) : (s.modQueue q f).queue j = s.queue j :=
  Tbl.get_set_other _ _ _ _ h

/-! ### modQw -/

@[simp] theorem State.modQw_fields (q : Nat) (f : QueueWork → QueueWork) :
    (s.modQw q f).pending = s.pending ∧ (s.modQw q f).freeN = s.freeN ∧ (s.modQw q f).uid = s.uid ∧
    (s.modQw q f).layout = s.layout ∧ (s.modQw q f).clk = s.clk ∧ (s.modQw q f).pwr = s.pwr ∧
    (s.modQw q f).pins = s.pins ∧ (s.modQw q f).mod = s.mod ∧ (s.modQw q f).log = s.log ∧
    (s.modQw q f).fuse = s.fuse ∧ (s.modQw q f).flash = s.flash ∧ (s.modQw q f).sec = s.sec ∧
    (s.modQw q f).doe = s.doe ∧ (s.modQw q f).mctp = s.mctp ∧ (s.modQw q f).msix = s.msix ∧
    (s.modQw q f).msixPend = s.msixPend ∧ (s.modQw q f).msixSent = s.msixSent ∧ (s.modQw q f).sizes = s.sizes ∧
    (s.modQw q f).queues = s.queues ∧ (s.modQw q f).parts = s.parts ∧ (s.modQw q f).tiles = s.tiles ∧
    (s.modQw q f).hbmStacks = s.hbmStacks ∧ (s.modQw q f).ports = s.ports ∧ (s.modQw q f).links = s.links ∧
    (s.modQw q f).lanes = s.lanes ∧ (s.modQw q f).objs = s.objs ∧ (s.modQw q f).mismatch = s.mismatch ∧
    (s.modQw q f).banks = s.banks ∧ (s.modQw q f).trace = s.trace ∧ (s.modQw q f).sel = s.sel ∧
    (s.modQw q f).dbg = s.dbg ∧ (s.modQw q f).work = s.work ∧ (s.modQw q f).mem = s.mem ∧
    (s.modQw q f).scratch = s.scratch ∧ (s.modQw q f).poison = s.poison ∧ (s.modQw q f).hostOut = s.hostOut ∧
    (s.modQw q f).out = s.out :=
  ⟨rfl, rfl, rfl, rfl, rfl, rfl, rfl, rfl, rfl, rfl, rfl, rfl, rfl, rfl, rfl, rfl, rfl, rfl, rfl, rfl, rfl,
   rfl, rfl, rfl, rfl, rfl, rfl, rfl, rfl, rfl, rfl, rfl, rfl, rfl, rfl, rfl, rfl⟩
@[simp] theorem State.modQw_same (q : Nat) (f : QueueWork → QueueWork) : (s.modQw q f).qw q = f (s.qw q) :=
  Tbl.get_set_same _ _ _ _
theorem State.modQw_other {q j : Nat} (f : QueueWork → QueueWork) (h : j ≠ q) : (s.modQw q f).qw j = s.qw j :=
  Tbl.get_set_other _ _ _ _ h

/-! ### modPart -/

@[simp] theorem State.modPart_fields (p : Nat) (f : Part → Part) :
    (s.modPart p f).pending = s.pending ∧ (s.modPart p f).freeN = s.freeN ∧ (s.modPart p f).uid = s.uid ∧
    (s.modPart p f).layout = s.layout ∧ (s.modPart p f).clk = s.clk ∧ (s.modPart p f).pwr = s.pwr ∧
    (s.modPart p f).pins = s.pins ∧ (s.modPart p f).mod = s.mod ∧ (s.modPart p f).log = s.log ∧
    (s.modPart p f).fuse = s.fuse ∧ (s.modPart p f).flash = s.flash ∧ (s.modPart p f).sec = s.sec ∧
    (s.modPart p f).doe = s.doe ∧ (s.modPart p f).mctp = s.mctp ∧ (s.modPart p f).msix = s.msix ∧
    (s.modPart p f).msixPend = s.msixPend ∧ (s.modPart p f).msixSent = s.msixSent ∧
    (s.modPart p f).sizes = s.sizes ∧ (s.modPart p f).queues = s.queues ∧ (s.modPart p f).qwork = s.qwork ∧
    (s.modPart p f).tiles = s.tiles ∧ (s.modPart p f).hbmStacks = s.hbmStacks ∧
    (s.modPart p f).ports = s.ports ∧ (s.modPart p f).links = s.links ∧ (s.modPart p f).lanes = s.lanes ∧
    (s.modPart p f).objs = s.objs ∧ (s.modPart p f).mismatch = s.mismatch ∧ (s.modPart p f).banks = s.banks ∧
    (s.modPart p f).trace = s.trace ∧ (s.modPart p f).sel = s.sel ∧ (s.modPart p f).dbg = s.dbg ∧
    (s.modPart p f).work = s.work ∧ (s.modPart p f).mem = s.mem ∧ (s.modPart p f).scratch = s.scratch ∧
    (s.modPart p f).poison = s.poison ∧ (s.modPart p f).hostOut = s.hostOut ∧ (s.modPart p f).out = s.out :=
  ⟨rfl, rfl, rfl, rfl, rfl, rfl, rfl, rfl, rfl, rfl, rfl, rfl, rfl, rfl, rfl, rfl, rfl, rfl, rfl, rfl, rfl,
   rfl, rfl, rfl, rfl, rfl, rfl, rfl, rfl, rfl, rfl, rfl, rfl, rfl, rfl, rfl, rfl⟩
@[simp] theorem State.modPart_same (p : Nat) (f : Part → Part) : (s.modPart p f).part p = f (s.part p) :=
  Tbl.get_set_same _ _ _ _
theorem State.modPart_other {p j : Nat} (f : Part → Part) (h : j ≠ p) : (s.modPart p f).part j = s.part j :=
  Tbl.get_set_other _ _ _ _ h

/-! ### modTile -/

@[simp] theorem State.modTile_fields (t : Nat) (f : Tile → Tile) :
    (s.modTile t f).pending = s.pending ∧ (s.modTile t f).freeN = s.freeN ∧ (s.modTile t f).uid = s.uid ∧
    (s.modTile t f).layout = s.layout ∧ (s.modTile t f).clk = s.clk ∧ (s.modTile t f).pwr = s.pwr ∧
    (s.modTile t f).pins = s.pins ∧ (s.modTile t f).mod = s.mod ∧ (s.modTile t f).log = s.log ∧
    (s.modTile t f).fuse = s.fuse ∧ (s.modTile t f).flash = s.flash ∧ (s.modTile t f).sec = s.sec ∧
    (s.modTile t f).doe = s.doe ∧ (s.modTile t f).mctp = s.mctp ∧ (s.modTile t f).msix = s.msix ∧
    (s.modTile t f).msixPend = s.msixPend ∧ (s.modTile t f).msixSent = s.msixSent ∧
    (s.modTile t f).sizes = s.sizes ∧ (s.modTile t f).queues = s.queues ∧ (s.modTile t f).qwork = s.qwork ∧
    (s.modTile t f).parts = s.parts ∧ (s.modTile t f).hbmStacks = s.hbmStacks ∧
    (s.modTile t f).ports = s.ports ∧ (s.modTile t f).links = s.links ∧ (s.modTile t f).lanes = s.lanes ∧
    (s.modTile t f).objs = s.objs ∧ (s.modTile t f).mismatch = s.mismatch ∧ (s.modTile t f).banks = s.banks ∧
    (s.modTile t f).trace = s.trace ∧ (s.modTile t f).sel = s.sel ∧ (s.modTile t f).dbg = s.dbg ∧
    (s.modTile t f).work = s.work ∧ (s.modTile t f).mem = s.mem ∧ (s.modTile t f).scratch = s.scratch ∧
    (s.modTile t f).poison = s.poison ∧ (s.modTile t f).hostOut = s.hostOut ∧ (s.modTile t f).out = s.out :=
  ⟨rfl, rfl, rfl, rfl, rfl, rfl, rfl, rfl, rfl, rfl, rfl, rfl, rfl, rfl, rfl, rfl, rfl, rfl, rfl, rfl, rfl,
   rfl, rfl, rfl, rfl, rfl, rfl, rfl, rfl, rfl, rfl, rfl, rfl, rfl, rfl, rfl, rfl⟩
@[simp] theorem State.modTile_same (t : Nat) (f : Tile → Tile) : (s.modTile t f).tile t = f (s.tile t) :=
  Tbl.get_set_same _ _ _ _
theorem State.modTile_other {t j : Nat} (f : Tile → Tile) (h : j ≠ t) : (s.modTile t f).tile j = s.tile j :=
  Tbl.get_set_other _ _ _ _ h

/-! ### modStack -/

@[simp] theorem State.modStack_fields (k : Nat) (f : Stack → Stack) :
    (s.modStack k f).pending = s.pending ∧ (s.modStack k f).freeN = s.freeN ∧ (s.modStack k f).uid = s.uid ∧
    (s.modStack k f).layout = s.layout ∧ (s.modStack k f).clk = s.clk ∧ (s.modStack k f).pwr = s.pwr ∧
    (s.modStack k f).pins = s.pins ∧ (s.modStack k f).mod = s.mod ∧ (s.modStack k f).log = s.log ∧
    (s.modStack k f).fuse = s.fuse ∧ (s.modStack k f).flash = s.flash ∧ (s.modStack k f).sec = s.sec ∧
    (s.modStack k f).doe = s.doe ∧ (s.modStack k f).mctp = s.mctp ∧ (s.modStack k f).msix = s.msix ∧
    (s.modStack k f).msixPend = s.msixPend ∧ (s.modStack k f).msixSent = s.msixSent ∧
    (s.modStack k f).sizes = s.sizes ∧ (s.modStack k f).queues = s.queues ∧ (s.modStack k f).qwork = s.qwork ∧
    (s.modStack k f).parts = s.parts ∧ (s.modStack k f).tiles = s.tiles ∧ (s.modStack k f).ports = s.ports ∧
    (s.modStack k f).links = s.links ∧ (s.modStack k f).lanes = s.lanes ∧ (s.modStack k f).objs = s.objs ∧
    (s.modStack k f).mismatch = s.mismatch ∧ (s.modStack k f).banks = s.banks ∧
    (s.modStack k f).trace = s.trace ∧ (s.modStack k f).sel = s.sel ∧ (s.modStack k f).dbg = s.dbg ∧
    (s.modStack k f).work = s.work ∧ (s.modStack k f).mem = s.mem ∧ (s.modStack k f).scratch = s.scratch ∧
    (s.modStack k f).poison = s.poison ∧ (s.modStack k f).hostOut = s.hostOut ∧ (s.modStack k f).out = s.out :=
  ⟨rfl, rfl, rfl, rfl, rfl, rfl, rfl, rfl, rfl, rfl, rfl, rfl, rfl, rfl, rfl, rfl, rfl, rfl, rfl, rfl, rfl,
   rfl, rfl, rfl, rfl, rfl, rfl, rfl, rfl, rfl, rfl, rfl, rfl, rfl, rfl, rfl, rfl⟩
@[simp] theorem State.modStack_same (k : Nat) (f : Stack → Stack) : (s.modStack k f).stack k = f (s.stack k) :=
  Tbl.get_set_same _ _ _ _
theorem State.modStack_other {k j : Nat} (f : Stack → Stack) (h : j ≠ k) : (s.modStack k f).stack j = s.stack j :=
  Tbl.get_set_other _ _ _ _ h

/-! ### modPort -/

@[simp] theorem State.modPort_fields (i : Nat) (f : Port → Port) :
    (s.modPort i f).pending = s.pending ∧ (s.modPort i f).freeN = s.freeN ∧ (s.modPort i f).uid = s.uid ∧
    (s.modPort i f).layout = s.layout ∧ (s.modPort i f).clk = s.clk ∧ (s.modPort i f).pwr = s.pwr ∧
    (s.modPort i f).pins = s.pins ∧ (s.modPort i f).mod = s.mod ∧ (s.modPort i f).log = s.log ∧
    (s.modPort i f).fuse = s.fuse ∧ (s.modPort i f).flash = s.flash ∧ (s.modPort i f).sec = s.sec ∧
    (s.modPort i f).doe = s.doe ∧ (s.modPort i f).mctp = s.mctp ∧ (s.modPort i f).msix = s.msix ∧
    (s.modPort i f).msixPend = s.msixPend ∧ (s.modPort i f).msixSent = s.msixSent ∧
    (s.modPort i f).sizes = s.sizes ∧ (s.modPort i f).queues = s.queues ∧ (s.modPort i f).qwork = s.qwork ∧
    (s.modPort i f).parts = s.parts ∧ (s.modPort i f).tiles = s.tiles ∧
    (s.modPort i f).hbmStacks = s.hbmStacks ∧ (s.modPort i f).links = s.links ∧
    (s.modPort i f).lanes = s.lanes ∧ (s.modPort i f).objs = s.objs ∧ (s.modPort i f).mismatch = s.mismatch ∧
    (s.modPort i f).banks = s.banks ∧ (s.modPort i f).trace = s.trace ∧ (s.modPort i f).sel = s.sel ∧
    (s.modPort i f).dbg = s.dbg ∧ (s.modPort i f).work = s.work ∧ (s.modPort i f).mem = s.mem ∧
    (s.modPort i f).scratch = s.scratch ∧ (s.modPort i f).poison = s.poison ∧
    (s.modPort i f).hostOut = s.hostOut ∧ (s.modPort i f).out = s.out :=
  ⟨rfl, rfl, rfl, rfl, rfl, rfl, rfl, rfl, rfl, rfl, rfl, rfl, rfl, rfl, rfl, rfl, rfl, rfl, rfl, rfl, rfl,
   rfl, rfl, rfl, rfl, rfl, rfl, rfl, rfl, rfl, rfl, rfl, rfl, rfl, rfl, rfl, rfl⟩
@[simp] theorem State.modPort_same (i : Nat) (f : Port → Port) : (s.modPort i f).port i = f (s.port i) :=
  Tbl.get_set_same _ _ _ _
theorem State.modPort_other {i j : Nat} (f : Port → Port) (h : j ≠ i) : (s.modPort i f).port j = s.port j :=
  Tbl.get_set_other _ _ _ _ h

/-! ### modLink -/

@[simp] theorem State.modLink_fields (i : Nat) (f : Link → Link) :
    (s.modLink i f).pending = s.pending ∧ (s.modLink i f).freeN = s.freeN ∧ (s.modLink i f).uid = s.uid ∧
    (s.modLink i f).layout = s.layout ∧ (s.modLink i f).clk = s.clk ∧ (s.modLink i f).pwr = s.pwr ∧
    (s.modLink i f).pins = s.pins ∧ (s.modLink i f).mod = s.mod ∧ (s.modLink i f).log = s.log ∧
    (s.modLink i f).fuse = s.fuse ∧ (s.modLink i f).flash = s.flash ∧ (s.modLink i f).sec = s.sec ∧
    (s.modLink i f).doe = s.doe ∧ (s.modLink i f).mctp = s.mctp ∧ (s.modLink i f).msix = s.msix ∧
    (s.modLink i f).msixPend = s.msixPend ∧ (s.modLink i f).msixSent = s.msixSent ∧
    (s.modLink i f).sizes = s.sizes ∧ (s.modLink i f).queues = s.queues ∧ (s.modLink i f).qwork = s.qwork ∧
    (s.modLink i f).parts = s.parts ∧ (s.modLink i f).tiles = s.tiles ∧
    (s.modLink i f).hbmStacks = s.hbmStacks ∧ (s.modLink i f).ports = s.ports ∧
    (s.modLink i f).lanes = s.lanes ∧ (s.modLink i f).objs = s.objs ∧ (s.modLink i f).mismatch = s.mismatch ∧
    (s.modLink i f).banks = s.banks ∧ (s.modLink i f).trace = s.trace ∧ (s.modLink i f).sel = s.sel ∧
    (s.modLink i f).dbg = s.dbg ∧ (s.modLink i f).work = s.work ∧ (s.modLink i f).mem = s.mem ∧
    (s.modLink i f).scratch = s.scratch ∧ (s.modLink i f).poison = s.poison ∧
    (s.modLink i f).hostOut = s.hostOut ∧ (s.modLink i f).out = s.out :=
  ⟨rfl, rfl, rfl, rfl, rfl, rfl, rfl, rfl, rfl, rfl, rfl, rfl, rfl, rfl, rfl, rfl, rfl, rfl, rfl, rfl, rfl,
   rfl, rfl, rfl, rfl, rfl, rfl, rfl, rfl, rfl, rfl, rfl, rfl, rfl, rfl, rfl, rfl⟩
@[simp] theorem State.modLink_same (i : Nat) (f : Link → Link) : (s.modLink i f).link i = f (s.link i) :=
  Tbl.get_set_same _ _ _ _
theorem State.modLink_other {i j : Nat} (f : Link → Link) (h : j ≠ i) : (s.modLink i f).link j = s.link j :=
  Tbl.get_set_other _ _ _ _ h

/-! ### modLane -/

@[simp] theorem State.modLane_fields (i : Nat) (f : Lane → Lane) :
    (s.modLane i f).pending = s.pending ∧ (s.modLane i f).freeN = s.freeN ∧ (s.modLane i f).uid = s.uid ∧
    (s.modLane i f).layout = s.layout ∧ (s.modLane i f).clk = s.clk ∧ (s.modLane i f).pwr = s.pwr ∧
    (s.modLane i f).pins = s.pins ∧ (s.modLane i f).mod = s.mod ∧ (s.modLane i f).log = s.log ∧
    (s.modLane i f).fuse = s.fuse ∧ (s.modLane i f).flash = s.flash ∧ (s.modLane i f).sec = s.sec ∧
    (s.modLane i f).doe = s.doe ∧ (s.modLane i f).mctp = s.mctp ∧ (s.modLane i f).msix = s.msix ∧
    (s.modLane i f).msixPend = s.msixPend ∧ (s.modLane i f).msixSent = s.msixSent ∧
    (s.modLane i f).sizes = s.sizes ∧ (s.modLane i f).queues = s.queues ∧ (s.modLane i f).qwork = s.qwork ∧
    (s.modLane i f).parts = s.parts ∧ (s.modLane i f).tiles = s.tiles ∧
    (s.modLane i f).hbmStacks = s.hbmStacks ∧ (s.modLane i f).ports = s.ports ∧
    (s.modLane i f).links = s.links ∧ (s.modLane i f).objs = s.objs ∧ (s.modLane i f).mismatch = s.mismatch ∧
    (s.modLane i f).banks = s.banks ∧ (s.modLane i f).trace = s.trace ∧ (s.modLane i f).sel = s.sel ∧
    (s.modLane i f).dbg = s.dbg ∧ (s.modLane i f).work = s.work ∧ (s.modLane i f).mem = s.mem ∧
    (s.modLane i f).scratch = s.scratch ∧ (s.modLane i f).poison = s.poison ∧
    (s.modLane i f).hostOut = s.hostOut ∧ (s.modLane i f).out = s.out :=
  ⟨rfl, rfl, rfl, rfl, rfl, rfl, rfl, rfl, rfl, rfl, rfl, rfl, rfl, rfl, rfl, rfl, rfl, rfl, rfl, rfl, rfl,
   rfl, rfl, rfl, rfl, rfl, rfl, rfl, rfl, rfl, rfl, rfl, rfl, rfl, rfl, rfl, rfl⟩
@[simp] theorem State.modLane_same (i : Nat) (f : Lane → Lane) : (s.modLane i f).lane i = f (s.lane i) :=
  Tbl.get_set_same _ _ _ _
theorem State.modLane_other {i j : Nat} (f : Lane → Lane) (h : j ≠ i) : (s.modLane i f).lane j = s.lane j :=
  Tbl.get_set_other _ _ _ _ h

/-! ### modBank -/

@[simp] theorem State.modBank_fields (b : Nat) (f : Bank → Bank) :
    (s.modBank b f).pending = s.pending ∧ (s.modBank b f).freeN = s.freeN ∧ (s.modBank b f).uid = s.uid ∧
    (s.modBank b f).layout = s.layout ∧ (s.modBank b f).clk = s.clk ∧ (s.modBank b f).pwr = s.pwr ∧
    (s.modBank b f).pins = s.pins ∧ (s.modBank b f).mod = s.mod ∧ (s.modBank b f).log = s.log ∧
    (s.modBank b f).fuse = s.fuse ∧ (s.modBank b f).flash = s.flash ∧ (s.modBank b f).sec = s.sec ∧
    (s.modBank b f).doe = s.doe ∧ (s.modBank b f).mctp = s.mctp ∧ (s.modBank b f).msix = s.msix ∧
    (s.modBank b f).msixPend = s.msixPend ∧ (s.modBank b f).msixSent = s.msixSent ∧
    (s.modBank b f).sizes = s.sizes ∧ (s.modBank b f).queues = s.queues ∧ (s.modBank b f).qwork = s.qwork ∧
    (s.modBank b f).parts = s.parts ∧ (s.modBank b f).tiles = s.tiles ∧
    (s.modBank b f).hbmStacks = s.hbmStacks ∧ (s.modBank b f).ports = s.ports ∧
    (s.modBank b f).links = s.links ∧ (s.modBank b f).lanes = s.lanes ∧ (s.modBank b f).objs = s.objs ∧
    (s.modBank b f).mismatch = s.mismatch ∧ (s.modBank b f).trace = s.trace ∧ (s.modBank b f).sel = s.sel ∧
    (s.modBank b f).dbg = s.dbg ∧ (s.modBank b f).work = s.work ∧ (s.modBank b f).mem = s.mem ∧
    (s.modBank b f).scratch = s.scratch ∧ (s.modBank b f).poison = s.poison ∧
    (s.modBank b f).hostOut = s.hostOut ∧ (s.modBank b f).out = s.out :=
  ⟨rfl, rfl, rfl, rfl, rfl, rfl, rfl, rfl, rfl, rfl, rfl, rfl, rfl, rfl, rfl, rfl, rfl, rfl, rfl, rfl, rfl,
   rfl, rfl, rfl, rfl, rfl, rfl, rfl, rfl, rfl, rfl, rfl, rfl, rfl, rfl, rfl, rfl⟩
@[simp] theorem State.modBank_same (b : Nat) (f : Bank → Bank) : (s.modBank b f).bank b = f (s.bank b) :=
  Tbl.get_set_same _ _ _ _
theorem State.modBank_other {b j : Nat} (f : Bank → Bank) (h : j ≠ b) : (s.modBank b f).bank j = s.bank j :=
  Tbl.get_set_other _ _ _ _ h

/-! ### modTrace -/

@[simp] theorem State.modTrace_fields (k : Nat) (f : TraceBuf → TraceBuf) :
    (s.modTrace k f).pending = s.pending ∧ (s.modTrace k f).freeN = s.freeN ∧ (s.modTrace k f).uid = s.uid ∧
    (s.modTrace k f).layout = s.layout ∧ (s.modTrace k f).clk = s.clk ∧ (s.modTrace k f).pwr = s.pwr ∧
    (s.modTrace k f).pins = s.pins ∧ (s.modTrace k f).mod = s.mod ∧ (s.modTrace k f).log = s.log ∧
    (s.modTrace k f).fuse = s.fuse ∧ (s.modTrace k f).flash = s.flash ∧ (s.modTrace k f).sec = s.sec ∧
    (s.modTrace k f).doe = s.doe ∧ (s.modTrace k f).mctp = s.mctp ∧ (s.modTrace k f).msix = s.msix ∧
    (s.modTrace k f).msixPend = s.msixPend ∧ (s.modTrace k f).msixSent = s.msixSent ∧
    (s.modTrace k f).sizes = s.sizes ∧ (s.modTrace k f).queues = s.queues ∧ (s.modTrace k f).qwork = s.qwork ∧
    (s.modTrace k f).parts = s.parts ∧ (s.modTrace k f).tiles = s.tiles ∧
    (s.modTrace k f).hbmStacks = s.hbmStacks ∧ (s.modTrace k f).ports = s.ports ∧
    (s.modTrace k f).links = s.links ∧ (s.modTrace k f).lanes = s.lanes ∧ (s.modTrace k f).objs = s.objs ∧
    (s.modTrace k f).mismatch = s.mismatch ∧ (s.modTrace k f).banks = s.banks ∧ (s.modTrace k f).sel = s.sel ∧
    (s.modTrace k f).dbg = s.dbg ∧ (s.modTrace k f).work = s.work ∧ (s.modTrace k f).mem = s.mem ∧
    (s.modTrace k f).scratch = s.scratch ∧ (s.modTrace k f).poison = s.poison ∧
    (s.modTrace k f).hostOut = s.hostOut ∧ (s.modTrace k f).out = s.out :=
  ⟨rfl, rfl, rfl, rfl, rfl, rfl, rfl, rfl, rfl, rfl, rfl, rfl, rfl, rfl, rfl, rfl, rfl, rfl, rfl, rfl, rfl,
   rfl, rfl, rfl, rfl, rfl, rfl, rfl, rfl, rfl, rfl, rfl, rfl, rfl, rfl, rfl, rfl⟩
@[simp] theorem State.modTrace_same (k : Nat) (f : TraceBuf → TraceBuf) : (s.modTrace k f).traceBuf k = f (s.traceBuf k) :=
  Tbl.get_set_same _ _ _ _
theorem State.modTrace_other {k j : Nat} (f : TraceBuf → TraceBuf) (h : j ≠ k) : (s.modTrace k f).traceBuf j = s.traceBuf j :=
  Tbl.get_set_other _ _ _ _ h

/-! ### setObj -/

@[simp] theorem State.setObj_fields (o : Nat) (v : Obj) :
    (s.setObj o v).pending = s.pending ∧ (s.setObj o v).freeN = s.freeN ∧ (s.setObj o v).uid = s.uid ∧
    (s.setObj o v).layout = s.layout ∧ (s.setObj o v).clk = s.clk ∧ (s.setObj o v).pwr = s.pwr ∧
    (s.setObj o v).pins = s.pins ∧ (s.setObj o v).mod = s.mod ∧ (s.setObj o v).log = s.log ∧
    (s.setObj o v).fuse = s.fuse ∧ (s.setObj o v).flash = s.flash ∧ (s.setObj o v).sec = s.sec ∧
    (s.setObj o v).doe = s.doe ∧ (s.setObj o v).mctp = s.mctp ∧ (s.setObj o v).msix = s.msix ∧
    (s.setObj o v).msixPend = s.msixPend ∧ (s.setObj o v).msixSent = s.msixSent ∧
    (s.setObj o v).sizes = s.sizes ∧ (s.setObj o v).queues = s.queues ∧ (s.setObj o v).qwork = s.qwork ∧
    (s.setObj o v).parts = s.parts ∧ (s.setObj o v).tiles = s.tiles ∧ (s.setObj o v).hbmStacks = s.hbmStacks ∧
    (s.setObj o v).ports = s.ports ∧ (s.setObj o v).links = s.links ∧ (s.setObj o v).lanes = s.lanes ∧
    (s.setObj o v).mismatch = s.mismatch ∧ (s.setObj o v).banks = s.banks ∧ (s.setObj o v).trace = s.trace ∧
    (s.setObj o v).sel = s.sel ∧ (s.setObj o v).dbg = s.dbg ∧ (s.setObj o v).work = s.work ∧
    (s.setObj o v).mem = s.mem ∧ (s.setObj o v).scratch = s.scratch ∧ (s.setObj o v).poison = s.poison ∧
    (s.setObj o v).hostOut = s.hostOut ∧ (s.setObj o v).out = s.out :=
  ⟨rfl, rfl, rfl, rfl, rfl, rfl, rfl, rfl, rfl, rfl, rfl, rfl, rfl, rfl, rfl, rfl, rfl, rfl, rfl, rfl, rfl,
   rfl, rfl, rfl, rfl, rfl, rfl, rfl, rfl, rfl, rfl, rfl, rfl, rfl, rfl, rfl, rfl⟩
@[simp] theorem State.setObj_same (o : Nat) (v : Obj) : (s.setObj o v).obj o = v := Tbl.get_set_same _ _ _ _
theorem State.setObj_other {o j : Nat} (v : Obj) (h : j ≠ o) : (s.setObj o v).obj j = s.obj j := Tbl.get_set_other _ _ _ _ h

/-! ### modWork -/

@[simp] theorem State.modWork_fields (f : Work → Work) :
    (s.modWork f).pending = s.pending ∧ (s.modWork f).freeN = s.freeN ∧ (s.modWork f).uid = s.uid ∧
    (s.modWork f).layout = s.layout ∧ (s.modWork f).clk = s.clk ∧ (s.modWork f).pwr = s.pwr ∧
    (s.modWork f).pins = s.pins ∧ (s.modWork f).mod = s.mod ∧ (s.modWork f).log = s.log ∧
    (s.modWork f).fuse = s.fuse ∧ (s.modWork f).flash = s.flash ∧ (s.modWork f).sec = s.sec ∧
    (s.modWork f).doe = s.doe ∧ (s.modWork f).mctp = s.mctp ∧ (s.modWork f).msix = s.msix ∧
    (s.modWork f).msixPend = s.msixPend ∧ (s.modWork f).msixSent = s.msixSent ∧ (s.modWork f).sizes = s.sizes ∧
    (s.modWork f).queues = s.queues ∧ (s.modWork f).qwork = s.qwork ∧ (s.modWork f).parts = s.parts ∧
    (s.modWork f).tiles = s.tiles ∧ (s.modWork f).hbmStacks = s.hbmStacks ∧ (s.modWork f).ports = s.ports ∧
    (s.modWork f).links = s.links ∧ (s.modWork f).lanes = s.lanes ∧ (s.modWork f).objs = s.objs ∧
    (s.modWork f).mismatch = s.mismatch ∧ (s.modWork f).banks = s.banks ∧ (s.modWork f).trace = s.trace ∧
    (s.modWork f).sel = s.sel ∧ (s.modWork f).dbg = s.dbg ∧ (s.modWork f).mem = s.mem ∧
    (s.modWork f).scratch = s.scratch ∧ (s.modWork f).poison = s.poison ∧ (s.modWork f).hostOut = s.hostOut ∧
    (s.modWork f).out = s.out :=
  ⟨rfl, rfl, rfl, rfl, rfl, rfl, rfl, rfl, rfl, rfl, rfl, rfl, rfl, rfl, rfl, rfl, rfl, rfl, rfl, rfl, rfl,
   rfl, rfl, rfl, rfl, rfl, rfl, rfl, rfl, rfl, rfl, rfl, rfl, rfl, rfl, rfl, rfl⟩
@[simp] theorem State.modWork_same (f : Work → Work) : (s.modWork f).work = f s.work := rfl

/-! ### modClk -/

@[simp] theorem State.modClk_fields (f : Clock → Clock) :
    (s.modClk f).pending = s.pending ∧ (s.modClk f).freeN = s.freeN ∧ (s.modClk f).uid = s.uid ∧
    (s.modClk f).layout = s.layout ∧ (s.modClk f).pwr = s.pwr ∧ (s.modClk f).pins = s.pins ∧
    (s.modClk f).mod = s.mod ∧ (s.modClk f).log = s.log ∧ (s.modClk f).fuse = s.fuse ∧
    (s.modClk f).flash = s.flash ∧ (s.modClk f).sec = s.sec ∧ (s.modClk f).doe = s.doe ∧
    (s.modClk f).mctp = s.mctp ∧ (s.modClk f).msix = s.msix ∧ (s.modClk f).msixPend = s.msixPend ∧
    (s.modClk f).msixSent = s.msixSent ∧ (s.modClk f).sizes = s.sizes ∧ (s.modClk f).queues = s.queues ∧
    (s.modClk f).qwork = s.qwork ∧ (s.modClk f).parts = s.parts ∧ (s.modClk f).tiles = s.tiles ∧
    (s.modClk f).hbmStacks = s.hbmStacks ∧ (s.modClk f).ports = s.ports ∧ (s.modClk f).links = s.links ∧
    (s.modClk f).lanes = s.lanes ∧ (s.modClk f).objs = s.objs ∧ (s.modClk f).mismatch = s.mismatch ∧
    (s.modClk f).banks = s.banks ∧ (s.modClk f).trace = s.trace ∧ (s.modClk f).sel = s.sel ∧
    (s.modClk f).dbg = s.dbg ∧ (s.modClk f).work = s.work ∧ (s.modClk f).mem = s.mem ∧
    (s.modClk f).scratch = s.scratch ∧ (s.modClk f).poison = s.poison ∧ (s.modClk f).hostOut = s.hostOut ∧
    (s.modClk f).out = s.out :=
  ⟨rfl, rfl, rfl, rfl, rfl, rfl, rfl, rfl, rfl, rfl, rfl, rfl, rfl, rfl, rfl, rfl, rfl, rfl, rfl, rfl, rfl,
   rfl, rfl, rfl, rfl, rfl, rfl, rfl, rfl, rfl, rfl, rfl, rfl, rfl, rfl, rfl, rfl⟩
@[simp] theorem State.modClk_same (f : Clock → Clock) : (s.modClk f).clk = f s.clk := rfl

/-! ### modPwr -/

@[simp] theorem State.modPwr_fields (f : Power → Power) :
    (s.modPwr f).pending = s.pending ∧ (s.modPwr f).freeN = s.freeN ∧ (s.modPwr f).uid = s.uid ∧
    (s.modPwr f).layout = s.layout ∧ (s.modPwr f).clk = s.clk ∧ (s.modPwr f).pins = s.pins ∧
    (s.modPwr f).mod = s.mod ∧ (s.modPwr f).log = s.log ∧ (s.modPwr f).fuse = s.fuse ∧
    (s.modPwr f).flash = s.flash ∧ (s.modPwr f).sec = s.sec ∧ (s.modPwr f).doe = s.doe ∧
    (s.modPwr f).mctp = s.mctp ∧ (s.modPwr f).msix = s.msix ∧ (s.modPwr f).msixPend = s.msixPend ∧
    (s.modPwr f).msixSent = s.msixSent ∧ (s.modPwr f).sizes = s.sizes ∧ (s.modPwr f).queues = s.queues ∧
    (s.modPwr f).qwork = s.qwork ∧ (s.modPwr f).parts = s.parts ∧ (s.modPwr f).tiles = s.tiles ∧
    (s.modPwr f).hbmStacks = s.hbmStacks ∧ (s.modPwr f).ports = s.ports ∧ (s.modPwr f).links = s.links ∧
    (s.modPwr f).lanes = s.lanes ∧ (s.modPwr f).objs = s.objs ∧ (s.modPwr f).mismatch = s.mismatch ∧
    (s.modPwr f).banks = s.banks ∧ (s.modPwr f).trace = s.trace ∧ (s.modPwr f).sel = s.sel ∧
    (s.modPwr f).dbg = s.dbg ∧ (s.modPwr f).work = s.work ∧ (s.modPwr f).mem = s.mem ∧
    (s.modPwr f).scratch = s.scratch ∧ (s.modPwr f).poison = s.poison ∧ (s.modPwr f).hostOut = s.hostOut ∧
    (s.modPwr f).out = s.out :=
  ⟨rfl, rfl, rfl, rfl, rfl, rfl, rfl, rfl, rfl, rfl, rfl, rfl, rfl, rfl, rfl, rfl, rfl, rfl, rfl, rfl, rfl,
   rfl, rfl, rfl, rfl, rfl, rfl, rfl, rfl, rfl, rfl, rfl, rfl, rfl, rfl, rfl, rfl⟩
@[simp] theorem State.modPwr_same (f : Power → Power) : (s.modPwr f).pwr = f s.pwr := rfl

/-! ### modMod -/

@[simp] theorem State.modMod_fields (f : Module → Module) :
    (s.modMod f).pending = s.pending ∧ (s.modMod f).freeN = s.freeN ∧ (s.modMod f).uid = s.uid ∧
    (s.modMod f).layout = s.layout ∧ (s.modMod f).clk = s.clk ∧ (s.modMod f).pwr = s.pwr ∧
    (s.modMod f).pins = s.pins ∧ (s.modMod f).log = s.log ∧ (s.modMod f).fuse = s.fuse ∧
    (s.modMod f).flash = s.flash ∧ (s.modMod f).sec = s.sec ∧ (s.modMod f).doe = s.doe ∧
    (s.modMod f).mctp = s.mctp ∧ (s.modMod f).msix = s.msix ∧ (s.modMod f).msixPend = s.msixPend ∧
    (s.modMod f).msixSent = s.msixSent ∧ (s.modMod f).sizes = s.sizes ∧ (s.modMod f).queues = s.queues ∧
    (s.modMod f).qwork = s.qwork ∧ (s.modMod f).parts = s.parts ∧ (s.modMod f).tiles = s.tiles ∧
    (s.modMod f).hbmStacks = s.hbmStacks ∧ (s.modMod f).ports = s.ports ∧ (s.modMod f).links = s.links ∧
    (s.modMod f).lanes = s.lanes ∧ (s.modMod f).objs = s.objs ∧ (s.modMod f).mismatch = s.mismatch ∧
    (s.modMod f).banks = s.banks ∧ (s.modMod f).trace = s.trace ∧ (s.modMod f).sel = s.sel ∧
    (s.modMod f).dbg = s.dbg ∧ (s.modMod f).work = s.work ∧ (s.modMod f).mem = s.mem ∧
    (s.modMod f).scratch = s.scratch ∧ (s.modMod f).poison = s.poison ∧ (s.modMod f).hostOut = s.hostOut ∧
    (s.modMod f).out = s.out :=
  ⟨rfl, rfl, rfl, rfl, rfl, rfl, rfl, rfl, rfl, rfl, rfl, rfl, rfl, rfl, rfl, rfl, rfl, rfl, rfl, rfl, rfl,
   rfl, rfl, rfl, rfl, rfl, rfl, rfl, rfl, rfl, rfl, rfl, rfl, rfl, rfl, rfl, rfl⟩
@[simp] theorem State.modMod_same (f : Module → Module) : (s.modMod f).mod = f s.mod := rfl

/-! ### modLog -/

@[simp] theorem State.modLog_fields (f : ModuleLog → ModuleLog) :
    (s.modLog f).pending = s.pending ∧ (s.modLog f).freeN = s.freeN ∧ (s.modLog f).uid = s.uid ∧
    (s.modLog f).layout = s.layout ∧ (s.modLog f).clk = s.clk ∧ (s.modLog f).pwr = s.pwr ∧
    (s.modLog f).pins = s.pins ∧ (s.modLog f).mod = s.mod ∧ (s.modLog f).fuse = s.fuse ∧
    (s.modLog f).flash = s.flash ∧ (s.modLog f).sec = s.sec ∧ (s.modLog f).doe = s.doe ∧
    (s.modLog f).mctp = s.mctp ∧ (s.modLog f).msix = s.msix ∧ (s.modLog f).msixPend = s.msixPend ∧
    (s.modLog f).msixSent = s.msixSent ∧ (s.modLog f).sizes = s.sizes ∧ (s.modLog f).queues = s.queues ∧
    (s.modLog f).qwork = s.qwork ∧ (s.modLog f).parts = s.parts ∧ (s.modLog f).tiles = s.tiles ∧
    (s.modLog f).hbmStacks = s.hbmStacks ∧ (s.modLog f).ports = s.ports ∧ (s.modLog f).links = s.links ∧
    (s.modLog f).lanes = s.lanes ∧ (s.modLog f).objs = s.objs ∧ (s.modLog f).mismatch = s.mismatch ∧
    (s.modLog f).banks = s.banks ∧ (s.modLog f).trace = s.trace ∧ (s.modLog f).sel = s.sel ∧
    (s.modLog f).dbg = s.dbg ∧ (s.modLog f).work = s.work ∧ (s.modLog f).mem = s.mem ∧
    (s.modLog f).scratch = s.scratch ∧ (s.modLog f).poison = s.poison ∧ (s.modLog f).hostOut = s.hostOut ∧
    (s.modLog f).out = s.out :=
  ⟨rfl, rfl, rfl, rfl, rfl, rfl, rfl, rfl, rfl, rfl, rfl, rfl, rfl, rfl, rfl, rfl, rfl, rfl, rfl, rfl, rfl,
   rfl, rfl, rfl, rfl, rfl, rfl, rfl, rfl, rfl, rfl, rfl, rfl, rfl, rfl, rfl, rfl⟩
@[simp] theorem State.modLog_same (f : ModuleLog → ModuleLog) : (s.modLog f).log = f s.log := rfl

/-! ### modSec -/

@[simp] theorem State.modSec_fields (f : Security → Security) :
    (s.modSec f).pending = s.pending ∧ (s.modSec f).freeN = s.freeN ∧ (s.modSec f).uid = s.uid ∧
    (s.modSec f).layout = s.layout ∧ (s.modSec f).clk = s.clk ∧ (s.modSec f).pwr = s.pwr ∧
    (s.modSec f).pins = s.pins ∧ (s.modSec f).mod = s.mod ∧ (s.modSec f).log = s.log ∧
    (s.modSec f).fuse = s.fuse ∧ (s.modSec f).flash = s.flash ∧ (s.modSec f).doe = s.doe ∧
    (s.modSec f).mctp = s.mctp ∧ (s.modSec f).msix = s.msix ∧ (s.modSec f).msixPend = s.msixPend ∧
    (s.modSec f).msixSent = s.msixSent ∧ (s.modSec f).sizes = s.sizes ∧ (s.modSec f).queues = s.queues ∧
    (s.modSec f).qwork = s.qwork ∧ (s.modSec f).parts = s.parts ∧ (s.modSec f).tiles = s.tiles ∧
    (s.modSec f).hbmStacks = s.hbmStacks ∧ (s.modSec f).ports = s.ports ∧ (s.modSec f).links = s.links ∧
    (s.modSec f).lanes = s.lanes ∧ (s.modSec f).objs = s.objs ∧ (s.modSec f).mismatch = s.mismatch ∧
    (s.modSec f).banks = s.banks ∧ (s.modSec f).trace = s.trace ∧ (s.modSec f).sel = s.sel ∧
    (s.modSec f).dbg = s.dbg ∧ (s.modSec f).work = s.work ∧ (s.modSec f).mem = s.mem ∧
    (s.modSec f).scratch = s.scratch ∧ (s.modSec f).poison = s.poison ∧ (s.modSec f).hostOut = s.hostOut ∧
    (s.modSec f).out = s.out :=
  ⟨rfl, rfl, rfl, rfl, rfl, rfl, rfl, rfl, rfl, rfl, rfl, rfl, rfl, rfl, rfl, rfl, rfl, rfl, rfl, rfl, rfl,
   rfl, rfl, rfl, rfl, rfl, rfl, rfl, rfl, rfl, rfl, rfl, rfl, rfl, rfl, rfl, rfl⟩
@[simp] theorem State.modSec_same (f : Security → Security) : (s.modSec f).sec = f s.sec := rfl

/-! ### modDbg -/

@[simp] theorem State.modDbg_fields (f : Debug → Debug) :
    (s.modDbg f).pending = s.pending ∧ (s.modDbg f).freeN = s.freeN ∧ (s.modDbg f).uid = s.uid ∧
    (s.modDbg f).layout = s.layout ∧ (s.modDbg f).clk = s.clk ∧ (s.modDbg f).pwr = s.pwr ∧
    (s.modDbg f).pins = s.pins ∧ (s.modDbg f).mod = s.mod ∧ (s.modDbg f).log = s.log ∧
    (s.modDbg f).fuse = s.fuse ∧ (s.modDbg f).flash = s.flash ∧ (s.modDbg f).sec = s.sec ∧
    (s.modDbg f).doe = s.doe ∧ (s.modDbg f).mctp = s.mctp ∧ (s.modDbg f).msix = s.msix ∧
    (s.modDbg f).msixPend = s.msixPend ∧ (s.modDbg f).msixSent = s.msixSent ∧ (s.modDbg f).sizes = s.sizes ∧
    (s.modDbg f).queues = s.queues ∧ (s.modDbg f).qwork = s.qwork ∧ (s.modDbg f).parts = s.parts ∧
    (s.modDbg f).tiles = s.tiles ∧ (s.modDbg f).hbmStacks = s.hbmStacks ∧ (s.modDbg f).ports = s.ports ∧
    (s.modDbg f).links = s.links ∧ (s.modDbg f).lanes = s.lanes ∧ (s.modDbg f).objs = s.objs ∧
    (s.modDbg f).mismatch = s.mismatch ∧ (s.modDbg f).banks = s.banks ∧ (s.modDbg f).trace = s.trace ∧
    (s.modDbg f).sel = s.sel ∧ (s.modDbg f).work = s.work ∧ (s.modDbg f).mem = s.mem ∧
    (s.modDbg f).scratch = s.scratch ∧ (s.modDbg f).poison = s.poison ∧ (s.modDbg f).hostOut = s.hostOut ∧
    (s.modDbg f).out = s.out :=
  ⟨rfl, rfl, rfl, rfl, rfl, rfl, rfl, rfl, rfl, rfl, rfl, rfl, rfl, rfl, rfl, rfl, rfl, rfl, rfl, rfl, rfl,
   rfl, rfl, rfl, rfl, rfl, rfl, rfl, rfl, rfl, rfl, rfl, rfl, rfl, rfl, rfl, rfl⟩
@[simp] theorem State.modDbg_same (f : Debug → Debug) : (s.modDbg f).dbg = f s.dbg := rfl

/-! ### modPins -/

@[simp] theorem State.modPins_fields (f : Pins → Pins) :
    (s.modPins f).pending = s.pending ∧ (s.modPins f).freeN = s.freeN ∧ (s.modPins f).uid = s.uid ∧
    (s.modPins f).layout = s.layout ∧ (s.modPins f).clk = s.clk ∧ (s.modPins f).pwr = s.pwr ∧
    (s.modPins f).mod = s.mod ∧ (s.modPins f).log = s.log ∧ (s.modPins f).fuse = s.fuse ∧
    (s.modPins f).flash = s.flash ∧ (s.modPins f).sec = s.sec ∧ (s.modPins f).doe = s.doe ∧
    (s.modPins f).mctp = s.mctp ∧ (s.modPins f).msix = s.msix ∧ (s.modPins f).msixPend = s.msixPend ∧
    (s.modPins f).msixSent = s.msixSent ∧ (s.modPins f).sizes = s.sizes ∧ (s.modPins f).queues = s.queues ∧
    (s.modPins f).qwork = s.qwork ∧ (s.modPins f).parts = s.parts ∧ (s.modPins f).tiles = s.tiles ∧
    (s.modPins f).hbmStacks = s.hbmStacks ∧ (s.modPins f).ports = s.ports ∧ (s.modPins f).links = s.links ∧
    (s.modPins f).lanes = s.lanes ∧ (s.modPins f).objs = s.objs ∧ (s.modPins f).mismatch = s.mismatch ∧
    (s.modPins f).banks = s.banks ∧ (s.modPins f).trace = s.trace ∧ (s.modPins f).sel = s.sel ∧
    (s.modPins f).dbg = s.dbg ∧ (s.modPins f).work = s.work ∧ (s.modPins f).mem = s.mem ∧
    (s.modPins f).scratch = s.scratch ∧ (s.modPins f).poison = s.poison ∧ (s.modPins f).hostOut = s.hostOut ∧
    (s.modPins f).out = s.out :=
  ⟨rfl, rfl, rfl, rfl, rfl, rfl, rfl, rfl, rfl, rfl, rfl, rfl, rfl, rfl, rfl, rfl, rfl, rfl, rfl, rfl, rfl,
   rfl, rfl, rfl, rfl, rfl, rfl, rfl, rfl, rfl, rfl, rfl, rfl, rfl, rfl, rfl, rfl⟩
@[simp] theorem State.modPins_same (f : Pins → Pins) : (s.modPins f).pins = f s.pins := rfl

/-! ### reply -/

@[simp] theorem State.reply_fields (r : Response) :
    (s.reply r).pending = s.pending ∧ (s.reply r).freeN = s.freeN ∧ (s.reply r).uid = s.uid ∧
    (s.reply r).layout = s.layout ∧ (s.reply r).clk = s.clk ∧ (s.reply r).pwr = s.pwr ∧
    (s.reply r).pins = s.pins ∧ (s.reply r).mod = s.mod ∧ (s.reply r).log = s.log ∧ (s.reply r).fuse = s.fuse ∧
    (s.reply r).flash = s.flash ∧ (s.reply r).sec = s.sec ∧ (s.reply r).doe = s.doe ∧
    (s.reply r).mctp = s.mctp ∧ (s.reply r).msix = s.msix ∧ (s.reply r).msixPend = s.msixPend ∧
    (s.reply r).msixSent = s.msixSent ∧ (s.reply r).sizes = s.sizes ∧ (s.reply r).queues = s.queues ∧
    (s.reply r).qwork = s.qwork ∧ (s.reply r).parts = s.parts ∧ (s.reply r).tiles = s.tiles ∧
    (s.reply r).hbmStacks = s.hbmStacks ∧ (s.reply r).ports = s.ports ∧ (s.reply r).links = s.links ∧
    (s.reply r).lanes = s.lanes ∧ (s.reply r).objs = s.objs ∧ (s.reply r).mismatch = s.mismatch ∧
    (s.reply r).banks = s.banks ∧ (s.reply r).trace = s.trace ∧ (s.reply r).sel = s.sel ∧
    (s.reply r).dbg = s.dbg ∧ (s.reply r).work = s.work ∧ (s.reply r).mem = s.mem ∧
    (s.reply r).scratch = s.scratch ∧ (s.reply r).poison = s.poison ∧ (s.reply r).hostOut = s.hostOut :=
  ⟨rfl, rfl, rfl, rfl, rfl, rfl, rfl, rfl, rfl, rfl, rfl, rfl, rfl, rfl, rfl, rfl, rfl, rfl, rfl, rfl, rfl,
   rfl, rfl, rfl, rfl, rfl, rfl, rfl, rfl, rfl, rfl, rfl, rfl, rfl, rfl, rfl, rfl⟩
@[simp] theorem State.reply_out (r : Response) : (s.reply r).out = r :: s.out := rfl

end Sys2Proof.Machine
end

