-- ==== Sys2Proof/Laws/Shared.lean ====
section
/-!
SUPPORT. What the shared operations around a command's effect do, each said once: the holds of a frozen or paused
module, dispatch, a command's START, the taking of a transaction from an inbox.
-/
namespace Sys2Proof

/-! ### Checksums -/

@[simp] theorem forced_eq {α : Type} (f : Nat → α) (n : Nat) : forced f n = f n := by cases n <;> rfl

/-- A CRC is the plain fold of its byte step. -/
theorem crcBytes_eq_foldl (poly c : Nat) (bs : List Byte) : crcBytes poly c bs = bs.foldl (crcByte poly) c := by
  induction bs generalizing c with
  | nil => rfl
  | cons b t ih => rw [crcBytes, forced_eq, ih, List.foldl_cons]

end Sys2Proof

namespace Sys2Proof.Machine

variable (s : State)

/-! ### Holds -/

theorem State.unlessFrozen_next {s : State} (h : s.frozen = false) (f : State → State) : s.unlessFrozen f = f s := by
  simp [State.unlessFrozen, h]
theorem State.unlessFrozen_frozen {s : State} (h : s.frozen = true) (f : State → State) : s.unlessFrozen f = s := by
  simp [State.unlessFrozen, h]
theorem State.unlessHalted_next {s : State} (h : s.frozen = false) (k : s.pwr.paused = none) (f : State → State) :
    s.unlessHalted f = f s := by
  simp [State.unlessHalted, h, k]

/-! ### Dispatch -/

/-- The state in which the body of a command of queue `q` runs: the command `c` executes. -/
def State.entered (s : State) (q : Nat) (c : Waiting) : State :=
  s.modQw q (fun x => { x with
    waiting := none, executing := x.executing ++ [{ id := c.id, bytes := c.bytes, since := c.since }] })

/-- Dispatch does one of four things: nothing; a STATE_CONFLICT, kind 1; what the body rejects; what the body answers. -/
theorem State.dispatch_cases (q op : Nat) (body : State → Nat → List Byte → Except Earned State) :
    (s.mayDispatch q op = none ∧ s.dispatch q op body = s) ∨
    ∃ c, s.mayDispatch q op = some c ∧
      ((legal op (s.partSt (s.queue q).part.toNat) = false ∧
          s.dispatch q op body = (s.endWaiting q ⟨stConflict, conflictAt 1 0, 0⟩).pump q) ∨
        (legal op (s.partSt (s.queue q).part.toNat) = true ∧
          ((∃ e, body (s.entered q c) c.id c.bytes = .error e ∧ s.dispatch q op body = (s.endWaiting q e).pump q) ∨
            ∃ t, body (s.entered q c) c.id c.bytes = .ok t ∧ s.dispatch q op body = t.pump q))) := by
  unfold State.dispatch
  cases h : s.mayDispatch q op with
  | none => exact .inl ⟨rfl, rfl⟩
  | some c =>
    refine .inr ⟨c, rfl, ?_⟩
    cases l : legal op (s.partSt (s.queue q).part.toNat) with
    | false => exact .inl ⟨rfl, rfl⟩
    | true =>
      refine .inr ⟨rfl, ?_⟩
      cases b : body (s.entered q c) c.id c.bytes with
      | error e => exact .inl ⟨e, rfl, by simp only [State.entered] at b; simp [b]⟩
      | ok t => exact .inr ⟨t, rfl, by simp only [State.entered] at b; simp [b]⟩

theorem State.dispatch_ok {s : State} {q op : Nat} {c : Waiting} {t : State}
    {body : State → Nat → List Byte → Except Earned State} (m : s.mayDispatch q op = some c)
    (l : legal op (s.partSt (s.queue q).part.toNat) = true) (b : body (s.entered q c) c.id c.bytes = .ok t) :
    s.dispatch q op body = t.pump q := by
  unfold State.dispatch; rw [m]; simp only [l]; rw [if_neg (by decide)]; simp only [State.entered] at b; rw [b]
theorem State.dispatch_error {s : State} {q op : Nat} {c : Waiting} {e : Earned}
    {body : State → Nat → List Byte → Except Earned State} (m : s.mayDispatch q op = some c)
    (l : legal op (s.partSt (s.queue q).part.toNat) = true) (b : body (s.entered q c) c.id c.bytes = .error e) :
    s.dispatch q op body = (s.endWaiting q e).pump q := by
  unfold State.dispatch; rw [m]; simp only [l]; rw [if_neg (by decide)]; simp only [State.entered] at b; rw [b]
theorem State.dispatch_none {s : State} {q op : Nat} (m : s.mayDispatch q op = none)
    (body : State → Nat → List Byte → Except Earned State) : s.dispatch q op body = s := by
  unfold State.dispatch; rw [m]
theorem State.dispatch_illegal {s : State} {q op : Nat} {c : Waiting} (m : s.mayDispatch q op = some c)
    (l : legal op (s.partSt (s.queue q).part.toNat) = false) (body : State → Nat → List Byte → Except Earned State) :
    s.dispatch q op body = (s.endWaiting q ⟨stConflict, conflictAt 1 0, 0⟩).pump q := by
  unfold State.dispatch; rw [m]; simp only [l]; rfl

/-! ### START -/

/-- A reset of a bank changes banks, and of the work only what counts in them: the bases of runs and operators, the ambient
counts, the bank before the reset. -/
theorem State.resetBank_frame (b : Nat) : ∃ bs rs os m p, s.resetBank b =
    { s with banks := bs, work := { s.work with runs := rs, ops := os, amb := m, preReset := p } } := by
  unfold State.resetBank
  split
  · exact ⟨s.banks, s.work.runs, s.work.ops, s.work.amb, s.work.preReset, rfl⟩
  · simp only [State.ambientFrom, State.modWork, State.modBank]
    exact ⟨_, _, _, _, _, rfl⟩

/-- A START changes the queue's work and, by a reset of its bank, what that changes. -/
theorem State.startAt_frame (q id n : Nat) : ∃ a bs rs os m p, s.startAt q id n =
    { s with qwork := a, banks := bs, work := { s.work with runs := rs, ops := os, amb := m, preReset := p } } := by
  unfold State.startAt
  simp only
  split
  · split
    · obtain ⟨bs, rs, os, m, p, e⟩ := (s.modQw q (fun x => x.onExec id (fun e => { e with start := some n }))).resetBank_frame
        (s.queue q).bank.toNat
      exact ⟨_, bs, rs, os, m, p, e⟩
    · exact ⟨_, s.banks, s.work.runs, s.work.ops, s.work.amb, s.work.preReset, rfl⟩
  · exact ⟨s.qwork, s.banks, s.work.runs, s.work.ops, s.work.amb, s.work.preReset, rfl⟩

section
variable (q id n : Nat)
@[simp] theorem State.startAt_queue : (s.startAt q id n).queue = s.queue := by
  obtain ⟨a, bs, rs, os, m, p, e⟩ := s.startAt_frame q id n; rw [e]; rfl
@[simp] theorem State.startAt_part : (s.startAt q id n).part = s.part := by
  obtain ⟨a, bs, rs, os, m, p, e⟩ := s.startAt_frame q id n; rw [e]; rfl
@[simp] theorem State.startAt_tile : (s.startAt q id n).tile = s.tile := by
  obtain ⟨a, bs, rs, os, m, p, e⟩ := s.startAt_frame q id n; rw [e]; rfl
@[simp] theorem State.startAt_port : (s.startAt q id n).port = s.port := by
  obtain ⟨a, bs, rs, os, m, p, e⟩ := s.startAt_frame q id n; rw [e]; rfl
@[simp] theorem State.startAt_clk : (s.startAt q id n).clk = s.clk := by
  obtain ⟨a, bs, rs, os, m, p, e⟩ := s.startAt_frame q id n; rw [e]
@[simp] theorem State.startAt_mclk : (s.startAt q id n).mclk = s.mclk := by unfold State.mclk; rw [startAt_clk]
@[simp] theorem State.startAt_sclk : (s.startAt q id n).sclk = s.sclk := by unfold State.sclk; rw [startAt_clk]
@[simp] theorem State.startAt_loads : (s.startAt q id n).work.loads = s.work.loads := by
  obtain ⟨a, bs, rs, os, m, p, e⟩ := s.startAt_frame q id n; rw [e]
@[simp] theorem State.startAt_dmas : (s.startAt q id n).work.dmas = s.work.dmas := by
  obtain ⟨a, bs, rs, os, m, p, e⟩ := s.startAt_frame q id n; rw [e]
@[simp] theorem State.startAt_updates : (s.startAt q id n).work.updates = s.work.updates := by
  obtain ⟨a, bs, rs, os, m, p, e⟩ := s.startAt_frame q id n; rw [e]
@[simp] theorem State.startAt_colls : (s.startAt q id n).work.colls = s.work.colls := by
  obtain ⟨a, bs, rs, os, m, p, e⟩ := s.startAt_frame q id n; rw [e]
@[simp] theorem State.startAt_fused : (s.startAt q id n).work.fused = s.work.fused := by
  obtain ⟨a, bs, rs, os, m, p, e⟩ := s.startAt_frame q id n; rw [e]
@[simp] theorem State.startAt_waiters : (s.startAt q id n).work.waiters = s.work.waiters := by
  obtain ⟨a, bs, rs, os, m, p, e⟩ := s.startAt_frame q id n; rw [e]
@[simp] theorem State.startAt_uid : (s.startAt q id n).uid = s.uid := by
  obtain ⟨a, bs, rs, os, m, p, e⟩ := s.startAt_frame q id n; rw [e]
end

/-! ### Inboxes -/

theorem State.deliver_held {s : State} {p vc : Nat} (h : s.frozen = true ∨ (s.part p).nodeHeld = true) (f : Txn → Bool) :
    s.deliver p vc f = none := by
  unfold State.deliver; rcases h with h | h <;> simp [h]
theorem State.deliver_other {s : State} {p vc : Nat} {a : Arrived} {rest : List Arrived} {f : Txn → Bool}
    (h : (s.part p).inbox vc = a :: rest) (k : f a.txn = false) : s.deliver p vc f = none := by
  unfold State.deliver; simp [h, k]

end Sys2Proof.Machine
end

