-- ==== Sys2Proof/WellFormed.lean ====
section
/-!
DEFINITION. Well-formed commands: every instance number a command carries exists on the module, and every value fits
the field it is written to.
-/
namespace Sys2Proof

/-- A scope of R421 that exists. -/
def Scope.ok : Scope → Bool
  | .tile t => decide (t < 1152)
  | .die d => decide (d < 8)
  | .module => true

/-- A streaming row's instance numbers and fields lie in their ranges (R72, R74, R87). -/
def RowIssue.ok (r : RowIssue) : Bool :=
  decide (r.tile < 1152) && decide (r.array < 2) && decide (r.shape < 4) && decide (r.pn < 16) &&
  decide (r.mode < 3) && decide (r.rnd < 3) && decide (r.m < r.rows) && decide (r.base + r.rows ≤ 1024) &&
  decide (r.sub < 3)

/-- A slot-row's instance numbers lie in their ranges. -/
def SlotRow.ok (r : SlotRow) : Bool :=
  decide (r.tile < 1152) && decide (r.array < 2) && decide (r.shape < 4) && decide (r.pn < 16) && decide (r.part < 2)

def RowRef.ok : RowRef → Bool
  | .frond _ t a p => decide (t < 1152) && decide (a < 2) && decide (p < 16)
  | .direct r => r.ok
def SlotRef.ok : SlotRef → Bool
  | .frond _ t a => decide (t < 1152) && decide (a < 2)
  | .direct r => r.ok

def WorkRef.ok : WorkRef → Bool
  | .frond _ t e => decide (t < 1152) && decide (e < 128)
  | .direct _ t d r _ _ => decide (t < 1152 + 32) && decide (d.length ≤ 256) && decide (r.length ≤ 16)

/-- Words that ECC covers lie in the used part of a tile's slot. -/
def EccFound.ok (e : EccFound) : Bool := e.words.all (fun w => decide (w.1 < 0x6A0000))

/-- The form check of a command. -/
def Instr.wf : Instr → Bool
  | .nop q | .fence q | .signal q | .wait q | .loadFrond q | .runFrond q | .unloadFrond q | .op q | .copy q
  | .copyNd q | .fusedChain q | .halfSwap q | .updateStep q | .rootRefresh q | .groupWrite q | .collective q
  | .reshard q | .kvRing q | .pairConfig q | .pairCommit q | .perfSnapshot q | .traceCtl q | .quiesce q
  | .partialCommandTimeout q | .waitTimeout q _ | .completionRecord q | .notBeforeReached q _ => decide (q < 64)
  | .quiesced p | .write p | .writeRsp p | .syncReq p | .syncRsp p | .collSeg p | .clear p | .abort p | .stale p
  | .busy p | .arrive p | .flags p | .mirrorData p | .groupEnd p | .scaleRecordEnd p | .mirrorAck p | .form p
  | .commit p | .resyncBytes p | .heartbeatSend p | .heartbeatTimeout p => decide (p < 8)
  | .sqTail q v | .cqHead q v => decide (q < 64) && decide (v < 2 ^ 16)
  | .eventSet o | .eventClear o | .semTry o | .barrierArrive o => decide (o < 2 ^ 18)
  | .semPost o n => decide (o < 2 ^ 18) && decide (0 < n) && decide (n < 2 ^ 32)
  | .counterAdd o v | .counterSet o v | .initCounter o v => decide (o < 2 ^ 18) && decide (v < 2 ^ 64)
  | .initSemaphore o v => decide (o < 2 ^ 18) && decide (v < 2 ^ 32)
  | .initBarrier o v => decide (o < 2 ^ 18) && decide (0 < v) && decide (v < 2 ^ 16)
  | .initEvent o v => decide (o < 2 ^ 18) && decide (v < 2)
  | .swapNotice t | .autoRetireMark t => decide (t < 1152)
  | .contextLoad d => decide (d < 8)
  | .streamingRowIssue r => r.row.ok && r.ecc.ok
  | .slotRowLoad r => r.row.ok && r.ecc.ok
  | .drain w | .fill w | .invocation w => w.row.ok && w.ecc.ok
  | .streamBeat t st => decide (t < 1152) && decide (st < 2 ^ 16)
  | .creditReturn t st d => decide (t < 1152) && decide (st < 2 ^ 16) && decide (d < 1152)
  | .switchItem t u | .mergeItem t u => decide (t < 1152) && decide (u < 4)
  | .workCounterTake o r sq => decide (o < 2 ^ 18) && decide (r < 1152) && decide (sq < 2 ^ 16)
  | .dataFrame p f => decide (p < 18) && decide (f.bytes.length = 256)
  | .controlSlot p b => decide (p < 18) && decide (b.freed.length = 8)
  | .frameTransmit p | .ackTimeout p | .retrainInterval p | .freeze p _ _ | .release p _ _
  | .pairHeartbeat p _ _ _ _ _ => decide (p < 18)
  | .portTraining p t => decide (p < 18) && decide (t.mask < 256) && decide (t.inverted < 256)
  | .widthChange p l _ => decide (p < 18) && decide (l < 8)
  | .equaliserRequest l t _ => decide (l < 144) && decide (t < 23)
  | .alignmentCodeword l n pp d m =>
    decide (l.lane < 144) && decide (l.index < 8) && decide (n < 4096) && decide (pp < 18) && decide (d < 8) && decide (m < 256)
  | .laneErrorWindow l _ sy _ _ => decide (l < 144) && decide (0 < sy)
  | .lockLoss l => decide (l < 144)
  | .halfPairWrite n v => decide (n < 16) && decide (v < 2 ^ 64)
  | .registerWrite o sz v => decide (o < 2 ^ 26) && (sz == 4 || sz == 8) && decide (o % sz = 0) && decide (v < 2 ^ (8 * sz))
  | .readClear o sz => decide (o < 2 ^ 26) && (sz == 4 || sz == 8) && decide (o % sz = 0)
  | .bar2Read o n => decide (0 < n) && decide (n ≤ 4096) && decide (o + n ≤ 2 ^ 36)
  | .bar2Write o bs _ => decide (0 < bs.length) && decide (bs.length ≤ 512) && decide (o + bs.length ≤ 2 ^ 36)
  | .stageF0 r w => (r == 4 || r == 5 || r == 6) && (w == 4 || w == 8 || w == 16)
  | .stageF3 ms => decide (ms.length = 32)
  | .controlCoreWatchdog c | .controlCoreMemoryError c => decide (c < 32)
  | .rhizomeBoundaryLost b => decide (b < 10)
  | .powerStateEvaluate s | .powerWake s | .earlyWake s | .wakeComplete s => s.ok
  | .thermalSample rs => decide (rs.length = 128)
  | .voltageTrim d m => decide (d < 8) && decide (m < 3)
  | .sensorComparison es rs => decide (es.length = 128) && decide (rs.length = 128)
  | .calibrationSlot k _ | .refresh k _ => decide (k < 32)
  | .poisonWriteback k e => decide (k < 32) && decide (e.block < 2 ^ 30)
  | .patrolScrub t b r e _ => decide (t < 1152) && decide (b < 32) && decide (r < 3072) && decide (e < 3)
  | .getVersion t | .getDigests t | .getCapabilities t _ | .negotiateAlgorithms t _ _ | .getCertificate t _ _ _
  | .setCertificate t _ _ _ | .challenge t _ _ | .getMeasurements t _ _ _ | .keyExchange t _ => decide (t < 2)
  | .queueEnable v | .queueDisable v | .resume v | .laneRetire v | .portEnable v | .freezeReq v | .continueBreak v
  | .counterReset v | .sample v | .partLayout v | .partResume v | .jobEpoch v | .bar2Window v | .tileRetire v
  | .retireWithdraw v | .softReset v | .rollbackCommit v | .fwMbCtrlGo v _ _ _ | .cfgCtrlCommit v
  | .dbgResponse v _ => decide (v < 2 ^ 64)
  | .dbgChallenge sz => sz == 4 || sz == 8
  | .timedInputLate _ _ c cause => lateOk c cause
  | .configRequest _ r _ => decide (r < 4096)
  | .waiterPoll _ | .handoverSwap _ _ | .dmaDescriptor _ | .contextLoadComplete _ | .runStart _ | .bodyStart _
  | .planeSwitch _ | .issueEnd _ | .runComplete _ | .holdEnd _ | .joinStarve _ | .operatorStart _
  | .outputTileComplete _ _ _ | .momentumPhase _ _ | .weightPhase _ _ | .clearResend _ _ | .collTimeout _ _
  | .pairFailN _ | .haltN _ | .freezeResume | .traceBlockWrite _ | .partitionChange | .heldAccumulatorAccess
  | .hostReadCompletion _ _ _ | .cplTimeout _ | .coldReset | .fundamentalReset | .perstNHigh | .functionReset
  | .moduleReset | .thermalReset | .thermalRecovery | .vinTrip | .regulatorFault _ | .vauxFault | .stageF1 _
  | .stageF2 _ | .stageF4 | .stageF5 | .stageLimit | .rootCoreMemoryError | .mclkDividerChange | .powerSample _ _
  | .powerPause | .powerPauseEnd | .remoteSignalTimeout _ | .peerInputTimeout _ => true

end Sys2Proof
end

