-- ==== Sys2Proof/Tests/Slice0.lean ====
section
/-!
SUPPORT. Tests: the form check refuses an ill-formed command of every kind; a state and operands that meet the hypotheses
of every clause of every statement; and a few effects that the spec states in numbers.
-/
namespace Sys2Proof.Tests
set_option Elab.async false
open Sys2Proof Sys2Proof.Machine Sys2Proof.Claims

/-! ### A small machine -/

/-- The module past F5 with one partition, READY, two tiles listed and queue 0 in RUN. -/
def live : State := { State.reset with
  pins := { vin := true, vaux := true, pwrGood := true, perstN := true, inReset := false, linkUp := true }
  mod := { stage := 5, done := true }
  clk := { root := 600000, live := 600000, origin := some 0, frameOrigin := some 0 }
  sizes := [(0, { count := 1, tiles := [0, 1], dies := [0] })]
  parts := [(0, { st := 1, node := 1 })]
  queues := [(0, { enable := true, st := 1, winLimit := 0x1FFFFFFF })]
  qwork := [(0, { core := some 0 })] }

/-- A command: opcode, and fields by offset, length and value. -/
def cmd (op : Nat) (fs : List (Nat × Nat × Nat)) : List Byte :=
  fs.foldl (fun b (o, n, v) => b.take o ++ leBytes n v ++ b.drop (o + n)) (leBytes 1 op ++ List.replicate 287 0)

def wt (op : Nat) (fs : List (Nat × Nat × Nat)) : Waiting := { id := 7, bytes := cmd op fs, since := 0, waitOk := true }

/-- Queue 0 has the command next to dispatch. -/
def next (s : State) (op : Nat) (fs : List (Nat × Nat × Nat)) : State :=
  s.modQw 0 (fun x => { x with waiting := some (wt op fs) })

/-- Queue 0 has the command executing, under identifier 7. -/
def busy (s : State) (op : Nat) (fs : List (Nat × Nat × Nat)) : State :=
  s.modQw 0 (fun x => { x with executing := [{ id := 7, bytes := cmd op fs, since := 0 }] })

/-- Partition 0 in another state. -/
def inState (st : BitVec 3) : State := live.modPart 0 (fun x => { x with st := st })

def frozenState : State := live.modDbg (fun d => { d with frozenAt := some 600000 })


/-! ### The statements' hypotheses: the block, synchronisation, queues -/

/-- One root cycle later no mclk edge falls in the next cycle, three cycles later one does. -/
def after (n : Nat) : State := { live with clk := { live.clk with root := 600000 + n } }

theorem witness_EmptyQueueTicks :
    frozenState.pending = [] ∧ frozenState.frozen = true ∧
    ((after 0).pending = [] ∧ (after 0).frozen = false ∧ (after 0).edges 1 = 0) ∧
    (let s := (after 3).modPwr (fun p => { p with paused := some 600000 })
     s.pending = [] ∧ s.frozen = false ∧ s.edges 1 ≠ 0 ∧ s.pwr.paused.isSome = true) ∧
    (after 3).pending = [] ∧ (after 3).frozen = false ∧ (after 3).edges 1 ≠ 0 ∧ (after 3).pwr.paused = none := by
  decide +kernel

/-- A byte of memory and a mark. -/
def marked : State := { live with pending := [.initCounter 5 9], mem := [(64, 1)], poison := [1] }

theorem witness_StepKeepsMemoryCanonical :
    step marked = .next { marked with pending := [], objs := [(5, { type := 0, value := 9 })] } ∧
      Memory.wf marked = true ∧ Poison.wf marked = true := ⟨rfl, rfl, rfl⟩

/-- Objects of each type; the last identifier of the space among them. -/
def objs : State := { live with objs := [(1, ⟨1, 2⟩), (2, ⟨2, 3 * 2 ^ 48⟩), (2 ^ 18 - 1, ⟨3, 0⟩)] }

theorem witness_SyncOperationsWithoutNotice : objs.frozen = false ∧ (objs.obj (2 ^ 18 - 1)).type = 3 ∧
    (objs.obj 1).type = 1 ∧ (objs.obj 0).type = 0 := by decide +kernel

theorem witness_SyncOperationsWithNotice : objs.frozen = false ∧ (objs.obj (2 ^ 18 - 1)).type = 3 ∧
    (objs.obj 1).type = 1 ∧ (objs.obj 0).type = 0 ∧ (objs.obj 2).type = 2 := by decide +kernel

theorem witness_TypeMismatchHasNoEffect : (Instr.counterAdd 1 5, 0) ∈ syncRows 1 5 ∧ objs.frozen = false ∧
    (objs.obj 1).type ≠ 0 ∧ objs.work.colls = [] := by decide +kernel

theorem witness_SwapNoticeSwapsBoundPairs :
    let s := live.modWork (fun w => { w with notices := [(1, 4), (0, 4)] })
    s.frozen = false ∧ takeFirst (fun x => x.1 == 0) s.work.notices = some ((0, 4), [(1, 4)]) := by decide +kernel

/-- Two header waits registered on the event 3, of queues 0 and 1. -/
def waits : State := ({ live with objs := [(3, ⟨3, 0⟩)] } : State).modWork (fun w => { w with waiters :=
  [{ id := 8, obj := 3, who := .header 0, cond := .code 2, registered := true },
   { id := 9, obj := 3, who := .header 1, cond := .code 2, registered := true },
   { id := 10, obj := 3, who := .header 2, cond := .code 0, registered := false, polled := 199999 }] })

theorem witness_WaitersAndPolls :
    (∃ w ws, waits.frozen = false ∧ (waits.obj 3).type = 3 ∧
      waits.work.waiters.filter (fun x => x.registered && x.obj == 3) = w :: ws ∧ w.who = .header 0 ∧
      (∀ x ∈ w :: ws, x.cond = .code 2) ∧ ∀ x ∈ ws, ∃ k, x.who = .header k) ∧
    waits.work.waiters.find? (fun x => x.id == 10 && !x.registered) =
      some { id := 10, obj := 3, who := .header 2, cond := .code 0, registered := false, polled := 199999 } ∧
    (∃ e, (busy live 4 [(32, 8, 20000)]).frozen = false ∧
      ((busy live 4 [(32, 8, 20000)]).qw 0).executing.find? (fun e => e.id == 7 && cOp e.bytes == 4) = some e ∧
      fld e.bytes 20 1 = 0) := by
  refine ⟨⟨_, _, rfl, by decide +kernel, rfl, rfl, by decide +kernel, ?_⟩, by decide +kernel, _, rfl, rfl,
    by decide +kernel⟩
  intro x h
  simp at h
  exact ⟨1, by rw [h]⟩

theorem witness_TailDoorbell : live.allServed = true ∧ live.frozen = false ∧ live.mod.changeBusy = false ∧ live.quiet = live ∧
    live.coreAwake 0 = true ∧
    2 ^ (live.queue 0).sqLog.toNat ≤ 16 ∧ (live.queue 0).st ≠ 0 ∧ 15 < 2 ^ (live.queue 0).sqLog.toNat ∧
    (let s := live.modQueue 0 (fun w => { w with st := 3 })
     s.allServed = true ∧ s.frozen = false ∧ s.mod.changeBusy = false ∧ s.quiet = s ∧ s.coreAwake 0 = true ∧
       (s.queue 0).st = 3 ∧ 15 < 2 ^ (s.queue 0).sqLog.toNat) ∧
    (let w : Queue := { head := 15, sqTail := 15 }
     w.head.toNat < 2 ^ w.sqLog.toNat ∧ w.sqTail.toNat < 2 ^ w.sqLog.toNat) := by
  and_intros <;> first | rfl | decide +kernel

theorem witness_HeadDoorbell : State.reset.allServed = false ∧ (frozenState.allServed = true ∧ frozenState.frozen = true) ∧
    (let s := live.modMod (fun m => { m with changeBusy := true })
     s.allServed = true ∧ s.frozen = false ∧ s.mod.changeBusy = true) ∧
    (live.allServed = true ∧ live.frozen = false ∧ live.mod.changeBusy = false) ∧
    (let w := (live.quiet.wakeCore 0).queue 0
     w.st ≠ 0 ∧ 2 ^ w.sqLog.toNat ≤ 16 ∧ 2 ^ w.cqLog.toNat ≤ 16 ∧ 15 < 2 ^ w.sqLog.toNat ∧ 15 < 2 ^ w.cqLog.toNat) ∧
    (let w : Queue := { cqTail := 15, cqHead := 0 }
     w.cqTail.toNat < 2 ^ w.cqLog.toNat ∧ w.cqHead.toNat < 2 ^ w.cqLog.toNat) := by
  and_intros <;> first | rfl | decide +kernel

/-- Queue 1 IDLE, its rings laid out in HBM; and selected. -/
def idle1 : State := { (live.modQueue 1 (fun w => { w with sqHbm := true, cqHbm := true, winLimit := 100 })) with
  sel := { queue := 1 } }

theorem witness_QueueControlWrites :
    (idle1.allServed = true ∧ idle1.mod.changeBusy = false ∧ bit 0 3 = false ∧ (idle1.queue idle1.sel.queue.toNat).st = 0 ∧
      (let u := (idle1.modQueue 1 (fun w => { w with sqHbm := bit 0x30 4, cqHbm := bit 0x30 5 })).modQueue 1 (fun w => { w with
         stepMode := bit 0x30 1, stopOnReject := bit 0x30 2 })
       u.enableOk (u.queue 1) = true) ∧
      (let s := idle1.modPart 0 (fun x => { x with st := 3 })
       let u := (s.modQueue 1 (fun w => { w with sqHbm := bit 0 4, cqHbm := bit 0 5 })).modQueue 1 (fun w => { w with
         stepMode := bit 0 1, stopOnReject := bit 0 2 })
       s.allServed = true ∧ s.mod.changeBusy = false ∧ (s.queue s.sel.queue.toNat).st = 0 ∧ u.enableOk (u.queue 1) = false)) ∧
    (live.allServed = true ∧ live.mod.changeBusy = false ∧ (live.queue live.sel.queue.toNat).st ≠ 0 ∧
      (live.queue live.sel.queue.toNat).sqHbm = bit 0 4 ∧ (live.queue live.sel.queue.toNat).cqHbm = bit 0 5 ∧
      bit 0 3 = false ∧ (live.qw 0).waiting = none ∧ (live.qw 0).executing = [] ∧ (live.qw 0).finished = [] ∧
      (live.qw 0).stepHalt = none) ∧
    ((next live 1 []).qw 0).waiting.isSome ∧ ((busy live 1 []).qw 0).executing ≠ [] ∧
    (bit 1 0 = true ∧ (live.queue 0).st ≠ 3 ∧ ((live.modQueue 0 (fun w => { w with st := 3 })).queue 0).st = 3) := by
  and_intros <;> decide +kernel

theorem witness_RecordLayout : (0xFFFF < 2 ^ 16) ∧ (2 ^ 48 - 1 < 2 ^ 48) ∧ (2 ^ 32 - 1 < 2 ^ 32) ∧ 255 < 2 ^ 8 := by decide

/-- A finished command of queue 0, and whether its record ends a step. -/
def ended (step : Bool) : State := (live.modQw 0 (fun x => { x with
  finished := [{ id := 7, bytes := cmd 1 [], status := ⟨0, 0, 0⟩, start := 5, stop := 6 }] })).modQueue 0 (fun w => { w with
    stepMode := step, st := if step then 2 else 1 })

theorem witness_CompletionRecords :
    (∀ b, (ended b).frozen = false ∧ ((ended b).qw 0).core = some 0 ∧ (ended b).mod.badCores.contains 0 = false ∧
      2 ≤ ((ended b).queue 0).freeRecords ∧ (∃ f, ((ended b).qw 0).finished = f :: [] ∧
        ((((ended b).finRecord 0 f).qw 0).stepHalt = if b then some 0 else none) ∧
        2 ≤ (((ended b).finRecord 0 f).queue 0).freeRecords) ∧ ((ended b).qw 0).stepHalt = none) ∧
    (live.queue 0).cqHbm = false := by
  refine ⟨fun b => ?_, rfl⟩
  cases b <;> exact ⟨rfl, rfl, rfl, by decide +kernel, ⟨_, rfl, rfl, by decide +kernel⟩, rfl⟩

theorem witness_TimeOuts :
    (let s := live.modQw 0 (fun x => { x with partialAt := some 600000 })
     s.frozen = false ∧ (s.qw 0).partialAt = some 600000) ∧
    (let s := live.modQw 0 (fun x => { x with waiting := some { wt 1 [] with waitOk := false } })
     s.frozen = false ∧ ∃ c, (s.qw 0).waiting = some c ∧ c.waitOk = false) ∧
    (∃ e : Exec, (busy live 4 []).frozen = false ∧ e.id ≠ 0 ∧ ((busy live 4 []).qw 0).executing.find? (fun x => x.id == e.id) =
      some e ∧ cOp e.bytes = 0x04 ∧ (busy live 4 []).work.runs.find? (fun r => r.owner == e.id) = none ∧
      (busy live 4 []).work.ops.find? (fun o => o.owner == e.id && o.start.isNone) = none) ∧
    (let r : Remote := { id := 7, q := 0, part := 0, node := 4095, tseq := 0, since := 0 }
     let s := live.modWork (fun w => { w with remotes := [r] })
     s.frozen = false ∧ takeFirst (fun x => x.id == r.id) s.work.remotes = some (r, [])) := by
  refine ⟨by and_intros <;> rfl, ⟨rfl, _, rfl, rfl⟩, ⟨{ id := 7, bytes := cmd 4 [], since := 0 }, rfl, by decide, rfl, rfl, rfl, rfl⟩, rfl, rfl⟩

/-! ### Commands of the queues -/

/-- An enabled half pair on tile 0. -/
def paired : State := live.modPair 0 15 (fun h => { h with enable := true })

theorem dispatched {s : State} {op : Nat} {fs : List (Nat × Nat × Nat)} (h : (next s op fs).mayDispatch 0 op = some (wt op fs))
    (l : legal op ((next s op fs).partSt 0) = true) (p : ((next s op fs).queue 0).part.toNat = 0) :
    Dispatches (next s op fs) 0 op (wt op fs) := ⟨h, by rw [p]; exact l⟩

theorem witness_CommandsDoneAtDispatch :
    Dispatches (next live 1 []) 0 0x01 (wt 1 []) ∧ Dispatches (next live 2 []) 0 0x02 (wt 2 []) ∧
    (Dispatches (next live 3 []) 0 0x03 (wt 3 []) ∧ bit (fld (wt 3 []).bytes 22 2) 15 = false) ∧
    (Dispatches (next live 4 [(32, 8, 10000)]) 0 0x04 (wt 4 [(32, 8, 10000)]) ∧
      fld (wt 4 [(32, 8, 10000)]).bytes 20 1 = 0 ∧
      fld (wt 4 [(32, 8, 10000)]).bytes 32 8 ≤ (next live 4 [(32, 8, 10000)]).sclk) ∧
    (Dispatches (next live 4 [(32, 8, 10001)]) 0 0x04 (wt 4 [(32, 8, 10001)]) ∧
      fld (wt 4 [(32, 8, 10001)]).bytes 20 1 = 0 ∧
      (next live 4 [(32, 8, 10001)]).sclk < fld (wt 4 [(32, 8, 10001)]).bytes 32 8) ∧
    Dispatches (next live 4 [(20, 1, 1)]) 0 0x04 (wt 4 [(20, 1, 1)]) ∧ fld (wt 4 [(20, 1, 1)]).bytes 20 1 ≠ 0 := by
  and_intros <;> first | rfl | decide +kernel

theorem witness_FenceOrdersTheQueue : (next live 2 []).mayDispatch 0 0x02 = some (wt 2 []) ∧
    ((live.modQw 0 (fun x => { x with fence := true })).qw 0).fence = true ∧ Dispatches (next live 2 []) 0 0x02 (wt 2 []) := by
  and_intros <;> rfl

theorem witness_HalfSwapCommand :
    (Dispatches (next live 0x33 [(20, 2, 0x8000)]) 0 0x33 (wt 0x33 [(20, 2, 0x8000)]) ∧
      15 ∈ (List.range 16).filter (fun n => bit (fld (wt 0x33 [(20, 2, 0x8000)]).bytes 20 2) n) ∧
      ((next live 0x33 [(20, 2, 0x8000)]).pair 0 15).enable = false) ∧
    Dispatches (next paired 0x33 [(20, 2, 0x8000)]) 0 0x33 (wt 0x33 [(20, 2, 0x8000)]) ∧
      ((List.range 16).filter (fun n => bit (fld (wt 0x33 [(20, 2, 0x8000)]).bytes 20 2) n)).all (fun n =>
        let h := (next paired 0x33 [(20, 2, 0x8000)]).pair 0 n
        h.enable && !h.syncEn && !(next paired 0x33 [(20, 2, 0x8000)]).pairInChain 0 n) = true := by
  and_intros <;> first | rfl | decide +kernel

theorem ok_of {ε α : Type} {x : Except ε α} (h : (match x with | .ok _ => true | .error _ => false) = true) :
    ∃ v, x = .ok v := by
  cases x with
  | ok v => exact ⟨v, rfl⟩
  | error e => simp at h

/-- Memory of the first page, from fields by address, length and value, in ascending order. -/
def page (fs : List (Nat × Nat × Nat)) : Tbl Byte :=
  fs.flatMap (fun (a, n, v) => ((List.range n).zip (leBytes n v)).filterMap (fun (i, b) =>
    if b = 0 then none else some (a + i, b)))

/-- Descriptors in the first page: a BARRIER collective of this node alone at 0x100, a PERMUTE of one entry at 0x200, a KV_RING
of two nodes at 0x300, an argument block of a vector operator at 0x400, a parameter-group record at 0x600 (its list at 0x700), a
gradient-scale record of 1.0 at 0x740, an image of one plane for tile 0 at 0x800. -/
def descriptors : List (Nat × Nat × Nat) :=
  [(0x100, 1, 6), (0x104, 4, 1), (0x108, 4, 1), (0x148, 2, 1), (0x160, 2, 1),
   (0x200, 1, 5), (0x204, 4, 1), (0x208, 4, 2), (0x240, 8, 1), (0x248, 2, 1), (0x260, 2, 1),
   (0x300, 4, 1), (0x304, 4, 3), (0x308, 2, 2), (0x30A, 2, 1), (0x30C, 2, 1), (0x310, 4, 64), (0x340, 2, 1), (0x342, 2, 2),
   (0x400, 2, 5), (0x41C, 4, 1), (0x440, 8, 0x40000), (0x454, 4, 1), (0x458, 4, 1), (0x45C, 4, 1),
   (0x460, 8, 0x40000), (0x474, 4, 1), (0x478, 4, 1), (0x47C, 4, 1),
   (0x614, 4, 1), (0x618, 4, 1), (0x61C, 4, 1), (0x630, 4, 0x322BCC77), (0x648, 8, 0x100000), (0x650, 8, 0x120000),
   (0x658, 8, 0x140000), (0x6B8, 8, 0x160000), (0x6C0, 8, 0x180000), (0x6C8, 8, 0x1A0000),
   (0x740, 4, 0x3F800000), (0x744, 4, 0x3F800000), (0x74C, 4, 1),
   (0x800, 2, 1), (0x804, 4, 0x5CDD191D), (0x808, 4, 768), (0x80C, 1, 1), (0x80D, 1, 1), (0x80E, 1, 1), (0x810, 2, 1),
   (0x812, 2, 5), (0x814, 4, 0xC0471CB2), (0x840, 1, 1), (0x900, 4, 1), (0xA00, 4, 4), (0xA08, 4, 1)]

def disk : State := { live with mem := page descriptors }

/-- The same with the frond 9 loaded on tile 0: its plane 0 in slot 0, the last. -/
def loaded : State := (disk.modPart 0 (fun x => { x with fronds := [(9, (5, [0]))] })).modCtx 0 0 (fun _ =>
  { st := 2, plane := 0, digest := 9, bytes := [4] })

/-- The same with two operators that hold the counter 0: the first open, or ended on every tile. -/
def withOp (open' : Bool) : State :=
  let o : OpRun := { id := 3, owner := 4, q := 1, part := 0, arg := [], obj := 0, items := 1, want := 1, start := some 5,
                     tiles := [0], ended := if open' then [] else [0] }
  disk.modWork (fun w => { w with ops := [o] })

theorem witness_TransfersDispatched :
    Dispatches (next disk 0x30 []) 0 0x30 (wt 0x30 []) ∧
    (Dispatches (next disk 0x31 [(16, 8, 0xC00), (24, 2, 1)]) 0 0x31 (wt 0x31 [(16, 8, 0xC00), (24, 2, 1)]) ∧
      (let s := next disk 0x31 [(16, 8, 0xC00), (24, 2, 1)]
       let u := begun s 0 (wt 0x31 [(16, 8, 0xC00), (24, 2, 1)])
       (u.descsBad 0 (u.descList 0 0xC00 1)).isSome = true ∧ u.descsBad 0 (u.descList 0 0xC00 0) = none)) ∧
    Dispatches (next disk 0x32 []) 0 0x32 (wt 0x32 []) ∧ (begun (next disk 0x32 []) 0 (wt 0x32 [])).chainBad 0 [] = none ∧
      (begun (next disk 0x32 []) 0 (wt 0x32 [])).stagesBad 0 [] = none := by
  and_intros <;> decide +kernel

/-- LOAD_FROND of the image at 0x800, its plane 0 to slot 3. -/
def loadFs : List (Nat × Nat × Nat) := [(16, 8, 0x800), (24, 1, 1), (26, 2, 3)]
/-- RUN_FROND of digest 9 from slot 0, MB_COUNT n. -/
def runFs (n : Nat) : List (Nat × Nat × Nat) := [(18, 2, n), (32, 4, 9)]
/-- UNLOAD_FROND of digest 9, every slot. -/
def unloadFs : List (Nat × Nat × Nat) := [(16, 1, 15), (20, 4, 9)]

theorem witness_FrondCommands :
    (Dispatches (next disk 0x10 loadFs) 0 0x10 (wt 0x10 loadFs) ∧
      (let u := begun (next disk 0x10 loadFs) 0 (wt 0x10 loadFs)
       u.inWindow 0 0x800 (fld (u.rdAt 0 0x800 256) 8 4) = true ∧ iTiles (u.rdAt 0 0x800 256) = [0] ∧ u.listed 0 = true ∧
         ∀ c ∈ [0, 1, 2, 3], ((u.tile 0).ctx c).st = 0)) ∧
    (∀ n ∈ [5, 6], Dispatches (next loaded 0x11 (runFs n)) 0 0x11 (wt 0x11 (runFs n)) ∧
      (let u := (begun (next loaded 0x11 (runFs n)) 0 (wt 0x11 (runFs n))).settle
       Tbl.find (u.part 0).fronds (fld (wt 0x11 (runFs n)).bytes 32 4) = some (5, [0]) ∧
         (match u.runPlanes [0] 0 9 with | .ok _ => true | .error _ => false) = true ∧
         fld (wt 0x11 (runFs n)).bytes 18 2 = n)) ∧
    Dispatches (next loaded 0x12 unloadFs) 0 0x12 (wt 0x12 unloadFs) ∧
      (let u := (begun (next loaded 0x12 unloadFs) 0 (wt 0x12 unloadFs)).settle
       (u.size 0).tiles = [0, 1] ∧ ∀ c ∈ [0, 1, 2, 3], ((u.tile 0).ctx c).st = 0 ∨ ((u.tile 0).ctx c).st = 2) := by
  simp only [Dispatches]
  and_intros <;> decide +kernel

theorem witness_OperatorCommand :
    (∀ b, Dispatches (next (withOp b) 0x20 [(16, 8, 0x400)]) 0 0x20 (wt 0x20 [(16, 8, 0x400)]) ∧
      (let u := begun (next (withOp b) 0x20 [(16, 8, 0x400)]) 0 (wt 0x20 [(16, 8, 0x400)])
       u.opBad 0 (u.rdAt 0 0x400 256) = none ∧
         (withOp b).work.ops.all (fun x => decide (x.obj = 0 ∧ x.start.isSome = true) &&
           (decide (x.ended.length < x.tiles.length) == b)) = true)) ∧
    Dispatches (next disk 0x20 []) 0 0x20 (wt 0x20 []) ∧
      ((begun (next disk 0x20 []) 0 (wt 0x20 [])).opBad 0 ((begun (next disk 0x20 []) 0 (wt 0x20 [])).rdAt 0 0 256)).isSome := by
  simp only [Dispatches]
  and_intros <;> decide +kernel

/-- UPDATE_STEP and ROOT_REFRESH of group 0 of the table at 0x600 in slot 0; GROUP_WRITE of that group. -/
def updFs : List (Nat × Nat × Nat) := [(24, 8, 0x600), (32, 8, 0x700), (40, 4, 1), (48, 8, 0x740)]
def refFs : List (Nat × Nat × Nat) := [(16, 8, 0x600), (24, 8, 0x700), (32, 4, 1)]
def gwFs : List (Nat × Nat × Nat) := [(16, 8, 0x600), (28, 4, 1)]

def isOk {ε α : Type} (x : Except ε α) : Bool := match x with | .ok _ => true | .error _ => false

/-- The pair is PAIRED and mirrors by record, and another command on groups executes. -/
def pairBusy : State := (loaded.onPair 0 (fun x => { x with st := 2, mode := 1 })).modWork (fun w => { w with
  updates := [{ id := 3, q := 1, part := 0, kind := 1, table := 0x600, groups := [{ index := 0, cls := 6 }] }] })

theorem witness_GroupCommands :
    (next pairBusy 0x40 updFs).pairWaits 0 = true ∧
    (Dispatches (next loaded 0x40 updFs) 0 0x40 (wt 0x40 updFs) ∧ (next loaded 0x40 updFs).pairWaits 0 = false ∧
      (let u := begun (next loaded 0x40 updFs) 0 (wt 0x40 updFs)
       u.groupList 0 0x700 1 = [0] ∧ u.admitBad 0 0 0 0x600 0x700 [0] = none ∧ u.markAt 0 0x740 64 = false ∧
         scaleBad (u.rdAt 0 0x740 64) = none ∧ ¬(u.mirrorMode 0 = 2 ∧ (u.part 0).pair.bytes < 0x740 + 64) ∧
         isOk (u.planeRun 7 0 0 0 0) = true)) ∧
    (Dispatches (next loaded 0x41 refFs) 0 0x41 (wt 0x41 refFs) ∧ (next loaded 0x41 refFs).pairWaits 0 = false ∧
      (let u := begun (next loaded 0x41 refFs) 0 (wt 0x41 refFs)
       u.groupList 0 0x700 1 = [0] ∧ u.admitBad 0 0 1 0x600 0x700 [0] = none ∧ isOk (u.planeRun 7 0 0 0 0) = true)) ∧
    (∀ s ∈ [loaded, pairBusy.onPair 0 (fun x => { x with st := 0 })],
      Dispatches (next s 0x42 gwFs) 0 0x42 (wt 0x42 gwFs) ∧ (next s 0x42 gwFs).pairWaits 0 = false) ∧
    (begun (next loaded 0x42 gwFs) 0 (wt 0x42 gwFs)).groupBusy 0 0x600 = false ∧
    (begun (next (pairBusy.onPair 0 (fun x => { x with st := 0 })) 0x42 gwFs) 0 (wt 0x42 gwFs)).groupBusy 0 0x600 = true := by
  simp only [Dispatches]
  and_intros <;> decide +kernel

theorem witness_PartitionStateRules :
    ((next (inState 3) 0x20 []).mayDispatch 0 0x20 = some (wt 0x20 []) ∧ legal 0x20 ((next (inState 3) 0x20 []).partSt 0) = false ∧
      (Instr.op 0, 0x20) ∈ queueRows 0) ∧
    ((next (inState 6) 0x51 []).mayDispatch 0 0x51 = some (wt 0x51 []) ∧ legal 0x51 ((next (inState 6) 0x51 []).partSt 0) = false ∧
      (Instr.reshard 0, 0x51) ∈ collRows 0) ∧
    ((next (inState 3) 0x40 []).mayDispatch 0 0x40 = some (wt 0x40 []) ∧ legal 0x40 ((next (inState 3) 0x40 []).partSt 0) = false ∧
      (next (inState 3) 0x40 []).pairWaits 0 = false) ∧
    live.mayDispatch 0 1 = none ∧ (Instr.nop 0, 1) ∈ queueRows 0 := by
  and_intros <;> decide +kernel

/-- A collective in progress at this node: a BARRIER of job 1, COLL_ID 1, its member 1 having answered BUSY. -/
def coll0 : Coll := { id := 3, q := 1, part := 0, op := 0x50, desc := cmd 6 [(4, 4, 1), (8, 4, 1), (72, 2, 2)], members := [1, 2],
                      rank := 0, job := 1, collId := 1, started := true, clears := [], busy := [(1, 660000)], timers := [(1, 0)] }
def inColl : State := disk.modWork (fun w => { w with colls := [coll0] })
/-- Job 1 is in the table, at the epoch. -/
def jobAt (e : Nat) : State := disk.modPart 0 (fun x => { x with jobs := [{ id := 1, epoch := e }] })
/-- The pair of the KV_RING's tile is enabled, synchronised on the semaphore 5. -/
def kvReady : State := ({ disk with objs := [(5, ⟨1, 0⟩)] } : State).modPair 0 0 (fun h => { h with
  enable := true, syncEn := true, swapSync := 5 })
/-- JOB_SEL names a partition and a job. -/
def jobSel (p : BitVec 3) (j : BitVec 32) : State := (jobAt 0).modLog (fun l => { l with jobPart := p, jobSel := j })
def collFs (a e : Nat) : List (Nat × Nat × Nat) := [(16, 8, a), (24, 4, e)]

theorem witness_CollectiveRows :
    (∀ s ∈ [disk, inColl], Dispatches (next s 0x50 (collFs 0x100 0)) 0 0x50 (wt 0x50 (collFs 0x100 0)) ∧
      (let u := begun (next s 0x50 (collFs 0x100 0)) 0 (wt 0x50 (collFs 0x100 0))
       isOk (u.collDesc 0 0x100) = true)) ∧
    (inColl.collOf 0 1 1).isSome = true ∧ disk.collOf 0 1 1 = none ∧
    (∀ e ∈ [1, 2], Dispatches (next (jobAt 0) 0x51 (collFs 0x200 e)) 0 0x51 (wt 0x51 (collFs 0x200 e)) ∧
      (let u := begun (next (jobAt 0) 0x51 (collFs 0x200 e)) 0 (wt 0x51 (collFs 0x200 e))
       isOk (u.collDesc 0 0x200) = true ∧ (u.rdAt 0 0x200 1) = [5] ∧ u.jobEpoch 0 1 = 0)) ∧
    (Dispatches (next kvReady 0x52 (collFs 0x300 0)) 0 0x52 (wt 0x52 (collFs 0x300 0)) ∧
      (let u := begun (next kvReady 0x52 (collFs 0x300 0)) 0 (wt 0x52 (collFs 0x300 0))
       isOk (u.kvDesc 0 0x300) = true ∧ u.collOf 0 1 3 = none)) ∧
    ((jobAt 0).job 0 1).isSome = true ∧
    (inColl.frozen = false ∧ inColl.coll 3 = some coll0 ∧
      takeFirst (fun (r, _) => r == 1) coll0.busy = some ((1, 660000), [])) ∧
    (Tbl.find coll0.timers 0 = none ∧ Tbl.find coll0.timers 1 = some 0) ∧
    (State.reset.modServed = false ∧ live.modServed = true ∧ 2 ^ 32 - 1 = 0xFFFFFFFF ∧
      (jobSel 1 0).modServed = true ∧ (jobSel 1 0).work.colls = [] ∧ (jobSel 1 0).nParts ≤ 1 ∧
      0 < (jobSel 0 1).nParts ∧ ((jobSel 0 1).withJob 0 1).isSome = true) := by
  simp only [Dispatches]
  and_intros <;> decide +kernel

/-- Port 0 UP towards node 2, reached by a route of the table; PAIR_CONFIG over it. -/
def linked : State := ((live.modPort 0 (fun x => { x with enable := true, st := 2, peerNode := 2, peerValid := true })).modPart 0
  (fun x => { x with tableMode := true, routes := [(2, 0x20)] })).onPair 0 (fun y => { y with partner := 2, commitStep := 5 })
def pairFs (mode : Nat) : List (Nat × Nat × Nat) := [(16, 1, mode), (20, 4, 1), (24, 8, 4096), (32, 8, 4096)]
def paired2 : State := linked.onPair 0 (fun y => { y with st := 2, mode := 1, ports := 1 })

theorem witness_PairCommands :
    (Dispatches (next linked 0x60 (pairFs 0)) 0 0x60 (wt 0x60 (pairFs 0)) ∧ fld (wt 0x60 (pairFs 0)).bytes 16 1 = 0) ∧
    (Dispatches (next linked 0x60 (pairFs 2)) 0 0x60 (wt 0x60 (pairFs 2)) ∧ fld (wt 0x60 (pairFs 2)).bytes 16 1 ≠ 0 ∧
      (begun (next linked 0x60 (pairFs 2)) 0 (wt 0x60 (pairFs 2))).pairFieldsBad 0 (wt 0x60 (pairFs 2)).bytes = none ∧
      (let s := next linked 0x60 (pairFs 2)
       let v := (started s 0 (wt 0x60 (pairFs 2))).onPair 0 (fun y => { y with
         before := if y.st = 1 ∨ y.st = 3 then y.before else y.st, st := 1, mode := 2, ports := 1, base := 4096, bytes := 4096
         partner := (s.port 0).peerNode.toNat })
       isOk (v.sendPair 0 3 (pairData 2 4096 5 0 false)) = true)) ∧
    (∀ t ∈ [4, 5, 6], Dispatches (next paired2 0x61 [(16, 8, t)]) 0 0x61 (wt 0x61 [(16, 8, t)]) ∧
      fld (wt 0x61 [(16, 8, t)]).bytes 16 8 = t) ∧
    ((paired2.part 0).pair.st = 2 ∧ (paired2.part 0).pair.commitStep.toNat = 5 ∧ (linked.part 0).pair.st ≠ 2) ∧
    isOk ((started (next paired2 0x61 [(16, 8, 6)]) 0 (wt 0x61 [(16, 8, 6)])).sendPair 0 4 (pairData 1 0 6 0 false)) = true := by
  simp only [Dispatches]
  and_intros <;> decide +kernel

/-- The trace of partition 0 runs. -/
def tracing : State := live.modRing 0 (fun r => { r with running := true, bytes := 0x100000 })

theorem witness_SnapshotTraceQuiesce :
    Dispatches (next live 0x70 []) 0 0x70 (wt 0x70 []) ∧
    (Dispatches (next tracing 0x71 []) 0 0x71 (wt 0x71 []) ∧ fld (wt 0x71 []).bytes 16 1 = 0 ∧
      (((started (next tracing 0x71 []) 0 (wt 0x71 [])).traceFlush 0).part 0).trace.running = true) ∧
    (Dispatches (next live 0x71 [(16, 1, 1), (32, 8, 0x100000)]) 0 0x71 (wt 0x71 [(16, 1, 1), (32, 8, 0x100000)]) ∧
      fld (wt 0x71 [(16, 1, 1), (32, 8, 0x100000)]).bytes 16 1 = 1) ∧
    (Dispatches (next (inState 3) 0x7E []) 0 0x7E (wt 0x7E []) ∧ ((next (inState 3) 0x7E []).part 0).st = 3) ∧
    (Dispatches (next live 0x7E []) 0 0x7E (wt 0x7E []) ∧ ((next live 0x7E []).part 0).st ≠ 3) ∧
    (let s := (busy live 0x7E []).modPart 0 (fun x => { x with quiescing := true })
     s.frozen = false ∧ (s.part 0).quiescing = true ∧ s.halted 0 = true) := by
  simp only [Dispatches]
  and_intros <;> decide +kernel

/-! ### Memory, loads, runs -/

theorem witness_RowsThatStoreNothing : storesNothing (.initEvent 5 1) = true ∧
    exec (.initEvent 5 1) marked = .next { marked with objs := [(5, ⟨3, 1⟩)] } := ⟨rfl, rfl⟩

/-- A chain of two stages whose first hands over through pair 15 of tile 1: iterations completed by the two. -/
def chain (a b : Nat) : Fused := { id := 3, q := 0, part := 0, stages := [cmd 0 [(1, 1, 0x8F), (2, 2, 1)], cmd 0 []],
                                   started := [2, 1], completed := [a, b], handed := [1, 0], swapped := [0, 0], doneAt := [5, 5] }
def chained (a b : Nat) : State := live.modWork (fun w => { w with fused := [chain a b] })

/-- A descriptor of a DMA list, with AFTER and a host source or without. -/
def dma (id : Nat) (after host : Bool) : Dma :=
  { id := id, owner := 7, q := 0, part := 0, len := 64,
    bytes := leBytes 8 0x100 ++ leBytes 8 (tileRegion + 0x600000) ++ leBytes 4 0 ++ leBytes 2 1 ++ leBytes 2 1 ++ leBytes 2 1 ++
      leBytes 1 (b01 host + 4 * b01 after) ++ leBytes 37 0 }
def dmas (after host : Bool) (old : List Dma) : State := live.modWork (fun w => { w with dmas := old ++ [dma 9 after host] })
def inFlight (n : Nat) : List Dma := List.replicate n { dma 8 false false with started := true }
/-- The module sleeps. -/
def asleep : State := (dmas false false []).modPwr (fun p => { p with scopes := [(4096, { code := 2 })] })
/-- An operator has started on tile 0. -/
def tileUsed : State := (dmas false false []).modWork (fun w => { w with ops := [{ id := 3, owner := 4, q := 1, part := 0, arg := [],
                                                                                   obj := 0, items := 1, want := 1, start := some 5, tiles := [0] }] })

theorem witness_HandoverAndDma :
    ((chained 2 1).frozen = false ∧ (chained 2 1).work.fused.find? (fun x => x.id == 3) = some (chain 2 1) ∧
      fPair ((chain 2 1).stages.getD 0 []) = some (15, 1) ∧ (chain 2 1).handed.getD 0 0 < (chain 2 1).completed.getD 0 0 ∧
      0 + 1 ≠ (chain 2 1).stages.length ∧ (chain 2 1).handed.getD 0 0 ≤ (chain 2 1).completed.getD 1 0) ∧
    ((chained 1 1).work.fused.find? (fun x => x.id == 3) = some (chain 1 1) ∧
      (chain 1 1).completed.getD 0 0 ≤ (chain 1 1).handed.getD 0 0) ∧
    ((dmas true false (inFlight 1)).frozen = false ∧
      (dmas true false (inFlight 1)).work.dmas.find? (fun x => x.owner == 7 && !x.started) = some (dma 9 true false) ∧
      (dma 9 true false).after = true ∧ ∃ x ∈ (dmas true false (inFlight 1)).work.dmas, x.owner = 7 ∧ x.stage = none ∧ x.id < 9 ∧
        x.done = false) ∧
    ((asleep.frozen = false ∧ asleep.work.dmas.find? (fun x => x.owner == 7 && !x.started) = some (dma 9 false false) ∧
      asleep.dmaAwake (dma 9 false false) 0 = false)) ∧
    ((dmas false false (inFlight 512)).dmaAwake (dma 9 false false) 0 = true ∧
      (dmas false false (inFlight 512)).work.dmas.find? (fun x => x.owner == 7 && !x.started) = some (dma 9 false false) ∧
      (dma 9 false false).after = false ∧
      ((dmas false false (inFlight 512)).work.dmas.filter (fun x => x.started && !x.done &&
        (((dmas false false (inFlight 512)).qw x.q).core.getD 0) / 4 == 0)).length = 512) ∧
    ((dmas false false (inFlight 511)).work.dmas.find? (fun x => x.owner == 7 && !x.started) = some (dma 9 false false) ∧
      ((dmas false false (inFlight 511)).work.dmas.filter (fun x => x.started && !x.done &&
        (((dmas false false (inFlight 511)).qw x.q).core.getD 0) / 4 == 0)).length < 512 ∧
      (dmas false false (inFlight 511)).dmaHeld { dma 9 false false with started := true } = false ∧
      (dmas false false (inFlight 511)).dmaAwake (dma 9 false false) 0 = true ∧ (dma 9 false false).stage = none ∧
      (∀ k < 16, ((inFlight 511).filter (fun x => x.eng == 1)).length ≤ ((inFlight 511).filter (fun x => x.eng == k)).length) ∧
      (∀ k < 1, ((inFlight 511).filter (fun x => x.eng == 1)).length < ((inFlight 511).filter (fun x => x.eng == k)).length) ∧
      (dma 9 false false).srcHost = false) ∧
    (tileUsed.work.dmas.find? (fun x => x.owner == 7 && !x.started) = some (dma 9 false false) ∧
      tileUsed.dmaHeld { dma 9 false false with started := true } = true) ∧
    (dmas false true []).work.dmas.find? (fun x => x.owner == 7 && !x.started) = some (dma 9 false true) ∧
      (dmas false true []).dmaHeld { dma 9 false true with started := true } = false ∧ (dma 9 false true).srcHost = true := by
  and_intros <;> decide +kernel

/-- The load of the image at 0x800 into slot 3 of tile 0, waiting for die 0 or written by it. -/
def load (waiting : List Nat) : Load := { id := 7, q := 0, part := 0, image := 0x800, planes := [(0, 3)], tiles := [0],
                                          digest := 0, waiting := waiting, written := if waiting = [] then [0] else [] }
def loading (waiting : List Nat) (bytes : List Byte) : State := (disk.modWork (fun w => { w with loads := [load waiting] })).modCtx
  0 3 (fun _ => { st := 1, bytes := bytes })
/-- The block of the image: LAST, an initiation interval of 1. -/
def block : List Byte := leBytes 4 4 ++ leBytes 4 0 ++ leBytes 4 1 ++ List.replicate 244 0

theorem witness_ContextLoadRows :
    ((loading [0] []).frozen = false ∧ (loading [0] []).work.loads.find? (fun x => x.waiting.contains 0) = some (load [0]) ∧
      (((loading [0] []).tile 0).op = none) ∧
      ((((loading [0] []).modTile 0 (fun x => { x with op := some 3 })).tile 0).op.isSome = true)) ∧
    ((loading [0] []).work.loads.find? (fun x => x.id == 7) = some (load [0]) ∧ (load [0]).waiting ≠ []) ∧
    (∀ bs ∈ [[], block], (loading [] bs).frozen = false ∧ (loading [] bs).work.loads.find? (fun x => x.id == 7) = some (load []) ∧
      (load []).waiting = []) ∧
    ((loading [] []).loadVerdict (load [])).isSome = true ∧ (loading [] block).loadVerdict (load []) = none := by
  and_intros <;> decide +kernel

/-- A plane in slot 0, the last or not; a run of three micro-batches on tile 0. -/
def plane (last : Bool) : PlaneInfo := { plane := 0, slot := 0, last := last, next := 1, desc := false, usesHbm := false, fill := 2,
                                         ii := 3, drain := 4, endc := 5 }
def run0 : Run := { id := 3, owner := 7, q := 0, part := 0, digest := 9, tiles := [0], planes := [plane true], n := 3, mbBase := 0, step := 1 }
def running (r : Run) : State := live.modWork (fun w => { w with runs := [r] })
def started0 : Run := { run0 with start := some 100, bodies := 2 }
/-- The break is armed at micro-batch 2 of plane 0. -/
def armed (hit : Bool) : State := (running started0).modDbg (fun d => { d with brkEnable := true, brkMb := 2, brkHit := hit })

/-- Tile 0 sleeps. -/
def sleeping : State := (running run0).modPwr (fun p => { p with scopes := [(0, { code := 1 })] })

theorem witness_RunAndBodyStart :
    ((running run0).frozen = false ∧ (running run0).pwr.paused = none ∧ (running run0).run 3 = some run0 ∧
      (let z := (running run0).settle
       (∀ c ∈ [0, 1, 2, 3], (((z.tile 0).ctx c).st ≠ 3 ∧ ((z.tile 0).ctx c).st ≠ 4)) ∧ z.cellsHeld run0 = false ∧
         z.clk.pendingDiv = none ∧ z.clk.origin.isSome = true ∧ z.tileAwake 0 = true) ∧
      run0.start = none ∧ run0.stopping = false ∧ (running run0).work.updates = []) ∧
    ((((running run0).modCtx 0 3 (fun x => { x with st := 4 })).settle.tile 0).ctx 3).st = 4 ∧
    ((running started0).run 3 = some started0 ∧ started0.start.isSome = true ∧ started0.hold = none ∧ started0.issueEnded = false ∧
      started0.stopping = false ∧ started0.bodies < started0.n ∧ (running started0).dbg.brkEnable = false) ∧
    ((armed false).run 3 = some started0 ∧
      (let u := (armed false).untilMclk (started0.start.getD 0 + started0.slips + (started0.ap + started0.plane.fill + 2 * started0.plane.ii))
       u.dbg.brkEnable = true ∧ u.dbg.brkHit = false ∧ u.dbg.brkPlane.toNat = started0.plane.plane ∧ u.dbg.brkMb.toNat = 2)) := by
  and_intros <;> decide +kernel

def issued0 (last : Bool) : Run := { started0 with planes := [plane last, { plane true with slot := 1, plane := 1 }], bodies := 3 }
def ending : Run := { issued0 true with issueEnded := true }
/-- A stream holds an invocation of the run on its tile. -/
def endingHeld : State := (running ending).modVec 0 (fun v => { v with
  run := some { op := ⟨3, 0, [], [], 0, 0, 0, 1, none, []⟩, start := 5, prog := {} } })

theorem witness_RunIssueEnds :
    (∀ b, (running (issued0 b)).frozen = false ∧ (running (issued0 b)).pwr.paused = none ∧
      (running (issued0 b)).run 3 = some (issued0 b) ∧ (issued0 b).start.isSome = true ∧ (issued0 b).hold = none ∧
      (issued0 b).issueEnded = false ∧ (issued0 b).stopping = false ∧ (issued0 b).bodies = (issued0 b).n ∧
      (issued0 b).plane.last = b) ∧
    (endingHeld.frozen = false ∧ endingHeld.run 3 = some ending ∧ endingHeld.opHeld ending = true) ∧
    ((running ending).run 3 = some ending ∧ ending.issueEnded = true ∧ ending.hold = none ∧ ending.stopping = false ∧
      (running ending).opHeld ending = false ∧
      (let u := (running ending).untilMclk (ending.start.getD 0 + ending.slips + (ending.ap + (2 + 9 + 4) + 5))
       (((u.orphans 3 (u.leftovers ending)).emptyQueues [0] false).run 3).isSome = true)) := by
  and_intros <;> decide +kernel

/-- The run is held by a cause since an mclk. -/
def held (cause since cls : Nat) : Run := { started0 with hold := some { cause := cause, since := since, cls := cls } }

theorem witness_RunHolds :
    ((running started0).mclk = 150000 ∧ (running started0).run 3 = some started0 ∧ started0.start.isSome = true ∧
      started0.issueEnded = false ∧ started0.hold = none ∧ lateOk 0 5 = true ∧ lateOk 3 6 = false) ∧
    ((running (held 6 150000 1)).run 3 = some (held 6 150000 1) ∧ (held 6 150000 1).start.isSome = true ∧
      (held 6 150000 1).hold = some { cause := 6, since := 150000, cls := 1 } ∧ lateOk 3 3 = true ∧ 3 < 6) ∧
    (let s := (running (held 1 150000 3)).modDbg (fun d => { d with brkHit := true })
     s.frozen = false ∧ s.pwr.paused = none ∧ s.run 3 = some (held 1 150000 3) ∧ s.dbg.brkHit = true) ∧
    ((running (held 1 150000 3)).dbg.brkHit = false ∧ (running (held 2 150000 3)).run 3 = some (held 2 150000 3)) ∧
    (running started0).dbg.noProgFrom ≤ (running started0).mclk ∧
    (running (held 4 150000 0)).frozen = false ∧ (running (held 4 150000 0)).run 3 = some (held 4 150000 0) ∧
    (held 4 150000 0).hold = some { cause := 4, since := 150000, cls := 0 } := by
  and_intros <;> decide +kernel

theorem witness_HoldLength : 0 < slotRoot ∧ 0 < 1 := by decide


/-! ### A context with streams -/

/-- A node table of four streams that end on this tile; a SWITCH of one beat (tokens 6, data 7, ways 20 and 21) and a
MERGE of one beat (tokens 8, ways 22 and 23, output 30); queues of four beats for the streams 5, 20, 21 and 30. -/
def nodes : List Byte := ([5, 20, 21, 30].map (fun n => leBytes 8 (n + 2 ^ 20 + 2 ^ 32))).flatten
def steers : List Byte :=
  leBytes 2 (1 + 2 * 4 + 2 ^ 8) ++ leBytes 2 6 ++ leBytes 2 7 ++ leBytes 2 20 ++ leBytes 2 21 ++ List.replicate 22 0 ++
  leBytes 2 (2 + 2 * 4 + 2 ^ 8) ++ leBytes 2 8 ++ leBytes 2 30 ++ leBytes 2 22 ++ leBytes 2 23 ++ List.replicate 86 0
def allocs : List Byte := ([5, 20, 21, 30].map (fun n => leBytes 8 (n + 4 * 2 ^ 24))).flatten
def tail : List Byte := List.replicate 2016 0 ++ (steers ++ allocs)
def streamCtx : List Byte := List.replicate 0x2F00 0 ++ (nodes ++ tail)

theorem drop_skip {p r : List Byte} {k m o : Nat} (h : p.length = k) (e : m = k + o) : (p ++ r).drop m = r.drop o := by
  subst h; subst e
  rw [List.drop_append, List.drop_eq_nil_of_le (Nat.le_add_right _ _), Nat.add_sub_cancel_left, List.nil_append]
theorem ctx_length : streamCtx.length = 0x37A0 := by
  have a : nodes.length = 32 := by decide +kernel
  have b : (steers ++ allocs).length = 160 := by decide +kernel
  simp only [streamCtx, tail, List.length_append, List.length_replicate, a] at b ⊢
  omega
theorem drop_units {m : Nat} (o : Nat) (e : m = 0x3700 + o) : streamCtx.drop m = (steers ++ allocs).drop o := by
  subst e
  rw [streamCtx, tail, drop_skip (k := 0x2F00) (o := 0x800 + o) List.length_replicate (by omega),
    drop_skip (k := 32) (o := 0x7E0 + o) (by decide +kernel) (by omega),
    drop_skip (k := 0x7E0) (o := o) List.length_replicate (by omega)]
theorem node_at (i : Nat) : fld streamCtx (0x2F00 + 8 * i) 8 = fld (nodes ++ tail) (8 * i) 8 := by
  rw [fld, streamCtx, drop_skip (k := 0x2F00) (o := 8 * i) List.length_replicate rfl]; rfl
theorem no_node (j : Nat) (h : j < 252) : fld (nodes ++ tail) (8 * (4 + j)) 8 = 0 := by
  rw [fld, drop_skip (k := 32) (o := 8 * j) (by decide +kernel) (by omega), tail,
    List.drop_append_of_le_length (by rw [List.length_replicate]; omega), List.drop_replicate,
    List.take_append_of_le_length (by rw [List.length_replicate]; omega), List.take_replicate,
    show min 8 (2016 - 8 * j) = 8 by omega]
  decide
theorem node_entries : nodeEntries streamCtx = [5, 20, 21, 30].map (fun n => n + 2 ^ 20 + 2 ^ 32) := by
  have e : List.range 256 = List.range 4 ++ (List.range 252).map (fun x => 4 + x) := @List.range_add 4 252
  have z : (((List.range 252).map (fun x => 4 + x)).map (fun i => fld (nodes ++ tail) (8 * i) 8)).filter
      (fun x => bits x 20 6 != 0) = [] := by
    rw [List.map_map, List.filter_eq_nil_iff]
    intro x h
    obtain ⟨j, k, rfl⟩ := List.mem_map.mp h
    rw [Function.comp_apply, no_node j (List.mem_range.mp k)]
    decide
  unfold nodeEntries
  rw [ctx_length, show min 256 ((0x37A0 - 0x2F00) / 8) = 256 from rfl]
  simp only [node_at]
  rw [e, List.map_append, List.filter_append, z]
  decide +kernel
theorem alloc_entries : allocEntries streamCtx = [5, 20, 21, 30].map (fun n => n + 4 * 2 ^ 24) := by
  have h (i : Nat) : fld streamCtx (0x3780 + i) 8 = fld (steers ++ allocs) (0x80 + i) 8 := by
    rw [fld, drop_units (0x80 + i) (by omega)]; rfl
  unfold allocEntries
  simp only [h]
  decide +kernel
theorem steer_units (u : Nat) : steerEntry streamCtx u = slice (steers ++ allocs) (32 * u) 32 := by
  rw [steerEntry, slice, drop_units (32 * u) rfl]; rfl
theorem sinks (n : Nat) (h : n ∈ [5, 20, 21, 30]) : sinksOf streamCtx n = [Sink.queue 0 4] := by
  unfold sinksOf
  simp only [alloc_entries, steer_units]
  revert h; revert n
  decide +kernel

theorem ends_here (ctx : Nat → List Byte) (ok : Nat → Bool) (st m t x : Nat)
    (h : (nodeEntries (ctx t)).find? (fun x => nStream x == st && nIn x == 0) = some x) (k : nOut x = 1) :
    followStream ctx ok st (m + 1) t 0 = [t] := by
  rw [followStream]
  simp only [h, k]
  rw [show [1, 2, 3, 4, 5].filter (fun c => bit 1 c) = [] by decide]
  simp [show bit 1 0 = true by decide]
theorem dests (s : State) (h : (s.tile 0).active = streamCtx) (n : Nat) (k : n ∈ [5, 20, 21, 30]) : s.destsOf 0 n = [0] := by
  refine ends_here _ _ n 1199 0 (n + 2 ^ 20 + 2 ^ 32) ?_ ?_
  · rw [h, node_entries]; revert k; revert n; decide +kernel
  · revert k; revert n; decide +kernel
theorem room (s : State) (h : (s.tile 0).active = streamCtx) (n : Nat) (k : n ∈ [5, 20, 21, 30]) (m i : Nat) :
    s.roomAt 0 n 0 m i = decide (m ≤ s.credits 0 n 0 0 4) := by
  simp [State.roomAt, h, sinks n k]
theorem item_room (s : State) (h : (s.tile 0).active = streamCtx) (n : Nat) (k : n ∈ [5, 20, 21, 30]) (m i : Nat) :
    s.itemRoom 0 n m i = decide (m ≤ s.credits 0 n 0 0 4) := by
  simp [State.itemRoom, dests s h n k, room s h n k]

def beat : Beat := { lanes := List.replicate 16 1, mask := 0, poison := false }
/-- The run on tile 0 with that context: a beat in every source, that has spent so many credits; tokens in both units,
and items, or none. -/
def flowing (spent : Nat) (items : Bool) : State := (running started0).modTile 0 (fun x => { x with
  c0 := { st := 3, bytes := streamCtx }
  srcs := [5, 20, 21, 30].map (fun n => (n, { buf := [beat], spent := if spent = 0 then [] else [(0, spent)], returning := [0] }))
  steer := [(0, { tokens := [(1, false)], data0 := if items then [beat] else [] }),
            (1, { tokens := [(0, false)], data0 := [beat], data1 := if items then [beat] else [] })] })
theorem flowing_active (k : Nat) (i : Bool) : ((flowing k i).tile 0).active = streamCtx := rfl
/-- The beat has left its source's buffer. -/
def leaving (k : Nat) : State := ((flowing k true).modSource 0 5 (fun c => { c with buf := c.buf.drop 1, sent := c.sent + 1 })).untilRoot
  (0 + 3 * 200000)

theorem advance_tile (s : State) (n t : Nat) : (s.advance n).tile t = s.tile t := by
  unfold State.advance; simp only []; split <;> rfl
theorem source_slots (n : Nat) (k : n ∈ [5, 20, 21, 30]) (c : Nat) (i : Bool) : (flowing c i).srcSlots 0 n = 1 := by
  rw [State.srcSlots, flowing_active, node_entries]; revert k; revert n; decide +kernel

theorem witness_StreamRows :
    (∀ k ∈ [0, 4], ∀ i, (flowing k i).frozen = false ∧ (flowing k i).pwr.paused = none ∧ (flowing k i).movable 0 = some started0 ∧
      (∃ b rest, ((flowing k i).source 0 5).buf = b :: rest) ∧ ((flowing k i).source 0 5).returning = [] ++ 0 :: [] ∧ 0 / 8 = 0 ∧
      (∃ v bad rest, ((flowing k i).steer 0 0).tokens = (v, bad) :: rest) ∧
      ∃ v bad rest, ((flowing k i).steer 0 1).tokens = (v, bad) :: rest) ∧
    ((flowing 0 true).nextSlotAt 0 5 = some 200000 ∧ live.nextSlotAt 0 5 = none ∧ (flowing 0 true).destsOf 0 5 = [0] ∧
      (leaving 0).roomAt 0 5 0 1 16 = true ∧ (leaving 4).roomAt 0 5 0 1 16 = false ∧ (beatTokens beat).length = 16) ∧
    (∀ k i, sKind (steerEntry ((flowing k i).tile 0).active 0) = 1 ∧ sBeats (steerEntry ((flowing k i).tile 0).active 0) = 1 ∧
      sKind (steerEntry ((flowing k i).tile 0).active 1) = 2 ∧ sBeats (steerEntry ((flowing k i).tile 0).active 1) = 1 ∧
      (∀ u ∈ [0, 1], sWays (steerEntry ((flowing k i).tile 0).active u) = 2) ∧
      sData (steerEntry ((flowing k i).tile 0).active 1) = 30 ∧
      (∀ w ∈ [0, 1], sWay (steerEntry ((flowing k i).tile 0).active 0) w = 20 + w)) ∧
    (((flowing 0 false).steer 0 0).data0.length < 1 ∧ ((flowing 0 true).steer 0 0).data0.length = 1 ∧
      (∀ w ∈ [20, 21], ∀ m, (flowing 0 true).itemRoom 0 w 1 m = true) ∧ ∀ m, (flowing 4 true).itemRoom 0 20 1 m = false) ∧
    ((List.range 2).find? (fun w => decide ((((flowing 0 false).steer 0 1).data w).length < 1)) = some 1 ∧
      (∀ w ∈ List.range 2, 1 ≤ (((flowing 0 true).steer 0 1).data w).length) ∧
      (∀ m, (flowing 0 true).itemRoom 0 30 1 m = true) ∧ ∀ m, (flowing 4 true).itemRoom 0 30 1 m = false) := by
  have l (k : Nat) : ((leaving k).tile 0).active = streamCtx := by
    rw [leaving, State.untilRoot, advance_tile]; rfl
  simp only [flowing_active, steer_units]
  refine ⟨?_, ⟨?_, by decide +kernel, dests _ rfl 5 (by decide), ?_, ?_, by decide +kernel⟩, fun _ _ => by decide +kernel,
    ⟨by decide +kernel, by decide +kernel, ?_, fun m => ?_⟩, by decide +kernel, by decide +kernel, fun m => ?_, fun m => ?_⟩
  · intro k hk i
    simp only [List.mem_cons, List.not_mem_nil, or_false] at hk
    rcases hk with rfl | rfl <;> cases i <;>
      exact ⟨by decide +kernel, by decide +kernel, by decide +kernel, ⟨_, _, rfl⟩, by decide +kernel, trivial, ⟨_, _, _, rfl⟩, _, _, _, rfl⟩
  · rw [State.nextSlotAt, source_slots 5 (by decide)]; decide +kernel
  · rw [room _ (l 0) 5 (by decide)]; decide +kernel
  · rw [room _ (l 4) 5 (by decide)]; decide +kernel
  · intro w hw m
    simp only [List.mem_cons, List.not_mem_nil, or_false] at hw
    rcases hw with rfl | rfl
    · rw [item_room _ rfl 20 (by decide)]; decide +kernel
    · rw [item_room _ rfl 21 (by decide)]; decide +kernel
  · rw [item_room _ rfl 20 (by decide)]; decide +kernel
  · rw [item_room _ rfl 30 (by decide)]; decide +kernel
  · rw [item_room _ rfl 30 (by decide)]; decide +kernel

/-! ### Arrays, drains, vector unit -/

/-- An operator under identifier 3 has started on tile 0. -/
def op3 : OpRun := { id := 3, owner := 4, q := 1, part := 0, arg := [], obj := 0, items := 1, want := 1, start := some 5, tiles := [0] }
def working : State := live.modWork (fun w => { w with ops := [op3] })
def by3 : Issuer := ⟨1, 4, 0, 0, true⟩
/-- A row of it in 8-bit floats on array 0 of tile 0, shape P1. -/
def row0 : RowIssue := { work := 3, tile := 0, array := 0, pn := 0, shape := 0, fmtA := 3, fmtB := 3, m := 0, rows := 4, base := 0,
                         mode := 0, chainOut := false, chainTo := 1, marker := false, rnd := 0, seq := 0, src := .store 0, scale := 0,
                         scaleStream := false, sub := 0, kUsed := 64, nUsed := 64, winBase := 0, winLimit := 0x1FFFFF, tag := 0,
                         tensor := 0, logical := 0 }
/-- The array at the end of its chain link has a full queue. -/
def backedUp : State := working.modArr 0 1 (fun x => { x with chainQ := List.replicate 16 ⟨[], 0, 0⟩ })
/-- A shadow set of that many slot-rows of 64 stands in the pinnule. -/
def shadowed (n : Nat) : State := working.modPin 0 0 0 (fun p => { p with shadow := { need := 64, rows := n } })
/-- The store's arbiter: another master has the row's bank in this mclk; or 64 requests wait. -/
def contended : State := working.modTile 0 (fun x => { x with arb := { mclk := 150000, taken := [(reqKey 6 0, 32)] } })
def crowded : State := working.modTile 0 (fun x => { x with
  arb := { mclk := 149999, waiting := (List.range 64).map (fun i => ⟨reqKey 6 i, [0], 1, 149999⟩) } })

/-- A context whose drain unit of array 0 has a drain before the feeder's pass in the table, both of rows 0 to 3. -/
def entryA : List Byte := leBytes 16 0x14
def entryB : List Byte := leBytes 16 0x10
def drainRec : List Byte := leBytes 8 (4 * 2 ^ 12 + 64 * 2 ^ 29)
def entries : List Byte := (entryA ++ entryB) ++ (List.replicate 2016 0 ++ drainRec)
def setup0 : List Byte := leBytes 512 (3 * 2 ^ 4 + 3 * 2 ^ 9 + 2 ^ 64 * (64 * 2 ^ 174 + 64 * 2 ^ 181))
def passes : List Byte := leBytes 32 (4 * 2 ^ 4) ++ List.replicate 3040 0
def setups : List Byte := List.replicate 256 0 ++ (setup0 ++ (List.replicate 512 0 ++ passes))
def drainFirst : List Byte := setups ++ entries
def drainDue : State := (running started0).modCtx 0 0 (fun _ => { st := 3, bytes := drainFirst })
def row1 : RowIssue := { row0 with winLimit := 0 }

theorem setups_length : setups.length = 0x1100 := by
  have a : setup0.length = 512 := by decide +kernel
  have b : (leBytes 32 (4 * 2 ^ 4)).length = 32 := by decide +kernel
  simp only [setups, passes, List.length_append, List.length_replicate, a, b]
theorem skip_zeros (k o : Nat) (r : List Byte) : (List.replicate k 0 ++ r).drop (k + o) = r.drop o :=
  drop_skip List.length_replicate rfl
theorem setup_at : setupWord drainFirst 0 = leNat setup0 := by
  rw [setupWord, fld, drainFirst, setups, List.append_assoc, drop_skip (o := 0) List.length_replicate rfl, List.drop_zero,
    List.append_assoc, List.take_append_of_le_length (by decide +kernel), List.take_of_length_le (by decide +kernel)]
theorem pass_at : fld drainFirst (0x500 + 32 * 0) 32 = 4 * 2 ^ 4 := by
  have a : setup0.length = 512 := by decide +kernel
  rw [fld, drainFirst, setups, List.append_assoc, drop_skip (k := 256) (o := 0x400) List.length_replicate rfl,
    List.append_assoc, drop_skip (k := 512) (o := 0x200) a rfl, List.append_assoc,
    drop_skip (k := 512) (o := 0) List.length_replicate rfl, List.drop_zero, passes, List.append_assoc,
    List.take_append_of_le_length (by decide +kernel), List.take_of_length_le (by decide +kernel)]
  decide +kernel
theorem drain_at : slice drainFirst (0x1900 + 64 * 0) 64 = drainRec ++ List.replicate 56 0 := by
  rw [slice, drainFirst, drop_skip (k := 0x1100) (o := 0x800) setups_length rfl, entries,
    drop_skip (k := 32) (o := 0x7E0) (by decide +kernel) rfl, drop_skip (k := 0x7E0) (o := 0) List.length_replicate rfl]
  decide +kernel
theorem sched_at (e : Nat) : schedAt drainFirst e = slice entries (16 * e) 16 := by
  rw [schedAt, slice, slice, drainFirst, drop_skip (k := 0x1100) (o := 16 * e) setups_length rfl]
theorem no_entry (j : Nat) (h : j < 126) : slice entries (16 * (2 + j)) 16 = List.replicate 16 0 := by
  rw [slice, entries, drop_skip (k := 32) (o := 16 * j) (by decide +kernel) (by omega),
    List.drop_append_of_le_length (by rw [List.length_replicate]; omega), List.drop_replicate,
    List.take_append_of_le_length (by rw [List.length_replicate]; omega), List.take_replicate,
    show min 16 (2016 - 16 * j) = 16 by omega, List.length_replicate]
  rfl
theorem sched_list : (List.range 128).map (fun e => (e, schedAt drainFirst e)) =
    (0, entryA) :: (1, entryB) :: (List.range 126).map (fun j => (2 + j, List.replicate 16 0)) := by
  have e : List.range 128 = List.range 2 ++ (List.range 126).map (fun x => 2 + x) := @List.range_add 2 126
  rw [e, List.map_append, List.map_map, List.map_congr_left (l := List.range 126) (g := fun j => (2 + j, List.replicate 16 0))]
  · simp only [sched_at]; rfl
  · intro j h
    rw [Function.comp_apply, sched_at, no_entry j (List.mem_range.mp h)]
/-- The table's entries. -/
def table : List (Nat × List Byte) := (0, entryA) :: (1, entryB) :: (List.range 126).map (fun j => (2 + j, List.replicate 16 0))
theorem feeder_list : (table.filter (fun x => eUnit x.2 == 0)).findIdx? (fun x => eKind x.2 == 0) = some 1 ∧
    (table.filter (fun x => eUnit x.2 == 0)).take (1 + 1) = [(1, entryB), (2, List.replicate 16 0)] := by decide +kernel
theorem drain_list : (table.filter (fun x => eUnit x.2 == 4)).findIdx? (fun x => eKind x.2 == 0) = none ∧
    table.filter (fun x => eUnit x.2 == 4) = [(0, entryA)] := by decide +kernel
theorem unit_all (u : Nat) : unitAll drainFirst u = table.filter (fun x => eUnit x.2 == u) := by
  have n : schedCount drainFirst = 128 := by
    rw [schedCount, drainFirst, List.length_append, setups_length]
    simp only [entries, List.length_append, List.length_replicate]
    decide +kernel
  rw [unitAll, n, sched_list, table]
theorem list_to_end {b : List Byte} {u i : Nat} {l m : List (Nat × List Byte)} (h : unitAll b u = l)
    (f : l.findIdx? (fun x => eKind x.2 == 0) = some i) (t : l.take (i + 1) = m) : unitList b u = m := by
  rw [unitList, h]
  exact (congrArg (fun o : Option Nat => match o with | some i => l.take (i + 1) | none => l) f).trans t
theorem list_without_end {b : List Byte} {u : Nat} {l : List (Nat × List Byte)} (h : unitAll b u = l)
    (f : l.findIdx? (fun x => eKind x.2 == 0) = none) : unitList b u = l := by
  rw [unitList, h]
  exact congrArg (fun o : Option Nat => match o with | some i => l.take (i + 1) | none => l) f
theorem feeder : unitList drainFirst 0 = [(1, entryB), (2, List.replicate 16 0)] :=
  list_to_end (unit_all 0) feeder_list.1 feeder_list.2
theorem drains : unitList drainFirst 4 = [(0, entryA)] := by
  rw [list_without_end (unit_all 4) drain_list.1, drain_list.2]
theorem one_drain (b : List Byte) (h : unitList b 4 = [(0, entryA)]) :
    opCount isOp (unitList b (4 + 0)) started0.n 129 0 128 = 1 ∧
      placeAt isOp b (4 + 0) started0.n (Tbl.get 0 started0.unitOps (0 * 8 + 4 + 0)) = some { entry := 0, x := entryA } := by
  rw [placeAt, show 4 + 0 = 4 from rfl, h]; decide +kernel
theorem hits {sel : List Byte → Bool} {b : List Byte} {u n : Nat} {q p : OpPlace} {hit : OpPlace → Bool} {k i : Nat}
    (h : placeAt sel b u n i = some p) (t : p.before q n = true) (v : hit p = true) :
    anyBefore sel b u n q hit (k + 1) i = true := by
  rw [anyBefore, h]
  exact Bool.and_eq_true_iff.mpr ⟨t, Bool.or_eq_true_iff.mpr (.inl v)⟩
theorem drain_before (s : State) (b : List Byte) (h : unitList b 4 = [(0, entryA)])
    (d : slice b (0x1900 + 64 * 0) 64 = drainRec ++ List.replicate 56 0) :
    s.drainAhead started0 b 0 0 { entry := 1, x := entryB } 0 0 64 = true := by
  have x : drainAt b { entry := 0, x := entryA } = drainRec ++ List.replicate 56 0 := by
    rw [drainAt, show eIndex entryA = 0 by decide +kernel, d]
  rw [State.drainAhead, (one_drain b h).1]
  refine hits (one_drain b h).2 (by decide +kernel) ?_
  rw [x]
  decide +kernel
theorem row_waits (s : State) (b : List Byte) (h : unitList b 4 = [(0, entryA)])
    (l : unitList b 0 = [(1, entryB), (2, List.replicate 16 0)])
    (d : slice b (0x1900 + 64 * 0) 64 = drainRec ++ List.replicate 56 0) (w : setupWord b 0 = leNat setup0)
    (k : fld b (0x500 + 32 * 0) 32 = 4 * 2 ^ 4) (y : s.layout = {}) (z : s.run 3 = some started0)
    (x : ((s.tile 0).ctx started0.plane.slot).bytes = b) (n : (s.pin 0 0 0).posIn 3 started0.cur = { run := 3 }) :
    s.nextRow 3 0 0 0 = some (row1, true) := by
  have r : s.passRec b 0 = ⟨0, 4, 0, 0, false, false, 0, 0, 0, 0, 0, 0, 0, 0, 0, 0, false, 0⟩ := by
    unfold State.passRec; rw [k, y]; decide +kernel
  have u : s.arrSetup b 0 = ⟨0, 0, 3, 3, 0⟩ := by unfold State.arrSetup; rw [w, y]; decide +kernel
  have q : s.pinSetup b 0 0 = ⟨0, 0, 0, 0, 0, 0, 64, 64, 0, 0⟩ := by unfold State.pinSetup; rw [w, y]; decide +kernel
  have i : eIndex entryB = 0 := by decide +kernel
  have p : placeAt (s.isPass b 0) b 0 started0.n 0 = some { entry := 1, x := entryB } := by
    have e : s.isPass b 0 entryB = true := by rw [State.isPass, i, r]; decide +kernel
    have f : eKind entryB = 1 := by decide +kernel
    rw [placeAt, l, opAt]
    simp [e, f]
  have a := drain_before s b h d
  unfold State.nextRow
  simp only [z, x, n, p, i, r, u, q]
  rw [if_neg (by decide +kernel), if_neg (by decide +kernel)]
  exact congrArg some (Prod.mk.injEq _ _ _ _ ▸ ⟨by decide +kernel, a⟩)
theorem pass_waits : drainDue.nextRow 3 0 0 0 = some (row1, true) :=
  row_waits drainDue drainFirst drains feeder drain_at setup_at pass_at rfl rfl rfl (by decide +kernel)

theorem witness_StreamingRowAttempt :
    ((rowWork (.frond 3 0 0 0)).2.2 = true ∧ ({ ctx := true } : EccFound).ctx = true) ∧
    (∀ x ∈ [(working, { row0 with shape := 1, nUsed := 32 }), (working, { row0 with marker := true }),
        (working, { row0 with mode := 2 }), (working, { row0 with src := .stream 5 }), (backedUp, { row0 with chainOut := true }),
        (shadowed 64, { row0 with marker := true }), (working, row0), (contended, row0), (crowded, row0)],
      (x.1.frozen = false ∧ x.1.pwr.paused = none) ∧ (rowWork (.direct x.2)).2.2 = false ∧
      (let z := x.1.eccFound (rowWork (.direct x.2)).2.1 {}
       NamesRow z (.direct x.2) x.2 false ∧ z.issuer 3 = some by3 ∧ by3.live = true ∧ arrClass 3 = some 1 ∧
         rowLegal x.2 = true ∧ (x.2.chainOut = true → chainLink 0 0 x.2.chainTo = true))) ∧
    ((working.pin 0 0 0).active.shape ≠ 1 ∧ (working.pin 0 0 0).active.shape = row0.shape ∧
      (working.pin 0 0 0).active.cls = 1) ∧
    working.markerReady { row0 with marker := true } 1 = false ∧ ((working.tile 0).arr 0).chainQ = [] ∧
    (∃ x ∈ rowStreams { row0 with src := .stream 5 }, ((working.tile 0).queue x.1 0).beats.length < x.2) ∧
    16 ≤ ((backedUp.tile 0).arr 1).chainQ.length ∧
    ((shadowed 64).markerReady { row0 with marker := true } 1 = true ∧
      (((shadowed 64).completeSet { row0 with marker := true }).pin 0 0 0).shadow.lacks = some 0) ∧
    (∀ s ∈ [working, contended, crowded], (s.untilMclk (s.rowSlot row0 1)).mclk = 150000 ∧
      ((s.untilMclk (s.rowSlot row0 1)).rowNotBefore row0 1).1 = 0) ∧
    (working.askBanks 0 (reqKey 0 0) (rowWords row0)).1 = .granted ∧
    (contended.askBanks 0 (reqKey 0 0) (rowWords row0)).1 = .refused ∧
    (crowded.askBanks 0 (reqKey 0 0) (rowWords row0)).1 = .bound ∧
    (drainDue.frozen = false ∧ drainDue.pwr.paused = none ∧ NamesRow drainDue (.frond 3 0 0 0) row1 true ∧
      (drainDue.eccFound 0 {}).issuer 3 = some ⟨0, 7, 0, 1, true⟩ ∧ rowLegal row1 = true) := by
  simp only [NamesRow, pass_waits]
  and_intros <;> decide +kernel

def slotRow (src : Feed) : SlotRow := { work := 3, tile := 0, array := 0, pn := 0, shape := 0, fmt := 3, part := 0, src := src,
                                        pitch := 64, scale := 0, scaleStream := false, transpose := false, kUsed := 64, nUsed := 64 }

theorem witness_SlotRowEntersShadowSet :
    ((slotWork (.frond 3 0 0)).2.2 = true ∧ ({ ctx := true } : EccFound).ctx = true) ∧
    (∀ s ∈ [shadowed 64, shadowed 63, working, contended, crowded], ∀ f ∈ [Feed.store 0, .stream 5],
      (s.frozen = false ∧ s.pwr.paused = none) ∧ (slotWork (.direct (slotRow f))).2.2 = false ∧
      (let z := s.eccFound 0 {}
       NamesSlot z (.direct (slotRow f)) (slotRow f) false ∧ z.issuer 3 = some by3 ∧ by3.live = true ∧ arrClass 3 = some 1 ∧
         0 < shapePins 0 ∧ (slotRow f).transpose = false)) ∧
    (0 < ((shadowed 64).pin 0 0 0).shadow.need ∧ ((shadowed 64).pin 0 0 0).shadow.rows = 64) ∧
    (((shadowed 63).pin 0 0 0).shadow.rows ≠ 64 ∧ (working.pin 0 0 0).shadow.need = 0) ∧
    (∃ x ∈ slotStreams (slotRow (.stream 5)) 1 0, ((working.tile 0).queue x.1 2).beats.length < x.2) ∧
    slotStreams (slotRow (.store 0)) 1 0 = [] ∧
    (working.askBanks 0 (reqKey 2 0) (slotWords (slotRow (.store 0)) 1 0)).1 = .granted ∧
    (contended.askBanks 0 (reqKey 2 0) (slotWords (slotRow (.store 0)) 1 0)).1 = .refused ∧
    (crowded.askBanks 0 (reqKey 2 0) (slotWords (slotRow (.store 0)) 1 0)).1 = .bound ∧
    (∀ n, (slotRow (.store 0)).src ≠ .stream n) ∧ (slotRow (.store 0)).scaleStream = false ∧
      (working.slotValues (slotRow (.store 0)) 1 63 0 0 (fun _ => false) nullBeat).2 = false := by
  simp only [NamesSlot]
  refine ⟨?_, ?_, ?_, ?_, ?_, ?_, ?_, ?_, ?_, fun n => by simp [slotRow], ?_, ?_⟩ <;> decide +kernel

/-- A descriptor of n rows of one column from row r: a drain to tile store or to the stream 5, or a FILL. -/
def drainB (fill stream : Bool) (r n : Nat) : List Byte :=
  leBytes 8 (2 * b01 fill + r * 2 ^ 2 + n * 2 ^ 12 + 2 ^ 29 + 2 ^ 50 * b01 stream) ++ leBytes 8 (if stream then 5 else 0) ++
    List.replicate 48 0
def refD (b : List Byte) : OpRef := ⟨3, 0, b, [], 0, 0, 0, 1, none, []⟩
/-- The stream's source holds n beats; the array's unit stands at row 1 of a drain of three rows. -/
def sourced (n : Nat) : State := working.modTile 0 (fun x => { x with srcs := [(5, { buf := List.replicate n beat })] })
def atRow1 (fill stream : Bool) : DrainRun := { op := refD (drainB fill stream 0 3), start := 149999, row := 1 }
def draining (d : DrainRun) : State := working.modArr 0 0 (fun x => { x with drain := some d })

theorem resolve_direct (s : State) (d r : List Byte) (k : Nat) :
    s.resolve (.direct 3 0 d r 1 []) k = some (⟨3, 0, d, r, 0, 0, 0, 1, none, []⟩, none) := rfl

theorem witness_DrainAndFillRows :
    ((working.eccFound 0 {}).frozen = false ∧ (working.eccFound 0 {}).pwr.paused = none ∧
      ((working.eccFound 0 {}).tile 0).ma0.drain = none ∧ ((working.eccFound 0 {}).tile 0).ma1.drain = none ∧
      (working.eccFound 0 {}).issuer 3 = some by3 ∧ by3.live = true) ∧
    (∀ b, refEntry (.direct 3 0 b [] 1 []) = false ∧ (working.eccFound 0 {}).resolve (.direct 3 0 b [] 1 []) 0 = some (refD b, none)) ∧
    (∀ f, drainBad (drainB f false 0 3) = false ∧ dFill (drainB f false 0 3) = f ∧ drainOver 0 (drainB f false 0 3) = false ∧
      (working.eccFound 0 {}).drainWaits (refD (drainB f false 0 3)) none = false ∧
      drainOver 0 (drainB f false 1022 3) = true) ∧
    (∀ f, (((draining (atRow1 f false)).eccFound 0 {}).tile 0).ma0.drain = some (atRow1 f false) ∧
      refNames (.direct 3 0 (drainB f false 0 3) [] 1 []) (atRow1 f false).op = true ∧
      dFill (atRow1 f false).op.desc = f ∧ ((draining (atRow1 f false)).eccFound 0 {}).goesOn 3 = some by3) ∧
    (∀ x ∈ [(0, 3), (7, 2), (8, 1)], 0 < (atRow1 false true).row ∧
      ((sourced x.1).drainRows (refD (drainB false true 0 3)) by3 0 2 1).1 = x.2) ∧
    (dDest (drainB false true 0 3) = 1 ∧ (sourced 8).sourceFull 0 (dw (drainB false true 0 3) 64 16)
        (drainBeats (drainB false true 0 3)) = true ∧
      (sourced 7).sourceFull 0 (dw (drainB false true 0 3) 64 16) (drainBeats (drainB false true 0 3)) = false) := by
  refine ⟨by decide +kernel, fun b => ⟨rfl, resolve_direct _ b [] 0⟩, by decide +kernel, by decide +kernel, by decide +kernel, by decide +kernel⟩

/-- A chain that loads FP32 from tile store and stores it to tile store or stream 6, of one element. -/
def chainB (out : Bool) : List Byte := leBytes 64 2 ++ leBytes 16 1 ++
  leBytes 16 (8 + 15 * 2 ^ 16 + (if out then 2 * 2 ^ 20 + 6 * 2 ^ 32 else 0x1000 * 2 ^ 32)) ++ List.replicate 160 0
def recB : List Byte := leBytes 2 0 ++ leBytes 4 1 ++ List.replicate 10 0
def refV (t : Nat) (b : List Byte) : OpRef := ⟨3, t, b, recB, 0, 0, 0, 1, none, []⟩
/-- The source of stream 6 is full, or not; an invocation that it holds. -/
def sourced6 (full : Bool) (s : State) : State := s.modTile 0 (fun x => { x with
  srcs := [(6, { buf := List.replicate (if full then 8 else 0) beat })] })
def heldV : VRun := { op := refV 0 (chainB true), start := 149990, prog := { mclk := 5 } }
def holding : State := working.modVec 0 (fun v => { v with run := some heldV })
/-- A chain whose one VECTOR stage, with its block at 0xC00, is in its first iteration. -/
def vectorSt : List Byte := cmd 2 [(4, 4, 1), (8, 8, 0xC00)]
def fused0 : Fused := { id := 3, q := 0, part := 0, stages := [vectorSt], started := [1], completed := [0], handed := [0],
                        swapped := [0], doneAt := [0] }
def fusing (out : Bool) : State := sourced6 true { (live.modWork (fun w => { w with fused := [fused0] })) with
  mem := ((List.range 272).zip (chainB out ++ recB)).filterMap (fun (i, b) => if b = 0 then none else some (0xC00 + i, b)) }
/-- The invocation's chain, run from its beginning. -/
def went (full : Bool) : ChainRun × Option Nat :=
  let s := sourced6 full working
  let env := s.chainEnv (refV 0 (chainB true)) by3 (chainB true) recB 64
  ChainRun.go s 0 env (chainB true) (vDepths (chainB true)) (vSpan env (chainB true)) { toVProg := {}, s := s }

theorem witness_InvocationRow :
    (refEntry (.direct 3 0 (chainB false) recB 1 []) = false ∧ working.frozen = false ∧ working.pwr.paused = none ∧
      (let z := working.eccFound 0 {}
       z.work.fused = [] ∧ (z.vec 0).run = none ∧ z.issuer 3 = some by3 ∧ by3.live = true ∧
         ∀ b, z.resolve (.direct 3 0 b recB 1 []) 1 = some (refV 0 b, none))) ∧
    (∀ o, slice (chainB o) 0 256 = chainB o ∧ slice recB 0 16 = recB ∧ recordBad (chainB o) recB = none ∧
      ∀ u, chainBadAt (chainB o) u = none) ∧
    (let z := holding.eccFound 0 {}
     holding.frozen = false ∧ holding.pwr.paused = none ∧ z.work.fused = [] ∧ (z.vec 0).run = some heldV ∧
       refNames (.direct 3 0 (chainB true) recB 1 []) heldV.op = true ∧ z.goesOn 3 = some by3) ∧
    ((went false).2 = none ∧ ((went false).1.flush ((sourced6 false working).chainEnv (refV 0 (chainB true)) by3
        (chainB true) recB 64) (chainB true)).taint = none) ∧
    ((went true).2.isSome = true ∧ (went true).2 ≠ some 1 ∧ 0 < (went true).1.mclk) ∧
    (∀ o, (fusing o).frozen = false ∧ (fusing o).pwr.paused = none ∧
      (fusing o).work.fused.find? (fun y => y.id == 3) = some fused0 ∧ (fusing o).dueStage fused0 0 = some 0 ∧
      (fusing o).vectorBlock 0 vectorSt = (chainB o, recB) ∧
      (let v := (fusing o).untilMclk (fused0.goAt 0)
       v.issuer 3 = some ⟨0, 3, 0, 0, true⟩ ∧ (v.vec 0).run = none ∧
         ((v.invoke { refV 0 (chainB o) with step := 0 } ⟨0, 3, 0, 0, true⟩ (chainB o) recB).vec 0).run.isSome = o)) := by
  refine ⟨⟨rfl, by decide +kernel, by decide +kernel, by decide +kernel, by decide +kernel, by decide +kernel, by decide +kernel,
    fun b => resolve_direct _ b recB 1⟩, by decide +kernel, by decide +kernel, by decide +kernel, by decide +kernel, by decide +kernel⟩

/-! ### Operators and updates -/

def op0 : OpRun := { id := 3, owner := 4, q := 1, part := 0, arg := disk.rdAt 0 0x400 256, obj := 0, items := 2, want := 1 }
/-- The same on tile 0: requester 0 took 1 in sequence 4; index 1 is granted, index 0 reported. -/
def op1 (obj : Nat) (stopping : Bool) : OpRun := { op0 with id := 5, obj := obj, start := some 5, tiles := [0], kept := [(0, (4, 1))],
                                                            grants := [(0, 0), (1, 0)], done := [0], stopping := stopping }
def operators (l : List OpRun) : State := live.modWork (fun w => { w with ops := l })

/-- The tiles that the operator would select. -/
def chosen (s : State) : List Nat :=
  let free := s.freeTiles 0
  ((roundRobin ((List.range s.nDies).map (fun d => s.firstDie 0 + d)) free.length free).take (min (min free.length (itemsOf op0.arg))
    (if aMax op0.arg = 0 then free.length else aMax op0.arg))).foldl setIns []
/-- Both tiles sleep; both hold a plane. -/
def dozing : State := (operators [op0]).modPwr (fun p => { p with scopes := [(0, { code := 1 }), (1, { code := 1 })] })
def claimed : State := [0, 1].foldl (fun s t => s.modCtx t 0 (fun x => { x with st := 2 })) (operators [op0])

theorem witness_OperatorRows :
    (∀ s ∈ [dozing, claimed], s.frozen = false ∧ s.pwr.paused = none ∧ s.work.ops.find? (fun x => x.id == 3) = some op0 ∧
      s.work.ops.find? (fun x => x.part == 0 && x.start.isNone) = some op0 ∧ s.clk.origin.isSome = true) ∧
    (chosen dozing = [0] ∧ dozing.tileAwake 0 = false ∧ claimed.freeTiles 0 = [] ∧
      ∀ t ∈ chosen (operators [op0]), (operators [op0]).tileAwake t = true) ∧
    (∀ l ∈ [[op1 0 false], (List.range 8).map (fun i => op1 (i + 1) false), []],
      (operators (l ++ [op0])).frozen = false ∧ (operators (l ++ [op0])).pwr.paused = none ∧
      (operators (l ++ [op0])).work.ops.find? (fun x => x.id == 3) = some op0 ∧
      (operators (l ++ [op0])).work.ops.find? (fun x => x.part == 0 && x.start.isNone) = some op0 ∧ op0.stopping = false ∧
      (operators (l ++ [op0])).clk.origin.isSome = true ∧ (operators (l ++ [op0])).freeTiles 0 = [0, 1]) ∧
    (((op1 0 false).holds = true ∧ (op1 0 false).obj = op0.obj) ∧
      (((List.range 8).map (fun i => op1 (i + 1) false)).filter (fun x => x.holds && x.obj / 32768 == 0)).length = 8 ∧
      ∀ x ∈ (List.range 8).map (fun i => op1 (i + 1) false), x.obj ≠ op0.obj) ∧
    (∀ b, (operators [op1 0 b]).work.ops.find? (fun x => x.holds && x.obj == 0) = some (op1 0 b) ∧
      (operators [op1 0 b]).physTile 0 0 ∈ (op1 0 b).tiles ∧ ((operators [op1 0 b]).obj 0).type = 0 ∧
      Tbl.find (op1 0 b).kept 0 = some (4, 1) ∧ ∀ v, Tbl.find (op1 0 b).kept 0 ≠ some (5, v)) ∧
    ((operators [op1 0 false]).work.ops.find? (fun x => x.id == 5) = some (op1 0 false) ∧ (op1 0 false).start.isSome = true ∧
      0 ∈ (op1 0 false).tiles ∧ 0 ∈ (op1 0 false).done ∧ ¬(1 ∈ (op1 0 false).done) ∧
      (1, (operators [op1 0 false]).localTile 0) ∈ (op1 0 false).grants) := by
  refine ⟨by decide +kernel, by decide +kernel, by decide +kernel, by decide +kernel,
    fun b => ⟨?_, ?_, ?_, rfl, fun v => by simp [op1, op0, Tbl.find]⟩, by decide +kernel⟩ <;>
    cases b <;> decide +kernel

/-- An UPDATE_STEP over the group whose record stands at 0x600, with that many blocks of each phase done of two. -/
def upd0 (a b : Nat) : Update := { id := 3, q := 0, part := 0, kind := 0, table := 0x600,
                                   groups := [{ index := 0, cls := 5, blocks := 2, aDone := a, bDone := b }] }
def updating (a b : Nat) : State := disk.modWork (fun w => { w with updates := [upd0 a b] })

theorem witness_UpdatePhases : ∀ x ∈ [(0, 0), (2, 0), (2, 1)],
    (updating x.1 x.2).frozen = false ∧ (updating x.1 x.2).pwr.paused = none ∧ (updating x.1 x.2).upd 3 = some (upd0 x.1 x.2) ∧
    ∃ g, (upd0 x.1 x.2).current = some g ∧ g.cls = 5 ∧ (updating x.1 x.2).planeServes (upd0 x.1 x.2) = true ∧
      gAddr ((updating x.1 x.2).groupCtx (upd0 x.1 x.2) g).r oRule = 0 ∧ g.blocks = 2 ∧ (upd0 x.1 x.2).stopping = false ∧
      ((g.aDone = 0 ∧ 0 ≤ g.bDone + 1) ∨ (g.bDone = 0 ∧ min (0 + 2) g.blocks ≤ g.aDone) ∨
        (g.bDone = 1 ∧ min (1 + 2) g.blocks ≤ g.aDone)) := by
  intro x h
  simp only [List.mem_cons, List.not_mem_nil, or_false] at h
  rcases h with rfl | rfl | rfl
  · exact ⟨by decide +kernel, by decide +kernel, by decide +kernel, _, rfl, by decide +kernel⟩
  · exact ⟨by decide +kernel, by decide +kernel, by decide +kernel, _, rfl, by decide +kernel⟩
  · exact ⟨by decide +kernel, by decide +kernel, by decide +kernel, _, rfl, by decide +kernel⟩

/-! ### Gwynlink -/

/-- Transaction t is next in an inbox of partition 0. -/
def got (s : State) (vc : Nat) (t : Txn) : State := s.modPart 0 (fun x => x.setInbox vc [⟨0, 0, t⟩])
def head (vc : Nat) (s : State) (t : Txn) : Prop := Head (got s vc t) 0 vc ⟨0, 0, t⟩ []

/-- Remote writes may reach every address; node 2 has had sequence 9 answered. -/
def window : State := live.modPart 0 (fun x => { x with rxBase := 0, rxLimit := 0x1FFFFFFF, rxSeq := [(2, (9, 0))] })
def write32 : Txn := { type := 1, src := 2, addr := 0x1000, data := List.replicate 32 1 }
/-- SYNC_REQ of operation op on an object, in sequence n. -/
def sync (n id op : Nat) : Txn := { type := 3, src := 2, tseq := n, addr := id + op * 2 ^ 18, data := leBytes 8 1 ++ List.replicate 24 0 }
def remote0 : Remote := ⟨7, 0, 0, 2, 4, 0⟩
def signalled : State := live.modWork (fun w => { w with remotes := [remote0] })
/-- Eight partitions: one die each. -/
def eight : State := window.modMod (fun m => { m with partCount := 8 })

theorem witness_RemoteTransactions :
    (frozenState.frozen = true ∧ (live.modMod (fun m => { m with changeBusy := true })).mod.changeBusy = true ∧
      ((live.modPart 0 (fun x => { x with nodeHeld := true })).part 0).nodeHeld = true ∧
      (live.modPwr (fun p => { p with scopes := [(2048, { code := 2 })] })).partAwake 0 = false) ∧
    (head 0 window write32 ∧ write32.type = 1 ∧
      (let u := taken (got window 0 write32) 0 0 ⟨0, 0, write32⟩ []
       (u.part 0).rxBase.toNat ≤ (u.part 0).rxLimit.toNat ∧ (u.part 0).rxBase.toNat * 4096 ≤ 0x1000 ∧
         0x1000 + 32 ≤ ((u.part 0).rxLimit.toNat + 1) * 4096 ∧ 0x1000 < stagingRegion ∧
         ∀ i < 32, (u.addrKey 0 (0x1000 + i)).isSome = true)) ∧
    (head 0 live write32 ∧ ¬(live.part 0).rxBase.toNat ≤ (live.part 0).rxLimit.toNat) ∧
    head 1 live { type := 2 } ∧
    (head 0 window (sync 9 1 5) ∧ Tbl.find (window.part 0).rxSeq (bits (sync 9 1 5).addr 15 3 * 4096 + 2) = some (9, 0)) ∧
    (head 0 eight (sync 8 0x8000 5) ∧ eight.objOk 0x8000 = false) ∧
    (head 0 window (sync 8 1 0) ∧ window.objOk 1 = true ∧ opListed 0 = false) ∧
    (head 0 window (sync 8 1 5) ∧ opListed 5 = true ∧ operandBad 5 1 = false ∧ window.typeBad 0 1 (opType 5) = false ∧
      bits (sync 8 1 5).addr 0 18 = 1 ∧ bits (sync 8 1 5).addr 18 8 = 5 ∧ leNat ((sync 8 1 5).data.take 8) = 1 ∧
      Tbl.find (window.part 0).rxSeq 2 ≠ some (8, 0)) ∧
    (head 1 signalled { type := 4, src := 2, tseq := 4 } ∧
      takeFirst (fun r : Remote => r.part == 0 && r.node == 2 && r.tseq == 4) signalled.work.remotes = some (remote0, [])) := by
  simp only [head, Head]
  and_intros <;> decide +kernel

/-- A frame from member 1 (node 2) of job 1, COLL_ID 1. -/
def hdr (op seq contrib epoch : Nat) : CollHdr := { job := 1, epoch := epoch, coll := 1, seq := seq, rank := 1, contrib := contrib, op := op }
def collTxn (type : Nat) (h : CollHdr) : Txn := { type := type, src := 2, data := h.encode ++ List.replicate 64 0 }
/-- A collective in progress, at the job's epoch, that has seen these frames. -/
def inJob (c : Coll) (epoch : Nat) (done : List Nat) : State := (disk.modWork (fun w => { w with colls := [c] })).modPart 0
  (fun x => { x with jobs := [{ id := 1, epoch := epoch, done := done }] })
/-- An ALL_REDUCE of 64 elements, a PERMUTE and a KV_RING between the nodes 1 and 2. -/
def reduce0 : Coll := { coll0 with desc := cmd 1 [(4, 4, 1), (8, 4, 1), (64, 8, 64), (72, 2, 2)] }
def permute0 : Coll := { coll0 with desc := cmd 5 [(4, 4, 1), (8, 4, 1), (48, 8, 0x100), (72, 2, 2)] }
def kv0 : Coll := { coll0 with op := 0x52, desc := cmd 1 [(4, 4, 1), (8, 2, 2), (10, 2, 1), (12, 2, 1), (16, 4, 64)] }
/-- A collective of the list and a frame for it that its collective has not seen. -/
def fresh (c : Coll) (type : Nat) (h : CollHdr) : Prop :=
  let s := got (inJob c 0 []) 2 (collTxn type h)
  let u := taken s 0 2 ⟨0, 0, collTxn type h⟩ []
  let k := decodeColl (collTxn type h).data
  s.frozen = false ∧ s.mod.changeBusy = false ∧ (s.part 0).nodeHeld = false ∧ s.partAwake 0 = true ∧ (s.part 0).inbox 2 = [⟨0, 0, collTxn type h⟩] ∧ k = h ∧
    u.jobEpoch 0 k.job ≤ k.epoch ∧ (u.job 0 k.job).all (fun j => !(j.done.contains k.coll)) = true ∧ named u 0 k = some c ∧
    k.ident (type == 5) (c.op == 0x52) ∉ c.seen ∧
    ((noted u (collTxn type h) c k).coll 3).any (fun d => d.op == c.op && d.desc == c.desc && d.rank == 0 && d.swaps == 0 &&
      (segOf ((noted u (collTxn type h) c k).planFor d 0) 1 0).isSome == (d.op == 0x50 && d.kind == 1)) = true

/-- The same collective once it has seen that frame. -/
def seen0 : Coll := { coll0 with seen := [(hdr 1 0 1 0).ident false false] }
def manyClears : State := got ((inJob seen0 0 []).modPart 0 (fun x => { x with clears := List.replicate 8192 { type := 6 } })) 2
  (collTxn 6 { hdr 1 0 1 0 with coll := 2 })

theorem witness_CollectiveFrames :
    ((inJob coll0 1 []).jobEpoch 0 1 = 1 ∧ (hdr 1 0 1 0).epoch < 1 ∧ head 2 (inJob coll0 1 []) (collTxn 6 (hdr 1 0 1 0))) ∧
    ((inJob coll0 0 [1]).job 0 1 = some { id := 1, epoch := 0, done := [1] } ∧
      head 2 (inJob coll0 0 [1]) (collTxn 6 (hdr 1 0 1 0)) ∧ (decodeColl (collTxn 6 (hdr 1 0 1 0)).data).coll = 1) ∧
    (named (inJob seen0 0 []) 0 (hdr 1 0 1 0) = some seen0 ∧ (hdr 1 0 1 0).ident false (seen0.op == 0x52) ∈ seen0.seen) ∧
    (fresh permute0 5 (hdr 0 0 1 0) ∧ permute0.kind = 5 ∧ 0 + 1 ≤ cdDstScale permute0.desc) ∧
    (fresh kv0 5 (hdr 0 0 1 0) ∧ kv0.pred = 1 ∧ (hdr 0 0 1 0).contrib = kv0.swaps + 1 ∧
      0 < kvTiles kv0.desc * kvSegs kv0.desc) ∧
    (fresh reduce0 5 (hdr 0 0 1 0) ∧ reduce0.kind ≠ 5) ∧ (∀ op ∈ [1, 2, 5, 6], fresh coll0 6 (hdr op 0 1 0)) ∧
    (named (inJob seen0 0 []) 0 { hdr 1 0 1 0 with coll := 2 } = none ∧
      head 2 (inJob seen0 0 []) (collTxn 6 { hdr 1 0 1 0 with coll := 2 }) ∧ ((inJob seen0 0 []).part 0).clears.length < 8192) ∧
    8192 ≤ (manyClears.part 0).clears.length ∧
    (∀ op ∈ [0, 7, 3, 4], fresh coll0 6 (hdr op 0 1 0)) := by
  simp only [head, Head, fresh]
  refine ⟨?_, ?_, ?_, ?_, ?_, ?_, ?_, ?_, (List.length_replicate (n := 8192) (a := ({ type := 6 } : Txn))).ge, ?_⟩
  all_goals and_intros <;> decide +kernel

/-- The pair of partition 0 in a state, with node 2 over port 0. -/
def pairedAs (st : BitVec 3) : State := live.onPair 0 (fun y => { y with st := st, partner := 2, ports := 1 })
def mirror (type kind src : Nat) : Txn := { type := type, src := src, addr := 0x1000 + kind * 2 ^ 52, data := List.replicate 32 0 }

theorem witness_PairFrames :
    (∀ k ∈ [0, 1, 2, 3, 4, 5, 6], head 3 (pairedAs 2) (mirror 7 k 2) ∧ head 3 (pairedAs 2) (mirror 7 k 3) ∧
      bits (mirror 7 k 2).addr 52 4 = k ∧ head 3 (pairedAs 1) (mirror 7 k 2) ∧ head 3 (pairedAs 0) (mirror 7 k 3)) ∧
    (∀ k ∈ [0, 1, 2, 4], ((taken (got (pairedAs 2) 3 (mirror 7 k 2)) 0 3 ⟨0, 0, mirror 7 k 2⟩ []).part 0).pair.st = 2 ∧
      ((taken (got (pairedAs 2) 3 (mirror 7 k 2)) 0 3 ⟨0, 0, mirror 7 k 2⟩ []).part 0).pair.partner = 2) ∧
    (head 3 (pairedAs 2) (mirror 8 0 2) ∧ head 3 (pairedAs 2) (mirror 8 0 3)) ∧
    (let f := (pairedAs 2).modDbg (fun d => { d with frozenAt := some 600000 })
     (pairedAs 2).partOfPort 0 = 0 ∧ bit ((pairedAs 2).part 0).pair.ports 0 = true ∧ bit ((pairedAs 2).part 0).pair.ports 1 = false ∧
       ((pairedAs 2).part 0).pair.partner = 2 ∧ (f.onPair 0 (fun y => { y with lastHb := f.clk.live })).frozen = true ∧
       ((pairedAs 2).onPair 0 (fun y => { y with lastHb := 0 })).frozen = false) ∧
    ((pairedAs 2).frozen = false ∧ ((pairedAs 2).part 0).pair.st = 2 ∧ (pairedAs 0).frozen = false ∧
      ((pairedAs 0).part 0).pair.st ≠ 2 ∧ ((pairedAs 0).part 0).pair.ports ≠ 0) := by
  simp only [head, Head]
  and_intros <;> decide +kernel

def frameOf (seq : Nat) : Frame := { seq := seq, vc := 0, cls := 0, hops := 0, txn := { type := 1, src := 2, dest := 1, data := List.replicate 32 1 } }
/-- Port 0 UP with a link that has frames in the three places. -/
def linkWith (unacked replay txq : List Frame) : State := (live.modPort 0 (fun x => { x with enable := true, st := 2 })).modLink 0
  (fun l => { l with unacked := unacked, replay := replay, txq := txq, left := 1 })
/-- No lane of the port in service. -/
def noLanes : State := (List.range 8).foldl (fun s j => s.modLane j (fun x => { x with st := 1 })) (linkWith [] [] [])
def linkHeld : State := (linkWith [] [] [frameOf 0]).modLink 0 (fun l => { l with held := true })

theorem witness_LinkSlots :
    ((live.port 0).up = false ∧ ((linkWith [] [] []).port 0).up = true ∧ ((linkWith [] [] []).link 0).rxNext.toNat = 0) ∧
    frameCrcOk [] = false ∧ 15 < 16 ∧ 15 ≤ 15 ∧
    (∀ x ∈ [(0, 0), (0, 1), (1, 0), (2, 0)], frameCrcOk ((frameOf x.2).encode x.1 0 false) = true ∧
      decodeFrame ((frameOf x.2).encode x.1 0 false) = (x.1, 0, false, frameOf x.2) ∧
      (((linkWith [] [] []).acked 0 0 false).link 0).rxNext.toNat = 0) ∧
    (((linkWith [frameOf 0] [] []).port 0).up = true ∧ ((linkWith [frameOf 0] [] []).link 0).unacked ≠ []) ∧
    ((linkWith [] [] []).nextLane 0 = some 0 ∧ noLanes.nextLane 0 = none ∧ (live.port 0).up = false) ∧
    (let s := (linkWith [] [frameOf 0] []).passSlots 0 16
     (s.port 0).up = true ∧ (s.part 0).nodeHeld = false ∧ (s.link 0).replay = [frameOf 0]) ∧
    (let s := linkHeld.passSlots 0 16
     (s.port 0).up = true ∧ (s.part 0).nodeHeld = false ∧ (s.link 0).replay = [] ∧ (s.link 0).held = true) ∧
    (∀ q ∈ [[], [frameOf 0]],
      let s := (linkWith [] [] q).passSlots 0 16
      s.frozen = false ∧ (s.link 0).held = false ∧ (s.part 0).nodeHeld = false ∧ (s.part 0).quiescing = false ∧
      (s.port 0).up = true ∧ (s.link 0).replay = [] ∧
      ((s.link 0).choose (s.port 0).weights).isSome = decide (q ≠ [])) := by
  and_intros <;> decide +kernel

/-- A port in a state, of a machine past F5; LANE_SEL and PORT_SEL on a lane and a port. -/
def portIn (st : BitVec 3) (en : Bool) : State := live.modPort 0 (fun x => { x with st := st, enable := en })
def selecting (lane : BitVec 8) (port : BitVec 5) (en : Bool) : State := { portIn 0 en with sel := { lane := lane, port := port } }
def laneOut : State := live.modLane 0 (fun x => { x with st := 1 })

/-- Lane 0's tap 5 took a step half a microsecond ago. -/
def stepped : State := live.modLane 0 (fun x => { x with eqAt := [(5, 597001)] })

theorem witness_PortsAndLanes :
    ((stepped.lane 0).st = 0 ∧ 0 < Tbl.get 0 (stepped.lane 0).eqAt 5 ∧
      stepped.clk.root + 1 < Tbl.get 0 (stepped.lane 0).eqAt 5 + 6000 ∧ Tbl.get 0 (live.lane 0).eqAt 21 = 0) ∧
    (((portIn 5 true).port 0).st = 5 ∧ ((portIn 0 true).port 0).st ≠ 5 ∧ ((portIn 0 true).port 0).up = false ∧
      ((portIn 2 true).port 0).up = true) ∧
    (((portIn 2 true).port 0).st ≠ 1 ∧ ((portIn 1 true).port 0).st = 1) ∧
    (((portIn 4 true).port 0).st = 4 ∧ ((portIn 4 true).port 0).autoRetrain = true) ∧
    ((live.lane 0).st = 0 ∧ 4096 < 2 * 2 ^ (live.lane 0).serLimit.toNat ∧ ¬(8192 < 2 * 2 ^ (live.lane 0).serLimit.toNat) ∧
      ¬((live.lane 0).uncorrLimit.toNat < 16) ∧ ¬(16 < (live.lane 0).marginLimit.toNat) ∧ (laneOut.lane 0).st ≠ 0) ∧
    (∀ l ∈ [0, 143, 144], ∀ en, (selecting l 0 en).laneServed = true ∧ (selecting l 0 en).sel.lane = l ∧
      ((selecting l 0 en).port 0).enable = en) ∧
    ((selecting 0 17 true).laneServed = true ∧ (selecting 0 18 true).laneServed = true ∧ (selecting 0 18 true).sel.port.toNat = 18 ∧
      bit 1 0 = true ∧ bit 0 0 = false) ∧
    State.reset.laneServed = false := by
  and_intros <;> decide +kernel

/-! ### Freeze, break, counters, partitions -/

/-- HALT_N low; node 3's FREEZE in sequence 1 received; frozen and released. -/
def haltLow : State := live.modPins (fun x => { x with haltN := false })
def frozenBy : State := ((linkWith [] [] []).modDbg (fun d => { d with peers := [3 * 65536 + 1], seen := [3 * 65536 + 1] }))
def releasing : State := live.modDbg (fun d => { d with frozenAt := some 600000, releasedAt := some 600100 })

/-- FREEZE_REQ set, of a machine that it froze. -/
def requested : State := frozenState.modDbg (fun d => { d with freezeReq := true })

theorem witness_FreezeRows :
    ((live.pins.haltN = true ∧ live.dbg.freezeReq = false) ∧ (haltLow.pins.haltN = false ∧ haltLow.dbg.freezeReq = false) ∧
      requested.dbg.freezeReq = true) ∧
    (State.reset.allServed = false ∧ live.allServed = true ∧ haltLow.allServed = true ∧ requested.allServed = true ∧
      requested.pins.haltN = true ∧ bit 1 0 = true ∧ bit 0 0 = false) ∧
    (3 * 65536 + 1 ∈ frozenBy.dbg.seen ∧ 3 * 65536 + 1 ∉ live.dbg.seen ∧ 3 * 65536 + 1 ∉ live.dbg.peers ∧
      3 * 65536 + 1 % 65536 ∈ frozenBy.dbg.peers) ∧
    live.dbg.frozenAt = none ∧ (frozenState.dbg.frozenAt = some 600000 ∧ frozenState.dbg.releasedAt = none) ∧
    (releasing.dbg.frozenAt = some 600000 ∧ releasing.dbg.releasedAt = some 600100) ∧ 0 < 4 := by
  and_intros <;> decide +kernel

/-- The break is hit and a run held by it, or none. -/
def broken (l : List Run) : State := (live.modDbg (fun d => { d with brkEnable := true, brkHit := true })).modWork (fun w => { w with runs := l })

theorem witness_BreakAndCounters :
    (live.allServed = true ∧ live.dbg.brkHit = false ∧ bit 0 2 = false ∧ bit 4 2 = true ∧ bit 0 0 = false ∧ bit 1 0 = true) ∧
    (let s := (broken []).modDbg (fun d => { d with frozenAt := some 600000 })
     s.allServed = true ∧ s.dbg.brkHit = true ∧ (s.modDbg (fun d => { d with
       brkEnable := false, brkPlane := 0, brkMb := 0, brkHit := false })).frozen = true) ∧
    (let w := ((broken [held 1 150000 3]).modDbg (fun d => { d with brkEnable := false, brkPlane := 0, brkMb := 0 })).modDbg
       (fun d => { d with brkHit := false, brkEnable := false })
     (broken [held 1 150000 3]).dbg.brkHit = true ∧ w.frozen = false ∧ w.pwr.paused = none ∧
       (held 1 150000 3).hold = some { cause := 1, since := 150000, cls := 3 } ∧
       w.work.runs.find? (fun r => match r.hold with | some h => h.cause == 1 | none => false) = some (held 1 150000 3)) ∧
    ((broken []).allServed = true ∧ (broken []).dbg.brkHit = true ∧ (broken []).work.runs = [] ∧ (broken []).frozen = false) ∧
    State.reset.allServed = false ∧
    (live.frozen = false ∧ (live.part (live.partOfSrc 0)).trace.running = false ∧ tracing.frozen = false ∧
      (tracing.part (tracing.partOfSrc 0)).trace.running = true) := by
  and_intros <;> decide +kernel

/-- No queue is enabled: a partition change is allowed. -/
def idle : State := { live with queues := [], qwork := [] }
/-- TILE_SEL names a tile; the pair 1 of tile 0 takes the range from 0. -/
def tileSel (t : BitVec 11) : State := { live with sel := { tile := t } }
def clashing : State := (tileSel 0).modPair 0 1 (fun h => { h with enable := true })

theorem witness_PartitionRows :
    (idle.modServed = true ∧ idle.mayChange = true ∧ bits 1 0 4 ∈ [1, 2, 4, 8] ∧ bits (8 + 16 * 64) 0 4 ∈ [1, 2, 4, 8] ∧
      bits (8 + 16 * 64) 4 7 ≤ 64 ∧ ¬bits (8 + 16 * 65) 4 7 ≤ 64 ∧ ¬bits 3 0 4 ∈ [1, 2, 4, 8] ∧ live.mayChange = false) ∧
    (State.reset.modServed = false ∧ State.reset.laneServed = false) ∧
    (live.frozen = false ∧ live.mod.changeTo = none ∧
      (idle.modMod (fun m => { m with changeTo := some (2, 0) })).mod.changeTo = some (2, 0)) ∧
    ((tileSel 0).laneServed = true ∧ (tileSel 0).listed 0 = true ∧ (tileSel 2).laneServed = true ∧ (tileSel 2).listed 2 = false ∧
      ¬(tileSel 1152).sel.tile.toNat < 1152) ∧
    (bit 1 0 = true ∧ bits 1 2 4 ≤ 9 ∧ bits 1 8 11 % 2 ^ (bits 1 2 4 + 1) = 0 ∧
      bits 1 8 11 * 4096 + 2 * 4096 * 2 ^ bits 1 2 4 ≤ 0x600000 ∧ ((tileSel 0).tile 0).pairClash 0 0 0 = false ∧
      (clashing.tile 0).pairClash 0 0 0 = true ∧ clashing.listed 0 = true ∧ clashing.laneServed = true) ∧
    (bit (1 + 256) 0 = true ∧ ¬bits (1 + 256) 8 11 % 2 ^ (bits (1 + 256) 2 4 + 1) = 0) ∧
    (bit 0 0 = false ∧ bits 0 2 4 ≤ 9 ∧ bits 0 8 11 % 2 ^ (bits 0 2 4 + 1) = 0 ∧ bit 256 0 = false ∧
      ¬bits 256 8 11 % 2 ^ (bits 256 2 4 + 1) = 0) := by
  and_intros <;> decide +kernel

/-! ### Security and the host -/

def secAs (f : Security → Security) : State := live.modSec f
/-- A flash record that holds: its version, and its CRC-32C. -/
def record0 : List Byte := leBytes 2 1 ++ List.replicate 250 0 ++ leBytes 4 0x73C0FB34
def noLink : State := live.modPins (fun p => { p with linkUp := false })

theorem witness_SecurityRows :
    (let s := secAs (fun x => { x with runningSvn := 3 })
     s.secServed = true ∧ bit 256 8 = true ∧ s.fuse.rollback.toNat < s.sec.runningSvn.toNat) ∧
    (noLink.secServed = false ∧ noLink.mailServed = false ∧ noLink.allServed = false) ∧
    (live.mailServed = true ∧ bit (2 ^ 25) 25 = true ∧ live.sec.mbStatus ≠ 1 ∧ bit 0 25 = false) ∧
    (bits (2 ^ 25 + 1) 0 24 ≠ live.sec.mbNext ∧ bits (2 ^ 25) 0 24 = live.sec.mbNext ∧ bit (2 ^ 25) 24 = false ∧
      bit (2 ^ 25 + 2 ^ 24) 24 = true ∧ bits (2 ^ 25 + 2 ^ 24) 0 24 = live.sec.mbNext) ∧
    (live.allServed = true ∧ bit 1 0 = true ∧ bit 0 0 = false ∧
      recordOk (slice (secAs (fun x => { x with cfgRecord := record0 })).sec.cfgRecord 0 256) = true ∧
      recordOk (slice live.sec.cfgRecord 0 256) = false) ∧
    (live.secServed = true ∧ live.sec.failures.toNat < 8 ∧ 8 ≤ (secAs (fun x => { x with failures := 8 })).sec.failures.toNat) ∧
    (secAs (fun x => { x with challenge := some [1] })).sec.challenge = some [1] ∧ live.sec.challenge = none := by
  and_intros <;> decide +kernel

/-- Transport 0's connection as given; an owner chain in slot 1. -/
def spdmAs (x : Spdm) : State := { live.modSpdm 0 (fun _ => x) with flash := { live.flash with owner := [1] } }
def agreed (n : Nat) : State := spdmAs { version := 0x12, caps := true, algs := true, sessions := List.range n }

theorem witness_SpdmRows :
    noLink.secServed = false ∧ (live.secServed = true ∧ (live.spdm 0).settled = false) ∧
    ((spdmAs { version := 0x12 }).secServed = true ∧ ((spdmAs { version := 0x12 }).spdm 0).version ≠ 0) ∧
    ((spdmAs { version := 0x12, caps := true }).secServed = true ∧ ((spdmAs { version := 0x12, caps := true }).spdm 0).caps = true ∧
      bit 0x80 7 = true ∧ bit 2 1 = true ∧ bit 0 7 = false) ∧
    (∀ n ∈ [0, 1, 4], (agreed n).secServed = true ∧ ((agreed n).spdm 0).settled = true ∧
      (((agreed n).spdm 0).sessions = [] ↔ n = 0) ∧ (agreed n).doe.sessions.length + (agreed n).mctp.sessions.length = n) ∧
    ((agreed 0).certChain 1 = some [1] ∧ (agreed 0).certChain 2 = none ∧ 5 < 6 ∧ 6 ≠ 0xFF) := by
  and_intros <;> decide +kernel

/-- BAR2 at the tiles; an operator has started on tile 0; accesses held in order. -/
def host (op : Bool) (held : List HeldAccess) : State := ((if op then tileUsed else live).modMod (fun m => { m with bar2 := 0x4000 })).modWork
  (fun w => { w with held := held })
def hostFrozen : State := (host false []).modDbg (fun d => { d with frozenAt := some 600000 })
def before5 : State := live.modMod (fun m => { m with done := false })
def reads (u : ReadFor) : HostRead := ⟨4, 0x1000, 64, 0, u⟩
def reading (u : ReadFor) : State := (dmas false true []).modWork (fun w => { w with hostReads := [reads u] })

/-- The block at that address, once the host's access has woken it. -/
def reached (s : State) : State := s.quiet.wakeAddr (0x4000 * 2 ^ 36 + 0x600000)

theorem witness_HostAccess :
    (State.reset.modServed = false ∧ 0 < 0x100000 ∧ live.allServed = true ∧ 0 ≠ 0xD0040 ∧ 63 < 64) ∧
    before5.quiet.mod.done = false ∧
    ((host true []).quiet.mod.done = true ∧ (host true []).quiet.frozen = false ∧
      (reached (host true [])).physHole (0x4000 * 2 ^ 36 + 0x600000) 1 = false ∧
      (reached (host true [])).physBusy (0x4000 * 2 ^ 36 + 0x600000) 1 = true) ∧
    ((host false [.write 0 [1] false]).quiet.mod.done = true ∧ (host false [.write 0 [1] false]).quiet.frozen = false ∧
      (reached (host false [.write 0 [1] false])).writeHeldUp = true) ∧
    ((host false []).quiet.mod.done = true ∧ (host false []).quiet.frozen = false ∧
      (reached (host false [])).physHole (0x4000 * 2 ^ 36 + 0x600000) 1 = false ∧
      (reached (host false [])).physBusy (0x4000 * 2 ^ 36 + 0x600000) 1 = false ∧ (reached (host false [])).writeHeldUp = false) ∧
    (hostFrozen.quiet.mod.done = true ∧ hostFrozen.quiet.frozen = true) ∧
    (live.frozen = false ∧ live.work.held = [] ∧
      (∀ a ∈ [HeldAccess.read 0 1, .write 0 [1] false, .dma 9], ∀ o, (host o [a]).frozen = false ∧ (host o [a]).work.held = [a]) ∧
      (host true [.dma 9]).work.dmas.find? (fun x => x.id == 9) = some (dma 9 false false)) ∧
    (∀ u ∈ [ReadFor.slot 0 0, .dma 9], (reading u).work.hostReads.find? (fun x => x.tag == 4) = some (reads u) ∧
      (reading u).frozen = false ∧ ((reading u).modDbg (fun d => { d with frozenAt := some 600000 })).frozen = true ∧
      ((reading u).modWork (fun w => { w with hostReads := [] })).work.dmas.find? (fun x => x.id == 9) = some (dma 9 false true)) ∧
    (noLink.pins.linkUp = false ∧ live.pins.linkUp = true ∧ live.configDword (3 / 4 * 4) = some 0x20481F3C ∧
      live.configDword (0x04 / 4 * 4) = none ∧ 0x13 / 4 * 4 = 0x10 + 4 * 0 ∧ 0x1F / 4 * 4 = 0x18 + 4 * 1 ∧
      0x20 / 4 * 4 ∉ [0x10, 0x14, 0x18, 0x1C]) := by
  refine ⟨?_, ?_, ?_, ?_, ?_, ?_, ?_, ?_, ?_⟩
  all_goals and_intros <;> decide +kernel

theorem witness_HostWriteReadsBack : (host false []).mod.done = true ∧ (host false []).frozen = false ∧
    (let v := (host false []).quiet.wakeAddr (0x4000 * 2 ^ 36)
     v.physBusy (0x4000 * 2 ^ 36) 2 = false ∧ v.writeHeldUp = false) ∧
    (host false []).physKey (0x4000 * 2 ^ 36 + 1) = some (tileRegion + 1) ∧
    (∀ j, 1 < j → j < 2 → (host false []).physKey (0x4000 * 2 ^ 36 + j) ≠ some (tileRegion + 1)) ∧
    ∀ i < 2, (host false []).physKey (0x4000 * 2 ^ 36 + i) ≠ some 0 := by
  refine ⟨by decide +kernel, by decide +kernel, by decide +kernel, by decide +kernel, fun j a b => by omega, by decide +kernel⟩

theorem witness_FormatRoundTrip :
    layE4m3.decode 8 = .fin false 8 (-9) ∧ 8 < 2 ^ (1 + layE4m3.exp + layE4m3.man) ∧
    (lay32.decode 0x7F800000 = .inf false ∧ 0x7F800000 < 2 ^ (1 + lay32.exp + lay32.man)) ∧
    lay32.decode 0x7FC00000 = .nan ∧ 0x7FC00000 < 2 ^ (1 + lay32.exp + lay32.man) := by
  and_intros <;> decide +kernel

/-! ### Resets, stages, power -/

/-- The module in a stage of its sequence, in progress. -/
def inStageK (k : BitVec 3) : State := live.modMod (fun m => { m with stage := k, done := false })
def dark : State := live.modPins (fun p => { p with vin := false, vaux := false })

theorem witness_ResetsLeave :
    (live.pins.vin = true ∧ live.pins.vaux = true ∧ live.started = true ∧ live.modServed = true ∧ bit 1 0 = true ∧ bit 0 0 = false) ∧
    State.reset.started = false := by
  and_intros <;> decide +kernel

/-- THERM_TRIP_N low. -/
def tripped : State := live.modPins (fun p => { p with thermTripN := false, inReset := true })
def split8 : State := live.modMod (fun m => { m with partCount := 8 })

theorem witness_FaultsAndPins :
    ((live.modPins (fun p => { p with inReset := true })).pins.inReset = true ∧ live.pins.thermTripN = true ∧ live.pins.inReset = false) ∧
    (dark.pins.vin = false ∧ dark.pins.vaux = false ∧ live.mod.stage ≠ 0 ∧ (inStageK 0).mod.stage = 0 ∧ (inStageK 0).pins.vin = true ∧
      live.pins.vaux = true) ∧
    tripped.pins.thermTripN = false ∧ (live.started = true ∧ tripped.started = false) ∧
    (live.mod.done = true ∧ live.partOfDie (boundaryDies 0).1 = live.partOfDie (boundaryDies 0).2 ∧ split8.mod.done = true ∧
      split8.partOfDie (boundaryDies 0).1 ≠ split8.partOfDie (boundaryDies 0).2 ∧ before5.mod.done = false) := by
  and_intros <;> decide +kernel

def images (r a b : Bool) : BootImages := ⟨r, a, b, []⟩
def bist (f : Bool) (d b : Option Nat) : BistReport := ⟨f, d, b, [], []⟩

theorem witness_StageRows :
    (∀ k ∈ [0, 1, 2, 3, 4, 5], live.inStage k = false) ∧ (∀ k ∈ [0, 1, 2, 3, 4, 5], (inStageK (BitVec.ofNat 3 k)).inStage k = true) ∧
    ((inStageK 0).pins.perstN = true ∧ (inStageK 1).flash.preferred = false ∧ bit (inStageK 1).flash.empty.toNat 0 = false ∧
      (inStageK 1).fuse.rollback.toNat ≤ (inStageK 1).flash.svn0 ∧ (images true true false).ok0 = true ∧
      (images true false true).ok1 = true ∧ (images true false false).ok0 = false ∧ (images false true true).readable = false) ∧
    (let v := ((inStageK 2).measureAs 3 []).fuseMarks
     (bist false none none).fusesOk = false ∧ (bist true (some 3) none).badDie = some 3 ∧ (bist true none (some 2)).badBoundary = some 2 ∧
       (List.range 8).find? (fun d => v.enabledOn d == 0) = none) ∧
    (let idx := fun (ms : List (Option Nat)) => (List.range 32).map (fun k => (k, ms.getD k none))
     (idx []).find? (fun x => x.2.isNone) = some (0, none) ∧ (idx (List.replicate 32 (some 241))).find? (fun x => x.2.isNone) = none ∧
       (idx (List.replicate 32 (some 241))).find? (fun x => match x.2 with | some m => decide (248 < lambdaOf m) | none => false) =
         some (0, some 241) ∧ ∀ x ∈ idx (List.replicate 32 (some 240)), x.2 = some 240 ∧ lambdaOf 240 ≤ 248) := by
  and_intros <;> decide +kernel

def clockAs (d : Option Nat) : State := live.modClk (fun c => { c with pendingDiv := d })
def pwrAs (f : Power → Power) : State := live.modPwr f

theorem witness_ClockAndCapRows :
    ((clockAs (some 5)).clk.pendingDiv = some 5 ∧ (clockAs (some 5)).clk.origin ≠ none ∧ (clockAs (some 5)).frozen = false ∧
      (clockAs (some 5)).work.runs = []) ∧
    (((clockAs (some 5)).modDbg (fun d => { d with frozenAt := some 600000 })).frozen = true ∧ live.clk.pendingDiv = none) ∧
    (live.pins.vin = true ∧ live.pins.vaux = true) ∧
    (live.frozen = false ∧ live.pwr.paused = none ∧ live.pwr.pauseDue = false ∧
      (pwrAs (fun p => { p with pauseDue := true })).pwr.pauseDue = true) ∧
    (∀ b ∈ [true, false],
      let s := pwrAs (fun p => { p with paused := some 600000, pausedMclk := 150000, fast := b })
      let u := s.untilRoot (600000 + wholeHold frameRoot s.clk.div 1 * s.clk.div)
      s.frozen = false ∧ s.pwr.paused = some 600000 ∧
        (u.shiftUnits u.pwr.pausedMclk (u.mclk - u.pwr.pausedMclk) 2).pwr.wantsPause = b) := by
  and_intros <;> decide +kernel

/-- The state of a scope. -/
def scopeAs (v : ScopeState) : State := live.setScope 4096 v

theorem witness_PowerStateRows :
    (before5.mod.done = false ∧ ((scopeAs { exitAt := some 9 }).scope 4096).exitAt = some 9) ∧
    (let s := scopeAs { code := 3 }
     let t := s.modPwr (fun p => { p with maxState := 0 })
     t.mod.done = true ∧ (t.scope 4096).exitAt = none ∧ (t.chooseState .module).1 < (t.scope 4096).code ∧ 2 ≤ (t.scope 4096).code) ∧
    (let s := live.modPwr (fun p => { p with maxState := 1 })
     s.mod.done = true ∧ (s.scope 4096).exitAt = none ∧ (s.chooseState .module).1 = 1 ∧ (s.scope 4096).code < 1 ∧ s.frozen = false ∧
       (let f := s.modDbg (fun d => { d with frozenAt := some 600000 })
        f.frozen = true ∧ (f.chooseState .module).1 = 1)) ∧
    (let s := (scopeAs { code := 1 }).modPwr (fun p => { p with maxState := 0 })
     (s.chooseState .module).1 = 0 ∧ (s.scope 4096).code = 1 ∧ (s.scope 4096).exitAt = none ∧ s.mod.done = true) ∧
    ((live.modPwr (fun p => { p with maxState := 0 })).chooseState .module = (0, none) ∧ (live.scope 4096).code = 0 ∧
      (live.scope 4096).wakeAt = none) ∧
    (((scopeAs { code := 3, wakeAt := some 20000 }).scope 4096).wakeAt = some 20000 ∧
      ((scopeAs { code := 3, wakeAt := some 20000 }).scope 4096).code ≠ 0 ∧
      ((scopeAs { code := 3, wakeAt := some 20000 }).scope 4096).exitAt = none) := by
  and_intros <;> decide +kernel

def readings : List Nat := List.replicate 128 200
/-- A sensor marked invalid, or all of them; a die's trim. -/
def sensorsBad (n : Nat) : State := pwrAs (fun p => { p with sensors := (List.range n).map (fun i => (i, { invalid := true })) })
def trimAs (t : Int) : State := pwrAs (fun p => { p with dieTrim := if t = 0 then [] else [(0, t)] })

/-- Bank 31 of tile 0's store serves a word in this mclk. -/
def granted31 : State := live.modTile 0 (fun x => { x with arb := { mclk := 150000, taken := [(reqKey 6 0, 31)] } })

theorem witness_SensorAndMemoryService :
    (live.pins.vin = true ∧ live.pins.vaux = true ∧ live.hottest readings = some 200 ∧ (sensorsBad 128).hottest readings = none) ∧
    (((sensorsBad 1).sensor 0).invalid = true ∧ (live.sensor 0).invalid = false ∧
      20 < ((221 : Int) - ((200 : Nat) + (live.sensor 0).offset)).natAbs ∧
      ((220 : Int) - ((200 : Nat) + (live.sensor 0).offset)).natAbs ≤ 20) ∧
    (Tbl.get 0 (trimAs 0).pwr.dieTrim 0 < 8 ∧ 8 ≤ Tbl.get 0 (trimAs 8).pwr.dieTrim 0 ∧ -16 < Tbl.get 0 (trimAs 0).pwr.dieTrim 0 ∧
      Tbl.get 0 (trimAs (-16)).pwr.dieTrim 0 ≤ -16) ∧
    (live.clk.frameOrigin.isSome = true ∧ (live.stack 0).selfRefresh = false ∧
      ((live.modStack 0 (fun x => { x with selfRefresh := true })).stack 0).selfRefresh = true) ∧
    (live.frozen = false ∧ live.pwr.paused = none ∧ live.listed 0 = true ∧ live.bankIdle 0 31 = true ∧ 31 < 32 ∧ 3071 < 3072 ∧
      (granted31.bankIdle 0 31 = false) ∧ live.framing 0 = true) := by
  and_intros <;> decide +kernel

/-! ### The form check -/

theorem test_wf_command_queue : (Instr.nop 63).wf = true ∧ (Instr.nop 64).wf = false ∧ (Instr.waitTimeout 64 0).wf = false ∧
    (Instr.notBeforeReached 64 0).wf = false ∧ (Instr.sqTail 64 0).wf = false ∧ (Instr.sqTail 0 65536).wf = false ∧
    (Instr.cqHead 0 65536).wf = false ∧ (Instr.queueEnable (2 ^ 64)).wf = false := by decide

theorem test_wf_partition_and_objects : (Instr.quiesced 8).wf = false ∧ (Instr.clear 8).wf = false ∧
    (Instr.eventSet (2 ^ 18)).wf = false ∧ (Instr.semPost 0 0).wf = false ∧ (Instr.semPost (2 ^ 18) 1).wf = false ∧
    (Instr.semPost 0 (2 ^ 32)).wf = false ∧ (Instr.counterAdd 0 (2 ^ 64)).wf = false ∧ (Instr.counterSet (2 ^ 18) 0).wf = false ∧
    (Instr.initSemaphore 0 (2 ^ 32)).wf = false ∧ (Instr.initBarrier 0 0).wf = false ∧ (Instr.initBarrier 0 65536).wf = false ∧
    (Instr.initEvent 0 2).wf = false ∧ (Instr.workCounterTake (2 ^ 18) 0 0).wf = false ∧
    (Instr.workCounterTake 0 1152 0).wf = false ∧ (Instr.workCounterTake 0 0 65536).wf = false := by decide

theorem test_wf_tile_work : (Instr.swapNotice 1152).wf = false ∧ (Instr.contextLoad 8).wf = false ∧
    (Instr.streamingRowIssue ⟨.direct row0, {}⟩).wf = true ∧ (Instr.streamingRowIssue ⟨.direct { row0 with tile := 1152 }, {}⟩).wf = false ∧
    (Instr.streamingRowIssue ⟨.direct { row0 with array := 2 }, {}⟩).wf = false ∧ (Instr.streamingRowIssue ⟨.direct { row0 with shape := 4 }, {}⟩).wf = false ∧
    (Instr.streamingRowIssue ⟨.direct { row0 with pn := 16 }, {}⟩).wf = false ∧ (Instr.streamingRowIssue ⟨.direct { row0 with mode := 3 }, {}⟩).wf = false ∧
    (Instr.streamingRowIssue ⟨.direct { row0 with rnd := 3 }, {}⟩).wf = false ∧ (Instr.streamingRowIssue ⟨.direct { row0 with m := 4 }, {}⟩).wf = false ∧
    (Instr.streamingRowIssue ⟨.direct { row0 with base := 1021 }, {}⟩).wf = false ∧ (Instr.streamingRowIssue ⟨.direct { row0 with sub := 3 }, {}⟩).wf = false ∧
    (Instr.slotRowLoad ⟨.direct { slotRow (.store 0) with tile := 1152 }, {}⟩).wf = false ∧
    (Instr.slotRowLoad ⟨.direct { slotRow (.store 0) with array := 2 }, {}⟩).wf = false ∧
    (Instr.slotRowLoad ⟨.direct { slotRow (.store 0) with shape := 4 }, {}⟩).wf = false ∧
    (Instr.slotRowLoad ⟨.direct { slotRow (.store 0) with pn := 16 }, {}⟩).wf = false ∧
    (Instr.slotRowLoad ⟨.direct { slotRow (.store 0) with part := 2 }, {}⟩).wf = false ∧
    (Instr.streamingRowIssue ⟨.direct row0, { words := [(0x6A0000, false)] }⟩).wf = false ∧
    (Instr.streamingRowIssue ⟨.frond 3 1152 0 0, {}⟩).wf = false ∧ (Instr.streamingRowIssue ⟨.frond 3 0 2 0, {}⟩).wf = false ∧
    (Instr.streamingRowIssue ⟨.frond 3 0 0 16, {}⟩).wf = false ∧ (Instr.slotRowLoad ⟨.frond 3 1152 0, {}⟩).wf = false ∧
    (Instr.slotRowLoad ⟨.frond 3 0 2, {}⟩).wf = false ∧ (Instr.slotRowLoad ⟨.frond 3 0 0, { words := [(0x6A0000, true)] }⟩).wf = false ∧
    (Instr.drain ⟨.frond 0 1152 0, {}⟩).wf = false ∧ (Instr.fill ⟨.frond 0 0 128, {}⟩).wf = false ∧
    (Instr.fill ⟨.frond 0 0 127, { words := [(0x6A0000, true)] }⟩).wf = false ∧
    (Instr.invocation ⟨.direct 0 1184 [] [] 0 [], {}⟩).wf = false ∧
    (Instr.timedInputLate 0 0 3 4).wf = false ∧ (Instr.timedInputLate 0 0 0 2).wf = false ∧ (Instr.timedInputLate 0 0 0 6).wf = false ∧
    (Instr.streamBeat 1152 0).wf = false ∧ (Instr.streamBeat 0 65536).wf = false ∧ (Instr.creditReturn 1152 0 0).wf = false ∧
    (Instr.creditReturn 0 65536 0).wf = false ∧ (Instr.creditReturn 0 0 1152).wf = false ∧ (Instr.switchItem 1152 0).wf = false ∧
    (Instr.mergeItem 0 4).wf = false := by decide

theorem test_wf_descriptor_lengths : (Instr.drain ⟨.direct 0 0 (List.replicate 257 0) [] 0 [], {}⟩).wf = false ∧
    (Instr.drain ⟨.direct 0 0 [] (List.replicate 17 0) 0 [], {}⟩).wf = false := by decide +kernel

theorem test_wf_links : (Instr.dataFrame 18 ⟨[], 0⟩).wf = false ∧ (Instr.dataFrame 0 ⟨[], 0⟩).wf = false ∧
    (Instr.controlSlot 18 ⟨0, false, List.replicate 8 0, true, false⟩).wf = false ∧ (Instr.controlSlot 0 ⟨0, false, [], true, false⟩).wf = false ∧
    (Instr.frameTransmit 18).wf = false ∧ (Instr.portTraining 18 ⟨0, 0⟩).wf = false ∧ (Instr.portTraining 0 ⟨256, 0⟩).wf = false ∧
    (Instr.portTraining 0 ⟨0, 256⟩).wf = false ∧
    (Instr.widthChange 18 0 0).wf = false ∧ (Instr.widthChange 0 8 0).wf = false ∧ (Instr.equaliserRequest 144 0 true).wf = false ∧
    (Instr.equaliserRequest 0 23 true).wf = false ∧ (Instr.alignmentCodeword ⟨144, 0⟩ 0 0 0 0).wf = false ∧
    (Instr.alignmentCodeword ⟨0, 8⟩ 0 0 0 0).wf = false ∧ (Instr.alignmentCodeword ⟨0, 0⟩ 4096 0 0 0).wf = false ∧
    (Instr.alignmentCodeword ⟨0, 0⟩ 0 18 0 0).wf = false ∧ (Instr.alignmentCodeword ⟨0, 0⟩ 0 0 8 0).wf = false ∧
    (Instr.alignmentCodeword ⟨0, 0⟩ 0 0 0 256).wf = false ∧
    (Instr.laneErrorWindow 144 0 1 0 0).wf = false ∧ (Instr.laneErrorWindow 0 0 0 0 0).wf = false ∧
    (Instr.lockLoss 144).wf = false := by decide

theorem test_wf_host : (Instr.halfPairWrite 16 0).wf = false ∧ (Instr.halfPairWrite 0 (2 ^ 64)).wf = false ∧
    (Instr.registerWrite (2 ^ 26) 4 0).wf = false ∧ (Instr.registerWrite 0 2 0).wf = false ∧ (Instr.registerWrite 4 8 0).wf = false ∧
    (Instr.registerWrite 0 4 (2 ^ 32)).wf = false ∧ (Instr.readClear (2 ^ 26) 4).wf = false ∧ (Instr.readClear 0 2).wf = false ∧
    (Instr.readClear 2 4).wf = false ∧ (Instr.bar2Read 0 0).wf = false ∧ (Instr.bar2Read 0 4097).wf = false ∧
    (Instr.bar2Read (2 ^ 36) 1).wf = false ∧ (Instr.bar2Write 0 [] false).wf = false ∧ (Instr.bar2Write (2 ^ 36) [0] false).wf = false ∧
    (Instr.dbgChallenge 2).wf = false ∧ (Instr.getVersion 2).wf = false ∧ (Instr.configRequest false 4096 0).wf = false := by decide
theorem test_wf_host_write_length : (Instr.bar2Write 0 (List.replicate 513 0) false).wf = false := by decide +kernel

theorem test_wf_module : (Instr.stageF0 3 16).wf = false ∧ (Instr.stageF0 6 2).wf = false ∧ (Instr.stageF3 []).wf = false ∧
    (Instr.controlCoreWatchdog 32).wf = false ∧ (Instr.rhizomeBoundaryLost 10).wf = false ∧
    (Instr.powerWake (.tile 1152)).wf = false ∧ (Instr.powerWake (.die 8)).wf = false ∧ (Instr.thermalSample []).wf = false ∧
    (Instr.voltageTrim 8 0).wf = false ∧ (Instr.voltageTrim 0 3).wf = false ∧ (Instr.sensorComparison [] readings).wf = false ∧
    (Instr.sensorComparison readings []).wf = false ∧ (Instr.calibrationSlot 32 0).wf = false ∧ (Instr.poisonWriteback 32 ⟨0, true⟩).wf = false ∧
    (Instr.poisonWriteback 0 ⟨(2 ^ 30), false⟩).wf = false ∧ (Instr.patrolScrub 1152 0 0 0 false).wf = false ∧
    (Instr.patrolScrub 0 32 0 0 false).wf = false ∧ (Instr.patrolScrub 0 0 3072 0 false).wf = false ∧
    (Instr.patrolScrub 0 0 0 3 false).wf = false := by decide +kernel

/-! ### Numbers that the spec works out -/

/-- 02, after R39: a block with amax 5.0 has code 127 and 5.0 rounds to 4; 7.0 rounds to 8 and is clamped to 6, uncounted. -/
theorem test_mxfp4_block : Fmt.encodeBlock .mxE2m1 .rne false [0, 0] [lay32.decode 0x40A00000, lay32.decode 0x40E00000] =
    (127, [6, 7], Health.zero) := by decide +kernel
/-- 02, after R41: amax 1.5 × 2^−7 has scale code 0x6A, and the element times 2^21 is 1.5 × 2^14. -/
theorem test_sb16_block : Fmt.encodeBlock .sb16 .rne false [0] [lay32.decode 0x3C400000] = (0x6A, [0x7600], Health.zero) := by
  decide +kernel
/-- 05, compress: 84 mclk for 68 slots; LOAD, MUL, STORE of 16 and 68 slots: 28 and 80 mclk. -/
theorem test_compress_length :
    let c := leBytes 32 5 ++ leBytes 4 0x10000 ++ List.replicate 28 0 ++ leBytes 16 1 ++
      leBytes 16 (5 + 14 * 2 ^ 8 + 15 * 2 ^ 16 + 6 * 2 ^ 20 + 2 ^ 53) ++ leBytes 16 (6 + 1 * 2 ^ 16 + 2 ^ 52) ++
      leBytes 16 (8 + 2 * 2 ^ 4 + 15 * 2 ^ 16) ++ leBytes 16 (8 + 12 * 2 ^ 4 + 15 * 2 ^ 16 + 12 * 2 ^ 24) ++ List.replicate 112 0
    chainBadAt c false = none ∧ vLength c 68 = 84 := by decide +kernel
theorem test_scale_length :
    let c := leBytes 64 3 ++ leBytes 16 1 ++ leBytes 16 (2 + 14 * 2 ^ 8 + 15 * 2 ^ 16 + 2 * 2 ^ 20) ++
      leBytes 16 (8 + 1 * 2 ^ 4 + 15 * 2 ^ 16) ++ List.replicate 144 0
    chainBadAt c false = none ∧ vLength c 16 = 28 ∧ vLength c 68 = 80 := by decide +kernel
/-- 11, the base-weight stream: the partition address 0x1234567A40 lies in STACK_7; a measured 113 hclk gives λ = 128. -/
theorem test_interleave : live.hbmKey 0 0x1234567A40 / 2 ^ 36 = 7 ∧ lambdaOf 113 = 128 := by decide +kernel
/-- 14, the route in model B's torus: COLL leaves on PORT_9, REQ on PORT_0, and COLL too once PORT_5 is down. -/
def torus (down : Bool) : State :=
  ([(0, 1), (5, 1), (9, 1), (1, 2), (2, 3), (3, 4), (4, 5), (6, 6)].foldl (fun s (i, d) => s.modPort i (fun x => { x with
    enable := true, st := if i = 5 ∧ down then 4 else 2, useDir := BitVec.ofNat 3 d })) live).modPart 0 (fun x => { x with
      node := 0x572, dimX := 8, dimY := 8, dimZ := 8 })
def portOf (x : Except Nat (Nat × Nat)) : Nat := match x with | .ok (p, _) => p | .error _ => 99
theorem test_torus_route : portOf ((torus false).route 0 0x516 2 0 0) = 9 ∧ portOf ((torus false).route 0 0x516 0 0 0) = 0 ∧
    portOf ((torus true).route 0 0x516 2 0 0) = 0 := by decide +kernel
/-- 00: tile 3:07:11 has global index 527. -/
theorem test_tile_index : 3 * 144 + 7 * 12 + 11 = 527 ∧ live.partOfTile 527 = 0 ∧ tileBase 527 = tileRegion + 3 * 2 ^ 36 + 95 * 2 ^ 23 := by
  decide +kernel
/-- 10, the output projection: 272 output tiles. -/
theorem test_projection_items : (8192 / 1024) * ceilDiv 4352 128 = 272 := by decide
/-- CRC-32C and CRC-32 of the nine digits, the checks that both polynomials are known by. -/
theorem test_crc : crc32c [0x31, 0x32, 0x33, 0x34, 0x35, 0x36, 0x37, 0x38, 0x39] = 0xE3069283 ∧
    crc32 [0x31, 0x32, 0x33, 0x34, 0x35, 0x36, 0x37, 0x38, 0x39] = 0xCBF43926 := by decide +kernel
/-- 02, R54: RSQRT of −0 is −∞. -/
theorem test_rsqrt_minus_zero : (lut32 3 0 .rne 0 (.fin true 0 0)).1 = 0xFF800000 := by decide +kernel

end Sys2Proof.Tests
end

/-! ## Proofs: transactions taken from an inbox -/
section
namespace Sys2Proof.Machine
open Sys2Proof.Claims

/-! ### The head of an inbox -/

/-- Nothing is taken while the partition's receive side stands still (R26, R197, R426). -/
theorem State.deliver_eq_none {s : State} {p : Nat}
    (h : s.frozen = true ∨ s.mod.changeBusy = true ∨ (s.part p).nodeHeld = true ∨ s.partAwake p = false)
    (vc : Nat) (f : Txn → Bool) : s.deliver p vc f = none := by
  unfold State.deliver
  rcases h with h | h | h | h <;> simp [h]

/-- The head of an inbox is taken by a row that handles its kind. -/
theorem State.deliver_of_head {s : State} {p vc : Nat} {a : Arrived} {rest : List Arrived} (h : Head s p vc a rest)
    {f : Txn → Bool} (k : f a.txn = true) : s.deliver p vc f = some (a.txn, taken s p vc a rest) := by
  obtain ⟨hfrozen, hbusy, hnode, hawake, hbox⟩ := h
  simp only [State.deliver, hfrozen, hbusy, hnode, hawake, hbox, k, Bool.not_true, Bool.or_false, Bool.false_eq_true,
    if_false, if_true]
  rfl

/-! ### WRITE and WRITE_RSP -/

theorem exec_write (p : Nat) (s : State) : exec (.write p) s = execWrite p s := rfl
theorem exec_writeRsp (p : Nat) (s : State) : exec (.writeRsp p) s = execWriteRsp p s := rfl

theorem State.remoteOk_iff (s : State) (p a n : Nat) : s.remoteOk p a n = true ↔
    (s.part p).rxBase.toNat ≤ (s.part p).rxLimit.toNat ∧ (s.part p).rxBase.toNat * 4096 ≤ a ∧
      a + n ≤ ((s.part p).rxLimit.toNat + 1) * 4096 ∧ a < stagingRegion ∧
      ∀ i < n, (s.addrKey p (a + i)).isSome = true := by
  simp only [State.remoteOk, Bool.and_eq_true, decide_eq_true_eq, List.all_eq_true, List.mem_range, and_assoc]

/-- The bytes of a WRITE stored from partition address `a`, each 32 under the poison mark that `t` carries for them. -/
def State.landWrite (s : State) (p a : Nat) (t : Txn) : State :=
  (List.range (ceilDiv t.data.length 32)).foldl (fun x k =>
    x.wrAt p (a + 32 * k) ((t.data.drop (32 * k)).take 32) (bit t.poison k)) s

section
variable {s : State} {p : Nat} {a : Arrived} {rest : List Arrived}

theorem exec_write_stores (h : Head s p 0 a rest) (k : a.txn.type = 1)
    (ok : (taken s p 0 a rest).remoteOk p (bits a.txn.addr 0 52) a.txn.data.length = true) :
    exec (.write p) s = .next (((taken s p 0 a rest).landWrite p (bits a.txn.addr 0 52) a.txn).sendOr p
      { type := 2, dest := a.txn.src, status := 0, tseq := a.txn.tseq }) := by
  rw [exec_write, execWrite, State.deliver_of_head h (by simp [k])]
  simp only [ok, if_true]
  rfl

theorem exec_write_refused (h : Head s p 0 a rest) (k : a.txn.type = 1)
    (ok : (taken s p 0 a rest).remoteOk p (bits a.txn.addr 0 52) a.txn.data.length = false) :
    exec (.write p) s = .next ((taken s p 0 a rest).sendOr p
      { type := 2, dest := a.txn.src, status := 1, tseq := a.txn.tseq }) := by
  rw [exec_write, execWrite, State.deliver_of_head h (by simp [k])]
  simp only [ok, Bool.false_eq_true, if_false]
  rfl

theorem exec_writeRsp_takes (h : Head s p 1 a rest) (k : a.txn.type = 2) :
    exec (.writeRsp p) s = .next (taken s p 1 a rest) := by
  rw [exec_writeRsp, execWriteRsp, State.deliver_of_head h (by simp [k])]

end

/-! ### SYNC_REQ and SYNC_RSP -/

theorem exec_syncReq (p : Nat) (s : State) : exec (.syncReq p) s = execSyncReq p s := rfl
theorem exec_syncRsp (p : Nat) (s : State) : exec (.syncRsp p) s = execSyncRsp p s := rfl

/-- The key under which the result of a SYNC_REQ is kept: its object's die and its sender (R319). -/
def syncKey (t : Txn) : Nat := bits t.addr 15 3 * 4096 + t.src

/-- The SYNC_RSP to `t`, with status `st` and result `r`. -/
def State.answerSync (s : State) (p : Nat) (t : Txn) (st r : Nat) : State :=
  s.sendOr p { type := 4, dest := t.src, status := st, tseq := t.tseq, data := leBytes 8 r }

/-- The result of `t` kept for a repeat of its sequence. -/
def State.keepSync (s : State) (p : Nat) (t : Txn) (st r : Nat) : State :=
  s.modPart p (fun y => { y with rxSeq := Tbl.put y.rxSeq (syncKey t) (t.tseq, st + 4 * r) })

section
variable {s : State} {p : Nat} {t : Txn}

theorem State.syncReq_repeat {x : Nat} (h : Tbl.find (s.part p).rxSeq (syncKey t) = some (t.tseq, x)) :
    s.syncReq p t = s.answerSync p t (x % 4) (x / 4) := by
  unfold syncKey at h
  simp only [State.syncReq, h, if_true]
  rfl

/-- A sequence that is not the kept one is performed, and its result kept and answered. -/
theorem State.syncReq_new (h : ∀ x, Tbl.find (s.part p).rxSeq (syncKey t) ≠ some (t.tseq, x)) {st r : Nat} {u : State}
    (e : s.remoteOp p t = (st, r, u)) : s.syncReq p t = (u.keepSync p t st r).answerSync p t st r := by
  unfold syncKey at h
  cases f : Tbl.find (s.part p).rxSeq (bits t.addr 15 3 * 4096 + t.src) with
  | none => simp only [State.syncReq, f, e]; rfl
  | some y =>
    obtain ⟨sq, x⟩ := y
    have ne : sq ≠ t.tseq := fun q => h x (q ▸ f)
    simp only [State.syncReq, f, ne, if_false, e]
    rfl

theorem State.remoteOp_domain (h : s.free.2.objOk (bits t.addr 0 18) = false) :
    s.remoteOp p t = (1, s.free.1.toNat, s.free.2) := by
  simp [State.remoteOp, h]

theorem State.remoteOp_range (h : s.free.2.objOk (bits t.addr 0 18) = true)
    (k : opListed (bits t.addr 18 8) = false ∨ operandBad (bits t.addr 18 8) (leNat (t.data.take 8)) = true ∨
      s.free.2.typeBad p (bits t.addr 0 18) (opType (bits t.addr 18 8)) = true) :
    s.remoteOp p t = (2, s.free.1.toNat, s.free.2) := by
  rcases k with k | k | k <;> simp [State.remoteOp, h, k]

theorem State.remoteOp_performed (h : s.free.2.objOk (bits t.addr 0 18) = true) (l : opListed (bits t.addr 18 8) = true)
    (b : operandBad (bits t.addr 18 8) (leNat (t.data.take 8)) = false)
    (y : s.free.2.typeBad p (bits t.addr 0 18) (opType (bits t.addr 18 8)) = false) :
    s.remoteOp p t = (0, s.free.1.toNat,
      s.free.2.syncOp (s.free.2.physObj p (bits t.addr 0 18)) (bits t.addr 18 8) (leNat (t.data.take 8))) := by
  simp [State.remoteOp, h, l, b, y]

end

section
variable {s : State} {p : Nat} {a : Arrived} {rest : List Arrived}

theorem exec_syncReq_of_head (h : Head s p 0 a rest) (k : a.txn.type = 3) :
    exec (.syncReq p) s = .next ((taken s p 0 a rest).syncReq p a.txn).collsGo := by
  rw [exec_syncReq, execSyncReq, State.deliver_of_head h (by simp [k])]

theorem exec_syncReq_repeat (h : Head s p 0 a rest) (k : a.txn.type = 3) {x : Nat}
    (f : Tbl.find ((taken s p 0 a rest).part p).rxSeq (syncKey a.txn) = some (a.txn.tseq, x)) :
    exec (.syncReq p) s = .next ((taken s p 0 a rest).answerSync p a.txn (x % 4) (x / 4)).collsGo := by
  rw [exec_syncReq_of_head h k, State.syncReq_repeat f]

theorem exec_syncReq_new (h : Head s p 0 a rest) (k : a.txn.type = 3)
    (f : ∀ x, Tbl.find ((taken s p 0 a rest).part p).rxSeq (syncKey a.txn) ≠ some (a.txn.tseq, x))
    {st r : Nat} {v : State} (e : (taken s p 0 a rest).remoteOp p a.txn = (st, r, v)) :
    exec (.syncReq p) s = .next ((v.keepSync p a.txn st r).answerSync p a.txn st r).collsGo := by
  rw [exec_syncReq_of_head h k, State.syncReq_new f e]

theorem exec_syncRsp_finishes (h : Head s p 1 a rest) (k : a.txn.type = 4) {r : Remote} {l : List Remote}
    (f : takeFirst (fun r => r.part == p && r.node == a.txn.src && r.tseq == a.txn.tseq)
      (taken s p 1 a rest).work.remotes = some (r, l)) :
    exec (.syncRsp p) s = .next (((taken s p 1 a rest).modWork (fun w => { w with remotes := l })).finish r.q r.id
      [remoteStatus a.txn.status]) := by
  rw [exec_syncRsp, execSyncRsp, State.deliver_of_head h (by simp [k])]
  simp only [f]

end

/-- The four rows of remote transactions do nothing while the partition's receive side stands still. -/
theorem exec_remote_held {s : State} {p : Nat}
    (h : s.frozen = true ∨ s.mod.changeBusy = true ∨ (s.part p).nodeHeld = true ∨ s.partAwake p = false)
    {c : Instr} (k : c ∈ [Instr.write p, .writeRsp p, .syncReq p, .syncRsp p]) : exec c s = .next s := by
  have none_taken := State.deliver_eq_none h
  simp only [List.mem_cons, List.not_mem_nil, or_false] at k
  rcases k with rfl | rfl | rfl | rfl
  · rw [exec_write, execWrite, none_taken]
  · rw [exec_writeRsp, execWriteRsp, none_taken]
  · rw [exec_syncReq, execSyncReq, none_taken]
  · rw [exec_syncRsp, execSyncRsp, none_taken]

end Sys2Proof.Machine

namespace Sys2Proof.Settled
open Sys2Proof.Machine Sys2Proof.Claims

/-- Settles O42: what each of the four rows does with the head of its inbox, and that none acts while it is held. -/
theorem remoteTransactions : Obligations.RemoteTransactions := by
  unfold Obligations.RemoteTransactions
  intro s p a rest
  refine ⟨fun c k h => exec_remote_held h k, fun h k => ⟨fun ok => ?_, fun bad => ?_⟩, exec_writeRsp_takes,
    fun h k => ⟨fun x f => exec_syncReq_repeat h k f, fun f => ⟨fun o => ?_, fun o b => ?_, fun o l b y => ?_⟩⟩,
    fun h k r l f => exec_syncRsp_finishes h k f⟩
  · exact exec_write_stores h k ((State.remoteOk_iff ..).mpr ok)
  · exact exec_write_refused h k (Bool.eq_false_iff.mpr (mt (State.remoteOk_iff ..).mp bad))
  · exact exec_syncReq_new h k f (State.remoteOp_domain o)
  · exact exec_syncReq_new h k f (State.remoteOp_range o b)
  · exact exec_syncReq_new h k f (State.remoteOp_performed o l b y)

end Sys2Proof.Settled
end

/-! ## Proofs: partition layout, half pairs and retirement marks -/
section
namespace Sys2Proof.Machine

/-! ### The rows of the module block -/

theorem exec_partLayout (v : Nat) (s : State) : exec (.partLayout v) s = execPartLayout v s := rfl
theorem exec_bar2Window (v : Nat) (s : State) : exec (.bar2Window v) s = execBar2Window v s := rfl
theorem exec_partResume (v : Nat) (s : State) : exec (.partResume v) s = execPartResume v s := rfl
theorem exec_partitionChange (s : State) : exec .partitionChange s = execPartitionChange s := rfl

section
variable {s : State} {v : Nat}

theorem exec_partLayout_served (h : s.modServed = true) : exec (.partLayout v) s = .next (s.layoutRequest v) := by
  rw [exec_partLayout, execPartLayout, if_pos h]
theorem exec_bar2Window_served (h : s.modServed = true) :
    exec (.bar2Window v) s = .next (s.modMod (fun m => { m with bar2 := BitVec.ofNat 16 v })) := by
  rw [exec_bar2Window, execBar2Window, if_pos h]
theorem exec_partResume_served (h : s.modServed = true) :
    exec (.partResume v) s = .next (s.resumeParts (bits v 0 8)) := by
  rw [exec_partResume, execPartResume, if_pos h]

theorem exec_module_unserved (h : s.modServed = false) {c : Instr}
    (k : c ∈ [Instr.partLayout v, .bar2Window v, .partResume v]) : exec c s = .next s := by
  have off : ¬s.modServed = true := by simp [h]
  simp only [List.mem_cons, List.not_mem_nil, or_false] at k
  rcases k with rfl | rfl | rfl
  · rw [exec_partLayout, execPartLayout, if_neg off]
  · rw [exec_bar2Window, execBar2Window, if_neg off]
  · rw [exec_partResume, execPartResume, if_neg off]

/-- What R24 asks of a request for `bits v 0 4` partitions with `bits v 4 7` GiB kept local per stack. -/
theorem layoutOk_iff : (s.mayChange && [1, 2, 4, 8].contains (bits v 0 4) && decide (bits v 4 7 ≤ 64)) = true ↔
    s.mayChange = true ∧ bits v 0 4 ∈ [1, 2, 4, 8] ∧ bits v 4 7 ≤ 64 := by
  rw [Bool.and_eq_true, Bool.and_eq_true, List.contains_iff_mem, decide_eq_true_eq, and_assoc]

theorem State.layoutRequest_accepted (h : s.mayChange = true ∧ bits v 0 4 ∈ [1, 2, 4, 8] ∧ bits v 4 7 ≤ 64) :
    s.layoutRequest v = s.modMod (fun m => { m with
      changeBusy := true, changeRefused := false, changeTo := some (bits v 0 4, bits v 4 7) }) :=
  if_pos (layoutOk_iff.mpr h)
theorem State.layoutRequest_refused (h : ¬(s.mayChange = true ∧ bits v 0 4 ∈ [1, 2, 4, 8] ∧ bits v 4 7 ≤ 64)) :
    s.layoutRequest v = (s.modMod (fun m => { m with changeRefused := true })).event 7 :=
  if_neg (mt layoutOk_iff.mp h)

theorem exec_partitionChange_none (h : s.frozen = false) (k : s.mod.changeTo = none) :
    exec .partitionChange s = .next s := by
  rw [exec_partitionChange, execPartitionChange, State.unlessFrozen_next h, k]
theorem exec_partitionChange_some (h : s.frozen = false) {n z : Nat} (k : s.mod.changeTo = some (n, z)) :
    exec .partitionChange s = .next (s.changeNow n z) := by
  rw [exec_partitionChange, execPartitionChange, State.unlessFrozen_next h, k]

end

/-! ### The rows that TILE_SEL governs -/

theorem exec_halfPairWrite (n v : Nat) (s : State) : exec (.halfPairWrite n v) s = execHalfPairWrite n v s := rfl
theorem exec_tileRetire (v : Nat) (s : State) : exec (.tileRetire v) s = execTileRetire v s := rfl
theorem exec_retireWithdraw (v : Nat) (s : State) : exec (.retireWithdraw v) s = execRetireWithdraw v s := rfl

section
variable {s : State}

theorem State.tileValid_iff : s.tileValid = true ↔ s.sel.tile.toNat < 1152 ∧ s.listed s.sel.tile.toNat = true := by
  rw [State.tileValid, Bool.and_eq_true, decide_eq_true_eq]

theorem State.onTile_unserved (h : s.laneServed = false) (f : State → Nat → State) : s.onTile f = s := by
  simp [State.onTile, h]
theorem State.onTile_absent (h : s.laneServed = true)
    (k : ¬(s.sel.tile.toNat < 1152 ∧ s.listed s.sel.tile.toNat = true)) (f : State → Nat → State) :
    s.onTile f = s.hostErrOpen 3 := by
  have bad : s.tileValid = false := Bool.eq_false_iff.mpr (mt State.tileValid_iff.mp k)
  simp [State.onTile, h, bad]
theorem State.onTile_there (h : s.laneServed = true)
    (k : s.sel.tile.toNat < 1152 ∧ s.listed s.sel.tile.toNat = true) (f : State → Nat → State) :
    s.onTile f = f s s.sel.tile.toNat := by
  have ok : s.tileValid = true := State.tileValid_iff.mpr k
  simp [State.onTile, h, ok]

/-- A row that TILE_SEL governs is its effect on the selected tile. -/
theorem exec_tile_row {n v : Nat} {c : Instr} (k : c ∈ [Instr.halfPairWrite n v, .tileRetire v, .retireWithdraw v]) :
    ∃ f, ∀ s, exec c s = .next (s.onTile f) := by
  simp only [List.mem_cons, List.not_mem_nil, or_false] at k
  rcases k with rfl | rfl | rfl
  · exact ⟨_, exec_halfPairWrite n v⟩
  · exact ⟨_, exec_tileRetire v⟩
  · exact ⟨_, exec_retireWithdraw v⟩

theorem exec_tile_unserved (h : s.laneServed = false) {n v : Nat} {c : Instr}
    (k : c ∈ [Instr.halfPairWrite n v, .tileRetire v, .retireWithdraw v]) : exec c s = .next s := by
  obtain ⟨f, e⟩ := exec_tile_row k
  rw [e, State.onTile_unserved h]
theorem exec_tile_absent (h : s.laneServed = true)
    (a : ¬(s.sel.tile.toNat < 1152 ∧ s.listed s.sel.tile.toNat = true)) {n v : Nat} {c : Instr}
    (k : c ∈ [Instr.halfPairWrite n v, .tileRetire v, .retireWithdraw v]) : exec c s = .next (s.hostErrOpen 3) := by
  obtain ⟨f, e⟩ := exec_tile_row k
  rw [e, State.onTile_absent h a]

end

section
variable {s : State} (h : s.laneServed = true) (k : s.sel.tile.toNat < 1152 ∧ s.listed s.sel.tile.toNat = true)
include h k

theorem exec_halfPairWrite_there (n v : Nat) :
    exec (.halfPairWrite n v) s = .next (s.writePair s.sel.tile.toNat n v) := by
  rw [exec_halfPairWrite, execHalfPairWrite, State.onTile_there h k]
theorem exec_tileRetire_there (v : Nat) :
    exec (.tileRetire v) s = .next (if bit v 0 then s.markRetire s.sel.tile.toNat else s) := by
  rw [exec_tileRetire, execTileRetire, State.onTile_there h k]
theorem exec_retireWithdraw_there (v : Nat) :
    exec (.retireWithdraw v) s = .next (if bit v 0 then s.withdraw s.sel.tile.toNat else s) := by
  rw [exec_retireWithdraw, execRetireWithdraw, State.onTile_there h k]

end

/-! ### Half pairs -/

theorem pairRangeOk_iff {size base : Nat} : pairRangeOk size base = true ↔
    size ≤ 9 ∧ base % (2 ^ (size + 1)) = 0 ∧ base * 4096 + 2 * 4096 * 2 ^ size ≤ 0x600000 := by
  simp only [pairRangeOk, Bool.and_eq_true, decide_eq_true_eq, and_assoc]
theorem pairRangeOk_eq_false {size base : Nat} : pairRangeOk size base = false ↔
    ¬(size ≤ 9 ∧ base % (2 ^ (size + 1)) = 0 ∧ base * 4096 + 2 * 4096 * 2 ^ size ≤ 0x600000) := by
  rw [← pairRangeOk_iff, Bool.not_eq_true]

section
variable {s : State} {t n v : Nat}

/-- An enable in range that overlaps no enabled pair takes effect whole. -/
theorem State.writePair_enabled (e : bit v 0 = true) (r : pairRangeOk (bits v 2 4) (bits v 8 11) = true)
    (c : (s.tile t).pairClash n (bits v 2 4) (bits v 8 11) = false) :
    s.writePair t n v = s.modPair t n (fun h => { h with
      enable := true, size := BitVec.ofNat 4 (bits v 2 4), base4k := BitVec.ofNat 11 (bits v 8 11)
      syncEn := bit v 19, swapSync := BitVec.ofNat 18 (bits v 20 18), role := false, generation := 0 }) := by
  simp [State.writePair, e, r, c]

/-- Any other enable changes nothing but the log of refusals. -/
theorem State.writePair_refused (e : bit v 0 = true)
    (b : pairRangeOk (bits v 2 4) (bits v 8 11) = false ∨ (s.tile t).pairClash n (bits v 2 4) (bits v 8 11) = true) :
    s.writePair t n v = s.modTile t (fun x => { x with pairRefused := true, refusedPair := BitVec.ofNat 4 n }) := by
  rcases b with b | b <;> simp [State.writePair, e, b]

theorem State.writePair_disabled (e : bit v 0 = false) (r : pairRangeOk (bits v 2 4) (bits v 8 11) = true) :
    s.writePair t n v = s.modPair t n (fun h => { h with
      enable := false, size := BitVec.ofNat 4 (bits v 2 4), base4k := BitVec.ofNat 11 (bits v 8 11)
      syncEn := bit v 19, swapSync := BitVec.ofNat 18 (bits v 20 18) }) := by
  simp [State.writePair, e, r]

/-- A disable out of range keeps the pair's range, and is logged. -/
theorem State.writePair_disabled_range (e : bit v 0 = false) (r : pairRangeOk (bits v 2 4) (bits v 8 11) = false) :
    s.writePair t n v = (s.modPair t n (fun h => { h with
      enable := false, size := (s.pair t n).size, base4k := (s.pair t n).base4k
      syncEn := bit v 19, swapSync := BitVec.ofNat 18 (bits v 20 18) })).hostErrOpen 4 := by
  simp [State.writePair, e, r]

end

/-! ### Retirement marks -/

/-- How many of the listed times lie within the last hour of sclk. -/
def State.inLastHour (s : State) (l : List Nat) : Nat := (l.filter (fun x => decide (s.sclk < x + 360000000000))).length

theorem exec_autoRetireMark (t : Nat) (s : State) : exec (.autoRetireMark t) s = execAutoRetireMark t s := rfl

/-- The uncorrectable errors of the last hour in the tile store, or in the accumulators, pass the limit. -/
theorem exec_autoRetireMark_limit (t : Nat) (s : State) : exec (.autoRetireMark t) s =
    .next (if (s.tile t).retireLimit.toNat < s.inLastHour (s.tile t).ueTimes ∨
        (s.tile t).retireLimit.toNat < s.inLastHour (s.tile t).accUeTimes then s.markRetire t else s) := by
  rw [exec_autoRetireMark, execAutoRetireMark]
  exact congrArg _ (if_congr (by simp only [Bool.or_eq_true, decide_eq_true_eq, State.inLastHour]) rfl rfl)

end Sys2Proof.Machine

namespace Sys2Proof.Settled
open Sys2Proof.Machine

/-- Settles O49: the rows of the module block, then those that TILE_SEL governs, by whether the selected tile exists
and by what the half-pair write holds. -/
theorem partitionRows : Obligations.PartitionRows := by
  unfold Obligations.PartitionRows
  refine ⟨fun s v h => ⟨fun ok => ?_, fun bad => ?_, exec_bar2Window_served h, exec_partResume_served h⟩,
    fun s v h c k => exec_module_unserved h k, fun s n v h c k => exec_tile_unserved h k,
    fun s h => ⟨exec_partitionChange_none h, fun n z => exec_partitionChange_some h⟩, fun s n v h => ?_,
    fun s t => exec_autoRetireMark_limit t s⟩
  · rw [exec_partLayout_served h, State.layoutRequest_accepted ok]
  · rw [exec_partLayout_served h, State.layoutRequest_refused bad]
  · refine ⟨fun a c k => exec_tile_absent h a k, fun a e r c => ?_, fun a e b => ?_, fun a e r => ?_, fun a e r => ?_,
      fun a => exec_tileRetire_there h a v, fun a => exec_retireWithdraw_there h a v⟩
    · rw [exec_halfPairWrite_there h a, State.writePair_enabled e (pairRangeOk_iff.mpr r) c]
    · rw [exec_halfPairWrite_there h a, State.writePair_refused e (b.imp_left pairRangeOk_eq_false.mpr)]
    · rw [exec_halfPairWrite_there h a, State.writePair_disabled e (pairRangeOk_iff.mpr r)]
    · rw [exec_halfPairWrite_there h a, State.writePair_disabled_range e (pairRangeOk_eq_false.mpr r)]

end Sys2Proof.Settled
end

/-! ## Proofs: codes of the floating-point layouts -/
section
namespace Sys2Proof

/-! ### The fields of a code (R31) -/

/-- The mantissa field of a code. -/
def FLay.manField (l : FLay) (w : Nat) : Nat := w % 2 ^ l.man
/-- The exponent field of a code. -/
def FLay.expField (l : FLay) (w : Nat) : Nat := (w >>> l.man) % 2 ^ l.exp
/-- The sign of a code. -/
def FLay.sign (l : FLay) (w : Nat) : Bool := bit w (l.man + l.exp)

/-- The largest exponent field of a finite code: the all-ones field is taken where the layout has infinities. -/
def FLay.topExp (l : FLay) : Nat := 2 ^ l.exp - 1 - b01 l.hasInf

/-- The layout's largest finite magnitude is that of its largest finite code: the last mantissa under the largest exponent
field, or the last but one where the last is the layout's only NaN. -/
def FLay.Regular (l : FLay) : Prop :=
  2 ^ l.man ≤ l.maxM ∧ 1 ≤ l.topExp ∧ l.maxQ = (l.topExp : Int) - l.bias - l.man ∧
    l.maxM + 1 + b01 (!l.hasInf && l.nan.isSome) = 2 ^ (l.man + 1)

theorem FLay.regular_of_mem {l : FLay} (h : l ∈ [lay32, lay16, layBf, layE4m3, layE5m2, layE3m2, layE2m3, layE2m1]) :
    l.Regular := by
  revert l
  unfold FLay.Regular
  decide

@[simp] theorem b01_true : b01 true = 1 := rfl
@[simp] theorem b01_false : b01 false = 0 := rfl

theorem b01_bit (w i : Nat) : b01 (bit w i) = w / 2 ^ i % 2 := by
  have two : w / 2 ^ i % 2 = 0 ∨ w / 2 ^ i % 2 = 1 := Nat.mod_two_eq_zero_or_one _
  rcases two with h | h <;> simp [bit, bits, Nat.shiftRight_eq_div_pow, h]

section
variable {l : FLay} {w : Nat}

/-- A code is the sum of its three fields, each at its place. -/
theorem FLay.code_eq_fields (h : w < 2 ^ (1 + l.exp + l.man)) :
    w = l.manField w + l.expField w * 2 ^ l.man + b01 (l.sign w) * 2 ^ (l.man + l.exp) := by
  have top : w / 2 ^ (l.man + l.exp) < 2 := by
    rw [Nat.div_lt_iff_lt_mul (by positivity), ← pow_succ']
    convert h using 2
    omega
  have low := Nat.div_add_mod w (2 ^ l.man)
  have high := Nat.div_add_mod (w / 2 ^ l.man) (2 ^ l.exp)
  rw [Nat.div_div_eq_div_mul, ← pow_add] at high
  rw [FLay.manField, FLay.expField, FLay.sign, b01_bit, Nat.mod_eq_of_lt top, Nat.shiftRight_eq_div_pow]
  calc w = 2 ^ l.man * (2 ^ l.exp * (w / 2 ^ (l.man + l.exp)) + w / 2 ^ l.man % 2 ^ l.exp) + w % 2 ^ l.man := by
        rw [high, low]
    _ = _ := by ring

theorem FLay.manField_lt : l.manField w < 2 ^ l.man := Nat.mod_lt _ (by positivity)
theorem FLay.expField_lt : l.expField w < 2 ^ l.exp := Nat.mod_lt _ (by positivity)

/-! ### What a code decodes to -/

/-- A finite code is subnormal (exponent field 0) or normal; a normal one stays within the layout's largest finite code. -/
theorem FLay.decode_fin {n : Bool} {m : Nat} {e : Int} (h : l.decode w = .fin n m e) : n = l.sign w ∧
    (l.expField w = 0 ∧ m = l.manField w ∧ e = l.emin - l.man ∨
      1 ≤ l.expField w ∧ m = 2 ^ l.man + l.manField w ∧ e = (l.expField w : Int) - l.bias - l.man ∧
        (l.hasInf = true → l.expField w ≠ 2 ^ l.exp - 1) ∧
        (l.hasInf = false → l.nan.isSome = true → l.expField w = 2 ^ l.exp - 1 → l.manField w ≠ 2 ^ l.man - 1)) := by
  unfold FLay.decode at h
  dsimp only at h
  rw [← FLay.manField, ← FLay.expField, ← FLay.sign] at h
  split_ifs at h with inf zero nan sub
  · obtain ⟨rfl, rfl, rfl⟩ := h
    exact ⟨rfl, .inl ⟨sub, rfl, rfl⟩⟩
  · obtain ⟨rfl, rfl, rfl⟩ := h
    refine ⟨rfl, .inr ⟨by omega, rfl, rfl, fun i x => inf (by simp [i, x]), fun i k x f => nan (by simp [i, k, x, f])⟩⟩

theorem FLay.decode_inf {n : Bool} (h : l.decode w = .inf n) :
    n = l.sign w ∧ l.hasInf = true ∧ l.expField w = 2 ^ l.exp - 1 ∧ l.manField w = 0 := by
  unfold FLay.decode at h
  dsimp only at h
  rw [← FLay.manField, ← FLay.expField, ← FLay.sign] at h
  split_ifs at h with inf zero
  obtain rfl := Val.inf.inj h
  rw [Bool.and_eq_true, beq_iff_eq] at inf
  exact ⟨rfl, inf.1, inf.2, zero⟩

/-! ### A decoded value lies on the layout's grid, within its range -/

/-- The grid of a layout: a full significand at any exponent from the smallest, or fewer bits at the smallest. -/
def FLay.OnGrid (l : FLay) (m : Nat) (e : Int) : Prop :=
  m < 2 ^ (l.man + 1) ∧ l.emin - l.man ≤ e ∧ (2 ^ l.man ≤ m ∨ e = l.emin - l.man)

/-- Not above the layout's largest finite magnitude. -/
def FLay.InRange (l : FLay) (m : Nat) (e : Int) : Prop := e ≤ l.maxQ ∧ (e = l.maxQ → m ≤ l.maxM)

section
variable {n : Bool} {m : Nat} {e : Int}

theorem FLay.onGrid_of_decode (h : l.decode w = .fin n m e) : l.OnGrid m e := by
  have small : l.manField w < 2 ^ l.man := FLay.manField_lt
  obtain ⟨-, ⟨-, rfl, rfl⟩ | ⟨pos, rfl, rfl, -, -⟩⟩ := FLay.decode_fin h
  · exact ⟨by omega, le_refl _, .inr rfl⟩
  · exact ⟨by omega, by rw [FLay.emin]; omega, .inl (by omega)⟩

theorem FLay.inRange_of_decode (g : l.Regular) (h : l.decode w = .fin n m e) : l.InRange m e := by
  have small : l.manField w < 2 ^ l.man := FLay.manField_lt
  have below : l.expField w < 2 ^ l.exp := FLay.expField_lt
  obtain ⟨wide, top, maxQ, maxM⟩ := g
  obtain ⟨-, ⟨-, rfl, rfl⟩ | ⟨pos, rfl, rfl, noInf, noNan⟩⟩ := FLay.decode_fin h
  · exact ⟨by rw [maxQ, FLay.emin]; omega, fun _ => by omega⟩
  · have le_top : l.expField w ≤ l.topExp := by
      unfold FLay.topExp
      cases i : l.hasInf with
      | false => rw [b01_false]; omega
      | true => have := noInf i; rw [b01_true]; omega
    refine ⟨by omega, fun at_top => ?_⟩
    have eq_top : l.expField w = l.topExp := by omega
    cases k : !l.hasInf && l.nan.isSome with
    | false => rw [k, b01_false] at maxM; omega
    | true =>
      rw [k, b01_true] at maxM
      rw [Bool.and_eq_true, Bool.not_eq_true'] at k
      obtain ⟨i, k⟩ := k
      have := noNan i k (by simp [eq_top, FLay.topExp, i])
      omega

/-! ### Conversion of a value on the grid (R44 to R46) -/

/-- The unit in the last place of a value on the grid is the value's own unit. -/
theorem FLay.quantum_of_onGrid (h : l.OnGrid m e) (pos : m ≠ 0) : l.quantum m e = e := by
  obtain ⟨lt, low, full | sub⟩ := h
  · have log : Nat.log2 m = l.man := (Nat.log2_eq_iff pos).mpr ⟨full, lt⟩
    rw [FLay.quantum, mag2, log]
    omega
  · have log : Nat.log2 m < l.man + 1 := (Nat.log2_lt pos).mpr lt
    rw [FLay.quantum, mag2]
    omega

theorem roundTo_unit (md : Rnd) (r m : Nat) (e : Int) : roundTo md r m e e = m := by
  simp [roundTo, scaleUp]

theorem Val.lt_nonneg (a b : Nat) (p q : Int) : Val.lt (.fin false a p) (.fin false b q) =
    decide (scaleUp a p (Min.min p q) < scaleUp b q (Min.min p q)) := by
  simp [Val.lt, units]

theorem FLay.not_max_lt (g : l.Regular) (h : l.OnGrid m e) (k : l.InRange m e) :
    Val.lt (.fin false l.maxM l.maxQ) (.fin false m e) = false := by
  obtain ⟨wide, -, -, -⟩ := g
  obtain ⟨lt, -, -⟩ := h
  obtain ⟨le, eq⟩ := k
  rw [Val.lt_nonneg, decide_eq_false_iff_not, not_lt, min_eq_right le, scaleUp, scaleUp, sub_self]
  rcases le.eq_or_lt with at_top | lower
  · simpa [at_top] using eq at_top
  · have two : 2 ^ 1 ≤ 2 ^ (l.maxQ - e).toNat := Nat.pow_le_pow_right (by omega) (by omega)
    calc m * 2 ^ (0 : Int).toNat ≤ 2 ^ l.man * 2 ^ 1 := by rw [← pow_add]; simpa using lt.le
      _ ≤ l.maxM * 2 ^ (l.maxQ - e).toNat := Nat.mul_le_mul wide two

/-- A value on the grid and in range converts exactly: nothing to round, flush or saturate. -/
theorem FLay.convert_of_onGrid (g : l.Regular) (h : l.OnGrid m e) (k : l.InRange m e) (pos : m ≠ 0) (md : Rnd)
    (nonsat : Bool) (r : Nat) : l.convert md nonsat r (.fin n m e) = (l.pack n m e, .zero) := by
  cases m with
  | zero => exact absurd rfl pos
  | succ m =>
    simp only [FLay.convert]
    rw [FLay.quantum_of_onGrid h pos, roundTo_unit, if_neg pos, FLay.not_max_lt g h k]
    rfl

/-! ### Packing gives the code back -/

theorem FLay.pack_of_lt (h : m < 2 ^ l.man) : l.pack n m e = m + b01 n * 2 ^ (l.man + l.exp) := by
  have short : ¬m ≥ 2 ^ (l.man + 1) := by omega
  simp [FLay.pack, short, h]

/-- A normal significand packs to its mantissa under the exponent field of its unit. -/
theorem FLay.pack_normal {f x : Nat} (h : f < 2 ^ l.man) : l.pack n (2 ^ l.man + f) ((x : Int) - l.bias - l.man) =
    f + x * 2 ^ l.man + b01 n * 2 ^ (l.man + l.exp) := by
  have short : ¬2 ^ l.man + f ≥ 2 ^ (l.man + 1) := by omega
  have field : ((x : Int) - l.bias - l.man + l.man + l.bias).toNat = x := by omega
  simp only [FLay.pack, short, if_false, field, Nat.shiftLeft_eq, Nat.not_lt.mpr (Nat.le_add_right _ f),
    Nat.add_sub_cancel_left]
  omega

theorem FLay.pack_of_decode (c : w < 2 ^ (1 + l.exp + l.man)) (h : l.decode w = .fin n m e) : l.pack n m e = w := by
  have small : l.manField w < 2 ^ l.man := FLay.manField_lt
  have fields := FLay.code_eq_fields c
  obtain ⟨rfl, ⟨zero, rfl, rfl⟩ | ⟨-, rfl, rfl, -, -⟩⟩ := FLay.decode_fin h
  · rw [zero, Nat.zero_mul, Nat.add_zero] at fields
    rw [FLay.pack_of_lt small, ← fields]
  · rw [FLay.pack_normal small, ← fields]

theorem FLay.packInf_of_decode (c : w < 2 ^ (1 + l.exp + l.man)) (h : l.decode w = .inf n) : l.packInf n = w := by
  have fields := FLay.code_eq_fields c
  obtain ⟨rfl, inf, ones, zero⟩ := FLay.decode_inf h
  rw [ones, zero, Nat.zero_add] at fields
  rw [FLay.packInf, if_pos inf, Nat.shiftLeft_eq, ← fields]

/-! ### The round trip -/

theorem FLay.convert_decode_fin (g : l.Regular) (c : w < 2 ^ (1 + l.exp + l.man)) (h : l.decode w = .fin n m e)
    (md : Rnd) (nonsat : Bool) (r : Nat) : l.convert md nonsat r (l.decode w) = (w, .zero) := by
  have grid := FLay.onGrid_of_decode h
  have packed := FLay.pack_of_decode c h
  rw [h]
  by_cases pos : m = 0
  · subst pos
    rw [FLay.pack_of_lt (by positivity)] at packed
    rw [FLay.convert, FLay.pack_of_lt (by positivity), packed]
  · rw [FLay.convert_of_onGrid g grid (FLay.inRange_of_decode g h) pos, packed]

theorem FLay.convert_decode_inf (c : w < 2 ^ (1 + l.exp + l.man)) (h : l.decode w = .inf n) (md : Rnd) (nonsat : Bool)
    (r : Nat) : l.convert md nonsat r (l.decode w) = (w, .zero) := by
  obtain ⟨-, inf, -, -⟩ := FLay.decode_inf h
  rw [h, FLay.convert, if_pos inf, FLay.packInf_of_decode c h]

end
end
end Sys2Proof

namespace Sys2Proof.Settled

/-- Settles O60: a decoded finite value lies on its layout's grid and within its range, so conversion rounds nothing and
packing gives the code back; infinities and NaN by their cases of the conversion. -/
theorem formatRoundTrip : Obligations.FormatRoundTrip := by
  unfold Obligations.FormatRoundTrip
  intro l mem w md nonsat r c
  refine ⟨fun n m e h => FLay.convert_decode_fin (FLay.regular_of_mem mem) c h md nonsat r,
    fun n h => FLay.convert_decode_inf c h md nonsat r, fun h => ?_⟩
  rw [h, FLay.convert]

end Sys2Proof.Settled
end

/-! ## Proofs: rows of the matrix arrays and drain units -/
section
namespace Sys2Proof.Machine
open Sys2Proof.Claims

/-! ### A row of a tile's unit, and what ECC finds in the words it reads (R84, R154) -/

section
variable {s : State} {id t : Nat} {entry : Bool} {e : EccFound}

theorem State.unitRow_contextError (h : Live s) (reads : entry = true) (bad : e.ctx = true) (f : State → State) :
    s.unitRow id t entry e f = s.contextError id t := by
  obtain ⟨hfrozen, hpaused⟩ := h
  rw [State.unitRow, State.unlessHalted_next hfrozen hpaused, reads, bad]
  rfl

theorem State.unitRow_next (h : Live s) (good : entry = false ∨ e.ctx = false) (f : State → State) :
    s.unitRow id t entry e f = (f (s.eccFound t e)).syncPorts id := by
  obtain ⟨hfrozen, hpaused⟩ := h
  rw [State.unitRow, State.unlessHalted_next hfrozen hpaused, if_neg (by rcases good with g | g <;> simp [g])]

end

theorem exec_streamingRowIssue (ref : RowRef) (e : EccFound) (s : State) : exec (.streamingRowIssue ⟨ref, e⟩) s =
    .next (s.unitRow (rowWork ref).1 (rowWork ref).2.1 (rowWork ref).2.2 e (fun z => z.streamRow ref)) := by
  cases ref <;> rfl

theorem exec_slotRowLoad (ref : SlotRef) (e : EccFound) (s : State) : exec (.slotRowLoad ⟨ref, e⟩) s =
    .next (s.unitRow (slotWork ref).1 (slotWork ref).2.1 (slotWork ref).2.2 e (fun z => z.slotRow ref)) := by
  cases ref <;> rfl

/-- DRAIN and FILL are one row for descriptors of two kinds. -/
theorem exec_drain_or_fill (w : WorkRef) (e : EccFound) (f : Bool) (s : State) :
    exec (if f = true then .fill ⟨w, e⟩ else .drain ⟨w, e⟩) s =
      .next (s.unitRow (refId w) (refTile w) (refEntry w) e (fun z => z.drainRef w f)) := by
  cases f <;> rfl

/-! ### Streams that lack beats -/

theorem State.fed_eq_false (s : State) (t unit : Nat) (l : List (Nat × Nat)) :
    s.fed t unit l = false ↔ ∃ x ∈ l, ((s.tile t).queue x.1 unit).beats.length < x.2 := by
  simp only [State.fed, List.all_eq_false, decide_eq_true_eq, not_le]

/-! ### One issue attempt of a streaming row -/

theorem State.streamRow_of_names {s : State} {ref : RowRef} {r : RowIssue} {ahead : Bool} (h : NamesRow s ref r ahead) :
    s.streamRow ref = s.rowIssue r ahead := by
  cases ref with
  | frond id tile array pn =>
    have next : s.nextRow id tile array pn = some (r, ahead) := h
    rw [State.streamRow, next]
  | direct x =>
    obtain ⟨rfl, noRun, rfl⟩ := h
    rw [State.streamRow, noRun]
    rfl

/-- Row `r` belongs to work that issues, `i`; its rate class is `cls`, and its pinnule and chain may have it. -/
structure State.RowMay (s : State) (r : RowIssue) (i : Issuer) (cls : Nat) : Prop where
  issuer : s.issuer r.work = some i
  live : i.live = true
  cls : arrClass r.fmtA = some cls
  legal : rowLegal r = true
  link : r.chainOut = true → chainLink r.tile r.array r.chainTo = true

/-- The pinnule's slot has come, and with it the mclk before which the row does not issue; the wait is counted. -/
def State.rowWaited (s : State) (r : RowIssue) (i : Issuer) (cls : Nat) : State :=
  let v := s.untilMclk (s.rowSlot r cls)
  let n := v.rowNotBefore r cls
  if v.mclk < n.1 then (v.arrStall i r.tile r.array r.pn n.2 (n.1 - v.mclk)).untilMclk n.1 else v

/-- What a row does at the answer to its request for banks. -/
def State.rowAnswered (s : State) (r : RowIssue) (i : Issuer) (cls : Nat) : Grant → State
  | .granted => s.rowGo r i cls
  | .refused => s.rowHold r i 1 false
  | .bound => s.rowHold r i 6 false

/-- The row waits for its mclk, asks for its banks and does what the answer allows. -/
def State.rowAsked (s : State) (r : RowIssue) (i : Issuer) (cls : Nat) : State :=
  let g := (s.rowWaited r i cls).askBanks r.tile (reqKey r.array r.pn) (rowWords r)
  g.2.rowAnswered r i cls g.1

/-- The checks of an attempt in their order, each with the hold that it ends in. -/
theorem State.rowIssue_eq {s : State} {r : RowIssue} {i : Issuer} {cls : Nat} (h : s.RowMay r i cls) (ahead : Bool) :
    let a := (s.tile r.tile).arr r.array
    let u := if r.marker = true then s.completeSet r else s
    s.rowIssue r ahead =
      if ¬((a.pin r.pn).active.shape = r.shape ∧ (a.pin r.pn).active.cls = cls) ∧ r.marker = false then s
      else if r.marker = true ∧ s.markerReady r cls = false then s.rowHold r i 2 true
      else if rowMode r = 2 ∧ a.chainQ = [] then s.rowHold r i 1 true
      else if ∃ x ∈ rowStreams r, ((s.tile r.tile).queue x.1 r.array).beats.length < x.2 then
        s.rowHold r i 1 (decide (1 < (rowStreams r).length))
      else if r.chainOut = true ∧ 16 ≤ ((s.tile (r.chainTo / 2)).arr (r.chainTo % 2)).chainQ.length then
        s.rowHold r i 4 false
      else if ahead = true then s.rowHold r i 3 false
      else if r.marker = true ∧ (u.pin r.tile r.array r.pn).shadow.lacks ≠ some 0 then u.rowHold r i 2 true
      else u.rowAsked r i cls := by
  obtain ⟨issuer, live, rate, legal, link⟩ := h
  have may : ¬(!i.live || !rowLegal r || (r.chainOut && !chainLink r.tile r.array r.chainTo)) = true := by
    cases c : r.chainOut with
    | false => simp [live, legal]
    | true => simp [live, legal, link c]
  simp only [State.rowIssue, issuer, rate]
  rw [if_neg may]
  refine if_congr ?unfit rfl (if_congr ?noSet rfl (if_congr ?noChain rfl (if_congr ?lacks rfl (if_congr ?full rfl
    (if_congr Iff.rfl rfl (if_congr ?short rfl ?asks))))))
  case unfit => rw [not_and_or]; simp
  case noSet => simp
  case noChain => simp
  case lacks => rw [Bool.not_eq_true', State.fed_eq_false]
  case full => simp
  case short => simp
  case asks =>
    unfold State.rowAsked State.rowWaited
    generalize State.askBanks _ _ _ _ = answer
    obtain ⟨g, v⟩ := answer
    cases g <;> rfl

/-! ### A slot-row of a stationary load -/

/-- A run whose list has a next slot-row is there. -/
theorem State.run_of_nextSlot {s : State} {id tile array : Nat} {x : SlotRow × Bool}
    (h : s.nextSlot id tile array = some x) : ∃ run, s.run id = some run := by
  cases r : s.run id with
  | none => simp [State.nextSlot, r] at h
  | some run => exact ⟨run, rfl⟩

theorem State.slotRow_of_names {s : State} {ref : SlotRef} {r : SlotRow} {fresh : Bool} (h : NamesSlot s ref r fresh) :
    s.slotRow ref = slotNoted (s.slotLoad r fresh) ref (((s.run (slotWork ref).1).map (fun x => x.cur)).getD 0) := by
  cases ref with
  | frond id tile array =>
    have next : s.nextSlot id tile array = some (r, fresh) := h
    obtain ⟨run, there⟩ := State.run_of_nextSlot next
    simp only [State.slotRow, State.frondSlot, next, slotWork, there]
    rfl
  | direct x =>
    obtain ⟨rfl, noRun, rfl⟩ := h
    rw [State.slotRow, noRun]
    rfl

/-- Slot-row `r` belongs to work that issues, `i`; its rate class is `cls`, and its pinnule may load it. -/
structure State.SlotMay (s : State) (r : SlotRow) (i : Issuer) (cls : Nat) : Prop where
  issuer : s.issuer r.work = some i
  live : i.live = true
  cls : arrClass r.fmt = some cls
  pinnule : r.pn < shapePins r.shape
  transpose : r.transpose = true → r.shape ≠ 1 ∧ ((Fmt.ofCode r.fmt).getD .fp32).isBlock = false

/-- The set that the slot-row enters: a new one where none has begun, or an ended plane's stands there. -/
def State.loadSet (s : State) (r : SlotRow) (cls : Nat) (fresh : Bool) : StatSet :=
  let sh := (s.pin r.tile r.array r.pn).shadow
  if sh.need = 0 ∨ fresh = true then sh.begin r cls (s.tile r.tile).roles else sh

/-- What a slot-row of set `sh` does at the answer to its request for banks. -/
def State.slotAnswered (s : State) (r : SlotRow) (i : Issuer) (cls : Nat) (sh : StatSet) : Grant → State
  | .granted => s.slotWrite r i cls sh
  | .refused => s.stall i r.tile (2 + r.array) 1 1
  | .bound => s.stall i r.tile (2 + r.array) 6 1

theorem slotLegal_of_transpose {r : SlotRow} (p : r.pn < shapePins r.shape)
    (t : r.transpose = true → r.shape ≠ 1 ∧ ((Fmt.ofCode r.fmt).getD .fp32).isBlock = false) : slotLegal r = true := by
  cases h : r.transpose with
  | false => simp [slotLegal, p, h]
  | true => simp [slotLegal, p, t h]

/-- The checks of a slot-row in their order, each with the hold that it ends in. -/
theorem State.slotLoad_eq {s : State} {r : SlotRow} {i : Issuer} {cls : Nat} (h : s.SlotMay r i cls) (fresh : Bool) :
    let unit := 2 + r.array
    let sh := (s.pin r.tile r.array r.pn).shadow
    let set0 := s.loadSet r cls fresh
    let want := slotStreams r cls set0.rows
    let g := s.askBanks r.tile (reqKey unit 0) (slotWords r cls set0.rows)
    s.slotLoad r fresh =
      if 0 < sh.need ∧ sh.rows = sh.need then s.stall i r.tile unit 6 1
      else if ∃ x ∈ want, ((s.tile r.tile).queue x.1 unit).beats.length < x.2 then
        (s.stall i r.tile unit 1 1).waitAt r.work r.tile unit ((want.map Prod.fst).headD 0)
      else g.2.slotAnswered r i cls set0 g.1 := by
  obtain ⟨issuer, live, rate, pinnule, transpose⟩ := h
  have may : ¬(!i.live || !slotLegal r) = true := by simp [live, slotLegal_of_transpose pinnule transpose]
  have begun : (if ((s.pin r.tile r.array r.pn).shadow.need = 0 || fresh) = true then
      (s.pin r.tile r.array r.pn).shadow.begin r cls (s.tile r.tile).roles else (s.pin r.tile r.array r.pn).shadow) =
      s.loadSet r cls fresh := if_congr (by simp) rfl rfl
  simp only [State.slotLoad, issuer, rate]
  rw [if_neg may]
  simp only [begun]
  refine if_congr Iff.rfl rfl (if_congr ?lacks rfl ?asks)
  case lacks => rw [Bool.not_eq_true', State.fed_eq_false]
  case asks =>
    generalize State.askBanks _ _ _ _ = answer
    obtain ⟨g, v⟩ := answer
    cases g <;> rfl

/-- What a slot-row from memory, whose elements and scales carry no poison, writes. -/
theorem State.slotWrite_of_memory {s : State} {r : SlotRow} {cls : Nat} {sh : StatSet} (src : ∀ n, r.src ≠ .stream n)
    (scales : ((Fmt.ofCode r.fmt).getD .fp32).isBlock = true → r.scaleStream = false)
    (clean : (s.slotValues r cls sh.rows sh.latch 0 (fun _ => false) nullBeat).2 = false) (i : Issuer) :
    let x := s.slotValues r cls sh.rows sh.latch 0 (fun _ => false) nullBeat
    let new := { sh with
      rows := sh.rows + 1
      poison := sh.poison || x.2
      cells := x.1.foldl (fun c (y : Nat × Val) => c.set y.1 y.2) sh.cells }
    let v := (s.modPin r.tile r.array r.pn (fun q => { q with shadow := new })).stall i r.tile (2 + r.array) 0 1
    s.slotWrite r i cls sh = (if sh.rows + 1 = sh.need then v.issuedOp r.work r.tile (2 + r.array) else v).moved r.work
      r.tile (2 + r.array) := by
  have noScales : ¬(((Fmt.ofCode r.fmt).getD .fp32).isBlock && r.scaleStream) = true := by
    rw [Bool.and_eq_true, not_and, Bool.not_eq_true]
    exact scales
  unfold State.slotWrite
  cases h : r.src with
  | stream n => exact absurd h (src n)
  | store o => simp only [if_neg noScales, List.headD_nil, clean, Bool.or_false]; rfl
  | cache o => simp only [if_neg noScales, List.headD_nil, clean, Bool.or_false]; rfl

/-! ### DRAIN and FILL -/

section
variable {s : State} {w : WorkRef} {f : Bool}

/-- A drain that a stream holds goes on, wherever its row is sent again. -/
theorem State.drainRef_resumes {d : DrainRun} {i : Issuer} (h : (s.tile (refTile w)).ma0.drain = some d)
    (names : refNames w d.op = true) (kind : dFill d.op.desc = f) (goes : s.goesOn d.op.id = some i) :
    s.drainRef w f = s.drainOn d i := by
  simp [State.drainRef, h, names, kind, goes, Option.filter_some]

/-- With none under way, the reference resolves to a descriptor in order. -/
structure State.DrainMay (s : State) (w : WorkRef) (o : OpRef) (p : Option OpPlace) (i : Issuer) : Prop where
  idle0 : (s.tile (refTile w)).ma0.drain = none
  idle1 : (s.tile (refTile w)).ma1.drain = none
  resolves : s.resolve w 0 = some (o, p)
  issuer : s.issuer o.id = some i
  live : i.live = true
  good : drainBad o.desc = false

variable {o : OpRef} {p : Option OpPlace} {i : Issuer}

theorem State.drainRef_eq (h : s.DrainMay w o p i) (f : Bool) : s.drainRef w f =
    if dFill o.desc ≠ f ∨ drainOver ((s.tile o.tile).arr (dArray o.desc)).shape o.desc = true ∨
      s.drainWaits o p = true then s
    else s.drainGo o i := by
  obtain ⟨idle0, idle1, resolves, issuer, live, good⟩ := h
  simp only [State.drainRef, idle0, idle1, List.findSome?, Option.filter, resolves, issuer]
  exact if_congr (by simp [live, good, or_assoc]) rfl rfl

/-- The unit begins once it is free and no earlier row of the region is in flight. -/
theorem State.drainGo_eq (h : ((s.tile o.tile).arr (dArray o.desc)).drain = none) (i : Issuer) :
    let a := dArray o.desc
    let u := s.untilMclk (max ((s.tile o.tile).arr a).drainUntil (s.flightEnd o.tile a o.desc))
    s.drainGo o i =
      (u.issueEntry o (4 + a)).drainOn { op := o, start := u.mclk, roles := (u.tile o.tile).roles } i := by
  rw [State.drainGo, h]
  rfl

end

/-- The destination stream of a drain cannot take a row. -/
def State.drainHeld (s : State) (o : OpRef) : Prop :=
  dDest o.desc = 1 ∧ s.sourceFull o.tile (dw o.desc 64 16) (drainBeats o.desc) = true

section
variable {s : State} {o : OpRef}

theorem State.drainRows_held (h : s.drainHeld o) (i : Issuer) (roles n row : Nat) :
    s.drainRows o i roles n row = (row, s) := by
  cases n with
  | zero => rfl
  | succ n => rw [State.drainRows]; exact if_pos h

theorem State.drainRows_next (h : ¬s.drainHeld o) (i : Issuer) (roles n row : Nat) :
    s.drainRows o i roles (n + 1) row =
      (if dFill o.desc = true then s.fillOne o roles row else s.drainOne o i roles row).drainRows o i roles n (row + 1) := by
  rw [State.drainRows]
  exact if_neg h

end

/-- The stamps of a drain's rows, the first of them in mclk `start`, and what is left of it. -/
def MatArray.drainStamps (x : MatArray) (b : List Byte) (start : Nat) (k : Option DrainRun) : MatArray := { x with
  drainFrom := start, drainUntil := start + drainLen b, drainBase := dRowBase b, drainRows := dRows b, drainCol := dCol b,
  drainCols := dCols b, drainLag := if dFill b then 4 else 2, drain := k }

/-- A held drain that went on until it reached row `y.1`: its late mclks count under the stream's cause, its rows as busy
ones, and it has moved if it issued one. -/
def State.drainCounted (s : State) (d : DrainRun) (i : Issuer) (late : Nat) (y : Nat × State) : State :=
  let t := d.op.tile
  let unit := 4 + dArray d.op.desc
  let v := (if late = 0 then y.2 else y.2.stall i t unit (s.holdCause t (dw d.op.desc 64 16)) late).stall i t unit 0
    (y.1 - d.row)
  if y.1 = d.row then v else v.moved d.op.id t unit

/-- The drain, whose first row stands in mclk `start`, has issued its last row. -/
def State.drainEnded (s : State) (d : DrainRun) (i : Issuer) (start : Nat) : State :=
  let o := d.op
  let a := dArray o.desc
  ((s.modArr o.tile a (fun x => x.drainStamps o.desc start none)).stall i o.tile (4 + a) 0
    (drainLen o.desc - dRows o.desc)).movesTo o.id (start + drainLen o.desc)

/-- The drain, whose first row stands in mclk `start`, is held at `row`. -/
def State.drainStopped (s : State) (d : DrainRun) (start row : Nat) : State :=
  (s.modArr d.op.tile (dArray d.op.desc) (fun x => x.drainStamps d.op.desc start
    (some { d with start := start, row := row }))).movesTo d.op.id (start + row)

/-- A drain that a stream held goes on to its end, or to a row that the stream cannot take. -/
theorem State.drainOn_resumed {s : State} {d : DrainRun} (begun : 0 < d.row) (i : Issuer) :
    let late := s.mclk - (d.start + d.row)
    let y := s.drainRows d.op i d.roles (dRows d.op.desc - d.row) d.row
    let v := s.drainCounted d i late y
    s.drainOn d i = if y.1 = dRows d.op.desc then v.drainEnded d i (d.start + late)
      else v.drainStopped d (d.start + late) y.1 := by
  rw [State.drainOn]
  simp only [if_pos (Or.inl begun)]
  rfl

end Sys2Proof.Machine

namespace Sys2Proof.Settled
open Sys2Proof.Machine Sys2Proof.Claims

/-- Settles O35: the order of the checks of an attempt (`State.rowIssue_eq`), clause by clause. -/
theorem streamingRowAttempt : Obligations.StreamingRowAttempt := by
  unfold Obligations.StreamingRowAttempt
  intro s ref e live id z ends
  refine ⟨fun reads bad => by rw [exec_streamingRowIssue, State.unitRow_contextError live reads bad],
    fun good r ahead i cls names issuer working rate legal link => ?_⟩
  intro a fits noSet chained noChain lacks full
  have ends_of {u : State} (h : z.rowIssue r ahead = u) : ends u := by
    rw [← h, ← State.streamRow_of_names names]
    exact (exec_streamingRowIssue ref e s).trans (congrArg _ (State.unitRow_next live good _))
  have attempt := State.rowIssue_eq ⟨issuer, working, rate, legal, link⟩ ahead
  refine ⟨fun unfit unmarked => ends_of (attempt.trans (if_pos ⟨unfit, unmarked⟩)), fun may => ?_⟩
  have passed : ¬(¬fits ∧ r.marker = false) := fun ⟨unfit, unmarked⟩ =>
    may.elim unfit (by rw [unmarked]; exact Bool.false_ne_true)
  have fitting := attempt.trans (if_neg passed)
  have ready (set : ¬noSet) := fitting.trans (if_neg set)
  have chainFed (set : ¬noSet) (row : ¬noChain) := (ready set).trans (if_neg row)
  have fed (set : ¬noSet) (row : ¬noChain) (beats : ¬lacks) := (chainFed set row).trans (if_neg beats)
  have unblocked (set : ¬noSet) (row : ¬noChain) (beats : ¬lacks) (room : ¬full) := (fed set row beats).trans (if_neg room)
  refine ⟨fun hold => ends_of (fitting.trans (if_pos hold)), fun set hold => ends_of ((ready set).trans (if_pos hold)),
    fun set row hold => ends_of ((chainFed set row).trans (if_pos hold)),
    fun set row beats hold => ends_of ((fed set row beats).trans (if_pos hold)),
    fun set row beats room hold => ends_of ((unblocked set row beats room).trans (if_pos hold)), ?_⟩
  intro set row beats room begun u complete v n w g
  have asks := (unblocked set row beats room).trans ((if_neg (Bool.eq_false_iff.mp begun)).trans
    (if_neg (fun short => short.2 (complete short.1))))
  have answered (x : Grant) (h : g.1 = x) : ends (g.2.rowAnswered r i cls x) := by
    subst h
    exact ends_of asks
  exact ⟨answered .granted, answered .refused, answered .bound⟩

/-- Settles O36: the order of the checks of a slot-row (`State.slotLoad_eq`), and what one from memory writes. -/
theorem slotRowEntersShadowSet : Obligations.SlotRowEntersShadowSet := by
  unfold Obligations.SlotRowEntersShadowSet
  constructor
  · intro s ref e live id z
    refine ⟨fun reads bad => by rw [exec_slotRowLoad, State.unitRow_contextError live reads bad],
      fun good r fresh i cls names issuer working rate pinnule transpose => ?_⟩
    intro ends unit sh k set0 want complete lacks g
    have ends_of {u : State} (h : z.slotLoad r fresh = u) : ends u := by
      rw [← h]
      refine (exec_slotRowLoad ref e s).trans (congrArg _ ((State.unitRow_next live good _).trans ?_))
      rw [State.slotRow_of_names names]
    have attempt := State.slotLoad_eq ⟨issuer, working, rate, pinnule, transpose⟩ fresh
    refine ⟨fun hold => ends_of (attempt.trans (if_pos hold)), fun room hold =>
      ends_of (attempt.trans ((if_neg room).trans (if_pos hold))), fun room beats => ?_⟩
    have asks := attempt.trans ((if_neg room).trans (if_neg beats))
    have answered (x : Grant) (h : g.1 = x) : ends (g.2.slotAnswered r i cls set0 x) := by
      subst h
      exact ends_of asks
    exact ⟨answered .granted, answered .refused, answered .bound⟩
  · intro s r i cls sh src scales x new clean
    exact State.slotWrite_of_memory src scales clean i

/-- Settles O37: what a reference to a descriptor does, where a held drain goes on to, and its rows one by one. -/
theorem drainAndFillRows : Obligations.DrainAndFillRows := by
  unfold Obligations.DrainAndFillRows
  refine ⟨?starts, ?resumes, fun s o i roles n row =>
    ⟨fun h => State.drainRows_held h i roles n row, fun h => State.drainRows_next h i roles n row⟩⟩
  case starts =>
    intro s w e f live good z c
    have ends_of {u : State} (h : z.drainRef w f = u) : exec c s = .next (u.syncPorts (refId w)) := by
      rw [← h]
      exact (exec_drain_or_fill w e f s).trans (congrArg _ (State.unitRow_next live good _))
    refine ⟨fun o p i idle0 idle1 resolves issuer working ok => ?_, fun d i held names kind goes =>
      ends_of (State.drainRef_resumes held names kind goes)⟩
    have attempt := State.drainRef_eq ⟨idle0, idle1, resolves, issuer, working, ok⟩ f
    refine ⟨fun other => ends_of (attempt.trans (if_pos (.inl other))),
      fun waits => ends_of (attempt.trans (if_pos (.inr waits))), fun kind inside due idle => ?_⟩
    have may : ¬(dFill o.desc ≠ f ∨ drainOver ((z.tile o.tile).arr (dArray o.desc)).shape o.desc = true ∨
        z.drainWaits o p = true) := by simp [kind, inside, due]
    exact ends_of ((attempt.trans (if_neg may)).trans (State.drainGo_eq idle i))
  case resumes =>
    intro s d i o b a y late held stamps begun
    have resumed := State.drainOn_resumed (s := s) begun i
    have counted (h : y.1 ≠ d.row) : s.drainCounted d i late y = held.moved o.id o.tile (4 + a) := if_neg h
    have uncounted (h : y.1 = d.row) : s.drainCounted d i late y = held := if_pos h
    refine ⟨fun before ends => ?_, fun moved before => ?_, fun stays before => ?_⟩
    · exact resumed.trans ((if_pos ends).trans
        (congrArg (fun v => v.drainEnded d i (d.start + late)) (counted (by omega))))
    · exact resumed.trans ((if_neg before.ne).trans
        (congrArg (fun v => v.drainStopped d (d.start + late) y.1) (counted moved.ne')))
    · exact resumed.trans ((if_neg before.ne).trans
        (congrArg₂ (fun v n => v.drainStopped d (d.start + late) n) (uncounted stays) stays))

end Sys2Proof.Settled
end

/-! ## Proofs: invocations of the vector engines -/
section
namespace Sys2Proof.Machine
open Sys2Proof.Claims

/-! ### The row: what it goes on with, or begins -/

/-- A row that reads no word with an error, of a context or of memory, changes nothing on that account. -/
@[simp] theorem State.eccFound_none (s : State) (t : Nat) : s.eccFound t {} = s := ite_self s

theorem exec_invocation {s : State} {w : WorkRef} {e : EccFound} (h : Live s) (good : refEntry w = false ∨ e.ctx = false) :
    exec (.invocation ⟨w, e⟩) s =
      .next (((s.eccFound (refTile w) e).invocationRow w).syncPorts (refId w)) :=
  congrArg _ (State.unitRow_next h good _)

section
variable {s : State} {w : WorkRef}

/-- A reference is to a chain of its own unless it is to the work of a FUSED_CHAIN. -/
theorem State.invocationRow_of_no_fused
    (h : ∀ id t d x k l, w = .direct id t d x k l → s.work.fused.find? (fun f => f.id == id) = none) :
    s.invocationRow w = s.invocation w := by
  cases w with
  | frond id t e => rfl
  | direct id t d x k l => simp only [State.invocationRow, h id t d x k l rfl]

/-- The invocation that a stream holds goes on wherever its row is sent again. -/
theorem State.invocation_resumes {g : VRun} {i : Issuer} (held : (s.vec (refTile w)).run = some g)
    (names : refNames w g.op = true) (goes : s.goesOn g.op.id = some i) : s.invocation w = s.invokeMore g i := by
  simp only [State.invocation, held, Option.filter_some, names, if_true, goes]

theorem State.invocation_begins {o : OpRef} {p : Option OpPlace} {i : Issuer} (idle : (s.vec (refTile w)).run = none)
    (resolves : s.resolve w 1 = some (o, p)) (issuer : s.issuer o.id = some i) (live : i.live = true)
    (chain : chainBadAt (slice o.desc 0 256) (isUe o.tile) = none)
    (record : recordBad (slice o.desc 0 256) (slice o.record 0 16) = none) :
    s.invocation w = s.invoke o i (slice o.desc 0 256) (slice o.record 0 16) := by
  simp only [State.invocation, idle, Option.filter_none, resolves, issuer, live, chain, record]
  rfl

end

/-! ### One invocation -/

/-- The state in which an invocation's chain begins: the one before has ended, the tables are copied, the entry counts as
issued (R112, R133). -/
def State.invokeReady (s : State) (o : OpRef) (i : Issuer) (b r : List Byte) : State :=
  let u := s.untilMclk (s.vec o.tile).busyUntil
  (u.copyTables o.tile (u.chainEnv o i b r (vWidth o.tile b)).cacheKey b).issueEntry o 6

theorem State.invoke_of_idle {s : State} {o : OpRef} (idle : (s.vec o.tile).run = none) (i : Issuer) (b r : List Byte) :
    let v := s.invokeReady o i b r
    s.invoke o i b r = v.invokeOn { op := o, start := v.mclk, prog := {} } i b (v.chainEnv o i b r (vWidth o.tile b)) := by
  simp only [State.invoke, idle]
  rfl

section
variable {s : State} {o : OpRef} {b : List Byte} {env : ChainEnv} {v : ChainRun}

/-- The chain of a new invocation, up to `vSpan env b` mclk of it. -/
def State.chainGo (s : State) (t : Nat) (env : ChainEnv) (b : List Byte) : ChainRun × Option Nat :=
  ChainRun.go s t env b (vDepths b) (vSpan env b) { toVProg := {}, s := s }

/-- A new invocation that no stream holds runs to its end in one step. -/
theorem State.invokeOn_ends (went : s.chainGo o.tile env b = (v, none)) (clean : (v.flush env b).taint = none) (i : Issuer) :
    let t := o.tile
    let v := v.flush env b
    let last := s.mclk + vLength b env.slots + v.conflicts + v.held
    let z := (v.s.health (s.bankOf i.q) v.health).modVec t (fun x => { x with
      run := none, busyUntil := last, popcnt := if (vCompress b).isSome then BitVec.ofNat 32 v.kept else x.popcnt })
    let z := if v.poisoned then z.poisonOn i.q i.owner (if isUe t then t - 1152 else z.localTile t) else z
    s.invokeOn { op := o, start := s.mclk, prog := {} } i b env =
      ((z.vecCount i t 0 (vLength b env.slots)).vecCount i t 1 v.conflicts).movesTo o.id last := by
  unfold State.chainGo at went
  simp only [State.invokeOn, if_true, Nat.sub_zero, went, clean]

/-- A new invocation that a stream holds after some mclk of its chain keeps its progress, and has moved beats. -/
theorem State.invokeOn_holds {c : Nat} (went : s.chainGo o.tile env b = (v, some c)) (moved : 0 < v.mclk)
    (noJoin : c ≠ 1 ∨ (streamLoads env b).length ≤ 1) (i : Issuer) :
    let t := o.tile
    let g : VRun := { op := o, start := s.mclk, prog := {} }
    let z := ((v.s.vecCount i t 0 (busySoFar env b v.mclk)).vecCount i t 1 v.conflicts).modVec t (fun x => { x with
      run := some { g with prog := v.toVProg, cause := c }
      busyUntil := s.mclk + vLength b env.slots + v.conflicts + v.held })
    s.invokeOn g i b env = (z.moved o.id t 6).movesTo o.id (s.mclk + vSetup b + v.mclk + v.conflicts + v.held) := by
  unfold State.chainGo at went
  have alone : ¬(c = 1 ∧ 1 < (streamLoads env b).length) := by omega
  simp only [State.invokeOn, if_true, Nat.sub_zero, went, if_neg moved.ne', if_neg alone]

end

/-! ### A VECTOR stage of a chain of commands -/

/-- The operation of an iteration of VECTOR stage `j`: its block, at the iteration's LOGICAL_BASE (R329). -/
def Fused.vectorOp (f : Fused) (j tile step : Nat) (d x : List Byte) : OpRef :=
  { id := f.id, tile := tile, desc := d, record := x,
    logical := fld (f.stages.getD j []) 28 4 * (Fused.nth f.started j - 1) % 2 ^ 48, addr := 0, seq := 0, step := step,
    entry := none }

/-- The iteration is done in the last mclk of its invocation, unless a stream holds that. -/
def State.stageEnds (s : State) (id j tile : Nat) : State :=
  let last := (s.vec tile).busyUntil - 1
  if (s.vec tile).run.isSome then s else (s.untilMclk last).stageDone id j last

section
variable {s : State} {f : Fused} {tile j : Nat}

theorem State.invocationRow_of_dueStage (here : s.work.fused.find? (fun y => y.id == f.id) = some f)
    (due : s.dueStage f tile = some j) (d x : List Byte) (step : Nat) (l : List (Nat × Nat)) :
    s.invocationRow (.direct f.id tile d x step l) = s.stageInvoke f j tile step := by
  simp only [State.invocationRow, here, due]

theorem State.stageInvoke_begins {d x : List Byte} {w : Issuer} (block : s.vectorBlock f.part (f.stages.getD j []) = (d, x))
    (chain : chainBadAt d false = none) (record : recordBad d x = none)
    (issuer : (s.untilMclk (f.goAt j)).issuer f.id = some w) (idle : ((s.untilMclk (f.goAt j)).vec tile).run = none)
    (step : Nat) : s.stageInvoke f j tile step =
      ((s.untilMclk (f.goAt j)).invoke (f.vectorOp j tile step d x) w d x).stageEnds f.id j tile := by
  simp only [State.stageInvoke, block, issuer, chain, record, idle]
  rfl

theorem State.stageEnds_ended (h : (s.vec tile).run = none) (id j : Nat) :
    s.stageEnds id j tile =
      (s.untilMclk ((s.vec tile).busyUntil - 1)).stageDone id j ((s.vec tile).busyUntil - 1) := by
  simp only [State.stageEnds, h]
  rfl

theorem State.stageEnds_held (h : (s.vec tile).run.isSome = true) (id j : Nat) : s.stageEnds id j tile = s := if_pos h

end

end Sys2Proof.Machine

namespace Sys2Proof.Settled
open Sys2Proof.Machine Sys2Proof.Claims

/-- Settles O38: what the row begins or goes on with, how far a new invocation goes in one step, and a VECTOR stage. -/
theorem invocationRow : Obligations.InvocationRow := by
  unfold Obligations.InvocationRow
  refine ⟨?begins, ?resumes, ?invoked, ?stage⟩
  case begins =>
    intro s w e o p i running good z plain idle resolves here issuer live b r chain record n u v
    have ready : z.invocation w = v.invokeOn { op := o, start := v.mclk, prog := {} } i b (v.chainEnv o i b r n) :=
      (State.invocation_begins idle resolves issuer live chain record).trans (State.invoke_of_idle (here ▸ idle) i b r)
    rw [exec_invocation running good, State.invocationRow_of_no_fused plain, ready]
  case resumes =>
    intro s w e g i running good z plain held names goes b
    rw [exec_invocation running good, State.invocationRow_of_no_fused plain,
      State.invocation_resumes held names goes]
    rfl
  case invoked =>
    intro s o i b env t g y
    exact ⟨fun v went clean => State.invokeOn_ends went clean i,
      fun v c went moved noJoin => State.invokeOn_holds went moved noJoin i⟩
  case stage =>
    intro s f tile j step w d x d0 x0 l running here due block chain record st v issuer idle o u last
    have row : exec (.invocation ⟨.direct f.id tile d0 x0 step l, {}⟩) s =
        .next ((u.stageEnds f.id j tile).syncPorts f.id) := by
      rw [exec_invocation running (.inl rfl), State.eccFound_none, State.invocationRow_of_dueStage here due,
        State.stageInvoke_begins block chain record issuer idle]
      rfl
    exact ⟨fun ended => by rw [row, State.stageEnds_ended ended], fun held => by rw [row, State.stageEnds_held held]⟩

end Sys2Proof.Settled
end

/-! ## Proofs: the host's accesses -/
section
namespace Sys2Proof.Machine

/-! ### BAR0: blocks out of reach (R408) -/

theorem exec_registerWrite (off size v : Nat) (s : State) :
    exec (.registerWrite off size v) s = .next (s.writeReg (off - off % 8) (regAccess off size v)) := rfl

section
variable {s : State} (h : s.modServed = false)
include h

theorem State.blocks_unserved :
    s.secServed = false ∧ s.mailServed = false ∧ s.laneServed = false ∧ s.allServed = false := by
  simp [State.secServed, State.mailServed, State.laneServed, State.allServed, h]

theorem State.writeReg_unserved {o : Nat} (below : o < 0x100000) (w : RegW) : s.writeReg o w = s := by
  obtain ⟨-, mail, lane, all⟩ := State.blocks_unserved h
  have noBell : ¬(0x100000 ≤ o ∧ o < 0x140000) := by omega
  simp [State.writeReg, h, mail, lane, all, noBell]

theorem State.readReg_unserved (o : Nat) : s.readReg o = 0 := by
  obtain ⟨sec, mail, lane, all⟩ := State.blocks_unserved h
  simp [State.readReg, h, sec, mail, lane, all]

theorem State.clearReg_unserved (o : Nat) (r : RegW) : s.clearReg o r = s := by
  obtain ⟨-, -, lane, all⟩ := State.blocks_unserved h
  simp [State.clearReg, h, lane, all]

theorem State.bar0Value_unserved (off size : Nat) : s.bar0Value off size = 0 := by
  simp [State.bar0Value, State.readReg_unserved h, bits]

end

/-- A read answers the register's value and clears what it clears; only one of DBG_CHALLENGE's first bytes draws a nonce
before. -/
theorem exec_readClear {off : Nat} (h : off ≠ 0xD0040) (size : Nat) (s : State) : exec (.readClear off size) s = .next
    ((s.clearReg (off - off % 8) (regAccess off size 0)).reply { kind := 1, value := s.bar0Value off size }) := by
  have draws : ¬(off = 0xD0040 ∧ s.secServed = true) := fun c => h c.1
  change execReadClear off size s = _
  simp only [execReadClear, if_neg draws]

/-! ### BAR0: doorbell pages and DEBUG -/

theorem regAccess_low {off : Nat} (h : off % 8 = 0) (v : Nat) : regAccess off 4 v = ⟨v % 2 ^ 32, 0xFFFFFFFF⟩ := by
  simp [regAccess, h]

theorem regAccess_whole (off v : Nat) : regAccess off 8 v = ⟨v % 2 ^ 64, 0xFFFFFFFFFFFFFFFF⟩ := rfl

theorem RegW.hit_zero {m : Nat} (odd : m % 2 = 1) (v : Nat) : (⟨v, m⟩ : RegW).hit 0 = true := by
  simp [RegW.hit, bit, bits, odd]

/-- An RW field that the access reaches whole takes the value written. -/
theorem RegW.new_reached {w : RegW} {lo n : Nat} (whole : bits w.m lo n = 2 ^ n - 1) {old : Nat} (fits : old < 2 ^ n) :
    w.new old lo n = bits w.v lo n := by
  have cut : bits w.v lo n < 2 ^ n := Nat.mod_lt _ (Nat.two_pow_pos n)
  simp only [RegW.new, whole, Nat.and_two_pow_sub_one_of_lt_two_pow cut, Nat.and_two_pow_sub_one_of_lt_two_pow fits,
    Nat.xor_self, Nat.or_zero]

section
variable {s : State} {q r : Nat}

/-- The page of queue `q` (R399). -/
theorem State.writeReg_bell (hq : q < 64) (hr : r < 0x1000) (w : RegW) :
    s.writeReg (0x100000 + 0x1000 * q + r) w = s.writeBell (0x100000 + 0x1000 * q + r) w := by
  have block : 0x10 ≤ (0x100000 + 0x1000 * q + r) / 0x10000 := by omega
  have page : 0x100000 ≤ 0x100000 + 0x1000 * q + r ∧ 0x100000 + 0x1000 * q + r < 0x140000 := by omega
  generalize 0x100000 + 0x1000 * q + r = o at block page ⊢
  have noBlock : ¬(o / 0x10000 = 5 ∨ o / 0x10000 = 7 ∨ o / 0x10000 = 8 ∨ o / 0x10000 = 0xF) := by omega
  have noModule : o / 0x10000 ≠ 0 := by omega
  have noSecurity : o / 0x10000 ≠ 0xD := by omega
  simp only [State.writeReg, if_neg noModule, if_neg noSecurity, if_neg noBlock, if_pos page]

/-- A doorbell's register: the tail's at the start of its page, the head's 8 bytes on. -/
theorem State.writeBell_eq {w : RegW} (reached : w.hit 0 = true) (hr : r < 0x1000) :
    let v := w.v % 2 ^ 16
    s.writeBell (0x100000 + 0x1000 * q + r) w =
      if r = 0 then s.bell (.sqTail q v) 1 q v else if r = 8 then s.bell (.cqHead q v) 2 q v else s := by
  have page : (0x100000 + 0x1000 * q + r - 0x100000) / 0x1000 = q := by omega
  have place : (0x100000 + 0x1000 * q + r) % 0x1000 = r := by omega
  simp only [State.writeBell, reached, page, place]
  rfl

theorem State.writeReg_debug (h : s.allServed = true) (hr : r < 0x10000) (w : RegW) :
    s.writeReg (0xC0000 + r) w = s.writeDebug r w := by
  have block : (0xC0000 + r) / 0x10000 = 0xC := by omega
  have place : (0xC0000 + r) % 0x10000 = r := by omega
  have noBell : ¬(0x100000 ≤ 0xC0000 + r ∧ 0xC0000 + r < 0x140000) := by omega
  simp [State.writeReg, block, place, noBell, h]

end

theorem exec_sqTail (q v : Nat) (s : State) : exec (.sqTail q v) s = .next (s.bell (.sqTail q v) 1 q v) := rfl
theorem exec_cqHead (q v : Nat) (s : State) : exec (.cqHead q v) s = .next (s.bell (.cqHead q v) 2 q v) := rfl

section
variable {s : State}

/-- A write of 4 bytes to the register `r` of queue `q`'s page. -/
theorem exec_registerWrite_bell {q r : Nat} (hq : q < 64) (hr : r < 0x1000) (aligned : r % 8 = 0) (v : Nat) :
    exec (.registerWrite (0x100000 + 0x1000 * q + r) 4 v) s = .next (
      let v := v % 2 ^ 16
      if r = 0 then s.bell (.sqTail q v) 1 q v else if r = 8 then s.bell (.cqHead q v) 2 q v else s) := by
  have low : v % 2 ^ 32 % 2 ^ 16 = v % 2 ^ 16 := by omega
  have whole : (0x100000 + 0x1000 * q + r) % 8 = 0 := by omega
  rw [exec_registerWrite, whole, Nat.sub_zero, regAccess_low whole, State.writeReg_bell hq hr,
    State.writeBell_eq (RegW.hit_zero rfl _) hr]
  simp only [low]

theorem exec_registerWrite_tail {q : Nat} (h : q < 64) (v : Nat) :
    exec (.registerWrite (0x100000 + 0x1000 * q) 4 v) s = exec (.sqTail q (v % 2 ^ 16)) s :=
  exec_registerWrite_bell h (r := 0) (by decide) rfl v

theorem exec_registerWrite_head {q : Nat} (h : q < 64) (v : Nat) :
    exec (.registerWrite (0x100008 + 0x1000 * q) 4 v) s = exec (.cqHead q (v % 2 ^ 16)) s := by
  have place : 0x100008 + 0x1000 * q = 0x100000 + 0x1000 * q + 8 := by omega
  rw [place]
  exact exec_registerWrite_bell h (by decide) rfl v

variable (h : s.allServed = true)
include h

/-- A write of 8 bytes to a register of DEBUG. -/
theorem exec_registerWrite_debug {r : Nat} (hr : r < 0x10000) (aligned : r % 8 = 0) (v : Nat) :
    exec (.registerWrite (0xC0000 + r) 8 v) s = .next (s.writeDebug r ⟨v % 2 ^ 64, 0xFFFFFFFFFFFFFFFF⟩) := by
  have whole : (0xC0000 + r) % 8 = 0 := by omega
  rw [exec_registerWrite, whole, Nat.sub_zero, regAccess_whole, State.writeReg_debug h hr]

theorem exec_registerWrite_frzSel (v : Nat) : exec (.registerWrite 0xC0000 8 v) s =
    .next (s.modDbg (fun d => { d with frzSel := BitVec.ofNat 32 v })) := by
  have field (d : Debug) : BitVec.ofNat 32 ((⟨v % 2 ^ 64, 0xFFFFFFFFFFFFFFFF⟩ : RegW).new d.frzSel.toNat 0 32) =
      BitVec.ofNat 32 v := by
    have whole : bits 0xFFFFFFFFFFFFFFFF 0 32 = 2 ^ 32 - 1 := by decide
    rw [RegW.new_reached whole d.frzSel.isLt]
    apply BitVec.eq_of_toNat_eq
    simp only [bits, Nat.shiftRight_zero, BitVec.toNat_ofNat]
    omega
  refine (exec_registerWrite_debug h (r := 0) (by decide) rfl v).trans ?_
  simp only [State.writeDebug, field]

theorem exec_registerWrite_dbgCtrl (v : Nat) :
    exec (.registerWrite 0xC0008 8 v) s = exec (.freezeReq (v % 2 ^ 64)) s := by
  have row : exec (.freezeReq (v % 2 ^ 64)) s = .next (s.writeDbgCtrl (v % 2 ^ 64)) := congrArg _ (if_pos h)
  exact (exec_registerWrite_debug h (r := 8) (by decide) rfl v).trans
    ((congrArg _ (if_pos (RegW.hit_zero rfl _))).trans row.symm)

theorem exec_registerWrite_break (v : Nat) :
    exec (.registerWrite 0xC0010 8 v) s = exec (.continueBreak (v % 2 ^ 64)) s := by
  have row : exec (.continueBreak (v % 2 ^ 64)) s = .next (s.writeBreak (v % 2 ^ 64)) := congrArg _ (if_pos h)
  exact (exec_registerWrite_debug h (r := 0x10) (by decide) rfl v).trans
    ((congrArg _ (if_pos (RegW.hit_zero rfl _))).trans row.symm)

end

/-! ### BAR2 and held accesses -/

/-- An access to `n` bytes from physical address `a` has woken what it reaches; a hole is logged (R262, R426). -/
def State.bar2Reached (s : State) (a n : Nat) : State :=
  let x := s.wakeAddr a
  if x.physHole a n then x.hostErr 2 a else x

/-- Such an access waits (R86, R400). -/
def State.bar2Waits (s : State) (a n : Nat) : Prop := s.physBusy a n = true ∨ s.writeHeldUp = true

section
variable {s : State} {a n : Nat}

theorem State.bar2Waits_iff : (s.physBusy a n || s.writeHeldUp) = true ↔ s.bar2Waits a n := Bool.or_eq_true_iff

theorem State.not_bar2Waits (free : s.physBusy a n = false) (first : s.writeHeldUp = false) : ¬s.bar2Waits a n := by
  simp [State.bar2Waits, free, first]

end

section
variable {s : State} {off n : Nat}

theorem exec_bar2Read_early (h : s.quiet.mod.done = false) : exec (.bar2Read off n) s = .next
    ((s.quiet.hostErr 1 off).reply { kind := 2, value := off, bytes := List.replicate n 0 }) :=
  congrArg _ (if_pos (by simp [h]))

theorem exec_bar2Read_held (h : s.quiet.mod.done = true) :
    let a := s.quiet.bar2Addr off
    let v := s.quiet.bar2Reached a n
    v.bar2Waits a n → exec (.bar2Read off n) s = .next (v.modWork (fun w => { w with held := w.held ++ [.read a n] })) :=
  fun waits => congrArg _ ((if_neg (by simp [h])).trans (if_pos (State.bar2Waits_iff.mpr waits)))

theorem exec_bar2Read_served (h : s.quiet.mod.done = true) :
    let a := s.quiet.bar2Addr off
    let v := s.quiet.bar2Reached a n
    ¬v.bar2Waits a n → exec (.bar2Read off n) s = .next (v.serveRead a n) :=
  fun serves => congrArg _ ((if_neg (by simp [h])).trans (if_neg (mt State.bar2Waits_iff.mp serves)))

variable {bs : List Byte} {ep : Bool}

theorem exec_bar2Write_early (h : s.quiet.mod.done = false) :
    exec (.bar2Write off bs ep) s = .next (s.quiet.hostErr 1 off) :=
  congrArg _ (if_pos (by simp [h]))

theorem exec_bar2Write_frozen (h : s.quiet.mod.done = true) (f : s.quiet.frozen = true) :
    exec (.bar2Write off bs ep) s = .next (s.quiet.modDbg (fun d => { d with
      held := d.held ++ [.bar2Write (s.quiet.bar2Addr off) bs ep] })) :=
  congrArg _ ((if_neg (by simp [h])).trans (if_pos f))

theorem exec_bar2Write_reaches (h : s.quiet.mod.done = true) (f : s.quiet.frozen = false) :
    exec (.bar2Write off bs ep) s = .next (s.quiet.bar2Do (s.quiet.bar2Addr off) bs ep) :=
  congrArg _ ((if_neg (by simp [h])).trans (if_neg (by simp [f])))

theorem State.bar2Do_held {a : Nat} (h : (s.bar2Reached a bs.length).bar2Waits a bs.length) : s.bar2Do a bs ep =
    (s.bar2Reached a bs.length).modWork (fun w => { w with held := w.held ++ [.write a bs ep] }) :=
  if_pos (State.bar2Waits_iff.mpr h)

theorem State.bar2Do_stored {a : Nat} (h : ¬(s.bar2Reached a bs.length).bar2Waits a bs.length) :
    s.bar2Do a bs ep = (s.bar2Reached a bs.length).wrPhys a bs ep :=
  if_neg (mt State.bar2Waits_iff.mp h)

end

theorem exec_heldAccumulatorAccess {s : State} (h : s.frozen = false) :
    exec .heldAccumulatorAccess s = .next s.serveHeld := congrArg _ (State.unlessFrozen_next h _)

section
variable {s : State} {rest : List HeldAccess}

theorem State.serveHeld_nil (h : s.work.held = []) : s.serveHeld = s := by simp only [State.serveHeld, h]

theorem State.serveHeld_read {a n : Nat} (h : s.work.held = .read a n :: rest) : s.serveHeld =
    if s.physBusy a n then s else (s.modWork (fun w => { w with held := rest })).serveRead a n := by
  simp only [State.serveHeld, h]

theorem State.serveHeld_write {a : Nat} {bs : List Byte} {ep : Bool} (h : s.work.held = .write a bs ep :: rest) :
    s.serveHeld =
      if s.physBusy a bs.length then s else (s.modWork (fun w => { w with held := rest })).wrPhys a bs ep := by
  simp only [State.serveHeld, h, State.bar2Store]

theorem State.serveHeld_dma {d : Dma} (there : s.work.dmas.find? (fun x => x.id == d.id) = some d)
    (h : s.work.held = .dma d.id :: rest) : s.serveHeld =
      if s.dmaHeld d then s else (s.modWork (fun w => { w with held := rest })).runDma d := by
  simp only [State.serveHeld, h, there]

end

/-! ### Answers of the host (R326, R402) -/

/-- A host read is no longer outstanding. -/
def State.readAnswered (s : State) (r : HostRead) : State :=
  s.modWork (fun w => { w with hostReads := w.hostReads.filter (fun x => x.tag != r.tag) })

section
variable {s : State} {r : HostRead} {ok : Bool} {bs : List Byte}

theorem State.hostAnswer_slot {q slot : Nat} (h : r.use = .slot q slot) : s.hostAnswer r ok bs =
    (if ok then (s.readAnswered r).modQw q (fun x => { x with
      readTag := none, fetched := x.fetched ++ slice bs 0 r.bytes })
    else (s.readAnswered r).slotFailed q slot r.addr).pump q := by
  simp only [State.hostAnswer, h]
  cases ok <;> rfl

/-- The engine of a descriptor has waited for its source; then it moves and places the bytes (R435). -/
theorem State.hostAnswer_dma {d : Dma} (h : r.use = .dma d.id)
    (there : (s.readAnswered r).work.dmas.find? (fun x => x.id == d.id) = some d) :
    let u := s.readAnswered r
    let w := if ok then u else u.hostErr 7 r.addr d.q 0
    let v := (w.count (w.bankOf d.q) (engDma (16 * (((w.qw d.q).core.getD 0) / 4) + d.eng)) 1
      (w.mclk - d.startedAt)).moveBytes d
    s.hostAnswer r ok bs = (v.placeRows d d.rolesOf ((slice bs 0 r.bytes).map (fun b => (b, !ok)))).dmaDone d := by
  unfold State.readAnswered at there
  simp only [State.hostAnswer, h, there]
  rfl

theorem exec_hostReadCompletion_frozen (h : s.frozen = true) (tag : Nat) :
    exec (.hostReadCompletion tag ok bs) s = .next
      (s.modDbg (fun d => { d with held := d.held ++ [.hostReadCompletion tag ok bs] })) :=
  congrArg _ (if_pos h)

variable (f : s.frozen = false) (there : s.work.hostReads.find? (fun x => x.tag == r.tag) = some r)
include f there

theorem exec_hostReadCompletion : exec (.hostReadCompletion r.tag ok bs) s = .next (s.hostAnswer r ok bs) := by
  refine congrArg _ ((if_neg (by simp [f])).trans ?_)
  rw [there]

theorem exec_cplTimeout : exec (.cplTimeout r.tag) s = .next
    ((s.untilRoot (r.since + usRoot (1000 * s.mod.cplTimeout.toNat))).hostAnswer r false []) := by
  refine congrArg _ ((State.unlessFrozen_next f _).trans ?_)
  rw [there]

end

/-! ### Configuration space (R397, R408) -/

section
variable {s : State} {reg v : Nat}

theorem exec_configRequest_untrained (h : s.pins.linkUp = false) (w : Bool) :
    exec (.configRequest w reg v) s = .next (s.reply { kind := 4 }) :=
  congrArg _ (if_pos (by simp [h]))

variable (h : s.pins.linkUp = true)
include h

theorem exec_configRequest_write :
    exec (.configRequest true reg v) s = .next ((s.configWrite (reg / 4 * 4) v).reply { kind := 5 }) :=
  congrArg _ (if_neg (by simp [h]))

theorem exec_configRequest_given {x : Nat} (given : s.configDword (reg / 4 * 4) = some x) :
    exec (.configRequest false reg v) s = .next (s.reply { kind := 6, value := x }) := by
  refine congrArg _ ((if_neg (by simp [h])).trans ?_)
  rw [given]
  rfl

theorem exec_configRequest_free (unlisted : s.configDword (reg / 4 * 4) = none) :
    exec (.configRequest false reg v) s = .next (s.free.2.reply { kind := 6, value := s.free.1.toNat % 2 ^ 32 }) := by
  refine congrArg _ ((if_neg (by simp [h])).trans ?_)
  rw [unlisted]
  rfl

end

section
variable (s : State) (v : Nat) {half : Nat} (h : half < 2)
include h

theorem State.configWrite_bar0 : s.configWrite (0x10 + 4 * half) v =
    s.modPins (fun p => { p with bar0 := barPut p.bar0 (2 ^ 26) half v }) := by
  interval_cases half <;> rfl

theorem State.configWrite_bar2 : s.configWrite (0x18 + 4 * half) v =
    s.modPins (fun p => { p with bar2 := barPut p.bar2 (2 ^ 36) half v }) := by
  interval_cases half <;> rfl

end

/-- A write to any other register reaches the PowerState field or nothing. -/
theorem State.configWrite_other (s : State) {r : Nat} (h : r ∉ [0x10, 0x14, 0x18, 0x1C]) (v : Nat) :
    s.configWrite r v = s.modPins (fun p =>
      if r / 4 = Config.pmcsr.toNat / 4 then { p with d3hot := bits v 0 2 == 3 } else p) := by
  simp only [List.mem_cons, List.not_mem_nil, or_false, not_or] at h
  obtain ⟨h10, h14, h18, h1C⟩ := h
  unfold State.configWrite
  congr 1
  funext p
  split
  · exact absurd rfl h10
  · exact absurd rfl h14
  · exact absurd rfl h18
  · exact absurd rfl h1C
  · rfl

end Sys2Proof.Machine

namespace Sys2Proof.Settled
open Sys2Proof.Machine

/-- Settles O52: the accesses one by one, to BAR0, BAR2 and configuration space, and the host's answers. -/
theorem hostAccess : Obligations.HostAccess := by
  unfold Obligations.HostAccess
  refine ⟨⟨?unserved, fun s q v h => ⟨exec_registerWrite_tail h v, exec_registerWrite_head h v⟩, fun s v h =>
    ⟨exec_registerWrite_frzSel h v, exec_registerWrite_dbgCtrl h v, exec_registerWrite_break h v⟩,
    fun s off size h => exec_readClear h size s, ?reads0⟩, ?read, ?write, ?held, ?answers, ?config⟩
  case unserved =>
    intro s off size v h below
    rw [exec_registerWrite, State.writeReg_unserved h (by omega)]
  case reads0 =>
    intro s off size h noNonce _
    rw [exec_readClear noNonce, State.clearReg_unserved h, State.bar0Value_unserved h]
  case read =>
    intro s off n u a x v
    exact ⟨exec_bar2Read_early, exec_bar2Read_held,
      fun done free first => exec_bar2Read_served done (State.not_bar2Waits free first)⟩
  case write =>
    intro s off bs ep u a x v
    refine ⟨exec_bar2Write_early, exec_bar2Write_frozen, fun done go waits => ?_, fun done go free first => ?_⟩
    · exact (exec_bar2Write_reaches done go).trans (congrArg _ (State.bar2Do_held waits))
    · exact (exec_bar2Write_reaches done go).trans (congrArg _ (State.bar2Do_stored (State.not_bar2Waits free first)))
  case held =>
    intro s rest h u
    rw [exec_heldAccumulatorAccess h]
    exact ⟨fun e => congrArg _ (State.serveHeld_nil e), fun a n e => congrArg _ (State.serveHeld_read e),
      fun a bs ep e => congrArg _ (State.serveHeld_write e), fun d there e => congrArg _ (State.serveHeld_dma there e)⟩
  case answers =>
    intro s r ok bs there u late
    refine ⟨fun h => exec_hostReadCompletion_frozen h r.tag, fun h q slot use => ?_, fun h d use dma => ?_, fun h => ?_⟩
    · exact (exec_hostReadCompletion h there).trans (congrArg _ (State.hostAnswer_slot use))
    · exact (exec_hostReadCompletion h there).trans (congrArg _ (State.hostAnswer_dma use dma))
    · exact exec_cplTimeout h there
  case config =>
    intro s reg v r bar wrote
    refine ⟨fun h w => exec_configRequest_untrained h w, fun h => ?_⟩
    have writes {x : State} (e : s.configWrite r v = x) :
        exec (.configRequest true reg v) s = .next (x.reply { kind := 5 }) := e ▸ exec_configRequest_write h
    refine ⟨fun half lt e => writes (e ▸ State.configWrite_bar0 s v lt),
      fun half lt e => writes (e ▸ State.configWrite_bar2 s v lt), fun other => ?_,
      fun x given => exec_configRequest_given h given, exec_configRequest_free h⟩
    have same : r / 4 = reg / 4 := Nat.mul_div_cancel _ (by decide)
    exact writes (same ▸ State.configWrite_other s other v)

end Sys2Proof.Settled
end

/-! ## Proofs: the length of a hold -/
section
namespace Sys2Proof.Machine

/-! ### Rounding up -/

/-- `roundUp a b` is the least multiple of `b` that reaches `a`. -/
theorem roundUp_le_iff {a b k : Nat} (hb : 0 < b) (dvd : b ∣ k) : roundUp a b ≤ k ↔ a ≤ k := by
  obtain ⟨c, rfl⟩ := dvd
  rw [roundUp, mul_comm, Nat.mul_le_mul_left_iff hb]
  exact ceilDiv_le_iff_le_mul (b := a) hb

theorem dvd_roundUp (a b : Nat) : b ∣ roundUp a b := Dvd.intro_left _ rfl

/-! ### Lengths of a whole number of frames and of mclk -/

/-- The least length in mclk of a whole number of frames of `unit` root cycles. -/
def holdStep (unit div : Nat) : Nat := unit / Nat.gcd unit div

theorem wholeHold_eq (unit div len : Nat) : wholeHold unit div len = max (holdStep unit div) (roundUp len (holdStep unit div)) :=
  rfl

theorem holdStep_pos {unit : Nat} (h : 0 < unit) (div : Nat) : 0 < holdStep unit div :=
  Nat.div_pos (Nat.gcd_le_left div h) (Nat.gcd_pos_of_pos_left div h)

/-- `k` mclk are a whole number of frames exactly if they are a whole number of steps. -/
theorem dvd_mul_iff_holdStep_dvd {unit div k : Nat} (h : 0 < unit) : unit ∣ k * div ↔ holdStep unit div ∣ k := by
  constructor
  · intro frames
    have cancelled : k ≡ 0 [MOD unit / Nat.gcd unit div] :=
      Nat.ModEq.cancel_right_div_gcd h (by rw [zero_mul]; exact Nat.modEq_zero_iff_dvd.mpr frames)
    exact Nat.modEq_zero_iff_dvd.mp cancelled
  · rintro ⟨n, rfl⟩
    have step : holdStep unit div * div = Nat.lcm unit div := Nat.div_mul_right_comm (Nat.gcd_dvd_left unit div) div
    rw [mul_right_comm, step]
    exact (Nat.dvd_lcm_left unit div).mul_right n

theorem holdStep_dvd_wholeHold (unit div len : Nat) : holdStep unit div ∣ wholeHold unit div len := by
  rw [wholeHold_eq]
  rcases max_choice (holdStep unit div) (roundUp len (holdStep unit div)) with step | rounded
  · rw [step]
  · rw [rounded]
    exact dvd_roundUp _ _

/-- A hold is the least positive multiple of the step that reaches `len`. -/
theorem wholeHold_le_iff {unit div len k : Nat} (h : 0 < unit) (hk : 0 < k) (steps : holdStep unit div ∣ k) :
    wholeHold unit div len ≤ k ↔ len ≤ k := by
  rw [wholeHold_eq, max_le_iff, roundUp_le_iff (holdStep_pos h div) steps, and_iff_right (Nat.le_of_dvd hk steps)]

end Sys2Proof.Machine

namespace Sys2Proof.Settled
open Sys2Proof.Machine

/-- Settles O34: the lengths that are a whole number of frames are the multiples of the step `holdStep`. -/
theorem holdLength : Obligations.HoldLength := by
  unfold Obligations.HoldLength
  intro unit div len unitPos _ h
  have positive : 0 < h := (holdStep_pos unitPos div).trans_le (Nat.le_max_left _ _)
  have steps : holdStep unit div ∣ h := holdStep_dvd_wholeHold unit div len
  exact ⟨positive, (wholeHold_le_iff unitPos positive steps).mp le_rfl, (dvd_mul_iff_holdStep_dvd unitPos).mpr steps,
    fun k kPos reaches frames =>
      (wholeHold_le_iff unitPos kPos ((dvd_mul_iff_holdStep_dvd unitPos).mp frames)).mpr reaches⟩

end Sys2Proof.Settled
end

/-! ## Proofs: loading, running and unloading fronds -/
section
namespace Sys2Proof.Machine
open Sys2Proof.Claims

/-! ### The three commands at dispatch -/

section
variable {s t : State} {q : Nat} {w : Waiting}

theorem exec_loadFrond (h : Dispatches s q 0x10 w) (ok : (begun s q w).loadBody q w.id w.bytes = .ok t) :
    exec (.loadFrond q) s = .next (t.pump q) :=
  congrArg _ (State.dispatch_ok h.1 h.2 ok)

theorem exec_runFrond (h : Dispatches s q 0x11 w) (ok : (begun s q w).runBody q w.id w.bytes = .ok t) :
    exec (.runFrond q) s = .next (t.pump q) :=
  congrArg _ (State.dispatch_ok h.1 h.2 ok)

theorem exec_runFrond_rejected {e : Earned} (h : Dispatches s q 0x11 w)
    (bad : (begun s q w).runBody q w.id w.bytes = .error e) : exec (.runFrond q) s = .next ((s.endWaiting q e).pump q) :=
  congrArg _ (State.dispatch_error h.1 h.2 bad)

theorem exec_unloadFrond (h : Dispatches s q 0x12 w) (ok : (begun s q w).unloadBody q w.id w.bytes = .ok t) :
    exec (.unloadFrond q) s = .next (t.pump q) :=
  congrArg _ (State.dispatch_ok h.1 h.2 ok)

end

/-! ### LOAD_FROND (R149) -/

/-- Planes and target slots that a LOAD_FROND names. -/
def loadPlanes (b : List Byte) : List (Nat × Nat) :=
  ([0, 1, 2, 3].filter (fun i => bit (fld b 24 1) i)).map (fun i => (i, bits (fld b 26 2) (2 * i) 2))

/-- The tiles that an image header of partition `p` names. -/
def State.loadTiles (s : State) (p : Nat) (h : List Byte) : List Nat :=
  (((iTiles h).filter (fun t => decide (t / 144 < s.nDies))).map (s.physTile p)).filter s.listed

/-- A target slot of tile `t` is not EMPTY, or another slot of it holds the digest. -/
def State.loadClash (s : State) (slots : List Nat) (digest t : Nat) : Bool :=
  slots.any (fun c => ((s.tile t).ctx c).st != 0) ||
  [0, 1, 2, 3].any (fun c => !slots.contains c && ((s.tile t).ctx c).st != 0 && ((s.tile t).ctx c).digest.toNat == digest)

theorem State.loadClash_eq_false {s : State} {slots : List Nat} {digest t : Nat}
    (empty : ∀ c ∈ slots, ((s.tile t).ctx c).st = 0)
    (others : ∀ c ∈ [0, 1, 2, 3], c ∉ slots → ((s.tile t).ctx c).st = 0 ∨ ((s.tile t).ctx c).digest.toNat ≠ digest) :
    s.loadClash slots digest t = false := by
  rw [State.loadClash, Bool.or_eq_false_iff]
  constructor
  · exact List.any_eq_false.mpr fun c target => by simp [empty c target]
  · refine List.any_eq_false.mpr fun c slot => ?_
    by_cases target : c ∈ slots
    · simp [target]
    · rcases others c slot target with e | d
      · simp [e]
      · simp [d]

/-- The targets are LOADING, and the load is on the list. -/
def State.loadBegun (s : State) (q id image digest : Nat) (planes : List (Nat × Nat)) (ts : List Nat) : State :=
  (planes.foldl (fun x (pl, c) => x.setCtxs ts [c] (fun _ =>
    { st := 1, plane := BitVec.ofNat 2 pl, digest := BitVec.ofNat 32 digest, bytes := [] })) s).modWork (fun k => { k with
      loads := k.loads ++ [{ id := id, q := q, part := partOf s q, image := image, planes := planes, tiles := ts,
                             digest := digest, waiting := (ts.map (fun t => t / 144)).eraseDups }] })

theorem State.loadBody_ok {s : State} {q : Nat} {b : List Byte} (id : Nat) :
    let image := cAddr b 16
    let h := s.rdAt (partOf s q) image 256
    let ts := s.loadTiles (partOf s q) h
    s.inWindow q image (fld h 8 4) = true →
    (∀ t ∈ ts, s.loadClash ((loadPlanes b).map Prod.snd) (iDigest h) t = false) →
    s.loadBody q id b = .ok (s.loadBegun q id image (iDigest h) (loadPlanes b) ts) := by
  intro image h ts inside free
  have noClash : ts.find? (s.loadClash ((loadPlanes b).map Prod.snd) (iDigest h)) = none :=
    List.find?_eq_none.mpr fun t tile => by simp [free t tile]
  unfold State.loadBody
  refine (if_neg (c := (!s.inWindow q image (fld h 8 4)) = true) (by simp [inside])).trans ?_
  split
  · next t clash => cases noClash.symm.trans clash
  · rfl

/-! ### RUN_FROND (R153) -/

section
variable {s : State} {q mbMax : Nat} {b : List Byte} {ts : List Nat} {ps : List PlaneInfo}
  (known : Tbl.find (s.settle.part (partOf s q)).fronds (fld b 32 4) = some (mbMax, ts))
  (planes : s.settle.runPlanes ts (bits (fld b 16 1) 0 2) (fld b 32 4) = .ok ps)
include known planes

theorem State.runBody_range (exceeds : mbMax < fld b 18 2) (id : Nat) : s.runBody q id b = .error ⟨0x0103, 18, 0⟩ := by
  unfold partOf at known
  simp only [State.runBody, known, planes, if_pos exceeds]
  rfl

theorem State.runBody_ok (within : fld b 18 2 ≤ mbMax) (id : Nat) : s.runBody q id b =
    .ok ((s.settle.modQw q (fun x => x.onExec id (fun e => { e with digest := fld b 32 4 }))).newRun id q (partOf s q)
      (fld b 32 4) ts ps (fld b 18 2) (fld b 20 2) (fld b 24 8)).2 := by
  unfold partOf at known
  simp only [State.runBody, known, planes, if_neg within.not_gt]
  rfl

end

/-! ### UNLOAD_FROND (R156) -/

/-- Slot `c` of tile `t` holds the digest. -/
def State.holdsDigest (s : State) (d t c : Nat) : Bool := ((s.tile t).ctx c).st != 0 && ((s.tile t).ctx c).digest.toNat == d

/-- The tiles of a partition of which one of the slots `cs` holds the digest. -/
def State.unloadTiles (s : State) (p d : Nat) (cs : List Nat) : List Nat :=
  (s.size p).tiles.filter (fun t => cs.any (s.holdsDigest d t))

/-- The digest is in no slot of the partition any more: the partition no longer knows it. -/
def State.forget (s : State) (p d : Nat) : State :=
  if (s.size p).tiles.any (fun t => [0, 1, 2, 3].any (s.holdsDigest d t)) then s
  else s.modPart p (fun x => { x with fronds := Tbl.del x.fronds d })

theorem State.unloadBody_ok {s : State} {q : Nat} {b : List Byte} (id : Nat) :
    let d := fld b 20 4
    let cs := [0, 1, 2, 3].filter (fun c => bit (fld b 16 1) c)
    let z := s.settle
    let ts := z.unloadTiles (partOf s q) d cs
    (∀ t ∈ ts, ∀ c ∈ cs, ((z.tile t).ctx c).st = 0 ∨ ((z.tile t).ctx c).st = 2) →
    s.unloadBody q id b = .ok (((((z.modQw q (fun x => x.onExec id (fun e => { e with digest := d }))).setCtxs ts cs
      (fun x => if x.digest.toNat == d then {} else x)).forget (partOf s q) d).atOnce q id)) := by
  intro d cs z ts still
  have noneBusy : ts.find? (fun t => cs.any (fun c => ((z.tile t).ctx c).st != 0 && ((z.tile t).ctx c).st != 2)) = none := by
    refine List.find?_eq_none.mpr fun t tile => ?_
    rw [List.any_eq_true]
    rintro ⟨c, slot, busy⟩
    rcases still t tile c slot with e | e <;> simp [e] at busy
  unfold State.unloadBody
  dsimp only
  split
  · next t busy => cases noneBusy.symm.trans busy
  · rfl

/-! ### The context loaders (R151) -/

theorem exec_contextLoad {s : State} (h : s.frozen = false) (die : Nat) :
    exec (.contextLoad die) s = .next (s.contextLoad die) :=
  congrArg _ (State.unlessFrozen_next h _)

theorem exec_contextLoadComplete {s : State} {l : Load} (h : s.frozen = false)
    (there : s.work.loads.find? (fun x => x.id == l.id) = some l) :
    exec (.contextLoadComplete l.id) s = .next (s.loadComplete l) := by
  refine congrArg _ ((State.unlessFrozen_next h _).trans ?_)
  simp only [there]

/-- The blocks of a load, whose image header is `h`, written to the contexts of a die's tiles. -/
def State.writePart (s : State) (l : Load) (h : List Byte) (die : Nat) : State :=
  (((List.range l.tiles.length).zip l.tiles).filter (fun (_, t) => t / 144 == die)).foldl (fun x (i, t) =>
    l.planes.foldl (fun y (pl, c) =>
      let (o, n) := y.blockAt l.part l.image (iPlanes h) (iTiles h).length pl i
      let bs := y.rdAt l.part (l.image + o) (min n 16384)
      y.modCtx t c (fun z => { z with bytes := bs })) x) s

/-- The die's part of a load is written, and its loader busy with it up to `done`. -/
def State.partWritten (s : State) (l : Load) (die done : Nat) : State :=
  (s.modWork (fun k => { k with loaders := Tbl.set 0 k.loaders die done })).onLoad l.id (fun x => { x with
    waiting := setDel x.waiting die, written := setIns x.written die, endsAt := max x.endsAt done })

section
variable {s : State} {die : Nat} {l : Load} (oldest : s.work.loads.find? (fun x => x.waiting.contains die) = some l)
include oldest

theorem State.contextLoad_waits (op : ∃ t ∈ l.tiles, (s.tile t).op.isSome = true) : s.contextLoad die = s := by
  simp only [State.contextLoad, oldest]
  exact if_pos (List.any_eq_true.mpr op)

theorem State.contextLoad_writes (free : ∀ t ∈ l.tiles, (s.tile t).op = none) :
    let u := s.untilRoot (Tbl.get 0 s.work.loaders die)
    let z := ((u.startAt l.q l.id u.mclk).modQw l.q (fun x => x.onExec l.id (fun e => { e with
      digest := l.digest }))).writePart l (u.rdAt l.part l.image 256) die
    s.contextLoad die = z.partWritten l die (z.clk.root + z.loadTime l die) := by
  have noOp : ¬(l.tiles.any (fun t => (s.tile t).op.isSome)) = true := by
    rw [List.any_eq_true]
    rintro ⟨t, tile, op⟩
    simp [free t tile] at op
  simp only [State.contextLoad, oldest]
  exact if_neg noOp

end

/-! ### The end of a load (R150) -/

/-- The state in which a load's checks decide: the slowest die's part has ended. -/
def State.loadJudged (s : State) (l : Load) : State := (s.startAt l.q l.id s.mclk).untilRoot l.endsAt

/-- The load leaves the list. -/
def State.loadOff (s : State) (l : Load) : State :=
  s.modWork (fun k => { k with loads := k.loads.filter (fun x => x.id != l.id) })

/-- The targets are LOADED, the digest is known to the partition, and the tiles' population counts are cleared. -/
def State.loadedAll (s : State) (l : Load) : State :=
  l.tiles.foldl (fun x t => x.modVec t (fun y => { y with popcnt := 0 }))
    ((s.setCtxs l.tiles (l.planes.map Prod.snd) (fun x => { x with st := 2 })).modPart l.part (fun x => { x with
      fronds := Tbl.put x.fronds l.digest (leNat (s.rdAt l.part (l.image + 18) 2), l.tiles) }))

section
variable {s : State} {l : Load}

theorem State.loadComplete_waits (h : l.waiting ≠ []) : s.loadComplete l = s := if_pos (by simp [h])

theorem State.loadComplete_bad {e : Earned} (h : l.waiting = []) (bad : (s.loadJudged l).loadVerdict l = some e) :
    s.loadComplete l = ((((s.loadJudged l).loadOff l).setCtxs l.tiles (l.planes.map Prod.snd) (fun _ => {})).finish l.q l.id
      [e]) := by
  unfold State.loadJudged at bad
  simp only [State.loadComplete, h, bad]
  rfl

theorem State.loadComplete_good (h : l.waiting = []) (good : (s.loadJudged l).loadVerdict l = none) :
    s.loadComplete l = (((s.loadJudged l).loadOff l).loadedAll l).finish l.q l.id [⟨0, 0, 0⟩] := by
  unfold State.loadJudged at good
  simp only [State.loadComplete, h, good]
  rfl

end

end Sys2Proof.Machine

namespace Sys2Proof.Settled
open Sys2Proof.Machine Sys2Proof.Claims

/-- Settles O21: what each of the three bodies answers, and what its dispatch makes of that. -/
theorem frondCommands : Obligations.FrondCommands := by
  unfold Obligations.FrondCommands
  refine fun s q w => ⟨fun d => ?load, fun d mbMax ts ps => ?run, fun d => ?unload⟩
  case load =>
    intro image planes h ts inside free
    exact exec_loadFrond d (State.loadBody_ok w.id inside fun t tile =>
      State.loadClash_eq_false (free t tile).1 (free t tile).2)
  case run =>
    intro digest z known planes
    exact ⟨fun exceeds => exec_runFrond_rejected d (State.runBody_range known planes exceeds w.id),
      fun within => exec_runFrond d (State.runBody_ok known planes within w.id)⟩
  case unload =>
    intro digest cs has z ts still v
    exact exec_unloadFrond d (State.unloadBody_ok w.id still)

/-- Settles O30: a die's loader waits or writes its part; a load waits for its last part, or its checks decide. -/
theorem contextLoadRows : Obligations.ContextLoadRows := by
  unfold Obligations.ContextLoadRows
  constructor
  · intro s die l live oldest
    rw [exec_contextLoad live]
    exact ⟨fun op => congrArg _ (State.contextLoad_waits oldest op),
      fun free => congrArg _ (State.contextLoad_writes oldest free)⟩
  · intro s l live there
    rw [exec_contextLoadComplete live there]
    exact ⟨fun waits => congrArg _ (State.loadComplete_waits waits), fun written =>
      ⟨fun e bad => congrArg _ (State.loadComplete_bad written bad),
        fun good => congrArg _ (State.loadComplete_good written good)⟩⟩

end Sys2Proof.Settled
end

/-! ## Proofs: frond runs -/
section
namespace Sys2Proof.Machine
open Sys2Proof.Claims

/-! ### The row of a run -/

section
variable {s : State} {r : Run}

theorem State.run_id {id : Nat} (there : s.run id = some r) : r.id = id :=
  beq_iff_eq.mp (List.find?_some (p := fun x : Run => x.id == id) there)

theorem State.onEnded_of_run {id : Nat} (there : s.run id = some r) (f : State → Run → State) : s.onEnded id f = f s r := by
  simp only [State.onEnded, there]

/-- A row of a run that is there: what it does to the run, unless the units stand still. -/
theorem State.runRow_next (h : Live s) (there : s.run r.id = some r) (f : State → Run → State) :
    s.unlessHalted (fun s => s.onEnded r.id f) = f s r :=
  (State.unlessHalted_next h.1 h.2 _).trans (State.onEnded_of_run there f)

variable (h : Live s) (there : s.run r.id = some r)
include h there

theorem exec_runStart : exec (.runStart r.id) s = .next (s.runStart r) := congrArg _ (State.runRow_next h there _)
theorem exec_bodyStart : exec (.bodyStart r.id) s = .next (s.bodyStart r) := congrArg _ (State.runRow_next h there _)
theorem exec_planeSwitch : exec (.planeSwitch r.id) s = .next (s.planeSwitch r) := congrArg _ (State.runRow_next h there _)
theorem exec_issueEnd : exec (.issueEnd r.id) s = .next (s.issueEnd r) := congrArg _ (State.runRow_next h there _)
theorem exec_runComplete : exec (.runComplete r.id) s = .next (s.runComplete r) := congrArg _ (State.runRow_next h there _)
theorem exec_joinStarve : exec (.joinStarve r.id) s = .next (s.joinStarve r) := congrArg _ (State.runRow_next h there _)
theorem exec_timedInputLate (input cls cause : Nat) :
    exec (.timedInputLate r.id input cls cause) s = .next (s.lateInput r input cls cause) :=
  congrArg _ (State.runRow_next h there _)

/-- The hold of a run ends, unless it is the break's and CONTINUE has not been written (R451). -/
theorem exec_holdEnd {k : Hold} (held : r.hold = some k) :
    exec (.holdEnd r.id) s = .next (if k.cause = 1 ∧ s.dbg.brkHit = true then s else s.endHold r k) := by
  refine congrArg _ ((State.unlessHalted_next h.1 h.2 _).trans ?_)
  simp only [there, held]

end

/-- A silent peer is looked for even in a pause (R198). -/
theorem exec_peerInputTimeout {s : State} {r : Run} (h : s.frozen = false) (there : s.run r.id = some r) :
    exec (.peerInputTimeout r.id) s = .next (s.peerTimeout r) :=
  congrArg _ ((State.unlessFrozen_next h _).trans (State.onEnded_of_run there _))

/-! ### Fresh credits touch nothing but tiles -/

theorem State.freshCredits_frame (s : State) (ts : List Nat) : ∃ x, s.freshCredits ts = { s with tiles := x } := by
  unfold State.freshCredits
  induction ts generalizing s with
  | nil => exact ⟨s.tiles, rfl⟩
  | cons t ts ih => exact ih _

section
variable (s : State) (ts : List Nat)
@[simp] theorem State.freshCredits_counted (p : Nat) : (s.freshCredits ts).counted p = s.counted p := by
  obtain ⟨x, e⟩ := s.freshCredits_frame ts; rw [e]; rfl
@[simp] theorem State.freshCredits_causeBy (p : Nat) : (s.freshCredits ts).causeBy p = s.causeBy p := by
  obtain ⟨x, e⟩ := s.freshCredits_frame ts; rw [e]; rfl
end

/-! ### The start of a run (R153) -/

/-- A context of one of the run's tiles is ACTIVE or DRAINING. -/
def State.tilesBusy (s : State) (r : Run) : Bool :=
  r.tiles.any (fun t => [0, 1, 2, 3].any (fun c => ((s.tile t).ctx c).st == 3 || ((s.tile t).ctx c).st == 4))

theorem State.tilesBusy_iff (s : State) (r : Run) : s.tilesBusy r = true ↔
    ∃ t ∈ r.tiles, ∃ c ∈ [0, 1, 2, 3], ((s.tile t).ctx c).st = 3 ∨ ((s.tile t).ctx c).st = 4 := by
  simp only [State.tilesBusy, List.any_eq_true, Bool.or_eq_true, beq_iff_eq]

/-- Nothing keeps the run from its start. -/
structure State.StartMay (z : State) (r : Run) : Prop where
  notStarted : r.start = none
  goesOn : r.stopping = false
  tiles : z.tilesBusy r = false
  cells : z.cellsHeld r = false
  divider : z.clk.pendingDiv = none
  clock : z.clk.origin.isSome = true
  awake : ∀ t ∈ r.tiles, z.tileAwake t = true

/-- START in the present mclk: the first plane is ACTIVE. -/
def State.planeEntered (s : State) (r : Run) : State :=
  (s.startAt r.q r.owner s.mclk).setCtxs r.tiles [r.plane.slot] (fun x => { x with st := 3 })

/-- The run starts in mclk `m`, and its counts in its bank `b` begin. -/
def State.runBegun (s : State) (r : Run) (m : Nat) (b : Bank) : State :=
  s.onRun r.id (fun x => { x with
    start := some m, coverAt := s.counted r.part, base := b.totals (tileEngines x.tiles), baseAt := 0, baseBy := s.causeBy r.part })

theorem State.runBegun_freshCredits (s : State) (r : Run) (m : Nat) (b : Bank) :
    (s.freshCredits r.tiles).runBegun r m b = (s.freshCredits r.tiles).onRun r.id (fun x =>
      { x with start := some m, coverAt := s.counted r.part }.rebase b 0 (s.causeBy r.part)) := by
  rw [State.runBegun, State.freshCredits_counted, State.freshCredits_causeBy]
  rfl

section
variable {s : State} {r : Run}

theorem State.runStart_waits (h : s.settle.tilesBusy r = true ∨ s.settle.cellsHeld r = true) : s.runStart r = s.settle := by
  unfold State.tilesBusy at h
  refine if_pos ?_
  rcases h with busy | cells
  · simp only [busy, Bool.or_true, Bool.true_or]
  · simp only [cells, Bool.or_true, Bool.true_or]

theorem State.runStart_starts (h : s.settle.StartMay r) :
    let u := s.settle.untilRoot (s.settle.nextEdge r.unit)
    let v := u.planeEntered r
    let w := v.freshCredits r.tiles
    (∀ k ∈ w.work.updates, k.id ≠ r.owner) →
    s.runStart r = ((w.runBegun r u.mclk (v.bank (v.bankOf r.q))).traceCmd r.q r.owner (r.tiles.map srcTile) 0x01 0).syncPorts
      r.id := by
  intro u v w plain
  obtain ⟨notStarted, goesOn, tiles, cells, divider, clock, awake⟩ := h
  have noUpdate : ¬(w.work.updates.any (fun k => k.id == r.owner)) = true := by
    rw [List.any_eq_true]
    rintro ⟨k, there, same⟩
    exact plain k there (beq_iff_eq.mp same)
  rw [State.runBegun_freshCredits]
  refine (if_neg ?may).trans (congrArg (fun l => (State.traceCmd _ r.q r.owner l 0x01 0).syncPorts r.id) (if_neg noUpdate))
  case may =>
    unfold State.tilesBusy at tiles
    simp only [notStarted, goesOn, tiles, cells, divider, State.running, clock, List.all_eq_true.mpr awake]
    decide

end

/-! ### Bodies (R154, R451) -/

theorem Run.live_iff (r : Run) : r.live = true ↔ r.start.isSome = true ∧ r.hold = none ∧ r.issueEnded = false := by
  simp [Run.live, and_assoc]

/-- The break is armed for micro-batch `mb` of plane `pl` and has not been hit. -/
def State.breakDue (s : State) (pl mb : Nat) : Bool :=
  s.dbg.brkEnable && !s.dbg.brkHit && s.dbg.brkPlane.toNat == pl && s.dbg.brkMb.toNat == mb

theorem State.breakDue_iff (s : State) (pl mb : Nat) : s.breakDue pl mb = true ↔
    s.dbg.brkEnable = true ∧ s.dbg.brkHit = false ∧ s.dbg.brkPlane.toNat = pl ∧ s.dbg.brkMb.toNat = mb := by
  simp [State.breakDue, and_assoc]

/-- Events of one kind traced at every tile of a run. -/
def State.traceTiles (s : State) (r : Run) (ev cls x : Nat) : State :=
  r.tiles.foldl (fun s t => s.traceEv (srcTile t) 0 ev cls x) s

section
variable {s : State} {r : Run} (live : r.live = true) (goesOn : r.stopping = false)
include live goesOn

theorem State.bodyStart_eq (more : r.bodies < r.n) :
    let u := s.untilMclk (r.stamp (r.ap + r.plane.fill + r.bodies * r.plane.ii))
    let mb := r.mb r.bodies
    s.bodyStart r = if u.breakDue r.plane.plane mb = true then
        ((u.modDbg (fun d => { d with brkHit := true })).onRun r.id (fun x => { x with
          hold := some { cause := 1, since := u.mclk, live := u.clk.live } })).traceTiles r 0x06 3 1
      else ((u.onRun r.id (fun x => { x with bodies := r.bodies + 1 })).syncPorts r.id).traceTiles r 0x03 1
        (mb % 2 ^ 16 + r.plane.plane * 2 ^ 16) :=
  if_neg (by simp [live, goesOn, more])

end

/-! ### The end of a plane (R154, R184) -/

/-- The mclk in which every body of the run's plane has issued, its sync ports as far on as they come. -/
def State.planeIssued (s : State) (r : Run) : State :=
  (s.untilMclk (r.stamp (r.ap + r.plane.span r.n))).syncPorts r.id

/-- STEER_ORPHAN earned for unissued entries. -/
def State.unissuedEarned (s : State) (id : Nat) : State := s.onEnded id (fun x y => x.orphans id (x.unissued y))

/-- The run that is looked up is the one that earns. -/
theorem State.onEnded_orphans (s : State) (id : Nat) :
    s.onEnded id (fun x y => x.orphans y.id (x.unissued y)) = s.unissuedEarned id := by
  unfold State.unissuedEarned
  cases there : s.run id with
  | none => simp only [State.onEnded, there]
  | some y => rw [State.onEnded_of_run there, State.onEnded_of_run there, State.run_id there]

/-- STEER_ORPHAN earned for what the steering queues hold, which is discarded. -/
def State.steerDiscarded (s : State) (r : Run) : State := (s.orphans r.id (s.steerLeft r)).emptySteer r.tiles

/-- A plane drained before is LOADED, the plane left drains, the one in slot `next` is ACTIVE. -/
def State.slotsSwitched (s : State) (r : Run) (next : Nat) : State :=
  (((s.setCtxs r.tiles (r.planes.map (fun y => y.slot)) (fun x => if x.st == 4 then { x with st := 2 } else x)).setCtxs r.tiles
    [r.plane.slot] (fun x => { x with st := 4 })).setCtxs r.tiles [next] (fun x => { x with st := 3 })).freshCredits r.tiles

section
variable {s : State} {r : Run} (goesOn : r.stopping = false)
include goesOn

theorem State.planeSwitch_eq (live : r.live = true) (all : r.bodies = r.n) (more : r.plane.last = false) :
    let next := (r.planes.getD (r.cur + 1) r.plane).slot
    let z := (((s.planeIssued r).settle.unissuedEarned r.id).steerDiscarded r).slotsSwitched r next
    s.planeSwitch r = ((z.onRun r.id (fun x => { x with
      cur := x.cur + 1, bodies := 0, ap := r.ap + r.plane.span r.n, unitOps := [],
      leaving := some (r.plane.slot, z.workEnd r.tiles) })).traceTiles r 0x04 1 (r.plane.slot + 4 * next)).syncPorts r.id := by
  refine (if_neg (by simp [live, goesOn, all, more])).trans ?_
  rw [State.onEnded_orphans]
  rfl

theorem Run.issueAt_of_goesOn : r.issueAt = r.ap + r.plane.span r.n := by
  rw [Run.issueAt, goesOn]
  rfl

theorem State.issueEnd_eq (live : r.live = true) (all : r.bodies = r.n) (last : r.plane.last = true) :
    s.issueEnd r = ((((s.planeIssued r).unissuedEarned r.id).setCtxs r.tiles [r.plane.slot] (fun x => { x with st := 4 })).onRun
      r.id (fun x => { x with issueEnded := true })) := by
  refine (if_neg (by simp [live, all, last])).trans ?_
  simp only [Run.issueAt_of_goesOn goesOn, goesOn, Bool.false_eq_true, if_false, State.onEnded_orphans]
  rfl

end

/-! ### Completion (R164, R184) -/

/-- STEER_ORPHAN earned for what is left in steering and chain queues, which are emptied. -/
def State.leftoversDropped (s : State) (r : Run) : State := (s.orphans r.id (s.leftovers r)).emptyQueues r.tiles false

section
variable {s : State} {r : Run}

theorem State.runComplete_waits (held : s.opHeld r = true) : s.runComplete r = s := if_pos (by simp [held])

theorem State.runComplete_leaves (ended : r.issueEnded = true) (notHeld : r.hold = none) (noneHeld : s.opHeld r = false)
    (goesOn : r.stopping = false) {x : Run} :
    let e := r.stamp (r.ap + r.plane.span r.n + r.plane.endc)
    let v := (s.untilMclk e).leftoversDropped r
    v.run r.id = some x → s.runComplete r = v.leaveRun x (e - 1) [] := by
  intro e v there
  refine (if_neg (by simp [ended, notHeld, noneHeld])).trans ?_
  simp only [Run.issueAt_of_goesOn goesOn, goesOn, Bool.false_and]
  exact State.onEnded_of_run there (fun v x => v.leaveRun x (e - 1) [])

end

/-! ### Holds (R165, R166) -/

theorem lateOk_iff (cls cause : Nat) : lateOk cls cause = true ↔
    (cause = 3 ∧ cls = 3) ∨ ((cause = 4 ∨ cause = 5) ∧ cls = 0) ∨ (cause = 6 ∧ (cls = 1 ∨ cls = 2)) := by
  unfold lateOk
  split <;> simp_all

section
variable {s : State} {r : Run} {cls cause : Nat}

theorem State.lateInput_of_not_lateOk (input : Nat) (other : lateOk cls cause = false) : s.lateInput r input cls cause = s :=
  if_pos (by simp [other])

variable (started : r.start.isSome = true) (issues : r.issueEnded = false) (late : lateOk cls cause = true)
include started issues late

theorem Run.not_late_refused : ¬(r.start.isNone || r.issueEnded || !lateOk cls cause) = true := by
  simp [Option.isSome_iff_ne_none.mp started, issues, late]

theorem State.lateInput_holds (input : Nat) (free : r.hold = none) : s.lateInput r input cls cause =
    (s.onRun r.id (fun x => { x with
      hold := some { cause := cause, since := s.mclk, cls := cls, input := input, live := s.clk.live } })).traceTiles r 0x06 3
        cause := by
  refine (if_neg (Run.not_late_refused started issues late)).trans ?_
  rw [free]
  rfl

theorem State.lateInput_precedes (input : Nat) {h : Hold} (held : r.hold = some h) (same : h.since = s.mclk)
    (first : cause < h.cause) :
    s.lateInput r input cls cause =
      s.onRun r.id (fun x => { x with hold := some { h with cause := cause, cls := cls, input := input } }) := by
  refine (if_neg (Run.not_late_refused started issues late)).trans ?_
  rw [held]
  exact if_pos ⟨same, first⟩

end

/-! ### Early ends (R188, R189, R383) -/

theorem State.starveAt_of_limit {s : State} (h : s.dbg.noProgFrom ≤ s.mclk) (r : Run) : s.starveAt r =
    max s.mclk r.movesTo + (s.dbg.noProgress.toNat - (if s.mclk < r.movesTo then 0 else r.noProg)) := by
  have limit : s.noProgLimit = s.dbg.noProgress.toNat := if_neg h.not_gt
  rw [State.starveAt, limit]
  exact if_neg fun change => h.not_gt change.1

theorem State.joinStarve_eq {s : State} {r : Run} (started : r.start.isSome = true) (free : r.hold = none) :
    let u := s.untilMclk (s.starveAt r)
    s.joinStarve r = u.abandonRun r ⟨0x0302, r.starvePoint u, 0⟩ :=
  if_neg (by simp [Option.isSome_iff_ne_none.mp started, free])

theorem State.peerTimeout_eq {s : State} {r : Run} {h : Hold} (held : r.hold = some h) (peer : h.cls = 0) :
    let u := s.untilLive (h.live + s.mod.collTimeout.toNat * 6000)
    s.peerTimeout r = u.abandonRun r ⟨0x0502, u.silentPeer r h.input, 0⟩ := by
  rw [State.peerTimeout, held]
  exact if_neg (not_not.mpr peer)

end Sys2Proof.Machine

namespace Sys2Proof.Settled
open Sys2Proof.Machine Sys2Proof.Claims

/-- Settles O31: what keeps a run from its start, what its start does, and its bodies with the break's. -/
theorem runAndBodyStart : Obligations.RunAndBodyStart := by
  unfold Obligations.RunAndBodyStart
  constructor
  · intro s r frozen paused there z busy
    rw [exec_runStart ⟨frozen, paused⟩ there]
    refine ⟨fun waits => congrArg _ (State.runStart_waits (waits.imp_left (State.tilesBusy_iff ..).mpr)), ?_⟩
    intro notStarted goesOn free cells divider clock awake u v w plain
    have tiles : z.tilesBusy r = false := Bool.eq_false_iff.mpr (mt (State.tilesBusy_iff ..).mp free)
    exact congrArg _ (State.runStart_starts ⟨notStarted, goesOn, tiles, cells, divider, clock, awake⟩ plain)
  · intro s r frozen paused there started free issues goesOn more k u mb brk
    have body := State.bodyStart_eq (s := s) (r.live_iff.mpr ⟨started, free, issues⟩) goesOn more
    rw [exec_bodyStart ⟨frozen, paused⟩ there]
    exact ⟨fun go => congrArg _ (body.trans (if_neg (mt (State.breakDue_iff ..).mp go))),
      fun hit => congrArg _ (body.trans (if_pos ((State.breakDue_iff ..).mpr hit)))⟩

/-- Settles O32: a plane's end by whether it is the last, and the run's completion by whether a stream holds work of it. -/
theorem runIssueEnds : Obligations.RunIssueEnds := by
  unfold Obligations.RunIssueEnds
  constructor
  · intro s r frozen paused there started free issues goesOn all p a u
    have live : r.live = true := r.live_iff.mpr ⟨started, free, issues⟩
    refine ⟨fun more => ?_, fun last => ?_⟩
    · rw [exec_planeSwitch ⟨frozen, paused⟩ there, State.planeSwitch_eq goesOn live all more]
      rfl
    · rw [exec_issueEnd ⟨frozen, paused⟩ there, State.issueEnd_eq goesOn live all last]
      rfl
  · intro s r frozen paused there ended notHeld
    rw [exec_runComplete ⟨frozen, paused⟩ there]
    exact ⟨fun held => congrArg _ (State.runComplete_waits held), fun noneHeld goesOn x left =>
      congrArg _ (State.runComplete_leaves ended notHeld noneHeld goesOn left)⟩

/-- Settles O33: when a hold begins and ends, and the two ends that detectors give a run. -/
theorem runHolds : Obligations.RunHolds := by
  unfold Obligations.RunHolds
  refine ⟨?begins, ?ends, ?starves, ?silent⟩
  case begins =>
    intro s r input cls cause frozen paused there started issues
    rw [exec_timedInputLate ⟨frozen, paused⟩ there]
    exact ⟨lateOk_iff cls cause, fun other => congrArg _ (State.lateInput_of_not_lateOk input other),
      fun late free => congrArg _ (State.lateInput_holds started issues late input free),
      fun late h held same first => congrArg _ (State.lateInput_precedes started issues late input held same first)⟩
  case ends =>
    intro s r h frozen paused there held
    rw [exec_holdEnd ⟨frozen, paused⟩ there held]
    exact ⟨fun brk hit => congrArg _ (if_pos ⟨brk, hit⟩), fun may => congrArg _ (if_neg fun ⟨brk, hit⟩ =>
      may.elim (· brk) (fun no => Bool.false_ne_true (no.symm.trans hit)))⟩
  case starves =>
    intro s r frozen paused there started free limit
    rw [exec_joinStarve ⟨frozen, paused⟩ there, State.joinStarve_eq started free, State.starveAt_of_limit limit]
  case silent =>
    intro s r h frozen there held peer
    rw [exec_peerInputTimeout frozen there, State.peerTimeout_eq held peer]

end Sys2Proof.Settled
end

/-! ## Proofs: streams in motion -/
section
namespace Sys2Proof.Machine
open Sys2Proof.Claims

/-! ### The rows -/

section
variable {s : State} (h : Live s) (t n : Nat)
include h

theorem exec_streamBeat : exec (.streamBeat t n) s = .next (s.sendBeat t n) :=
  congrArg _ (State.unlessHalted_next h.1 h.2 _)
theorem exec_creditReturn (dest : Nat) : exec (.creditReturn t n dest) s = .next (s.creditBack t n dest) :=
  congrArg _ (State.unlessHalted_next h.1 h.2 _)
theorem exec_switchItem : exec (.switchItem t n) s = .next (s.switchItem t n) :=
  congrArg _ (State.unlessHalted_next h.1 h.2 _)
theorem exec_mergeItem : exec (.mergeItem t n) s = .next (s.mergeItem t n) :=
  congrArg _ (State.unlessHalted_next h.1 h.2 _)

end

/-! ### Beats (R157, R172, R173) -/

/-- The next beat of the source's buffer is drawn. -/
def State.drawBeat (s : State) (t n : Nat) : State :=
  s.modSource t n (fun c => { c with buf := c.buf.drop 1, sent := c.sent + 1 })

theorem State.nextBeat_of_buf {s : State} {t n : Nat} {b : Beat} {rest : List Beat} (h : (s.source t n).buf = b :: rest)
    (p : Nat) : s.nextBeat p t n = some (b, s.drawBeat t n) := by
  simp only [State.nextBeat, h]
  rfl

/-- The root cycle of stream slot `k`, counted from the first memory frame of F3. -/
def State.slotTime (s : State) (k : Nat) : Nat := s.clk.frameOrigin.getD 0 + 3 * k

/-- Every destination of the stream, of which there is one, has room for a beat. -/
def State.beatRoom (s : State) (t n : Nat) (ds : List Nat) (b : Beat) : Prop :=
  ds ≠ [] ∧ ∀ d ∈ ds, s.roomAt t n d 1 (beatTokens b).length = true

theorem State.not_beatRoom_iff (s : State) (t n : Nat) (ds : List Nat) (b : Beat) : ¬s.beatRoom t n ds b ↔
    (ds.isEmpty || !ds.all (fun d => s.roomAt t n d 1 (beatTokens b).length)) = true := by
  rw [State.beatRoom, not_and_or]
  simp

/-- The beat lands at every destination in slot `k`; the run has progress, and the steering units there may wait. -/
def State.beatSent (s : State) (r : Run) (t n k : Nat) (ds : List Nat) (b : Beat) : State :=
  ds.foldl (fun x d => x.steerWaits r.id d)
    ((ds.foldl (fun x d => x.land t n d b) (s.modSource t n (fun c => { c with slotAt := k + 1 }))).onRun r.id
      (fun x => { x with noProg := 0 }))

section
variable {s : State} {t n : Nat} {r : Run}

theorem State.sendBeat_of_no_slot (run : s.movable t = some r) (noSlot : s.nextSlotAt t n = none) : s.sendBeat t n = s := by
  simp only [State.sendBeat, run, noSlot]

variable {b : Beat} {rest : List Beat} {k : Nat} (run : s.movable t = some r) (next : (s.source t n).buf = b :: rest)
  (slot : s.nextSlotAt t n = some k)
include run next slot

theorem State.sendBeat_held (noRoom : ¬((s.drawBeat t n).untilRoot (s.slotTime k)).beatRoom t n (s.destsOf t n) b) :
    s.sendBeat t n = (s.untilRoot (s.slotTime k)).sourceHeld r t n := by
  simp only [State.sendBeat, run, slot, State.nextBeat_of_buf next]
  exact if_pos ((State.not_beatRoom_iff ..).mp noRoom)

theorem State.sendBeat_sent (room : ((s.drawBeat t n).untilRoot (s.slotTime k)).beatRoom t n (s.destsOf t n) b) :
    s.sendBeat t n = ((s.drawBeat t n).untilRoot (s.slotTime k)).beatSent r t n k (s.destsOf t n) b := by
  simp only [State.sendBeat, run, slot, State.nextBeat_of_buf next]
  exact if_neg fun noRoom => (State.not_beatRoom_iff ..).mpr noRoom room

end

/-! ### Credits (R172) -/

/-- The first element that `p` admits is taken, and the others keep their order. -/
theorem takeFirst_append {α : Type} {p : α → Bool} {x : α} (hx : p x = true) (post : List α) {pre : List α}
    (h : ∀ y ∈ pre, p y = false) : takeFirst p (pre ++ x :: post) = some (x, pre ++ post) := by
  induction pre with
  | nil => exact if_pos hx
  | cons y pre ih =>
    rw [List.cons_append, takeFirst, h y List.mem_cons_self, ih fun z mem => h z (List.mem_cons_of_mem y mem)]
    rfl

theorem State.creditBack_eq {s : State} {t n dest k : Nat} {r : Run} {pre post : List Nat} (run : s.movable t = some r)
    (way : (s.source t n).returning = pre ++ k :: post) (here : k / 8 = dest) (first : ∀ x ∈ pre, x / 8 ≠ dest) :
    s.creditBack t n dest = (s.modSource t n (fun c => { c with
      returning := pre ++ post, spent := Tbl.set 0 c.spent k (Tbl.get 0 c.spent k - 1) })).onRun r.id
        (fun x => { x with noProg := 0 }) := by
  have taken : takeFirst (fun d => d / 8 == dest) (s.source t n).returning = some (k, pre ++ post) := by
    rw [way]
    exact takeFirst_append (by simpa using here) post fun y mem => by simpa using first y mem
  simp only [State.creditBack, run, taken]

/-! ### Items of a SWITCH (R180, R183) -/

/-- The beats, marked as poisoned where their token is. -/
def itemOf (bad : Bool) (bs : List Beat) : List Beat := if bad = true then bs.map (fun b => { b with poison := true }) else bs

theorem map_mark_eq_itemOf (bad : Bool) (bs : List Beat) :
    bs.map (fun b => if bad = true then { b with poison := true } else b) = itemOf bad bs := by
  cases bad with
  | false => exact List.map_id bs
  | true => rfl

/-- What a SWITCH whose token is `v` sends to output `w`: its item, or null beats. -/
def switchOut (bad : Bool) (v n : Nat) (bs : List Beat) (w : Nat) : List Beat :=
  if bad = true ∨ w = v then itemOf bad bs else List.replicate n nullBeat

theorem switchOut_eq (bad : Bool) (v n : Nat) (bs : List Beat) (w : Nat) :
    (if (bad || w == v) = true then itemOf bad bs else List.replicate n nullBeat) = switchOut bad v n bs w :=
  if_congr (by rw [Bool.or_eq_true, beq_iff_eq]) rfl rfl

/-- A check that turns a row away, by what it checks. -/
theorem ite_not_of_iff {α : Type} {b : Bool} {P : Prop} [Decidable P] (h : b = true ↔ P) (x y : α) :
    (if (!b) = true then x else y) = if P then y else x := by
  by_cases p : P
  · simp [h.mpr p, p]
  · simp [mt h.mp p, p]

/-- A SWITCH sends to each of its outputs and moves on. -/
def State.switchSent (s : State) (r : Run) (t u : Nat) (x : List Byte) (rest : List (Nat × Bool)) (out : Nat → List Beat) :
    State :=
  ((List.range (sWays x)).foldl (fun z w => z.sendItem t (sWay x w) (out w)) (s.modSteer t u (fun k => { k with
    tokens := rest, data0 := k.data0.drop (sBeats x) }))).steered r t u

section
variable {s : State} {t u : Nat} {r : Run} {v : Nat} {bad : Bool} {rest : List (Nat × Bool)} (run : s.movable t = some r)
  (token : (s.steer t u).tokens = (v, bad) :: rest)
include run token

/-- A SWITCH with a token waits for the beats of its item, then for room at every output, and sends them. -/
theorem State.switchItem_eq (kind : sKind (steerEntry (s.tile t).active u) = 1) :
    let x := steerEntry (s.tile t).active u
    let y := s.steer t u
    let out := switchOut bad v (sBeats x) (y.data0.take (sBeats x))
    s.switchItem t u =
      if y.data0.length < sBeats x then s.waitAt r.id t (8 + u) (sData x)
      else if ∀ w ∈ List.range (sWays x), s.itemRoom t (sWay x w) (sBeats x) (itemTokens (out w)) = true then
        s.switchSent r t u x rest out
      else s.waitAt r.id t (8 + u) (sData x) := by
  intro x y out
  simp only [State.switchItem, run, token, map_mark_eq_itemOf, switchOut_eq]
  refine (if_neg (not_not.mpr kind)).trans (if_congr Iff.rfl rfl ?_)
  exact ite_not_of_iff List.all_eq_true _ _

/-! ### Items of a MERGE (R181, R183) -/

/-- What a MERGE whose token is `v` passes on. -/
def mergeOut (bad : Bool) (v : Nat) (x : List Byte) (y : Steer) : List Beat :=
  if bad = true then itemOf true ((y.data 0).take (sBeats x))
  else if v < sWays x then (y.data v).take (sBeats x) else List.replicate (sBeats x) nullBeat

/-- A MERGE consumes an item of every input, passes one on and moves on. -/
def State.mergeSent (s : State) (r : Run) (t u : Nat) (x : List Byte) (rest : List (Nat × Bool)) (item : List Beat) : State :=
  ((s.modSteer t u (fun k => (List.range (sWays x)).foldl (fun k w => k.setData w ((k.data w).drop (sBeats x))) { k with
    tokens := rest })).sendItem t (sData x) item).steered r t u

theorem State.mergeItem_short (kind : sKind (steerEntry (s.tile t).active u) = 2) {w : Nat} :
    let x := steerEntry (s.tile t).active u
    (List.range (sWays x)).find? (fun w => decide (((s.steer t u).data w).length < sBeats x)) = some w →
    s.mergeItem t u = s.waitAt r.id t (8 + u) (sWay x w) := by
  intro x short
  simp only [State.mergeItem, run, token]
  refine (if_neg (not_not.mpr kind)).trans ?_
  rw [short]

/-- A MERGE with a token and the beats of every input waits for room, and passes its item on. -/
theorem State.mergeItem_eq (kind : sKind (steerEntry (s.tile t).active u) = 2) :
    let x := steerEntry (s.tile t).active u
    let y := s.steer t u
    let item := mergeOut bad v x y
    (∀ w ∈ List.range (sWays x), sBeats x ≤ (y.data w).length) →
    s.mergeItem t u =
      if s.itemRoom t (sData x) (sBeats x) (itemTokens item) = true then s.mergeSent r t u x rest item
      else s.waitAt r.id t (8 + u) (sData x) := by
  intro x y item full
  have noneShort : (List.range (sWays x)).find? (fun w => decide ((y.data w).length < sBeats x)) = none :=
    List.find?_eq_none.mpr fun w way => by simpa using full w way
  simp only [State.mergeItem, run, token]
  refine (if_neg (not_not.mpr kind)).trans ?_
  rw [noneShort]
  exact ite_not_of_iff Iff.rfl _ _

end

end Sys2Proof.Machine

namespace Sys2Proof.Settled
open Sys2Proof.Machine Sys2Proof.Claims

/-- Settles O39: beats and credits of a source, then an item of a SWITCH and of a MERGE, by what each lacks. -/
theorem streamRows : Obligations.StreamRows := by
  unfold Obligations.StreamRows
  constructor
  · intro s t n r live run
    rw [exec_streamBeat live]
    refine ⟨fun b rest k next slot => ⟨fun noRoom => ?_, fun room => ?_⟩,
      fun noSlot => congrArg _ (State.sendBeat_of_no_slot run noSlot), fun dest pre k post way here first => ?_⟩
    · exact congrArg _ (State.sendBeat_held run next slot noRoom)
    · exact congrArg _ (State.sendBeat_sent run next slot room)
    · rw [exec_creditReturn live, State.creditBack_eq run way here first]
  · intro s t u r v bad rest live run token x y n ways marked
    rw [exec_switchItem live, exec_mergeItem live]
    refine ⟨fun kind => ?switch, fun kind => ?merge⟩
    case switch =>
      intro item out room
      have row := State.switchItem_eq run token kind
      exact ⟨fun short => congrArg _ (row.trans (if_pos short)),
        fun beats noRoom => congrArg _ (row.trans ((if_neg beats.not_gt).trans (if_neg noRoom))),
        fun beats open' => congrArg _ (row.trans ((if_neg beats.not_gt).trans (if_pos open')))⟩
    case merge =>
      intro item room
      refine ⟨fun w short => congrArg _ (State.mergeItem_short run token kind short), fun beats noRoom => ?_,
        fun beats open' => ?_⟩
      · exact congrArg _ ((State.mergeItem_eq run token kind beats).trans (if_neg noRoom))
      · exact congrArg _ ((State.mergeItem_eq run token kind beats).trans (if_pos open'))

end Sys2Proof.Settled
end

/-! ## Proofs: the freeze -/
section
namespace Sys2Proof.Machine
open Sys2Proof.Claims

/-! ### Sources (R195) -/

/-- HALT_N or DEBUG holds a request: a source of the module's own. -/
def State.HasOwnSource (s : State) : Prop := s.pins.haltN = false ∨ s.dbg.freezeReq = true

theorem State.frzSources_ne_zero (s : State) :
    s.frzSources ≠ 0 ↔ s.pins.haltN = false ∨ s.dbg.freezeReq = true ∨ s.dbg.peers ≠ [] := by
  have table : ∀ pin req free : Bool,
      b01 (!pin) + 2 * b01 req + 4 * b01 (!free) ≠ 0 ↔ pin = false ∨ req = true ∨ free = false := by decide
  exact (table _ _ _).trans (or_congr_right (or_congr_right List.isEmpty_eq_false_iff))

/-- The two low bits of the sources are the module's own. -/
theorem State.frzSources_own (s : State) : (s.frzSources % 4 != 0) = true ↔ s.HasOwnSource := by
  have table : ∀ pin req free : Bool,
      ((b01 (!pin) + 2 * b01 req + 4 * b01 (!free)) % 4 != 0) = true ↔ pin = false ∨ req = true := by decide
  exact table _ _ _

/-! ### After a change of sources (R196, R200) -/

/-- The module stops: its two times stamped, every trace source told. -/
def State.stopped (s : State) : State :=
  (s.modDbg (fun d => { d with
    frozenAt := some s.clk.root, releasedAt := none, stampN := BitVec.ofNat 48 s.nclk
    stampM := BitVec.ofNat 48 s.mclk })).traceAll 0x0C s.nclk

/-- With a source present the module stays as it is, frozen or not up yet, or stops. -/
theorem State.freezeNow_eq {s : State} (source : s.frzSources ≠ 0) :
    s.freezeNow = if s.frozen = true ∨ s.mod.done = false then s else s.stopped :=
  if_congr (by simp [source]) rfl rfl

theorem State.sourcesChanged_eq (s : State) : s.sourcesChanged = settled s := by
  by_cases source : s.frzSources ≠ 0
  · have told : (s.modDbg (fun d => { d with releasedAt := none })).frzSources ≠ 0 := source
    exact (if_pos source).trans ((State.freezeNow_eq told).trans (if_pos (s.frzSources_ne_zero.mp source)).symm)
  · exact (if_neg source).trans (if_neg (mt s.frzSources_ne_zero.mpr source)).symm

/-! ### A change of the module's own sources (R199) -/

section
variable {s : State} {f : State → State}

theorem State.ownSource_first (before : ¬s.HasOwnSource) (after : (f s).HasOwnSource) :
    s.ownSource f = settled (frozenOut (f s)) := by
  rw [← State.frzSources_own] at before after
  simp only [State.ownSource, after, before]
  exact State.sourcesChanged_eq _

theorem State.ownSource_last (before : s.HasOwnSource) (after : ¬(f s).HasOwnSource) :
    s.ownSource f = settled ((f s).fanOut 1 (f s).ownKey) := by
  rw [← State.frzSources_own] at before after
  simp only [State.ownSource, after, before]
  exact State.sourcesChanged_eq _

theorem State.ownSource_same (same : s.HasOwnSource ↔ (f s).HasOwnSource) : s.ownSource f = settled (f s) := by
  rw [← State.frzSources_own, ← State.frzSources_own, ← Bool.eq_iff_iff] at same
  simp only [State.ownSource, same, Bool.and_not_self]
  exact State.sourcesChanged_eq _

end

/-! ### The rows -/

theorem exec_haltN (low : Bool) (s : State) :
    exec (.haltN low) s = .next (s.ownSource (fun s => s.modPins (fun p => { p with haltN := !low }))) := rfl

theorem exec_freezeReq_unserved {s : State} (h : s.allServed = false) (v : Nat) : exec (.freezeReq v) s = .next s :=
  congrArg _ (if_neg (by simp [h]))

theorem exec_freezeReq_served {s : State} (h : s.allServed = true) (v : Nat) :
    exec (.freezeReq v) s = .next ((s.modDbg (fun d => { d with fanout := BitVec.ofNat 18 (bits v 8 18) })).ownSource
      (fun s => s.modDbg (fun d => { d with freezeReq := bit v 0 }))) := congrArg _ (if_pos h)

section
variable {s : State} {port node seq : Nat}

theorem exec_freeze_seen (h : node * 65536 + seq % 65536 ∈ s.dbg.seen) :
    exec (.freeze port node seq) s = .next (s.modLink port (fun l => { l with heard := true })) :=
  congrArg _ (if_pos (List.contains_iff_mem.mpr h))

theorem exec_freeze_new (h : node * 65536 + seq % 65536 ∉ s.dbg.seen) :
    let k := node * 65536 + seq % 65536
    exec (.freeze port node seq) s = .next (settled (((s.modLink port (fun l => { l with heard := true })).modDbg (fun d =>
      { d with seen := setIns d.seen k, peers := setIns d.peers k })).fanOut 0 (fun _ => k))) :=
  congrArg _ ((if_neg (mt List.contains_iff_mem.mp h)).trans (State.sourcesChanged_eq _))

theorem exec_release_stranger (h : node * 65536 + seq % 65536 ∉ s.dbg.peers) :
    exec (.release port node seq) s = .next (s.modLink port (fun l => { l with heard := true })) :=
  congrArg _ ((ite_not_of_iff List.contains_iff_mem _ _).trans (if_neg h))

theorem exec_release_peer (h : node * 65536 + seq % 65536 ∈ s.dbg.peers) :
    let k := node * 65536 + seq % 65536
    exec (.release port node seq) s = .next (settled (((s.modLink port (fun l => { l with heard := true })).modDbg (fun d =>
      { d with peers := setDel d.peers k })).fanOut 1 (fun _ => k))) :=
  congrArg _ ((ite_not_of_iff List.contains_iff_mem _ _).trans ((if_pos h).trans (State.sourcesChanged_eq _)))

end

/-! ### Time passes -/

/-- Time changes the clock and what the runs count of it, not the divider. -/
theorem State.advance_frame (s : State) (n : Nat) : ∃ c rs, c.div = s.clk.div ∧
    s.advance n = { s with clk := c, work := { s.work with runs := rs } } := by
  refine ⟨(s.advance n).clk, (s.advance n).work.runs, ?_, ?_⟩ <;>
  · unfold State.advance
    simp only
    split <;> rfl

section
variable (s : State) (n : Nat)
@[simp] theorem State.untilRoot_div : (s.untilRoot n).clk.div = s.clk.div := by
  obtain ⟨c, rs, div, e⟩ := s.advance_frame (n - s.clk.root); rw [State.untilRoot, e]; exact div
@[simp] theorem State.untilRoot_dbg : (s.untilRoot n).dbg = s.dbg := by
  obtain ⟨c, rs, div, e⟩ := s.advance_frame (n - s.clk.root); rw [State.untilRoot, e]
@[simp] theorem State.untilMclk_tiles : (s.untilMclk n).tiles = s.tiles := by
  obtain ⟨c, rs, div, e⟩ := s.advance_frame (s.clk.markRoot + (n - s.clk.markMclk) * s.clk.div - s.clk.root)
  rw [State.untilMclk, State.untilRoot, e]
end

/-! ### The resumption (R200, R167) -/

theorem exec_freezeResume_waits {s : State} (h : s.dbg.frozenAt = none ∨ s.dbg.releasedAt = none) :
    exec .freezeResume s = .next s := by
  refine congrArg Host.Outcome.next ?_
  rcases h with running | held
  · simp only [running]
  · cases s.dbg.frozenAt <;> simp only [held]

theorem exec_freezeResume {s : State} {stop release : Nat} (frozen : s.dbg.frozenAt = some stop)
    (released : s.dbg.releasedAt = some release) : exec .freezeResume s = .next (s.freezeResume stop release) := by
  refine congrArg Host.Outcome.next ?_
  simp only [frozen, released]

/-- The length of a freeze is a whole number of the least span of whole frames and mclk. -/
theorem freezeLength_eq (div stop release : Nat) : freezeLength div stop release =
    max (Nat.lcm frameRoot div) (roundUp (release - stop) (Nat.lcm frameRoot div)) := by
  rw [freezeLength, Nat.lcm, Nat.mul_div_assoc _ (Nat.gcd_dvd_right _ _)]

theorem freezeLength_spec {div : Nat} (divPos : 0 < div) (stop release : Nat) :
    let h := freezeLength div stop release
    0 < h ∧ frameRoot ∣ h ∧ div ∣ h ∧ release ≤ stop + h := by
  have stepPos : 0 < Nat.lcm frameRoot div := Nat.lcm_pos (by decide) divPos
  have steps : Nat.lcm frameRoot div ∣ freezeLength div stop release := by
    rw [freezeLength_eq]
    rcases max_choice (Nat.lcm frameRoot div) (roundUp (release - stop) (Nat.lcm frameRoot div)) with one | rounded
    · rw [one]
    · rw [rounded]
      exact dvd_roundUp _ _
  have reaches : release - stop ≤ freezeLength div stop release := by
    rw [freezeLength_eq]
    exact ((roundUp_le_iff stepPos (dvd_roundUp _ _)).mp le_rfl).trans (le_max_right _ _)
  refine ⟨stepPos.trans_le ?_, (Nat.dvd_lcm_left _ _).trans steps, (Nat.dvd_lcm_right _ _).trans steps,
    Nat.sub_le_iff_le_add'.mp reaches⟩
  rw [freezeLength_eq]
  exact le_max_left _ _

end Sys2Proof.Machine

namespace Sys2Proof.Settled
open Sys2Proof.Machine Sys2Proof.Claims

/-- Settles O47: a change of the sources by what it does to the module's own, then the messages of peers, then the
resumption. -/
theorem freezeRows : Obligations.FreezeRows := by
  unfold Obligations.FreezeRows
  refine ⟨?pin, ?debug, ?peers, fun s => exec_freezeResume_waits, ?resume, fun div stop release divPos =>
    freezeLength_spec divPos stop release⟩
  case pin =>
    intro s low own own' u
    have level : u.HasOwnSource ↔ own' := or_congr_left (Bool.not_eq_false' low).to_iff
    rw [exec_haltN]
    exact ⟨fun before after => congrArg _ (State.ownSource_first before (level.mpr after)),
      fun before after => congrArg _ (State.ownSource_last before (mt level.mp after)),
      fun same => congrArg _ (State.ownSource_same (same.trans level.symm))⟩
  case debug =>
    intro s v w u own own'
    refine ⟨fun down => exec_freezeReq_unserved down v, fun served before after => ?_, fun served before after => ?_,
      fun served same => ?_⟩ <;> rw [exec_freezeReq_served served]
    · exact congrArg _ (State.ownSource_first before after)
    · exact congrArg _ (State.ownSource_last before after)
    · exact congrArg _ (State.ownSource_same same)
  case peers =>
    exact fun s port node seq => ⟨exec_freeze_seen, exec_freeze_new, exec_release_stranger, exec_release_peer⟩
  case resume =>
    intro s stop release frozen released n h u v x y
    rw [exec_freezeResume frozen released, State.freezeResume]
    simp only [State.untilRoot_div, State.untilRoot_dbg]
    rfl

end Sys2Proof.Settled
end

/-! ## Proofs: chain hand-over and the start of DMA descriptors -/
section
namespace Sys2Proof.Machine

/-! ### The rows -/

section
variable {s : State} (live : s.frozen = false)
include live

theorem exec_handoverSwap {f : Fused} (there : s.work.fused.find? (fun x => x.id == f.id) = some f) (j : Nat) :
    exec (.handoverSwap f.id j) s = .next (s.handover f j) := by
  refine congrArg _ ((State.unlessFrozen_next live _).trans ?_)
  simp only [there]

theorem exec_dmaDescriptor (id : Nat) : exec (.dmaDescriptor id) s = .next (s.startDma id) :=
  congrArg _ (State.unlessFrozen_next live _)

end

/-! ### Hand-over (R330) -/

section
variable {s : State} {f : Fused} {j n t : Nat} (pair : fPair (f.stages.getD j []) = some (n, t))
include pair

theorem State.handover_early (early : f.completed.getD j 0 ≤ f.handed.getD j 0) : s.handover f j = s := by
  simp only [State.handover, pair]
  have notYet : ¬Fused.nth f.handed j < Fused.nth f.completed j := early.not_gt
  exact if_neg (by simp [notYet])

/-- The pair swaps in the mclk after the later end; a last stage, and a first iteration, wait for no consumer. -/
theorem State.handover_swaps (produced : f.handed.getD j 0 < f.completed.getD j 0)
    (consumed : j + 1 = f.stages.length ∨ f.handed.getD j 0 ≤ f.completed.getD (j + 1) 0) :
    let i := f.handed.getD j 0
    let m := max (f.doneAt.getD j 0) (if j + 1 = f.stages.length ∨ i = 0 then 0 else f.doneAt.getD (j + 1) 0) + 1
    s.handover f j = ((((s.untilMclk m).modPair (s.physTile f.part t) n HalfPair.swap).onFused f.id (fun x => { x with
      handed := x.handed.set j (i + 1), swapped := x.swapped.set j m })).fusedGo f.id) := by
  simp only [State.handover, pair, Fused.nth, beq_iff_eq]
  have due : (decide (f.handed.getD j 0 < f.completed.getD j 0) &&
      (j + 1 == f.stages.length || decide (f.handed.getD j 0 ≤ f.completed.getD (j + 1) 0))) = true := by
    simp only [Bool.and_eq_true, Bool.or_eq_true, beq_iff_eq, decide_eq_true_eq]
    exact ⟨produced, consumed⟩
  exact if_pos due

end

/-! ### Which engine (R322) -/

/-- The first number below `n` at which `f` is least. -/
def firstLeast (f : Nat → Nat) (n : Nat) : Nat := (List.range n).foldl (fun a e => if f e < f a then e else a) 0

theorem firstLeast_succ (f : Nat → Nat) (n : Nat) :
    firstLeast f (n + 1) = if f n < f (firstLeast f n) then n else firstLeast f n := by
  simp only [firstLeast, List.range_succ, List.foldl_append, List.foldl_cons, List.foldl_nil]
  rfl

theorem firstLeast_lt (f : Nat → Nat) {n : Nat} (h : 0 < n) : firstLeast f n < n := by
  induction n, h using Nat.le_induction with
  | base => rw [firstLeast_succ]; split <;> simp [firstLeast]
  | succ n _ ih => rw [firstLeast_succ]; split <;> omega

theorem firstLeast_eq {f : Nat → Nat} {n e : Nat} (h : e < n) (least : ∀ k < n, f e ≤ f k) (first : ∀ k < e, f e < f k) :
    firstLeast f n = e := by
  induction n, h using Nat.le_induction with
  | base =>
    rw [firstLeast_succ]
    rcases Nat.eq_zero_or_pos e with rfl | pos
    · exact if_neg (lt_irrefl _)
    · exact if_pos (first _ (firstLeast_lt f pos))
  | succ n _ ih =>
    rw [firstLeast_succ, ih fun k below => least k (below.trans n.lt_succ_self)]
    exact if_neg (least n n.lt_succ_self).not_gt

/-! ### The start of a descriptor (R322, R324) -/

/-- The die of the engines that serve a descriptor. -/
def State.dmaDie (s : State) (d : Dma) : Nat := ((s.qw d.q).core.getD 0) / 4

/-- The descriptors in progress on a die. -/
def State.flying (s : State) (die : Nat) : List Dma :=
  s.work.dmas.filter (fun x => x.started && !x.done && s.dmaDie x == die)

/-- Descriptors in progress on one engine of a die. -/
def State.onEngine (s : State) (die e : Nat) : Nat := ((s.flying die).filter (fun x => x.eng == e)).length

/-- The descriptors before `d` of its command, in its stage. -/
def State.earlier (s : State) (id : Nat) (d : Dma) : List Dma :=
  s.work.dmas.filter (fun x => x.owner == id && x.stage == d.stage && decide (x.id < d.id))

/-- AFTER: an earlier descriptor is not complete. -/
def State.dmaWaits (s : State) (id : Nat) (d : Dma) : Bool := d.after && (s.earlier id d).any (fun x => !x.done)

theorem State.dmaWaits_iff (s : State) (id : Nat) (d : Dma) :
    s.dmaWaits id d = true ↔ d.after = true ∧ ∃ x ∈ s.earlier id d, x.done = false := by
  simp only [State.dmaWaits, Bool.and_eq_true, List.any_eq_true, Bool.not_eq_true']

/-- With AFTER, time reaches the mclk after the last earlier descriptor's end. -/
def State.dmaAfter (s : State) (id : Nat) (d : Dma) : State :=
  if d.after = true then s.untilMclk ((s.earlier id d).foldl (fun m x => max m (x.endAt + 1)) 0) else s

/-- The roles of every tile's half pairs. -/
def State.latch (s : State) : Tbl Nat := s.tiles.filterMap (fun (t, x) => if x.roles = 0 then none else some (t, x.roles))

@[simp] theorem State.dmaAfter_latch (s : State) (id : Nat) (d : Dma) : (s.dmaAfter id d).latch = s.latch := by
  unfold State.dmaAfter
  split
  · simp only [State.latch, State.untilMclk_tiles]
  · rfl

/-- A descriptor of a chain's stage waits for the stage's turn as well (R330). -/
def State.dmaTurn (s : State) (id : Nat) (d : Dma) : State :=
  match d.stage, (s.dmaAfter id d).work.fused.find? (fun f => f.id == id) with
  | some j, some f => (s.dmaAfter id d).untilMclk (f.goAt j)
  | _, _ => s.dmaAfter id d

theorem State.dmaTurn_of_command {d : Dma} (alone : d.stage = none) (s : State) (id : Nat) :
    s.dmaTurn id d = s.dmaAfter id d := by
  simp only [State.dmaTurn, alone]

/-- Descriptor `d`, due in state `u`, as it goes on. -/
def State.dmaBegun (u : State) (id : Nat) (d : Dma) (eng : Nat) : Dma :=
  let v := u.startAt d.q id u.mclk
  { d with started := true, latch := u.latch, eng := eng, startedAt := v.mclk, endAt := v.mclk }

/-- The command has its START, and the descriptor goes on, or is held by an array in use (R86). -/
def State.dmaGoes (u : State) (id : Nat) (d : Dma) (eng : Nat) : State :=
  let e := u.dmaBegun id d eng
  let w := (u.startAt d.q id u.mclk).onDma d.id (fun _ => e)
  if w.dmaHeld e = true then w.modWork (fun k => { k with held := k.held ++ [.dma d.id] }) else w.runDma e

/-- A host source is asked for the bytes of all rows, under the next tag (R326). -/
theorem State.runDma_host {d : Dma} (host : d.srcHost = true) (s : State) :
    let tag := s.work.nextTag
    s.runDma d = s.modWork (fun k => { k with
      nextTag := tag + 1
      hostReads := k.hostReads ++ [⟨tag, fld d.bytes 0 8, d.total, s.clk.root, .dma d.id⟩]
      dmas := updWhere (fun x => x.id == d.id) (fun x => { x with tag := some tag }) k.dmas }) := if_pos host

theorem State.runDma_module {d : Dma} (own : d.srcHost = false) (s : State) :
    s.runDma d = ((s.moveBytes d).copyRows d d.rolesOf).dmaDone d := if_neg (by simp [own])

theorem State.onEngine_eq (s : State) (die e : Nat) : (s.work.dmas.filter (fun x =>
    x.started && !x.done && x.eng == e && s.dmaDie x == die)).length = s.onEngine die e := by
  rw [State.onEngine, State.flying, List.filter_filter]
  congr 2
  funext x
  ac_rfl

/-- What becomes of the next descriptor of a command. -/
theorem State.startDma_eq {s : State} {id : Nat} {d : Dma}
    (next : s.work.dmas.find? (fun x => x.owner == id && !x.started) = some d) :
    s.startDma id =
      if (s.dmaWaits id d || !s.dmaAwake d (s.dmaDie d)) = true then s
      else if 512 ≤ (s.flying (s.dmaDie d)).length then s.count (s.bankOf d.q) (engDma (16 * s.dmaDie d)) 6 1
      else (s.dmaTurn id d).dmaGoes id d (firstLeast (s.onEngine (s.dmaDie d)) 16) := by
  have engines : s.onEngine (s.dmaDie d) = fun e => (s.work.dmas.filter (fun x =>
      x.started && !x.done && x.eng == e && s.dmaDie x == s.dmaDie d)).length :=
    funext fun e => (s.onEngine_eq _ e).symm
  simp only [State.startDma, next, engines]
  rfl

section
variable {s : State} {id : Nat} {d : Dma} (next : s.work.dmas.find? (fun x => x.owner == id && !x.started) = some d)
include next

theorem State.startDma_waits (h : s.dmaWaits id d = true) : s.startDma id = s :=
  (State.startDma_eq next).trans (if_pos (by rw [h, Bool.true_or]))

theorem State.startDma_asleep (h : s.dmaAwake d (s.dmaDie d) = false) : s.startDma id = s :=
  (State.startDma_eq next).trans (if_pos (by rw [h, Bool.not_false, Bool.or_true]))

variable (go : ¬s.dmaWaits id d = true) (awake : s.dmaAwake d (s.dmaDie d) = true)
include go awake

theorem State.startDma_full (full : 512 ≤ (s.flying (s.dmaDie d)).length) :
    s.startDma id = s.count (s.bankOf d.q) (engDma (16 * s.dmaDie d)) 6 1 :=
  (State.startDma_eq next).trans ((if_neg (by simp [go, awake])).trans (if_pos full))

theorem State.startDma_starts (room : (s.flying (s.dmaDie d)).length < 512) :
    s.startDma id = (s.dmaTurn id d).dmaGoes id d (firstLeast (s.onEngine (s.dmaDie d)) 16) :=
  (State.startDma_eq next).trans ((if_neg (by simp [go, awake])).trans (if_neg room.not_ge))

end

end Sys2Proof.Machine

namespace Sys2Proof.Settled
open Sys2Proof.Machine

/-- Settles O29: the hand-over by whether its iteration is due, then the next descriptor by what keeps it from its engine. -/
theorem handoverAndDma : Obligations.HandoverAndDma := by
  unfold Obligations.HandoverAndDma
  refine ⟨?handover, ?dma⟩
  case handover =>
    intro s f j n t live there pair i last
    rw [exec_handoverSwap live there]
    exact ⟨fun produced consumed => congrArg _ (State.handover_swaps pair produced consumed),
      fun early => congrArg _ (State.handover_early pair early)⟩
  case dma =>
    intro s id d live next die flying held mine waits
    have wait_iff : s.dmaWaits id d = true ↔ waits := s.dmaWaits_iff id d
    rw [exec_dmaDescriptor live]
    refine ⟨fun wait => congrArg _ (State.startDma_waits next (wait_iff.mpr wait)),
      fun asleep => congrArg _ (State.startDma_asleep next asleep),
      fun go awake full => congrArg _ (State.startDma_full next (mt wait_iff.mp go) awake full),
      fun go awake room alone eng inDie least first => ?_⟩
    intro u latch v e w
    have starts : s.startDma id = u.dmaGoes id d eng := by
      rw [State.startDma_starts next (mt wait_iff.mp go) awake room, State.dmaTurn_of_command alone]
      exact congrArg _ (firstLeast_eq inDie least first)
    have roles : u.latch = latch := s.dmaAfter_latch id d
    have begun : u.dmaBegun id d eng = e := by
      rw [State.dmaBegun, roles]
    have goes : u.dmaGoes id d eng =
        if w.dmaHeld e = true then w.modWork (fun k => { k with held := k.held ++ [.dma d.id] }) else w.runDma e := by
      rw [State.dmaGoes, begun]
      rfl
    rw [starts, goes]
    refine ⟨fun inUse => ?_, fun free own => ?_, fun free host => ?_⟩
    · rw [if_pos inUse]
    · rw [if_neg (by simp [free]), State.runDma_module own]
    · rw [if_neg (by simp [free]), State.runDma_host host]
      rfl

end Sys2Proof.Settled
end

/-! ## Proofs: commands on parameter groups and their phases -/
section
namespace Sys2Proof.Machine
open Sys2Proof.Claims

/-! ### Dispatch of a command on groups (R388) -/

section
variable {s t : State} {q op : Nat} {w : Waiting} {e : Earned} {body : State → Nat → List Byte → Except Earned State}

/-- The dispatch that the three commands share: it waits while the pair is mirrored and another of them executes. -/
def State.groupDispatch (s : State) (q op : Nat) (body : State → Nat → List Byte → Except Earned State) : State :=
  if s.pairWaits q then s else s.dispatch q op body

theorem State.groupDispatch_waits (h : s.pairWaits q = true) : s.groupDispatch q op body = s := if_pos h

variable (go : s.pairWaits q = false)
include go

theorem State.groupDispatch_next : s.groupDispatch q op body = s.dispatch q op body := if_neg (by simp [go])

variable (h : Dispatches s q op w)
include h

theorem State.groupDispatch_ok (ok : body (begun s q w) w.id w.bytes = .ok t) : s.groupDispatch q op body = t.pump q :=
  (State.groupDispatch_next go).trans (State.dispatch_ok h.1 h.2 ok)

theorem State.groupDispatch_error (bad : body (begun s q w) w.id w.bytes = .error e) :
    s.groupDispatch q op body = (s.endWaiting q e).pump q :=
  (State.groupDispatch_next go).trans (State.dispatch_error h.1 h.2 bad)

end

theorem exec_updateStep (q : Nat) (s : State) :
    exec (.updateStep q) s = .next (s.groupDispatch q 0x40 (fun s id b => s.updateBody q id b)) := rfl
theorem exec_rootRefresh (q : Nat) (s : State) :
    exec (.rootRefresh q) s = .next (s.groupDispatch q 0x41 (fun s id b => s.refreshBody q id b)) := rfl
theorem exec_groupWrite (q : Nat) (s : State) :
    exec (.groupWrite q) s = .next (s.groupDispatch q 0x42 (fun s id b => s.groupWriteBody q id b)) := rfl

theorem exec_groupCommand_waits {s : State} {q : Nat} (h : s.pairWaits q = true) :
    ∀ c ∈ [Instr.updateStep q, .rootRefresh q, .groupWrite q], exec c s = .next s := by
  simp only [List.forall_mem_cons, List.not_mem_nil, false_imp_iff, implies_true, exec_updateStep,
    exec_rootRefresh, exec_groupWrite, State.groupDispatch_waits h, and_self]

/-! ### The start of a command's work on groups -/

/-- The command takes its START, its work joins the list, and the partition's update engines record it. -/
def State.updateStarted (s : State) (u : Update) : State :=
  ((s.startAt u.q u.id s.mclk).modWork (fun y => { y with updates := y.updates ++ [u] })).traceCmd u.q u.id
    (s.ueSources u.part) 0x01 0

/-- The groups that an UPDATE_STEP does not apply are closed with their records (R225, R226). -/
def State.closeIdle (s : State) (u : Update) : State :=
  u.groups.foldl (fun x g =>
    if g.cls = 2 ∨ g.cls = 3 ∨ g.cls = 4 then x.closeGroup u g (idleRecord (x.rdAt u.part (u.recAt g.index) 256) g)
    else x) s

/-- The work of an UPDATE_STEP of bytes `b`, `r` its gradient-scale record, once its plane's run is arranged in `v`. -/
def State.stepWork (v : State) (q id p run : Nat) (b r : List Byte) (xs : List Nat) : Update :=
  let skip := v.anyNonfinite p (cAddr b 24) xs
  { id := id, q := q, part := p, kind := 0, step := fld b 16 8, table := cAddr b 24, record := cAddr b 48,
    inv := fld r 4 4, skip := skip, groups := xs.map (v.classOf p (cAddr b 24) skip), run := run, coverAt := v.counted p }

theorem State.updateBody_ok {s v : State} {q run : Nat} {b : List Byte} (id : Nat)
    (admitted : s.admitBad q (partOf s q) 0 (cAddr b 24) (cAddr b 32)
      (s.groupList (partOf s q) (cAddr b 32) (fld b 40 4)) = none)
    (unmarked : s.markAt (partOf s q) (cAddr b 48) 64 = false)
    (scale : scaleBad (s.rdAt (partOf s q) (cAddr b 48) 64) = none)
    (mirrored : ¬(s.mirrorMode (partOf s q) = 2 ∧ (s.part (partOf s q)).pair.bytes < cAddr b 48 + 64))
    (plane : s.planeRun id q (partOf s q) (bits (fld b 44 1) 0 2) (fld b 16 8) = .ok (run, v)) :
    let u := v.stepWork q id (partOf s q) run b (s.rdAt (partOf s q) (cAddr b 48) 64)
      (s.groupList (partOf s q) (cAddr b 32) (fld b 40 4))
    s.updateBody q id b = .ok (((v.updateStarted u).closeIdle u).emptyGroups id u.groups.length) := by
  unfold partOf at *
  simp only [State.updateBody, admitted, unmarked, scale, if_neg mirrored, plane]
  rfl

/-- The work of a ROOT_REFRESH of bytes `b`, once its plane's run is arranged in `v`: the groups that are due are class 6,
and the others have nothing left to write (R231). -/
def State.refreshWork (v : State) (q id p run : Nat) (b : List Byte) (xs : List Nat) : Update :=
  let due (x : Nat) : Bool := rootDue (v.rdAt p (cAddr b 16 + 256 * x) 256) (bit (fld b 37 1) 0)
  { id := id, q := q, part := p, kind := 1, table := cAddr b 16,
    groups := xs.map (fun x => { index := x, cls := if due x then 6 else 7, written := !due x }), run := run,
    coverAt := v.counted p }

theorem State.refreshBody_ok {s v : State} {q run : Nat} {b : List Byte} (id : Nat)
    (admitted : s.admitBad q (partOf s q) 1 (cAddr b 16) (cAddr b 24)
      (s.groupList (partOf s q) (cAddr b 24) (fld b 32 4)) = none)
    (plane : s.planeRun id q (partOf s q) (bits (fld b 36 1) 0 2) 0 = .ok (run, v)) :
    s.refreshBody q id b = .ok (v.updateStarted (v.refreshWork q id (partOf s q) run b
      (s.groupList (partOf s q) (cAddr b 24) (fld b 32 4)))) := by
  unfold partOf at *
  simp only [State.refreshBody, admitted, plane]
  rfl

/-! ### GROUP_WRITE (R237) -/

/-- The group that a GROUP_WRITE of bytes `b` writes. -/
def writeGroup (b : List Byte) : GroupWork := { index := fld b 24 2, cls := 8, mask := fld b 28 4 }
/-- The work of that GROUP_WRITE. -/
def writeWork (q id p : Nat) (b : List Byte) : Update :=
  { id := id, q := q, part := p, kind := 2, table := cAddr b 16, groups := [writeGroup b] }

/-- The record `r` with the fields that a GROUP_WRITE's mask names replaced by those of its bytes `b`. -/
def maskedRecord (b r : List Byte) : List Byte :=
  ((List.range 32).map (fun i => if bit (fld b 28 4) i then slice b (32 + 8 * i) 8 else slice r (8 * i) 8)).flatten

section
variable {s : State} {q : Nat} {b : List Byte}

theorem State.groupWriteBody_busy (h : s.groupBusy (partOf s q) (cAddr b 16 + 256 * fld b 24 2) = true) (id : Nat) :
    s.groupWriteBody q id b = .error ⟨stConflict, conflictAt 3 (fld b 24 2), 0⟩ := if_pos h

theorem State.groupWriteBody_ok (h : s.groupBusy (partOf s q) (cAddr b 16 + 256 * fld b 24 2) = false) (id : Nat) :
    let u := writeWork q id (partOf s q) b
    s.groupWriteBody q id b = .ok (((((s.startAt q id s.mclk).modWork (fun y => { y with
      updates := y.updates ++ [u] })).closeGroup u (writeGroup b) (maskedRecord b
        (s.rdAt (partOf s q) (cAddr b 16 + 256 * fld b 24 2) 256))).updateCheck id)) :=
  if_neg (c := s.groupBusy (partOf s q) (cAddr b 16 + 256 * fld b 24 2) = true) (by simp [h])

end

/-! ### The rows of the phases -/

section
variable {s : State} {u : Update} (h : Live s) (there : s.upd u.id = some u) (b : Nat)
include h there

theorem exec_momentumPhase : exec (.momentumPhase u.id b) s = .next (s.momentum u b) := by
  refine congrArg _ ((State.unlessHalted_next h.1 h.2 _).trans ?_)
  simp only [there]

theorem exec_weightPhase : exec (.weightPhase u.id b) s = .next (s.weight u b) := by
  refine congrArg _ ((State.unlessHalted_next h.1 h.2 _).trans ?_)
  simp only [there]

end

/-! ### What a phase keeps of its group -/

@[simp] theorem State.takePhase_index (u : Update) (g : GroupWork) (o : PhaseOut) (weights : Bool) :
    (State.takePhase u g o weights).2.index = g.index := rfl
@[simp] theorem State.takePhase_blocks (u : Update) (g : GroupWork) (o : PhaseOut) (weights : Bool) :
    (State.takePhase u g o weights).2.blocks = g.blocks := rfl

/-! ### Phase A under the default rule (R228, R230) -/

/-- With its first block the group is shown at the update engines (R462). -/
def State.shownFor (s : State) (u : Update) (g : GroupWork) (b : Nat) : State :=
  if b = 0 then s.showGroup u.part (some g.index) else s

/-- Phase A of block `b` on the state: staging, then U1 of each SB16 block, with the M' that it keeps for phase B. -/
def State.momentumOut (s : State) (c : GroupCtx) (b : Nat) : PhaseOut × List (Nat × Nat) :=
  (s.phaseA c b).foldl (fun x k => ((x.1.u1 s c k).1, x.2 ++ (x.1.u1 s c k).2))
    (({ s := s } : PhaseOut).stage c b (s.phaseA c b) [gAddr c.r oM] (some (gAddr c.r oMScale)), [])

/-- What phase A of block `b` leaves: the group has done `b + 1` blocks of it, and keeps M'. -/
def State.momentumDone (u : Update) (g : GroupWork) (c : GroupCtx) (b : Nat) (x : PhaseOut × List (Nat × Nat)) : State :=
  let y := State.takePhase u g (x.1.stamps c b) false
  y.1.onGroup u.id g.index (fun _ => { y.2 with
    aDone := b + 1, pend := x.2.foldl (fun t m => Tbl.put t m.1 m.2) y.2.pend })

/-! ### Phase B under the default rule (R229, R230) -/

/-- Phase B of block `b` on the state: staging, then U2 of the block's elements, with E in the direction of M'. -/
def State.weightOut (s : State) (c : GroupCtx) (b : Nat) (pend : Tbl Nat) : PhaseOut :=
  let xs := s.blockElems c b
  let es := s.direction c b xs pend
  (({ s := s } : PhaseOut).stage c b (xs.foldl (fun l x => setIns l (x / 32)) [])
    (if gMaster c.r then [gAddr c.r oHi, gAddr c.r oLo] else [gAddr c.r oW]) none).weights c xs es.1 es.2

/-- What phase B of a block with elements `xs` leaves: the group has done `b + 1` blocks of it and drops their M'; with its
last block it is applied, and so are groups without element work behind it. -/
def State.weightDone (u : Update) (g : GroupWork) (b : Nat) (xs : List Nat) (o : PhaseOut) : State :=
  let y := State.takePhase u g o true
  let h := { y.2 with bDone := b + 1, pend := y.2.pend.filter (fun k => !(xs.contains k.1)) }
  let v := y.1.onGroup u.id g.index (fun _ => h)
  if h.bDone = h.blocks then ((v.applyGroup u h).emptyGroups u.id u.groups.length).updateCheck u.id else v

section
variable {s : State} {u : Update} {g : GroupWork} {b : Nat} (current : u.current = some g) (applied : g.cls = 5)
  (serves : s.planeServes u = true) (block : b < g.blocks) (rule : gAddr (s.groupCtx u g).r oRule = 0)
include current applied serves block rule

theorem State.momentum_default (next : g.aDone = b) (near : b ≤ g.bDone + 1) (goes : u.stopping = true → 0 < b) :
    s.momentum u b = State.momentumDone u g (s.groupCtx u g) b ((s.shownFor u g b).momentumOut (s.groupCtx u g) b) := by
  have due : ¬(g.cls ≠ 5 ∨ g.aDone ≠ b ∨ g.blocks ≤ b ∨ g.bDone + 1 < g.aDone ∨ (!(s.planeServes u)) = true ∨
      (u.stopping = true ∧ g.aDone = 0)) := by
    simp only [applied, next, serves, not_or, not_and]
    exact ⟨by simp, by simp, block.not_ge, near.not_gt, by simp, fun stops => (goes stops).ne'⟩
  unfold State.momentum
  simp only [current, if_neg due, rule, ne_eq, not_true_eq_false, and_false, if_false, State.takePhase_index,
    State.momentumDone, State.momentumOut, State.shownFor]

theorem State.weight_default (next : g.bDone = b) (ahead : min (b + 2) g.blocks ≤ g.aDone) :
    s.weight u b = State.weightDone u g b (s.blockElems (s.groupCtx u g) b) (s.weightOut (s.groupCtx u g) b g.pend) := by
  have due : ¬(g.cls ≠ 5 ∨ g.bDone ≠ b ∨ g.aDone < min (b + 2) g.blocks ∨ g.blocks ≤ b ∨
      (!(s.planeServes u)) = true) := by
    simp only [applied, next, serves, not_or]
    exact ⟨by simp, by simp, ahead.not_gt, block.not_ge, by simp⟩
  unfold State.weight
  simp only [current, if_neg due, rule, ne_eq, not_true_eq_false, if_false, State.takePhase_index,
    State.takePhase_blocks, State.weightDone, State.weightOut]
  split_ifs <;> rfl

end

end Sys2Proof.Machine

namespace Sys2Proof.Settled
open Sys2Proof.Machine Sys2Proof.Claims

/-- Settles O23: the commands wait for one another in a pair; else each body answers what its checks lead to. -/
theorem groupCommands : Obligations.GroupCommands := by
  unfold Obligations.GroupCommands
  intro s q w u p b
  refine ⟨fun c command waits => exec_groupCommand_waits waits c command, fun d go => ?step, fun d go => ?refresh,
    fun d go => ?write⟩
  case step =>
    intro table xs sr run v admitted unmarked scale mirrored plane gs k
    exact congrArg _ (State.groupDispatch_ok go d (State.updateBody_ok w.id admitted unmarked scale mirrored plane))
  case refresh =>
    intro table xs run v admitted plane due
    exact congrArg _ (State.groupDispatch_ok go d (State.refreshBody_ok w.id admitted plane))
  case write =>
    intro table x
    refine ⟨fun busy => ?_, fun free => ?_⟩
    · exact congrArg _ (State.groupDispatch_error go d (State.groupWriteBody_busy busy w.id))
    · exact congrArg _ (State.groupDispatch_ok go d (State.groupWriteBody_ok free w.id))

/-- Settles O41: each phase, once its row is due, is the one of the default rule. -/
theorem updatePhases : Obligations.UpdatePhases := by
  unfold Obligations.UpdatePhases
  intro s u g b live there current applied serves block rule c
  constructor
  · intro next near goes v ks x y
    rw [exec_momentumPhase live there, State.momentum_default current applied serves block rule next near goes]
    unfold State.momentumDone State.momentumOut State.shownFor
    with_reducible rfl
  · intro next ahead xs es o y h v
    rw [exec_weightPhase live there, State.weight_default current applied serves block rule next ahead]
    unfold State.weightDone State.weightOut
    with_reducible rfl

end Sys2Proof.Settled
end

/-! ## Proofs: operators, from their command to the reports of their output tiles -/
section
namespace Sys2Proof.Machine
open Sys2Proof.Claims

/-! ### Open grant memories (R252, R254) -/

theorem OpRun.holds_iff (o : OpRun) : o.holds = true ↔ o.start.isSome = true ∧ o.ended.length < o.tiles.length := by
  simp only [OpRun.holds, Bool.and_eq_true, decide_eq_true_eq]

theorem State.counterHeld_iff (s : State) (obj : Nat) :
    s.counterHeld obj = true ↔ ∃ x ∈ s.work.ops, x.holds = true ∧ x.obj = obj := by
  simp only [State.counterHeld, List.any_eq_true, Bool.and_eq_true, beq_iff_eq]

/-! ### OP at dispatch (R243, R244, R252) -/

section
variable {s t : State} {q : Nat} {w : Waiting} (h : Dispatches s q 0x20 w)
include h

theorem exec_op (ok : (begun s q w).opBody q w.id w.bytes = .ok t) : exec (.op q) s = .next (t.pump q) :=
  congrArg _ (State.dispatch_ok h.1 h.2 ok)

theorem exec_op_rejected {e : Earned} (bad : (begun s q w).opBody q w.id w.bytes = .error e) :
    exec (.op q) s = .next ((s.endWaiting q e).pump q) :=
  congrArg _ (State.dispatch_error h.1 h.2 bad)

end

/-- The argument block that an OP of bytes `b` names. -/
def State.opArg (s : State) (q : Nat) (b : List Byte) : List Byte := s.rdAt (partOf s q) (cAddr b 16) 256

/-- The operator of argument block `a`, under the next number, joins the list. -/
def State.opListed (s : State) (q id : Nat) (a : List Byte) : State :=
  ({ s with uid := s.uid + 1 } : State).modWork (fun k => { k with
    ops := k.ops ++ [{ id := s.uid, owner := id, q := q, part := partOf s q, arg := a,
                       obj := s.physObj (partOf s q) (aCounter a), items := itemsOf a, want := 0 }] })

section
variable {s : State} {q : Nat} {b : List Byte} (id : Nat)

theorem State.opBody_bad {e : Earned} (bad : s.opBad q (s.opArg q b) = some e) : s.opBody q id b = .error e := by
  unfold State.opArg partOf at bad
  simp only [State.opBody, bad]

variable (good : s.opBad q (s.opArg q b) = none)
include good

theorem State.opBody_held (held : s.counterHeld (s.physObj (partOf s q) (aCounter (s.opArg q b))) = true) :
    s.opBody q id b = .error (counterConflict (s.opArg q b)) := by
  unfold State.opArg partOf at *
  simp only [State.opBody, good, if_pos held]

theorem State.opBody_ok (free : s.counterHeld (s.physObj (partOf s q) (aCounter (s.opArg q b))) = false) :
    s.opBody q id b = .ok (s.opListed q id (s.opArg q b)) := by
  unfold State.opArg partOf at *
  simp only [State.opBody, good, free, Bool.false_eq_true, if_false]
  rfl

end

/-! ### Takes (R252 to R254) -/

/-- What a new take draws: the counter, which advances, or, once the operator stops or its object is no counter, the
number of items. -/
def State.drawn (s : State) (o : OpRun) : Nat × State :=
  if o.stopping = true ∨ (s.obj o.obj).type ≠ 0 then (o.items, s) else ((s.obj o.obj).value.toNat, s.syncOp o.obj 5 1)

/-- The grant memory once requester `req`, tile `t`, has taken `v` in sequence `seq`: `v` is granted, or the tile has ended. -/
def OpRun.taken (x : OpRun) (req seq v t : Nat) : OpRun :=
  let y := { x with kept := Tbl.put x.kept req (seq, v) }
  if v < x.items then { y with grants := y.grants ++ [(v, req)] } else { y with ended := setIns y.ended t }

section
variable {s : State} {o : OpRun} {req seq : Nat}

theorem State.take1_again {v : Nat} (kept : Tbl.find o.kept req = some (seq, v)) :
    s.take1 o req seq = (v, s.onOp o.id (fun x => { x with kept := Tbl.put x.kept req (seq, v) })) := by
  simp [State.take1, kept]

theorem State.take1_new (new : ∀ v, Tbl.find o.kept req ≠ some (seq, v)) :
    s.take1 o req seq = ((s.drawn o).1,
      (s.drawn o).2.onOp o.id (fun x => x.taken req seq (s.drawn o).1 ((s.drawn o).2.physTile o.part req))) := by
  unfold State.take1
  cases k : Tbl.find o.kept req with
  | none => simp only [Bool.false_eq_true, if_false]; rfl
  | some p =>
    have other : decide (p.1 = seq) = false := decide_eq_false fun same => new p.2 (same ▸ k)
    simp only [other, Bool.false_eq_true, if_false]
    rfl

theorem State.drawn_counter (goes : o.stopping = false) (counter : (s.obj o.obj).type = 0) :
    s.drawn o = ((s.obj o.obj).value.toNat, s.syncOp o.obj 5 1) := if_neg (by simp [goes, counter])

theorem State.drawn_items (h : o.stopping = true ∨ (s.obj o.obj).type ≠ 0) : s.drawn o = (o.items, s) := if_pos h

theorem exec_workCounterTake {obj : Nat} (live : Live s)
    (there : s.work.ops.find? (fun x => x.holds && x.obj == obj) = some o) (tile : s.physTile o.part req ∈ o.tiles)
    (small : seq < 65536) : exec (.workCounterTake obj req seq) s =
      .next ((s.take1 o req seq).2.reply { kind := 3, value := (s.take1 o req seq).1 }) := by
  refine congrArg _ ((State.unlessHalted_next live.1 live.2 _).trans ?_)
  have mine : (!o.tiles.contains (s.physTile o.part req) || decide (65535 < seq)) = false := by
    simp [tile, Nat.le_of_lt_succ small]
  simp only [there, mine, Bool.false_eq_true, if_false]

end

/-! ### The start (R244, R252, R254) -/

/-- Operators with an open grant memory whose counters are at the home of `o`'s. -/
def State.opsOpen (s : State) (o : OpRun) : Nat :=
  (s.work.ops.filter (fun x => x.holds && x.obj / 32768 == o.obj / 32768)).length

/-- The counter is zero, and the selected tiles are the operator's, their scratch lost (R240). -/
def State.opSelected (s : State) (o : OpRun) : State :=
  (s.opTiles o).foldl (fun x t => (x.modTile t (fun y => { y with op := some o.id })).loseScratch t) (s.syncOp o.obj 6 0)

/-- The operator starts on tiles `ts` in the present mclk, and its counts in its bank begin. -/
def State.opBegun (u : State) (o : OpRun) (ts : List Nat) : State :=
  u.onOp o.id (fun x => { x with
    start := some u.mclk
    tiles := ts
    items := itemsOf o.arg
    want := ts.length
    base := (u.bank (u.bankOf o.q)).totals (tileEngines ts)
    baseBy := u.causeBy o.part
    coverAt := u.counted o.part
    finish := ts.foldl (fun f t => Tbl.put f t u.mclk) [] })

/-- A tile takes its first item of operator `id`. -/
def State.firstTake (id : Nat) (s : State) (t : Nat) : State :=
  match s.work.ops.find? (fun y => y.id == id) with
  | some y => (s.take1 y (s.localTile t) 0).2
  | none => s

theorem State.opStart_eq (s : State) (o : OpRun) :
    let ts := s.opTiles o
    let u := s.opSelected o
    let v := u.opBegun o ts
    s.opStart o = ts.foldl (State.firstTake o.id) ((if o.stage = none then v.startAt o.q o.owner u.mclk else v).traceCmd
      o.q o.owner (ts.map srcTile) 0x01 0) := by
  intro ts u v
  have alone : (if o.stage = none then v.startAt o.q o.owner u.mclk else v) =
      if o.stage.isNone = true then v.startAt o.q o.owner u.mclk else v := if_congr Option.isNone_iff_eq_none.symm rfl rfl
  rw [alone]
  rfl

section
variable {s : State} {o : OpRun}

/-- The row of the oldest operator of its partition that has not started. -/
theorem exec_operatorStart (live : Live s) (there : s.work.ops.find? (fun x => x.id == o.id) = some o)
    (next : s.nextOp o.part = some o) : exec (.operatorStart o.id) s = .next (s.tryStart o) := by
  refine congrArg _ ((State.unlessHalted_next live.1 live.2 _).trans ?_)
  simp only [there, next, Option.any_some, beq_self_eq_true, if_true]

variable (goes : o.stopping = false) (clock : s.clk.origin.isSome = true)
include goes clock

/-- The checks of a start in their order. -/
theorem State.tryStart_eq : s.tryStart o =
    if s.counterHeld o.obj = true then s.dropOp o (counterConflict o.arg)
    else if 8 ≤ s.opsOpen o then s
    else if s.freeTiles o.part = [] ∨ ∃ t ∈ s.opTiles o, s.tileAwake t = false then s
    else s.opStart o := by
  refine (if_neg (by simp [goes, State.running, clock])).trans ?_
  refine if_congr Iff.rfl rfl (if_congr Iff.rfl rfl (if_congr ?_ rfl rfl))
  simp

theorem State.tryStart_held (held : s.counterHeld o.obj = true) : s.tryStart o = s.dropOp o (counterConflict o.arg) :=
  (State.tryStart_eq goes clock).trans (if_pos held)

variable (free : ¬s.counterHeld o.obj = true)
include free

theorem State.tryStart_waits
    (h : 8 ≤ s.opsOpen o ∨ s.freeTiles o.part = [] ∨ ∃ t ∈ s.opTiles o, s.tileAwake t = false) : s.tryStart o = s := by
  rw [State.tryStart_eq goes clock, if_neg free]
  rcases h with full | noTiles
  · exact if_pos full
  · rw [if_pos noTiles, ite_self]

theorem State.tryStart_starts (room : s.opsOpen o < 8) (tiles : s.freeTiles o.part ≠ [])
    (awake : ∀ t ∈ s.opTiles o, s.tileAwake t = true) : s.tryStart o = s.opStart o := by
  have ready : ¬(s.freeTiles o.part = [] ∨ ∃ t ∈ s.opTiles o, s.tileAwake t = false) := by
    simpa [tiles] using awake
  rw [State.tryStart_eq goes clock, if_neg free, if_neg room.not_ge, if_neg ready]

end

/-! ### Reports of output tiles (R255, R259) -/

/-- The index is already reported, or not granted to the tile. -/
def State.opRepeats (s : State) (o : OpRun) (tile index : Nat) : Prop :=
  index ∈ o.done ∨ (index, s.localTile tile) ∉ o.grants

/-- A duplicate counts in the bank of the operator's queue. -/
def State.opRepeated (s : State) (o : OpRun) : State :=
  s.modBank (s.bankOf o.q) (fun b => { b with dup := satAdd 48 b.dup 1 })

/-- At the output tile's cost its counts go to the bank, and it is formed and written. -/
def State.opWritten (s : State) (o : OpRun) (tile index : Nat) : State :=
  let stop := Tbl.get 0 o.finish tile + tileCost o.arg index
  let u := s.untilMclk (stop - 1)
  let v := u.tileCounts (u.bankOf o.q) tile o.arg index (if 2 < aOp o.arg then 0 else u.mclk + 1 - stop)
  v.outputTile { part := o.part, q := o.q, owner := o.owner, arg := o.arg, seed := (v.queue o.q).seed.toNat,
                 done := o.done } tile index

/-- The index is done, and the tile is free for its next output tile from the mclk after the present one. -/
def State.opReported (w : State) (o : OpRun) (tile index : Nat) : State :=
  w.onOp o.id (fun x => { x with done := setIns x.done index, finish := Tbl.put x.finish tile (w.mclk + 1) })

section
variable {s : State} {o : OpRun} {tile index : Nat}

theorem exec_outputTileComplete (live : Live s) (there : s.work.ops.find? (fun x => x.id == o.id) = some o)
    (begun : o.start.isSome = true) (mine : tile ∈ o.tiles) :
    exec (.outputTileComplete o.id tile index) s = .next (s.tileDone o tile index) := by
  refine congrArg _ ((State.unlessHalted_next live.1 live.2 _).trans ?_)
  have serves : (o.start.isSome && o.tiles.contains tile) = true := by simp [begun, mine]
  simp only [there, serves, if_true]

theorem State.opRepeats_iff : s.opRepeats o tile index ↔
    (o.done.contains index || !(o.grants.contains (index, s.localTile tile))) = true := by
  simp [State.opRepeats]

theorem State.tileDone_repeated (again : s.opRepeats o tile index) :
    s.tileDone o tile index = (s.opRepeated o).opCheck o.id := if_pos (State.opRepeats_iff.mp again)

theorem State.tileDone_reported (new : ¬s.opRepeats o tile index) :
    s.tileDone o tile index = ((s.opWritten o tile index).opReported o tile index).opCheck o.id :=
  if_neg (mt State.opRepeats_iff.mpr new)

end

end Sys2Proof.Machine

namespace Sys2Proof.Settled
open Sys2Proof.Machine Sys2Proof.Claims

/-- Settles O22: a block out of order, a counter with an open grant memory, or an operator more on the list. -/
theorem operatorCommand : Obligations.OperatorCommand := by
  unfold Obligations.OperatorCommand
  intro s q w d u p a o
  have held_iff : u.counterHeld o = true ↔ ∃ x ∈ s.work.ops, x.holds = true ∧ x.obj = o := u.counterHeld_iff o
  refine ⟨fun e bad => ?bad, fun good held => ?held, fun good free => ?listed⟩
  case bad => exact exec_op_rejected d (State.opBody_bad w.id bad)
  case held =>
    obtain ⟨x, listed, same, begun, more⟩ := held
    have held : u.counterHeld o = true := held_iff.mpr ⟨x, listed, x.holds_iff.mpr ⟨begun, more⟩, same⟩
    exact exec_op_rejected d (State.opBody_held w.id good held)
  case listed =>
    have closed : u.counterHeld o = false := by
      refine Bool.eq_false_iff.mpr fun held => ?_
      obtain ⟨x, listed, holds, same⟩ := held_iff.mp held
      obtain ⟨begun, more⟩ := x.holds_iff.mp holds
      exact (free x listed same begun).not_gt more
    exact exec_op d (State.opBody_ok w.id good closed)

/-- Settles O40: a start by the order of its checks, a take by what it draws, a report by whether it repeats. -/
theorem operatorRows : Obligations.OperatorRows := by
  unfold Obligations.OperatorRows
  refine ⟨⟨?start, ?take⟩, ?report⟩
  case start =>
    intro s o live there next goes clock n held free items want ts
    have held_iff : s.counterHeld o.obj = true ↔ held := s.counterHeld_iff o.obj
    rw [exec_operatorStart live there next]
    refine ⟨fun inUse => ?_, fun closed waits => ?_, fun closed room tiles awake => ?_⟩
    · exact congrArg _ (State.tryStart_held goes clock (held_iff.mpr inUse))
    · exact congrArg _ (State.tryStart_waits goes clock (mt held_iff.mp closed) waits)
    · intro u v
      rw [State.tryStart_starts goes clock (mt held_iff.mp closed) room tiles awake, State.opStart_eq]
      rfl
  case take =>
    intro s o obj req seq live there tile small
    rw [exec_workCounterTake live there tile small]
    refine ⟨fun v kept => ?_, fun new goes counter => ?_, fun new ends => ?_⟩
    · rw [State.take1_again kept]
    · rw [State.take1_new new, State.drawn_counter goes counter]
      rfl
    · rw [State.take1_new new, State.drawn_items ends]
      rfl
  case report =>
    intro s o tile index live there begun mine again
    rw [exec_outputTileComplete live there begun mine]
    refine ⟨fun repeats => ?_, fun new => ?_⟩
    · exact congrArg _ (State.tileDone_repeated repeats)
    · exact congrArg _ (State.tileDone_reported new)

end Sys2Proof.Settled
end

/-! ## Proofs: what a command does to memory and its poison marks -/
section
namespace Sys2Proof.Machine
open Sys2Proof.Claims

theorem NextP.mono {P Q : State → Prop} {r : Host.Outcome State Fault Refusal} (m : ∀ t, P t → Q t) (h : NextP P r) :
    NextP Q r := by
  cases r with
  | next t => exact m t h
  | fault _ => trivial
  | refused _ => trivial

theorem NextP.of_eq {P : State → Prop} {r : Host.Outcome State Fault Refusal} {t : State} (e : r = .next t) (h : NextP P r) :
    P t := by
  subst e; exact h

/-- Equal memory, scratch and marks: every byte reads as before (R260). -/
theorem Still.rd_eq {s t : State} (h : Still s t) (k : Nat) : t.rd k = s.rd k := by
  rw [State.rd, State.rd, h.mem, h.scratch]

/-- The rows that store nothing, one by one. -/
theorem exec_still {c : Instr} (h : storesNothing c = true) (s : State) : NextP (Still s) (exec c s) := by
  have start : Still s s := .refl s
  cases c with
  | nop => exact execNop_still start
  | fence => exact execFence_still start
  | wait => exact execWait_still start
  | loadFrond => exact execLoadFrond_still start
  | runFrond => exact execRunFrond_still start
  | unloadFrond => exact execUnloadFrond_still start
  | op => exact execOp_still start
  | copy => exact execCopy_still start
  | copyNd => exact execCopyNd_still start
  | fusedChain => exact execFusedChain_still start
  | halfSwap => exact execHalfSwap_still start
  | rootRefresh => exact execRootRefresh_still start
  | pairCommit => exact execPairCommit_still start
  | quiesced => exact execQuiesced_still start
  | partialCommandTimeout => exact execPartialCommandTimeout_still start
  | queueEnable => exact execQueueEnable_still start
  | queueDisable => exact execQueueDisable_still start
  | resume => exact execResume_still start
  | sqTail => exact execSqTail_still start
  | cqHead => exact execCqHead_still start
  | eventSet => exact execEventSet_still start
  | eventClear => exact execEventClear_still start
  | semPost => exact execSemPost_still start
  | semTry => exact execSemTry_still start
  | barrierArrive => exact execBarrierArrive_still start
  | initSemaphore => exact execInitSemaphore_still start
  | initBarrier => exact execInitBarrier_still start
  | initEvent => exact execInitEvent_still start
  | waiterPoll => exact execWaiterPoll_still start
  | handoverSwap => exact execHandoverSwap_still start
  | contextLoad => exact execContextLoad_still start
  | contextLoadComplete => exact execContextLoadComplete_still start
  | timedInputLate => exact execTimedInputLate_still start
  | streamBeat => exact execStreamBeat_still start
  | creditReturn => exact execCreditReturn_still start
  | switchItem => exact execSwitchItem_still start
  | mergeItem => exact execMergeItem_still start
  | workCounterTake => exact execWorkCounterTake_still start
  | writeRsp => exact execWriteRsp_still start
  | syncRsp => exact execSyncRsp_still start
  | busy => exact execBusy_still start
  | mirrorData => exact execMirrorData_still start
  | commit => exact execCommit_still start
  | heartbeatSend => exact execHeartbeatSend_still start
  | frameTransmit => exact execFrameTransmit_still start
  | freeze => exact execFreeze_still start
  | release => exact execRelease_still start
  | equaliserRequest => exact execEqualiserRequest_still start
  | retrainInterval => exact execRetrainInterval_still start
  | haltN => exact execHaltN_still start
  | freezeReq => exact execFreezeReq_still start
  | counterReset => exact execCounterReset_still start
  | sample => exact execSample_still start
  | partLayout => exact execPartLayout_still start
  | partResume => exact execPartResume_still start
  | jobEpoch => exact execJobEpoch_still start
  | bar2Window => exact execBar2Window_still start
  | halfPairWrite => exact execHalfPairWrite_still start
  | tileRetire => exact execTileRetire_still start
  | retireWithdraw => exact execRetireWithdraw_still start
  | autoRetireMark => exact execAutoRetireMark_still start
  | rollbackCommit => exact execRollbackCommit_still start
  | fwMbCtrlGo => exact execFwMbCtrlGo_still start
  | cfgCtrlCommit => exact execCfgCtrlCommit_still start
  | dbgChallenge => exact execDbgChallenge_still start
  | dbgResponse => exact execDbgResponse_still start
  | readClear => exact execReadClear_still start
  | bar2Read => exact execBar2Read_still start
  | configRequest => exact execConfigRequest_still start
  | getVersion => exact execGetVersion_still start
  | getCapabilities => exact execGetCapabilities_still start
  | negotiateAlgorithms => exact execNegotiateAlgorithms_still start
  | getDigests => exact execGetDigests_still start
  | getCertificate => exact execGetCertificate_still start
  | setCertificate => exact execSetCertificate_still start
  | challenge => exact execChallenge_still start
  | getMeasurements => exact execGetMeasurements_still start
  | keyExchange _ point => exact execKeyExchange_still (point := point) start
  | perstNHigh => exact execPerstNHigh_still start
  | thermalRecovery => exact execThermalRecovery_still start
  | stageF0 => exact execStageF0_still start
  | stageF1 => exact execStageF1_still start
  | stageF2 => exact execStageF2_still start
  | stageF3 => exact execStageF3_still start
  | stageF4 => exact execStageF4_still start
  | stageF5 => exact execStageF5_still start
  | stageLimit => exact execStageLimit_still start
  | controlCoreWatchdog => exact execControlCoreWatchdog_still start
  | controlCoreMemoryError => exact execControlCoreMemoryError_still start
  | rootCoreMemoryError => exact execRootCoreMemoryError_still start
  | rhizomeBoundaryLost => exact execRhizomeBoundaryLost_still start
  | mclkDividerChange => exact execMclkDividerChange_still start
  | powerSample => exact execPowerSample_still start
  | powerPause => exact execPowerPause_still start
  | powerPauseEnd => exact execPowerPauseEnd_still start
  | powerStateEvaluate => exact execPowerStateEvaluate_still start
  | powerWake => exact execPowerWake_still start
  | earlyWake => exact execEarlyWake_still start
  | wakeComplete => exact execWakeComplete_still start
  | voltageTrim => exact execVoltageTrim_still start
  | sensorComparison => exact execSensorComparison_still start
  | calibrationSlot => exact execCalibrationSlot_still start
  | refresh => exact execRefresh_still start
  | notBeforeReached => exact execNotBeforeReached_still start
  | remoteSignalTimeout => exact execRemoteSignalTimeout_still start
  | _ => exact nomatch h

/-- Every row keeps the queue behind it, and memory and marks in canonical form: the rows that write bytes or marks one
by one, the others because they store nothing. -/
theorem exec_keeps (c : Instr) (s : State) : NextP (Keeps s) (exec c s) := by
  have start : Keeps s s := .refl s
  cases c with
  | signal => exact execSignal_keeps start
  | updateStep => exact execUpdateStep_keeps start
  | groupWrite => exact execGroupWrite_keeps start
  | collective => exact execCollective_keeps start
  | reshard => exact execReshard_keeps start
  | kvRing => exact execKvRing_keeps start
  | pairConfig => exact execPairConfig_keeps start
  | perfSnapshot => exact execPerfSnapshot_keeps start
  | traceCtl => exact execTraceCtl_keeps start
  | quiesce => exact execQuiesce_keeps start
  | waitTimeout => exact execWaitTimeout_keeps start
  | completionRecord => exact execCompletionRecord_keeps start
  | counterAdd => exact execCounterAdd_keeps start
  | counterSet => exact execCounterSet_keeps start
  | initCounter => exact execInitCounter_keeps start
  | swapNotice => exact execSwapNotice_keeps start
  | dmaDescriptor => exact execDmaDescriptor_keeps start
  | runStart => exact execRunStart_keeps start
  | bodyStart => exact execBodyStart_keeps start
  | planeSwitch => exact execPlaneSwitch_keeps start
  | issueEnd => exact execIssueEnd_keeps start
  | runComplete => exact execRunComplete_keeps start
  | holdEnd => exact execHoldEnd_keeps start
  | joinStarve => exact execJoinStarve_keeps start
  | streamingRowIssue => exact execStreamingRowIssue_keeps start
  | slotRowLoad => exact execSlotRowLoad_keeps start
  | drain => exact execDrain_keeps start
  | fill => exact execFill_keeps start
  | invocation => exact execInvocation_keeps start
  | operatorStart => exact execOperatorStart_keeps start
  | outputTileComplete => exact execOutputTileComplete_keeps start
  | momentumPhase => exact execMomentumPhase_keeps start
  | weightPhase => exact execWeightPhase_keeps start
  | write => exact execWrite_keeps start
  | syncReq => exact execSyncReq_keeps start
  | collSeg => exact execCollSeg_keeps start
  | clear => exact execClear_keeps start
  | abort => exact execAbort_keeps start
  | stale => exact execStale_keeps start
  | clearResend => exact execClearResend_keeps start
  | arrive => exact execArrive_keeps start
  | flags => exact execFlags_keeps start
  | collTimeout => exact execCollTimeout_keeps start
  | groupEnd => exact execGroupEnd_keeps start
  | scaleRecordEnd => exact execScaleRecordEnd_keeps start
  | mirrorAck => exact execMirrorAck_keeps start
  | form => exact execForm_keeps start
  | resyncBytes => exact execResyncBytes_keeps start
  | pairHeartbeat _ _ epoch frozen _ _ => exact execPairHeartbeat_keeps (epoch := epoch) (frozen := frozen) start
  | heartbeatTimeout => exact execHeartbeatTimeout_keeps start
  | pairFailN => exact execPairFailN_keeps start
  | dataFrame => exact execDataFrame_keeps start
  | controlSlot => exact execControlSlot_keeps start
  | ackTimeout => exact execAckTimeout_keeps start
  | widthChange _ _ codeword => exact execWidthChange_keeps (codeword := codeword) start
  | alignmentCodeword => exact execAlignmentCodeword_keeps start
  | portTraining => exact execPortTraining_keeps start
  | laneErrorWindow => exact execLaneErrorWindow_keeps start
  | lockLoss => exact execLockLoss_keeps start
  | laneRetire => exact execLaneRetire_keeps start
  | portEnable => exact execPortEnable_keeps start
  | freezeResume => exact execFreezeResume_keeps start
  | continueBreak => exact execContinueBreak_keeps start
  | traceBlockWrite => exact execTraceBlockWrite_keeps start
  | partitionChange => exact execPartitionChange_keeps start
  | softReset => exact execSoftReset_keeps start
  | registerWrite => exact execRegisterWrite_keeps start
  | bar2Write => exact execBar2Write_keeps start
  | heldAccumulatorAccess => exact execHeldAccumulatorAccess_keeps start
  | hostReadCompletion => exact execHostReadCompletion_keeps start
  | cplTimeout => exact execCplTimeout_keeps start
  | coldReset => exact execColdReset_keeps start
  | fundamentalReset => exact execFundamentalReset_keeps start
  | functionReset => exact execFunctionReset_keeps start
  | moduleReset => exact execModuleReset_keeps start
  | thermalReset => exact execThermalReset_keeps start
  | vinTrip => exact execVinTrip_keeps start
  | regulatorFault => exact execRegulatorFault_keeps start
  | vauxFault => exact execVauxFault_keeps start
  | thermalSample => exact execThermalSample_keeps start
  | patrolScrub => exact execPatrolScrub_keeps start
  | poisonWriteback => exact execPoisonWriteback_keeps start
  | peerInputTimeout => exact execPeerInputTimeout_keeps start
  | _ => exact (exec_still rfl s).mono fun _ => Still.keeps

/-- The memory and its marks of a state are canonical. -/
def State.Canonical (s : State) : Prop := Memory.wf s = true ∧ Poison.wf s = true

theorem Keeps.canonical {s t : State} (h : Keeps s t) (k : s.Canonical) : t.Canonical := ⟨h.mem k.1, h.poison k.2⟩

theorem step_canonical {s : State} (k : s.Canonical) : NextP State.Canonical (step s) := by
  unfold step
  split
  case h_1 => exact (tick_still (.refl s)).keeps.canonical k
  case h_2 c rest _ => exact (exec_keeps c { s with pending := rest }).mono fun _ h => h.canonical k

end Sys2Proof.Machine

namespace Sys2Proof.Settled
open Sys2Proof.Machine Sys2Proof.Claims

/-- Settles O4: an empty queue ticks, which touches no memory, and every row keeps the canonical form. -/
theorem stepKeepsMemoryCanonical : Obligations.StepKeepsMemoryCanonical := by
  unfold Obligations.StepKeepsMemoryCanonical
  intro s t e mem poison
  exact (step_canonical ⟨mem, poison⟩).of_eq e

/-- Settles O28: the memory, the scratch and the marks of each of these rows stand as they were. -/
theorem rowsThatStoreNothing : Obligations.RowsThatStoreNothing := by
  unfold Obligations.RowsThatStoreNothing
  intro c s t nothing e
  have still : Still s t := (exec_still nothing s).of_eq e
  exact ⟨still.rd_eq, still.poison⟩

end Sys2Proof.Settled
end

/-! ## Proofs: sensors, voltage trim and memory service -/
section
namespace Sys2Proof.Machine
open Sys2Proof.Claims

/-! ### Rows of the root core: temperature, sensors, trim (R431, R433, R434) -/

section
variable {s : State} (vin : s.pins.vin = true) (vaux : s.pins.vaux = true)
include vin vaux

theorem State.powered_of_rails : s.powered = true := by rw [State.powered, vin, vaux]; rfl

theorem exec_thermalSample_hot {rs : List Nat} {t : Int} (hot : s.hottest rs = some t) :
    exec (.thermalSample rs) s = .next (s.heat t) := by
  refine congrArg _ ((if_pos (State.powered_of_rails vin vaux)).trans ?_)
  rw [hot]

theorem exec_thermalSample_blind {rs : List Nat} (blind : s.hottest rs = none) : exec (.thermalSample rs) s = .next s := by
  refine congrArg _ ((if_pos (State.powered_of_rails vin vaux)).trans ?_)
  rw [blind]

theorem exec_sensorComparison (es rs : List Nat) : exec (.sensorComparison es rs) s =
    .next ((List.range 128).foldl (fun x i => x.compareSensor i (es.getD i 0) (rs.getD i 0)) s) := by
  have row : exec (.sensorComparison es rs) s = execSensorComparison es rs s := rfl
  rw [row, execSensorComparison, if_pos (State.powered_of_rails vin vaux)]

theorem exec_voltageTrim (d m : Nat) : exec (.voltageTrim d m) s = .next (s.trimDie d m) :=
  congrArg _ (if_pos (State.powered_of_rails vin vaux))

end

/-! ### One sensor against its estimate (R434) -/

/-- The estimate less the trimmed reading, in quarter degrees. -/
def State.sensorDiff (s : State) (i e r : Nat) : Int := (e : Int) - ((r : Int) + (s.sensor i).offset)

section
variable {s : State} {i e r : Nat}

theorem State.compareSensor_invalid (bad : (s.sensor i).invalid = true) : s.compareSensor i e r = s := if_pos bad

theorem State.compareSensor_far (good : (s.sensor i).invalid = false) (far : 20 < (s.sensorDiff i e r).natAbs) :
    s.compareSensor i e r = ((s.modPwr (fun p => { p with
      sensors := Tbl.set {} p.sensors i { s.sensor i with invalid := true } })).modPwr (fun p => { p with
        sensorFail := BitVec.ofNat 8 (satAdd 8 p.sensorFail.toNat 1)
        firstFail := if s.pwr.sensorFail = 0 then BitVec.ofNat 7 i else p.firstFail })).event 11 := by
  refine (if_neg (by simp [good])).trans ((if_pos far).trans ?_)
  simp only [beq_iff_eq]

theorem State.compareSensor_near (good : (s.sensor i).invalid = false) (near : (s.sensorDiff i e r).natAbs ≤ 20) :
    s.compareSensor i e r = s.modPwr (fun p => { p with sensors := Tbl.set {} p.sensors i { s.sensor i with
      offset := max (-12) (min 12 ((s.sensor i).offset + max (-1) (min 1 (s.sensorDiff i e r)))) } }) :=
  (if_neg (by simp [good])).trans (if_neg near.not_gt)

end

/-! ### One trim step of a die (R433) -/

/-- Die `d`'s setpoint at `v` steps, unless its last step is less than 100 µs ago. -/
def State.trimStep (s : State) (d : Nat) (v : Int) : State :=
  if s.clk.root + 1 < Tbl.get 0 s.pwr.trimAt d + 600000 then s else s.modPwr (fun p => { p with
    dieTrim := Tbl.set 0 p.dieTrim d v, trimAt := Tbl.put p.trimAt d (s.clk.root + 1) })

/-- The request for a slower clock at the top of the range: told, and remembered below the slowest divider. -/
def State.trimAsks (s : State) : State :=
  (s.event 10).modPwr (fun p => { p with voltReq := p.voltReq || decide (s.clk.div < 6) })

section
variable {s : State} {d m : Nat}

theorem State.trimDie_up (low : m = 0) (room : Tbl.get 0 s.pwr.dieTrim d < 8) :
    s.trimDie d m = s.trimStep d (Tbl.get 0 s.pwr.dieTrim d + 1) := (if_pos low).trans (if_pos room)

theorem State.trimDie_top (low : m = 0) (top : 8 ≤ Tbl.get 0 s.pwr.dieTrim d) :
    s.trimDie d m = s.trimAsks.modClk (fun c => { c with pendingDiv := s.trimAsks.wantedDiv }) :=
  (if_pos low).trans (if_neg top.not_gt)

theorem State.trimDie_down (high : m = 2) (room : -16 < Tbl.get 0 s.pwr.dieTrim d) :
    s.trimDie d m = s.trimStep d (Tbl.get 0 s.pwr.dieTrim d - 1) :=
  (if_neg (by omega)).trans (if_pos ⟨high, room⟩)

theorem State.trimDie_stays (notLow : m ≠ 0) (h : m ≠ 2 ∨ Tbl.get 0 s.pwr.dieTrim d ≤ -16) : s.trimDie d m = s :=
  (if_neg notLow).trans (if_neg (by omega))

end

/-! ### Slots of the memory frame (R275, R277, R432) -/

theorem State.framing_iff (s : State) (k : Nat) :
    s.framing k = true ↔ s.clk.frameOrigin.isSome = true ∧ (s.stack k).selfRefresh = false := by
  simp [State.framing]

section
variable {s : State} {k : Nat} (late : Nat)

theorem exec_calibrationSlot (on : s.framing k = true) : exec (.calibrationSlot k late) s =
    .next ((s.modStack k (fun x => { x with calFrame := BitVec.ofNat 7 ((x.calFrame.toNat + 1) % 130) })).overrun k late) :=
  congrArg _ (if_pos on)

theorem exec_refresh (on : s.framing k = true) : exec (.refresh k late) s =
    .next ((s.modStack k (fun x => { x with refreshes := x.refreshes + 1 })).overrun k late) :=
  congrArg _ (if_pos on)

theorem exec_calibrationSlot_off (off : ¬s.framing k = true) : exec (.calibrationSlot k late) s = .next s :=
  congrArg _ (if_neg off)

theorem exec_refresh_off (off : ¬s.framing k = true) : exec (.refresh k late) s = .next s :=
  congrArg _ (if_neg off)

end

/-! ### Scrub of a tile store (R266, R267) -/

theorem scrubOff_lt {bank row : Nat} (hbank : bank < 32) (hrow : row < 3072) : scrubOff bank row < 0x600000 := by
  unfold scrubOff; omega

section
variable {s : State} {t off : Nat}

/-- Cited by name, so that no division of the clock's count is ever unfolded. -/
theorem State.sclk_setMark (s : State) (u : Nat) (m : Bool) : (s.setMark u m).sclk = s.sclk := rfl

theorem State.eccError_corrected (store : off < 0x600000) : s.eccError t off false =
    s.modTile t (fun x => { x with tsCe := BitVec.ofNat 32 (satAdd 32 x.tsCe.toNat 1) }) := by
  simp [State.eccError, store]

theorem State.eccError_uncorrectable (store : off < 0x600000) : s.eccError t off true =
    (s.setMark ((tileBase t + off) / 64) true).modTile t (fun x => { x with
      tsUe := BitVec.ofNat 32 (satAdd 32 x.tsUe.toNat 1), ueTimes := (s.sclk :: x.ueTimes).take 256 }) := by
  rw [← State.sclk_setMark s ((tileBase t + off) / 64) true]
  simp only [State.eccError, store, true_and, if_true]

end

theorem State.unlessHalted_of_fixed {s : State} {f : State → State} (h : f s = s) : s.unlessHalted f = s := by
  rw [State.unlessHalted, h, ite_self]

section
variable {s : State} {t bank : Nat} (row : Nat) (touched : Bool)

theorem exec_patrolScrub_busy (err : Nat) (busy : s.bankIdle t bank = false) :
    exec (.patrolScrub t bank row err touched) s = .next s :=
  congrArg _ (State.unlessHalted_of_fixed (if_neg (by simp [busy])))

theorem exec_patrolScrub (live : Live s) (there : s.listed t = true) (idle : s.bankIdle t bank = true) (err : Nat) :
    exec (.patrolScrub t bank row err touched) s = .next (s.scrub t bank row err touched) :=
  congrArg _ ((State.unlessHalted_next live.1 live.2 _).trans (if_pos (by simp [there, idle])))

end

/-! ### Poison write-back of an HBM block (R279) -/

section
variable {s : State} {k : Nat} (live : s.frozen = false) (on : s.framing k = true) (block : Nat)
include live on

theorem exec_poisonWriteback (corrected : Bool) : exec (.poisonWriteback k ⟨block, corrected⟩) s = .next
    (if corrected then s.modStack k (fun x => { x with ce := BitVec.ofNat 32 (satAdd 32 x.ce.toNat 1) })
     else (s.setMark (k * 2 ^ 30 + block) true).modStack k (fun x => { x with
       ue := BitVec.ofNat 32 (satAdd 32 x.ue.toNat 1) })) := by
  have framing : ¬(!s.framing k) = true := by simp [on]
  refine congrArg Host.Outcome.next ((State.unlessFrozen_next live _).trans ?_)
  exact if_neg framing

end

end Sys2Proof.Machine

namespace Sys2Proof.Settled
open Sys2Proof.Machine Sys2Proof.Claims

/-- Settles O58: each row by the conditions that it tests, one lemma for each outcome. -/
theorem sensorAndMemoryService : Obligations.SensorAndMemoryService := by
  unfold Obligations.SensorAndMemoryService
  refine ⟨?temperature, ?sensor, ?trim, ?slots, ?scrub, ?busy, ?block⟩
  case temperature =>
    intro s rs vin vaux
    exact ⟨fun t hot => exec_thermalSample_hot vin vaux hot, exec_thermalSample_blind vin vaux,
      fun es => exec_sensorComparison vin vaux es rs⟩
  case sensor =>
    intro s i e r
    exact ⟨State.compareSensor_invalid, State.compareSensor_far, State.compareSensor_near⟩
  case trim =>
    intro s d m vin vaux
    rw [exec_voltageTrim vin vaux]
    exact ⟨fun low room => congrArg _ (State.trimDie_up low room), fun low top => congrArg _ (State.trimDie_top low top),
      fun high room => congrArg _ (State.trimDie_down high room), fun notLow h => congrArg _ (State.trimDie_stays notLow h)⟩
  case slots =>
    intro s k late on
    have runs : s.framing k = true ↔ on := s.framing_iff k
    exact ⟨fun h => exec_calibrationSlot late (runs.mpr h), fun h => exec_refresh late (runs.mpr h),
      fun h => ⟨exec_calibrationSlot_off late (mt runs.mp h), exec_refresh_off late (mt runs.mp h)⟩, rfl⟩
  case scrub =>
    intro s t bank row touched live there idle hbank hrow
    have store : scrubOff bank row < 0x600000 := scrubOff_lt hbank hrow
    have scrubs := exec_patrolScrub row touched live there idle
    exact ⟨scrubs 0, (scrubs 1).trans (congrArg _ (State.eccError_corrected store)),
      (scrubs 2).trans (congrArg _ (State.eccError_uncorrectable store))⟩
  case busy =>
    intro s t bank row err touched busy
    exact exec_patrolScrub_busy row touched err busy
  case block =>
    intro s k block live on
    exact ⟨exec_poisonWriteback live on block true, exec_poisonWriteback live on block false⟩

end Sys2Proof.Settled
end

/-! ## Proofs: a command answers a next state -/
section
namespace Sys2Proof.Machine
open Sys2Proof.Claims

/-- Every arm of the table is a next state: none faults, none is refused. -/
theorem exec_answers (c : Instr) (s : State) : ∃ t, exec c s = .next t := by
  cases c <;> exact ⟨_, rfl⟩

theorem step_of_pending (c : Instr) (rest : List Instr) (s : State) :
    step { s with pending := c :: rest } = exec c { s with pending := rest } := rfl

end Sys2Proof.Machine

namespace Sys2Proof.Settled
open Sys2Proof.Machine Sys2Proof.Claims

/-- Settles O3: every arm is a next state, and the relation that every row keeps says that the waiting commands stand. -/
theorem everyCommandAnswersAndKeepsTheQueue : Obligations.EveryCommandAnswersAndKeepsTheQueue := by
  unfold Obligations.EveryCommandAnswersAndKeepsTheQueue
  intro c s
  obtain ⟨t, answer⟩ := exec_answers c s
  have keeps : Keeps s t := (exec_keeps c s).of_eq answer
  exact ⟨t, answer, keeps.pending⟩

/-- Settles O1: the definition of a step on a nonempty queue. -/
theorem stepRunsFrontCommand : Obligations.StepRunsFrontCommand := by
  unfold Obligations.StepRunsFrontCommand
  exact step_of_pending

end Sys2Proof.Settled
end

/-! ## Proofs: doorbells -/
section
namespace Sys2Proof.Machine
open Sys2Proof.Claims

/-! ### What a fetch needs -/

section
variable {s : State} {q : Nat}

theorem State.pumpN_of_not_mayFetch (stops : s.mayFetch q = false) (n : Nat) : s.pumpN q n = s := by
  cases n with
  | zero => rfl
  | succ n => exact if_neg (by simp [stops])

theorem State.pump_of_not_mayFetch (stops : s.mayFetch q = false) : s.pump q = s :=
  State.pumpN_of_not_mayFetch stops _

theorem State.mayFetch_halted (halted : (s.queue q).st = 3) : s.mayFetch q = false := by
  simp [State.mayFetch, halted]

theorem State.mayFetch_fence (fence : (s.qw q).fence = true) : s.mayFetch q = false := by
  simp [State.mayFetch, fence]

end

/-! ### The core of a queue awake (R426) -/

theorem State.dieAwake_iff (s : State) (d : Nat) :
    s.dieAwake d = true ↔ (s.scope (Scope.key .module)).code < 2 ∧ (s.scope (Scope.key (.die d))).code < 2 := by
  simp [State.dieAwake, Scope.key]

theorem State.wakeFor_awake {s : State} {d : Nat} (awake : s.dieAwake d = true) : s.wakeFor [.module, .die d] = s := by
  obtain ⟨module, die⟩ := (s.dieAwake_iff d).mp awake
  simp [State.wakeFor, module, die]

theorem State.wakeCore_awake {s : State} {q : Nat} (awake : s.coreAwake q = true) : s.wakeCore q = s := by
  unfold State.coreAwake at awake
  unfold State.wakeCore
  cases core : (s.qw q).core with
  | none => rfl
  | some c =>
    rw [core] at awake
    exact State.wakeFor_awake awake

/-! ### An access before HOST_QUIET_UNTIL (R428) -/

theorem State.quiet_frame (s : State) : ∃ p, s.quiet = { s with pwr := p } := by
  unfold State.quiet
  split
  · exact ⟨_, rfl⟩
  · exact ⟨s.pwr, rfl⟩

section
variable (s : State)
@[simp] theorem State.quiet_allServed : s.quiet.allServed = s.allServed := by
  obtain ⟨p, e⟩ := s.quiet_frame; rw [e]; rfl
@[simp] theorem State.quiet_frozen : s.quiet.frozen = s.frozen := by
  obtain ⟨p, e⟩ := s.quiet_frame; rw [e]; rfl
@[simp] theorem State.quiet_mod : s.quiet.mod = s.mod := by
  obtain ⟨p, e⟩ := s.quiet_frame; rw [e]
end

/-! ### Where a doorbell goes (R26, R197, R408) -/

section
variable {s : State} (c : Instr) (kind q v : Nat)

theorem State.bell_unserved (out : s.allServed = false) : s.bell c kind q v = s.quiet :=
  if_pos (by simp [out])

variable (served : s.allServed = true)
include served

theorem State.bell_frozen (frozen : s.frozen = true) :
    s.bell c kind q v = s.quiet.modDbg (fun d => { d with held := d.held ++ [c] }) :=
  (if_neg (by simp [served])).trans (if_pos (by simp [frozen]))

variable (live : s.frozen = false)
include live

theorem State.bell_now : s.bell c kind q v = s.quiet.bellNow kind q v :=
  (if_neg (by simp [served])).trans (if_neg (by simp [live]))

theorem State.bell_changing (busy : s.mod.changeBusy = true) :
    s.bell c kind q v = s.quiet.modMod (fun m => { m with changeHeld := m.changeHeld ++ [(kind, q, v)] }) :=
  (State.bell_now c kind q v served live).trans (if_pos (by simp [busy]))

variable (settled : s.mod.changeBusy = false)
include settled

theorem State.bell_tail : s.bell c 1 q v = (s.quiet.wakeCore q).bellTail q v :=
  (State.bell_now c 1 q v served live).trans (if_neg (by simp [settled]))

theorem State.bell_head : s.bell c 2 q v = (s.quiet.wakeCore q).bellHead q v :=
  (State.bell_now c 2 q v served live).trans (if_neg (by simp [settled]))

end

/-! ### What a doorbell does (R284, R287) -/

section
variable {s : State} {q v : Nat}

theorem State.bellTail_ignored (bad : (s.queue q).st = 0 ∨ 2 ^ (s.queue q).sqLog.toNat ≤ v) :
    s.bellTail q v = s.ignoreBell q := if_pos bad

theorem State.bellTail_taken (good : ¬((s.queue q).st = 0 ∨ 2 ^ (s.queue q).sqLog.toNat ≤ v)) :
    s.bellTail q v = (s.modQueue q (fun w => { w with sqTail := BitVec.ofNat 16 v })).pump q := if_neg good

theorem State.bellHead_ignored (bad : (s.queue q).st = 0 ∨ 2 ^ (s.queue q).cqLog.toNat ≤ v) :
    s.bellHead q v = s.ignoreBell q := if_pos bad

theorem State.bellHead_taken (good : ¬((s.queue q).st = 0 ∨ 2 ^ (s.queue q).cqLog.toNat ≤ v)) :
    s.bellHead q v = s.modQueue q (fun w => { w with cqHead := BitVec.ofNat 16 v }) := if_neg good

theorem State.ignoreBell_eq : s.ignoreBell q = s.modQueue q (fun w => { w with
    ignDoor := BitVec.ofNat 16 (min (w.ignDoor.toNat + 1) (2 ^ 16 - 1)) }) := rfl

end

/-! ### Places of a ring -/

/-- What lies from `a` up to `b` on a ring of `n` places leads from `a` to `b`. -/
theorem ring_reaches {a b n : Nat} (ha : a < n) (hb : b < n) : (a + (b + n - a) % n) % n = b := by
  rw [Nat.add_mod_mod, show a + (b + n - a) = b + n by omega, Nat.add_mod_right, Nat.mod_eq_of_lt hb]

theorem Queue.avail_reaches_tail {w : Queue} (head : w.head.toNat < 2 ^ w.sqLog.toNat)
    (tail : w.sqTail.toNat < 2 ^ w.sqLog.toNat) :
    (w.head.toNat + w.avail) % 2 ^ w.sqLog.toNat = w.sqTail.toNat :=
  ring_reaches head tail

section
variable {w : Queue}

theorem Queue.freeRecords_equal (equal : w.cqTail = w.cqHead) : w.freeRecords = 2 ^ w.cqLog.toNat := if_pos equal

theorem Queue.freeRecords_apart (apart : w.cqTail ≠ w.cqHead) :
    w.freeRecords = (w.cqHead.toNat + 2 ^ w.cqLog.toNat - w.cqTail.toNat) % 2 ^ w.cqLog.toNat := if_neg apart

/-- Free records number from 1 to the ring's size, and lead from the completion tail to CQ_HEAD. -/
theorem Queue.freeRecords_reach (tail : w.cqTail.toNat < 2 ^ w.cqLog.toNat) (head : w.cqHead.toNat < 2 ^ w.cqLog.toNat) :
    1 ≤ w.freeRecords ∧ w.freeRecords ≤ 2 ^ w.cqLog.toNat ∧
    (w.cqTail.toNat + w.freeRecords) % 2 ^ w.cqLog.toNat = w.cqHead.toNat := by
  by_cases equal : w.cqTail = w.cqHead
  · rw [Queue.freeRecords_equal equal, Nat.add_mod_right, Nat.mod_eq_of_lt tail]
    exact ⟨Nat.one_le_two_pow, le_rfl, congrArg BitVec.toNat equal⟩
  · have reach := ring_reaches tail head
    have apart : w.cqTail.toNat ≠ w.cqHead.toNat := fun e => equal (BitVec.eq_of_toNat_eq e)
    rw [Queue.freeRecords_apart equal]
    refine ⟨Nat.pos_of_ne_zero fun none => apart ?_, (Nat.mod_lt _ (by omega)).le, reach⟩
    rwa [none, Nat.add_zero, Nat.mod_eq_of_lt tail] at reach

end

end Sys2Proof.Machine

namespace Sys2Proof.Settled
open Sys2Proof.Machine Sys2Proof.Claims

/-- Settles O11: with the core awake the doorbell is the write of the tail itself, and a HALTED queue fetches nothing. -/
theorem tailDoorbell : Obligations.TailDoorbell := by
  unfold Obligations.TailDoorbell
  intro s q v served live settled quiet awake
  have row : exec (.sqTail q v) s = .next (s.bellTail q v) := by
    rw [exec_sqTail, State.bell_tail _ q v served live settled, quiet, State.wakeCore_awake awake]
  have taken (st : (s.queue q).st ≠ 0) (fits : v < 2 ^ (s.queue q).sqLog.toNat) := State.bellTail_taken
    (not_or.mpr ⟨st, fits.not_ge⟩)
  rw [row]
  refine ⟨fun bad => congrArg _ (State.bellTail_ignored bad), fun st fits => congrArg _ (taken st fits), ?halted,
    fun _ => Queue.avail_reaches_tail⟩
  case halted =>
    intro halted fits
    rw [taken (by rw [halted]; decide) fits, State.pump_of_not_mayFetch (State.mayFetch_halted (by simpa using halted))]

/-- Settles O12: where the doorbell goes, then what it does there, for the tail and the head alike. -/
theorem headDoorbell : Obligations.HeadDoorbell := by
  unfold Obligations.HeadDoorbell
  refine ⟨?doorbell, fun _ => Queue.freeRecords_reach⟩
  intro s q v tail c kind u w ignored open'
  have row : exec c s = .next (s.bell c kind q v) := by
    cases tail with
    | true => exact exec_sqTail q v s
    | false => exact exec_cqHead q v s
  rw [row]
  refine ⟨fun out => congrArg _ (State.bell_unserved c kind q v out),
    fun served frozen => congrArg _ (State.bell_frozen c kind q v served frozen),
    fun served live busy => congrArg _ (State.bell_changing c kind q v served live busy), ?ignored, ?tail, ?head⟩
  case ignored =>
    rintro ⟨served, live, settled⟩ bad
    cases tail with
    | true => exact congrArg _ ((State.bell_tail c q v served live settled).trans (State.bellTail_ignored bad))
    | false => exact congrArg _ ((State.bell_head c q v served live settled).trans (State.bellHead_ignored bad))
  case tail =>
    rintro ⟨served, live, settled⟩ good rfl
    exact congrArg _ ((State.bell_tail c q v served live settled).trans (State.bellTail_taken good))
  case head =>
    rintro ⟨served, live, settled⟩ good rfl
    exact congrArg _ ((State.bell_head c q v served live settled).trans (State.bellHead_taken good))

end Sys2Proof.Settled
end

/-! ## Proofs: writes of Q_CTRL -/
section
namespace Sys2Proof.Machine
open Sys2Proof.Claims

/-! ### One bit of a register replaced -/

theorem bit_eq_testBit (v i : Nat) : bit v i = v.testBit i := by
  rw [bit, bits, Nat.shiftRight_eq_div_pow, pow_one, Nat.testBit_eq_decide_div_mod_eq, beq_eq_decide]

/-- The bits above, the bit itself and the bits below. -/
theorem setBits_one (v i x : Nat) : setBits v i 1 x = 2 ^ i * (2 * (v / 2 ^ i / 2) + x % 2) + v % 2 ^ i := by
  have below : 2 ^ i * (v / 2 ^ i) + v % 2 ^ i = v := Nat.div_add_mod v (2 ^ i)
  have above : 2 ^ i * (v / 2 ^ i) = 2 ^ i * (2 * (v / 2 ^ i / 2)) + v / 2 ^ i % 2 * 2 ^ i := by
    rw [mul_comm (v / 2 ^ i % 2), ← Nat.mul_add, Nat.div_add_mod]
  rw [setBits, bits, Nat.shiftRight_eq_div_pow, pow_one, Nat.mul_add, mul_comm (x % 2)]
  omega

theorem bit_setBits_same (v i x : Nat) : bit (setBits v i 1 x) i = (x % 2 == 1) := by
  rw [bit_eq_testBit, setBits_one, Nat.testBit_two_pow_mul_add _ (Nat.mod_lt _ (Nat.two_pow_pos i)), if_neg (lt_irrefl i),
    Nat.sub_self, Nat.testBit_zero, Nat.mul_add_mod, Nat.mod_mod, beq_eq_decide]

theorem bit_setBits_other {v i j : Nat} (x : Nat) (other : j ≠ i) : bit (setBits v i 1 x) j = bit v j := by
  rw [bit_eq_testBit, bit_eq_testBit, setBits_one, Nat.testBit_two_pow_mul_add _ (Nat.mod_lt _ (Nat.two_pow_pos i))]
  split
  · next below => rw [Nat.testBit_mod_two_pow]; simp [below]
  · next above =>
    obtain ⟨k, rfl⟩ : ∃ k, j = i + (k + 1) := ⟨j - i - 1, by omega⟩
    rw [Nat.add_sub_cancel_left, Nat.testBit_succ, show (2 * (v / 2 ^ i / 2) + x % 2) / 2 = v / 2 ^ i / 2 by omega,
      ← Nat.testBit_succ, Nat.testBit_div_two_pow]
    congr 1; omega

/-! ### The parts of a write (R281, R282, R283, R300) -/

/-- The ring places, which an IDLE queue takes. -/
def State.placed (s : State) (q v : Nat) : State := s.modQueue q (fun w => { w with sqHbm := bit v 4, cqHbm := bit v 5 })

/-- STEP_MODE and STOP_ON_REJECT, which every queue takes. -/
def State.moded (s : State) (q v : Nat) : State :=
  s.modQueue q (fun w => { w with stepMode := bit v 1, stopOnReject := bit v 2 })

/-- A refused enable or disable counts. -/
def State.refusedEnable (s : State) (q : Nat) : State :=
  s.modQueue q (fun w => { w with refEnables := BitVec.ofNat 16 (min (w.refEnables.toNat + 1) (2 ^ 16 - 1)) })

section
variable (s : State) (q v x : Nat)

theorem State.placed_setBits {i : Nat} (low : i < 4) : s.placed q (setBits v i 1 x) = s.placed q v := by
  rw [State.placed, bit_setBits_other x (by omega), bit_setBits_other x (by omega), State.placed]

theorem State.moded_setBits {i : Nat} (h1 : 1 ≠ i) (h2 : 2 ≠ i) : s.moded q (setBits v i 1 x) = s.moded q v := by
  rw [State.moded, bit_setBits_other x h1, bit_setBits_other x h2, State.moded]

@[simp] theorem State.moded_qw : (s.moded q v).qw = s.qw := rfl
@[simp] theorem State.moded_queue : (s.moded q v).queue q = { s.queue q with
    stepMode := bit v 1, stopOnReject := bit v 2 } := State.modQueue_same _ _ _
end

section
variable {s : State} {q v : Nat}

theorem State.writeQCtrl_idle (idle : (s.queue q).st = 0) (enable : bit v 0 = true) (stays : bit v 3 = false) :
    s.writeQCtrl q v = ((s.placed q v).moded q v).enableQueue q := by
  simp only [State.writeQCtrl, idle, enable, stays, if_true, Bool.false_eq_true, if_false, State.placed, State.moded]

section
variable (active : (s.queue q).st ≠ 0) (sq : (s.queue q).sqHbm = bit v 4) (cq : (s.queue q).cqHbm = bit v 5)
include active sq cq

theorem State.writeQCtrl_disable (disable : bit v 0 = false) (stays : bit v 3 = false) :
    s.writeQCtrl q v = (s.moded q v).disableQueue q := by
  simp only [State.writeQCtrl, active, sq, cq, disable, stays, bne_self_eq_false, Bool.or_self, Bool.false_eq_true, if_false,
    State.moded]

theorem State.writeQCtrl_resume (enable : bit v 0 = true) (resume : bit v 3 = true) :
    s.writeQCtrl q v = (s.moded q v).resumeQueue q := by
  simp only [State.writeQCtrl, active, sq, cq, enable, resume, bne_self_eq_false, Bool.or_self, Bool.false_eq_true, if_false,
    if_true, State.moded]

end

theorem State.qCtrl_now (served : s.allServed = true) (settled : s.mod.changeBusy = false) :
    s.qCtrl v = s.writeQCtrl s.sel.queue.toNat v :=
  (if_neg (by simp [served])).trans (if_neg (by simp [settled]))

/-- An enable that takes effect: the queue is bound to a core and starts from the beginning of its rings. -/
def State.enabled (s : State) (q : Nat) : State :=
  (s.modQueue q (fun w => { w with
    enable := true, st := if w.stepMode then 2 else 1, head := 0, sqTail := 0, cqTail := 0, cqHead := 0,
    phase := true })).modQw q (fun _ => { core := some (s.leastCore (s.queue q).part.toNat),
                                          stopToken := (s.part (s.queue q).part.toNat).quiescing })

theorem State.enableQueue_ok (ok : s.enableOk (s.queue q) = true) : s.enableQueue q = (s.enabled q).pump q := if_pos ok

theorem State.enableQueue_refused (bad : s.enableOk (s.queue q) = false) : s.enableQueue q = s.refusedEnable q :=
  if_neg (by simp [bad])

/-- A queue that has become IDLE: its ring reads are dropped, its binding is released. -/
def State.disabled (s : State) (q : Nat) : State :=
  ((s.modWork (fun w => { w with hostReads := w.hostReads.filter (fun r =>
    match r.use with | .slot k _ => k != q | .dma _ => true) })).modQueue q (fun w => { w with
      enable := false, st := 0 })).modQw q (fun _ => {})

theorem State.disableQueue_ok (waiting : (s.qw q).waiting = none) (executing : (s.qw q).executing = [])
    (finished : (s.qw q).finished = []) (step : (s.qw q).stepHalt = none) : s.disableQueue q = s.disabled q :=
  if_neg (by simp [waiting, executing, finished, step])

theorem State.disableQueue_refused (held : (s.qw q).waiting.isSome ∨ (s.qw q).executing ≠ [] ∨ (s.qw q).finished ≠ []) :
    s.disableQueue q = s.refusedEnable q := by
  refine if_pos ?_
  rcases held with waiting | executing | finished
  · simp [waiting]
  · simp [executing]
  · simp [finished]

theorem State.resumeQueue_halted (halted : (s.queue q).st = 3) :
    s.resumeQueue q = (s.modQueue q (fun w => { w with st := if w.stepMode then 2 else 1 })).pump q := if_pos halted

theorem State.resumeQueue_other (other : (s.queue q).st ≠ 3) : s.resumeQueue q = s := if_neg other

end

/-! ### The three rows (R281, R282, R283) -/

theorem exec_queueEnable (v : Nat) (s : State) : exec (.queueEnable v) s = .next (s.qCtrl (setBits v 0 1 1)) := rfl
theorem exec_queueDisable (v : Nat) (s : State) : exec (.queueDisable v) s = .next (s.qCtrl (setBits v 0 1 0)) := rfl
theorem exec_resume (v : Nat) (s : State) : exec (.resume v) s = .next (s.qCtrl (setBits v 3 1 1)) := rfl

section
variable {s : State} {v : Nat} (served : s.allServed = true) (settled : s.mod.changeBusy = false)
include served settled

theorem exec_queueEnable_idle (stays : bit v 3 = false) (idle : (s.queue s.sel.queue.toNat).st = 0) :
    exec (.queueEnable v) s =
      .next (((s.placed s.sel.queue.toNat v).moded s.sel.queue.toNat v).enableQueue s.sel.queue.toNat) := by
  rw [exec_queueEnable, State.qCtrl_now served settled, State.writeQCtrl_idle idle (bit_setBits_same v 0 1)
    ((bit_setBits_other 1 (by decide)).trans stays), State.placed_setBits _ _ _ _ (by decide),
    State.moded_setBits _ _ _ _ (by decide) (by decide)]

variable (active : (s.queue s.sel.queue.toNat).st ≠ 0) (sq : (s.queue s.sel.queue.toNat).sqHbm = bit v 4)
  (cq : (s.queue s.sel.queue.toNat).cqHbm = bit v 5)
include active sq cq

theorem exec_queueDisable_active (stays : bit v 3 = false) :
    exec (.queueDisable v) s = .next ((s.moded s.sel.queue.toNat v).disableQueue s.sel.queue.toNat) := by
  rw [exec_queueDisable, State.qCtrl_now served settled, State.writeQCtrl_disable active
    (sq.trans (bit_setBits_other 0 (by decide)).symm) (cq.trans (bit_setBits_other 0 (by decide)).symm)
    (bit_setBits_same v 0 0) ((bit_setBits_other 0 (by decide)).trans stays),
    State.moded_setBits _ _ _ _ (by decide) (by decide)]

theorem exec_resume_active (enable : bit v 0 = true) :
    exec (.resume v) s = .next ((s.moded s.sel.queue.toNat v).resumeQueue s.sel.queue.toNat) := by
  rw [exec_resume, State.qCtrl_now served settled, State.writeQCtrl_resume active
    (sq.trans (bit_setBits_other 1 (by decide)).symm) (cq.trans (bit_setBits_other 1 (by decide)).symm)
    ((bit_setBits_other 1 (by decide)).trans enable) (bit_setBits_same v 3 1),
    State.moded_setBits _ _ _ _ (by decide) (by decide)]

end

theorem State.modQueue_congr {s : State} {q : Nat} {f g : Queue → Queue} (h : f (s.queue q) = g (s.queue q)) :
    s.modQueue q f = s.modQueue q g := by
  rw [State.modQueue, h, State.modQueue]

end Sys2Proof.Machine

namespace Sys2Proof.Settled
open Sys2Proof.Machine Sys2Proof.Claims

/-- Settles O13: what each row writes, then the enable, the disable or the resumption by its condition. -/
theorem queueControlWrites : Obligations.QueueControlWrites := by
  unfold Obligations.QueueControlWrites
  refine ⟨?idle, ?active⟩
  case idle =>
    intro s v served settled stays idle q u
    have row := exec_queueEnable_idle served settled stays idle
    exact ⟨fun ok => row.trans (congrArg _ (State.enableQueue_ok ok)),
      fun bad => row.trans (congrArg _ (State.enableQueue_refused bad))⟩
  case active =>
    intro s v served settled active sq cq q u
    have disable (stays : bit v 3 = false) := exec_queueDisable_active served settled active sq cq stays
    have resume (enable : bit v 0 = true) := exec_resume_active served settled active sq cq enable
    have state : ((s.moded q v).queue q).st = (s.queue q).st := by rw [State.moded_queue]
    refine ⟨fun stays waiting executing finished step =>
        (disable stays).trans (congrArg _ (State.disableQueue_ok waiting executing finished step)),
      fun stays held => (disable stays).trans (congrArg _ (State.disableQueue_refused held)), ?halted,
      fun enable other => (resume enable).trans (congrArg _ (State.resumeQueue_other (by rwa [state])))⟩
    case halted =>
      intro enable halted
      refine (resume enable).trans (congrArg _ ((State.resumeQueue_halted (by rwa [state])).trans ?_))
      exact congrArg (State.pump · q) (State.modQueue_congr (by rw [State.moded_queue]))

end Sys2Proof.Settled
end

/-! ## Proofs: completion records -/
section
namespace Sys2Proof

/-! ### Fields of laid-out bytes -/

@[simp] theorem length_leBytes (n v : Nat) : (leBytes n v).length = n := by
  induction n generalizing v with
  | zero => rfl
  | succ n ih => rw [leBytes, List.length_cons, ih]

theorem leNat_leBytes {n v : Nat} (fits : v < 2 ^ (8 * n)) : leNat (leBytes n v) = v := by
  induction n generalizing v with
  | zero => simpa [leBytes, leNat, eq_comm] using fits
  | succ n ih =>
    have rest : v / 256 < 2 ^ (8 * n) := by
      rw [Nat.div_lt_iff_lt_mul (by decide)]
      exact fits.trans_eq (pow_add 2 (8 * n) 8)
    rw [leBytes, leNat, ih rest, BitVec.toNat_ofNat]
    exact Nat.mod_add_div v 256

/-- The first field reads back. -/
theorem fld_leBytes {n v : Nat} (rest : List Byte) (fits : v < 2 ^ (8 * n)) : fld (leBytes n v ++ rest) 0 n = v := by
  rw [fld, List.drop_zero, List.take_left' (length_leBytes n v), leNat_leBytes fits]

/-- A field behind the first is a field of what follows it. -/
theorem fld_behind {n o : Nat} (v : Nat) (rest : List Byte) (k : Nat) (behind : n ≤ o) :
    fld (leBytes n v ++ rest) o k = fld rest (o - n) k := by
  rw [fld, List.drop_append, List.drop_of_length_le (by rwa [length_leBytes]), List.nil_append, length_leBytes, fld]

end Sys2Proof

namespace Sys2Proof.Machine
open Sys2Proof.Claims

/-! ### The next record of a queue (R287, R295, R301, R309) -/

theorem exec_completionRecord {s : State} (live : s.frozen = false) (q : Nat) :
    exec (.completionRecord q) s = .next (s.nextRecord q) :=
  congrArg _ (State.unlessFrozen_next live _)

section
variable {s : State} {q c : Nat} {f : Fin} {rest : List Fin} (core : (s.qw q).core = some c)
  (sound : s.mod.badCores.contains c = false) (room : 2 ≤ (s.queue q).freeRecords)
  (oldest : (s.qw q).finished = f :: rest) (noStep : (s.qw q).stepHalt = none)
include core sound room oldest noStep

theorem State.nextRecord_plain (plain : ((s.finRecord q f).qw q).stepHalt = none) :
    s.nextRecord q = (s.finRecord q f).pump q := by
  have notBad : c ∉ s.mod.badCores := by simpa using sound
  simp [State.nextRecord, core, notBad, room, oldest, noStep, plain]

theorem State.nextRecord_step {tag : Nat} (step : ((s.finRecord q f).qw q).stepHalt = some tag)
    (space : 2 ≤ ((s.finRecord q f).queue q).freeRecords) :
    s.nextRecord q = ((s.finRecord q f).stepRecord q tag).pump q := by
  have notBad : c ∉ s.mod.badCores := by simpa using sound
  simp [State.nextRecord, core, notBad, room, oldest, noStep, step, space]

end

theorem State.putRecord_host {s : State} {q : Nat} (host : (s.queue q).cqHbm = false) (bytes : Nat → List Byte) :
    let w := s.queue q
    let wrap := w.cqTail.toNat + 1 = 2 ^ w.cqLog.toNat
    s.putRecord q bytes =
      ({ s with hostOut := ⟨w.cqBase.toNat * 4096 + w.cqTail.toNat * 32, bytes (b01 w.phase), false⟩ :: s.hostOut } :
        State).modQueue q (fun w => { w with
          cqTail := if wrap then 0 else BitVec.ofNat 16 (w.cqTail.toNat + 1),
          phase := if wrap then !w.phase else w.phase }) := by
  simp only [State.putRecord, host, Bool.false_eq_true, if_false, beq_iff_eq]

theorem State.stepRecord_eq (s : State) (q tag : Nat) : s.stepRecord q tag =
    ((((s.putRecord q (fun ph => recordBytes tag 0x0602 s.mclk s.mclk 0 0 0xFFFF (ph + 2) 0 0)).modQueue q (fun w => { w with
      st := 3 })).modQw q (fun x => { x with stepHalt := none })).raise (q + 1)) := rfl

end Sys2Proof.Machine

namespace Sys2Proof.Settled
open Sys2Proof.Machine Sys2Proof.Claims

/-- Settles O14: a field reads back where it is laid, behind those before it. -/
theorem recordLayout : Obligations.RecordLayout := by
  unfold Obligations.RecordLayout
  intro tag code start stop slip digest snap flags count detail tagFits codeFits startFits stopFits slipFits digestFits snapFits
    flagsFits countFits detailFits r
  have layout : r = leBytes 2 tag ++ (leBytes 2 code ++ (leBytes 6 start ++ (leBytes 6 stop ++ (leBytes 4 slip ++
      (leBytes 4 digest ++ (leBytes 2 snap ++ (leBytes 1 flags ++ (leBytes 1 count ++ (leBytes 4 detail ++ []))))))))) := by
    simp only [r, recordBytes, List.append_assoc, List.append_nil]
  have length : r.length = 32 := by simp only [layout, List.length_append, length_leBytes, List.length_nil]
  refine ⟨length, ?_⟩
  rw [layout]
  simp only [fld_behind, Nat.reduceLeDiff, Nat.reduceSub]
  simp (disch := assumption) only [fld_leBytes, and_self]

/-- Settles O15: the row by what the command's own record leaves due, then the record's place and the step's record. -/
theorem completionRecords : Obligations.CompletionRecords := by
  unfold Obligations.CompletionRecords
  refine ⟨?order, fun s q bytes host => State.putRecord_host host bytes, State.stepRecord_eq⟩
  intro s q c f rest live core sound room oldest noStep u
  rw [exec_completionRecord live]
  exact ⟨fun plain => congrArg _ (State.nextRecord_plain core sound room oldest noStep plain),
    fun tag step space => congrArg _ (State.nextRecord_step core sound room oldest noStep step space)⟩

end Sys2Proof.Settled
end

/-! ## Proofs: time-outs of commands -/
section
namespace Sys2Proof.Machine
open Sys2Proof.Claims

/-! ### Time up to a time-out -/

theorem State.untilLive_frame (s : State) (l : Nat) : ∃ c rs,
    s.untilLive l = { s with clk := c, work := { s.work with runs := rs } } := by
  unfold State.untilLive
  split
  · exact ⟨s.clk, s.work.runs, rfl⟩
  · obtain ⟨c, rs, _, e⟩ := s.advance_frame (l - s.clk.live)
    exact ⟨c, rs, e⟩

section
variable (s : State) (l : Nat)
@[simp] theorem State.untilLive_qw : (s.untilLive l).qw = s.qw := by
  obtain ⟨c, rs, e⟩ := s.untilLive_frame l; rw [e]; rfl
@[simp] theorem State.untilLive_queue : (s.untilLive l).queue = s.queue := by
  obtain ⟨c, rs, e⟩ := s.untilLive_frame l; rw [e]; rfl
@[simp] theorem State.untilLive_ops : (s.untilLive l).work.ops = s.work.ops := by
  obtain ⟨c, rs, e⟩ := s.untilLive_frame l; rw [e]
end

theorem Run.idle_owner (r : Run) (m k : Nat) : (r.idle m k).owner = r.owner := by
  unfold Run.idle
  split
  · split <;> rfl
  · rfl

theorem State.advance_owners (s : State) (n : Nat) : (s.advance n).work.runs.map Run.owner = s.work.runs.map Run.owner := by
  unfold State.advance
  simp only
  split
  · rfl
  · rw [State.modWork_same, List.map_map]
    exact List.map_congr_left fun r _ => r.idle_owner _ _

/-- Time ends no run and gives none another owner. -/
theorem State.untilLive_owners (s : State) (l : Nat) :
    (s.untilLive l).work.runs.map Run.owner = s.work.runs.map Run.owner := by
  unfold State.untilLive
  split
  · rfl
  · exact s.advance_owners _

theorem find_owner_eq_none_iff (rs : List Run) (x : Nat) :
    rs.find? (fun r => r.owner == x) = none ↔ x ∉ rs.map Run.owner := by
  simp [List.find?_eq_none]

/-! ### A split command (R286) -/

theorem exec_partialCommandTimeout {s : State} {q since : Nat} (live : s.frozen = false)
    (split : (s.qw q).partialAt = some since) : exec (.partialCommandTimeout q) s = .next (s.partialOut q since) := by
  refine congrArg _ ((State.unlessFrozen_next live _).trans ?_)
  simp only [split]

/-- The command that a split one's time-out makes of it: BAD_LENGTH at LEN, and the queue will halt. -/
theorem State.partialOut_effect (s : State) (q since : Nat) : ∃ f,
    ((s.partialOut q since).qw q).finished = (s.qw q).finished ++ [f] ∧ f.status = ⟨0x0102, 2, 0⟩ ∧ f.halt = true ∧
    ((s.partialOut q since).qw q).partialAt = none ∧
    ((s.partialOut q since).queue q) = (s.queue q).advance (s.queue q).avail := by
  let t := s.untilLive (since + usRoot ((s.queue q).timeouts.getD 0 0).toNat)
  have work : t.qw q = s.qw q := by rw [State.untilLive_qw]
  have queue : t.queue q = s.queue q := by rw [State.untilLive_queue]
  refine ⟨?command, ?finished, ?status, ?halt, congrArg QueueWork.partialAt (State.modQw_same _ q _), ?queue⟩
  case finished =>
    refine (congrArg QueueWork.finished (State.modQw_same _ q _)).trans ?_
    exact congrArg (fun x : QueueWork => x.finished ++ _) work
  case status => rfl
  case halt => rfl
  case queue =>
    change (t.fresh.2.modQueue q (fun w => w.advance w.avail)).queue q = _
    exact (State.modQueue_same _ q _).trans (congrArg (fun w : Queue => w.advance w.avail) queue)

theorem Queue.advance_head (w : Queue) (n : Nat) :
    (w.advance n).head.toNat = (w.head.toNat + n) % 2 ^ w.sqLog.toNat % 2 ^ 16 := BitVec.toNat_ofNat _ _

/-! ### A command that waits (R296) -/

section
variable {s : State} {q : Nat}

theorem State.mayDispatch_waiting {c : Waiting} (waiting : (s.qw q).waiting = some c) (held : c.waitOk = false) (op : Nat) :
    s.mayDispatch q op = none := by
  simp [State.mayDispatch, waiting, held]

theorem State.waitingOut_header {c : Waiting} (held : c.waitOk = false) : s.waitingOut q c =
    ((s.untilLive (c.since + s.waitLimit q c.bytes)).endWaiting q ⟨0x0701, 0, 0⟩).pump q := by
  simp only [State.waitingOut, held, Bool.false_eq_true, if_false]
  rfl

variable (live : s.frozen = false)
include live

theorem exec_waitTimeout_waiting {c : Waiting} (waiting : (s.qw q).waiting = some c) (held : c.waitOk = false) :
    exec (.waitTimeout q 0) s = .next (s.waitingOut q c) := by
  refine congrArg _ ((State.unlessFrozen_next live _).trans ?_)
  simp [waiting, State.mayDispatch_waiting waiting held]

theorem exec_waitTimeout_executing {e : Exec} (work : e.id ≠ 0)
    (there : (s.qw q).executing.find? (fun x => x.id == e.id) = some e) (due : s.outDue e = true) :
    exec (.waitTimeout q e.id) s = .next ((s.untilLive (s.outSince e + s.waitLimit q e.bytes)).execOut q e) := by
  refine congrArg _ ((State.unlessFrozen_next live _).trans ?_)
  simp [work, there, due]

end

/-! ### An executing WAIT (R296) -/

section
variable {s : State} {e : Exec} (wait : cOp e.bytes = 0x04) (noRun : s.work.runs.find? (fun r => r.owner == e.id) = none)
include noRun

theorem State.outSince_noRun : s.outSince e = e.since := by
  simp [State.outSince, noRun]

include wait

theorem State.outDue_wait : s.outDue e = true := by
  simp [State.outDue, noRun, wait]

theorem State.execOut_wait (q : Nat) (noOp : s.work.ops.find? (fun o => o.owner == e.id && o.start.isNone) = none) :
    s.execOut q e = (s.modWork (fun w => { w with
      waiters := w.waiters.filter (fun x => x.id != e.id) })).finish q e.id [⟨0x0701, 1, 0⟩] := by
  simp only [State.execOut, noRun, noOp, wait]
  rfl

end

/-! ### A remote SIGNAL (R319) -/

theorem exec_remoteSignalTimeout {s : State} {id : Nat} {r : Remote} {rest : List Remote} (live : s.frozen = false)
    (there : takeFirst (fun x => x.id == id) s.work.remotes = some (r, rest)) :
    exec (.remoteSignalTimeout id) s = .next
      (((s.untilLive (r.since + s.mod.collTimeout.toNat * 6000)).modWork (fun w => { w with remotes := rest })).finish r.q
        r.id [⟨0x0502, r.node, 0⟩]) := by
  refine congrArg _ ((State.unlessFrozen_next live _).trans ?_)
  simp only [there]
  rfl

end Sys2Proof.Machine

namespace Sys2Proof.Settled
open Sys2Proof.Machine Sys2Proof.Claims

/-- Settles O16: each time-out lets time pass, which changes neither the queue nor whose runs there are, and then ends
the command. -/
theorem timeOuts : Obligations.TimeOuts := by
  unfold Obligations.TimeOuts
  refine ⟨?split, ?header, ?wait, ?remote⟩
  case split =>
    intro s q since live split
    obtain ⟨f, finished, status, halt, none, queue⟩ := s.partialOut_effect q since
    exact ⟨_, f, exec_partialCommandTimeout live split, finished, status, halt, none, by rw [queue, Queue.advance_head]⟩
  case header =>
    intro s q c live waiting held
    rw [exec_waitTimeout_waiting live waiting held, State.waitingOut_header held]
  case wait =>
    intro s q e live work there wait noRun noOp
    have stillNoRun : (s.untilLive (e.since + s.waitLimit q e.bytes)).work.runs.find? (fun r => r.owner == e.id) = none := by
      rw [find_owner_eq_none_iff, State.untilLive_owners, ← find_owner_eq_none_iff, noRun]
    rw [exec_waitTimeout_executing live work there (State.outDue_wait wait noRun), State.outSince_noRun noRun,
      State.execOut_wait wait stillNoRun q (by rw [State.untilLive_ops, noOp])]
  case remote =>
    intro s r rest live there
    exact exec_remoteSignalTimeout live there

end Sys2Proof.Settled
end

/-! ## Proofs: commands that are done at dispatch -/
section
namespace Sys2Proof.Machine
open Sys2Proof.Claims

/-! ### What dispatch asks (R289, R292) -/

/-- FENCE is dispatched alone: no earlier command of its queue executes or lacks its record. -/
theorem State.mayDispatch_fence {s : State} {q : Nat} {w : Waiting} (m : s.mayDispatch q 0x02 = some w) :
    (s.qw q).executing = [] ∧ (s.qw q).finished = [] := by
  unfold State.mayDispatch at m
  cases waiting : (s.qw q).waiting with
  | none => simp [waiting] at m
  | some c =>
    simp only [waiting, Option.ite_none_right_eq_some, Bool.and_eq_true] at m
    obtain ⟨⟨⟨_, alone⟩, _⟩, _⟩ := m
    simpa using alone

/-! ### The rows (R299) -/

theorem queueRows_dispatch (q : Nat) (s : State) :
    ∀ r ∈ queueRows q, ∃ body, exec r.1 s = .next (s.dispatch q r.2 body) := by
  simp only [queueRows, List.forall_mem_cons, List.not_mem_nil, false_imp_iff, implies_true, and_true]
  and_intros <;> exact ⟨_, rfl⟩

theorem collRows_dispatch (q : Nat) (s : State) :
    ∀ r ∈ collRows q, ∃ body, exec r.1 s = .next (s.dispatch q r.2 body).collsGo := by
  simp only [collRows, List.forall_mem_cons, List.not_mem_nil, false_imp_iff, implies_true, and_true]
  and_intros <;> exact ⟨_, rfl⟩

theorem groupRows_dispatch (q : Nat) (s : State) :
    ∀ r ∈ [(Instr.updateStep q, 0x40), (.rootRefresh q, 0x41), (.groupWrite q, 0x42)],
      ∃ body, exec r.1 s = .next (s.groupDispatch q r.2 body) := by
  simp only [List.forall_mem_cons, List.not_mem_nil, false_imp_iff, implies_true, and_true]
  exact ⟨⟨_, exec_updateStep q s⟩, ⟨_, exec_rootRefresh q s⟩, ⟨_, exec_groupWrite q s⟩⟩

/-! ### The table of R299 -/

theorem legal_running (op : Nat) : legal op 1 = true := rfl
theorem legal_absent (op : Nat) : legal op 0 = false := rfl

theorem legal_quiesced (op : Nat) : legal op 3 = true ↔
    op ∈ [0x01, 0x02, 0x70, 0x71, 0x03, 0x04, 0x7E, 0x12, 0x30, 0x31, 0x33, 0x42] := by
  have table : legal op 3 = ([0x01, 0x02, 0x70, 0x71].contains op ||
    [0x03, 0x04, 0x7E, 0x12, 0x30, 0x31, 0x33, 0x42].contains op) := rfl
  rw [table, Bool.or_eq_true, List.contains_iff_mem, List.contains_iff_mem, ← List.mem_append]
  rfl

theorem legal_failover (op : Nat) : legal op 6 = false ↔ op = 0x51 ∨ op = 0x61 := by
  have table : legal op 6 = !([0x51, 0x61].contains op) := rfl
  rw [table, Bool.not_eq_false', List.contains_iff_mem, List.mem_pair]

theorem legal_faulted (op : Nat) : legal op 5 = true ↔ op ∈ [0x01, 0x02, 0x70, 0x71] := List.contains_iff_mem

/-! ### The work of the four commands (R292, R307, R314, R317) -/

@[simp] theorem State.startAt_firstDie (s : State) (q id n p : Nat) : (s.startAt q id n).firstDie p = s.firstDie p := by
  obtain ⟨a, bs, rs, os, m, k, e⟩ := s.startAt_frame q id n; rw [e]; rfl

section
variable {s : State} {q : Nat} {b : List Byte} (id : Nat)

/-- The object that a command names by its partition's own identifier. -/
def State.namedObj (s : State) (q : Nat) (b : List Byte) : Nat :=
  bits (fld b 16 4) 0 18 + s.firstDie (partOf s q) * 32768

theorem State.signalBody_local (here : bit (fld b 22 2) 15 = false) : s.signalBody q id b =
    ((s.startAt q id s.mclk).syncOp (s.namedObj q b) (fld b 20 1) (fld b 24 8)).finish q id [⟨0, 0, 0⟩] := by
  simp only [State.signalBody, here, Bool.false_eq_true, if_false, State.physObj, State.startAt_firstDie]
  rfl

theorem State.waitBody_past (time : fld b 20 1 = 0) (past : fld b 32 8 ≤ s.sclk) :
    s.waitBody q id b = (s.startAt q id s.mclk).finish q id [⟨0, 0, 0⟩] := by
  simp only [State.waitBody, time, past, State.startAt_sclk, if_true]
  rfl

theorem State.waitBody_later (time : fld b 20 1 = 0) (later : s.sclk < fld b 32 8) :
    s.waitBody q id b = s.startAt q id s.mclk := by
  simp only [State.waitBody, time, later.not_ge, State.startAt_sclk, if_true, if_false]

theorem State.waitBody_object (object : fld b 20 1 ≠ 0) : s.waitBody q id b =
    (s.startAt q id s.mclk).beginWait id (s.namedObj q b) (.command q id) (.cond (fld b 20 1) (fld b 24 8)) := by
  simp only [State.waitBody, object, if_false, State.physObj, State.startAt_firstDie, State.startAt_queue]
  rfl

end

/-! ### The rows dispatched -/

section
variable {s : State} {q : Nat} {w : Waiting}

theorem exec_nop (h : Dispatches s q 0x01 w) :
    exec (.nop q) s = .next (((started s q w).finish q w.id [⟨0, 0, 0⟩]).pump q) :=
  congrArg _ (State.dispatch_ok h.1 h.2 rfl)

/-- A FENCE begun: the queue fetches nothing behind it. -/
def fenceBegun (s : State) (q : Nat) (w : Waiting) : State := (begun s q w).modQw q (fun x => { x with fence := true })

theorem exec_fence (h : Dispatches s q 0x02 w) : exec (.fence q) s =
    .next ((((fenceBegun s q w).startAt q w.id s.mclk).finish q w.id [⟨0, 0, 0⟩]).pump q) :=
  congrArg _ (State.dispatch_ok h.1 h.2 rfl)

theorem exec_signal_local (h : Dispatches s q 0x03 w) (here : bit (fld w.bytes 22 2) 15 = false) :
    exec (.signal q) s = .next ((((started s q w).syncOp (s.namedObj q w.bytes) (fld w.bytes 20 1)
      (fld w.bytes 24 8)).finish q w.id [⟨0, 0, 0⟩]).pump q).collsGo :=
  congrArg (Host.Outcome.next ∘ State.collsGo) (State.dispatch_ok h.1 h.2 (congrArg _ (State.signalBody_local _ here)))

theorem exec_wait {t : State} (h : Dispatches s q 0x04 w) (body : (begun s q w).waitBody q w.id w.bytes = t) :
    exec (.wait q) s = .next (t.pump q) :=
  congrArg _ (State.dispatch_ok h.1 h.2 (congrArg _ body))

end

/-! ### What a START and an end leave of the queue -/

section
variable (s : State) (q id n : Nat)

@[simp] theorem State.resetBank_qw (b : Nat) : (s.resetBank b).qw = s.qw := by
  obtain ⟨bs, rs, os, m, p, e⟩ := s.resetBank_frame b; rw [e]; rfl

theorem State.startAt_fence : ((s.startAt q id n).qw q).fence = (s.qw q).fence := by
  have onExec (f : Exec → Exec) : ((s.modQw q (fun x => x.onExec id f)).qw q).fence = (s.qw q).fence :=
    by rw [State.modQw_same, QueueWork.onExec]
  unfold State.startAt
  simp only
  split
  · split
    · rw [State.resetBank_qw, onExec]
    · exact onExec _
  · rfl

theorem State.foldl_modBank_frame {α : Type} (b : Nat) (f : State → α → Bank → Bank) (l : List α) :
    ∃ bs, l.foldl (fun s a => s.modBank b (f s a)) s = { s with banks := bs } := by
  induction l generalizing s with
  | nil => exact ⟨s.banks, rfl⟩
  | cons a l ih =>
    obtain ⟨bs, e⟩ := ih (s.modBank b (f s a))
    exact ⟨bs, e⟩

theorem State.banks_trans {s t u : State} (h : ∃ bs, t = { s with banks := bs }) (k : ∃ bs, u = { t with banks := bs }) :
    ∃ bs, u = { s with banks := bs } := by
  obtain ⟨_, rfl⟩ := h
  exact k

/-- Counting the idle mclk of a bank, of runs and then of operators, changes banks only. -/
theorem State.tally_frame (b : Nat) : ∃ bs, s.tally b = { s with banks := bs } :=
  State.banks_trans (State.foldl_modBank_frame s b _ _) (State.foldl_modBank_frame _ b _ _)

section
variable (es : List Earned)

@[simp] theorem State.finish_queue : (s.finish q id es).queue = s.queue := by
  obtain ⟨bs, e⟩ := s.tally_frame (s.bankOf q)
  unfold State.finish State.finishAt
  split
  · rfl
  · rw [e]; rfl

theorem State.finish_fence : ((s.finish q id es).qw q).fence = (s.qw q).fence := by
  obtain ⟨bs, e⟩ := s.tally_frame (s.bankOf q)
  unfold State.finish State.finishAt
  split
  · rfl
  · rw [e, State.modQw_same]; rfl

end
end

end Sys2Proof.Machine

namespace Sys2Proof.Settled
open Sys2Proof.Machine Sys2Proof.Claims

/-- Settles O17: each command dispatched, its body by what its fields ask. -/
theorem commandsDoneAtDispatch : Obligations.CommandsDoneAtDispatch := by
  unfold Obligations.CommandsDoneAtDispatch
  intro s q w
  exact ⟨exec_nop, exec_fence, exec_signal_local,
    fun h time past => exec_wait h (State.waitBody_past _ time past),
    fun h time later => exec_wait h (State.waitBody_later _ time later),
    fun h object => exec_wait h (State.waitBody_object _ object)⟩

/-- Settles O18: FENCE sets the queue's mark, which its START and its end keep, and a queue so marked fetches nothing. -/
theorem fenceOrdersTheQueue : Obligations.FenceOrdersTheQueue := by
  unfold Obligations.FenceOrdersTheQueue
  refine ⟨fun _ _ _ => State.mayDispatch_fence, fun _ _ => State.mayFetch_fence, ?_⟩
  intro s q w h
  let u := ((fenceBegun s q w).startAt q w.id s.mclk).finish q w.id [⟨0, 0, 0⟩]
  have fence : (u.qw q).fence = true := by
    rw [State.finish_fence, State.startAt_fence, fenceBegun, State.modQw_same]
  have row : exec (.fence q) s = .next u := by
    rw [exec_fence h, State.pump_of_not_mayFetch (State.mayFetch_fence fence)]
  have queue : u.queue q = s.queue q := by
    rw [State.finish_queue, State.startAt_queue]
    rfl
  exact ⟨u, row, fence, by rw [queue]⟩

/-- Settles O24: the table by its rows, and a dispatch by what the state check answers. -/
theorem partitionStateRules : Obligations.PartitionStateRules := by
  unfold Obligations.PartitionStateRules
  refine ⟨?table, ?illegal, ?idle⟩
  case table =>
    intro op
    exact ⟨legal_running op, legal_absent op, legal_quiesced op, legal_failover op, legal_faulted op⟩
  case illegal =>
    intro s q op w c m illegal
    have conflict (body) := State.dispatch_illegal m illegal body
    refine ⟨fun row => ?_, fun row => ?_, fun row go => ?_⟩
    · obtain ⟨body, dispatches⟩ := queueRows_dispatch q s _ row
      rw [dispatches, conflict]; rfl
    · obtain ⟨body, dispatches⟩ := collRows_dispatch q s _ row
      rw [dispatches, conflict]; rfl
    · obtain ⟨body, dispatches⟩ := groupRows_dispatch q s _ row
      rw [dispatches, State.groupDispatch_next go, conflict]; rfl
  case idle =>
    intro s q op c m row
    obtain ⟨body, dispatches⟩ := queueRows_dispatch q s _ row
    rw [dispatches, State.dispatch_none m]

end Sys2Proof.Settled
end

/-! ## Proofs: waiters of synchronisation objects -/
section
namespace Sys2Proof.Machine
open Sys2Proof.Claims

/-! ### An operation of the matching type (R314) -/

/-- EVENT_SET sets the event, notifies the bound tiles if it was clear, and tests the waiters. -/
theorem State.syncOp_eventSet {s : State} {o : Nat} (event : (s.obj o).type = 3) : s.syncOp o 0x01 0 =
    (noticed (s.setObj o ⟨3, 1⟩) o (bit (s.obj o).value.toNat 0 = false)).testWaiters o := by
  simp only [State.syncOp, opType, opEffect, event, noticed]
  simp

theorem exec_eventSet {s : State} {o : Nat} (live : s.frozen = false) (event : (s.obj o).type = 3) :
    exec (.eventSet o) s =
      .next ((noticed (s.setObj o ⟨3, 1⟩) o (bit (s.obj o).value.toNat 0 = false)).testWaiters o) :=
  congrArg _ ((State.unlessFrozen_next live _).trans (State.syncOp_eventSet event))

section
variable (s : State) (o : Nat) (yes : Prop) [Decidable yes]
@[simp] theorem noticed_obj : (noticed s o yes).obj = s.obj := by unfold noticed; split <;> rfl
@[simp] theorem noticed_qw : (noticed s o yes).qw = s.qw := by unfold noticed; split <;> rfl
@[simp] theorem noticed_waiters : (noticed s o yes).work.waiters = s.work.waiters := by unfold noticed; split <;> rfl
end

/-! ### The waiters tested in order (R316, R318) -/

section
variable {s : State} {o : Nat}

theorem State.testList_unmet {ws : List Waiter} (unmet : ∀ x ∈ ws, condHolds (s.obj o) x.cond x.gen = false) :
    s.testList o ws = s := by
  induction ws with
  | nil => rfl
  | cons x ws ih =>
    obtain ⟨first, rest⟩ := List.forall_mem_cons.mp unmet
    rw [State.testList, first, Bool.false_and, if_neg Bool.false_ne_true, ih rest]

theorem State.testList_met {w : Waiter} {ws : List Waiter} (met : condHolds (s.obj o) w.cond w.gen = true)
    (past : s.timePast w = true) :
    s.testList o (w :: ws) = ((s.setObj o (condAct (s.obj o) w.cond)).satisfy w).testList o ws := by
  rw [State.testList, met, past, Bool.and_self, if_pos rfl]

end

section
variable {s : State} {w : Waiter} {q : Nat} (header : w.who = .header q)
include header

theorem State.timePast_header : s.timePast w = true := by rw [State.timePast, header]

theorem State.satisfy_header : s.satisfy w =
    (s.modWork (fun x => { x with waiters := x.waiters.filter (fun u => u.id != w.id) })).modQw q (fun x => { x with
      waiting := x.waiting.map (fun c => if c.id = w.id then { c with waitOk := true } else c) }) := by
  simp only [State.satisfy, header, beq_iff_eq]

theorem State.satisfy_obj : (s.satisfy w).obj = s.obj := by rw [State.satisfy_header header]; rfl

theorem State.satisfy_waiters : (s.satisfy w).work.waiters = s.work.waiters.filter (fun u => u.id != w.id) := by
  rw [State.satisfy_header header]; rfl

theorem State.satisfy_waiting : ((s.satisfy w).qw q).waiting =
    (s.qw q).waiting.map (fun c => if c.id = w.id then { c with waitOk := true } else c) := by
  rw [State.satisfy_header header, State.modQw_same]; rfl

theorem State.satisfy_others {k : Nat} (other : k ≠ q) : (s.satisfy w).qw k = s.qw k := by
  rw [State.satisfy_header header, State.modQw_other _ _ other]; rfl

end

/-- Of header waits that clear the event, the first is satisfied, and then no other. -/
theorem State.testList_clearing {s : State} {o q : Nat} {w : Waiter} {ws : List Waiter} (set : s.obj o = ⟨3, 1⟩)
    (header : w.who = .header q) (clears : ∀ x ∈ w :: ws, x.cond = .code 2) :
    s.testList o (w :: ws) = (s.setObj o ⟨3, 0⟩).satisfy w := by
  obtain ⟨first, rest⟩ := List.forall_mem_cons.mp clears
  have met : condHolds (s.obj o) w.cond w.gen = true := by rw [set, first]; rfl
  have cleared : condAct (s.obj o) w.cond = ⟨3, 0⟩ := by rw [set, first]; rfl
  have now : ((s.setObj o ⟨3, 0⟩).satisfy w).obj o = ⟨3, 0⟩ := by rw [State.satisfy_obj header, State.setObj_same]
  rw [State.testList_met met (State.timePast_header header), cleared]
  exact State.testList_unmet fun x later => by rw [now, rest x later]; rfl

/-! ### A polling waiter (R190, R316, R318) -/

/-- The state in which a waiter polls next. -/
def State.atPoll (s : State) (x : Waiter) : State := s.advance (3 * (x.polled + 256 - s.nclk))

/-- A polling waiter is satisfied: its condition and its time hold, and no registered taker is before it. -/
def State.pollMet (s : State) (x : Waiter) : Prop :=
  condHolds (s.obj x.obj) x.cond x.gen = true ∧ s.timePast x = true ∧ ¬(x.cond = .code 3 ∧ s.takers x.obj = true)

theorem State.pollMet_iff (s : State) (x : Waiter) : (condHolds (s.obj x.obj) x.cond x.gen && s.timePast x &&
    !(x.cond == .code 3 && s.takers x.obj)) = true ↔ s.pollMet x := by
  simp [State.pollMet, and_assoc, imp_iff_not_or]

section
variable {s : State} {x : Waiter}

theorem State.poll_met (met : (s.atPoll x).pollMet x) : s.poll x =
    ((s.atPoll x).setObj x.obj (condAct ((s.atPoll x).obj x.obj) x.cond)).satisfy x :=
  if_pos ((State.pollMet_iff _ x).mpr met)

theorem State.poll_unmet (unmet : ¬(s.atPoll x).pollMet x) : s.poll x = (s.atPoll x).modWork (fun k => { k with
    waiters := k.waiters.filter (fun y => y.id != x.id) ++
      [{ x with registered := decide ((s.atPoll x).slotsUsed (x.obj / 32768) < 8192), polled := (s.atPoll x).nclk }] }) :=
  if_neg (mt (State.pollMet_iff _ x).mp unmet)

theorem exec_waiterPoll {n : Nat} (live : s.frozen = false)
    (there : s.work.waiters.find? (fun x => x.id == n && !x.registered) = some x) :
    exec (.waiterPoll n) s = .next (s.poll x) := by
  refine congrArg _ ((State.unlessFrozen_next live _).trans ?_)
  simp only [there]

end

/-! ### A WAIT for a time (R317) -/

theorem exec_notBeforeReached_time {s : State} {q id : Nat} {e : Exec} (live : s.frozen = false)
    (there : (s.qw q).executing.find? (fun e => e.id == id && cOp e.bytes == 4) = some e) (time : fld e.bytes 20 1 = 0) :
    exec (.notBeforeReached q id) s =
      .next ((s.untilRoot (60 * fld e.bytes 32 8)).finish q id [⟨stDone, 0, 0⟩]) := by
  refine congrArg _ ((State.unlessFrozen_next live _).trans ?_)
  simp only [State.notBefore, there, time, if_true]

end Sys2Proof.Machine

namespace Sys2Proof.Settled
open Sys2Proof.Machine Sys2Proof.Claims

/-- Settles O10: the first of the clearing waits takes the event; a poll by whether it is met; a WAIT for its time. -/
theorem waitersAndPolls : Obligations.WaitersAndPolls := by
  unfold Obligations.WaitersAndPolls
  refine ⟨?clearing, ?poll, fun s q id e => exec_notBeforeReached_time⟩
  case clearing =>
    intro s o q w ws live event registered header clears _
    let u := noticed (s.setObj o ⟨3, 1⟩) o (bit (s.obj o).value.toNat 0 = false)
    have set : u.obj o = ⟨3, 1⟩ := by rw [noticed_obj, State.setObj_same]
    have waiters : u.work.waiters = s.work.waiters := noticed_waiters _ _ _
    have work : (u.setObj o ⟨3, 0⟩).qw = s.qw := noticed_qw _ _ _
    have tested : u.testWaiters o = (u.setObj o ⟨3, 0⟩).satisfy w := by
      rw [State.testWaiters, waiters, registered, State.testList_clearing set header clears]
    refine ⟨_, (exec_eventSet live event).trans (congrArg _ tested), ?_, ?_, ?_, fun k other => ?_⟩
    · rw [State.satisfy_obj header, State.setObj_same]
    · exact (State.satisfy_waiters header).trans (congrArg (List.filter _) waiters)
    · rw [State.satisfy_waiting header, work]
    · rw [State.satisfy_others header other, work]
  case poll =>
    intro s n x live there u holds
    exact ⟨fun met => (exec_waiterPoll live there).trans (congrArg _ (State.poll_met met)),
      fun unmet => (exec_waiterPoll live there).trans (congrArg _ (State.poll_unmet unmet))⟩

end Sys2Proof.Settled
end

/-! ## Proofs: synchronisation operations and swap notices -/
section
namespace Sys2Proof.Machine
open Sys2Proof.Claims

/-! ### An operation, by whether the object has the type it needs (R314, R315) -/

/-- Object `o` has the type that operation `op` needs, if it needs one. -/
def State.opFits (s : State) (o op : Nat) : Prop := ∀ ty, opType op = some ty → (s.obj o).type.toNat = ty

/-- TYPE_MISMATCH of the die of object `o` counts one more (R315). -/
def State.countMismatch (s : State) (o : Nat) : State :=
  { s with mismatch := Tbl.set 0 s.mismatch (o / 32768) (BitVec.ofNat 32
      (min ((Tbl.get 0 s.mismatch (o / 32768)).toNat + 1) (2 ^ 32 - 1))) }

section
variable {s : State} {o op v : Nat} {ty : BitVec 2}

theorem State.opFits_of_type (type : (s.obj o).type = ty) (needs : opType op = some ty.toNat) : s.opFits o op := by
  intro ty' needs'
  rw [type]
  exact Option.some.inj (needs.symm.trans needs')

theorem State.opFits_of_none (needs : opType op = none) : s.opFits o op := by
  intro ty needs'
  rw [needs] at needs'
  cases needs'

theorem State.syncOp_mismatch (needs : opType op = some ty.toNat) (other : (s.obj o).type ≠ ty) :
    s.syncOp o op v = s.countMismatch o := by
  have differs : (s.obj o).type.toNat ≠ ty.toNat := mt BitVec.eq_of_toNat_eq other
  simp only [State.syncOp, needs, bne_iff_ne, ne_eq, differs, not_false_eq_true, if_true, satAdd]
  rfl

/-- An operation that fits writes its effect, notifies the bound tiles if it is to, and tests the waiters. -/
theorem State.syncOp_fits {x : Obj} {yes : Prop} [Decidable yes] (fits : s.opFits o op)
    (effect : opEffect (s.obj o) op v (s.takers o) = (x, decide yes)) :
    s.syncOp o op v = (noticed (s.setObj o x) o yes).testWaiters o := by
  unfold State.syncOp
  cases needs : opType op with
  | none => simp only [effect, Bool.false_eq_true, if_false, decide_eq_true_eq]; rfl
  | some ty =>
    simp only [effect, fits ty needs, bne_self_eq_false, Bool.false_eq_true, if_false, decide_eq_true_eq]
    rfl

theorem State.syncOp_silent {x : Obj} (fits : s.opFits o op)
    (effect : opEffect (s.obj o) op v (s.takers o) = (x, false)) :
    s.syncOp o op v = (s.setObj o x).testWaiters o :=
  State.syncOp_fits (yes := False) fits effect

end

/-! ### The effects (R314) -/

section
variable {x : Obj} (v : Nat) (takers : Bool)

theorem Obj.withValue_of_type {ty : BitVec 2} (type : x.type = ty) (y : BitVec 64) : { x with value := y } = Obj.mk ty y := by
  rw [type]

theorem opEffect_eventClear (event : x.type = 3) : opEffect x 0x02 v takers = (⟨3, 0⟩, false) :=
  congrArg (·, false) (Obj.withValue_of_type event 0)

theorem opEffect_semPost (sem : x.type = 1) : opEffect x 0x03 v takers =
    (⟨1, BitVec.ofNat 64 (min (bits x.value.toNat 0 32 + v % 2 ^ 32) (2 ^ 32 - 1))⟩, true) :=
  congrArg (·, true) (Obj.withValue_of_type sem _)

/-- SEM_TRY takes only from a count above 0 with no taker registered. -/
theorem opEffect_semTry (sem : x.type = 1) : opEffect x 0x04 v takers =
    (⟨1, if 0 < x.value.toNat ∧ takers = false then BitVec.ofNat 64 (x.value.toNat - 1) else x.value⟩, false) := by
  simp only [opEffect, Bool.and_eq_true, decide_eq_true_eq, Bool.not_eq_true']
  split
  · rw [sem]
  · rw [← sem]

theorem opEffect_counterAdd (counter : x.type = 0) : opEffect x 0x05 v takers =
    (⟨0, x.value + BitVec.ofNat 64 v⟩, decide (0 < signed 64 v)) :=
  congrArg (·, decide (0 < signed 64 v)) (Obj.withValue_of_type counter _)

theorem opEffect_counterSet (counter : x.type = 0) : opEffect x 0x06 v takers = (⟨0, BitVec.ofNat 64 v⟩, false) :=
  congrArg (·, false) (Obj.withValue_of_type counter _)

/-- A BARRIER_ARRIVE that completes the generation begins the next; another only counts. -/
theorem opEffect_barrierArrive (barrier : x.type = 2) :
    let gen := bits x.value.toNat 0 32
    let arrivals := bits x.value.toNat 32 16 + 1
    let expected := bits x.value.toNat 48 16
    opEffect x 0x07 v takers = (⟨2, BitVec.ofNat 64
      (if arrivals = expected then (gen + 1) % 2 ^ 32 + expected * 2 ^ 48
       else gen + arrivals % 2 ^ 16 * 2 ^ 32 + expected * 2 ^ 48)⟩, decide (arrivals = expected)) := by
  intro gen arrivals expected
  by_cases completes : arrivals = expected
  · rw [if_pos completes, decide_eq_true completes, ← barrier]
    exact if_pos completes
  · rw [if_neg completes, decide_eq_false completes, ← barrier]
    exact if_neg completes

end

/-! ### The rows (R314) -/

theorem exec_unlessFrozen {s t : State} {c : Instr} {f : State → State} (live : s.frozen = false)
    (row : exec c s = .next (s.unlessFrozen f)) (effect : f s = t) : exec c s = .next t := by
  rw [row, State.unlessFrozen_next live, effect]

/-- Each row performs the one operation that needs its type; those of a COUNTER let the collectives go on. -/
theorem syncRows_syncOp (o v : Nat) : ∀ r ∈ syncRows o v, ∃ op x, opType op = some r.2.toNat ∧
    ∀ s : State, s.frozen = false →
      exec r.1 s = .next (s.syncOp o op x) ∨ exec r.1 s = .next (s.syncOp o op x).collsGo := by
  simp only [syncRows, List.forall_mem_cons, List.not_mem_nil, false_imp_iff, implies_true, and_true]
  exact ⟨⟨0x01, 0, rfl, fun _ live => .inl (exec_unlessFrozen live rfl rfl)⟩,
    ⟨0x02, 0, rfl, fun _ live => .inl (exec_unlessFrozen live rfl rfl)⟩,
    ⟨0x03, v, rfl, fun _ live => .inl (exec_unlessFrozen live rfl rfl)⟩,
    ⟨0x04, 0, rfl, fun _ live => .inl (exec_unlessFrozen live rfl rfl)⟩,
    ⟨0x05, v, rfl, fun _ live => .inr (exec_unlessFrozen live rfl rfl)⟩,
    ⟨0x06, v, rfl, fun _ live => .inr (exec_unlessFrozen live rfl rfl)⟩,
    ⟨0x07, 0, rfl, fun _ live => .inl (exec_unlessFrozen live rfl rfl)⟩⟩

theorem State.collsGo_of_colls_nil {s : State} (idle : s.work.colls = []) : s.collsGo = s := by
  have work : { s.work with colls := [] } = s.work := by rw [← idle]
  simp only [State.collsGo, idle, List.filter_nil, List.foldl_nil, List.length_nil, State.startN, State.collTimers,
    State.modWork, List.map_nil, work]

/-! ### A swap notice (R271, R328) -/

theorem State.swapBound_eq (s : State) (tile o : Nat) : s.swapBound tile o = s.modTile tile (fun t => { t with
    pairs := t.pairs.map (fun x => (x.1,
      if x.2.enable ∧ x.2.syncEn ∧ x.2.swapSync.toNat + s.firstDie (s.partOfTile tile) * 32768 = o
      then { x.2 with role := !x.2.role, generation := x.2.generation + 1 } else x.2)) }) := by
  simp only [State.swapBound, State.physObj, HalfPair.swap, Bool.and_eq_true, beq_iff_eq, and_assoc]

theorem exec_swapNotice {s : State} {tile o : Nat} {rest : List (Nat × Nat)} (live : s.frozen = false)
    (next : takeFirst (fun x => x.1 == tile) s.work.notices = some ((tile, o), rest)) :
    exec (.swapNotice tile) s =
      .next ((s.modWork (fun w => { w with notices := rest })).swapBound tile o).collsGo := by
  refine exec_unlessFrozen live rfl ?_
  simp only [next]

end Sys2Proof.Machine

namespace Sys2Proof.Settled
open Sys2Proof.Machine Sys2Proof.Claims

/-- Settles O6: each operation fits its object and has an effect without a notice. -/
theorem syncOperationsWithoutNotice : Obligations.SyncOperationsWithoutNotice := by
  unfold Obligations.SyncOperationsWithoutNotice
  intro s o v live
  have init {op : Nat} (needs : opType op = none) : s.opFits o op := State.opFits_of_none needs
  refine ⟨fun event => exec_unlessFrozen live rfl ?clear, fun sem => exec_unlessFrozen live rfl ?take,
    fun counter => exec_unlessFrozen live rfl (congrArg State.collsGo ?set),
    exec_unlessFrozen live rfl (congrArg State.collsGo (State.syncOp_silent (init rfl) rfl)),
    exec_unlessFrozen live rfl (State.syncOp_silent (init rfl) rfl),
    exec_unlessFrozen live rfl (State.syncOp_silent (init rfl) rfl),
    exec_unlessFrozen live rfl (State.syncOp_silent (init rfl) rfl)⟩
  case clear => exact State.syncOp_silent (State.opFits_of_type event rfl) (opEffect_eventClear _ _ event)
  case take => exact State.syncOp_silent (State.opFits_of_type sem rfl) (opEffect_semTry _ _ sem)
  case set => exact State.syncOp_silent (State.opFits_of_type counter rfl) (opEffect_counterSet _ _ counter)

/-- Settles O7: each operation fits its object, and its effect says whether there is a notice. -/
theorem syncOperationsWithNotice : Obligations.SyncOperationsWithNotice := by
  unfold Obligations.SyncOperationsWithNotice
  intro s o v live
  refine ⟨exec_eventSet live, fun sem => exec_unlessFrozen live rfl ?post,
    fun counter => exec_unlessFrozen live rfl (congrArg State.collsGo ?add),
    fun barrier => exec_unlessFrozen live rfl ?arrive⟩
  case post => exact State.syncOp_fits (State.opFits_of_type sem rfl) (opEffect_semPost _ _ sem)
  case add => exact State.syncOp_fits (State.opFits_of_type counter rfl) (opEffect_counterAdd _ _ counter)
  case arrive => exact State.syncOp_fits (State.opFits_of_type barrier rfl) (opEffect_barrierArrive _ _ barrier)

/-- Settles O8: the operation counts the mismatch, and with no collective in progress nothing goes on. -/
theorem typeMismatchHasNoEffect : Obligations.TypeMismatchHasNoEffect := by
  unfold Obligations.TypeMismatchHasNoEffect
  intro s o v c ty row live other idle
  obtain ⟨op, x, needs, performs⟩ := syncRows_syncOp o v _ row
  have counts : s.syncOp o op x = s.countMismatch o := State.syncOp_mismatch needs other
  have still : (s.countMismatch o).collsGo = s.countMismatch o := State.collsGo_of_colls_nil idle
  rcases performs s live with e | e
  · rw [e, counts]; rfl
  · rw [e, counts, still]; rfl

/-- Settles O9: the notice leaves the list, which no pair's binding depends on, and its pairs swap. -/
theorem swapNoticeSwapsBoundPairs : Obligations.SwapNoticeSwapsBoundPairs := by
  unfold Obligations.SwapNoticeSwapsBoundPairs
  intro s tile o rest live next
  rw [exec_swapNotice live next, State.swapBound_eq]
  rfl

end Sys2Proof.Settled
end

/-! ## Proofs: half swaps and transfers at dispatch -/
section
namespace Sys2Proof.Machine
open Sys2Proof.Claims

/-! ### HALF_SWAP (R327) -/

/-- The half pairs that a HALF_SWAP names by PAIR_MASK. -/
def maskPairs (b : List Byte) : List Nat := (List.range 16).filter (fun n => bit (fld b 20 2) n)

/-- Half pair `n` of tile `t` is not for a command to swap. -/
def State.swapBarred (s : State) (t n : Nat) : Prop :=
  (s.pair t n).enable = false ∨ (s.pair t n).syncEn = true ∨ s.pairInChain t n = true

/-- The half pairs `ns` of tile `t` swap. -/
def State.swapPairs (s : State) (t : Nat) (ns : List Nat) : State := ns.foldl (fun s n => s.modPair t n HalfPair.swap) s

theorem State.swapPairs_clk (s : State) (t : Nat) (ns : List Nat) : (s.swapPairs t ns).clk = s.clk := by
  induction ns generalizing s with
  | nil => rfl
  | cons n ns ih => exact ih (s.modPair t n HalfPair.swap)

@[simp] theorem State.swapPairs_mclk (s : State) (t : Nat) (ns : List Nat) : (s.swapPairs t ns).mclk = s.mclk := by
  unfold State.mclk
  rw [State.swapPairs_clk]

theorem State.swapBarred_any_iff (s : State) (t : Nat) (ns : List Nat) :
    (ns.any (fun n => !(s.pair t n).enable || (s.pair t n).syncEn || s.pairInChain t n)) = true ↔
      ∃ n ∈ ns, s.swapBarred t n := by
  simp only [List.any_eq_true, Bool.or_eq_true, Bool.not_eq_true', or_assoc, State.swapBarred]

/-- The kind and the index of a conflict share a word; a tile's number needs no cut. -/
theorem conflictAt_eq {kind index : Nat} (small : index < 65536) : conflictAt kind index = kind + index * 65536 := by
  rw [conflictAt, Nat.mod_eq_of_lt small]

theorem bits_lt (w lo n : Nat) : bits w lo n < 2 ^ n := Nat.mod_lt _ (Nat.two_pow_pos n)

/-- The local number of the tile that a HALF_SWAP names. -/
def swapTile (b : List Byte) : Nat := bits (fld b 16 2) 0 11

section
variable {s : State} {q : Nat} {b : List Byte} (id : Nat)

theorem State.halfSwapBody_barred
    (barred : ∃ n ∈ maskPairs b, s.swapBarred (s.physTile (partOf s q) (swapTile b)) n) :
    s.halfSwapBody q id b = .error ⟨0x0104, 4 + swapTile b * 65536, 0⟩ := by
  have small : swapTile b < 65536 := (bits_lt _ 0 11).trans (by decide)
  rw [← conflictAt_eq small]
  exact if_pos ((State.swapBarred_any_iff _ _ _).mpr barred)

theorem State.halfSwapBody_free
    (free : ¬∃ n ∈ maskPairs b, s.swapBarred (s.physTile (partOf s q) (swapTile b)) n) :
    s.halfSwapBody q id b =
      .ok (((s.startAt q id s.mclk).swapPairs (s.physTile (partOf s q) (swapTile b)) (maskPairs b)).finishAt q id
        (s.mclk + 1) [⟨0, 0, 0⟩]) := by
  let u := (s.startAt q id s.mclk).swapPairs (s.physTile (partOf s q) (swapTile b)) (maskPairs b)
  have time : u.mclk = s.mclk := by rw [State.swapPairs_mclk, State.startAt_mclk]
  exact (if_neg (mt (State.swapBarred_any_iff _ _ _).mp free)).trans
    (congrArg (fun m => Except.ok (u.finishAt q id (m + 1) [⟨0, 0, 0⟩])) time)

end

section
variable {s : State} {q : Nat} {w : Waiting} (h : Dispatches s q 0x33 w)
include h

theorem exec_halfSwap_barred
    (barred : ∃ n ∈ maskPairs w.bytes, s.swapBarred (s.physTile (partOf s q) (swapTile w.bytes)) n) :
    exec (.halfSwap q) s = .next ((s.endWaiting q ⟨0x0104, 4 + swapTile w.bytes * 65536, 0⟩).pump q) :=
  congrArg _ (State.dispatch_error h.1 h.2 (State.halfSwapBody_barred (s := begun s q w) w.id barred))

theorem exec_halfSwap_free
    (free : ¬∃ n ∈ maskPairs w.bytes, s.swapBarred (s.physTile (partOf s q) (swapTile w.bytes)) n) :
    exec (.halfSwap q) s = .next ((((started s q w).swapPairs (s.physTile (partOf s q) (swapTile w.bytes))
      (maskPairs w.bytes)).finishAt q w.id (s.mclk + 1) [⟨0, 0, 0⟩]).pump q) :=
  congrArg _ (State.dispatch_ok h.1 h.2 (State.halfSwapBody_free (s := begun s q w) w.id free))

end

/-! ### COPY and COPY_ND (R321, R325) -/

section
variable {s : State} {q : Nat} {w : Waiting}

/-- One descriptor more on the DMA engines' list, under the next identifier. -/
def State.addDma (s : State) (owner q p : Nat) (b : List Byte) (len : Nat) : State :=
  ({ s with uid := s.uid + 1 } : State).modWork (fun k => { k with
    dmas := k.dmas ++ [{ id := s.uid, owner := owner, q := q, part := p, bytes := b, len := len }] })

theorem State.addDmas_one (s : State) (owner q p len : Nat) (b : List Byte) :
    s.addDmas owner q p none [(b, len)] = s.addDma owner q p b len := rfl

theorem exec_copy (h : Dispatches s q 0x30 w) : exec (.copy q) s =
    .next (((begun s q w).addDma w.id q (partOf s q) (copyDesc w.bytes) (fld w.bytes 32 8)).pump q) :=
  congrArg _ (State.dispatch_ok h.1 h.2 (congrArg Except.ok (State.addDmas_one _ _ _ _ _ _)))

/-- The descriptors that a COPY_ND lists. -/
def State.copyList (s : State) (q : Nat) (b : List Byte) : List (List Byte) :=
  s.descList (partOf s q) (cAddr b 16) (fld b 24 2)

/-- COPY_ND's body: the checks of its list decide. -/
def State.copyNdBody (s : State) (q id : Nat) (b : List Byte) : Except Earned State :=
  match s.descsBad q (s.copyList q b) with
  | some e => .error e
  | none => .ok (s.addDmas id q (partOf s q) none ((s.copyList q b).map (fun d => (d, 0))))

theorem exec_copyNd (q : Nat) (s : State) :
    exec (.copyNd q) s = .next (s.dispatch q 0x31 (fun s id b => s.copyNdBody q id b)) := rfl

theorem exec_copyNd_bad {e : Earned} (h : Dispatches s q 0x31 w)
    (bad : (begun s q w).descsBad q ((begun s q w).copyList q w.bytes) = some e) :
    exec (.copyNd q) s = .next ((s.endWaiting q e).pump q) := by
  have body : (begun s q w).copyNdBody q w.id w.bytes = .error e := by simp only [State.copyNdBody, bad]
  rw [exec_copyNd, State.dispatch_error h.1 h.2 body]

theorem exec_copyNd_good (h : Dispatches s q 0x31 w)
    (good : (begun s q w).descsBad q ((begun s q w).copyList q w.bytes) = none) :
    exec (.copyNd q) s = .next (((begun s q w).addDmas w.id q (partOf s q) none
      (((begun s q w).copyList q w.bytes).map (fun d => (d, 0)))).pump q) := by
  have body : (begun s q w).copyNdBody q w.id w.bytes = .ok ((begun s q w).addDmas w.id q (partOf s q) none
      (((begun s q w).copyList q w.bytes).map (fun d => (d, 0)))) := by
    simp only [State.copyNdBody, good]
    rfl
  rw [exec_copyNd, State.dispatch_ok h.1 h.2 body]

/-! ### FUSED_CHAIN (R329, R331) -/

/-- A chain of the stages `ks`, of which none has begun, is on the list. -/
def State.addFused (s : State) (q id p : Nat) (ks : List (List Byte)) : State :=
  let z := List.replicate ks.length 0
  s.modWork (fun k => { k with
    fused := k.fused ++ [{ id := id, q := q, part := p, stages := ks, started := z, completed := z, handed := z,
                           swapped := z, doneAt := z }] })

theorem State.fusedBody_ok {s : State} {q : Nat} {b : List Byte} (id : Nat) (pairs : s.chainBad q (fStages b) = none)
    (objects : s.stagesBad q (fStages b) = none) : s.fusedBody q id b =
      .ok (((s.startAt q id s.mclk).addFused q id (partOf s q) (fStages b)).fusedGo id) := by
  simp only [State.fusedBody, pairs, objects, Option.orElse_none]
  rfl

theorem exec_fusedChain (h : Dispatches s q 0x32 w) (pairs : (begun s q w).chainBad q (fStages w.bytes) = none)
    (objects : (begun s q w).stagesBad q (fStages w.bytes) = none) : exec (.fusedChain q) s =
      .next ((((started s q w).addFused q w.id (partOf s q) (fStages w.bytes)).fusedGo w.id).pump q) :=
  congrArg _ (State.dispatch_ok h.1 h.2 (State.fusedBody_ok w.id pairs objects))

theorem fStages_length (b : List Byte) : (fStages b).length = fld b 16 1 := by
  rw [fStages, List.length_map, List.length_range]

end

end Sys2Proof.Machine

namespace Sys2Proof.Settled
open Sys2Proof.Machine Sys2Proof.Claims

/-- Settles O19: whether one of the named pairs is barred decides between the conflict and the swaps. -/
theorem halfSwapCommand : Obligations.HalfSwapCommand := by
  unfold Obligations.HalfSwapCommand
  intro s q w h
  exact ⟨exec_halfSwap_barred h, exec_halfSwap_free h⟩

/-- Settles O20: COPY lists its descriptor, COPY_ND's list is judged first, and a chain begins with every count at 0. -/
theorem transfersDispatched : Obligations.TransfersDispatched := by
  unfold Obligations.TransfersDispatched
  refine fun s q w => ⟨exec_copy, fun h => ⟨fun e => exec_copyNd_bad h, exec_copyNd_good h⟩, fun h => ?chain⟩
  intro n ks z pairs objects
  have stages : (fStages w.bytes).length = n := fStages_length w.bytes
  rw [exec_fusedChain h pairs objects, State.addFused, stages]
  rfl

end Sys2Proof.Settled
end

/-! ## Proofs: what a reset leaves -/
section
namespace Sys2Proof.Machine
open Sys2Proof.Claims

/-! ### Memory and its marks once a region is cleared (R25, R403) -/

section
variable {s : State} {k : Nat}

/-- A key lies in the tile region or above exactly when its unit does. -/
theorem unit_below_tileRegion (k : Nat) : k / 64 * 64 < tileRegion ↔ k < tileRegion := by
  unfold tileRegion
  omega

theorem blank_nil (k : Nat) : blank [] k = 0 := by
  unfold blank
  split <;> rfl

theorem blankMark_nil (u : Nat) : blankMark [] u = false := by
  unfold blankMark
  split <;> rfl

theorem blank_hbm (sc : Tbl Nat) (below : k < tileRegion) : blank sc k = 0 := if_pos (.inl below)

theorem blankMark_hbm (sc : Tbl Nat) (below : k < tileRegion) : blankMark sc (k / 64) = false :=
  if_pos (.inl (by rw [Nat.mul_comm]; exact (unit_below_tileRegion k).mpr below))

theorem State.rd_clearSram_tile (above : tileRegion ≤ k) : s.clearSram.rd k = 0 := by
  simp [State.rd, State.clearSram, blank_nil, Tbl.get_keep, Nat.not_lt.mpr above]

theorem State.rd_clearSram_hbm (below : k < tileRegion) : s.clearSram.rd k = s.rd k := by
  simp [State.rd, State.clearSram, blank_hbm _ below, Tbl.get_keep, below]

theorem State.marked_clearSram_tile (above : tileRegion ≤ k) : s.clearSram.marked k = false := by
  have out : ¬k / 64 * 64 < tileRegion := mt (unit_below_tileRegion k).mp (Nat.not_lt.mpr above)
  simp [State.marked, State.clearSram, blankMark_nil, out]

theorem State.marked_clearSram_hbm (below : k < tileRegion) : s.clearSram.marked k = s.marked k := by
  have inside := (unit_below_tileRegion k).mpr below
  simp [State.marked, State.clearSram, blankMark_hbm _ below, inside]

theorem State.rd_loseHbm_tile (above : tileRegion ≤ k) : s.loseHbm.rd k = s.rd k := by
  simp [State.rd, State.loseHbm, Tbl.get_keep, above]

theorem State.rd_loseHbm_hbm (below : k < tileRegion) : s.loseHbm.rd k = 0 := by
  simp [State.rd, State.loseHbm, blank_hbm _ below, Tbl.get_keep, Nat.not_le.mpr below]

theorem State.marked_loseHbm_tile (above : tileRegion ≤ k) : s.loseHbm.marked k = s.marked k := by
  have out : tileRegion ≤ k / 64 * 64 := Nat.le_of_not_lt (mt (unit_below_tileRegion k).mp (Nat.not_lt.mpr above))
  simp [State.marked, State.loseHbm, out]

theorem State.marked_loseHbm_hbm (below : k < tileRegion) : s.loseHbm.marked k = false := by
  have inside := Nat.not_le.mpr ((unit_below_tileRegion k).mpr below)
  simp [State.marked, State.loseHbm, blankMark_hbm _ below, inside]

end

/-! ### A reset of a kind (R403) -/

/-- Putting stacks into self-refresh touches nothing but stacks. -/
theorem State.selfRefresh_frame (s : State) (ks : List Nat) :
    ∃ x, ks.foldl (fun s k => s.modStack k (fun x => { x with selfRefresh := true })) s = { s with hbmStacks := x } := by
  induction ks generalizing s with
  | nil => exact ⟨s.hbmStacks, rfl⟩
  | cons k ks ih => exact ih (s.modStack k (fun x => { x with selfRefresh := true }))

/-- HBM is kept by a reset of kind 3 or 4 under KEEP_HBM. -/
def State.keepsHbm (s : State) (kind : Nat) : Bool := (kind == 3 || kind == 4) && s.mod.keepHbm

/-- What a reset leaves but for the self-refresh of the stacks whose contents it keeps. -/
def State.resetTo (s : State) (kind stage : Nat) (keep : Bool) : State :=
  let u := (s.wipe (kind == 4)).clearSram
  (if keep then u else u.loseHbm).modMod (fun m => { m with
    stage := BitVec.ofNat 3 stage, resetCause := BitVec.ofNat 8 kind, hbmKept := keep, stageAt := s.clk.root
    keepHbm := m.keepHbm && (kind == 3 || kind == 4) })

section
variable (s : State) {kind stage : Nat}

theorem State.resetAs_frame :
    ∃ x, s.resetAs kind stage = { s.resetTo kind stage (s.keepsHbm kind) with hbmStacks := x } := by
  unfold State.resetAs State.resetTo State.keepsHbm
  generalize ((kind == 3 || kind == 4) && s.mod.keepHbm) = keep
  cases keep with
  | false => exact ⟨_, rfl⟩
  | true => exact State.selfRefresh_frame _ _

section
variable (kinds : kind < 2 ^ 8) (stages : stage < 2 ^ 3)
include kinds stages

theorem State.leaves_resetTo (keep : Bool) : leaves s (s.resetTo kind stage keep) kind stage keep := by
  have cause : (BitVec.ofNat 8 kind).toNat = kind := Nat.mod_eq_of_lt kinds
  have now : (BitVec.ofNat 3 stage).toNat = stage := Nat.mod_eq_of_lt stages
  cases keep with
  | false =>
    let u := (s.wipe (kind == 4)).clearSram
    exact ⟨rfl, rfl, rfl, rfl, rfl, rfl, rfl, rfl, rfl, rfl, rfl, rfl, rfl, rfl, rfl, rfl, rfl, rfl, rfl, rfl, rfl, now, cause,
      rfl, fun k above => ⟨(State.rd_loseHbm_tile above).trans (State.rd_clearSram_tile above),
        (State.marked_loseHbm_tile above).trans (State.marked_clearSram_tile above)⟩,
      nofun, fun _ k below => ⟨State.rd_loseHbm_hbm (s := u) below, State.marked_loseHbm_hbm (s := u) below⟩⟩
  | true =>
    exact ⟨rfl, rfl, rfl, rfl, rfl, rfl, rfl, rfl, rfl, rfl, rfl, rfl, rfl, rfl, rfl, rfl, rfl, rfl, rfl, rfl, rfl, now, cause,
      rfl, fun k above => ⟨State.rd_clearSram_tile above, State.marked_clearSram_tile above⟩,
      fun _ k below => ⟨State.rd_clearSram_hbm below, State.marked_clearSram_hbm below⟩, nofun⟩

theorem State.leaves_resetAs : leaves s (s.resetAs kind stage) kind stage (s.keepsHbm kind) := by
  obtain ⟨x, frame⟩ := s.resetAs_frame (kind := kind) (stage := stage)
  rw [frame]
  exact s.leaves_resetTo kinds stages (s.keepsHbm kind)

end

@[simp] theorem State.resetAs_pins : (s.resetAs kind stage).pins = (s.wipe (kind == 4)).pins := by
  obtain ⟨x, frame⟩ := s.resetAs_frame (kind := kind) (stage := stage)
  rw [frame, State.resetTo]
  split <;> rfl

@[simp] theorem State.resetAs_keepHbm :
    (s.resetAs kind stage).mod.keepHbm = (s.mod.keepHbm && (kind == 3 || kind == 4)) := by
  obtain ⟨x, frame⟩ := s.resetAs_frame (kind := kind) (stage := stage)
  rw [frame, State.resetTo]
  split <;> rfl

end

/-! ### What a reset leaves says nothing of pins, links and KEEP_HBM -/

section
variable {s t : State} {kind stage : Nat} {keep : Bool}

theorem leaves_modPins (h : leaves s t kind stage keep) (f : Pins → Pins) : leaves s (t.modPins f) kind stage keep := h

theorem leaves_modMod (h : leaves s t kind stage keep) {f : Module → Module} (same : (f t.mod).stage = t.mod.stage)
    (cause : (f t.mod).resetCause = t.mod.resetCause) (done : (f t.mod).done = t.mod.done) :
    leaves s (t.modMod f) kind stage keep := by
  unfold leaves at h ⊢
  rw [State.modMod_same, same, cause, done]
  exact h

theorem leaves_from_modPins {f : Pins → Pins} (h : leaves (s.modPins f) t kind stage keep) : leaves s t kind stage keep := h
theorem leaves_from_modMod {f : Module → Module} (h : leaves (s.modMod f) t kind stage keep) : leaves s t kind stage keep := h
theorem leaves_from_free (h : leaves s.free.2 t kind stage keep) : leaves s t kind stage keep := h

end

/-! ### The rows (R403, R457) -/

section
variable (s : State)

theorem exec_fundamentalReset (vin : s.pins.vin = true) (vaux : s.pins.vaux = true) : exec .fundamentalReset s = .next
    (((s.modPins (fun p => { p with perstN := false })).resetAs 2 0).modPins (fun p => { p with inReset := true })) :=
  congrArg _ (if_pos (by simp [State.powered, vin, vaux]))

theorem exec_moduleReset (there : s.started = true) : exec .moduleReset s = .next (s.resetAs 4 1) :=
  congrArg _ (if_pos there)

/-- A function reset, whose link retrains at a rate and width left open. -/
theorem exec_functionReset (there : s.started = true) : exec .functionReset s = .next
    (((s.free.2.resetAs 3 1).modPins (fun p => { p with linkUp := true })).modMod (fun m => { m with
      linkRate := BitVec.ofNat 4 (4 + s.free.1.toNat % 3), linkWidth := BitVec.ofNat 5 (4 * 2 ^ (s.free.1.toNat / 4 % 3)) })) :=
  congrArg _ (if_neg (by simp [there]))

theorem exec_resets_unstarted (h : s.started = false) :
    exec .functionReset s = .next s ∧ exec .moduleReset s = .next s :=
  ⟨congrArg _ (if_pos (by simp [h])), congrArg _ (if_neg (by simp [h]))⟩

theorem exec_softReset (served : s.modServed = true) (v : Nat) :
    exec (.softReset v) s = .next (s.writeResetCtrl v) := congrArg _ (if_pos served)

theorem State.writeResetCtrl_resets {v : Nat} (reset : bit v 0 = true) (there : s.started = true) :
    s.writeResetCtrl v = (s.modMod (fun m => { m with keepHbm := bit v 1 })).resetAs 4 1 :=
  if_pos (Bool.and_eq_true_iff.mpr ⟨reset, there⟩)

theorem State.writeResetCtrl_noReset {v : Nat} (noReset : bit v 0 = false) :
    s.writeResetCtrl v = s.modMod (fun m => { m with keepHbm := bit v 1 }) := if_neg (by simp [noReset])

end

end Sys2Proof.Machine

namespace Sys2Proof.Settled
open Sys2Proof.Machine Sys2Proof.Claims

/-- Settles O53: each row is a reset of its kind, which leaves what a reset of a kind leaves. -/
theorem resetsLeave : Obligations.ResetsLeave := by
  unfold Obligations.ResetsLeave
  refine ⟨fun s vin vaux => ⟨_, exec_fundamentalReset s vin vaux, ?_, rfl, ?_, ?_⟩, fun s there =>
    ⟨⟨_, exec_functionReset s there, ?_, rfl⟩, ⟨_, exec_moduleReset s there, ?_, ?_⟩, fun v served reset => ?soft⟩,
    exec_resets_unstarted, fun s v served noReset => ?_⟩
  · exact leaves_modPins (leaves_from_modPins (State.leaves_resetAs _ (by decide) (by decide))) _
  · rw [State.modPins_same, State.resetAs_pins]
    rfl
  · simp
  · exact leaves_modMod (leaves_modPins (leaves_from_free (State.leaves_resetAs _ (by decide) (by decide))) _) rfl rfl rfl
  · exact State.leaves_resetAs _ (by decide) (by decide)
  · simp [State.wipe]
  case soft =>
    refine ⟨_, (exec_softReset s served v).trans (congrArg _ (s.writeResetCtrl_resets reset there)), ?_, ?_⟩
    · exact leaves_from_modMod (State.leaves_resetAs _ (by decide) (by decide))
    · simp
  · rw [exec_softReset s served, s.writeResetCtrl_noReset noReset]

end Sys2Proof.Settled
end

/-! ## Proofs: a host write read back -/
section
namespace Sys2Proof.Machine
open Sys2Proof.Claims

/-! ### What decides the memory key of a physical address (R260 to R262, R269 to R273) -/

/-- The layout, the Size Tables and the tiles' half pairs: what decides which memory key a physical address has. -/
def State.mapped (s : State) : Module × Tbl SizeTable × Tbl Tile := (s.mod, s.sizes, s.tiles)

theorem State.physKey_of_mapped {s t : State} (h : t.mapped = s.mapped) : t.physKey = s.physKey := by
  simp only [State.mapped, Prod.mk.injEq] at h
  obtain ⟨mod, sizes, tiles⟩ := h
  have reads (u : State) :
      u.physKey = { State.reset with mod := u.mod, sizes := u.sizes, tiles := u.tiles }.physKey := rfl
  rw [reads t, reads s, mod, sizes, tiles]

theorem State.mapped_foldl {α : Type} {f : State → α → State} (h : ∀ s a, (f s a).mapped = s.mapped) (l : List α)
    (s : State) : (l.foldl f s).mapped = s.mapped := by
  induction l generalizing s with
  | nil => rfl
  | cons a l ih => exact (ih (f s a)).trans (h s a)

section
variable (s : State)

theorem State.mapped_traceEv (src unit ev cls payload : Nat) : (s.traceEv src unit ev cls payload).mapped = s.mapped := by
  unfold State.traceEv
  simp only
  split <;> rfl

theorem State.mapped_traceStall (src unit c n : Nat) : (s.traceStall src unit c n).mapped = s.mapped := by
  have begins (u : State) (x : Nat × Nat) : ((u.traceEv src unit 0x08 4 c).modTrace src (fun b =>
      { b with stalls := Tbl.put b.stalls unit x })).mapped = u.mapped := u.mapped_traceEv src unit 0x08 4 c
  unfold State.traceStall
  simp only
  split
  · rfl
  split
  next k m _ =>
    have ends : ((s.traceEv src unit 0x09 4 (k + m % 2 ^ 32 * 16)).modTrace src (fun b =>
        { b with stalls := Tbl.del b.stalls unit })).mapped = s.mapped := s.mapped_traceEv src unit 0x09 4 _
    split
    · rfl
    split
    · exact (begins _ _).trans ends
    · exact ends
  next =>
    split
    · exact begins s _
    · rfl

theorem State.mapped_count (b e c n : Nat) : (s.count b e c n).mapped = s.mapped := by
  unfold State.count
  simp only
  split
  · rfl
  split
  · exact State.mapped_traceStall _ _ _ _ _
  · rfl

theorem State.mapped_untilRoot (r : Nat) : (s.untilRoot r).mapped = s.mapped := by
  obtain ⟨c, rs, -, frame⟩ := s.advance_frame (r - s.clk.root)
  rw [State.untilRoot, frame]
  rfl

theorem State.mapped_wakeComplete (sc : Scope) : (s.wakeComplete sc).mapped = s.mapped := by
  have stay (v : ScopeState) (u : State) : (u.countStay sc v).mapped = u.mapped := by
    unfold State.countStay
    split
    · rfl
    · exact State.mapped_foldl (fun _ _ => State.mapped_count _ _ _ _ _) _ _
  have nap (u : State) : (u.napStacks sc false).mapped = u.mapped :=
    State.mapped_foldl (f := fun s k => s.modStack k _) (fun _ _ => rfl) _ u
  have note (old : Nat) (u : State) : ((u.setScope (Scope.key sc) {}).tracePower sc old 0).mapped = u.mapped :=
    State.mapped_foldl (fun _ _ => State.mapped_traceEv _ _ _ _ _ _) _ _
  unfold State.wakeComplete
  simp only
  split
  · rw [note]
    split
    · rw [nap, stay, State.mapped_untilRoot]
    · rw [stay, State.mapped_untilRoot]
  · rfl

/-- An early wake, counted. -/
def State.earlyCounted (s : State) : State :=
  s.modPwr (fun p => { p with earlyWake := BitVec.ofNat 32 (satAdd 32 p.earlyWake.toNat 1) })

theorem State.mapped_wakeFor (scs : List Scope) : (s.wakeFor scs).mapped = s.mapped := by
  have woken (u : State) (sc : Scope) (n : Nat) : State.mapped (if (u.scope (Scope.key sc)).code < n then u
      else if (u.scope (Scope.key sc)).exitAt.isSome then u.wakeComplete sc
      else (u.earlyCounted.beginExit sc).wakeComplete sc) = u.mapped := by
    split
    · rfl
    split
    · exact u.mapped_wakeComplete sc
    · exact State.mapped_wakeComplete _ sc
  exact State.mapped_foldl (fun u sc => woken u sc _) scs s

theorem State.mapped_wakeAddr (a : Nat) : (s.wakeAddr a).mapped = s.mapped := by
  unfold State.wakeAddr
  split
  · rfl
  split
  · exact s.mapped_wakeFor _
  split <;> exact s.mapped_wakeFor _

/-- An access once it has woken what it reaches finds every address at the key it had. -/
theorem State.mapped_bar2Reached (a n : Nat) : (s.quiet.bar2Reached a n).mapped = s.mapped := by
  obtain ⟨p, frame⟩ := s.quiet_frame
  have woken : (s.quiet.wakeAddr a).mapped = s.mapped := by rw [State.mapped_wakeAddr, frame]; rfl
  unfold State.bar2Reached
  simp only
  split
  · exact woken
  · exact woken

/-- An access that has woken what it reaches finds memory as it was. -/
theorem State.still_bar2Reached (a n : Nat) : Still s (s.quiet.bar2Reached a n) := by
  have woken : Still s (s.quiet.wakeAddr a) := State.wakeAddr_still (State.quiet_still (Still.refl s))
  unfold State.bar2Reached
  simp only
  split
  · exact State.hostErr_still woken
  · exact woken

/-- A hole in the range is only logged: it does not bear on whether the access waits. -/
theorem State.bar2Waits_bar2Reached (a n : Nat) : (s.bar2Reached a n).bar2Waits a n ↔ (s.wakeAddr a).bar2Waits a n := by
  unfold State.bar2Reached
  simp only
  split <;> exact Iff.rfl

/-! ### Bytes at physical addresses -/

end

section
variable {s : State} {a : Nat} {bs : List Byte} {mark : Bool}

theorem State.physKey_of_mem_cells {l : List (Nat × Byte)} {c : Cell}
    (h : c ∈ l.filterMap (fun (i, x) => (s.physKey (a + i)).map (fun k => (k, x, mark)))) :
    ∃ x ∈ l, s.physKey (a + x.1) = some c.1 := by
  obtain ⟨⟨i, b⟩, there, cell⟩ := List.mem_filterMap.mp h
  obtain ⟨k, key, rfl⟩ := Option.map_eq_some_iff.mp cell
  exact ⟨(i, b), there, key⟩

theorem zip_range_eq_append {i : Nat} (h : i < bs.length) : (List.range bs.length).zip bs =
    ((List.range bs.length).zip bs).take i ++ (i, bs.getD i 0) :: ((List.range bs.length).zip bs).drop (i + 1) := by
  have long : i < ((List.range bs.length).zip bs).length := by simpa using h
  have here : ((List.range bs.length).zip bs)[i] = (i, bs.getD i 0) := by simp [h]
  rw [← here, List.getElem_cons_drop, List.take_append_drop]

theorem le_of_mem_drop_zip_range {n : Nat} {x : Nat × Byte} (h : x ∈ ((List.range bs.length).zip bs).drop n) :
    n ≤ x.1 ∧ x.1 < bs.length := by
  obtain ⟨j, long, rfl⟩ := List.mem_iff_getElem.mp h
  simp only [List.length_drop, List.length_zip, List.length_range, min_self] at long
  simp
  omega

/-- The last byte written to a key is what it reads as. -/
theorem State.rd_wrPhys_last {i k : Nat} (there : i < bs.length) (key : s.physKey (a + i) = some k)
    (last : ∀ j, i < j → j < bs.length → s.physKey (a + j) ≠ some k) : (s.wrPhys a bs mark).rd k = bs.getD i 0 := by
  rw [State.wrPhys, zip_range_eq_append there, List.filterMap_append, List.filterMap_cons]
  simp only [key, Option.map_some]
  refine State.rd_store_last (c := (k, bs.getD i 0, mark)) (fun x later same => ?_)
  obtain ⟨y, there, key⟩ := State.physKey_of_mem_cells later
  obtain ⟨above, below⟩ := le_of_mem_drop_zip_range there
  exact last y.1 above below (key.trans (congrArg some same))

/-- A key to which no byte is written reads as before. -/
theorem State.rd_wrPhys_other {k : Nat} (out : ∀ i, i < bs.length → s.physKey (a + i) ≠ some k) :
    (s.wrPhys a bs mark).rd k = s.rd k := by
  refine State.rd_store_other (fun c cell same => ?_)
  obtain ⟨y, there, key⟩ := State.physKey_of_mem_cells cell
  exact out y.1 (le_of_mem_drop_zip_range (n := 0) there).2 (key.trans (congrArg some same))

end

end Sys2Proof.Machine

namespace Sys2Proof.Settled
open Sys2Proof.Machine

/-- Settles O59: the write goes to the keys that the addresses had before what it reaches awoke, and the last byte for a key
stays. -/
theorem hostWriteReadsBack : Obligations.HostWriteReadsBack := by
  unfold Obligations.HostWriteReadsBack
  intro s off bs ep done live a v free first
  let u := s.quiet.bar2Reached a bs.length
  have serves : ¬u.bar2Waits a bs.length := mt (s.quiet.bar2Waits_bar2Reached a bs.length).mp (State.not_bar2Waits free first)
  have writes : exec (.bar2Write off bs ep) s = .next (u.wrPhys a bs ep) := by
    rw [exec_bar2Write_reaches (by rw [State.quiet_mod]; exact done) (by rw [State.quiet_frozen]; exact live),
      State.bar2Addr, State.quiet_mod, State.bar2Do_stored serves]
  have keys : u.physKey = s.physKey := State.physKey_of_mapped (s.mapped_bar2Reached a bs.length)
  refine ⟨_, writes, fun i k there key last => ?_, fun k out => ?_⟩
  · rw [← keys] at key last
    exact State.rd_wrPhys_last there key last
  · rw [← keys] at out
    exact (State.rd_wrPhys_other out).trans ((s.still_bar2Reached a bs.length).rd_eq k)

end Sys2Proof.Settled
end

/-! ## Proofs: the reset state, and the tick of an empty queue -/
section
namespace Sys2Proof.Machine

/-- A started run that is not held counts the mclk without progress, past those in which its beats move. -/
theorem Run.idle_counts (r : Run) (m k : Nat) : r.idle m k =
    if r.start.isSome = true ∧ r.hold = none then
      (if m < r.movesTo then { r with noProg := k - (r.movesTo - m) } else { r with noProg := r.noProg + k })
    else r := by
  unfold Run.idle
  exact if_congr (by rw [Bool.and_eq_true, Option.isNone_iff_eq_none]) rfl rfl

section
variable {s : State}

theorem step_idle (h : s.pending = []) : step s = .next (s.advance 1) := by
  rw [step, h]
  rfl

variable {n : Nat}

theorem State.advance_frozen (frozen : s.frozen = true) :
    s.advance n = { s with clk := { s.clk with root := s.clk.root + n } } := by
  simp [State.advance, State.modClk, frozen]

theorem State.advance_noEdge (live : s.frozen = false) (none : s.edges n = 0) :
    s.advance n = { s with clk := { s.clk with root := s.clk.root + n, live := s.clk.live + n } } := by
  simp [State.advance, State.modClk, live, none]

variable (live : s.frozen = false) (edge : s.edges n ≠ 0)
include live edge

theorem State.advance_paused (paused : s.pwr.paused.isSome = true) : s.advance n = { s with clk := { s.clk with
    root := s.clk.root + n, live := s.clk.live + n, idle := s.idleOn (s.edges n) } } := by
  simp [State.advance, State.modClk, live, edge, paused]

theorem State.advance_counts (run : s.pwr.paused = none) : s.advance n = { s with
    clk := { s.clk with root := s.clk.root + n, live := s.clk.live + n, idle := s.idleOn (s.edges n) }
    work := { s.work with runs := s.work.runs.map (fun r => r.idle s.mclk (s.edges n)) } } := by
  simp [State.advance, State.modClk, State.modWork, live, edge, run]

end

end Sys2Proof.Machine

namespace Sys2Proof.Settled
open Sys2Proof.Machine

/-- Settles O5: both tables are empty. -/
theorem resetMemoryCanonical : Obligations.ResetMemoryCanonical := ⟨rfl, rfl⟩

/-- Settles O2: the tick of an empty queue is one cycle's advance, by the freeze, the edge in the cycle and the pause. -/
theorem emptyQueueTicks : Obligations.EmptyQueueTicks := by
  unfold Obligations.EmptyQueueTicks
  intro s empty
  rw [step_idle empty]
  refine ⟨fun frozen => ?_, fun live none => ?_, fun live edge paused => ?_, fun live edge run => ?_⟩
  · rw [State.advance_frozen frozen]
  · rw [State.advance_noEdge live none]
  · rw [State.advance_paused live edge paused]
  · rw [State.advance_counts live edge run]
    simp only [Run.idle_counts]

end Sys2Proof.Settled
end

/-! ## Proofs: data and control slots, replay and transmission -/
section
namespace Sys2Proof.Machine

/-! ### A frame in a slot (R334, R336, R339) -/

section
variable {s : State} {i errs : Nat} {bytes : List Byte}

theorem State.frameIn_lost (h : (s.port i).up = false ∨ 15 < errs) : s.frameIn i errs bytes = s :=
  if_pos (by rcases h with down | many <;> simp_all [fecLimit])

variable (up : (s.port i).up = true) (few : errs ≤ 15)
include up few

theorem State.frameIn_badCrc (crc : frameCrcOk bytes = false) : s.frameIn i errs bytes = s.badFrame i :=
  (if_neg (by simp [up, fecLimit, Nat.not_lt.mpr few])).trans (if_pos (by rw [crc]; rfl))

variable (crc : frameCrcOk bytes = true) {kind ack : Nat} {nak : Bool} {f : Frame}
  (reads : decodeFrame bytes = (kind, ack, nak, f))
include crc reads

/-- A frame with a good CRC, by its KIND. -/
theorem State.frameIn_goodCrc : s.frameIn i errs bytes =
    let u := s.acked i ack nak
    if 1 < kind then s.badFrame i
    else if kind = 1 then u
    else if f.seq ≠ (u.link i).rxNext.toNat then u.badFrame i
    else (u.modLink i (fun l => { l with
      rxNext := l.rxNext + 1, nakSent := false, nakDue := false, rxq := l.rxq ++ [f] })).drainRx i := by
  refine (if_neg (by simp [up, fecLimit, Nat.not_lt.mpr few])).trans ((if_neg (by simp [crc])).trans ?_)
  rw [reads]

theorem State.frameIn_reserved (reserved : 1 < kind) : s.frameIn i errs bytes = s.badFrame i :=
  (State.frameIn_goodCrc up few crc reads).trans (if_pos reserved)

theorem State.frameIn_idle (idle : kind = 1) : s.frameIn i errs bytes = s.acked i ack nak :=
  (State.frameIn_goodCrc up few crc reads).trans ((if_neg (by omega)).trans (if_pos idle))

theorem State.frameIn_outOfSequence (data : kind = 0) (other : f.seq ≠ ((s.acked i ack nak).link i).rxNext.toNat) :
    s.frameIn i errs bytes = (s.acked i ack nak).badFrame i :=
  (State.frameIn_goodCrc up few crc reads).trans ((if_neg (by omega)).trans ((if_neg (by omega)).trans (if_pos other)))

theorem State.frameIn_next (data : kind = 0) (next : f.seq = ((s.acked i ack nak).link i).rxNext.toNat) :
    s.frameIn i errs bytes = ((s.acked i ack nak).modLink i (fun l => { l with
      rxNext := l.rxNext + 1, nakSent := false, nakDue := false, rxq := l.rxq ++ [f] })).drainRx i :=
  (State.frameIn_goodCrc up few crc reads).trans
    ((if_neg (by omega)).trans ((if_neg (by omega)).trans (if_neg (not_not_intro next))))

end

/-! ### A control slot, and ACK_TIMEOUT (R338, R340, R341) -/

/-- What a control slot with a good CRC leaves before it acknowledges: the freed-buffer counts, and the end of a repetition
that was heard. -/
def State.slotHeard (s : State) (i : Nat) (b : SlotBody) : State :=
  let u := s.modLink i (fun l => { l with
    peerFreed := (List.range 8).foldl (fun t k => Tbl.set 0 t k (b.freed.getD k 0 % 4096)) l.peerFreed })
  if b.heard then u.modLink i (fun l => { l with ctl := l.ctl.filter (fun c => c.1 != 0 && c.1 != 1) }) else u

section
variable {s : State} {i : Nat} {b : SlotBody}

theorem exec_controlSlot_badCrc (crc : b.crcOk = false) : exec (.controlSlot i b) s = .next s :=
  congrArg _ (if_pos (by rw [crc]; rfl))

theorem exec_controlSlot_up (crc : b.crcOk = true) (up : ((s.slotHeard i b).port i).up = true) :
    exec (.controlSlot i b) s = .next ((s.slotHeard i b).acked i b.ack b.nak) :=
  congrArg _ ((if_neg (by simp [crc])).trans (if_pos up))

theorem exec_controlSlot_down (crc : b.crcOk = true) (down : ((s.slotHeard i b).port i).up = false) :
    exec (.controlSlot i b) s = .next (s.slotHeard i b) :=
  congrArg _ ((if_neg (by simp [crc])).trans (if_neg (Bool.eq_false_iff.mp down)))

theorem exec_ackTimeout_replays (up : (s.port i).up = true) (unacked : (s.link i).unacked ≠ []) : exec (.ackTimeout i) s = .next
    ((s.untilRoot ((s.link i).timer + (s.port i).ackTimeout.toNat * 6000)).beginReplay i) :=
  congrArg _ (if_neg (by simp [up, unacked]))

end

/-! ### Slots of the lanes (R334, R335, R338) -/

theorem controlAt_iff {j k : Nat} : controlAt j k = true ↔ k % 21 = 21 * j / 8 % 21 := beq_iff_eq

section
variable {s : State} {i n : Nat}

theorem State.passSlots_noLane (none : s.nextLane i = none) : s.passSlots i (n + 1) = s := by rw [State.passSlots, none]

theorem State.passSlots_lane {j : Nat} (lane : s.nextLane i = some j) :
    let l := 8 * i + j
    let k := (s.lane l).slot
    let u := if alignBefore k then s.reply { kind := 7, value := l, bytes := s.alignBody i j } else s
    let v := (u.modLane l (fun x => { x with slot := k + 1 })).modLink i (fun x => { x with lane := j, slots := x.slots + 1 })
    s.passSlots i (n + 1) = if k % 21 = 21 * j / 8 % 21
      then (v.reply { kind := 6, value := l, bytes := v.controlBody i }).passSlots i n else v := by
  rw [State.passSlots, lane]
  exact if_congr controlAt_iff rfl rfl

end

/-! ### The data slot (R26, R192, R197, R341, R342) -/

section
variable {s : State} {i : Nat}

theorem State.dataSlot_silent (h : (s.port i).up = false ∨ (s.part (s.partOfPort i)).nodeHeld = true) : s.dataSlot i = s :=
  if_pos (by rcases h with down | held <;> simp_all)

/-- The mclks of the present slot, counted under a cause. -/
def State.slotCount (s : State) (i c : Nat) : State := s.count (s.ambient (s.partOfPort i)) (engPort i) c (s.slotMclk i)

variable (up : (s.port i).up = true) (named : (s.part (s.partOfPort i)).nodeHeld = false)
include up named

theorem State.dataSlot_replay {f : Frame} {fs : List Frame} (replay : (s.link i).replay = f :: fs) :
    s.dataSlot i = ((s.slotCount i 9).emit i f 0).modLink i (fun l => { l with replay := fs }) := by
  refine (if_neg (by simp [up, named])).trans ?_
  rw [replay]
  rfl

variable (none : (s.link i).replay = [])
include none

/-- With nothing to replay: an idle frame while new frames are held back, otherwise what the round-robin chooses. -/
theorem State.dataSlot_new : s.dataSlot i =
    let idle : Frame := { seq := 0, vc := 0, cls := 0, hops := 0, txn := { type := 0 } }
    if s.frozen || (s.link i).held || (s.part (s.partOfPort i)).quiescing then s.emit i idle 1
    else match (s.link i).choose (s.port i).weights with
      | .none => (if (s.link i).txq.isEmpty then s
          else s.slotCount i (if 512 ≤ (s.link i).unacked.length ∨ s.clk.root < (s.link i).widthUntil then 9 else 6)).emit i
            idle 1
      | some (f, turn, left) =>
        let sent := { f with seq := (s.link i).txSeq.toNat, inBuf := .none }
        let u := match f.inBuf with | some (j, k) => s.freeBuf j k | .none => s
        let v := u.modLink i (fun l => { l with
          txq := l.txq.erase f, txSeq := l.txSeq + 1
          sent := Tbl.set 0 l.sent f.buf ((Tbl.get 0 l.sent f.buf + 1) % 4096)
          timer := if l.unacked.isEmpty then u.clk.root else l.timer, unacked := l.unacked ++ [sent]
          turn := turn, left := left })
        (v.count (v.ambient (s.partOfPort i)) (engPort i) 0 (s.slotMclk i)).emit i sent 0 := by
  refine (if_neg (by simp [up, named])).trans ?_
  rw [none]
  rfl

theorem State.dataSlot_stopped
    (stopped : s.frozen = true ∨ (s.link i).held = true ∨ (s.part (s.partOfPort i)).quiescing = true) :
    s.dataSlot i = s.emit i { seq := 0, vc := 0, cls := 0, hops := 0, txn := { type := 0 } } 1 :=
  (State.dataSlot_new up named none).trans (if_pos (by rw [Bool.or_eq_true, Bool.or_eq_true, or_assoc]; exact stopped))

variable (goes : ¬(s.frozen = true ∨ (s.link i).held = true ∨ (s.part (s.partOfPort i)).quiescing = true))
include goes

theorem State.dataSlot_idle (nothing : (s.link i).choose (s.port i).weights = .none) : s.dataSlot i =
    (if (s.link i).txq = [] then s
      else s.slotCount i (if 512 ≤ (s.link i).unacked.length ∨ s.clk.root < (s.link i).widthUntil then 9 else 6)).emit i
      { seq := 0, vc := 0, cls := 0, hops := 0, txn := { type := 0 } } 1 := by
  rw [State.dataSlot_new up named none]
  refine (if_neg (by rwa [Bool.or_eq_true, Bool.or_eq_true, or_assoc])).trans ?_
  rw [nothing]
  simp only [List.isEmpty_iff]

theorem State.dataSlot_chosen {f : Frame} {turn left : Nat}
    (chosen : (s.link i).choose (s.port i).weights = some (f, turn, left)) :
    let sent := { f with seq := (s.link i).txSeq.toNat, inBuf := .none }
    let u := match f.inBuf with | some (j, k) => s.freeBuf j k | .none => s
    let v := u.modLink i (fun l => { l with
      txq := l.txq.erase f, txSeq := l.txSeq + 1
      sent := Tbl.set 0 l.sent f.buf ((Tbl.get 0 l.sent f.buf + 1) % 4096)
      timer := if l.unacked.isEmpty then u.clk.root else l.timer, unacked := l.unacked ++ [sent]
      turn := turn, left := left })
    s.dataSlot i = (v.count (v.ambient (s.partOfPort i)) (engPort i) 0 (s.slotMclk i)).emit i sent 0 := by
  rw [State.dataSlot_new up named none]
  refine (if_neg (by rwa [Bool.or_eq_true, Bool.or_eq_true, or_assoc])).trans ?_
  rw [chosen]

end

end Sys2Proof.Machine

namespace Sys2Proof.Settled
open Sys2Proof.Machine

/-- Settles O45: receiving by the codeword, the CRC, the KIND and the sequence; sending by what the data slot finds. -/
theorem linkSlots : Obligations.LinkSlots := by
  unfold Obligations.LinkSlots
  refine ⟨fun s i errs bytes => ⟨fun lost => ?_, fun up few crc => ?_, fun up few crc kind ack nak f reads =>
      ⟨fun reserved => ?_, fun idle => ?_, fun data other => ?_, fun data next => ?_⟩⟩,
    fun s i b => ⟨exec_controlSlot_badCrc, exec_controlSlot_up, exec_controlSlot_down⟩,
    fun s i => exec_ackTimeout_replays, fun s i n => ⟨State.passSlots_noLane, fun j => State.passSlots_lane⟩,
    fun z i => ⟨fun silent => ?_, fun up named => ⟨fun f fs replay => ?_, fun none stopped => ?_,
      fun none goes nothing => ?_, fun none goes f turn left chosen => ?_⟩⟩⟩
  · exact congrArg _ (State.frameIn_lost lost)
  · exact congrArg _ (State.frameIn_badCrc up few crc)
  · exact congrArg _ (State.frameIn_reserved up few crc reads reserved)
  · exact congrArg _ (State.frameIn_idle up few crc reads idle)
  · exact congrArg _ (State.frameIn_outOfSequence up few crc reads data other)
  · exact congrArg _ (State.frameIn_next up few crc reads data next)
  · exact congrArg _ (State.dataSlot_silent silent)
  · exact congrArg _ (State.dataSlot_replay up named replay)
  · exact congrArg _ (State.dataSlot_stopped up named none stopped)
  · exact congrArg _ (State.dataSlot_idle up named none goes nothing)
  · exact congrArg _ (State.dataSlot_chosen up named none goes chosen)

end Sys2Proof.Settled
end

/-! ## Proofs: lanes, training and ports -/
section
namespace Sys2Proof.Machine

section
variable {s : State}

/-! ### Equaliser requests (R352) -/

section
variable {lane tap : Nat} {up : Bool}

theorem exec_equaliserRequest_early (service : (s.lane lane).st = 0) (asked : 0 < Tbl.get 0 (s.lane lane).eqAt tap)
    (early : s.clk.root + 1 < Tbl.get 0 (s.lane lane).eqAt tap + 6000) : exec (.equaliserRequest lane tap up) s = .next s :=
  congrArg _ (if_pos ⟨service, asked, early⟩)

theorem exec_equaliserRequest_moves (free : (s.lane lane).st ≠ 0 ∨ Tbl.get 0 (s.lane lane).eqAt tap = 0 ∨
    Tbl.get 0 (s.lane lane).eqAt tap + 6000 ≤ s.clk.root + 1) : exec (.equaliserRequest lane tap up) s = .next
    (s.modLane lane (fun x => { x.equalise tap (if up then 1 else -1) with eqAt := Tbl.set 0 x.eqAt tap (s.clk.root + 1) })) := by
  refine congrArg _ (if_neg ?_)
  rintro ⟨service, asked, early⟩
  rcases free with other | never | late
  · exact other service
  · omega
  · exact absurd early (Nat.not_lt.mpr late)

variable {x : Lane} {d : Int}

theorem Lane.equalise_ffe (h : tap < 5) : x.equalise tap d = { x with ffe := x.ffe.set tap (x.ffe.getD tap 0 + d) } := if_pos h

theorem Lane.equalise_ctle (h : tap = 5) : x.equalise tap d = { x with ctle := x.ctle + d } :=
  (if_neg (by omega)).trans (if_pos h)

theorem Lane.equalise_rxFfe (above : 6 ≤ tap) (below : tap < 22) : x.equalise tap d =
    { x with rxFfe := x.rxFfe.set (tap - 6) (x.rxFfe.getD (tap - 6) 0 + d) } :=
  (if_neg (by omega)).trans ((if_neg (by omega)).trans (if_pos below))

theorem Lane.equalise_dfe (above : 22 ≤ tap) : x.equalise tap d = { x with dfe := x.dfe + d } :=
  (if_neg (by omega)).trans ((if_neg (by omega)).trans (if_neg (by omega)))

end

/-! ### Alignment codewords (R333, R335, R355) -/

/-- A port once its peer is noted. -/
def State.withPeer (s : State) (i node peer dir : Nat) : State :=
  s.modPort i (fun x => { x with
    peerNode := BitVec.ofNat 12 node, peerPort := BitVec.ofNat 5 peer, peerDir := BitVec.ofNat 3 dir, peerValid := true })

section
variable {lane index node peer dir mask : Nat}

theorem exec_alignmentCodeword_miswired (h : (s.port (lane / 8)).st = 5) :
    exec (.alignmentCodeword ⟨lane, index⟩ node peer dir mask) s = .next
      (if (s.port (lane / 8)).peerNode.toNat = node ∧ (s.port (lane / 8)).peerPort.toNat = peer ∧
          (s.port (lane / 8)).peerDir.toNat = dir then s.withPeer (lane / 8) node peer dir
        else (s.withPeer (lane / 8) node peer dir).toTraining (lane / 8)) := by
  refine congrArg _ ((if_pos h).trans ?_)
  split
  next changed =>
    refine (if_neg ?_).symm
    simpa [or_iff_not_imp_left] using changed
  next same =>
    refine (if_pos ?_).symm
    simpa [and_assoc] using same

theorem exec_alignmentCodeword_training (h : (s.port (lane / 8)).st = 1) :
    exec (.alignmentCodeword ⟨lane, index⟩ node peer dir mask) s = .next
      ((s.withPeer (lane / 8) node peer dir).modLink (lane / 8) (fun l => { l with reversed := index == 7 - lane % 8 })) :=
  congrArg _ ((if_neg (by rw [h]; decide)).trans (if_pos h))

theorem exec_alignmentCodeword_down (m : (s.port (lane / 8)).st ≠ 5) (t : (s.port (lane / 8)).st ≠ 1)
    (down : (s.port (lane / 8)).up = false) : exec (.alignmentCodeword ⟨lane, index⟩ node peer dir mask) s = .next
      (s.withPeer (lane / 8) node peer dir) :=
  congrArg _ ((if_neg m).trans ((if_neg t).trans (if_pos (by rw [down]; rfl))))

theorem Port.st_of_up {x : Port} (up : x.up = true) : x.st ≠ 5 ∧ x.st ≠ 1 := by
  rw [Port.up, Bool.or_eq_true, beq_iff_eq, beq_iff_eq] at up
  rcases up with h | h <;> rw [h] <;> decide

theorem exec_alignmentCodeword_up (up : (s.port (lane / 8)).up = true) :
    let i := lane / 8
    let u := s.withPeer i node peer dir
    exec (.alignmentCodeword ⟨lane, index⟩ node peer dir mask) s = .next (if u.miswired i then u.portDown i 5 (u.laneMask i)
      else (List.range 8).foldl (fun x j =>
        if (x.lane (8 * i + x.ownLane i j)).st = 0 ∧ bit mask j = false then x.retireLane (8 * i + x.ownLane i j) false
        else x) u) := by
  obtain ⟨notMiswired, notTraining⟩ := Port.st_of_up up
  refine congrArg _ ((if_neg notMiswired).trans ((if_neg notTraining).trans ((if_neg (by simp [up])).trans ?_)))
  simp only [Bool.not_eq_true']
  rfl

end

/-! ### Training (R352, R355) -/

section
variable {i mask inverted : Nat}

theorem exec_portTraining_other (h : (s.port i).st ≠ 1) : exec (.portTraining i ⟨mask, inverted⟩) s = .next s :=
  congrArg _ (if_pos h)

theorem exec_portTraining_ends (h : (s.port i).st = 1) :
    let u := (List.range 8).foldl (fun x j => x.modLane (8 * i + j) (fun y =>
      if y.st = 2 ∧ bit mask j then { y with st := 0, inverted := bit inverted j, slot := 0 } else y)) s
    exec (.portTraining i ⟨mask, inverted⟩) s = .next (if u.miswired i then u.portTo i 5 (u.laneMask i)
      else u.setWidth i (u.laneMask i)) := congrArg _ (if_neg (not_not_intro h))

theorem exec_retrainInterval_down (down : (s.port i).st = 4) (auto : (s.port i).autoRetrain = true) :
    exec (.retrainInterval i) s = .next
      ((s.untilRoot ((s.port i).since + 1000 * (s.port i).retrainInterval.toNat * 6000)).toTraining i) :=
  congrArg _ (if_pos ⟨down, auto⟩)

end

/-! ### Lanes that leave service (R353, R354) -/

section
variable {lane errors symbols uncorr margin : Nat}

/-- A lane once a window's errors are counted. -/
def State.windowCounted (s : State) (lane errors uncorr margin : Nat) : State :=
  s.modLane lane (fun x => { x with
    corr := BitVec.ofNat 48 (satAdd 48 x.corr.toNat errors), uncorr := BitVec.ofNat 16 (satAdd 16 x.uncorr.toNat uncorr)
    margin := BitVec.ofNat 8 (min 255 margin) })

theorem exec_laneErrorWindow_bad (service : (s.lane lane).st = 0) (bad : symbols < errors * 2 ^ (s.lane lane).serLimit.toNat ∨
    (s.lane lane).uncorrLimit.toNat < uncorr ∨ margin < (s.lane lane).marginLimit.toNat) :
    exec (.laneErrorWindow lane errors symbols uncorr margin) s = .next
      ((s.windowCounted lane errors uncorr margin).retireLane lane true) := congrArg _ (if_pos ⟨service, bad⟩)

theorem exec_laneErrorWindow_good (h : (s.lane lane).st ≠ 0 ∨ ¬(symbols < errors * 2 ^ (s.lane lane).serLimit.toNat ∨
    (s.lane lane).uncorrLimit.toNat < uncorr ∨ margin < (s.lane lane).marginLimit.toNat)) :
    exec (.laneErrorWindow lane errors symbols uncorr margin) s = .next (s.windowCounted lane errors uncorr margin) :=
  congrArg _ (if_neg (not_and_or.mpr h))

theorem exec_lockLoss_service (h : (s.lane lane).st = 0) : exec (.lockLoss lane) s = .next (s.retireLane lane true) :=
  congrArg _ (if_pos h)

theorem exec_lockLoss_other (h : (s.lane lane).st ≠ 0) : exec (.lockLoss lane) s = .next s := congrArg _ (if_neg h)

end

section
variable {v : Nat}

theorem exec_laneRetire_unserved (h : s.laneServed = false) : exec (.laneRetire v) s = .next s :=
  congrArg _ (if_pos (by rw [h]; rfl))

theorem exec_portEnable_unserved (h : s.laneServed = false) : exec (.portEnable v) s = .next s :=
  congrArg _ (if_pos (by rw [h]; rfl))

variable (served : s.laneServed = true)
include served

theorem exec_laneRetire_served : exec (.laneRetire v) s = .next (if 144 ≤ s.sel.lane.toNat then s.hostErrOpen 3
    else if bit v 0 then s.retireLane s.sel.lane.toNat true else s) := congrArg _ (if_neg (by rw [served]; decide))

theorem exec_portEnable_served : exec (.portEnable v) s = .next (if s.sel.port.toNat < 18
    then s.portSetEnable s.sel.port.toNat (bit v 0) else s.hostErrOpen 3) := congrArg _ (if_neg (by rw [served]; decide))

end

/-! ### ENABLE (R355) -/

section
variable {i : Nat} {on : Bool}

theorem State.portSetEnable_starts (set : on = true) (was : (s.port i).enable = false) :
    s.portSetEnable i on = (s.modPort i (fun x => { x with enable := true })).toTraining i := by
  subst set
  exact if_pos (by rw [was]; rfl)

theorem State.portSetEnable_stops (clear : on = false) (was : (s.port i).enable = true) :
    s.portSetEnable i on = (s.modPort i (fun x => { x with enable := false })).portDown i 0 0 := by
  subst clear
  exact if_pos (by rw [was]; rfl)

theorem State.portSetEnable_same (same : on = (s.port i).enable) :
    s.portSetEnable i on = s.modPort i (fun x => { x with enable := on }) :=
  (if_neg (by rw [← same, Bool.and_not_self]; decide)).trans (if_neg (by rw [← same, Bool.not_and_self]; decide))

end

end

end Sys2Proof.Machine

namespace Sys2Proof.Settled
open Sys2Proof.Machine

/-- Settles O46: each row by the state of its lane or port; of an equaliser request once more by the tap. -/
theorem portsAndLanes : Obligations.PortsAndLanes := by
  unfold Obligations.PortsAndLanes
  refine ⟨fun _ _ _ _ => rfl, fun s lane tap up => ⟨exec_equaliserRequest_early, fun free => ?equaliser⟩,
    fun s lane index node peer dir mask => ⟨exec_alignmentCodeword_miswired, exec_alignmentCodeword_training,
      exec_alignmentCodeword_down, exec_alignmentCodeword_up⟩,
    fun s i mask inverted => ⟨exec_portTraining_other, exec_portTraining_ends⟩,
    fun s i => exec_retrainInterval_down,
    fun s lane errors symbols uncorr margin => ⟨exec_laneErrorWindow_bad, exec_laneErrorWindow_good⟩,
    fun s lane => ⟨exec_lockLoss_service, exec_lockLoss_other⟩, fun s v served => ?selected,
    fun s v h => ⟨exec_laneRetire_unserved h, exec_portEnable_unserved h⟩⟩
  case equaliser =>
    rw [exec_equaliserRequest_moves free]
    refine ⟨fun h => ?_, fun h => ?_, fun above below => ?_, fun h => ?_⟩
    · simp only [Lane.equalise_ffe h]
    · simp only [Lane.equalise_ctle h]
    · simp only [Lane.equalise_rxFfe above below]
    · simp only [Lane.equalise_dfe h]
  case selected =>
    rw [exec_laneRetire_served served, exec_portEnable_served served]
    refine ⟨fun lane retire => ?_, fun lane keep => ?_, fun none => ?_, fun port set was => ?_, fun port clear was => ?_,
      fun port same => ?_, fun none => ?_⟩
    · rw [if_neg (Nat.not_le.mpr lane), if_pos retire]
    · rw [if_neg (Nat.not_le.mpr lane), if_neg (Bool.eq_false_iff.mp keep)]
    · rw [if_pos none]
    · rw [if_pos port, State.portSetEnable_starts set was]
    · rw [if_pos port, State.portSetEnable_stops clear was]
    · rw [if_pos port, State.portSetEnable_same same]
    · rw [if_neg (Nat.not_lt.mpr none)]

end Sys2Proof.Settled
end

/-! ## Proofs: collectives -/
section
namespace Sys2Proof.Machine
open Sys2Proof.Claims

/-! ### COLLECTIVE, RESHARD and KV_RING (R358, R361, R373, R375, R379) -/

section
variable {s t : State} {q : Nat} {w : Waiting}

theorem exec_collRow_ok {op : Nat} {body : State → Nat → List Byte → Except Earned State} (h : Dispatches s q op w)
    (ok : body (begun s q w) w.id w.bytes = .ok t) : (s.dispatch q op body).collsGo = (t.pump q).collsGo :=
  congrArg State.collsGo (State.dispatch_ok h.1 h.2 ok)

theorem exec_collRow_error {op : Nat} {e : Earned} {body : State → Nat → List Byte → Except Earned State}
    (h : Dispatches s q op w) (bad : body (begun s q w) w.id w.bytes = .error e) :
    (s.dispatch q op body).collsGo = ((s.endWaiting q e).pump q).collsGo :=
  congrArg State.collsGo (State.dispatch_error h.1 h.2 bad)

section
variable {b : List Byte} {cache : Option (Nat × Nat)}
  (desc : (begun s q w).collDesc q (cAddr w.bytes 16) = .ok (b, cache))
include desc

theorem exec_collective_conflict (h : Dispatches s q 0x50 w)
    (there : ((begun s q w).collOf (partOf s q) (cdJob b) (cdColl b)).isSome = true) :
    exec (.collective q) s = .next ((s.endWaiting q ⟨0x0104, 1, 0⟩).pump q).collsGo :=
  congrArg _ (exec_collRow_error h (by rw [desc]; exact if_pos there))

theorem exec_collective_joins (h : Dispatches s q 0x50 w)
    (new : (begun s q w).collOf (partOf s q) (cdJob b) (cdColl b) = none)
    (joins : (begun s q w).addColl q w.id 0x50 b (nodesAt b 96 (cdCount b)) (cdJob b) (cdColl b) 0 cache = .ok t) :
    exec (.collective q) s = .next (t.pump q).collsGo :=
  congrArg _ (exec_collRow_ok h (by
    rw [desc]
    exact (if_neg (Bool.eq_false_iff.mp (Option.isSome_eq_false_iff.mpr (Option.isNone_iff_eq_none.mpr new)))).trans joins))

theorem exec_reshard_epoch (h : Dispatches s q 0x51 w) (permute : cdKind b = 5)
    (other : fld w.bytes 24 4 ≠ ((begun s q w).jobEpoch (partOf s q) (cdJob b) + 1) % 2 ^ 32) :
    exec (.reshard q) s = .next ((s.endWaiting q ⟨0x0103, 24, 0⟩).pump q).collsGo :=
  congrArg _ (exec_collRow_error h (by
    rw [desc]
    exact (if_neg (not_not_intro permute)).trans (if_pos (.inr other))))

theorem exec_reshard_joins (h : Dispatches s q 0x51 w) (permute : cdKind b = 5)
    (next : fld w.bytes 24 4 = ((begun s q w).jobEpoch (partOf s q) (cdJob b) + 1) % 2 ^ 32)
    (free : fld w.bytes 24 4 ≠ 0xFFFFFFFF)
    (joins : (begun s q w).addColl q w.id 0x51 b (nodesAt b 96 (cdCount b)) (cdJob b) (cdColl b) (fld w.bytes 24 4) none =
      .ok t) : exec (.reshard q) s = .next (t.pump q).collsGo :=
  congrArg _ (exec_collRow_ok h (by
    rw [desc]
    exact (if_neg (not_not_intro permute)).trans ((if_neg (not_or.mpr ⟨free, not_not_intro next⟩)).trans joins)))

end

theorem exec_kvRing_joins (h : Dispatches s q 0x52 w) {b : List Byte}
    (desc : (begun s q w).kvDesc q (cAddr w.bytes 16) = .ok b)
    (new : (begun s q w).collOf (partOf s q) (fld b 0 4) (fld b 4 4) = none)
    (joins : (begun s q w).addColl q w.id 0x52 b (nodesAt b 64 (fld b 8 2)) (fld b 0 4) (fld b 4 4) 0 none = .ok t) :
    exec (.kvRing q) s = .next (t.pump q).collsGo :=
  congrArg _ (exec_collRow_ok h (by
    rw [desc]
    exact (if_neg (Bool.eq_false_iff.mp (Option.isSome_eq_false_iff.mpr (Option.isNone_iff_eq_none.mpr new)))).trans joins))

end

/-! ### Jobs and the list of collectives (R357, R358) -/

section
variable {s : State}

theorem State.withJob_there {p j : Nat} (h : (s.job p j).isSome = true) : s.withJob p j = some s := if_pos h

/-- A collective joins the list with the fields of its command and its descriptor. -/
theorem State.addColl_there {q id op job coll epoch : Nat} {b : List Byte} {ns : List Nat} {cache : Option (Nat × Nat)}
    (h : (s.job (partOf s q) job).isSome = true) :
    ∃ c : Coll, s.addColl q id op b ns job coll epoch cache = .ok (s.modWork (fun k => { k with colls := k.colls ++ [c] })) ∧
      c.id = id ∧ c.q = q ∧ c.part = partOf s q ∧ c.op = op ∧ c.members = ns ∧ c.job = job ∧ c.collId = coll ∧
      c.rank = ns.findIdx (fun x => x == (s.part (partOf s q)).node.toNat) ∧ c.started = false := by
  have entry : s.withJob (s.queue q).part.toNat job = some s := State.withJob_there h
  unfold State.addColl
  simp only [entry]
  exact ⟨_, rfl, rfl, rfl, rfl, rfl, rfl, rfl, rfl, rfl, rfl⟩

/-! ### The resend of a CLEAR, and COLL_TIMEOUT (R363, R382) -/

section
variable {c : Coll} {m : Nat} (live : s.frozen = false) (there : s.coll c.id = some c)
include live there

theorem exec_clearResend_due {due : Nat} {l : List (Nat × Nat)}
    (busy : takeFirst (fun (r, _) => r == m) c.busy = some ((m, due), l)) : exec (.clearResend c.id m) s = .next
      ((((s.untilRoot due).onColl c.id (fun c => { c with busy := l })).sendColl c m (c.clearFor m)).collDown c.id).collsGo := by
  refine congrArg _ ((State.unlessFrozen_next live _).trans ?_)
  rw [there]
  simp only [busy]

theorem exec_collTimeout_unawaited (none : Tbl.find c.timers m = none) : exec (.collTimeout c.id m) s = .next s := by
  refine congrArg _ ((State.unlessFrozen_next live _).trans ?_)
  rw [there]
  simp only [none]

theorem exec_collTimeout_awaited {since : Nat} (awaited : Tbl.find c.timers m = some since) :
    exec (.collTimeout c.id m) s = .next (((s.untilLive (since + s.mod.collTimeout.toNat * 6000)).collFail c
      ⟨0x0502, c.node m, 0⟩ (some (0x0502, c.node m))).collsGo) := by
  refine congrArg _ ((State.unlessFrozen_next live _).trans ?_)
  rw [there]
  simp only [awaited]
  rfl

end

/-! ### EPOCH (R357) -/

theorem State.jobBusy_iff {p j : Nat} : s.work.colls.any (fun c => c.part == p && c.job == j) = true ↔
    ∃ c ∈ s.work.colls, c.part = p ∧ c.job = j := by
  simp only [List.any_eq_true, Bool.and_eq_true, beq_iff_eq]

theorem exec_jobEpoch_unserved {v : Nat} (h : s.modServed = false) : exec (.jobEpoch v) s = .next s :=
  congrArg _ (if_neg (Bool.eq_false_iff.mp h))

theorem exec_jobEpoch_served {v : Nat} (h : s.modServed = true) : exec (.jobEpoch v) s = .next (s.writeJobEpoch v) :=
  congrArg _ (if_pos h)

section
variable {v : Nat}

theorem State.writeJobEpoch_refused (h : v % 2 ^ 32 = 0xFFFFFFFF ∨
    ∃ c ∈ s.work.colls, c.part = s.log.jobPart.toNat ∧ c.job = s.log.jobSel.toNat) : s.writeJobEpoch v = s.hostErrOpen 6 :=
  if_pos (h.imp_right State.jobBusy_iff.mpr)

variable (epoch : v % 2 ^ 32 ≠ 0xFFFFFFFF)
  (idle : ¬∃ c ∈ s.work.colls, c.part = s.log.jobPart.toNat ∧ c.job = s.log.jobSel.toNat)
include epoch idle

theorem State.writeJobEpoch_absent (absent : s.nParts ≤ s.log.jobPart.toNat) : s.writeJobEpoch v = s.hostErrOpen 4 :=
  (if_neg (not_or.mpr ⟨epoch, mt State.jobBusy_iff.mp idle⟩)).trans (if_pos absent)

theorem State.writeJobEpoch_there (there : s.log.jobPart.toNat < s.nParts) {t : State}
    (entry : s.withJob s.log.jobPart.toNat s.log.jobSel.toNat = some t) : s.writeJobEpoch v =
      t.onJob s.log.jobPart.toNat s.log.jobSel.toNat (fun x => { x with epoch := v % 2 ^ 32 }) := by
  refine (if_neg (not_or.mpr ⟨epoch, mt State.jobBusy_iff.mp idle⟩)).trans ((if_neg (Nat.not_le.mpr there)).trans ?_)
  rw [entry]

end

end

end Sys2Proof.Machine

namespace Sys2Proof.Settled
open Sys2Proof.Machine Sys2Proof.Claims

/-- Settles O25: the three commands by what their descriptors say, the collective's own rows, and EPOCH by who may write
it. -/
theorem collectiveRows : Obligations.CollectiveRows := by
  unfold Obligations.CollectiveRows
  refine ⟨fun s q w => ⟨fun h b cache desc => ⟨exec_collective_conflict desc h, fun new v =>
        exec_collective_joins desc h new⟩,
      fun h b cache desc permute => ⟨exec_reshard_epoch desc h permute, fun next free v =>
        exec_reshard_joins desc h permute next free⟩,
      fun h b desc new v => exec_kvRing_joins h desc new, fun op b ns job coll epoch cache => State.addColl_there⟩,
    fun s c m due l live there busy => exec_clearResend_due live there busy,
    fun s c m live there => ⟨exec_collTimeout_unawaited live there, fun since => exec_collTimeout_awaited live there⟩,
    fun s v => ⟨exec_jobEpoch_unserved, fun served => ?_⟩⟩
  rw [exec_jobEpoch_served served]
  refine ⟨fun refused => ?_, fun epoch idle absent => ?_, fun epoch idle there t entry => ?_⟩
  · rw [State.writeJobEpoch_refused refused]
  · rw [State.writeJobEpoch_absent epoch idle absent]
  · rw [State.writeJobEpoch_there epoch idle there entry]

end Sys2Proof.Settled
end

/-! ## Proofs: frames of collectives -/
section
namespace Sys2Proof.Machine
open Sys2Proof.Claims

/-! ### Frames that may not act (R364, R381) -/

section
variable {s v : State} {p : Nat} {t : Txn}

/-- A repeat, or a frame of a completed collective, is counted. -/
def State.collDuplicate (s : State) : State :=
  s.modMod (fun m => { m with collDup := BitVec.ofNat 32 (satAdd 32 m.collDup.toNat 1) })

section
variable {h : CollHdr}

theorem State.admitColl_stale (old : h.epoch < s.jobEpoch p h.job) : s.admitColl p t h =
    (if t.type = 6 ∧ (h.op = 2 ∨ h.op = 3) then s.countStale h.epoch
      else (s.countStale h.epoch).answerColl p t h 3 (s.jobEpoch p h.job), false) := if_pos old

theorem State.admitColl_done (now : s.jobEpoch p h.job ≤ h.epoch) (done : ∃ j, s.job p h.job = some j ∧ h.coll ∈ j.done) :
    s.admitColl p t h = (s.collDuplicate, false) := by
  obtain ⟨j, job, listed⟩ := done
  refine (if_neg (Nat.not_lt.mpr now)).trans (if_pos ?_)
  rw [job]
  exact List.contains_iff_mem.mpr listed

theorem State.admitColl_current (current : Current s p h) : s.admitColl p t h = (s, true) := by
  obtain ⟨now, undone⟩ := current
  refine (if_neg (Nat.not_lt.mpr now)).trans (if_neg ?_)
  rw [Option.any_eq_true]
  rintro ⟨j, job, listed⟩
  exact undone j job (List.contains_iff_mem.mp listed)

end

section
variable {f : State → Coll → CollHdr → State}

theorem State.collFrame_refused (refused : s.admitColl p t (decodeColl t.data) = (v, false)) : s.collFrame p t f = v := by
  simp only [State.collFrame, refused]
  rfl

variable (current : Current s p (decodeColl t.data)) {k : Coll} (names : named s p (decodeColl t.data) = some k)
include current names

theorem State.collFrame_repeat (seen : (decodeColl t.data).ident (t.type == 5) (k.op == 0x52) ∈ k.seen) :
    s.collFrame p t f = s.collDuplicate := by
  unfold named at names
  simp only [State.collFrame, State.admitColl_current current, names]
  exact if_pos (List.contains_iff_mem.mpr seen)

theorem State.collFrame_acts (new : (decodeColl t.data).ident (t.type == 5) (k.op == 0x52) ∉ k.seen) {d : Coll}
    (there : (noted s t k (decodeColl t.data)).coll k.id = some d) :
    s.collFrame p t f = (f (noted s t k (decodeColl t.data)) d (decodeColl t.data)).collsGo := by
  unfold named at names
  unfold noted at there ⊢
  simp only [State.collFrame, State.admitColl_current current, names]
  refine (if_neg (mt List.contains_iff_mem.mp new)).trans ?_
  rw [there]

end

/-! ### CLEAR (R363, R381) -/

/-- What a CLEAR does to the collective that takes it. -/
def State.clearActs (s : State) (c : Coll) (h : CollHdr) : State := (s.takeClear c.id h).rendezvous c.id

theorem named_isSome {h : CollHdr} : (named s p h).isSome = s.work.colls.any
    (fun c => c.part == p && c.job == h.job && c.collId == h.coll && c.started && c.epoch == h.epoch) :=
  Bool.eq_iff_iff.mpr (List.find?_isSome.trans List.any_eq_true.symm)

theorem State.clearFrame_named {k : Coll} (names : named s p (decodeColl t.data) = some k) :
    s.clearFrame p t = s.collFrame p t State.clearActs := if_pos (by rw [← named_isSome, names]; rfl)

theorem State.clearFrame_unnamed (none : named s p (decodeColl t.data) = none) : s.clearFrame p t =
    let a := s.admitColl p t (decodeColl t.data)
    if !a.2 then a.1
    else if 8192 ≤ (a.1.part p).clears.length then a.1.answerColl p t (decodeColl t.data) 4 (decodeColl t.data).epoch
    else a.1.modPart p (fun x => { x with clears := x.clears ++ [t] }) := if_neg (by rw [← named_isSome, none]; decide)

theorem State.clearFrame_refused (refused : s.admitColl p t (decodeColl t.data) = (v, false)) : s.clearFrame p t = v := by
  cases names : named s p (decodeColl t.data) with
  | some k => rw [State.clearFrame_named names, State.collFrame_refused refused]
  | none =>
    rw [State.clearFrame_unnamed names, refused]
    rfl

section
variable (current : Current s p (decodeColl t.data)) (none : named s p (decodeColl t.data) = none)
include current none

theorem State.clearFrame_pends (room : (s.part p).clears.length < 8192) :
    s.clearFrame p t = s.modPart p (fun x => { x with clears := x.clears ++ [t] }) := by
  rw [State.clearFrame_unnamed none, State.admitColl_current current]
  exact if_neg (Nat.not_le.mpr room)

theorem State.clearFrame_busy (full : 8192 ≤ (s.part p).clears.length) :
    s.clearFrame p t = s.answerColl p t (decodeColl t.data) 4 (decodeColl t.data).epoch := by
  rw [State.clearFrame_unnamed none, State.admitColl_current current]
  exact if_pos full

end

/-! ### A segment acts (R362, R371, R377, R379) -/

section
variable {d : Coll} {h : CollHdr}

theorem State.collSeg_permute (other : d.op ≠ 0x52) (permute : d.kind = 5)
    (fits : h.seq + h.scales * 2 ^ 32 + h.contrib ≤ cdDstScale d.desc) : s.collSeg t d h =
      (((List.range (ceilDiv h.contrib 32)).foldl (fun x n =>
        x.wrAt d.part (cdDst d.desc + (h.seq + h.scales * 2 ^ 32) + 32 * n)
          ((t.data.drop (32 + 32 * n)).take (min 32 (h.contrib - 32 * n))) (bit t.poison (n + 1))) s).onColl d.id (fun c =>
            { c with bytesIn := c.bytesIn + h.contrib, flags := c.flags ||| h.flags % 4 })).collGo d.id :=
  (if_neg other).trans ((if_pos permute).trans (if_neg (Nat.not_lt.mpr fits)))

theorem State.collSeg_kvRing (ring : d.op = 0x52) (rank : h.rank = d.pred) (step : h.contrib = d.swaps + 1)
    (fits : h.seq < kvTiles d.desc * kvSegs d.desc) : s.collSeg t d h =
      (s.kvLand d h.seq (t.data.drop 32) t.poison).onColl d.id (fun c => { c with bytesIn := c.bytesIn + 1 }) :=
  (if_pos ring).trans (if_pos ⟨rank, step, fits⟩)

theorem State.collSeg_held (other : d.op ≠ 0x52) (kind : d.kind ≠ 5) {i n : Nat}
    (place : segOf (s.planFor d d.rank) h.rank h.seq = some (i, n)) : s.collSeg t d h =
      (s.onColl d.id (fun c => { c with raw := c.raw ++ [(i, n, segUnits t h 3)] })).collGo d.id := by
  refine (if_neg other).trans ((if_neg kind).trans ?_)
  rw [place]

end

end

/-! ### The rows: the frame at the head of the inbox -/

section
variable (p : Nat) (s : State)
theorem exec_collSeg : exec (.collSeg p) s = execCollSeg p s := rfl
theorem exec_clear : exec (.clear p) s = execClear p s := rfl
theorem exec_abort : exec (.abort p) s = execAbort p s := rfl
theorem exec_arrive : exec (.arrive p) s = execArrive p s := rfl
theorem exec_flags : exec (.flags p) s = execFlags p s := rfl
theorem exec_stale : exec (.stale p) s = execStale p s := rfl
theorem exec_busy : exec (.busy p) s = execBusy p s := rfl
end

theorem isCtl_iff {op : Nat} {t : Txn} : isCtl op t = true ↔ t.type = 6 ∧ (decodeColl t.data).op = op := by
  rw [isCtl, Bool.and_eq_true, beq_iff_eq, beq_iff_eq]

section
variable {s : State} {p : Nat} {a : Arrived} {rest : List Arrived} (head : Head s p 2 a rest)
include head

theorem exec_collSeg_takes (type : a.txn.type = 5) :
    exec (.collSeg p) s = .next ((taken s p 2 a rest).collFrame p a.txn (fun s c h => s.collSeg a.txn c h)) := by
  rw [exec_collSeg, execCollSeg, State.deliver_of_head head (by simp [type])]

section
variable (type : a.txn.type = 6)
include type

theorem exec_clear_takes (op : (decodeColl a.txn.data).op = 1) :
    exec (.clear p) s = .next ((taken s p 2 a rest).clearFrame p a.txn) := by
  have ctl : isCtl 1 a.txn = true := isCtl_iff.mpr ⟨type, op⟩
  rw [exec_clear, execClear, State.deliver_of_head head (by rw [ctl, Bool.true_or])]
  exact congrArg _ (if_pos ctl)

theorem exec_clear_unlisted (op : (decodeColl a.txn.data).op = 0 ∨ 6 < (decodeColl a.txn.data).op) :
    exec (.clear p) s = .next (taken s p 2 a rest) := by
  have other : isCtl 1 a.txn = false := by
    refine Bool.eq_false_iff.mpr (fun ctl => ?_)
    have one := (isCtl_iff.mp ctl).2
    omega
  rw [exec_clear, execClear, State.deliver_of_head head (by simpa [type, other] using op)]
  exact congrArg _ (if_neg (Bool.eq_false_iff.mp other))

theorem exec_abort_takes (op : (decodeColl a.txn.data).op = 2) : exec (.abort p) s = .next
    ((taken s p 2 a rest).collFrame p a.txn (fun s c h => s.collFail c (abortStatus h.arg a.txn.src) none)) := by
  rw [exec_abort, execAbort, State.deliver_of_head head (isCtl_iff.mpr ⟨type, op⟩)]

theorem exec_arrive_takes (op : (decodeColl a.txn.data).op = 5) : exec (.arrive p) s = .next
    ((taken s p 2 a rest).collFrame p a.txn (fun s c h =>
      (s.onColl c.id (fun c => { c with arrived := setIns c.arrived h.rank })).collGo c.id)) := by
  rw [exec_arrive, execArrive, State.deliver_of_head head (isCtl_iff.mpr ⟨type, op⟩)]

theorem exec_flags_takes (op : (decodeColl a.txn.data).op = 6) : exec (.flags p) s = .next
    ((taken s p 2 a rest).collFrame p a.txn (fun s c h =>
      (s.onColl c.id (fun c => { c with flagsIn := Tbl.put c.flagsIn h.seq h.flags })).collGo c.id)) := by
  rw [exec_flags, execFlags, State.deliver_of_head head (isCtl_iff.mpr ⟨type, op⟩)]

section
variable {k : Coll} (current : Current (taken s p 2 a rest) p (decodeColl a.txn.data))
  (names : (taken s p 2 a rest).work.colls.find? (fun c => c.part == p && c.job == (decodeColl a.txn.data).job &&
    c.collId == (decodeColl a.txn.data).coll && c.started) = some k)
include current names

theorem exec_stale_ends (op : (decodeColl a.txn.data).op = 3) : exec (.stale p) s = .next
    (((taken s p 2 a rest).collFail k ⟨0x0403, k.epoch, 1⟩ none).collsGo) := by
  rw [exec_stale, execStale, State.deliver_of_head head (isCtl_iff.mpr ⟨type, op⟩)]
  simp only [State.admitColl_current current, names]
  rfl

theorem exec_busy_defers (op : (decodeColl a.txn.data).op = 4) :
    let u := taken s p 2 a rest
    let r := k.members.findIdx (fun x => x == a.txn.src)
    exec (.busy p) s = .next (u.onColl k.id (fun c => { c with
      busy := c.busy ++ [(r, u.clk.root + usRoot 10)], timers := Tbl.put c.timers r u.clk.live })) := by
  rw [exec_busy, execBusy, State.deliver_of_head head (isCtl_iff.mpr ⟨type, op⟩)]
  simp only [State.admitColl_current current, names]
  rfl

end

end

/-- The rows that take a frame for a collective, each with the frame it takes. -/
def collFrameRow (p : Nat) (t : Txn) (c : Instr) : Prop :=
  (c = .collSeg p ∧ t.type = 5) ∨ (t.type = 6 ∧
    ((c = .clear p ∧ (decodeColl t.data).op = 1) ∨ (c = .abort p ∧ (decodeColl t.data).op = 2) ∨
      (c = .arrive p ∧ (decodeColl t.data).op = 5) ∨ (c = .flags p ∧ (decodeColl t.data).op = 6)))

section
variable {c : Instr} (row : collFrameRow p a.txn c)
include row

/-- A row's frame is a frame of a collective, or a CLEAR. -/
theorem exec_collFrameRow : exec c s = .next ((taken s p 2 a rest).clearFrame p a.txn) ∨
    ∃ f, exec c s = .next ((taken s p 2 a rest).collFrame p a.txn f) := by
  obtain ⟨rfl, type⟩ | ⟨type, ⟨rfl, op⟩ | ⟨rfl, op⟩ | ⟨rfl, op⟩ | ⟨rfl, op⟩⟩ := row
  · exact .inr ⟨_, exec_collSeg_takes head type⟩
  · exact .inl (exec_clear_takes head type op)
  · exact .inr ⟨_, exec_abort_takes head type op⟩
  · exact .inr ⟨_, exec_arrive_takes head type op⟩
  · exact .inr ⟨_, exec_flags_takes head type op⟩

theorem exec_collFrameRow_refused {v : State}
    (refused : (taken s p 2 a rest).admitColl p a.txn (decodeColl a.txn.data) = (v, false)) : exec c s = .next v := by
  obtain clear | ⟨f, frame⟩ := exec_collFrameRow head row
  · rw [clear, State.clearFrame_refused refused]
  · rw [frame, State.collFrame_refused refused]

theorem exec_collFrameRow_repeat {k : Coll} (current : Current (taken s p 2 a rest) p (decodeColl a.txn.data))
    (names : named (taken s p 2 a rest) p (decodeColl a.txn.data) = some k)
    (seen : (decodeColl a.txn.data).ident (a.txn.type == 5) (k.op == 0x52) ∈ k.seen) :
    exec c s = .next (taken s p 2 a rest).collDuplicate := by
  obtain clear | ⟨f, frame⟩ := exec_collFrameRow head row
  · rw [clear, State.clearFrame_named names, State.collFrame_repeat current names seen]
  · rw [frame, State.collFrame_repeat current names seen]

end

end

/-- Of the rows only ABORT takes a frame that draws no STALE. -/
theorem collFrameRow_abort {p : Nat} {t : Txn} {c : Instr} (row : collFrameRow p t c) :
    (t.type = 6 ∧ ((decodeColl t.data).op = 2 ∨ (decodeColl t.data).op = 3)) ↔ c = .abort p := by
  obtain ⟨rfl, type⟩ | ⟨type, ⟨rfl, op⟩ | ⟨rfl, op⟩ | ⟨rfl, op⟩ | ⟨rfl, op⟩⟩ := row <;> simp [*]

end Sys2Proof.Machine

namespace Sys2Proof.Settled
open Sys2Proof.Machine Sys2Proof.Claims

/-- Settles O43: a frame is refused, repeats one, or acts; which row takes it matters to its own effect alone. -/
theorem collectiveFrames : Obligations.CollectiveFrames := by
  unfold Obligations.CollectiveFrames
  intro s p a rest head
  refine ⟨fun c row old => ?stale, fun c row now done => exec_collFrameRow_refused head row (State.admitColl_done now done),
    fun c k row current names seen => exec_collFrameRow_repeat head row current names seen,
    fun k d current names new there => ⟨fun type other permute fits => ?_, fun type ring rank step fits => ?_,
      fun type other kind i n place => ?_, fun type op => ?_, fun type op => ?_, fun type op => ?_, fun type op => ?_⟩,
    fun type op current none => ⟨fun room => ?_, fun full => ?_⟩, fun type op => exec_clear_unlisted head type op,
    fun k type current names => ⟨exec_stale_ends head type current names, exec_busy_defers head type current names⟩⟩
  case stale =>
    rw [exec_collFrameRow_refused head row (State.admitColl_stale old)]
    exact congrArg _ (if_congr (collFrameRow_abort row) rfl rfl)
  · rw [exec_collSeg_takes head type, State.collFrame_acts current names new there, State.collSeg_permute other permute fits]
  · rw [exec_collSeg_takes head type, State.collFrame_acts current names new there, State.collSeg_kvRing ring rank step fits]
  · rw [exec_collSeg_takes head type, State.collFrame_acts current names new there, State.collSeg_held other kind place]
  · rw [exec_clear_takes head type op, State.clearFrame_named names, State.collFrame_acts current names new there,
      State.clearActs]
  · rw [exec_abort_takes head type op, State.collFrame_acts current names new there]
  · rw [exec_arrive_takes head type op, State.collFrame_acts current names new there]
  · rw [exec_flags_takes head type op, State.collFrame_acts current names new there]
  · rw [exec_clear_takes head type op, State.clearFrame_pends current none room]
  · rw [exec_clear_takes head type op, State.clearFrame_busy current none full]

end Sys2Proof.Settled
end

/-! ## Proofs: lichen pairs -/
section
namespace Sys2Proof.Machine
open Sys2Proof.Claims

/-! ### PAIR_CONFIG (R386) -/

/-- A partition once its pairing has ended: UNPAIRED, and a survivor's is READY again. -/
def Part.unpaired (y : Part) : Part :=
  { y with
    st := if y.st = 6 then 1 else y.st
    pair := { y.pair with st := 0, mode := 0, landed := [], unacked := [], partnerForm := none, partnerCommit := none } }

/-- A pair that takes the fields of PAIR_CONFIG and forms with the node of its peer. -/
def Pair.forming (y : Pair) (b : List Byte) (partner : Nat) : Pair :=
  { y with
    before := if y.st = 1 ∨ y.st = 3 then y.before else y.st, st := 1, mode := fld b 16 1, ports := fld b 20 4
    base := cAddr b 24, bytes := fld b 32 8, partner := partner }

section
variable {s t : State} {q id : Nat} {b : List Byte}

theorem State.pairConfig_ends (mode : fld b 16 1 = 0) :
    let p := partOf s q
    let v := (s.startAt q id s.mclk).modPart p Part.unpaired
    s.pairConfig q id b = .ok (((if (s.part p).st == 6 then v.event 1 else v).ackAll p).finish q id [⟨0, 0, 0⟩]) := by
  simp only [State.pairConfig, mode, if_true, State.startAt_part]
  rfl

theorem State.pairConfig_forms (mode : fld b 16 1 ≠ 0) (fields : s.pairFieldsBad q b = none)
    (sends : ((s.startAt q id s.mclk).onPair (partOf s q) (fun y => y.forming b
        (s.port ((maskPorts (fld b 20 4)).getD 0 0)).peerNode.toNat)).sendPair (partOf s q) 3
      (pairData (fld b 16 1) (fld b 32 8) (s.part (partOf s q)).pair.commitStep.toNat
        (s.part (partOf s q)).pair.epoch.toNat ((s.part (partOf s q)).pair.st == 4)) = .ok t) :
    s.pairConfig q id b = .ok (t.formMatch (partOf s q)) := by
  rw [← State.startAt_port s q id s.mclk] at sends
  unfold Pair.forming partOf at sends
  simp only [State.pairConfig, mode, if_false, fields]
  rw [sends]
  rfl

section
variable {w : Waiting}

theorem exec_pairConfig (h : Dispatches s q 0x60 w) (ok : (begun s q w).pairConfig q w.id w.bytes = .ok t) :
    exec (.pairConfig q) s = .next (t.pump q) := congrArg _ (State.dispatch_ok h.1 h.2 ok)

/-! ### PAIR_COMMIT (R391) -/

variable (h : Dispatches s q 0x61 w)
include h

theorem exec_pairCommit_conflict (bad : (s.part (partOf s q)).pair.st ≠ 2 ∨
    fld w.bytes 16 8 < (s.part (partOf s q)).pair.commitStep.toNat) :
    exec (.pairCommit q) s = .next ((s.endWaiting q ⟨0x0104, 6, 0⟩).pump q) :=
  congrArg _ (State.dispatch_error h.1 h.2 (if_pos bad))

section
variable (paired : (s.part (partOf s q)).pair.st = 2)
include paired

theorem exec_pairCommit_same (same : fld w.bytes 16 8 = (s.part (partOf s q)).pair.commitStep.toNat) :
    exec (.pairCommit q) s = .next (((started s q w).finish q w.id [⟨0, 0, 0⟩]).pump q) :=
  congrArg _ (State.dispatch_ok h.1 h.2
    ((if_neg (not_or.mpr ⟨not_not_intro paired, Nat.not_lt.mpr same.ge⟩)).trans (if_pos same)))

theorem exec_pairCommit_later (later : (s.part (partOf s q)).pair.commitStep.toNat < fld w.bytes 16 8)
    (sends : (started s q w).sendPair (partOf s q) 4 (pairData (s.part (partOf s q)).pair.mode
      (s.part (partOf s q)).pair.bytes (fld w.bytes 16 8) (s.part (partOf s q)).pair.epoch.toNat false) = .ok t) :
    exec (.pairCommit q) s = .next (((t.onPair (partOf s q) (fun y => { y with
      unacked := t.outstanding (partOf s q) })).commitCheck (partOf s q)).pump q) := by
  refine congrArg _ (State.dispatch_ok h.1 h.2 ((if_neg (not_or.mpr ⟨not_not_intro paired, Nat.not_lt.mpr later.le⟩)).trans
    ((if_neg later.ne').trans ?_)))
  erw [sends]
  rfl

end
end
end

end Sys2Proof.Machine

namespace Sys2Proof.Settled
open Sys2Proof.Machine Sys2Proof.Claims

/-- Settles O26: PAIR_CONFIG by its MODE, PAIR_COMMIT by the pair's state and the step it names. -/
theorem pairCommands : Obligations.PairCommands := by
  unfold Obligations.PairCommands
  intro s q w
  exact ⟨fun h mode => exec_pairConfig h (State.pairConfig_ends mode),
    fun h mode fields t sends => exec_pairConfig h (State.pairConfig_forms mode fields sends),
    exec_pairCommit_conflict, exec_pairCommit_same, fun h paired later t => exec_pairCommit_later h paired later⟩

end Sys2Proof.Settled
end

/-! ## Proofs: mirror transactions, heartbeats and failover -/
section
namespace Sys2Proof.Machine
open Sys2Proof.Claims

/-! ### Mirror transactions (R389 to R391, R396) -/

theorem isMirror_iff {kind : Nat} {t : Txn} : isMirror kind t = true ↔ t.type = 7 ∧ bits t.addr 52 4 = kind := by
  rw [isMirror, Bool.and_eq_true, beq_iff_eq, beq_iff_eq]

/-- The transaction comes from the partner of a PAIRED member. -/
abbrev State.fromPartner (s : State) (p : Nat) (t : Txn) : Prop := (s.part p).pair.st = 2 ∧ t.src = (s.part p).pair.partner

section
variable (p : Nat) (s : State)
theorem exec_mirrorData : exec (.mirrorData p) s = execMirrorData p s := rfl
theorem exec_groupEnd : exec (.groupEnd p) s = execGroupEnd p s := rfl
theorem exec_scaleRecordEnd : exec (.scaleRecordEnd p) s = execScaleRecordEnd p s := rfl
theorem exec_mirrorAck : exec (.mirrorAck p) s = execMirrorAck p s := rfl
theorem exec_form : exec (.form p) s = execForm p s := rfl
theorem exec_commit : exec (.commit p) s = execCommit p s := rfl
theorem exec_resyncBytes : exec (.resyncBytes p) s = execResyncBytes p s := rfl
end

section
variable {s : State} {p : Nat} {a : Arrived} {rest : List Arrived} (head : Head s p 3 a rest)
include head

section
variable (type : a.txn.type = 7)
include type

theorem exec_mirrorData_takes (kind : bits a.txn.addr 52 4 = 0) : exec (.mirrorData p) s = .next
    (if (taken s p 3 a rest).fromPartner p a.txn then (taken s p 3 a rest).onPair p (fun y => { y with
        landed := y.landed ++ [(a.txn.tseq, bits a.txn.addr 0 52, a.txn.data, a.txn.poison)] })
      else taken s p 3 a rest) := by
  have data := isMirror_iff.mpr ⟨type, kind⟩
  rw [exec_mirrorData, execMirrorData, State.deliver_of_head head (by rw [data, Bool.true_or])]
  exact congrArg _ (if_congr (and_iff_right data) rfl rfl)

theorem exec_groupEnd_takes (kind : bits a.txn.addr 52 4 = 1) : exec (.groupEnd p) s = .next
    (if (taken s p 3 a rest).fromPartner p a.txn then (taken s p 3 a rest).applyLanded p a.txn 1 else taken s p 3 a rest) := by
  rw [exec_groupEnd, execGroupEnd, State.deliver_of_head head (isMirror_iff.mpr ⟨type, kind⟩)]

theorem exec_scaleRecordEnd_takes (kind : bits a.txn.addr 52 4 = 2) : exec (.scaleRecordEnd p) s = .next
    (if (taken s p 3 a rest).fromPartner p a.txn then (taken s p 3 a rest).applyLanded p a.txn 2 else taken s p 3 a rest) := by
  rw [exec_scaleRecordEnd, execScaleRecordEnd, State.deliver_of_head head (isMirror_iff.mpr ⟨type, kind⟩)]

theorem exec_commit_takes (kind : bits a.txn.addr 52 4 = 4) : exec (.commit p) s = .next
    (if (taken s p 3 a rest).fromPartner p a.txn then
      ((taken s p 3 a rest).onPair p (fun y => { y with partnerCommit := some (fld a.txn.data 16 8) })).commitCheck p
      else taken s p 3 a rest) := by
  rw [exec_commit, execCommit, State.deliver_of_head head (isMirror_iff.mpr ⟨type, kind⟩)]

theorem exec_mirrorData_unlisted (kind : 5 < bits a.txn.addr 52 4) : exec (.mirrorData p) s = .next (taken s p 3 a rest) := by
  have other : isMirror 0 a.txn ≠ true := fun h => by
    have zero := (isMirror_iff.mp h).2
    omega
  rw [exec_mirrorData, execMirrorData, State.deliver_of_head head (by simp [type, kind])]
  exact congrArg _ (if_neg (fun h => other h.1))

theorem exec_form_keeps (kind : bits a.txn.addr 52 4 = 3) (known : ((taken s p 3 a rest).part p).pair.st = 1 →
      a.txn.src = ((taken s p 3 a rest).part p).pair.partner) : exec (.form p) s = .next
    (((taken s p 3 a rest).onPair p (fun y => { y with
      partnerForm := some (fld a.txn.data 0 8, fld a.txn.data 8 8, fld a.txn.data 16 8, fld a.txn.data 24 8) })).formMatch
        p) := by
  rw [exec_form, execForm, State.deliver_of_head head (isMirror_iff.mpr ⟨type, kind⟩)]
  exact congrArg _ (if_neg (fun h => h.2 (known h.1)))

theorem exec_resyncBytes_lands (kind : bits a.txn.addr 52 4 = 5) :
    exec (.resyncBytes p) s = .next ((taken s p 3 a rest).resyncBytes p a.txn) := by
  rw [exec_resyncBytes, execResyncBytes, State.deliver_of_head head (isMirror_iff.mpr ⟨type, kind⟩)]

end

theorem exec_mirrorAck_takes (type : a.txn.type = 8) : exec (.mirrorAck p) s = .next
    (if a.txn.src = ((taken s p 3 a rest).part p).pair.partner then (taken s p 3 a rest).mirrorAck p a.txn
      else taken s p 3 a rest) := by
  rw [exec_mirrorAck, execMirrorAck, State.deliver_of_head head (by simp [type])]

end

/-! ### Heartbeats and failover (R393 to R395) -/

section
variable {s : State}

/-- A heartbeat heard: the time-out restarts. -/
def State.heartbeatHeard (s : State) (p : Nat) : State := s.onPair p (fun y => { y with lastHb := s.clk.live })

section
variable {port node epoch : Nat} {frozen faulted ended : Bool}

theorem exec_pairHeartbeat_other
    (h : bit (s.part (s.partOfPort port)).pair.ports port = false ∨ node ≠ (s.part (s.partOfPort port)).pair.partner) :
    exec (.pairHeartbeat port node epoch frozen faulted ended) s = .next s :=
  congrArg _ (if_pos (by simpa using h))

variable (listed : bit (s.part (s.partOfPort port)).pair.ports port = true)
  (partner : node = (s.part (s.partOfPort port)).pair.partner)
include listed partner

theorem exec_pairHeartbeat_frozen (h : (s.heartbeatHeard (s.partOfPort port)).frozen = true) :
    exec (.pairHeartbeat port node epoch frozen faulted ended) s = .next (s.heartbeatHeard (s.partOfPort port)) :=
  congrArg _ ((if_neg (by simp [listed, partner])).trans (if_pos h))

theorem exec_pairHeartbeat_live (h : (s.heartbeatHeard (s.partOfPort port)).frozen = false) :
    exec (.pairHeartbeat port node epoch frozen faulted ended) s = .next
      (if faulted then (s.heartbeatHeard (s.partOfPort port)).failover (s.partOfPort port) 2
        else if ended then (s.heartbeatHeard (s.partOfPort port)).failover (s.partOfPort port) 3
        else s.heartbeatHeard (s.partOfPort port)) :=
  congrArg _ ((if_neg (by simp [listed, partner])).trans (if_neg (Bool.eq_false_iff.mp h)))

end

section
variable {p : Nat}

theorem exec_heartbeatSend_masked (ports : (s.part p).pair.ports ≠ 0) :
    let v := s.untilRoot ((s.part p).pair.sentHb + 1200000)
    exec (.heartbeatSend p) s = .next ((v.heartbeat p).onPair p (fun y => { y with sentHb := v.clk.root })) :=
  congrArg _ (if_neg ports)

theorem exec_heartbeatTimeout_paired (live : s.frozen = false) (paired : (s.part p).pair.st = 2) :
    exec (.heartbeatTimeout p) s = .next
      ((s.untilLive ((s.part p).pair.lastHb + (s.part p).pair.hbTimeout.toNat * 6000)).failover p 1) := by
  refine congrArg _ ((State.unlessFrozen_next live _).trans ?_)
  exact if_neg (not_not_intro paired)

theorem exec_heartbeatTimeout_other (live : s.frozen = false) (other : (s.part p).pair.st ≠ 2) :
    exec (.heartbeatTimeout p) s = .next s := by
  refine congrArg _ ((State.unlessFrozen_next live _).trans ?_)
  exact if_pos other

end

theorem exec_pairFailN (low : Bool) (s : State) :
    let u := s.modPins (fun x => { x with pairFailN := !low })
    exec (.pairFailN low) s = .next (if low = true ∧ u.frozen = false then
      (List.range u.nParts).foldl (fun x p => x.failover p 4) u else u) :=
  congrArg _ (if_congr (by rw [Bool.and_eq_true, Bool.not_eq_true']) rfl rfl)

end

end Sys2Proof.Machine

namespace Sys2Proof.Settled
open Sys2Proof.Machine Sys2Proof.Claims

/-- Settles O44: mirror transactions by their kind and their sender, then the heartbeat rows and PAIR_FAIL_N. -/
theorem pairFrames : Obligations.PairFrames := by
  unfold Obligations.PairFrames
  refine ⟨fun s p a rest head => ⟨fun type mine => ?partner, fun type stranger => ?stranger,
      exec_mirrorData_unlisted head, fun type => ?ack, fun type kind known => exec_form_keeps head type kind known,
      exec_resyncBytes_lands head⟩,
    fun s port node epoch frozen faulted ended => ⟨exec_pairHeartbeat_other, fun listed partner =>
      ⟨exec_pairHeartbeat_frozen listed partner, exec_pairHeartbeat_live listed partner⟩⟩,
    fun s p => ⟨exec_heartbeatSend_masked, exec_heartbeatTimeout_paired, exec_heartbeatTimeout_other⟩,
    fun s low => exec_pairFailN low s⟩
  case partner =>
    refine ⟨fun kind => ?_, fun kind => ?_, fun kind => ?_, fun kind => ?_⟩
    · rw [exec_mirrorData_takes head type kind, if_pos mine]
    · rw [exec_groupEnd_takes head type kind, if_pos mine]
    · rw [exec_scaleRecordEnd_takes head type kind, if_pos mine]
    · rw [exec_commit_takes head type kind, if_pos mine]
  case stranger =>
    refine ⟨fun kind => ?_, fun kind => ?_, fun kind => ?_, fun kind => ?_⟩
    · rw [exec_mirrorData_takes head type kind, if_neg stranger]
    · rw [exec_groupEnd_takes head type kind, if_neg stranger]
    · rw [exec_scaleRecordEnd_takes head type kind, if_neg stranger]
    · rw [exec_commit_takes head type kind, if_neg stranger]
  case ack =>
    rw [exec_mirrorAck_takes head type]
    exact ⟨fun partner => by rw [if_pos partner], fun other => by rw [if_neg other]⟩

end Sys2Proof.Settled
end

/-! ## Proofs: rollback level, firmware mailbox, flash record and debug unlock -/
section
namespace Sys2Proof.Machine

section
variable {s : State} {v : Nat}

/-! ### The anti-rollback level (R416) -/

theorem exec_rollbackCommit_raises (served : s.secServed = true) (commit : bit v 8 = true)
    (lower : s.fuse.rollback.toNat < s.sec.runningSvn.toNat) : exec (.rollbackCommit v) s = .next
    (({ s with fuse := { s.fuse with rollback := BitVec.ofNat 7 (min 64 s.sec.runningSvn.toNat) } } : State).measureState
      s.sec.unlocked) :=
  congrArg _ ((if_pos (Bool.and_eq_true_iff.mpr ⟨served, commit⟩)).trans (if_pos lower))

theorem State.rollbackCommit_kept (h : s.sec.runningSvn.toNat ≤ s.fuse.rollback.toNat) : s.rollbackCommit = s :=
  if_neg (Nat.not_lt.mpr h)

theorem exec_rollbackCommit_kept
    (h : s.secServed = false ∨ bit v 8 = false ∨ s.sec.runningSvn.toNat ≤ s.fuse.rollback.toNat) :
    exec (.rollbackCommit v) s = .next s := by
  rcases h with down | clear | kept
  · exact congrArg _ (if_neg (by simp [down]))
  · exact congrArg _ (if_neg (by simp [clear]))
  · exact congrArg _ ((congrArg (ite _ · s) (State.rollbackCommit_kept kept)).trans (ite_self s))

/-! ### The firmware mailbox (R415, R467) -/

section
variable {svn version : Nat} {verifies : Bool}

theorem exec_fwMbCtrlGo_unserved (h : s.mailServed = false) : exec (.fwMbCtrlGo v verifies svn version) s = .next s :=
  congrArg _ (if_pos (by rw [h]; rfl))

theorem exec_fwMbCtrlGo_idle (served : s.mailServed = true)
    (idle : ¬(bit v 25 = true ∧ (s.writeMbCtrl v).sec.mbStatus ≠ 1)) :
    exec (.fwMbCtrlGo v verifies svn version) s = .next (s.writeMbCtrl v) :=
  congrArg _ ((if_neg (by simp [served])).trans (if_neg (by rwa [Bool.and_eq_true, bne_iff_ne])))

theorem exec_fwMbCtrlGo_block (go : s.mailServed = true ∧ bit v 25 = true ∧ (s.writeMbCtrl v).sec.mbStatus ≠ 1) :
    exec (.fwMbCtrlGo v verifies svn version) s = .next
      ((s.writeMbCtrl v).imageBlock (bits v 0 24) (bit v 24) verifies svn version) := by
  obtain ⟨served, asks, free⟩ := go
  exact congrArg _ ((if_neg (by simp [served])).trans (if_pos (by rw [Bool.and_eq_true, bne_iff_ne]; exact ⟨asks, free⟩)))

end

section
variable {n svn version : Nat} {last verifies : Bool}

/-- The mailbox's status and the block it expects next. -/
def State.mailboxDone (s : State) (st next : Nat) : State :=
  s.modSec (fun y => { y with mbStatus := BitVec.ofNat 2 st, mbNext := next })

/-- The bytes of the slot that is not active, with the mailbox's block behind them. -/
def State.withBlock (s : State) (n : Nat) : List Byte :=
  (if n = 0 then [] else if !s.sec.active then s.flash.image1 else s.flash.image0) ++ slice s.sec.mailbox 0 4096

theorem State.imageBlock_bad (bad : n ≠ s.sec.mbNext ∨ (last = true ∧ verifies = false)) :
    s.imageBlock n last verifies svn version = (s.onSlot (!s.sec.active) false true []).mailboxDone 3 0 := by
  by_cases order : n = s.sec.mbNext
  · obtain other | ⟨rfl, rfl⟩ := bad
    · exact absurd order other
    · exact (if_neg (not_not_intro order)).trans (if_pos rfl)
  · exact if_pos order

variable (good : ¬(n ≠ s.sec.mbNext ∨ (last = true ∧ verifies = false)))
include good

theorem State.imageBlock_more (more : last = false) : s.imageBlock n last verifies svn version =
    (s.onSlot (!s.sec.active) false false (s.withBlock n)).mailboxDone 2 (n + 1) := by
  subst more
  have order : n = s.sec.mbNext := not_not.mp (not_or.mp good).1
  exact (if_neg (not_not_intro order)).trans ((if_neg (by simp)).trans (if_neg (by simp)))

theorem State.imageBlock_last (final : last = true) : s.imageBlock n last verifies svn version =
    (let x := s.onSlot (!s.sec.active) true false (s.withBlock n)
     { x with flash := { (if !s.sec.active then { x.flash with svn1 := svn, version1 := version }
         else { x.flash with svn0 := svn, version0 := version }) with preferred := !s.sec.active } }).mailboxDone 2 0 := by
  subst final
  obtain ⟨order, verified⟩ := not_or.mp good
  exact (if_neg order).trans ((if_neg (by simpa using verified)).trans (if_pos rfl))

end

/-! ### The flash record (R405) -/

section
variable (served : s.allServed = true) (commit : bit v 0 = true)
include served commit

theorem exec_cfgCtrlCommit_whole (ok : recordOk (slice s.sec.cfgRecord 0 256) = true) :
    exec (.cfgCtrlCommit v) s = .next
      { s.modSec (fun x => { x with cfgStatus := 2, cfgShown := slice s.sec.cfgRecord 0 256 }) with
        flash := { s.flash with cfg := slice s.sec.cfgRecord 0 256 } } :=
  congrArg _ ((if_pos (Bool.and_eq_true_iff.mpr ⟨served, commit⟩)).trans (if_pos ok))

theorem exec_cfgCtrlCommit_bad (bad : recordOk (slice s.sec.cfgRecord 0 256) = false) :
    exec (.cfgCtrlCommit v) s = .next (s.modSec (fun x => { x with cfgStatus := 3 })) :=
  congrArg _ ((if_pos (Bool.and_eq_true_iff.mpr ⟨served, commit⟩)).trans (if_neg (Bool.eq_false_iff.mp bad)))

end

theorem exec_cfgCtrlCommit_none (h : s.allServed = false ∨ bit v 0 = false) : exec (.cfgCtrlCommit v) s = .next s :=
  congrArg _ (if_neg (by rwa [Bool.not_eq_true, Bool.and_eq_false_iff]))

/-! ### Debug unlock (R417) -/

section
variable {size : Nat}

@[simp] theorem State.freeBytes_sec (n : Nat) : (s.freeBytes n).2.sec = s.sec := rfl

theorem exec_dbgChallenge_unserved (h : s.secServed = false) :
    exec (.dbgChallenge size) s = .next (s.reply { kind := 1, value := 0 }) := congrArg _ (if_pos (by rw [h]; rfl))

variable (served : s.secServed = true)
include served

theorem exec_dbgChallenge_served : exec (.dbgChallenge size) s = .next
    (s.drawNonce.reply { kind := 1, value := leNat (slice s.drawNonce.sec.challengeBytes 0 size) }) :=
  congrArg _ (if_neg (by simp [served]))

theorem exec_dbgChallenge_fresh (few : s.sec.failures.toNat < 8) :
    let n := s.freeBytes 48
    let c := n.1 ++ leBytes 8 Config.serial.toNat ++ leBytes 1 s.sec.dbgReq.toNat
    exec (.dbgChallenge size) s = .next
      ((n.2.modSec (fun x => { x with challenge := some c })).reply { kind := 1, value := leNat (slice c 0 size) }) := by
  have draws : s.drawNonce = (s.freeBytes 48).2.modSec (fun x => { x with
      challenge := some ((s.freeBytes 48).1 ++ leBytes 8 Config.serial.toNat ++ leBytes 1 x.dbgReq.toNat) }) :=
    if_neg (Nat.not_le.mpr few)
  rw [exec_dbgChallenge_served served, draws]
  rfl

theorem exec_dbgChallenge_spent (spent : 8 ≤ s.sec.failures.toNat) : exec (.dbgChallenge size) s = .next
    ((s.modSec (fun x => { x with challenge := none })).reply { kind := 1, value := leNat (slice [] 0 size) }) := by
  have draws : s.drawNonce = s.modSec (fun x => { x with challenge := none }) := if_pos spent
  rw [exec_dbgChallenge_served served, draws]
  rfl

end

/-- The last word of a response has come. -/
def State.responded (s : State) (v : Nat) : State :=
  s.modSec (fun x => { x with response := setBytes x.response 96 88 (leBytes 8 v) })

section
variable (served : s.secServed = true)
include served

theorem exec_dbgResponse_served (verifies : Bool) : exec (.dbgResponse v verifies) s = .next
    (match s.sec.challenge with
      | some c => if verifies then ((s.responded v).measureState (BitVec.ofNat 2 (fld c 56 1))).modSec (fun x => { x with
          unlocked := BitVec.ofNat 2 (fld c 56 1) }) else (s.responded v).failResponse
      | none => (s.responded v).failResponse) := congrArg _ (if_neg (by simp [served]))

theorem exec_dbgResponse_unlocks {c : List Byte} (drawn : s.sec.challenge = some c) : exec (.dbgResponse v true) s = .next
    (((s.responded v).measureState (BitVec.ofNat 2 (fld c 56 1))).modSec (fun x => { x with
      unlocked := BitVec.ofNat 2 (fld c 56 1) })) := by
  rw [exec_dbgResponse_served served, drawn]
  exact congrArg _ (if_pos rfl)

theorem exec_dbgResponse_fails {verifies : Bool} (h : verifies = false ∨ s.sec.challenge = none) :
    exec (.dbgResponse v verifies) s = .next (s.responded v).failResponse := by
  rw [exec_dbgResponse_served served]
  rcases h with rfl | undrawn
  · split <;> rfl
  · rw [undrawn]

end

end

end Sys2Proof.Machine

namespace Sys2Proof.Settled
open Sys2Proof.Machine

/-- Settles O50: each row by its block's reach and by what its bits and its bytes say. -/
theorem securityRows : Obligations.SecurityRows := by
  unfold Obligations.SecurityRows
  refine ⟨fun s v => ⟨exec_rollbackCommit_raises, exec_rollbackCommit_kept⟩,
    fun s v svn version verifies => ⟨exec_fwMbCtrlGo_unserved, exec_fwMbCtrlGo_idle, fun go bad => ?_, fun go good more => ?_,
      fun go good last => ?_⟩,
    fun s v => ⟨exec_cfgCtrlCommit_whole, exec_cfgCtrlCommit_bad, exec_cfgCtrlCommit_none⟩,
    fun s size => ⟨exec_dbgChallenge_unserved, exec_dbgChallenge_fresh, exec_dbgChallenge_spent⟩,
    fun s v served => ⟨fun c => exec_dbgResponse_unlocks served, exec_dbgResponse_fails served (.inl rfl),
      fun undrawn => exec_dbgResponse_fails served (.inr undrawn)⟩⟩
  · exact (exec_fwMbCtrlGo_block go).trans (congrArg _ (State.imageBlock_bad bad))
  · exact (exec_fwMbCtrlGo_block go).trans (congrArg _ (State.imageBlock_more good more))
  · exact (exec_fwMbCtrlGo_block go).trans (congrArg _ (State.imageBlock_last good last))

end Sys2Proof.Settled
end

/-! ## Proofs: SPDM requests -/
section
namespace Sys2Proof.Machine

/-! ### When a request is served (R411, R412) -/

/-- The requests that need a connection whose capabilities and algorithms are settled. -/
def spdmRow (t : Nat) (c : Instr) : Prop :=
  c = .getDigests t ∨ (∃ a b d, c = .getCertificate t a b d) ∨ (∃ a b d, c = .setCertificate t a b d) ∨
    (∃ a b, c = .challenge t a b) ∨ (∃ a b d, c = .getMeasurements t a b d) ∨ ∃ a, c = .keyExchange t a

section
variable {s : State} {t : Nat}

theorem exec_spdmRow {c : Instr} (row : spdmRow t c) : ∃ f, exec c s = .next (s.spdmServe t Spdm.settled f) := by
  obtain rfl | ⟨a, b, d, rfl⟩ | ⟨a, b, d, rfl⟩ | ⟨a, b, rfl⟩ | ⟨a, b, d, rfl⟩ | ⟨a, rfl⟩ := row
  all_goals exact ⟨_, rfl⟩

/-- Every request is served by the state of its connection. -/
theorem exec_spdmRequest {c : Instr} (row : spdmRow t c ∨ c = .getVersion t ∨ (∃ a, c = .getCapabilities t a) ∨
    ∃ a b, c = .negotiateAlgorithms t a b) : ∃ ready f, exec c s = .next (s.spdmServe t ready f) := by
  obtain row | rfl | ⟨a, rfl⟩ | ⟨a, b, rfl⟩ := row
  · exact ⟨_, exec_spdmRow row⟩
  all_goals exact ⟨_, _, rfl⟩

section
variable {ready : Spdm → Bool} {f : State → State}

theorem State.spdmServe_unserved (h : s.secServed = false) : s.spdmServe t ready f = s := if_pos (by rw [h]; rfl)

variable (served : s.secServed = true)
include served

theorem State.spdmServe_unready (h : ready (s.spdm t) = false) :
    s.spdmServe t ready f = s.reply { kind := 15, value := 4 } :=
  (if_neg (by simp [served])).trans (if_neg (Bool.eq_false_iff.mp h))

theorem State.spdmServe_ready (h : ready (s.spdm t) = true) : s.spdmServe t ready f = f s :=
  (if_neg (by simp [served])).trans (if_pos h)

end

/-! ### The connection (R412, R413) -/

section
variable (served : s.secServed = true)
include served

theorem exec_getVersion : exec (.getVersion t) s = .next
    ((s.modSpdm t (fun _ => { version := 0x12 })).reply { kind := 16, bytes := [0x11, 0x12], value := 0 }) :=
  congrArg _ (State.spdmServe_ready served rfl)

variable (version : (s.spdm t).version ≠ 0)
include version

theorem exec_getCapabilities (v : Nat) : exec (.getCapabilities t v) s = .next
    (if v = 0x11 ∨ v = 0x12 then (s.modSpdm t (fun x => { x with version := v, caps := true })).reply
        { kind := 17, bytes := leBytes 4 4096 ++ leBytes 4 65536, value := 0xFF }
      else s.reply { kind := 15, value := 0x41 }) :=
  congrArg _ (State.spdmServe_ready (ready := fun x => x.version != 0) served (bne_iff_ne.mpr version))

theorem exec_negotiateAlgorithms (caps : (s.spdm t).caps = true) (base hash : Nat) :
    exec (.negotiateAlgorithms t base hash) s = .next
      (if bit base 7 && bit hash 1 then (s.modSpdm t (fun x => { x with algs := true })).reply
          { kind := 18, bytes := leBytes 4 0x80 ++ leBytes 4 0x02, value := 0 }
        else s.reply { kind := 15, value := 1 }) :=
  congrArg _ (State.spdmServe_ready served (Bool.and_eq_true_iff.mpr ⟨bne_iff_ne.mpr version, caps⟩))

end

/-! ### Certificates, measurements and sessions (R413, R414) -/

section
variable (settled : s.secServed = true ∧ (s.spdm t).settled = true)
include settled

theorem State.spdmServe_settled (f : State → State) : s.spdmServe t Spdm.settled f = f s :=
  State.spdmServe_ready settled.1 settled.2

theorem exec_getDigests : exec (.getDigests t) s = .next (s.reply
    { kind := 19, bytes := (([0, 1].filterMap (fun k => (s.certChain k).map hash384)).flatten)
      value := 1 + 2 * b01 (!s.flash.owner.isEmpty) }) := congrArg _ (State.spdmServe_settled settled _)

section
variable {slot : Nat}

theorem exec_getCertificate_chain {c : List Byte} (chain : s.certChain slot = some c) (off len : Nat) :
    exec (.getCertificate t slot off len) s = .next
      (s.reply { kind := 20, bytes := (c.drop off).take len, value := c.length - off - len }) := by
  refine congrArg _ ((State.spdmServe_settled settled _).trans ?_)
  rw [chain]
  rfl

theorem exec_getCertificate_none (none : s.certChain slot = none) (off len : Nat) :
    exec (.getCertificate t slot off len) s = .next (s.reply { kind := 15, value := 1 }) := by
  refine congrArg _ ((State.spdmServe_settled settled _).trans ?_)
  rw [none]
  rfl

theorem exec_challenge_chain {c : List Byte} (chain : s.certChain slot = some c) (nonce : List Byte) :
    exec (.challenge t slot nonce) s = .next
      ((s.freeBytes 96).2.reply { kind := 22, bytes := hash384 c ++ nonce ++ (s.freeBytes 96).1, value := slot }) := by
  refine congrArg _ ((State.spdmServe_settled settled _).trans ?_)
  rw [chain]
  rfl

theorem exec_challenge_none (none : s.certChain slot = none) (nonce : List Byte) :
    exec (.challenge t slot nonce) s = .next (s.reply { kind := 15, value := 1 }) := by
  refine congrArg _ ((State.spdmServe_settled settled _).trans ?_)
  rw [none]
  rfl

theorem exec_setCertificate (chain : List Byte) (leafOk : Bool) : exec (.setCertificate t slot chain leafOk) s = .next
    (if (s.spdm t).sessions.isEmpty then s.reply { kind := 15, value := 6 }
      else if slot = 1 ∧ leafOk then
        ({ s with flash := { s.flash with owner := chain } } : State).reply { kind := 21, bytes := [], value := 1 }
      else s.reply { kind := 15, value := 1 }) := congrArg _ (State.spdmServe_settled settled _)

end

/-- The measurement blocks of a list of indices. -/
def State.measBlocks (s : State) (l : List Nat) : List (List Byte) :=
  l.filterMap (fun i => (s.measured i).map (fun d => leBytes 1 i ++ d))

section
variable {i : Nat} (nonce : List Byte)

theorem exec_getMeasurements_number (zero : i = 0) : exec (.getMeasurements t i false nonce) s = .next
    (s.reply { kind := 23, bytes := [], value := 5 }) := by
  subst zero
  exact congrArg _ (State.spdmServe_settled settled _)

theorem exec_getMeasurements_one (from1 : 1 ≤ i) (to5 : i ≤ 5) : exec (.getMeasurements t i false nonce) s = .next
    (s.reply { kind := 23, bytes := (s.measBlocks [i]).flatten, value := (s.measBlocks [i]).length }) := by
  have ask : (if i = 0 then [] else if i = 0xFF then [1, 2, 3, 4, 5] else [i]) = [i] := by
    rw [if_neg (by omega), if_neg (by omega)]
  refine congrArg _ ((State.spdmServe_settled settled _).trans ?_)
  simp only [ask]
  refine (if_neg (by simp; omega)).trans ?_
  simp only [Bool.false_eq_true, if_false, List.append_nil, if_neg (show i ≠ 0 by omega)]
  rfl

theorem exec_getMeasurements_all (all : i = 0xFF) : exec (.getMeasurements t i true nonce) s = .next
    ((s.freeBytes 96).2.reply { kind := 23, value := (s.measBlocks [1, 2, 3, 4, 5]).length
                                bytes := (s.measBlocks [1, 2, 3, 4, 5]).flatten ++ nonce ++ (s.freeBytes 96).1 }) := by
  subst all
  exact congrArg _ (State.spdmServe_settled settled _)

theorem exec_getMeasurements_unknown (above : 5 < i) (notAll : i ≠ 0xFF) (sign : Bool) :
    exec (.getMeasurements t i sign nonce) s = .next (s.reply { kind := 15, value := 1 }) := by
  have ask : (if i = 0 then [] else if i = 0xFF then [1, 2, 3, 4, 5] else [i]) = [i] := by
    rw [if_neg (by omega), if_neg notAll]
  refine congrArg _ ((State.spdmServe_settled settled _).trans ?_)
  simp only [ask]
  exact if_pos (by simp [above])

end

theorem exec_keyExchange_full (full : 4 ≤ s.doe.sessions.length + s.mctp.sessions.length) (point : List Byte) :
    exec (.keyExchange t point) s = .next (s.reply { kind := 15, value := 0x0A }) := by
  refine congrArg _ ((State.spdmServe_settled settled _).trans ?_)
  exact if_pos full

theorem exec_keyExchange_opens (room : s.doe.sessions.length + s.mctp.sessions.length < 4) (point : List Byte) :
    let u : State := { s with uid := s.uid + 1 }
    exec (.keyExchange t point) s = .next (((u.freeBytes 96).2.modSpdm t (fun x => { x with
      sessions := x.sessions ++ [s.uid] })).reply { kind := 24, bytes := (u.freeBytes 96).1, value := s.uid }) := by
  refine congrArg _ ((State.spdmServe_settled settled _).trans ?_)
  exact if_neg (Nat.not_le.mpr room)

end
end

end Sys2Proof.Machine

namespace Sys2Proof.Settled
open Sys2Proof.Machine

/-- Settles O51: a request by the state of its connection, then each by what it asks for. -/
theorem spdmRows : Obligations.SpdmRows := by
  unfold Obligations.SpdmRows
  refine fun s t => ⟨fun c row down => ?unserved, fun c row served unsettled => ?unsettled, exec_getVersion,
    fun v served version => ?capabilities, fun base hash served version caps => ?algorithms, exec_getDigests,
    fun slot off len settled => ⟨fun c chain => exec_getCertificate_chain settled chain off len,
      fun none => exec_getCertificate_none settled none off len⟩,
    fun slot chain leafOk settled => ?certificate,
    fun slot nonce settled => ⟨fun c chain => exec_challenge_chain settled chain nonce,
      fun none => exec_challenge_none settled none nonce⟩,
    fun i nonce settled => ⟨exec_getMeasurements_number settled nonce, exec_getMeasurements_one settled nonce,
      exec_getMeasurements_all settled nonce, exec_getMeasurements_unknown settled nonce⟩,
    fun point settled => ⟨fun full => exec_keyExchange_full settled full point,
      fun room => exec_keyExchange_opens settled room point⟩⟩
  case unserved =>
    obtain ⟨ready, f, row⟩ := exec_spdmRequest (s := s) row
    rw [row, State.spdmServe_unserved down]
  case unsettled =>
    obtain ⟨f, row⟩ := exec_spdmRow (s := s) row
    rw [row, State.spdmServe_unready served unsettled]
  case capabilities =>
    rw [exec_getCapabilities served version]
    exact ⟨fun known => by rw [if_pos known], fun not11 not12 => by rw [if_neg (not_or.mpr ⟨not11, not12⟩)]⟩
  case algorithms =>
    rw [exec_negotiateAlgorithms served version caps]
    refine ⟨fun ecdsa sha => ?_, fun lacks => ?_⟩
    · rw [if_pos (Bool.and_eq_true_iff.mpr ⟨ecdsa, sha⟩)]
    · rw [if_neg (by rwa [Bool.not_eq_true, Bool.and_eq_false_iff])]
  case certificate =>
    rw [exec_setCertificate settled]
    refine ⟨fun none => ?_, fun some slot1 leaf => ?_, fun some bad => ?_⟩
    · rw [if_pos (List.isEmpty_iff.mpr none)]
    · rw [if_neg (mt List.isEmpty_iff.mp some), if_pos ⟨slot1, leaf⟩]
    · rw [if_neg (mt List.isEmpty_iff.mp some), if_neg (not_and_or.mpr (bad.imp_right Bool.eq_false_iff.mp))]

end Sys2Proof.Settled
end

/-! ## Proofs: cold reset, pins, rail faults and core faults -/
section
namespace Sys2Proof.Machine

section
variable {s : State}

theorem State.powered_iff : s.powered = true ↔ s.pins.vin = true ∧ s.pins.vaux = true := Bool.and_eq_true_iff

theorem State.powered_eq_false : s.powered = false ↔ s.pins.vin = false ∨ s.pins.vaux = false := Bool.and_eq_false_iff

/-! ### PERST_N high (R480) -/

theorem exec_perstNHigh_releases
    (h : s.pins.vin = true ∧ s.pins.vaux = true ∧ s.pins.inReset = true ∧ s.pins.thermTripN = true) :
    exec .perstNHigh s = .next (((s.modPins (fun p => { p with perstN := true })).modPins (fun p => { p with
      inReset := false })).modMod (fun m => { m with stageAt := s.clk.root })) := by
  obtain ⟨vin, vaux, reset, cool⟩ := h
  exact congrArg _ (if_pos (by simp [State.powered, vin, vaux, reset, cool]))

theorem exec_perstNHigh_held
    (h : ¬(s.pins.vin = true ∧ s.pins.vaux = true ∧ s.pins.inReset = true ∧ s.pins.thermTripN = true)) :
    exec .perstNHigh s = .next (s.modPins (fun p => { p with perstN := true })) := by
  refine congrArg _ (if_neg ?_)
  simp only [State.powered, State.modPins_same, Bool.and_eq_true]
  exact fun ⟨⟨⟨vin, vaux⟩, reset⟩, cool⟩ => h ⟨vin, vaux, reset, cool⟩

/-! ### Supplies and the trip point (R431, R476, R481) -/

theorem exec_vinTrip_down (h : s.pins.vin = false) : exec .vinTrip s = .next s := congrArg _ (if_pos (by rw [h]; rfl))

theorem exec_vinTrip_running (vin : s.pins.vin = true) (past : s.mod.stage ≠ 0) : exec .vinTrip s = .next
    ((s.free.2.modPins (fun p => { p with vin := false })).powerLost 0x42 0) := by
  refine congrArg _ ((if_neg (by simp [vin])).trans ?_)
  rw [beq_eq_false_iff_ne.mpr past]
  rfl

theorem exec_vinTrip_f0 (vin : s.pins.vin = true) (f0 : s.mod.stage = 0) : exec .vinTrip s = .next
    ((s.free.2.modPins (fun p => { p with vin := false })).powerLost 0x01 (s.free.1.toNat % 2 ^ 16)) := by
  refine congrArg _ ((if_neg (by simp [vin])).trans ?_)
  rw [f0]
  rfl

theorem exec_vauxFault_up (vaux : s.pins.vaux = true) : exec .vauxFault s = .next
    ((s.modPins (fun p => { p with vin := false, vaux := false })).powerLost 0x42 0) := congrArg _ (if_neg (by simp [vaux]))

theorem exec_vauxFault_down (vaux : s.pins.vaux = false) : exec .vauxFault s = .next s :=
  congrArg _ (if_pos (by rw [vaux]; rfl))

section
variable (powered : s.powered = true)
include powered

theorem exec_regulatorFault_powered (r : Nat) : exec (.regulatorFault r) s = .next (s.powerLost 0x01 r) :=
  congrArg _ (if_pos powered)

theorem exec_thermalReset_powered : exec .thermalReset s = .next
    (((s.resetAs 5 0).modPins (fun p => { p with thermTripN := false, inReset := true })).faultModule 0x40 0) :=
  congrArg _ (if_neg (by rw [powered]; decide))

end

section
variable (down : s.powered = false)
include down

theorem exec_regulatorFault_down (r : Nat) : exec (.regulatorFault r) s = .next s :=
  congrArg _ (if_neg (Bool.eq_false_iff.mp down))

theorem exec_thermalReset_down : exec .thermalReset s = .next s := congrArg _ (if_pos (by rw [down]; rfl))

end

theorem exec_thermalRecovery_cool (h : s.pins.thermTripN = true) : exec .thermalRecovery s = .next s := congrArg _ (if_pos h)

theorem exec_thermalRecovery_restarts (h : s.pins.thermTripN = false) : exec .thermalRecovery s = .next
    (((s.modPins (fun p => { p with thermTripN := true, inReset := !p.perstN })).modMod (fun m => { m with
      fault := false, stageAt := s.clk.root })).modPart 0 (fun x => { x with st := 0 })) :=
  congrArg _ (if_neg (Bool.eq_false_iff.mp h))

/-! ### Faults past F0 (R407) -/

theorem State.coreFails_started (there : s.started = true) (core : Nat) : s.coreFails core =
    (s.modMod (fun m => { m with badCores := setIns m.badCores core })).faultPart (s.partOfDie (core / 4)) 0x43 core :=
  if_neg (by rw [there]; decide)

theorem exec_rootCoreMemoryError_started (there : s.started = true) : exec .rootCoreMemoryError s = .next
    ((s.faultModule 0x41 0).modMod (fun m => { m with rootDead := true })) := congrArg _ (if_pos there)

theorem exec_coreFaults_unstarted (h : s.started = false) (core : Nat) :
    ∀ c ∈ [Instr.controlCoreWatchdog core, .controlCoreMemoryError core, .rootCoreMemoryError], exec c s = .next s := by
  have coreFails : s.coreFails core = s := if_pos (by rw [h]; rfl)
  simp only [List.forall_mem_cons, List.not_mem_nil, false_imp_iff, implies_true, and_true]
  exact ⟨congrArg _ coreFails, congrArg _ coreFails, congrArg _ (if_neg (Bool.eq_false_iff.mp h))⟩

section
variable {n : Nat}

theorem exec_rhizomeBoundaryLost_boot (h : s.mod.done = false) : exec (.rhizomeBoundaryLost n) s = .next s :=
  congrArg _ (if_pos (by rw [h]; rfl))

variable (done : s.mod.done = true)
include done

theorem exec_rhizomeBoundaryLost_done : exec (.rhizomeBoundaryLost n) s = .next
    (if s.partOfDie (boundaryDies n).1 = s.partOfDie (boundaryDies n).2 then
      s.faultPart (s.partOfDie (boundaryDies n).1) 0x44 n
      else s.modLog (fun l => { l with log := (0x44, n) :: l.log })) := congrArg _ (if_neg (by rw [done]; decide))

end
end

end Sys2Proof.Machine

namespace Sys2Proof.Settled
open Sys2Proof.Machine

/-- Settles O54: the pins and the rails by the supplies, then the faults past F0. -/
theorem faultsAndPins : Obligations.FaultsAndPins := by
  unfold Obligations.FaultsAndPins
  refine ⟨⟨fun s => rfl, fun s => ⟨exec_perstNHigh_releases, exec_perstNHigh_held⟩,
      fun s => ⟨exec_vinTrip_down, exec_vinTrip_running, exec_vinTrip_f0, exec_vauxFault_up, exec_vauxFault_down⟩,
      fun s vin vaux => ?powered, fun s down => ?unpowered,
      fun s => ⟨exec_thermalRecovery_cool, exec_thermalRecovery_restarts⟩⟩,
    fun s core there => ?core, fun s core h => exec_coreFaults_unstarted h core, fun s n done => ?boundary,
    fun s boot n => exec_rhizomeBoundaryLost_boot boot, rfl, rfl, rfl, rfl, rfl, rfl⟩
  case powered =>
    have powered := State.powered_iff.mpr ⟨vin, vaux⟩
    exact ⟨exec_regulatorFault_powered powered, exec_thermalReset_powered powered⟩
  case unpowered =>
    have down' := State.powered_eq_false.mpr down
    exact ⟨exec_regulatorFault_down down', exec_thermalReset_down down'⟩
  case core =>
    have fails := State.coreFails_started there core
    exact ⟨congrArg _ fails, congrArg _ fails, exec_rootCoreMemoryError_started there⟩
  case boundary =>
    rw [exec_rhizomeBoundaryLost_done done]
    exact ⟨fun one => by rw [if_pos one], fun two => by rw [if_neg two]⟩

end Sys2Proof.Settled
end

/-! ## Proofs: the stages of the fiddlehead sequence -/
section
namespace Sys2Proof.Machine

/-! ### A row of a stage that is not in progress (R404) -/

section
variable {s : State}

theorem exec_stage_outside {c : Instr} (row : (∃ a b, c = .stageF0 a b ∧ s.inStage 0 = false) ∨
    (∃ b, c = .stageF1 b ∧ s.inStage 1 = false) ∨ (∃ b, c = .stageF2 b ∧ s.inStage 2 = false) ∨
    (∃ b, c = .stageF3 b ∧ s.inStage 3 = false) ∨ (c = .stageF4 ∧ s.inStage 4 = false) ∨
    (c = .stageF5 ∧ s.inStage 5 = false)) : exec c s = .next s := by
  obtain ⟨a, b, rfl, h⟩ | ⟨b, rfl, h⟩ | ⟨b, rfl, h⟩ | ⟨b, rfl, h⟩ | ⟨rfl, h⟩ | ⟨rfl, h⟩ := row
  · exact congrArg _ (if_pos (by rw [h]; rfl))
  · exact congrArg _ (if_pos (by rw [h]; rfl))
  · exact congrArg _ (if_pos (by rw [h]; rfl))
  · exact congrArg _ (if_pos (by rw [h]; rfl))
  · exact congrArg _ (if_neg (Bool.eq_false_iff.mp h))
  · exact congrArg _ (if_pos (by rw [h]; rfl))

/-! ### F0 (R404) -/

theorem exec_stageF0_ends (stage : s.inStage 0 = true) (perst : s.pins.perstN = true) (rate width : Nat) :
    exec (.stageF0 rate width) s = .next (((s.modPins (fun p => { p with pwrGood := true, linkUp := true })).modMod (fun m =>
      { m with linkRate := BitVec.ofNat 4 rate, linkWidth := BitVec.ofNat 5 width })).toStage 1) :=
  congrArg _ (if_neg (by simp [stage, perst]))

/-! ### F1: the image that starts (R415) -/

/-- The signature of a slot's image verifies. -/
def bootSound (b : BootImages) (f : Flash) (k : Bool) : Bool :=
  (if k then b.ok1 else b.ok0) && !bit f.empty.toNat (b01 k)

/-- Its security version is not below the anti-rollback level either. -/
def bootAllowed (b : BootImages) (s : State) (k : Bool) : Bool :=
  bootSound b s.flash k && decide ((if k then s.flash.svn1 else s.flash.svn0) ≥ s.fuse.rollback.toNat)

theorem bootAllowed_iff {b : BootImages} {k : Bool} : bootAllowed b s k = true ↔ bootSound b s.flash k = true ∧
    s.fuse.rollback.toNat ≤ (if k then s.flash.svn1 else s.flash.svn0) := by
  rw [bootAllowed, Bool.and_eq_true, decide_eq_true_eq]

/-- A fault of F1, after which the module stays in recovery. -/
def State.recoveryFault (s : State) (code : Nat) : State :=
  (s.faultModule code 0).modMod (fun m => { m with recovery := true })

/-- Which slots verified, as F1 notes it. -/
def State.slotsNoted (s : State) (b : BootImages) : State :=
  { s with flash := { s.flash with
    valid := BitVec.ofNat 2 (b01 (bootSound b s.flash false) + 2 * b01 (bootSound b s.flash true)) } }

section
variable {b : BootImages} (stage : s.inStage 1 = true)
include stage

theorem exec_stageF1_unreadable (dead : b.readable = false) : exec (.stageF1 b) s = .next (s.recoveryFault 0x12) :=
  congrArg _ ((if_neg (by rw [stage]; decide)).trans (if_pos (by rw [dead]; rfl)))

variable (readable : b.readable = true)
include readable

theorem exec_stageF1_readable : exec (.stageF1 b) s = .next
    (match [s.flash.preferred, !s.flash.preferred].find? (bootAllowed b s) with
      | some k => ((s.slotsNoted b).startImage k b.digests).measureState 0
      | none => (s.slotsNoted b).recoveryFault (if bootSound b s.flash false || bootSound b s.flash true then 0x11 else 0x10)) :=
  congrArg _ ((if_neg (by rw [stage]; decide)).trans (if_neg (by rw [readable]; decide)))

theorem exec_stageF1_preferred (ok : bootAllowed b s s.flash.preferred = true) : exec (.stageF1 b) s = .next
    (((s.slotsNoted b).startImage s.flash.preferred b.digests).measureState 0) := by
  rw [exec_stageF1_readable stage readable, List.find?_cons_of_pos ok]

theorem exec_stageF1_other (bad : ¬bootAllowed b s s.flash.preferred = true) (ok : bootAllowed b s (!s.flash.preferred) = true) :
    exec (.stageF1 b) s = .next (((s.slotsNoted b).startImage (!s.flash.preferred) b.digests).measureState 0) := by
  rw [exec_stageF1_readable stage readable, List.find?_cons_of_neg bad, List.find?_cons_of_pos ok]

theorem exec_stageF1_none (bad : ∀ k, ¬bootAllowed b s k = true) : exec (.stageF1 b) s = .next
    ((s.slotsNoted b).recoveryFault (if bootSound b s.flash false || bootSound b s.flash true then 0x11 else 0x10)) := by
  rw [exec_stageF1_readable stage readable, List.find?_cons_of_neg (bad _), List.find?_cons_of_neg (bad _), List.find?_nil]

end

/-! ### F2: fuses, BIST, boundaries (R406) -/

section
variable {b : BistReport}

/-- F2 once its banks are repaired. -/
def State.repaired (s : State) (b : BistReport) : State :=
  b.banks.foldl (fun x (k, n) => x.bistBank k n) (s.measureAs 3 b.digest).fuseMarks

/-- The first die that BIST rejects, or that has no tile enabled. -/
def State.deadDie (s : State) (b : BistReport) : Option Nat :=
  b.badDie.orElse (fun _ => (List.range 8).find? (fun d => (s.repaired b).enabledOn d == 0))

variable (stage : s.inStage 2 = true)
include stage

theorem exec_stageF2_fuses (bad : b.fusesOk = false) :
    exec (.stageF2 b) s = .next ((s.measureAs 3 b.digest).faultModule 0x20 0) :=
  congrArg _ ((if_neg (by rw [stage]; decide)).trans (if_pos (by rw [bad]; rfl)))

variable (fuses : b.fusesOk = true)
include fuses

theorem exec_stageF2_repaired : exec (.stageF2 b) s = .next
    (match s.deadDie b with
      | some d => (s.repaired b).faultModule 0x21 d
      | none => match b.badBoundary with
        | some x => (s.repaired b).faultModule 0x22 x
        | none =>
          let w : State := { s.repaired b with fuse := { (s.repaired b).fuse with locked := true } }
          (w.modMod (fun m => { m with belowCode := w.belowOrdering })).toStage 3) :=
  congrArg _ ((if_neg (by rw [stage]; decide)).trans (if_neg (by rw [fuses]; decide)))

theorem exec_stageF2_dead {d : Nat} (dead : s.deadDie b = some d) :
    exec (.stageF2 b) s = .next ((s.repaired b).faultModule 0x21 d) := by
  rw [exec_stageF2_repaired stage fuses, dead]

variable (alive : s.deadDie b = none)
include alive

theorem exec_stageF2_boundary {x : Nat} (bad : b.badBoundary = some x) :
    exec (.stageF2 b) s = .next ((s.repaired b).faultModule 0x22 x) := by
  rw [exec_stageF2_repaired stage fuses, alive, bad]

theorem exec_stageF2_ends (whole : b.badBoundary = none) :
    let w : State := { s.repaired b with fuse := { (s.repaired b).fuse with locked := true } }
    exec (.stageF2 b) s = .next ((w.modMod (fun m => { m with belowCode := w.belowOrdering })).toStage 3) := by
  rw [exec_stageF2_repaired stage fuses, alive, whole]

end

/-! ### F3: the stacks (R278, R419) -/

/-- The 32 stacks with the latency that each measured. -/
def stackIdx (ms : List (Option Nat)) : List (Nat × Option Nat) := (List.range 32).map (fun k => (k, ms.getD k none))

/-- A stack whose latency is past 248 hclk. -/
def stackSlow (x : Nat × Option Nat) : Bool :=
  match x.2 with
  | some m => decide (248 < lambdaOf m)
  | none => false

/-- F3 ends: the latencies are set and the first memory frame starts on an sclk edge. -/
def State.stacksTrained (s : State) (ms : List (Option Nat)) : State :=
  let u := (stackIdx ms).foldl (fun x (k, m) => x.modStack k (fun y => { y with
    latency := BitVec.ofNat 8 (lambdaOf (m.getD 0)), selfRefresh := false, calFrame := 0 })) s
  let v := (u.untilRoot (roundUp u.clk.root 60)).modClk (fun c => { c with frameOrigin := some c.root })
  ((v.modMod (fun m => { m with keptHbm := m.hbmKept })).toStage 4).loadRecord

section
variable {ms : List (Option Nat)} (stage : s.inStage 3 = true)
include stage

theorem exec_stageF3_started : exec (.stageF3 ms) s = .next
    (match (stackIdx ms).find? (fun x => x.2.isNone), (stackIdx ms).find? stackSlow with
      | some (k, _), _ => s.faultModule 0x30 k
      | none, some (k, _) => s.faultModule 0x31 k
      | none, none => s.stacksTrained ms) := congrArg _ (if_neg (by rw [stage]; decide))

theorem exec_stageF3_untrained {k : Nat} {m : Option Nat} (bad : (stackIdx ms).find? (fun x => x.2.isNone) = some (k, m)) :
    exec (.stageF3 ms) s = .next (s.faultModule 0x30 k) := by
  rw [exec_stageF3_started stage, bad]

theorem exec_stageF3_slow (trained : (stackIdx ms).find? (fun x => x.2.isNone) = none) {k : Nat} {m : Option Nat}
    (slow : (stackIdx ms).find? stackSlow = some (k, m)) : exec (.stageF3 ms) s = .next (s.faultModule 0x31 k) := by
  rw [exec_stageF3_started stage, trained, slow]

theorem exec_stageF3_ends (all : ∀ x ∈ stackIdx ms, ∃ m, x.2 = some m ∧ lambdaOf m ≤ 248) :
    exec (.stageF3 ms) s = .next (s.stacksTrained ms) := by
  have trained : (stackIdx ms).find? (fun x => x.2.isNone) = none := by
    refine List.find?_eq_none.mpr (fun x there => ?_)
    obtain ⟨m, measured, -⟩ := all x there
    simp [measured]
  have fast : (stackIdx ms).find? stackSlow = none := by
    refine List.find?_eq_none.mpr (fun x there => ?_)
    obtain ⟨m, measured, bound⟩ := all x there
    simp [stackSlow, measured, bound]
  rw [exec_stageF3_started stage, trained, fast]

end

/-! ### F4 and F5, and the limits (R404, R420) -/

theorem exec_stageF4_ends (stage : s.inStage 4 = true) :
    exec .stageF4 s = .next ((s.untilRoot (s.mod.stageAt + 1200000000)).toStage 5) := congrArg _ (if_pos stage)

theorem exec_stageF5_ends (stage : s.inStage 5 = true) :
    let o := s.hyperframe s.mod.stageAt
    let u := ((s.untilRoot o).modClk (fun c => { c with origin := some o, markRoot := o, markMclk := 0 })).publish.measureLayout
    exec .stageF5 s = .next (((((List.range u.nParts).foldl (fun x p => x.modPart p (fun y => { y with st := 1 })) u).modMod
      (fun m => { m with done := true })).event 0).event 1).freezeNow := congrArg _ (if_neg (by rw [stage]; decide))

theorem State.stage_of_inStage {k : Nat} (h : s.inStage k = true) : s.mod.stage.toNat = k :=
  beq_iff_eq.mp (Bool.and_eq_true_iff.mp h).2

theorem exec_stageLimit : exec .stageLimit s = execStageLimit s := rfl

theorem exec_stageLimit_passed {k us : Nat} (limit : stageLimitUs k = some us) (stage : s.inStage k = true) :
    exec .stageLimit s = .next ((s.untilRoot (s.mod.stageAt + us * 6000)).faultModule 0x02 k) := by
  obtain rfl := State.stage_of_inStage stage
  rw [exec_stageLimit, execStageLimit]
  simp only [limit, stage, if_true]
  rfl

end

end Sys2Proof.Machine

namespace Sys2Proof.Settled
open Sys2Proof.Machine

/-- Settles O55: each stage's row by what the stage finds. -/
theorem stageRows : Obligations.StageRows := by
  unfold Obligations.StageRows
  intro s
  exact ⟨fun c => exec_stage_outside, fun rate width stage perst => exec_stageF0_ends stage perst rate width,
    fun b stage => ⟨exec_stageF1_unreadable stage,
      fun readable ok => exec_stageF1_preferred stage readable (bootAllowed_iff.mpr ok),
      fun readable bad ok => exec_stageF1_other stage readable (mt bootAllowed_iff.mp bad) (bootAllowed_iff.mpr ok),
      fun readable low high => exec_stageF1_none stage readable
        (Bool.forall_bool.mpr ⟨mt bootAllowed_iff.mp low, mt bootAllowed_iff.mp high⟩)⟩,
    fun b stage => ⟨exec_stageF2_fuses stage, fun fuses d => exec_stageF2_dead stage fuses,
      fun fuses alive x => exec_stageF2_boundary stage fuses alive, exec_stageF2_ends stage⟩,
    fun ms stage => ⟨fun k m => exec_stageF3_untrained stage, fun trained k m slow => exec_stageF3_slow stage trained slow,
      exec_stageF3_ends stage⟩,
    exec_stageF4_ends, exec_stageF5_ends, exec_stageLimit_passed rfl, exec_stageLimit_passed rfl,
    exec_stageLimit_passed rfl, exec_stageLimit_passed rfl, exec_stageLimit_passed rfl⟩

end Sys2Proof.Settled
end

/-! ## Proofs: divider change, power sample and pause -/
section
namespace Sys2Proof.Machine
open Sys2Proof.Claims

section
variable {s : State}

/-! ### The divider (R419, R420) -/

theorem exec_mclkDividerChange : exec .mclkDividerChange s = execMclkDividerChange s := rfl

/-- Why a pending divider waits. -/
theorem dividerStuck_iff : (s.clk.origin.isNone || s.frozen || s.work.runs.any (fun r => r.start.isSome)) = true ↔
    s.clk.origin = none ∨ s.frozen = true ∨ ∃ r ∈ s.work.runs, r.start.isSome = true := by
  rw [Bool.or_eq_true, Bool.or_eq_true, or_assoc, Option.isNone_iff_eq_none, List.any_eq_true]

theorem exec_mclkDividerChange_none (none : s.clk.pendingDiv = none) : exec .mclkDividerChange s = .next s := by
  rw [exec_mclkDividerChange, execMclkDividerChange, none]

section
variable {d : Nat} (pending : s.clk.pendingDiv = some d)
include pending

theorem exec_mclkDividerChange_stuck (stuck : s.clk.origin = none ∨ s.frozen = true ∨
    ∃ r ∈ s.work.runs, r.start.isSome = true) : exec .mclkDividerChange s = .next s := by
  rw [exec_mclkDividerChange, execMclkDividerChange, pending]
  exact congrArg _ (if_pos (dividerStuck_iff.mpr stuck))

theorem exec_mclkDividerChange_takes (free : ¬(s.clk.origin = none ∨ s.frozen = true ∨
    ∃ r ∈ s.work.runs, r.start.isSome = true)) :
    exec .mclkDividerChange s = .next ((s.untilRoot (s.hyperframe s.clk.root)).setDiv d) := by
  rw [exec_mclkDividerChange, execMclkDividerChange, pending]
  exact congrArg _ (if_neg (mt dividerStuck_iff.mp free))

end

/-! ### The power sample (R429) -/

theorem exec_powerSample (powered : s.powered = true) (watts amps : Nat) :
    exec (.powerSample watts amps) s = .next (s.powerSample watts amps) := congrArg _ (if_pos powered)

/-! ### The pause (R169, R430) -/

/-- A pause begins, at mclk `m`. -/
def State.pauseFrom (s : State) (m : Nat) : State :=
  s.modPwr (fun p => { p with
    pauseDue := false, paused := some s.clk.root, pausedMclk := m
    pauseCount := BitVec.ofNat 16 (satAdd 16 p.pauseCount.toNat 1) })

section
variable (live : Live s)
include live

theorem exec_powerPause_live : exec .powerPause s = .next (if s.pwr.pauseDue then s.pauseFrom s.mclk else s) :=
  congrArg _ (State.unlessHalted_next live.1 live.2 _)

end

/-- The root cycle in which a pause that began at `began` may end. -/
def State.pauseOver (s : State) (began : Nat) : State :=
  let u := s.untilRoot (began + wholeHold frameRoot s.clk.div 1 * s.clk.div)
  u.shiftUnits u.pwr.pausedMclk (u.mclk - u.pwr.pausedMclk) 2

section
variable (live : s.frozen = false)
include live

theorem exec_powerPauseEnd_live : exec .powerPauseEnd s =
    .next (match s.pwr.paused with | some r => s.pauseEnd r | none => s) := congrArg _ (State.unlessFrozen_next live _)

theorem exec_powerPauseEnd_none (none : s.pwr.paused = none) : exec .powerPauseEnd s = .next s := by
  rw [exec_powerPauseEnd_live live, none]

variable {began : Nat} (paused : s.pwr.paused = some began)
include paused

theorem exec_powerPauseEnd_repeats (wants : (s.pauseOver began).pwr.wantsPause = true) : exec .powerPauseEnd s = .next
    ((s.pauseOver began).pauseFrom (s.untilRoot (began + wholeHold frameRoot s.clk.div 1 * s.clk.div)).mclk) := by
  rw [exec_powerPauseEnd_live live, paused]
  exact congrArg _ (if_pos wants)

theorem exec_powerPauseEnd_ends (done : (s.pauseOver began).pwr.wantsPause = false) : exec .powerPauseEnd s = .next
    ((s.pauseOver began).modPwr (fun p => { p with paused := none, pauseDue := false })) := by
  rw [exec_powerPauseEnd_live live, paused]
  exact congrArg _ (if_neg (Bool.eq_false_iff.mp done))

end
end

end Sys2Proof.Machine

namespace Sys2Proof.Settled
open Sys2Proof.Machine Sys2Proof.Claims

/-- Settles O56: the divider by what keeps it waiting, the sample, and the pause's begin and end by its condition. -/
theorem clockAndCapRows : Obligations.ClockAndCapRows := by
  unfold Obligations.ClockAndCapRows
  refine ⟨fun s d pending => ⟨exec_mclkDividerChange_stuck pending, exec_mclkDividerChange_takes pending⟩,
    fun s => exec_mclkDividerChange_none,
    fun s watts amps vin vaux => exec_powerSample (Bool.and_eq_true_iff.mpr ⟨vin, vaux⟩) watts amps, fun s live => ?_,
    fun s began live paused => ⟨exec_powerPauseEnd_repeats live paused, exec_powerPauseEnd_ends live paused⟩,
    fun s => exec_powerPauseEnd_none⟩
  rw [exec_powerPause_live live]
  exact ⟨fun none => by rw [if_neg (Bool.eq_false_iff.mp none)], fun due => congrArg _ (if_pos due)⟩

end Sys2Proof.Settled
end

/-! ## Proofs: power states and wakes -/
section
namespace Sys2Proof.Machine

section
variable {s : State} {sc : Scope}

/-! ### The evaluation (R424) -/

theorem State.evaluate_transit (h : s.mod.done = false ∨ (s.scope (Scope.key sc)).exitAt.isSome = true) : s.evaluate sc = s :=
  if_pos (by rcases h with boot | exits <;> simp [*])

section
variable {code : Nat} {wake : Option Nat}

theorem State.enterState_same (same : code = (s.scope (Scope.key sc)).code) :
    s.enterState sc code wake = s.setScope (Scope.key sc) { s.scope (Scope.key sc) with wakeAt := wake } := if_pos same

theorem State.enterState_run (run : code = 0) (idle : (s.scope (Scope.key sc)).code = 1) : s.enterState sc code wake =
    (s.setScope (Scope.key sc) { code := 0, since := s.mclk, wakeAt := wake }).tracePower sc 1 0 := by
  subst run
  refine (if_neg (by rw [idle]; decide)).trans ?_
  rw [idle]
  rfl

end

section
variable (done : s.mod.done = true) (stays : (s.scope (Scope.key sc)).exitAt = none)
include done stays

theorem State.evaluate_done : s.evaluate sc =
    if (s.chooseState sc).1 < (s.scope (Scope.key sc)).code ∧ 2 ≤ (s.scope (Scope.key sc)).code then
      s.setScope (Scope.key sc) { s.scope (Scope.key sc) with wakeAt := some s.sclk }
    else if s.frozen = true ∧ (s.scope (Scope.key sc)).code < (s.chooseState sc).1 then s
    else s.enterState sc (s.chooseState sc).1 (s.chooseState sc).2 := if_neg (by simp [done, stays])

theorem State.evaluate_wakes (shallower : (s.chooseState sc).1 < (s.scope (Scope.key sc)).code)
    (deep : 2 ≤ (s.scope (Scope.key sc)).code) :
    s.evaluate sc = s.setScope (Scope.key sc) { s.scope (Scope.key sc) with wakeAt := some s.sclk } :=
  (State.evaluate_done done stays).trans (if_pos ⟨shallower, deep⟩)

theorem State.evaluate_frozen (deeper : (s.scope (Scope.key sc)).code < (s.chooseState sc).1) (frozen : s.frozen = true) :
    s.evaluate sc = s :=
  (State.evaluate_done done stays).trans ((if_neg (fun h => by omega)).trans (if_pos ⟨frozen, deeper⟩))

theorem State.evaluate_enters
    (h : ¬((s.chooseState sc).1 < (s.scope (Scope.key sc)).code ∧ 2 ≤ (s.scope (Scope.key sc)).code))
    (k : ¬(s.frozen = true ∧ (s.scope (Scope.key sc)).code < (s.chooseState sc).1)) :
    s.evaluate sc = s.enterState sc (s.chooseState sc).1 (s.chooseState sc).2 :=
  (State.evaluate_done done stays).trans ((if_neg h).trans (if_neg k))

theorem State.evaluate_deeper (deeper : (s.scope (Scope.key sc)).code < (s.chooseState sc).1) (live : s.frozen = false) :
    s.evaluate sc = s.enterState sc (s.chooseState sc).1 (s.chooseState sc).2 :=
  State.evaluate_enters done stays (by omega) (by simp [live])

theorem State.evaluate_same (same : (s.chooseState sc).1 = (s.scope (Scope.key sc)).code) :
    s.evaluate sc = s.setScope (Scope.key sc) { s.scope (Scope.key sc) with wakeAt := (s.chooseState sc).2 } :=
  (State.evaluate_enters done stays (by omega) (by omega)).trans (State.enterState_same same)

theorem State.evaluate_run (run : (s.chooseState sc).1 = 0) (idle : (s.scope (Scope.key sc)).code = 1) :
    s.evaluate sc =
      (s.setScope (Scope.key sc) { code := 0, since := s.mclk, wakeAt := (s.chooseState sc).2 }).tracePower sc 1 0 :=
  (State.evaluate_enters done stays (by omega) (by omega)).trans (State.enterState_run run idle)

end

/-! ### Wakes (R421, R426) -/

theorem exec_powerWake : exec (.powerWake sc) s = execPowerWake sc s := rfl
theorem exec_wakeComplete : exec (.wakeComplete sc) s = .next (s.wakeComplete sc) := rfl

theorem exec_powerWake_none (none : (s.scope (Scope.key sc)).wakeAt = none) : exec (.powerWake sc) s = .next s := by
  rw [exec_powerWake, execPowerWake]
  simp only [none]

theorem exec_powerWake_due {t : Nat} (due : (s.scope (Scope.key sc)).wakeAt = some t)
    (asleep : (s.scope (Scope.key sc)).code ≠ 0) (stays : (s.scope (Scope.key sc)).exitAt = none) :
    exec (.powerWake sc) s = .next ((s.untilRoot (60 * t)).beginExit sc) := by
  rw [exec_powerWake, execPowerWake]
  simp only [due]
  exact congrArg _ (if_neg (by simp [asleep, stays]))

theorem exec_earlyWake_awake (awake : (s.scope (Scope.key sc)).code = 0) : exec (.earlyWake sc) s = .next s :=
  congrArg _ (if_pos awake)

section
variable (asleep : (s.scope (Scope.key sc)).code ≠ 0)
include asleep

theorem exec_earlyWake_exiting (exits : (s.scope (Scope.key sc)).exitAt.isSome = true) :
    exec (.earlyWake sc) s = .next s.earlyCounted := congrArg _ ((if_neg asleep).trans (if_pos exits))

theorem exec_earlyWake_stays (stays : (s.scope (Scope.key sc)).exitAt = none) :
    exec (.earlyWake sc) s = .next (s.earlyCounted.beginExit sc) :=
  congrArg _ ((if_neg asleep).trans (if_neg (by simp [stays])))

end

theorem State.wakeComplete_none (none : (s.scope (Scope.key sc)).exitAt = none) : s.wakeComplete sc = s := by
  unfold State.wakeComplete
  simp only [none]

theorem State.wakeComplete_ends {r : Nat} (exits : (s.scope (Scope.key sc)).exitAt = some r) :
    let u := (s.untilRoot r).countStay sc (s.scope (Scope.key sc))
    s.wakeComplete sc = ((if 3 ≤ (s.scope (Scope.key sc)).code then u.napStacks sc false else u).setScope (Scope.key sc)
      {}).tracePower sc (s.scope (Scope.key sc)).code 0 := by
  unfold State.wakeComplete
  simp only [exits]

end

end Sys2Proof.Machine

namespace Sys2Proof.Settled
open Sys2Proof.Machine

/-- Settles O57: the evaluation by the state chosen and the state in force, the wakes by the scope's exit. -/
theorem powerStateRows : Obligations.PowerStateRows := by
  unfold Obligations.PowerStateRows
  refine fun s sc => ⟨fun transit => ?_, fun done stays => ⟨fun shallower deep => ?_, fun deeper frozen => ?_,
      fun deeper live => ?_, fun same => ?_, fun run idle => ?_⟩,
    exec_powerWake_none, fun t => exec_powerWake_due, exec_earlyWake_awake,
    fun asleep => ⟨exec_earlyWake_exiting asleep, exec_earlyWake_stays asleep⟩, fun none => ?_, fun r exits => ?_⟩
  · exact congrArg _ (State.evaluate_transit transit)
  · exact congrArg _ (State.evaluate_wakes done stays shallower deep)
  · exact congrArg _ (State.evaluate_frozen done stays deeper frozen)
  · exact congrArg _ (State.evaluate_deeper done stays deeper live)
  · exact congrArg _ (State.evaluate_same done stays same)
  · exact congrArg _ (State.evaluate_run done stays run idle)
  · exact congrArg _ (State.wakeComplete_none none)
  · exact congrArg _ (State.wakeComplete_ends exits)

end Sys2Proof.Settled
end

/-! ## Proofs: PERF_SNAPSHOT, TRACE_CTL, QUIESCE and QUIESCED -/
section
namespace Sys2Proof.Machine
open Sys2Proof.Claims

section
variable {s : State}

/-- Counting the idle mclk of a bank leaves the queues as they are. -/
@[simp] theorem State.tally_queue (s : State) (b : Nat) : (s.tally b).queue = s.queue := by
  obtain ⟨bs, e⟩ := s.tally_frame b
  rw [e]
  rfl

@[simp] theorem State.tally_sel (s : State) (b : Nat) : (s.tally b).sel = s.sel := by
  obtain ⟨bs, e⟩ := s.tally_frame b
  rw [e]

section
variable {q : Nat} {w : Waiting}

/-! ### PERF_SNAPSHOT (R440, R444) -/

theorem State.perfBody_writes (id : Nat) (b : List Byte) :
    let k := fld b 16 1
    let u := s.tally k
    let v := (u.startAt q id u.mclk).wrAt (partOf s q) (cAddr b 24)
      ((u.sampleOf k u.mclk).snapshot k 0xFFFF u.mclk (fld b 4 2) q 2 1203712)
    s.perfBody q id b = (if bit (fld b 17 1) 0 = true then v.resetBank k else v).finish q id [⟨0, 0, 0⟩] := by
  simp only [State.perfBody, State.startAt_queue, State.tally_queue]
  rfl

theorem exec_perfSnapshot {t : State} (h : Dispatches s q 0x70 w) (body : (begun s q w).perfBody q w.id w.bytes = t) :
    exec (.perfSnapshot q) s = .next (t.pump q) := congrArg _ (State.dispatch_ok h.1 h.2 (congrArg _ body))

/-! ### TRACE_CTL (R449) -/

theorem exec_traceCtl {t : State} (h : Dispatches s q 0x71 w) (body : (begun s q w).traceBody q w.id w.bytes = t) :
    exec (.traceCtl q) s = .next (t.pump q) := congrArg _ (State.dispatch_ok h.1 h.2 (congrArg _ body))

section
variable {id : Nat} {b : List Byte}

theorem State.traceBody_stops (stop : fld b 16 1 = 0)
    (running : (((s.startAt q id s.mclk).traceFlush (partOf s q)).part (partOf s q)).trace.running = true) :
    s.traceBody q id b = (((((s.startAt q id s.mclk).traceFlush (partOf s q)).traceRecord (partOf s q) false).modRing
      (partOf s q) (fun r => { r with running := false })).finish q id [⟨0, 0, 0⟩]) := by
  unfold partOf at running ⊢
  simp only [State.traceBody, stop, running, if_true]
  rfl

theorem State.traceBody_starts (start : fld b 16 1 = 1) :
    let p := partOf s q
    let v := ((((s.startAt q id s.mclk).traceFlush p).modRing p (fun _ =>
      { running := true, base := cAddr b 24, bytes := fld b 32 8, wrap := fld b 17 1 == 1 })).wrAt p
        (cAddr b 24) (List.replicate 4096 0)).traceHeader p
    s.traceBody q id b = (v.traceRecord p true).finish q id [⟨0, 0, 0⟩] := by
  simp only [State.traceBody, start]
  rfl

end

/-! ### QUIESCE and QUIESCED (R191 to R194) -/

theorem exec_quiesce {t : State} (h : Dispatches s q 0x7E w) (body : (begun s q w).quiesceBody q w.id = t) :
    exec (.quiesce q) s = .next (t.pump q) := congrArg _ (State.dispatch_ok h.1 h.2 (congrArg _ body))

theorem State.quiesceBody_again {id : Nat} (quiesced : (s.part (partOf s q)).st = 3) :
    s.quiesceBody q id = (s.startAt q id s.mclk).finish q id [⟨0, 0, 0⟩] := if_pos quiesced

theorem State.quiesceBody_tokens {id : Nat} (other : (s.part (partOf s q)).st ≠ 3) :
    s.quiesceBody q id = (s.startAt q id s.mclk).placeTokens (partOf s q) := if_neg other

theorem State.foldl_finish_queue (es : List Earned) (l : List (Nat × Exec)) (s : State) :
    (l.foldl (fun s (q, e) => s.finish q e.id es) s).queue = s.queue := by
  induction l generalizing s with
  | nil => rfl
  | cons x l ih => exact (ih (s.finish x.1 x.2.id es)).trans (s.finish_queue x.1 x.2.id es)

/-- The end of commands leaves a partition the queues it has. -/
theorem State.finishOp_queuesOf (s : State) (p op k : Nat) (es : List Earned) :
    (s.finishOp p op es).queuesOf k = s.queuesOf k := by
  unfold State.queuesOf State.finishOp
  rw [State.foldl_finish_queue]

theorem exec_quiesced_halted {p : Nat} (live : s.frozen = false) (quiescing : (s.part p).quiescing = true)
    (halted : s.halted p = true) : exec (.quiesced p) s = .next
      (((((s.queuesOf p).foldl (fun x q => (x.modQueue q (fun w => { w with
        st := 3 })).modQw q (fun y => { y with stopToken := false })) (s.finishOp p 0x7E [⟨0, 0, 0⟩])).modPart p (fun y =>
          { y with st := 3, quiescing := false })).event 4).event 1) := by
  refine congrArg _ ((State.unlessFrozen_next live _).trans
    ((if_pos (Bool.and_eq_true_iff.mpr ⟨quiescing, halted⟩)).trans ?_))
  rw [← s.finishOp_queuesOf p 0x7E p [⟨0, 0, 0⟩]]
  rfl

end
end

end Sys2Proof.Machine

namespace Sys2Proof.Settled
open Sys2Proof.Machine Sys2Proof.Claims

/-- Settles O27: each command dispatched, its body by what its fields and its partition's state ask. -/
theorem snapshotTraceQuiesce : Obligations.SnapshotTraceQuiesce := by
  unfold Obligations.SnapshotTraceQuiesce
  exact ⟨fun s q w => ⟨fun h => exec_perfSnapshot h (State.perfBody_writes w.id w.bytes),
      fun h stop running => exec_traceCtl h (State.traceBody_stops stop running),
      fun h start => exec_traceCtl h (State.traceBody_starts start),
      fun h quiesced => exec_quiesce h (State.quiesceBody_again quiesced),
      fun h other => exec_quiesce h (State.quiesceBody_tokens other)⟩,
    fun s p => exec_quiesced_halted⟩

end Sys2Proof.Settled
end

/-! ## Proofs: break, counter banks, sampling and trace blocks -/
section
namespace Sys2Proof.Machine

section
variable {s : State} {v : Nat}

/-! ### The break (R451, R452) -/

/-- DEBUG.BREAK once its fields are written. -/
def State.breakFields (s : State) (v : Nat) : State :=
  s.modDbg (fun d => { d with
    brkEnable := bit v 0, brkPlane := BitVec.ofNat 2 (bits v 3 2), brkMb := BitVec.ofNat 16 (bits v 8 16) })

/-- The break that was hit disarms itself. -/
def State.breakDisarmed (s : State) (v : Nat) : State :=
  (s.breakFields v).modDbg (fun d => { d with brkHit := false, brkEnable := false })

/-- A run that the break holds. -/
def Run.atBreak (r : Run) : Bool :=
  match r.hold with
  | some h => h.cause == 1
  | none => false

theorem Run.atBreak_eq_false {r : Run} (h : ∀ x, r.hold = some x → x.cause ≠ 1) : r.atBreak = false := by
  unfold Run.atBreak
  split
  next x held => exact beq_eq_false_iff_ne.mpr (h x held)
  next => rfl

section
variable (served : s.allServed = true)
include served

theorem exec_continueBreak_served : exec (.continueBreak v) s = .next (s.writeBreak v) := congrArg _ (if_pos served)

theorem exec_continueBreak_fields (h : bit v 2 = false ∨ s.dbg.brkHit = false) :
    exec (.continueBreak v) s = .next (s.breakFields v) :=
  (exec_continueBreak_served served).trans (congrArg _ (if_neg (by
    rw [Bool.not_eq_true, Bool.and_eq_false_iff]
    exact h)))

variable (asks : bit v 2 = true) (hit : s.dbg.brkHit = true)
include asks hit

theorem exec_continueBreak_hit : exec (.continueBreak v) s = .next
    (if (s.breakDisarmed v).frozen || (s.breakDisarmed v).pwr.paused.isSome then s.breakDisarmed v
      else match (s.breakDisarmed v).work.runs.find? Run.atBreak with
        | some r => match r.hold with
          | some h => (s.breakDisarmed v).endHold r h
          | none => s.breakDisarmed v
        | none => s.breakDisarmed v) :=
  (exec_continueBreak_served served).trans (congrArg _ (if_pos (Bool.and_eq_true_iff.mpr ⟨asks, hit⟩)))

theorem exec_continueBreak_waits
    (stands : (s.breakDisarmed v).frozen = true ∨ (s.breakDisarmed v).pwr.paused.isSome = true) :
    exec (.continueBreak v) s = .next (s.breakDisarmed v) :=
  (exec_continueBreak_hit served asks hit).trans (congrArg _ (if_pos (Bool.or_eq_true_iff.mpr stands)))

theorem exec_continueBreak_ends (live : (s.breakDisarmed v).frozen = false) (runs : (s.breakDisarmed v).pwr.paused = none)
    {r : Run} {h : Hold} (held : r.hold = some h) (first : (s.breakDisarmed v).work.runs.find? Run.atBreak = some r) :
    exec (.continueBreak v) s = .next ((s.breakDisarmed v).endHold r h) := by
  rw [exec_continueBreak_hit served asks hit, if_neg (by simp [live, runs]), first]
  simp only [held]

theorem exec_continueBreak_none (none : ∀ r ∈ (s.breakDisarmed v).work.runs, ∀ h, r.hold = some h → h.cause ≠ 1) :
    exec (.continueBreak v) s = .next (s.breakDisarmed v) := by
  have found : (s.breakDisarmed v).work.runs.find? Run.atBreak = .none :=
    List.find?_eq_none.mpr (fun r there => Bool.eq_false_iff.mp (Run.atBreak_eq_false (none r there)))
  rw [exec_continueBreak_hit served asks hit, found]
  exact congrArg _ (ite_self _)

end

/-! ### CNT_CTRL and SAMPLE (R435, R439 to R441) -/

section
variable (served : s.allServed = true)
include served

theorem exec_counterReset_served :
    exec (.counterReset v) s = .next (if bit v 0 then s.resetBank s.sel.cnt.toNat else s) := congrArg _ (if_pos served)

theorem exec_sample_served : exec (.sample v) s = .next (s.writeSample v) := congrArg _ (if_pos served)

end

theorem State.writeSample_go (go : bit v 0 = true) :
    let u := s.tally s.sel.cnt.toNat
    let b := u.sampleOne u.sel.cnt.toNat s.sel.eng.toNat u.mclk
    s.writeSample v = { u with sel := { u.sel with
      sampleDone := true, sampleEpoch := b.epoch
      sampleData := (List.range 16).map (fun i => BitVec.ofNat 64 (fld (b.sampled s.sel.eng.toNat) (8 * i) 8)) } } := by
  refine (if_pos go).trans ?_
  simp only [State.tally_sel]

theorem State.writeSample_none (none : bit v 0 = false) : s.writeSample v = s := if_neg (Bool.eq_false_iff.mp none)

theorem exec_debug_unserved (h : s.allServed = false) :
    ∀ c ∈ [Instr.continueBreak v, .counterReset v, .sample v], exec c s = .next s := by
  have down := Bool.eq_false_iff.mp h
  simp only [List.forall_mem_cons, List.not_mem_nil, false_imp_iff, implies_true, and_true]
  exact ⟨congrArg _ (if_neg down), congrArg _ (if_neg down), congrArg _ (if_neg down)⟩

/-! ### A trace block (R448) -/

section
variable {src : Nat}

theorem exec_traceBlockWrite_idle (h : s.frozen = true ∨ (s.part (s.partOfSrc src)).trace.running = false) :
    exec (.traceBlockWrite src) s = .next s := congrArg _ (if_pos (by simpa using h))

theorem exec_traceBlockWrite_drains (live : s.frozen = false) (on : (s.part (s.partOfSrc src)).trace.running = true) :
    exec (.traceBlockWrite src) s = .next (s.traceDrain src) := congrArg _ (if_neg (by simp [live, on]))

end
end

end Sys2Proof.Machine

namespace Sys2Proof.Settled
open Sys2Proof.Machine

/-- Settles O48: CONTINUE by the break and by what stands, the bank and the sample by their bit, the trace block by its
ring. -/
theorem breakAndCounters : Obligations.BreakAndCounters := by
  unfold Obligations.BreakAndCounters
  refine ⟨fun s v served => ⟨exec_continueBreak_fields served, exec_continueBreak_waits served,
      fun asks hit live runs r h held first => exec_continueBreak_ends served asks hit live runs held first,
      exec_continueBreak_none served⟩,
    fun s v served => ⟨fun reset => ?_, fun keep => ?_, fun go => ?_, fun none => ?_⟩,
    fun s v h => exec_debug_unserved h, fun s src => ⟨exec_traceBlockWrite_idle, exec_traceBlockWrite_drains⟩⟩
  · rw [exec_counterReset_served served, if_pos reset]
  · rw [exec_counterReset_served served, if_neg (Bool.eq_false_iff.mp keep)]
  · rw [exec_sample_served served, State.writeSample_go go]
  · rw [exec_sample_served served, State.writeSample_none none]

end Sys2Proof.Settled
end
